-- ==== Sys2Proof/Word.lean ====
section
/-!
DEFINITION. The word and byte types of the part and their plainest arithmetic (R3 to R6).
-/
namespace Sys2Proof

/-- A 32-bit register word. -/
abbrev Word := BitVec 32
/-- A 64-bit pair. -/
abbrev Dword := BitVec 64
/-- An octet. -/
abbrev Byte := BitVec 8

end Sys2Proof
end

