-- ==== Sys2Proof/Types.lean ====
section
/-!
DEFINITION. The types of the commands' operands and of what travels inside the part: requesters, power halves, records,
lumps, frames.
-/
namespace Sys2Proof

/-- A sparse map: a list of keys and values, keys rising.  What an unlisted key stands for is said where it is used. -/
abbrev SMap (α : Type) := List (Nat × α)

/-- Who accesses registers (R44, R58). -/
inductive Requester where
  | headframe
  | host
  | gallery (k : Fin 8)
  deriving DecidableEq, Repr

/-- The source number of a requester (R58). -/
def Requester.src : Requester → Nat
  | .headframe => 0x000
  | .host => 0x268
  | .gallery k => 0x280 + k.val

/-- A small number for each requester, for the state kept per requester (R44). -/
def Requester.slot : Requester → Nat
  | .headframe => 0
  | .host => 1
  | .gallery k => 2 + k.val

/-- The two power halves (R10). -/
inductive Half where
  | north | south
  deriving DecidableEq, Repr

/-- 0 for north, 1 for south. -/
def Half.num : Half → Nat
  | .north => 0
  | .south => 1

/-- The analogue channels of a half (R10). -/
def Half.channels : Half → List Nat
  | .north => List.range 8
  | .south => (List.range 8).map (· + 8)

/-- The modes, in the encoding order of R451. -/
inductive Mode where
  | off | boot | load | commission | protect | degraded | hold | safe
  deriving DecidableEq, Repr

/-- The encoding of R451. -/
def Mode.code : Mode → Nat
  | .off => 0 | .boot => 1 | .load => 2 | .commission => 3 | .protect => 4 | .degraded => 5 | .hold => 6 | .safe => 7

/-- The causes of loss of an angle clock that the measured waveform of its reference shows (R77). -/
inductive AngCause where
  | low | range | slip
  deriving DecidableEq, Repr

/-- Their numbers in the table of R77. -/
def AngCause.code : AngCause → Nat
  | .low => 1 | .range => 3 | .slip => 4

/-- A Tally record before it is laid out (R365): its type, its producer, its time-stamp and its body as (bytes, value)
fields in the order of R365.  `order` is the order of production (R72). -/
structure Record where
  typ : Nat
  src : Nat
  tsc : Nat
  fields : List (Nat × Nat)
  late : Bool := false
  order : Nat := 0
  deriving DecidableEq, Repr

/-- The header of a raw block (R98), with its reserved bytes left out. -/
structure RawHeader where
  first : Nat
  ch : Nat
  rate40 : Bool
  gain : Nat
  refExt : Bool
  calFb : Bool
  bgcHold : Bool
  gap : Bool
  markN : Nat
  clipN : Nat
  clipFirst : Nat
  min : BitVec 16
  max : BitVec 16
  markCause : Nat
  blockSeq : Nat
  deriving DecidableEq, Repr

/-- An ASDU of a sampled-value frame, by the fields SVI reads (R154): the octets of svID, the fields that are there, the
simulation flag being the frame's, and the entries of seqData as a value and a quality. -/
structure Asdu where
  svid : List Byte
  smpCnt : Option Nat
  confRev : Option Nat
  smpSynch : Option Nat
  gmIdentity : Option Nat
  entries : List (Word × Word)
  deriving DecidableEq, Repr

/-- A sampled-value frame (R154): the count of its 802.1Q tags, its destination, APPID, simulation flag and ASDUs. -/
structure SvFrame where
  tags : Nat
  dmac : BitVec 48
  appid : BitVec 16
  sim : Bool
  asdus : List Asdu
  deriving DecidableEq, Repr

/-- What follows the write that hands a descriptor back (R415, R419): the mover, the status, whether the completion fires its vector, and
the area and count that AUTO writes to RIDX. -/
structure MvDone where
  mover : Nat
  status : Nat
  irq : Bool
  ridx : Option (Nat × Nat) := none
  deriving DecidableEq, Repr

/-- What a lump carries besides its tag.  The spec gives the contents of each skip's lumps in the producing block's
chapter; the fabric reads none of it. -/
inductive LumpBody where
  /-- No payload (LEN = 0), or one that its consumer does not read. -/
  | empty
  /-- Octets. -/
  | bytes (b : List Byte)
  /-- A record on its way to Tally (skip 29). -/
  | record (r : Record)
  /-- The header of a raw block (skips 0 to 5, R97). -/
  | rawHeader (h : RawHeader)
  /-- 32 raw codes of channel `ch` from sample index `first` on (skips 0 to 5, R97). -/
  | rawSamples (ch first : Nat) (codes : List (BitVec 16))
  /-- Eight sample words of one half, of the tap sample with index `k` (skips 6 to 9, R137). -/
  | sampleWords (k : Nat) (words : List Word)
  /-- The output image of a pit: ON, DRIVEN and the transitions as (channel, state, clock, AT) (skips 18 to 21, R191). -/
  | image (on driven : BitVec 64) (sched : List (Nat × Bool × Nat × Nat))
  /-- A step's Assay points: low 24 bits of k, domain code and the entries as (address bits, QUAL, VALUE word) (skips 22
  to 25, R193). -/
  | points (k domain : Nat) (entries : List (Nat × Nat × Nat))
  /-- A result of the location unit, by the fields of R280 (skips 14 to 17). -/
  | twu (kind group flags evseq arr arrCal value calFrac : Nat)
  /-- Octets for record memory from an address on (skip 26). -/
  | store (addr : Nat) (b : List Byte)
  /-- Octets for host memory from an address on; the last of a mover's completion carries what follows its write (skip 30, R415). -/
  | hostWrite (addr : Nat) (b : List Byte) (done : Option MvDone)
  /-- A part of a sampled-value frame from an octet on (skips 27 and 28); the last part completes the frame: the TSC at which NET
  time-stamped it, and what SVI reads of it, none where it is not such a frame (R154, log entry 75). -/
  | svPart (ofs : Nat) (frame : Option (Nat × Option SvFrame))
  deriving DecidableEq, Repr

/-- A frame at a network port (R382, R383): its EtherType, length, whether its FCS holds, its source, the sequence number of its
redundancy tag or trailer, whether this module sent it, whether it is addressed only to this module, whether it is a PTP Sync or Follow_Up
(R388), and of a sampled-value frame what SVI reads
of it (none where that breaks the format of R154). -/
structure NetFrame where
  etype : BitVec 16
  len : BitVec 14
  fcsOk : Bool
  src : BitVec 48
  seq : Option (BitVec 16)
  own : Bool
  forUs : Bool
  sync : Bool := false
  sv : Option SvFrame := none
  deriving DecidableEq, Repr

/-- An Announce message (R387, R389, R390), with the inaccuracy of its IEEE_C37_238 TLV where it carries one. -/
structure Announce where
  domain : Byte
  sender : BitVec 80
  gmid : BitVec 64
  prio1 : Byte
  clockClass : Byte
  accuracy : Byte
  variance : BitVec 16
  prio2 : Byte
  steps : BitVec 16
  utcOfs : BitVec 16
  utcValid : Bool
  leap61 : Bool
  leap59 : Bool
  timeSource : Byte
  inacc : Option (BitVec 32)
  deriving DecidableEq, Repr

/-- A launch descriptor as its producer writes it (R397). -/
structure LqDesc where
  buf : BitVec 64
  len : BitVec 16
  own : Bool
  timed : Bool
  launch : BitVec 32
  deriving DecidableEq, Repr

/-- A mover descriptor as the host writes it (R414). -/
structure MvDesc where
  addr : BitVec 64
  len : BitVec 32
  own : Bool
  irq : Bool
  deriving DecidableEq, Repr

/-- A block that Gallery posts for a BLOCK mover (R413): its number, its bytes, and whether they hold a poisoned word, which reads as 0 (R510). -/
structure Block where
  num : BitVec 32
  bytes : List Byte
  poisoned : Bool := false
  deriving DecidableEq, Repr

/-- How the endpoint is reset (R407). -/
inductive EpReset where
  | perst | dlDown | function
  deriving DecidableEq, Repr

/-- A register access (R49): its offset in the 4 MiB window, the bytes from the first enabled to the last, and whether its byte
enables have holes. -/
structure Access where
  addr : BitVec 22
  size : Nat
  holes : Bool := false
  deriving DecidableEq, Repr

/-- What a doorbell makes the part read from a ring: launch descriptors (R398) or blocks (R413), in ring order. -/
structure Ring where
  descs : List LqDesc := []
  blocks : List Block := []
  deriving DecidableEq, Repr

/-- What Headframe MRAM holds at a word (R510): a Canary table, a snapshot copy, a key copy, a word of the failure area by its
number in 64-bit words, or code and other data. -/
inductive Mram where
  | canary
  | snapshot (copy : Fin 2)
  | key (slot : Fin 4)
  | farea (word : Fin 256)
  | other
  deriving DecidableEq, Repr

/-- A word that a scrubber reads with errors (R508, R511): the byte address in its region (in its face's memory for regions 1 to 3), the
face for regions 1 to 3, the bits of the 80 that differ from what was written, and for region 5 what the word belongs to. -/
structure BadWord where
  addr : BitVec 48
  face : Fin 256
  err : BitVec 80
  what : Mram
  deriving DecidableEq, Repr

/-- The tag of a lump (R13). -/
structure Tag where
  seq : BitVec 8
  gap : Bool
  pclass : Bool
  lost : Nat
  len : Nat
  src : Nat
  deriving DecidableEq, Repr

/-- The tag's 32 bits (R13). -/
def Tag.word (t : Tag) : Word :=
  BitVec.ofNat 32 (t.seq.toNat * 2 ^ 24 + t.gap.toNat * 2 ^ 23 + t.pclass.toNat * 2 ^ 22 + t.lost % 64 * 2 ^ 16
    + t.len % 16 * 2 ^ 12 + t.src % 4096)

/-- A lump: its tag, its payload and the TSC at which it entered its skip (R13, R181). -/
structure Lump where
  tag : Tag
  body : LumpBody
  at_ : Nat := 0
  deriving DecidableEq, Repr

end Sys2Proof
end

