-- ==== Sys2Proof/Syntax.lean ====
section
/-!
DEFINITION. The commands of the block: one constructor per row of the table of operations and events, with its operands.
-/
namespace Sys2Proof

/-- The commands, in the order of the table. -/
inductive Instr where
  /-- REGISTER_WRITE (R524). -/
  | registerWrite (req : Requester) (acc : Access) (data : Dword) (ring : Ring)
  /-- DATA_SET_WRITE (R37). -/
  | dataSetWrite (req : Requester) (acc : Access) (data : Dword) (ring : Ring)
  /-- DATA_CLR_WRITE (R37). -/
  | dataClrWrite (req : Requester) (acc : Access) (data : Dword) (ring : Ring)
  /-- DATA_TGL_WRITE (R37). -/
  | dataTglWrite (req : Requester) (acc : Access) (data : Dword) (ring : Ring)
  /-- STATUS_READ_CLEAR (R39). -/
  | statusReadClear (req : Requester) (acc : Access)
  /-- PAIR_LO_READ (R45). -/
  | pairLoRead (req : Requester) (acc : Access)
  /-- PAIR_HI_READ (R46). -/
  | pairHiRead (req : Requester) (acc : Access)
  /-- PAIR_LO_WRITE (R48). -/
  | pairLoWrite (req : Requester) (addr : BitVec 22) (data : Word)
  /-- PAIR_HI_WRITE (R48). -/
  | pairHiWrite (req : Requester) (addr : BitVec 22) (data : Word)
  /-- PAIR_64_WRITE (R48). -/
  | pair64Write (req : Requester) (addr : BitVec 22) (data : Dword)
  /-- LUMP_SEND (R14). -/
  | lumpSend (skip : Fin 32) (src : BitVec 12) (pclass : Bool) (index : Option Nat) (len : Fin 9) (body : LumpBody)
  /-- BULK_STALL_RETRY (R18). -/
  | bulkStallRetry (skip : Fin 32) (src : BitVec 12)
  /-- LUMP_RECEIVE (R13). -/
  | lumpReceive (skip : Fin 32)
  /-- CREDIT_RETURN (R13). -/
  | creditReturn (skip : Fin 32)
  /-- TCXO_GATE (R63). -/
  | tcxoGate (diff : BitVec 16)
  /-- TCXO_A_LOST (R64). -/
  | tcxoALost
  /-- TCXO_B_LOST (R64). -/
  | tcxoBLost
  /-- CLK_SNAPSHOT (R86). -/
  | clkSnapshot (req : Requester) (data : Word)
  /-- ANGLE_CONVERSION (R87). -/
  | angleConversion (req : Requester) (data : Dword)
  /-- TIMEMARK (R88). -/
  | timemark
  /-- ANG_FREEWHEEL (R77). -/
  | angFreewheel (n : Fin 4) (c : AngCause)
  /-- ANG_QUALIFY_FAIL (R526). -/
  | angQualifyFail (n : Fin 4)
  /-- ANG_QUALIFIED (R79). -/
  | angQualified (n : Fin 4) (freq : Word)
  /-- ANG_LOCKED (R75). -/
  | angLocked (n : Fin 4) (freq : Word) (phase : BitVec 16)
  /-- RAW_BLOCK_BOUNDARY (R97). -/
  | rawBlockBoundary (c : Fin 16) (codes : List (BitVec 16))
  /-- BGC_UPDATE (R94). -/
  | bgcUpdate (c : Fin 16) (ofs : List Int) (gain : List Int) (skew : List Int)
  /-- SELF_CALIBRATION_START (R103). -/
  | selfCalibrationStart (h : Option Half)
  /-- SELF_CALIBRATION_END (R103). -/
  | selfCalibrationEnd (h : Option Half) (fail : BitVec 16)
  /-- REFIN_QUALIFIED (R107). -/
  | refinQualified (ratio : BitVec 16)
  /-- REFIN_QUALIFY_TIMEOUT (R107). -/
  | refinQualifyTimeout
  /-- REFIN_RETRY (R107). -/
  | refinRetry
  /-- REFIN_OUT_OF_RANGE (R108). -/
  | refinOutOfRange
  /-- AUX_START (R117). -/
  | auxStart
  /-- AUX_SLOT_DONE (R115). -/
  | auxSlotDone (conv : List (BitVec 16))
  /-- AUX_GAP_END (R116). -/
  | auxGapEnd
  /-- AUX_REF_SETTLED (R118). -/
  | auxRefSettled
  /-- AUX_REF_TIMEOUT (R118). -/
  | auxRefTimeout
  /-- AUX_URGENT_REQUEST (R119). -/
  | auxUrgentRequest (req : Requester) (data : Word)
  /-- AUX_URGENT_DONE (R120). -/
  | auxUrgentDone (conv : List (BitVec 16))
  /-- DECIMATED_SAMPLE (R124). -/
  | decimatedSample (c : Fin 16)
  /-- ANGLE_TAP_SAMPLE (R131). -/
  | angleTapSample (c : Fin 16)
  /-- FIXED_RATE_INSTANT (R132). -/
  | fixedRateInstant
  /-- FLT_LUMP_SEND (R137). -/
  | fltLumpSend (h : Half) (clock : Option (Fin 4))
  /-- FLT_COEF_COMMIT (R141). -/
  | fltCoefCommit (req : Requester) (data : Word)
  /-- FLT_SWAP_REQUEST (R142). -/
  | fltSwapRequest (req : Requester) (c : Fin 16) (data : Word)
  /-- FADE_END (R145). -/
  | fadeEnd (c : Fin 16)
  /-- FLT_RESET_COMMAND (R147). -/
  | fltResetCommand (req : Requester) (data : Word)
  /-- SYNCHRONISING_RESET (R148). -/
  | synchronisingReset (c : Fin 16)
  /-- FAST_SETTLE_END (R130). -/
  | fastSettleEnd (c : Fin 16)
  /-- SV_FRAME_RECEIVE (R156). -/
  | svFrameReceive (portB : Bool)
  /-- SV_SAMPLE_MISSING (R163). -/
  | svSampleMissing (i : Fin 128)
  /-- SV_LUMP_SEND (R169). -/
  | svLumpSend (i : Fin 128)
  /-- SVI_SUBSCRIPTION_COMMIT (R172). -/
  | sviSubscriptionCommit (req : Requester) (i : Fin 128) (data : Word)
  /-- SVID_OCTET_WRITE (R34). -/
  | svidOctetWrite (req : Requester) (data : Word)
  /-- FACE_STEP (R181). -/
  | faceStep (g : Fin 256) (cycles : Word) (req : List (Fin 64 × Bool × Fin 4 × BitVec 48))
  /-- FACE_STEP_DEADLINE (R181). -/
  | faceStepDeadline (g : Fin 256) (cycles : Word) (req : List (Fin 64 × Bool × Fin 4 × BitVec 48))
  /-- FACE_HALT (R190). -/
  | faceHalt (g : Fin 256)
  /-- DUPLEX_RESTART (R196). -/
  | duplexRestart (g : Fin 256)
  /-- GROUP_SWITCH_REQUEST (R197). -/
  | groupSwitchRequest (g : Fin 8) (selector : Bool)
  /-- GROUP_SWITCH_COMPLETE (R197). -/
  | groupSwitchComplete
  /-- POINT_LATCH (R48). -/
  | pointLatch (req : Requester) (data : Dword)
  /-- CELL_DELAY_EXPIRY (R214). -/
  | cellDelayExpiry (g : Fin 256) (cycles : Word) (req : List (Fin 64 × Bool × Fin 4 × BitVec 48))
  /-- ENERGY_BOOKING (R254). -/
  | energyBooking (node : BitVec 20)
  /-- BALANCE_INTERVAL_CLOSE (R257). -/
  | balanceIntervalClose (node : BitVec 20)
  /-- BALANCE_REPORT_DELIVERY (R258). -/
  | balanceReportDelivery
  /-- BALANCE_JUDGE (R259). -/
  | balanceJudge (node : BitVec 20)
  /-- TW_EVENT_CLOSE (R271). -/
  | twEventClose (g : Fin 4)
  /-- FAR_ARRIVAL_SUBMIT (R276). -/
  | farArrivalSubmit (req : Requester) (data : Word)
  /-- FAR_ARRIVAL_EXPIRE (R276). -/
  | farArrivalExpire (g : Fin 4)
  /-- TWU_GROUP_COMMIT (R283). -/
  | twuGroupCommit (req : Requester) (g : Fin 4) (data : Word)
  /-- DOWNLINK_FRAME (R295). -/
  | downlinkFrame (n : Fin 4)
  /-- DOWNLINK_RECEIVE (R297). -/
  | downlinkReceive (n : Fin 4) (err : BitVec 80)
  /-- CMD_CFG (R297). -/
  | cmdCfg (n : Fin 4)
  /-- CMD_INTERROGATE (R303). -/
  | cmdInterrogate (n : Fin 4)
  /-- CMD_CLEAR (R294). -/
  | cmdClear (n : Fin 4)
  /-- TIMED_TRANSITION (R297). -/
  | timedTransition (n : Fin 4)
  /-- UPLINK_RECEIVE (R298). -/
  | uplinkReceive (n : Fin 4) (err : BitVec 80)
  /-- FIELD_SIDE_HOLD (R299). -/
  | fieldSideHold (n : Fin 4)
  /-- BANK_SILENT (R300). -/
  | bankSilent (n : Fin 4)
  /-- INPUT_FILTER_CHANGE (R292). -/
  | inputFilterChange (n : Fin 4) (p : Fin 16)
  /-- CURRENT_LIMIT_LATCH (R293). -/
  | currentLimitLatch (n : Fin 4) (p : Fin 16)
  /-- LIMIT_ENERGY_RESET (R293). -/
  | limitEnergyReset (n : Fin 4) (p : Fin 16)
  /-- OUTPUT_RETRY (R530). -/
  | outputRetry (n : Fin 4) (p : Fin 16)
  /-- EVENT_COUNT_RESET (R294). -/
  | eventCountReset (n : Fin 4) (p : Fin 16)
  /-- READBACK_MISMATCH (R301). -/
  | readbackMismatch (n : Fin 4) (p : Fin 16)
  /-- INTERROGATION_REQUEST (R303). -/
  | interrogationRequest (req : Requester) (data : Word)
  /-- INTERROGATION_SWEEP_DONE (R303). -/
  | interrogationSweepDone (n : Fin 4) (vfld : Byte)
  /-- FIELD_SUPPLY_WARNING (R305). -/
  | fieldSupplyWarning (n : Fin 4) (below : Bool)
  /-- FIELD_INPUT_FAIL (R305). -/
  | fieldInputFail (n : Fin 4) (below : Bool)
  /-- FIELD_UV_OFF (R305). -/
  | fieldUvOff (n : Fin 4)
  /-- UV_OFF_RELEASE (R305). -/
  | uvOffRelease (n : Fin 4)
  /-- FIELD_SIDE_RESET (R305). -/
  | fieldSideReset (n : Fin 4)
  /-- FIELD_SIDE_RESET_RELEASE (R305). -/
  | fieldSideResetRelease (n : Fin 4)
  /-- FIELD_OVERTEMP (R298). -/
  | fieldOvertemp (n : Fin 4) (on : Bool)
  /-- BARRIER_START (R308). -/
  | barrierStart
  /-- CANARY_OPERATE (R314). -/
  | canaryOperate (e : Fin 16)
  /-- CANARY_HOLD_EXPIRE (R314). -/
  | canaryHoldExpire (e : Fin 16)
  /-- POW_TRANSITION_FIX (R316). -/
  | powTransitionFix (c : Fin 64)
  /-- FIO_CLEAR_COMMIT (R294). -/
  | fioClearCommit (req : Requester) (data : Word)
  /-- RAW_CROSSING_PRESENT (R323). -/
  | rawCrossingPresent (h : Half) (n : BitVec 48)
  /-- SEQUENCER_TIMER_EXPIRY (R325). -/
  | sequencerTimerExpiry (q : Fin 8) (i : Fin 2)
  /-- SEQUENCER_RUN (R326). -/
  | sequencerRun (req : Requester) (q : Fin 8) (data : Word)
  /-- SEQUENCER_RESTART (R326). -/
  | sequencerRestart (req : Requester) (q : Fin 8) (data : Word)
  /-- SEGMENT_CAPTURE_END (R331). -/
  | segmentCaptureEnd (a : Fin 8) (full : Bool)
  /-- ASY_RIDX_WRITE (R332). -/
  | asyRidxWrite (req : Requester) (a : Fin 8) (data : Word)
  /-- AREA_RESTART (R339). -/
  | areaRestart (req : Requester) (a : Fin 8) (data : Word)
  /-- AREA_COMMIT (R333). -/
  | areaCommit (req : Requester) (a : Fin 8) (data : Word)
  /-- SEQ_ITEM_COMMIT (R321). -/
  | seqItemCommit (req : Requester) (data : Word)
  /-- MASK_TEST_COMMIT (R333). -/
  | maskTestCommit (req : Requester) (m : Fin 8) (data : Word)
  /-- ENVELOPE_LIMIT_COMMIT (R338). -/
  | envelopeLimitCommit (req : Requester) (data : Word)
  /-- TREND_INTERVAL_END (R341). -/
  | trendIntervalEnd (full : Bool)
  /-- TREND_CHANNEL_COMMIT (R341). -/
  | trendChannelCommit (req : Requester) (n : Fin 32) (data : Word)
  /-- HEAD_PPS (R343). -/
  | headPps
  /-- PPS_EDGE_RECEIVE (R345). -/
  | ppsEdgeReceive (drift : BitVec 32)
  /-- PROBE_SEND (R344). -/
  | probeSend
  /-- PROBE_RECEIVE (R344). -/
  | probeReceive (f : BitVec 80)
  /-- ECHO_RECEIVE (R344). -/
  | echoReceive (f : BitVec 80) (rt : BitVec 32)
  /-- ADMIN_RECEIVE (R345). -/
  | adminReceive (f : BitVec 80)
  /-- LINK_DOWN (R344). -/
  | linkDown
  /-- TRIGGER_FRAME_RECEIVE (R347). -/
  | triggerFrameReceive (portD : Bool) (f : BitVec 80)
  /-- RECORD_ARRIVAL (R354). -/
  | recordArrival
  /-- RECORD_RELEASE (R354). -/
  | recordRelease
  /-- CHANNEL_FREEZE (R370). -/
  | channelFreeze (req : Requester) (c : Fin 8) (data : Word)
  /-- CHANNEL_UNFREEZE (R371). -/
  | channelUnfreeze (req : Requester) (c : Fin 8) (data : Word)
  /-- STRIG (R367). -/
  | strig (req : Requester) (c : Fin 8) (data : Word)
  /-- NEAR_STORE_FAIL (R374). -/
  | nearStoreFail (scrub : Bool) (addr : BitVec 64)
  /-- FAR_STORE_FAIL (R374). -/
  | farStoreFail (timeout : Bool) (addr : BitVec 64)
  /-- NEAR_STORE_OPEN (R377). -/
  | nearStoreOpen
  /-- FAR_STORE_READY (R377). -/
  | farStoreReady
  /-- FAR_PAGE_PROGRAM (R380). -/
  | farPageProgram (c : Fin 8)
  /-- OPSEC_STORE (R363). -/
  | opsecStore
  /-- TALLY_CHANNEL_COMMIT (R352). -/
  | tallyChannelCommit (req : Requester) (c : Fin 8) (data : Word)
  /-- SNAPSHOT_LIST_COMMIT (R369). -/
  | snapshotListCommit (req : Requester) (c : Fin 8) (i : Fin 16) (data : Word)
  /-- FRAME_RECEIVE (R383). -/
  | frameReceive (p : Fin 4) (f : NetFrame)
  /-- PORT_LINK_LOSS (R383). -/
  | portLinkLoss (p : Fin 4)
  /-- PORT_LINK_UP (R383). -/
  | portLinkUp (p : Fin 4)
  /-- PTP_SYNC_RECEIVE (R391). -/
  | ptpSyncReceive (p : Fin 4) (domain : Byte) (seq : BitVec 16) (mac : BitVec 68) (corr : BitVec 64) (origin : Option (BitVec 64))
  /-- PTP_FOLLOW_UP_RECEIVE (R391). -/
  | ptpFollowUpReceive (p : Fin 4) (domain : Byte) (seq : BitVec 16) (origin : BitVec 64) (corr : BitVec 64)
  /-- ANNOUNCE_RECEIVE (R390). -/
  | announceReceive (p : Fin 4) (a : Announce)
  /-- ANNOUNCE_TIMEOUT (R389). -/
  | announceTimeout (p : Fin 4)
  /-- SYNC_TIMEOUT (R395). -/
  | syncTimeout
  /-- PDELAY_REQ_RECEIVE (R387). -/
  | pdelayReqReceive (p : Fin 4) (domain : Byte) (seq : BitVec 16) (rx : BitVec 68) (tx : BitVec 68)
  /-- LAUNCH_DOORBELL (R398). -/
  | launchDoorbell (req : Requester) (i : Fin 256) (data : Word) (descs : List LqDesc)
  /-- FRAME_LAUNCH (R399). -/
  | frameLaunch (p : Fin 4)
  /-- FRAME_TRANSMIT_DONE (R399). -/
  | frameTransmitDone (p : Fin 4) (stamp : BitVec 68)
  /-- HOST_FRAME_READ_DONE (R402). -/
  | hostFrameReadDone (p : Fin 4) (q : Fin 64) (desc : Option LqDesc)
  /-- HOST_READ_FAULT (R402). -/
  | hostReadFault (p : Fin 4) (q : Fin 64) (frame : Bool)
  /-- HOST_FRAME_LATE (R402). -/
  | hostFrameLate (p : Fin 4) (q : Fin 64)
  /-- LAUNCH_QUEUE_COMMIT (R403). -/
  | launchQueueCommit (req : Requester) (data : Word)
  /-- ENDPOINT_RESET (R407). -/
  | endpointReset (k : EpReset)
  /-- PCIE_LINK_TRAINED (R406). -/
  | pcieLinkTrained (speed : Fin 3) (x2 : Bool)
  /-- BAR2_READ (R409). -/
  | bar2Read (offset : BitVec 26) (len : Fin 513)
  /-- BAR2_WRITE (R409). -/
  | bar2Write
  /-- MSIX_MESSAGE (R412). -/
  | msixMessage (v : Fin 64)
  /-- MOVER_COMMIT (R413). -/
  | moverCommit (req : Requester) (m : Fin 8) (data : Word)
  /-- MOVER_DOORBELL (R415). -/
  | moverDoorbell (req : Requester) (m : Fin 8) (data : Word)
  /-- DESCRIPTOR_READ_DONE (R415). -/
  | descriptorReadDone (m : Fin 8) (x : MvDesc)
  /-- MOVER_ERROR (R422). -/
  | moverError (m : Fin 8)
  /-- BUFFER_COMPLETE (R416). -/
  | bufferComplete (m : Fin 8)
  /-- BUFFER_TIMEOUT (R416). -/
  | bufferTimeout (m : Fin 8) (items : BitVec 19)
  /-- BLOCK_QUEUE_DOORBELL (R413). -/
  | blockQueueDoorbell (req : Requester) (m : Fin 8) (data : Word) (blocks : List Block)
  /-- SUBMISSION (R436). -/
  | submission (req : Requester) (data : Word)
  /-- VALIDATION_COMPLETE (R438). -/
  | validationComplete
  /-- SETTINGS_COMMIT (R439). -/
  | settingsCommit
  /-- RESTEP (R396). -/
  | restep
  /-- CAL_SET (R435). -/
  | calSet
  /-- TESTOUT (R447). -/
  | testout
  /-- TLOCK_CLEAR (R434). -/
  | tlockClear
  /-- LOGLOSS_CLEAR (R434). -/
  | loglossClear
  /-- KEY_ENROL (R431). -/
  | keyEnrol
  /-- KEY_REVOKE (R431). -/
  | keyRevoke
  /-- ROLLBACK_RAISE (R432). -/
  | rollbackRaise
  /-- IMAGE_PREF (R434). -/
  | imagePref
  /-- REQ_COMMISSION (R454). -/
  | reqCommission
  /-- REQ_PROTECT (R454). -/
  | reqProtect
  /-- REQ_RESUME (R454). -/
  | reqResume
  /-- REQ_SAFE (R454). -/
  | reqSafe
  /-- REQ_RESTART (R454). -/
  | reqRestart
  /-- STARTMODE (R454). -/
  | startmode
  /-- SAGE_COMPARE (R444). -/
  | sageCompare (errC : Word) (errN : Word) (errS : Word)
  /-- TAMPER_OPENING (R448). -/
  | tamperOpening (elapsed : BitVec 48)
  /-- SUPPLY_VALID (R465). -/
  | supplyValid (elapsed : BitVec 48)
  /-- HEADFRAME_ROM_START (R457). -/
  | headframeRomStart (straps : BitVec 3)
  /-- BOOT_DONE (R452). -/
  | bootDone
  /-- IMAGE_AUTHENTICATED (R429). -/
  | imageAuthenticated
  /-- LOAD_DONE (R458). -/
  | loadDone
  /-- SUPPLY_LOST (R468). -/
  | supplyLost (high : Bool) (low : Bool)
  /-- HOLD_ENTRY (R470). -/
  | holdEntry
  /-- SNAP_FAIL (R478). -/
  | snapFail
  /-- HOLD_DONE (R470). -/
  | holdDone
  /-- HOLDUP_EXHAUSTED (R468). -/
  | holdupExhausted
  /-- HOLDUP_CAP_MEASURE (R467). -/
  | holdupCapMeasure (cap : BitVec 16)
  /-- HOLDUP_CHARGED (R468). -/
  | holdupCharged
  /-- KA_LOW (R478). -/
  | kaLow (low : Bool)
  /-- THYME_STOP (R474). -/
  | thymeStop
  /-- HALF_LOST (R476). -/
  | halfLost (h : Half)
  /-- HALF_RESTART (R477). -/
  | halfRestart (h : Half)
  /-- HALF_READMIT (R477). -/
  | halfReadmit (h : Half)
  /-- SCRUB_PASS_END (R511). -/
  | scrubPassEnd (r : Fin 8) (words : List BadWord)
  /-- SCRUB_LATE (R512). -/
  | scrubLate (r : Fin 8)
  /-- NAND_REFRESH (R513). -/
  | nandRefresh (slot : Option (Fin 2)) (addr : BitVec 32) (corr : Byte) (pe : BitVec 16) (rate : BitVec 16)
  /-- HEADFRAME_FAULT (R515). -/
  | headframeFault (poison : Bool) (pc : Dword)
  /-- HEADFRAME_WATCHDOG_EXPIRY (R514). -/
  | headframeWatchdogExpiry (pc : Dword)
  /-- HEADFRAME_RESTART (R515). -/
  | headframeRestart
  /-- TEMP (R520). -/
  | temp
  /-- REGISTER_READ (R524). -/
  | registerRead (req : Requester) (acc : Access)
  /-- UPLINK_FRAME (R298). -/
  | uplinkFrame (n : Fin 4) (pins : List (Int × Int))
  /-- CURRENT_LIMIT_ENTRY (R293). -/
  | currentLimitEntry (n : Fin 4) (p : Fin 16)
  /-- CURRENT_LIMIT_EXIT (R293). -/
  | currentLimitExit (n : Fin 4) (p : Fin 16)
  /-- SEQUENCER_TICK (R326). -/
  | sequencerTick
  /-- CONFIGURATION_WRITE (R412). -/
  | configurationWrite (msixEn : Bool) (fmask : Bool) (d3 : Bool)
  /-- PERST_DEASSERTION (R406). -/
  | perstDeassertion
  /-- SAGE_PASS_START (R443). -/
  | sagePassStart
  /-- HOLD_FAULT_END (R515). -/
  | holdFaultEnd
  /-- PPS_OUT_RISE (R483). -/
  | ppsOutRise
  /-- PPS_OUT_FALL (R483). -/
  | ppsOutFall
  /-- PDELAY_REQ_SEND (R387). -/
  | pdelayReqSend (p : Fin 4) (tx : BitVec 68)
  /-- PDELAY_RESP_RECEIVE (R387). -/
  | pdelayRespReceive (p : Fin 4) (domain : Byte) (seq : BitVec 16) (rx : BitVec 68) (turnaround : BitVec 64)
  deriving DecidableEq, Repr

end Sys2Proof
end

