-- ==== Sys2Proof/Config.lean ====
section
/-!
DEFINITION. What the spec leaves to the part or to nature: the free values (opaque, with no body) and the fixed numbers of
the module that the spec does not state.
-/
namespace Sys2Proof.Config

/-- The free values: what nothing in the spec fixes.  Applied to the counter `Dev.free`, which every use advances, so
that no two uses are known to agree (log entry 2). -/
opaque free : Nat → BitVec 64

/-- The time ahead, in ns, that CLK predicts for a change of angle from a frequency (2⁻¹⁶ Hz) and a rate of change that is
not 0: R87 names what it is predicted from and gives no formula (log entry 11). -/
opaque predict : Nat → Nat → Int → BitVec 64

/-- The factory factors of the converters held in Headframe MRAM (R104): nothing in the spec states them.  The argument
numbers channel and factor. -/
opaque factoryFactor : Nat → BitVec 16

/-- What the shift of a sample's instant by a skew factor adds to its code, by the factor and the code with its two neighbours (R93). -/
opaque skewShift : Int → BitVec 16 → BitVec 16 → BitVec 16 → BitVec 16

/-- The time in ns in which the internal reference of the converters settles, at most 4 ms (R103). -/
opaque refSettle : BitVec 32

/-- The taps of the 65-tap Hilbert filter of R254, which the spec does not state. -/
opaque hilbert : Nat → Rat
/-- What a binary32 code that is no number counts as. -/
opaque nonFinite : Nat → Rat
/-- The UMIN that MHO uses for the memory of R233: its table states none. -/
opaque mhoUmin : Rat

/-- The length of the GOOSE frame that the image names as its LOGLOSS alarm (R403). -/
opaque alarmLen : Nat
/-- Where Headframe places that frame in DRAM. -/
opaque alarmBuf : Nat

/-- The error of Thyme's crystal, of which R473 gives only the limits. -/
opaque thymeError : BitVec 32

/-- The bytes of a restorable cell's state in a snapshot (SLEN of R471), by cell type: the spec gives no layout. -/
opaque stateLen : Nat → Nat

/-- The spare blocks left in the far store, by TSC (TLY_FAR.SPARE): nothing in the spec says how many there are. -/
opaque farSpare : Nat → BitVec 16

/-- Whether the tamper loop is closed, by TSC (HFR_TAMPER.CLOSED): the loop is outside the part. -/
opaque loopClosed : Nat → Bool

/-- Whether the keep-alive store is charged, by TSC (SYS_PWR.KA_FULL): R473 gives only limits for the time it takes. -/
opaque kaFull : Nat → Bool

/-- The energy in the hold-up store in 0.01 J, by TSC (SYS_HOLDUP.ENERGY). -/
opaque storedEnergy : Nat → BitVec 16

/-- The progress of a scrubber's pass in percent, by region and TSC (TRB_SCRUBr.PCT). -/
opaque scrubPct : Nat → Nat → Nat

/-- The bytes of a face's configuration memory under Sage (R209, R442), from the program, points, routes and settings that it
holds: the spec gives their order and not their layout (log entry 13). -/
opaque faceMemory : Nat → List Nat → List (BitVec 8)

/-! What a Jixus image holds in parts whose encoding the spec does not give (log entry 13). -/

/-- The place of a cell node in its face's schedule order (R181). -/
opaque schedule : Nat → Nat
/-- The point that a SEAM_HOUT bit publishes. -/
opaque published : Nat → Nat
/-- The initial output of a LATCH in the image's initial state (R263). -/
opaque latchInit : Nat → Bool

end Sys2Proof.Config
end

