-- ==== Sys2Proof/Machine/SMap.lean ====
section
/-!
DEFINITION. Sparse maps with rising keys, and the memories built on them (lists of address and byte pairs in canonical form).
-/
namespace Sys2Proof.SMap

/-- The value listed under a key. -/
def get? {α : Type} : SMap α → Nat → Option α
  | [], _ => none
  | (k, v) :: m, a => if a = k then some v else get? m a

/-- The value under a key, or what an unlisted key stands for. -/
def getD {α : Type} (m : SMap α) (a : Nat) (d : α) : α := (get? m a).getD d

/-- Lists a value under a key, in key order. -/
def set {α : Type} : SMap α → Nat → α → SMap α
  | [], a, v => [(a, v)]
  | (k, w) :: m, a, v =>
    if a < k then (a, v) :: (k, w) :: m
    else if a = k then (a, v) :: m
    else (k, w) :: set m a v

/-- Takes a key off the list. -/
def erase {α : Type} (m : SMap α) (a : Nat) : SMap α := m.filter fun p => p.1 != a

/-- Lists a value under a key, or takes the key off where the value is what an unlisted key stands for. -/
def put {α : Type} [DecidableEq α] (d : α) (m : SMap α) (a : Nat) (v : α) : SMap α :=
  if v = d then erase m a else set m a v

/-- Changes every listed value. -/
def mapV {α : Type} (f : α → α) (m : SMap α) : SMap α := m.map fun p => (p.1, f p.2)

/-- Keys strictly rising. -/
def rising {α : Type} : SMap α → Bool
  | [] => true
  | [_] => true
  | p :: q :: m => decide (p.1 < q.1) && rising (q :: m)

end Sys2Proof.SMap

namespace Sys2Proof.Machine

/-- A memory: the bytes that are not 0, by rising address.  A byte that nothing has written reads 0 (log entry 6). -/
abbrev Memory := SMap Byte

/-- The byte at an address. -/
def Memory.read (m : Memory) (a : Nat) : Byte := SMap.getD m a 0

/-- Writes one byte, keeping the canonical form. -/
def Memory.write (m : Memory) (a : Nat) (v : Byte) : Memory := SMap.put 0 m a v

/-- The canonical form: addresses strictly rising and no zero byte listed. -/
def Memory.wf (m : Memory) : Bool := SMap.rising m && m.all fun p => p.2 != 0

/-- Writes bytes at rising addresses. -/
def Memory.writeBytes : Memory → Nat → List Byte → Memory
  | m, _, [] => m
  | m, a, b :: bs => writeBytes (m.write a b) (a + 1) bs

/-- Reads `n` bytes from an address. -/
def Memory.readBytes (m : Memory) (a : Nat) : Nat → List Byte
  | 0 => []
  | n + 1 => m.read a :: readBytes m (a + 1) n

/-- A number as `n` little-endian bytes (R4). -/
def le : Nat → Nat → List Byte
  | 0, _ => []
  | n + 1, v => BitVec.ofNat 8 v :: le n (v / 256)

/-- Little-endian bytes as a number (R4). -/
def unle : List Byte → Nat
  | [] => 0
  | b :: bs => b.toNat + 256 * unle bs

/-- A field list packed in order, little-endian, with no padding (R362). -/
def packFields : List (Nat × Nat) → List Byte
  | [] => []
  | (n, v) :: fs => le n v ++ packFields fs

/-- A number read as signed in `n` bits (R5). -/
def sgn (n v : Nat) : Int := (BitVec.ofNat n v).toInt

/-- A signed number in `n` bits of two's complement (R5). -/
def unsgn (n : Nat) (v : Int) : Nat := (BitVec.ofInt n v).toNat

/-- Bits `[lo + len - 1 : lo]` of a number. -/
def bits (v lo len : Nat) : Nat := v / 2 ^ lo % 2 ^ len

end Sys2Proof.Machine
end

