-- ==== Sys2Proof/Machine/Num.lean ====
section
/-!
DEFINITION. binary32 and binary64 codes as exact rationals and back, complex numbers with rational parts, and the real functions of the
formulas of R222 to R278 on rationals, each computed from its series in units of 2⁻⁸⁰ (log entry 12).
-/
namespace Sys2Proof.Machine

/-- 2 to an integer power. -/
def pow2 (e : Int) : Rat := if 0 ≤ e then (2 ^ e.toNat : Nat) else 1 / ((2 ^ (-e).toNat : Nat) : Rat)

/-- The number that a code of a binary format stands for, given its fraction and exponent widths. -/
def floatToRat (fb eb : Nat) (b : Nat) : Rat :=
  let e := b / 2 ^ fb % 2 ^ eb
  let m := b % 2 ^ fb
  let bias : Int := 2 ^ (eb - 1) - 1
  if e = 2 ^ eb - 1 then Config.nonFinite b
  else
    let a := if e = 0 then (m : Rat) * pow2 (1 - bias - fb) else ((2 ^ fb + m : Nat) : Rat) * pow2 (e - bias - fb)
    if b / 2 ^ (fb + eb) % 2 = 1 then -a else a

/-- A nonnegative rational to the nearest integer, ties to even. -/
def roundEven (q : Rat) : Nat :=
  let n := q.num.toNat
  let f := n / q.den
  let r := 2 * (n % q.den)
  if r < q.den then f else if q.den < r then f + 1 else f + f % 2

/-- ⌊log₂⌋ of a positive rational. -/
def log2Rat (q : Rat) : Int :=
  let e : Int := (Nat.log2 q.num.toNat : Int) - (Nat.log2 q.den : Int)
  if pow2 e ≤ q then e else e - 1

/-- The code of a binary format nearest to a number, ties to even; above the range, infinity. -/
def floatOfRat (fb eb : Nat) (q : Rat) : Nat :=
  if q = 0 then 0
  else
    let bias : Int := 2 ^ (eb - 1) - 1
    let a := if q < 0 then -q else q
    let e := max (log2Rat a) (1 - bias)
    let m := roundEven (a * pow2 (fb - e))
    let code : Nat := if m < 2 ^ fb then m else ((e + bias).toNat * 2 ^ fb + (m - 2 ^ fb))
    min code ((2 ^ eb - 1) * 2 ^ fb) + (if q < 0 then 2 ^ (fb + eb) else 0)

/-- The number of a binary32 code. -/
def f32 (b : Nat) : Rat := floatToRat 23 8 b

/-- The binary32 code of a number. -/
def f32Of (q : Rat) : Nat := floatOfRat 23 8 q

/-- The binary64 code of a number. -/
def f64Of (q : Rat) : Nat := floatOfRat 52 11 q

/-- The number of a binary64 code. -/
def f64 (b : Nat) : Rat := floatToRat 52 11 b

/-! ### The real functions of the formulas (log entry 12) -/

/-- 2⁸⁰: fixed-point numbers below count in units of its inverse. -/
def one80 : Int := 2 ^ 80

/-- A rational in units of 2⁻⁸⁰, rounded down. -/
def fix80 (q : Rat) : Int := (q * one80).floor

/-- The rational of a number in units of 2⁻⁸⁰. -/
def unfix80 (x : Int) : Rat := (x : Rat) / one80

/-- The whole root of `n` of a degree, above the part `r` found so far, from its `k` lower bits. -/
def rootBits (deg n : Nat) : Nat → Nat → Nat
  | 0, r => r
  | k + 1, r => if (r + 2 ^ k) ^ deg ≤ n then rootBits deg n k (r + 2 ^ k) else rootBits deg n k r

/-- The whole square root, rounded down. -/
def natSqrt (n : Nat) : Nat := rootBits 2 n (Nat.log2 n / 2 + 1) 0

/-- The square root, to 2⁻⁶⁰ of its value; 0 below 0. -/
def sqrtR (q : Rat) : Rat := ((natSqrt (q.num.toNat * q.den * 2 ^ 120) : Nat) : Rat) / ((q.den * 2 ^ 60 : Nat) : Rat)

/-- The sum of `n` terms of a series, of which the first is `t` and each next one is the one before times `x`, divided by what `f` says of
its place. -/
def series (f : Nat → Int) (x : Int) : Nat → Nat → Int → Int
  | 0, _, _ => 0
  | n + 1, i, t => t + series f x n (i + 1) (t * x / one80 / f i)

/-- A sum of `t`, `t x / 3`, `t x² / 5` and so on. -/
def oddSeries (x : Int) : Nat → Nat → Int → Int
  | 0, _, _ => 0
  | n + 1, i, t => t / (2 * i + 1) + oddSeries x n (i + 1) (t * x / one80)

/-- The natural logarithm of 2: 2 artanh (1/3). -/
def ln2 : Int := oddSeries (one80 / 9) 28 0 (2 * one80 / 3)

/-- e to a power: 2ᵏ e^r with k whole and 0 ≤ r < ln 2. -/
def expR (q : Rat) : Rat :=
  let x := fix80 q
  let k := x / ln2
  unfix80 (series (fun i => i + 1) (x - k * ln2) 28 0 one80) * pow2 k

/-- The natural logarithm of a positive number: that of 2ᵏ m with 1 ≤ m < 2, by artanh ((m − 1) / (m + 1)). -/
def lnR (q : Rat) : Rat :=
  let k := log2Rat q
  let m := q * pow2 (-k)
  let z := fix80 ((m - 1) / (m + 1))
  unfix80 (k * ln2 + oddSeries (z * z / one80) 28 0 (2 * z))

/-- A power of a number; 0 for what is not positive. -/
def powR (x p : Rat) : Rat := if x ≤ 0 then 0 else expR (p * lnR x)

/-- The arc tangent, in radians, of 0 to 1: above tan 22.5° by that of (t − 1) / (t + 1). -/
def atanFix (t : Int) : Int := oddSeries (-(t * t) / one80) 36 0 t

/-- π: 16 arctan (1/5) − 4 arctan (1/239). -/
def piR : Int := 16 * atanFix (one80 / 5) - 4 * atanFix (one80 / 239)

/-- The angle in degrees of a point with 0 ≤ y ≤ x and 0 < x. -/
def octant (x y : Rat) : Rat :=
  if 5 * y ≤ 2 * x then unfix80 (atanFix (fix80 (y / x))) * 180 / unfix80 piR
  else if y = x then 45
  else 45 - unfix80 (atanFix (fix80 ((x - y) / (x + y)))) * 180 / unfix80 piR

/-- The argument of a complex number, in degrees above −180 up to 180; 0 for 0. -/
def argR (x y : Rat) : Rat :=
  let ax := if x < 0 then -x else x
  let ay := if y < 0 then -y else y
  let a := if ax = 0 ∧ ay = 0 then 0 else if ay ≤ ax then octant ax ay else 90 - octant ay ax
  let b := if x < 0 then 180 - a else a
  if y < 0 then -b else b

/-- The cosine and sine of an angle in degrees: those of what is left above a whole number of right angles, turned by them. -/
def cosSinR (deg : Rat) : Rat × Rat :=
  let k := (deg / 90).floor
  let r := fix80 ((deg - 90 * k) * unfix80 piR / 180)
  let r2 := -(r * r) / one80
  let c := unfix80 (series (fun i => (2 * i + 1) * (2 * i + 2)) r2 16 0 one80)
  let s := unfix80 (series (fun i => (2 * i + 2) * (2 * i + 3)) r2 16 0 r)
  if k % 4 = 0 then (c, s) else if k % 4 = 1 then (-s, c) else if k % 4 = 2 then (-c, -s) else (s, -c)

/-- The cosine and sine of `2π i / N`. -/
def turnR (i n : Nat) : Rat × Rat := cosSinR (360 * (i : Rat) / n)

/-- A complex number. -/
abbrev Cx := Rat × Rat

/-- Its parts added, subtracted, multiplied and scaled. -/
def cadd (a b : Cx) : Cx := (a.1 + b.1, a.2 + b.2)
/-- The difference of two complex numbers. -/
def csub (a b : Cx) : Cx := (a.1 - b.1, a.2 - b.2)
/-- The product of two complex numbers. -/
def cmul (a b : Cx) : Cx := (a.1 * b.1 - a.2 * b.2, a.1 * b.2 + a.2 * b.1)
/-- A complex number scaled. -/
def cscale (k : Rat) (a : Cx) : Cx := (k * a.1, k * a.2)
/-- The square of its magnitude. -/
def mag2 (a : Cx) : Rat := a.1 * a.1 + a.2 * a.2
/-- e^(j120°). -/
def rot120 : Cx := (-1 / 2, sqrtR 3 / 2)
/-- e^(j240°). -/
def rot240 : Cx := (-1 / 2, -(sqrtR 3) / 2)
/-- Its argument in degrees. -/
def cdeg (a : Cx) : Rat := argR a.1 a.2
/-- An angle brought to −180° to +180°; one turn at most has to be taken off. -/
def normDeg (x : Rat) : Rat := if 180 < x then x - 360 else if x < -180 then x + 360 else x
/-- The larger of two numbers. -/
def maxR (a b : Rat) : Rat := if a ≤ b then b else a
/-- The largest of a list, 0 for none. -/
def maxList (xs : List Rat) : Rat := xs.foldl maxR 0
/-- The magnitude. -/
def absR (a : Rat) : Rat := if a < 0 then -a else a

end Sys2Proof.Machine
end

