-- ==== Sys2Proof/Machine/Crypto.lean ====
section
/-!
DEFINITION. SHA-384 and the verification of ECDSA signatures over P-384 (R201, R430, R433).  The spec names both and
gives neither; they are those of FIPS 180-4 and FIPS 186-4 (PRESUMED, log entry 16).
-/
namespace Sys2Proof.Machine

/-! ### SHA-384 -/

/-- The first eighty primes, in order. -/
def primes80 : List Nat := (List.range 410).filter fun n => 2 ≤ n && (List.range 21).all fun k => k < 2 || n ≤ k || n % k != 0

/-- The first 64 bits of the fraction of a number's root of a degree: the constants of SHA-384 are such bits. -/
def rootFraction (deg n : Nat) : Nat := rootBits deg (n * 2 ^ (64 * deg)) 70 0 % 2 ^ 64

/-- The constants of the eighty rounds: of the cube roots of the primes. -/
def roundConst : List Nat := primes80.map (rootFraction 3)

/-- The initial hash value: of the square roots of the ninth to sixteenth primes. -/
def hashInit : List Nat := ((primes80.drop 8).take 8).map (rootFraction 2)

/-- A big-endian number. -/
def be (bs : List Byte) : Nat := bs.foldl (fun a b => a * 256 + b.toNat) 0

/-- A number as `n` big-endian bytes. -/
def beBytes (n v : Nat) : List Byte := (le n v).reverse

/-- A 64-bit word rotated right. -/
def rotr (x n : Nat) : Nat := x / 2 ^ n + x % 2 ^ n * 2 ^ (64 - n)

/-- The parity, bit by bit, of the rotations of a word and of a further word. -/
def mixed (x : Nat) (by_ : List Nat) (more : Nat) : Nat := by_.foldl (fun a n => a ^^^ rotr x n) more

/-- The message schedule, latest word first, grown by `n` words: each is made of those 2, 7, 15 and 16 before it. -/
def schedule64 : Nat → List Nat → List Nat
  | 0, w => w
  | n + 1, w =>
    let back (i : Nat) : Nat := w.getD (i - 1) 0
    let new := mixed (back 2) [19, 61] (back 2 / 2 ^ 6) + back 7 + mixed (back 15) [1, 8] (back 15 / 2 ^ 7) + back 16
    schedule64 n (new % 2 ^ 64 :: w)

/-- The eight working words of a round. -/
structure Work where
  a : Nat
  b : Nat
  c : Nat
  d : Nat
  e : Nat
  f : Nat
  g : Nat
  h : Nat
  deriving DecidableEq, Repr

/-- One round with a word that is the sum of its constant and its schedule word: `e` chooses between `f` and `g` bit by bit, and of `a`, `b`
and `c` each bit's majority counts. -/
def Work.round (v : Work) (kw : Nat) : Work :=
  let chosen := (v.f &&& v.e) + (v.g - (v.g &&& v.e))
  let most := (v.a &&& v.b) ||| (v.c &&& (v.a ||| v.b))
  let t := v.h + mixed v.e [14, 18, 41] 0 + chosen + kw
  { a := (t + mixed v.a [28, 34, 39] 0 + most) % 2 ^ 64, b := v.a, c := v.b, d := v.c, e := (v.d + t) % 2 ^ 64, f := v.e, g := v.f, h := v.g }

/-- The hash value after a block's rounds are added to it. -/
def Work.sum (x y : Work) : Work :=
  let p (m n : Nat) : Nat := (m + n) % 2 ^ 64
  ⟨p x.a y.a, p x.b y.b, p x.c y.c, p x.d y.d, p x.e y.e, p x.f y.f, p x.g y.g, p x.h y.h⟩

/-- The hash value before the first block. -/
def Work.init : Work :=
  let i (n : Nat) : Nat := hashInit.getD n 0
  ⟨i 0, i 1, i 2, i 3, i 4, i 5, i 6, i 7⟩

/-- The 64-bit words of a block. -/
def shaWords : Nat → List Byte → List Nat
  | 0, _ => []
  | n + 1, bs => be (bs.take 8) :: shaWords n (bs.drop 8)

/-- A block of 128 bytes taken into the hash value. -/
def Work.block (x : Work) (block : List Byte) : Work :=
  let w := (schedule64 64 (shaWords 16 block).reverse).reverse
  x.sum ((List.zipWith (· + ·) roundConst w).foldl Work.round x)

/-- All `n` blocks of a padded message. -/
def shaBlocks : Nat → Work → List Byte → Work
  | 0, x, _ => x
  | n + 1, x, bs => shaBlocks n (x.block (bs.take 128)) (bs.drop 128)

/-- SHA-384: 48 bytes, the first six words of the hash value. -/
def sha384 (m : List Byte) : List Byte :=
  let padded := m ++ (0x80 : Byte) :: List.replicate ((239 - m.length % 128) % 128) 0 ++ beBytes 16 (8 * m.length)
  let x := shaBlocks (padded.length / 128) Work.init padded
  [x.a, x.b, x.c, x.d, x.e, x.f].flatMap (beBytes 8)

/-! ### ECDSA over P-384 -/

/-- The prime of P-384. -/
def pP : Nat := 2 ^ 384 - 2 ^ 128 - 2 ^ 96 + 2 ^ 32 - 1
/-- The constant b of its curve y² = x³ − 3x + b. -/
def pB : Nat := 0xb3312fa7e23ee7e4988e056be3f82d19181d9c6efe8141120314088f5013875ac656398d8a2ed19d2a85c8edd3ec2aef
/-- The order of its base point. -/
def pN : Nat := 0xffffffffffffffffffffffffffffffffffffffffffffffffc7634d81f4372ddf581a0db248b0a77aecec196accc52973
/-- The base point's x. -/
def pGx : Nat := 0xaa87ca22be8b05378eb1c71ef320ad746e1d3b628ba79b9859f741e082542a385502f25dbf55296c3a545e3872760ab7
/-- The base point's y. -/
def pGy : Nat := 0x3617de4a96262c6f5d9e98bf9292dc29f8f41dbd289a147ce9da3113b5f0b8c00a60b1ce1d7e819d7a431d7c90ea0e5f

/-- A power modulo `m`, with `n` bits of exponent. -/
def modPow (m : Nat) : Nat → Nat → Nat → Nat
  | 0, _, _ => 1 % m
  | n + 1, b, e =>
    let h := modPow m n (b * b % m) (e / 2)
    if e % 2 = 1 then b * h % m else h

/-- The inverse modulo a prime. -/
def modInv (m a : Nat) : Nat := modPow m 384 (a % m) (m - 2)

/-- A difference modulo the prime. -/
def subP (a b : Nat) : Nat := (a + (pP - b % pP)) % pP

/-- A point in Jacobian coordinates; z = 0 is the point at infinity. -/
structure JPt where
  x : Nat
  y : Nat
  z : Nat
  deriving DecidableEq, Repr

/-- The double of a point. -/
def JPt.double (p : JPt) : JPt :=
  let zz := p.z * p.z % pP
  let yy := p.y * p.y % pP
  let s := 4 * p.x * yy % pP
  let m := 3 * (subP p.x zz * (p.x + zz)) % pP
  let x := subP (m * m) (2 * s)
  ⟨x, subP (m * subP s x) (8 * yy * yy), 2 * p.y * p.z % pP⟩

/-- The sum of two points. -/
def JPt.add (p q : JPt) : JPt :=
  if p.z = 0 then q
  else if q.z = 0 then p
  else
    let z1 := p.z * p.z % pP
    let z2 := q.z * q.z % pP
    let u1 := p.x * z2 % pP
    let u2 := q.x * z1 % pP
    let s1 := p.y * q.z * z2 % pP
    let s2 := q.y * p.z * z1 % pP
    let h := subP u2 u1
    let r := subP s2 s1
    if h = 0 then (if r = 0 then p.double else ⟨1, 1, 0⟩)
    else
      let hh := h * h % pP
      let hhh := h * hh % pP
      let v := u1 * hh % pP
      let x := subP (r * r) (hhh + 2 * v)
      ⟨x, subP (r * subP v x) (s1 * hhh), p.z * q.z * h % pP⟩

/-- A multiple of a point, with `n` bits of the factor. -/
def JPt.mul (p : JPt) : Nat → Nat → JPt
  | 0, _ => ⟨1, 1, 0⟩
  | n + 1, k =>
    let h := (JPt.mul p n (k / 2)).double
    if k % 2 = 1 then h.add p else h

/-- Whether a signature (r, s, 48 big-endian bytes each) over a digest holds under a public key (x, y, 48 big-endian bytes
each). -/
def ecdsaOk (key digest sig : List Byte) : Bool :=
  let x := be (key.take 48)
  let y := be ((key.drop 48).take 48)
  let r := be (sig.take 48)
  let s := be ((sig.drop 48).take 48)
  let e := be digest
  if key.length ≠ 96 ∨ sig.length ≠ 96 ∨ r = 0 ∨ pN ≤ r ∨ s = 0 ∨ pN ≤ s ∨ pP ≤ x ∨ pP ≤ y then false
  else if y * y % pP ≠ (x * x * x + (pP - 3) * x + pB) % pP then false
  else
    let w := modInv pN s
    let q := (JPt.mul ⟨pGx, pGy, 1⟩ 384 (e * w % pN)).add (JPt.mul ⟨x, y, 1⟩ 384 (r * w % pN))
    if q.z = 0 then false
    else
      let zi := modInv pP q.z
      decide (q.x * (zi * zi % pP) % pP % pN = r)

end Sys2Proof.Machine
end

