-- ==== Sys2Proof/Machine/Crc.lean ====
section
/-!
DEFINITION. The checks over bytes: CRC-8 of barrier frames (R296), CRC-16 of Tally units (R361) and CRC-32C.
-/
namespace Sys2Proof.Machine

/-- One bit of a CRC whose register shifts left (R296). -/
def crc8Bit (r : Nat) : Nat := if 128 ≤ r then (2 * r % 256) ^^^ 0x2F else 2 * r

/-- A byte of CRC-8. -/
def crc8Byte (r : Nat) (b : Byte) : Nat := (List.range 8).foldl (fun r _ => crc8Bit r) (r ^^^ b.toNat)

/-- CRC-8: polynomial 0x2F, initial value and final XOR 0xFF (R296). -/
def crc8 (bs : List Byte) : Nat := bs.foldl crc8Byte 0xFF ^^^ 0xFF

/-- One bit of CRC-32C, whose register shifts right. -/
def crc32cBit (r : Nat) : Nat := if r % 2 = 1 then (r / 2) ^^^ 0x82F63B78 else r / 2

/-- A byte of CRC-32C. -/
def crc32cByte (r : Nat) (b : Byte) : Nat := (List.range 8).foldl (fun r _ => crc32cBit r) (r ^^^ b.toNat)

/-- CRC-32C (Castagnoli), reflected, initial value and final XOR all ones. -/
def crc32c (bs : List Byte) : Nat := bs.foldl crc32cByte 0xFFFFFFFF ^^^ 0xFFFFFFFF

/-- A byte of CRC-16. -/
def crc16Byte (r : Nat) (b : Byte) : Nat :=
  (List.range 8).foldl (fun r _ => if 32768 ≤ r then (2 * r % 65536) ^^^ 0x1021 else 2 * r) (r ^^^ (b.toNat * 256))

/-- CRC-16: polynomial 0x1021, initial value 0xFFFF (R361). -/
def crc16 (bs : List Byte) : Nat := bs.foldl crc16Byte 0xFFFF

end Sys2Proof.Machine
end

