-- ==== Sys2Proof/Machine/Design.lean ====
section
/-!
DEFINITION. The types of a Jixus image's records (R202 to R207) and of the cells and points that run from them.
-/
namespace Sys2Proof.Machine

/-- A point's slot but for its TYPE, which the point table gives (R176). -/
structure PtV where
  val : Nat := 0
  qual : Nat := 0
  step : Nat := 0
  deriving DecidableEq, Repr

/-- A node record (R202). -/
structure NodeRec where
  kind : Nat
  flags : Nat
  cellType : Nat
  parent : Nat
  child : Nat
  sibling : Nat
  name : Nat
  ports : Nat
  settings : Nat
  portBase : Nat
  setBase : Nat
  deriving DecidableEq, Repr

/-- A port record (R202). -/
structure PortRec where
  dir : Nat
  typ : Nat
  bind : Nat
  deriving DecidableEq, Repr

/-- A point record (R203). -/
structure PointRec where
  addr : Nat
  typ : Nat
  origin : Nat
  ix : Nat
  writer : Nat
  scale : Nat
  deriving DecidableEq, Repr

/-- A route record (R204). -/
structure RouteRec where
  src : Nat
  dst : Nat
  xdl : Nat
  flags : Nat
  deriving DecidableEq, Repr

/-- A face program record (R205). -/
structure FaceRec where
  face : Nat
  domain : Nat
  timers : Nat
  codeLen : Nat
  stateLen : Nat
  wcet : Nat
  wait : Nat
  points : Nat
  codeOfs : Nat
  deriving DecidableEq, Repr

/-- A cell-setting record (R206). -/
structure SetRec where
  node : Nat
  setno : Nat
  kind : Nat
  values : List Nat
  min : Nat
  max : Nat
  step : Nat
  defined : Nat
  deriving DecidableEq, Repr

/-- A register-setting record (R206). -/
structure RegRec where
  addr : Nat
  mask : Nat
  value : Nat
  order : Nat
  deriving DecidableEq, Repr

/-- A channel record of the I/O map (R207). -/
structure IoRec where
  ch : Nat
  dir : Nat
  flags : Nat
  cfg : Nat
  optime : Nat
  pnt : List Nat
  deriving DecidableEq, Repr

/-- The design an image carries, as the part runs it: its sections, with each face's program and initial state as `code`, the words of
the credit plan, the Canary section's bytes, the Sage policy, its ROLLBACK and its KEY_SLOT. -/
structure Design where
  nodes : List NodeRec := []
  ports : List PortRec := []
  points : List PointRec := []
  routes : List RouteRec := []
  faces : List FaceRec := []
  settings : List SetRec := []
  regs : List RegRec := []
  io : List IoRec := []
  assay : List Nat := []
  pool : List Byte := []
  code : SMap (List Byte) := []
  plan : List Nat := []
  canary : List Byte := []
  policy : Bool := false
  rollback : Nat := 0
  key : Nat := 0
  deriving DecidableEq, Repr

/-- An interval of BALANCE (R257 to R259): its start (s of CAL), head energy (Wh), the TSC at which it closed, the accepted
reports by slot, and whether something has made it incomplete.  One restored from a snapshot can have closed before BOOT. -/
structure BalInt where
  start : Nat
  head : Rat
  closed : Int
  reports : SMap Rat
  bad : Bool
  deriving DecidableEq, Repr

/-- A cell's private state: the window of its latest inputs with their instants (latest first), running sums, the starts of
running delays (1/16 ns of TSC; one from before BOOT is negative), small counts and flags, event times, and the intervals of BALANCE. -/
structure CellSt where
  win : List (Nat × List PtV) := []
  acc : SMap Rat := []
  tim : SMap Int := []
  cnt : SMap Nat := []
  evs : List Int := []
  ints : List BalInt := []
  deriving DecidableEq, Repr

end Sys2Proof.Machine
end

