-- ==== Sys2Proof/Machine/Cells.lean ====
section
/-!
DEFINITION. What each cell of the library computes in a step (R212 to R262).

The ports and settings of a cell are numbered in the order in which the text of R222 to R261 lists them, inputs first, BLK
last among the inputs, rated values IN and UN last among the settings (log entry 14).
-/
namespace Sys2Proof.Machine

/-- What a cell sees of a step: its index, its instant and the time since the previous one (1/16 ns), the samples of a cycle
(0 in the fixed domain), the fixed rate, CAL of the instant and whether CAL's state is LOCKED or HOLDOVER, its settings, its
inputs (none: unconnected), the health of the converters and their count of fallbacks, a free value, and its node. -/
structure CellCtx where
  k : Nat
  t : Nat
  dt : Nat
  n : Nat
  rate : Nat
  cal : Nat
  calOk : Bool
  set : Nat → Rat
  ins : List (Option PtV)
  health : List Bool
  fallbacks : Nat
  free : Nat
  node : Nat

/-- A value a cell writes: binary, analogue, phasor or counter. -/
inductive CellOut where
  | bin (b : Bool)
  | ana (q : Rat)
  | pha (z : Rat × Rat)
  | cnt (n : Nat)
  deriving DecidableEq, Repr

/-- VALUE of what a cell writes (R176). -/
def CellOut.code : CellOut → Nat
  | .bin b => b.toNat
  | .ana q => f32Of q
  | .pha z => f32Of z.1 + f32Of z.2 * 2 ^ 32
  | .cnt n => n % 2 ^ 64

/-- The outputs of a step: value and QUAL by port. -/
abbrev Outs := List (CellOut × Nat)

/-! ### Inputs, delays and marks -/

/-- An input; an unconnected one reads 0, VALID. -/
def CellCtx.inp (c : CellCtx) (i : Nat) : PtV := ((c.ins[i]?).getD none).getD { qual := 1 }
/-- Whether an input is connected. -/
def CellCtx.conn (c : CellCtx) (i : Nat) : Bool := ((c.ins[i]?).getD none).isSome
/-- A binary input. -/
def CellCtx.bin (c : CellCtx) (i : Nat) : Bool := (c.inp i).val % 2 == 1
/-- An analogue point's number. -/
def PtV.ana (p : PtV) : Rat := f32 (p.val % 2 ^ 32)
/-- A phasor point's number. -/
def PtV.pha (p : PtV) : Cx := (f32 (p.val % 2 ^ 32), f32 (p.val / 2 ^ 32 % 2 ^ 32))
/-- Whether a point carries VALID. -/
def PtV.valid (p : PtV) : Bool := p.qual.testBit 0
/-- An analogue input. -/
def CellCtx.ana (c : CellCtx) (i : Nat) : Rat := (c.inp i).ana
/-- A phasor input. -/
def CellCtx.pha (c : CellCtx) (i : Nat) : Cx := (c.inp i).pha
/-- Whether an input carries CLIPPED. -/
def CellCtx.clip (c : CellCtx) (i : Nat) : Bool := (c.inp i).qual.testBit 2
/-- A setting as a whole number. -/
def CellCtx.setN (c : CellCtx) (i : Nat) : Nat := (c.set i).num.toNat / (c.set i).den

/-- The quality of a windowed output (R215): the flags of any member, FREEWHEEL of the newest, VALID the inverse of
SETTLING. -/
def windowQual : List Nat → Nat
  | [] => 1
  | q :: qs =>
    let any := (q :: qs).foldl (· ||| ·) 0
    (any &&& 0xEE) ||| (q &&& 0x10) ||| (!(any.testBit 1)).toNat

/-- The quality of START and OPERATE while READY (R216): VALID, and TEST, SUBST and SOURCE of the inputs. -/
def operateQual (qs : List Nat) : Nat := 1 ||| (qs.foldl (· ||| ·) 0 &&& 0xE0)

/-- The quality of a logic output (R260): VALID, and TEST when any input carries it. -/
def CellCtx.logicQual (c : CellCtx) : Nat := 1 ||| (c.ins.foldl (fun q p => q ||| ((p.getD {}).qual &&& 0x40)) 0)

/-- A number of `acc`, `cnt`. -/
def CellSt.a (s : CellSt) (i : Nat) : Rat := SMap.getD s.acc i 0
/-- A count or flag. -/
def CellSt.c (s : CellSt) (i : Nat) : Nat := SMap.getD s.cnt i 0
/-- A flag. -/
def CellSt.f (s : CellSt) (i : Nat) : Bool := s.c i != 0
/-- Sets a number. -/
def CellSt.setA (s : CellSt) (i : Nat) (v : Rat) : CellSt := { s with acc := SMap.set s.acc i v }
/-- Sets a count. -/
def CellSt.setC (s : CellSt) (i v : Nat) : CellSt := { s with cnt := SMap.set s.cnt i v }
/-- Sets a flag. -/
def CellSt.setB (s : CellSt) (i : Nat) (b : Bool) : CellSt := s.setC i b.toNat
/-- Starts a delay at an instant. -/
def CellSt.start (s : CellSt) (i t : Nat) : CellSt := { s with tim := SMap.set s.tim i t }
/-- Stops a delay. -/
def CellSt.stop (s : CellSt) (i : Nat) : CellSt := { s with tim := SMap.erase s.tim i }
/-- Whether a delay runs. -/
def CellSt.runs (s : CellSt) (i : Nat) : Bool := (SMap.get? s.tim i).isSome
/-- Whether a running delay of some ms has expired (R214). -/
def CellSt.over (s : CellSt) (i t : Nat) (ms : Rat) : Bool :=
  match SMap.get? s.tim i with
  | some t1 => decide (ms * 16000000 ≤ (((t : Int) - t1 : Int) : Rat))
  | none => false
/-- Holds every running delay for a step (R217). -/
def CellSt.hold (s : CellSt) (dt : Nat) : CellSt := { s with tim := s.tim.map fun p => (p.1, p.2 + dt) }
/-- Resets every delay and integrator (R219). -/
def CellSt.clear (s : CellSt) : CellSt := { s with tim := [], acc := [] }

/-- A delay that runs while a condition holds: the state after, and whether it has expired (R214). -/
def CellSt.delay (s : CellSt) (i t : Nat) (cond : Bool) (ms : Rat) : CellSt × Bool :=
  if cond then
    let s := if s.runs i then s else s.start i t
    (s, s.over i t ms)
  else (s.stop i, false)

/-- Puts this step's inputs at the head of the window, which keeps `n` members. -/
def CellSt.push (s : CellSt) (c : CellCtx) (n : Nat) : CellSt :=
  { s with win := ((c.t, (List.range c.ins.length).map c.inp) :: s.win).take n }

/-- An input of a window member. -/
def memberAt (m : Nat × List PtV) (i : Nat) : PtV := (m.2[i]?).getD {}

/-- Whether the window holds `n` members whose inputs `ix` are all VALID. -/
def CellSt.full (s : CellSt) (n : Nat) (ix : List Nat) : Bool :=
  decide (n ≤ s.win.length) && (s.win.take n).all fun m => ix.all fun i => (memberAt m i).valid

/-- Seconds between steps. -/
def CellCtx.dtS (c : CellCtx) : Rat := (c.dt : Rat) / 16000000000

/-- The quality of each of the latest `n` members of the window: the flags of any of the inputs `ix`. -/
def CellSt.quals (s : CellSt) (n : Nat) (ix : List Nat) : List Nat :=
  (s.win.take n).map fun m => ix.foldl (fun q i => q ||| (memberAt m i).qual) 0

/-- The quality of an output computed from the latest `n` members (R215); SETTLING until they are there and VALID (R262). -/
def CellSt.windowed (s : CellSt) (n : Nat) (ix : List Nat) : Nat :=
  let q := windowQual (s.quals n ix)
  if s.full n ix then q else (q ||| 2) - (q &&& 1)

/-! ### The frame of a measuring element (R216, R217, R219) -/

/-- The qualities of some inputs in the present step. -/
def CellCtx.quals (c : CellCtx) (ix : List Nat) : List Nat := ix.map fun i => (c.inp i).qual

/-- A measuring element, READY while its windows are full and every input that it reads is VALID (R216).  While BLK is 1 its delays and
integrators are reset, READY or not (R219); while it is not READY they are held (R217); otherwise `f` gives START, OPERATE and the state
after.  Flag 0 keeps START for the hysteresis, flag 99 READY; `wq` are the qualities of its window.  `extra` gives further outputs from
whether `f` ran, the quality of START and the state after. -/
def element (c : CellCtx) (s : CellSt) (reads wq : List Nat) (blk winReady : Bool) (reset : CellSt → CellSt)
    (f : CellSt → Bool × Bool × CellSt) (extra : Bool → Nat → CellSt → Outs := fun _ _ _ => []) : CellSt × Outs :=
  let ready := winReady && reads.all fun i => (c.inp i).valid
  let q := if ready then operateQual (c.quals reads ++ wq) else 2
  let s := s.setB 99 ready
  let r : Bool × Bool × CellSt :=
    if blk then (false, false, ((reset s).setC 0 0).setC 7 0) else if ready then f s else (false, false, s.hold c.dt)
  let s := if ready && !blk then r.2.2.setB 0 r.1 else r.2.2
  (s, [(.bin r.1, q), (.bin r.2.1, q), (.bin ready, 1)] ++ extra (ready && !blk) q s)

/-- A definite delay: OPERATE once START has held for some ms. -/
def definite (c : CellCtx) (s : CellSt) (start : Bool) (ms : Rat) : Bool × Bool × CellSt :=
  let r := s.delay 0 c.t start ms
  (start, r.2, r.1)

/-- OPERATE that has set stays set while START holds; flag 7 keeps it (R227, R228). -/
def CellSt.latchOp (s : CellSt) (op : Bool) : Bool × Bool × CellSt :=
  let op := s.f 7 || op
  (true, op, s.setB 7 op)

/-! ### Phasors (R222 to R224) -/

/-- The phasor of harmonic `h` over the latest `m` members of input 0 at scale √2 × `g` / N (R222, R223). -/
def dft (c : CellCtx) (win : List (Nat × List PtV)) (i h m : Nat) (g : Rat) : Cx :=
  let sum := (win.take m).zipIdx.foldl (fun z p =>
    let w := turnR (h * (c.k + c.n * h - p.2) % c.n) c.n
    let x := (memberAt p.1 i).ana
    (z.1 + x * w.1, z.2 - x * w.2)) ((0 : Rat), (0 : Rat))
  cscale (sqrtR 2 * g / c.n) sum

/-- DFT_FULL and DFT_HALF: input the sample; output the phasor.  Full takes H. -/
def cellDft (full : Bool) (c : CellCtx) (s : CellSt) : CellSt × Outs :=
  let m := if full then c.n else c.n / 2
  let s := s.push c m
  let z := dft c s.win 0 (if full then c.setN 0 else 1) m (if full then 1 else 2)
  (s, [(.pha z, s.windowed m [0])])

/-- SEQ: inputs Xa, Xb, Xc; outputs X0, X1, X2; setting ROT (R224). -/
def cellSeq (c : CellCtx) (s : CellSt) : CellSt × Outs :=
  let a := c.pha 0
  let b := if c.setN 0 = 1 then c.pha 2 else c.pha 1
  let e := if c.setN 0 = 1 then c.pha 1 else c.pha 2
  let q := windowQual [(c.inp 0).qual ||| (c.inp 1).qual ||| (c.inp 2).qual]
  let third := cscale (1 / 3)
  (s, [(.pha (third (cadd a (cadd b e))), q), (.pha (third (cadd a (cadd (cmul rot120 b) (cmul rot240 e)))), q),
    (.pha (third (cadd a (cadd (cmul rot240 b) (cmul rot120 e)))), q)])

/-! ### Overcurrent (R226 to R229) -/

/-- A, P, B and TR of a curve (R227). -/
def curve (n : Nat) : Rat × Rat × Rat × Rat :=
  if n = 1 then (14 / 100, 2 / 100, 0, 0) else if n = 2 then (135 / 10, 1, 0, 0) else if n = 3 then (80, 2, 0, 0)
  else if n = 4 then (120, 1, 0, 0) else if n = 5 then (515 / 10000, 2 / 100, 114 / 1000, 485 / 100)
  else if n = 6 then (1961 / 100, 2, 491 / 1000, 216 / 10) else (282 / 10, 2, 1217 / 10000, 291 / 10)

/-- M^P from M². -/
def mPow (m2 p : Rat) : Rat := if p = 2 then m2 else if p = 1 then sqrtR m2 else powR (sqrtR m2) p

/-- One step of a dependent curve's integrator with START = 1: Δt / t(M), nothing at M = 1, where t has no bound (R227).  A
clipped input whose M gives no positive time adds an amount the spec does not state. -/
def curveStep (c : CellCtx) (m2 : Rat) (clip : Bool) (cv : Nat) (tms : Rat) : Rat :=
  let p := curve cv
  let m2 := if 400 < m2 then 400 else m2
  if clip ∧ m2 ≤ 1 then (c.free : Rat) / 2 ^ 64
  else if m2 = 1 then 0
  else c.dtS / (tms * (p.1 / (mPow m2 p.2.1 - 1) + p.2.2.1))

/-- The definite or dependent characteristic of OC and EF over M² (R227, R228).  Delay 0 counts what START has held for TDEF, 1 the hold
of RESET = DEFINITE, 2 what START has held for TMIN; number 0 is G.  Both characteristics run on, so that a change of CURVE finds the
elapsed time (R220). -/
def overcurrent (c : CellCtx) (m2 : Rat) (clip dirOk : Bool) (s : CellSt) : Bool × Bool × CellSt :=
  let start := dirOk && (clip || decide (1 ≤ m2) || (s.f 0 && decide (97 / 100 * (97 / 100) ≤ m2)))
  let cv := c.setN 1
  let rs := c.setN 5
  if start then
    let r := ((s.stop 1).delay 2 c.t true (c.set 4))
    let e := r.1.delay 0 c.t true (c.set 3)
    if cv = 0 then e.1.latchOp e.2
    else
      let s := e.1.setA 0 (s.a 0 + curveStep c m2 clip cv (c.set 2))
      s.latchOp (decide (1 ≤ s.a 0) && r.2)
  else
    let s := (s.stop 2).setC 7 0
    let s := if rs = 1 then
        let held := s.hold c.dt
        let held := { held with tim := SMap.set held.tim 1 ((SMap.get? s.tim 1).getD (c.t : Int)) }
        if held.over 1 c.t (c.set 6) then (held.stop 0).setA 0 0 else held
      else if rs = 2 then
        let g := if m2 < 1 then s.a 0 - c.dtS / (c.set 2 * (curve cv).2.2.2 / (1 - m2)) else s.a 0
        (s.stop 0).setA 0 (if g < 0 then 0 else g)
      else (s.stop 0).setA 0 0
    (false, false, s)

/-- OC and EF: inputs the phasors, DIR, BLK; settings IS, CURVE, TMS, TDEF, TMIN, RESET, TRESET, DIRMODE, CANREL, IN. -/
def cellOc (ph : Nat) (c : CellCtx) (s : CellSt) : CellSt × Outs :=
  let ix := List.range ph
  let base := c.set 0 * c.set 9
  let reads := ix ++ (if c.setN 7 = 0 then [] else [ph]) ++ [ph + 1]
  element c s reads [] (c.bin (ph + 1)) true CellSt.clear fun s =>
    overcurrent c (maxList (ix.map fun i => mag2 (c.pha i)) / (base * base)) (ix.any c.clip) (c.setN 7 == 0 || c.bin ph) s

/-- OC_FAST: inputs up to three samples, BLK; settings IPK, CONF, CANREL, IN (R229).  Count 10 + p counts the samples of a phase above in
a row, 20 the steps since the last one of any; READY falls only while every input lacks VALID. -/
def cellOcFast (c : CellCtx) (s : CellSt) : CellSt × Outs :=
  let ix := (List.range 3).filter c.conn
  let th := c.set 0 * c.set 3
  let exceeds (i : Nat) : Bool := (c.inp i).valid && (c.clip i || decide (2 * th * th ≤ c.ana i * c.ana i))
  let ready := ix.any fun i => (c.inp i).valid
  let q := if ready then operateQual (c.quals (ix ++ [3])) else 2
  let s := s.setB 99 ready
  if c.bin 3 then ({ s.clear with cnt := SMap.set [] 99 ready.toNat }, [(.bin false, q), (.bin false, q), (.bin ready, 1)])
  else if !ready then (s.hold c.dt, [(.bin false, q), (.bin false, q), (.bin false, 1)])
  else
    let s := ix.foldl (fun s i => if (c.inp i).valid then s.setC (10 + i) (if exceeds i then s.c (10 + i) + 1 else 0) else s) s
    let s := s.setC 20 (if ix.any exceeds then 0 else s.c 20 + 1)
    let on := ix.any (fun i => exceeds i && decide (c.setN 1 ≤ s.c (10 + i))) || (s.f 0 && decide (s.c 20 < c.n / 2))
    (s.setB 0 on, [(.bin on, q), (.bin on, q), (.bin true, 1)])

/-! ### Directional (R232, R233) -/

/-- FWD and REV of one decision (R232). -/
def direction (i u : Cx) (rca w : Rat) : Bool × Bool :=
  let th := absR (normDeg (normDeg (cdeg i - cdeg u) - rca))
  (decide (th ≤ w), decide (180 - w ≤ th))

/-- The polarising voltage of a phase: Ubc, Uca, Uab turned by 90° (R232). -/
def quadrature (c : List PtV) (p : Nat) : Cx :=
  let u (i : Nat) : Cx := (c.getD (3 + i % 3) {}).pha
  cmul (0, 1) (csub (u (p + 1)) (u (p + 2)))

/-- The positive-sequence polarising voltage of a phase, √3 U1 turned to the phase (R233). -/
def posPol (m : List PtV) (p : Nat) : Cx :=
  let u (i : Nat) : Cx := (m.getD (3 + i) {}).pha
  let u1 := cscale (1 / 3) (cadd (u 0) (cadd (cmul rot120 (u 1)) (cmul rot240 (u 2))))
  cscale (sqrtR 3) (if p = 0 then u1 else if p = 1 then cmul rot240 u1 else cmul rot120 u1)

/-- The frame of a directional element: its decisions where it is READY and not blocked (R217, R219, R262). -/
def directional (c : CellCtx) (s : CellSt) (reads : List Nat) (blk : Bool) (n : Nat) (f : CellSt → CellSt × List Bool) : CellSt × Outs :=
  let ready := reads.all fun i => (c.inp i).valid
  let q := if ready then operateQual (c.quals reads) else 2
  let r : CellSt × List Bool :=
    if blk then (s.clear, List.replicate n false) else if ready then f s else (s.hold c.dt, List.replicate n false)
  (r.1, r.2.map (fun b => (.bin b, q)) ++ [(.bin ready, 1)])

/-- The remembered polarising voltage of delay `i`: while `now` is below UMIN (its square given), the value of 2 cycles before, if those
2 cycles were VALID and it is at least UMIN, for up to 500 ms (R233, R262).  Numbers 2i and 2i + 1 hold it.  The state after, the voltage
to use (none: no decision), and whether it is the remembered one. -/
def memory (c : CellCtx) (s : CellSt) (i : Nat) (umin2 : Rat) (now : Cx) (vs : List Nat) (past : List PtV → Cx) : CellSt × Option Cx × Bool :=
  if umin2 ≤ mag2 now then (s.stop i, some now, false)
  else
    let s := if s.runs i then s
      else match s.win[2 * c.n]? with
        | some m => if s.full (2 * c.n + 1) vs ∧ umin2 ≤ mag2 (past m.2) then ((s.start i c.t).setA (2 * i) (past m.2).1).setA (2 * i + 1) (past m.2).2 else s
        | none => s
    if s.runs i ∧ ¬s.over i c.t 500 then (s, some (s.a (2 * i), s.a (2 * i + 1)), true) else (s, none, false)

/-- DIR_PH: inputs Ia, Ib, Ic, Ua, Ub, Uc, BLK; outputs FWD and REV of A, B, C, NOPOL, READY; settings RCA, W, IMIN, UMIN,
IN, UN.  Delays 0 to 2 run while a phase uses its memory.  Upol is a phase-to-phase voltage, so UMIN has the base √3 × UN (R213). -/
def cellDirPh (c : CellCtx) (s : CellSt) : CellSt × Outs :=
  let imin := c.set 2 * c.set 4
  let umin := c.set 3 * c.set 5
  let now := (List.range 6).map c.inp
  directional c (s.push c (2 * c.n + 1)) (List.range 7) (c.bin 6) 7 fun s =>
    let r := (List.range 3).foldl (fun (acc : CellSt × List Bool × Bool) p =>
      let m := memory c acc.1 p (3 * umin * umin) (quadrature now p) [3, 4, 5] fun m => posPol m p
      let d := match m.2.1 with
        | some u => if mag2 (c.pha p) < imin * imin then (false, false) else direction (c.pha p) u (c.set 0) (c.set 1)
        | none => (false, false)
      (m.1, acc.2.1 ++ [d.1, d.2], acc.2.2 || m.2.2)) (s, [], false)
    (r.1, r.2.1 ++ [r.2.2])

/-- DIR_EF: inputs I0, U0, I2, U2, BLK; outputs FWD, REV, READY; settings RCA, W, IMIN, UMIN, POL, IN, UN. -/
def cellDirEf (c : CellCtx) (s : CellSt) : CellSt × Outs :=
  let neg := c.setN 4 == 1
  let i := if neg then c.pha 2 else cscale 3 (c.pha 0)
  let u := if neg then cscale (-1) (c.pha 3) else cscale (-3) (c.pha 1)
  let imin := c.set 2 * c.set 5
  let umin := c.set 3 * c.set 6
  directional c s (if neg then [2, 3, 4] else [0, 1, 4]) (c.bin 4) 2 fun s =>
    let d := if mag2 i < imin * imin ∨ mag2 u < umin * umin then (false, false) else direction i u (c.set 0) (c.set 1)
    (s, [d.1, d.2])

/-! ### Voltage (R235) -/

/-- The measured quantities of MEAS, squared, with the square of UN's factor: phase-to-earth, phase-to-phase (base √3 × UN)
or residual. -/
def voltages (c : CellCtx) (meas : Nat) : List Rat :=
  let a := c.pha 0
  let b := c.pha 1
  let e := c.pha 2
  if meas = 0 then [mag2 a, mag2 b, mag2 e]
  else if meas = 1 then [mag2 (csub a b) / 3, mag2 (csub b e) / 3, mag2 (csub e a) / 3]
  else [mag2 (cadd a (cadd b e))]

/-- The delay of a voltage element: definite, or inverse with 1 / t added per step, M clamped at 20 as in R227; both run on (R220).  OPERATE
stays set while START holds; START that clears resets both. -/
def voltageDelay (c : CellCtx) (s : CellSt) (start : Bool) (rate : Rat) : Bool × Bool × CellSt :=
  if !start then (false, false, ((s.stop 0).setA 0 0).setC 7 0)
  else
    let r := s.delay 0 c.t true (c.set 3)
    if c.setN 1 = 0 then r.1.latchOp r.2
    else
      let s := r.1.setA 0 (s.a 0 + c.dtS * rate / c.set 2)
      s.latchOp (decide (1 ≤ s.a 0))

/-- OV: inputs Ua, Ub, Uc, BLK; settings US, CURVE, TMS, TDEF, MEAS, UN. -/
def cellOv (c : CellCtx) (s : CellSt) : CellSt × Outs :=
  let us := c.set 0 * c.set 5
  let m2 := maxList (voltages c (c.setN 4)) / (us * us)
  let clip := [0, 1, 2].any c.clip
  element c s [0, 1, 2, 3] [] (c.bin 3) true CellSt.clear fun s =>
    let start := clip || decide (1 ≤ m2) || (s.f 0 && decide (98 / 100 * (98 / 100) ≤ m2))
    voltageDelay c s start (if clip ∧ m2 ≤ 1 then (c.free : Rat) / 2 ^ 64 else (if 400 < m2 then 20 else sqrtR m2) - 1)

/-- UV: inputs Ua, Ub, Uc, BLK; settings US, CURVE, TMS, TDEF, MEAS, LOGIC, UBLK, UN.  A clipped voltage lies above pickup, one
below UBLK is ignored; M is that of the voltage that decides, the lowest for ANY and the highest for ALL. -/
def cellUv (c : CellCtx) (s : CellSt) : CellSt × Outs :=
  let us := c.set 0 * c.set 7
  let blk := c.set 6 * c.set 7
  let clipOf (i : Nat) : Bool := if c.setN 4 = 0 then c.clip i else c.clip i || c.clip ((i + 1) % 3)
  let ms := (voltages c (c.setN 4)).zipIdx.filter fun p => clipOf p.2 || decide (blk * blk ≤ p.1)
  let below (p : Rat × Nat) : Bool := !(clipOf p.2) && decide (p.1 ≤ us * us)
  let low (p : Rat × Nat) : Bool := !(clipOf p.2) && decide (p.1 ≤ 102 / 100 * (102 / 100) * (us * us))
  let all := c.setN 5 == 1
  let cond (f : Rat × Nat → Bool) : Bool := if all then !ms.isEmpty && ms.all f else ms.any f
  let open_ := (ms.filter fun p => !(clipOf p.2)).map fun p => p.1 / (us * us)
  let m2 := if all then maxList open_ else open_.foldl (fun a b => if b < a then b else a) (open_.headD 0)
  element c s [0, 1, 2, 3] [] (c.bin 3) true CellSt.clear fun s =>
    voltageDelay c s (cond below || (s.f 0 && cond low)) (1 - sqrtR m2)

/-! ### Frequency (R237, R238) -/

/-- The frequency measured `off` steps back over `w` cycles (R237). -/
def freqAt (c : CellCtx) (win : List (Nat × List PtV)) (off w : Nat) : Rat :=
  let ms := (win.drop off).take (w * c.n + 1)
  let rot := (List.zipWith (fun a b => normDeg (cdeg (memberAt a 0).pha - cdeg (memberAt b 0).pha)) ms (ms.drop 1)).foldl (· + ·) 0
  let t1 := (ms.head?.map fun m => m.1).getD 0
  let t0 := (ms.getLast?.map fun m => m.1).getD 0
  let dur : Rat := ((t1 - t0 : Nat) : Rat) / 16000000000
  (w : Rat) / dur * (1 + rot / (360 * w))

/-- FREQ: inputs U1, BLK; outputs START, OPERATE, READY, BLOCKED; settings FS, DIR, W, TDEF, UBLK, UN. -/
def cellFreq (c : CellCtx) (s : CellSt) : CellSt × Outs :=
  let w := c.setN 2
  let s := s.push c (20 * c.n + 1)
  let ub := c.set 4 * c.set 5
  let low := decide (mag2 (c.pha 0) < ub * ub)
  element c s [0, 1] (s.quals (w * c.n + 1) [0]) (c.bin 1 || low) (s.full (w * c.n + 1) [0]) CellSt.clear
    (fun s =>
      let f := freqAt c s.win 0 w
      let d := if s.f 0 then (2 : Rat) / 100 else 0
      definite c s (if c.setN 1 = 0 then decide (f < c.set 0 + d) else decide (c.set 0 - d < f)) (c.set 3))
    fun _ _ _ => [(.bin low, 1)]

/-- ROCOF: inputs U1, BLK; outputs START, OPERATE, READY, BLOCKED; settings RS, MODE, WR, W, TDEF, UBLK, UN. -/
def cellRocof (c : CellCtx) (s : CellSt) : CellSt × Outs :=
  let wr := c.setN 2
  let w := c.setN 3
  let s := s.push c (70 * c.n + 1)
  let ub := c.set 5 * c.set 6
  let low := decide (mag2 (c.pha 0) < ub * ub)
  element c s [0, 1] (s.quals ((w + wr) * c.n + 1) [0]) (c.bin 1 || low) (s.full ((w + wr) * c.n + 1) [0]) CellSt.clear
    (fun s =>
      let t0 := ((s.win[wr * c.n]?).map fun m => m.1).getD 0
      let df := (freqAt c s.win 0 w - freqAt c s.win (wr * c.n) w) / (((c.t - t0 : Nat) : Rat) / 16000000000)
      let rs := c.set 0
      definite c s (if c.setN 1 = 1 then decide (absR rs ≤ absR df) else if 0 ≤ rs then decide (rs ≤ df) else decide (df ≤ rs)) (c.set 4))
    fun _ _ _ => [(.bin low, 1)]

/-! ### Thermal and wear (R240, R242) -/

/-- Whether this is the last step of a cycle. -/
def CellCtx.cycleEnd (c : CellCtx) : Bool := c.n != 0 && c.k % c.n == c.n - 1

/-- Mean square of an input over the latest `m` members. -/
def meanSq (win : List (Nat × List PtV)) (i m : Nat) : Rat :=
  ((win.take m).foldl (fun a w => a + (memberAt w i).ana * (memberAt w i).ana) 0) / m

/-- THERMAL: inputs three samples, BLK; outputs START, OPERATE, READY, ALARM, THETA, RESTORED; settings IB, K, TAUH, TAUC, ALRM,
TRST, THETA0, IN.  Number 9 is θ, which BLK leaves as it is; flag 1 is START, 2 OPERATE, 3 RESTORED, 4 that a cycle has been complete;
count 8 is the quality of θ, that of the latest cycle's samples (R215), SETTLING before the first one. -/
def cellThermal (c : CellCtx) (s : CellSt) : CellSt × Outs :=
  let s := s.push c (c.n + 1)
  let full := s.full c.n [0, 1, 2]
  let s := if c.cycleEnd then s.setC 8 (s.windowed c.n [0, 1, 2]) else s
  let s := if c.cycleEnd ∧ full then
      let b := c.set 1 * c.set 0 * c.set 7
      let q := maxList ([0, 1, 2].map fun i => meanSq s.win i c.n) / (b * b)
      let tau := (if 25 / 10000 ≤ q then c.set 2 else c.set 3) * 60
      let t0 := ((s.win[c.n]?).map fun m => m.1).getD ((s.win.getLast?.map fun m => m.1).getD c.t)
      let dt : Rat := ((c.t - t0 : Nat) : Rat) / 16000000000
      ((s.setA 9 (q + (s.a 9 - q) * expR (-dt / tau))).setB 1 (decide (1 < q))).setC 4 1
    else s
  let th := s.a 9
  let op := decide (1 ≤ th) || (s.f 2 && decide (c.set 5 ≤ th))
  let s := s.setB 2 op
  let q := SMap.getD s.cnt 8 2
  element c s [0, 1, 2, 3] [q] (c.bin 3) (s.f 4) (fun s => s) (fun s => (s.f 1, s.f 2, s))
    fun _ _ s => [(.bin (decide (c.set 4 ≤ s.a 9)), 1), (.ana (s.a 9), q), (.bin (s.f 3), 1)]

/-- BRK_WEAR: inputs Ia, Ib, Ic, OPEN; outputs WEAR_ALARM, OPS_ALARM, RATE_BLOCK, SLOW, RESTORED; settings X, WLIM, NLIM, NRATE,
TRATE, IN.  Numbers 0 to 2 are W_a to W_c, 10 + p the square of the largest magnitude in the 2 cycles before a pole's current last fell;
counts: 0 OPEN before, 3 RESTORED, 4 NOPS, 5 SLOW, 6 an operation runs, 10 + p a pole waits, 13 + p its current is below; delay 0 runs
from OPEN's rise, delay 1 + p for 100 ms from the fall; `evs` is the ring.  A current that fell up to 100 ms before OPEN's rise counts with
what it was before that fall, one that was low for longer with what it is (log entry 77). -/
def cellBrkWear (c : CellCtx) (s : CellSt) : CellSt × Outs :=
  let s := s.push c (2 * c.n + 1)
  let rise := c.bin 3 && !(s.f 0)
  let s := s.setB 0 (c.bin 3)
  let s := if rise then ((((s.start 0 c.t).setC 6 1).setC 10 1).setC 11 1).setC 12 1 else s
  let lim := c.set 5 * 5 / 100
  let late := s.over 0 c.t 100
  let s := (List.range 3).foldl (fun s p =>
    let low := decide (mag2 (c.pha p) < lim * lim)
    let fell := low && !(s.f (13 + p))
    let s := s.setB (13 + p) low
    let s := if fell then (s.setA (10 + p) (maxList (s.win.map fun m => mag2 (memberAt m p).pha))).start (1 + p) c.t else s
    let s := if s.over (1 + p) c.t 100 && !fell then s.stop (1 + p) else s
    if s.f (10 + p) && (low || late) then
      let big := if low && s.runs (1 + p) then s.a (10 + p) else mag2 (c.pha p)
      let s := (s.setA p (s.a p + powR (sqrtR big / c.set 5) (c.set 0))).setC (10 + p) 0
      if low then s else s.setC 5 1
    else s) s
  let done := s.f 6 && !(s.f 10) && !(s.f 11) && !(s.f 12)
  let s := if done then
      { ((s.setC 6 0).setC 4 (s.c 4 + 1)).stop 0 with evs := ((SMap.getD s.tim 0 (c.t : Int) / 16) :: s.evs).take 32 }
    else s
  let recent := s.evs.countP fun e => decide ((c.t : Rat) / 16 - c.set 4 * 60000000000 ≤ (e : Rat))
  (s, [(.bin ([0, 1, 2].any fun p => decide (c.set 1 ≤ s.a p)), 1), (.bin (decide (c.setN 2 ≤ s.c 4)), 1),
    (.bin (decide (c.setN 3 ≤ recent)), 1), (.bin (s.f 5), 1), (.bin (s.f 3), 1)])

/-! ### Distance (R243) -/

/-- Whether a loop operates. -/
def loopOperates (v i zr pol : Cx) : Bool :=
  let d := csub (cmul zr i) v
  decide (0 ≤ d.1 * pol.1 + d.2 * pol.2)

/-- MHO: inputs Ua, Ub, Uc, Ia, Ib, Ic, BLK; outputs START, OPERATE, READY and the START of loops A, B, C, AB, BC, CA; settings ZR,
ZANG, K0M, K0A, LOOPS, DIR, IMIN, TDEF, IN.  Delay 1 runs while the positive-sequence voltage is remembered, delay 10 + l while loop l holds
START; flag 10 + l keeps a loop's START. -/
def cellMho (c : CellCtx) (s : CellSt) : CellSt × Outs :=
  let pos (u : Nat → Cx) : Cx := cscale (1 / 3) (cadd (u 0) (cadd (cmul rot120 (u 1)) (cmul rot240 (u 2))))
  let z0 := cscale (c.set 0) (cosSinR (c.set 1))
  let zr := if c.setN 5 = 1 then cscale (-1) z0 else z0
  let k0 := cscale (c.set 2) (cosSinR (c.set 3))
  let i3 := cadd (c.pha 3) (cadd (c.pha 4) (c.pha 5))
  let imin := c.set 6 * c.set 8
  let phase (z : Cx) (p : Nat) : Cx := if p = 0 then z else if p = 1 then cmul rot240 z else cmul rot120 z
  let pe (z : Cx) (p : Nat) : Bool :=
    let i := cadd (c.pha (3 + p)) (cmul k0 i3)
    c.setN 4 % 2 == 1 && decide (imin * imin ≤ mag2 i) && loopOperates (c.pha p) i zr (phase z p)
  let pp (z : Cx) (p : Nat) : Bool :=
    let r := (p + 1) % 3
    let i := csub (c.pha (3 + p)) (c.pha (3 + r))
    c.setN 4 / 2 == 1 && decide (imin * imin ≤ mag2 i) && loopOperates (csub (c.pha p) (c.pha r)) i zr (csub (phase z p) (phase z r))
  element c (s.push c (2 * c.n + 1)) (List.range 7) [] (c.bin 6) true CellSt.clear
    (fun s =>
      let m := memory c s 1 (Config.mhoUmin * Config.mhoUmin) (pos c.pha) [0, 1, 2] fun m => pos fun i => ((m[i]?).getD {}).pha
      let loops := match m.2.1 with
        | some z => (List.range 3).map (pe z) ++ (List.range 3).map (pp z)
        | none => List.replicate 6 false
      let r := loops.zipIdx.foldl (fun (acc : CellSt × Bool) l =>
        let x := acc.1.delay (10 + l.2) c.t l.1 (c.set 7)
        (x.1.setB (10 + l.2) l.1, acc.2 || x.2)) (m.1, false)
      (loops.any id, r.2, r.1))
    fun on q s => (List.range 6).map fun l => (.bin (on && s.f (10 + l)), q)

/-! ### Supervision and sequences (R245 to R252) -/

/-- BROKEN: inputs I1, I2, BLK; settings RSET, I1MIN, TDEF, IN. -/
def cellBroken (c : CellCtx) (s : CellSt) : CellSt × Outs :=
  let i1 := mag2 (c.pha 0)
  let mn := c.set 1 * c.set 3
  element c s [0, 1, 2] [] (c.bin 2) true CellSt.clear fun s =>
    definite c s (decide (c.set 0 * c.set 0 * i1 ≤ mag2 (c.pha 1)) && decide (mn * mn ≤ i1)) (c.set 2)

/-- Whether a feeder is dead: CLOSED = 0, or every phase magnitude below 0.05 × IN (R246). -/
def feederDead (c : CellCtx) (closed : Nat) (inR : Rat) : Bool :=
  !(c.bin closed) || [0, 1, 2].all fun i => decide (mag2 (c.pha i) < inR * inR / 400)

/-- CLP: inputs Ia, Ib, Ic, CLOSED; outputs ACTIVE, RESTORED; settings TCOLD (s), TCLP (s), IEND, IN.  Delay 0 runs while dead, 1
while ACTIVE, 2 while every magnitude is below IEND; flag 0 is ACTIVE, 3 RESTORED. -/
def cellClp (c : CellCtx) (s : CellSt) : CellSt × Outs :=
  let dead := feederDead c 3 (c.set 3)
  let cold := s.over 0 c.t (c.set 0 * 1000)
  let s := if dead then (if s.runs 0 then s else s.start 0 c.t) else s.stop 0
  let s := if !dead && cold then ((s.setC 0 1).start 1 c.t).stop 2 else s
  let e := c.set 2 * c.set 3
  let r := s.delay 2 c.t (s.f 0 && [0, 1, 2].all fun i => decide (mag2 (c.pha i) < e * e)) 1000
  let s := if r.1.over 1 c.t (c.set 1 * 1000) || r.2 then ((r.1.setC 0 0).stop 1).stop 2 else r.1
  (s, [(.bin (s.f 0), 1), (.bin (s.f 3), 1)])

/-- SOTF: inputs Ia, Ib, Ic, CLOSED, CLOSE, ACCEL, BLK; settings TSOTF, TDEAD, ISOTF, IN.  Delay 0 runs while dead, 1 is the
window; flag 1 is CLOSE in the step before. -/
def cellSotf (c : CellCtx) (s : CellSt) : CellSt × Outs :=
  let dead := feederDead c 3 (c.set 3)
  let was := s.over 0 c.t (c.set 1)
  let rise := c.bin 4 && !(s.f 1)
  let th := c.set 2 * c.set 3
  element c (s.setB 1 (c.bin 4)) (List.range 7) [] (c.bin 6) true CellSt.clear fun s =>
    let s := if dead then (if s.runs 0 then s else s.start 0 c.t) else s.stop 0
    let s := if (!dead && was) || rise then s.start 1 c.t else s
    let s := if s.over 1 c.t (c.set 0) then s.stop 1 else s
    let op := s.runs 1 && (c.bin 5 || [0, 1, 2].any fun i => c.clip i || decide (th * th ≤ mag2 (c.pha i)))
    (op, op, s)

/-- BF: inputs three samples, TRIP, CLOSED, BLK; outputs RETRIP, BACKUP, READY; settings MODE, ICHK, T1, T2, IN.  Delays 0 and 1 are T1 and
T2; count 20 counts steps since the detector's last sample above, flag 0 is the initiation. -/
def cellBf (c : CellCtx) (s : CellSt) : CellSt × Outs :=
  let th := c.set 1 * c.set 4
  let above := [0, 1, 2].any fun i => (c.inp i).valid && decide (2 * th * th ≤ c.ana i * c.ana i)
  let s := s.setC 20 (if above then 1 else if s.c 20 = 0 then 0 else if s.c 20 < c.n / 2 then s.c 20 + 1 else 0)
  let current := s.f 20
  let keep := s.f 0 && ((c.setN 0 != 1 && current) || (c.setN 0 != 0 && c.bin 4))
  let init := (c.bin 3 || keep) && !(c.bin 5)
  let a := (s.setB 0 init).delay 0 c.t init (c.set 2)
  let b := a.1.delay 1 c.t init (c.set 3)
  (b.1, [(.bin a.2, c.logicQual), (.bin b.2, c.logicQual), (.bin true, 1)])

/-- AR's move to LOCKOUT; count 0 is the state (0 READY, 1 DEAD, 2 CLOSING, 3 RECLAIM, 4 LOCKOUT), 1 the shot, 2 that no reclose follows (1)
and that MANUAL asked for it (2), 7 that this CLOSING has issued its pulse.  A pulse once issued, delay 2, lasts TCLOSE whatever state
follows. -/
def CellSt.arKeep (s : CellSt) (tim : SMap Int) : CellSt :=
  { s with tim := match SMap.get? s.tim 2 with
      | some p => SMap.set tim 2 p
      | none => tim }
/-- LOCKOUT. -/
def arLock (s : CellSt) : CellSt := (s.setC 0 4).arKeep []
/-- RECLAIM with no reclose. -/
def arManual (s : CellSt) (t : Int) (why : Nat) : CellSt := ((s.setC 0 3).setC 2 why).arKeep [(3, t)]

/-- A step in CLOSING: the conditions are tested in the step in which it is entered too, and TWAIT = 0 expires in it (R214, R250). -/
def arClosing (c : CellCtx) (rose : Bool) (s : CellSt) : CellSt :=
  if s.f 7 then
    if rose then (s.setC 0 3).arKeep [(3, c.t)]
    else if s.over 2 c.t (c.set 6) then arLock s
    else s
  else if c.bin 2 && (!((c.setN 8).testBit (s.c 1 - 1)) || c.bin 3) then (s.start 2 c.t).setC 7 1
  else if s.over 1 c.t (c.set 7) then arLock s
  else s

/-- One step of the table of R250 under R251.  Delays: 0 dead time, 1 TWAIT, 2 CLOSE pulse, 3 TRECLAIM, 4 from TRIP's rise. -/
def arStep (c : CellCtx) (s : CellSt) : CellSt :=
  let trip := c.bin 0
  let closed := c.bin 1
  let fell := s.f 5 && !closed
  let rose := !(s.f 5) && closed
  let tripRose := trip && !(s.f 6)
  let manual := c.bin 5
  let s := (s.setB 5 closed).setB 6 trip
  let n := s.c 1
  let shots := c.setN 0
  if trip && (manual || c.bin 6) then arLock s
  else if manual then arManual s c.t 2
  else if c.bin 4 && (s.c 0 == 1 || s.c 0 == 2 || s.c 0 == 3) then arLock s
  else if s.c 0 = 0 then
    if trip && shots == 0 then arLock s
    else
      let s := if tripRose then s.start 4 c.t else s
      if fell && s.runs 4 && decide ((c.t : Int) - SMap.getD s.tim 4 0 ≤ 3200000000) then ((s.setC 0 1).setC 1 1).arKeep [(0, c.t)] else s
  else if s.c 0 = 1 then
    let s := if fell then s.start 0 c.t else s
    if s.over 0 c.t (c.set n) then arClosing c rose (((s.setC 0 2).setC 7 0).arKeep [(1, c.t)]) else s
  else if s.c 0 = 2 then arClosing c rose s
  else if s.c 0 = 3 then
    if trip then
      if s.f 2 || decide (shots ≤ n) then arLock s else ((s.setC 0 1).setC 1 (n + 1)).arKeep [(0, c.t)]
    else if s.over 3 c.t (c.set 5) then (((s.setC 0 0).setC 1 0).setC 2 0).arKeep []
    else s
  else if c.bin 6 then arManual s c.t 1
  else s

/-- AR: inputs TRIP, CLOSED, CB_READY, SYNC_OK, BLK, MANUAL, RESET; outputs CLOSE, BLK_INST, SHOT, LOCKOUT, IN_PROG, RESTORED; settings
SHOTS, DT1 to DT4, TRECLAIM, TCLOSE, TWAIT, SYNCREQ, INSTMASK (R249 to R251). -/
def cellAr (c : CellCtx) (s : CellSt) : CellSt × Outs :=
  let s := arStep c s
  let s := if s.over 2 c.t (c.set 6) then s.stop 2 else s
  let q := c.logicQual
  (s, [(.bin (s.runs 2), q), (.bin (!((c.setN 9).testBit (if s.c 0 = 0 then 0 else s.c 1))), q), (.cnt (s.c 1), 0),
    (.bin (s.c 0 == 4), q), (.bin (s.c 0 == 1 || s.c 0 == 2), q), (.bin (s.f 3), 1)])

/-- SYNC: inputs UL, UB, BLK; outputs CHECK_OK, READY; settings MODE, TCONF, ULIVE, UDEAD, DUMAX, DPHMAX, DFMAX, UN (R252).  Delay m runs
while the condition of mode m holds. -/
def cellSync (c : CellCtx) (s : CellSt) : CellSt × Outs :=
  let s := s.push c (c.n + 1)
  let un := c.set 7
  let l2 := mag2 (c.pha 0)
  let b2 := mag2 (c.pha 1)
  let live (x : Rat) : Bool := decide (c.set 2 * un * (c.set 2 * un) ≤ x)
  let dead (x : Rat) : Bool := decide (x ≤ c.set 3 * un * (c.set 3 * un))
  let dphi (a b : Cx) : Rat := normDeg (cdeg a - cdeg b)
  let d := dphi (c.pha 0) (c.pha 1)
  let past := s.win[c.n]?
  let d0 := (past.map fun m => dphi (memberAt m 0).pha (memberAt m 1).pha).getD 0
  let dur : Rat := ((c.t - (past.map fun m => m.1).getD 0 : Nat) : Rat) / 16000000000
  let df := normDeg (d - d0) / (360 * dur)
  let measured := (past.map fun m => (memberAt m 0).valid && (memberAt m 1).valid).getD false
  let ok := decide (absR (sqrtR l2 - sqrtR b2) ≤ c.set 4 * un) && decide (absR d ≤ c.set 5) && measured && decide (absR df ≤ c.set 6)
  let conds := [live l2 && live b2 && ok, dead l2 && live b2, live l2 && dead b2, dead l2 && dead b2]
  let ready := (List.range 3).all fun i => (c.inp i).valid
  let free := (c.inp 0).qual.testBit 4 || (c.inp 1).qual.testBit 4
  let q := if ready then operateQual (c.quals [0, 1, 2]) else 2
  if c.bin 2 then (s.clear, [(.bin false, q), (.bin ready, 1)])
  else if !ready then (s.hold c.dt, [(.bin false, q), (.bin false, 1)])
  else
    let r := conds.zipIdx.foldl (fun (acc : CellSt × Bool) m =>
      let x := acc.1.delay m.2 c.t ((c.setN 0).testBit m.2 && m.1) (c.set 1)
      (x.1, acc.2 || x.2)) (s, false)
    (r.1, [(.bin (r.2 && !free), q), (.bin true, 1)])

/-! ### High-impedance faults (R253) -/

/-- HIF: inputs the residual sample, BLK; outputs START, OPERATE, READY, ALARM; settings I3MIN, DI3, NALM, NOP, TWIN, IBLK, IN.
Numbers 0 and 1 hold the previous cycle's I3; flag 5 is that it was complete, 6 that IBLK blocks, 8 that the latest two cycles were
complete; `evs` the instants of the events. -/
def cellHif (c : CellCtx) (s : CellSt) : CellSt × Outs :=
  let s := s.push c (2 * c.n)
  let full := s.full c.n [0]
  let i1 := dft c s.win 0 1 c.n 1
  let ib := c.set 5 * c.set 6
  let blocked := full && c.cycleEnd && decide (ib * ib ≤ mag2 i1)
  let s := if c.cycleEnd then s.setB 6 blocked else s
  let s := if c.cycleEnd && full then
      let i3 := dft c s.win 0 3 c.n 1
      let mn := c.set 0 * c.set 6
      let di := c.set 1 * c.set 6
      let ev := decide (mn * mn ≤ mag2 i3) && decide (di * di ≤ mag2 (csub i3 (s.a 0, s.a 1))) && s.f 5
      let s := ((s.setA 0 i3.1).setA 1 i3.2).setC 5 1
      if ev then { s with evs := ((c.t : Int) :: s.evs).take 1024 } else s
    else if c.cycleEnd then (s.setC 5 0) else s
  let s := if c.cycleEnd then s.setB 8 (s.full (2 * c.n) [0]) else s
  let s := { s with evs := s.evs.filter fun e => decide ((((c.t : Int) - e : Int) : Rat) ≤ c.set 4 * 16000000) }
  element c s [0, 1] (s.quals (2 * c.n) [0]) (c.bin 1 || s.f 6) (s.f 8) (fun s => { s with evs := [] })
    (fun s => (!s.evs.isEmpty, decide (c.setN 3 ≤ s.evs.length), s))
    fun _ _ s => [(.bin (decide (c.setN 2 ≤ s.evs.length)), 1)]

/-! ### Energy (R254, R255) -/

/-- Units of 10⁻³ Wh (or varh) from W s. -/
def milliWh (ws : Rat) : Rat := ws * 1000 / 3600

/-- Adds an amount to a counter of ENERGY, carrying the remainder below 1 (R254). -/
def energyAdd (s : CellSt) (i : Nat) (x : Rat) : CellSt :=
  let t := s.a (20 + i) + x
  let n := t.num.toNat / t.den
  (s.setC (30 + i) ((s.c (30 + i) + n) % 2 ^ 64)).setA (20 + i) (t - n)

/-- Books what waits: active energy by its sign, reactive energy by quadrant (R254). -/
def energyBook (s : CellSt) : CellSt :=
  let p := s.a 10
  let q := s.a 11
  let s := if 0 < p then energyAdd s 0 (milliWh p) else if p < 0 then energyAdd s 1 (milliWh (-p)) else s
  let quad := if 0 ≤ p then (if 0 ≤ q then 0 else 3) else (if 0 ≤ q then 1 else 2)
  let s := if q = 0 then s else energyAdd s (2 + quad) (milliWh (absR q))
  ((s.setA 10 0).setA 11 0).setC 12 0

/-- Closes the second that a sample of the next one ends: its sums wait for booking, and those of the second before are booked if they still
wait; a second whose every current RMS is below ISTART books nothing (R255).  Numbers: 0, 1 the sums of the second; 2 to 4 the sums of i²; 10, 11
what waits; counts: 0 the second, 1 that one runs, 2 its samples, 12 that sums wait, 13 ENQ. -/
def energyClose (c : CellCtx) (s : CellSt) (sec : Nat) : CellSt :=
  if s.f 1 ∧ s.c 0 ≠ sec then
    let lim := c.set 0 * c.set 1
    let idle := [2, 3, 4].all fun i => decide (s.a i < lim * lim * (s.c 2 : Rat))
    let s := if s.f 12 then energyBook s else s
    let s := if idle then s else (s.setA 10 (s.a 0)).setA 11 (s.a 1)
    let s := s.setC 12 1
    let s := ((((s.setA 0 0).setA 1 0).setA 2 0).setA 3 0).setA 4 0
    ((s.setC 0 sec).setC 2 0).setC 13 0
  else (s.setC 0 sec).setC 1 1

/-- The outputs of ENERGY: the six counters, GAP_S, ENQ, RESTORED.  Counts 30 to 35 are the counters, number 30 GAP_S. -/
def energyOuts (s : CellSt) : Outs :=
  (List.range 6).map (fun i => (.cnt (s.c (30 + i)), 0)) ++ [(.ana (s.a 30), 1), (.bin (s.f 13), 1), (.bin (s.f 3), 1)]

/-- ENERGY: inputs va, vb, vc, ia, ib, ic; settings ISTART, IN. -/
def cellEnergy (c : CellCtx) (s : CellSt) : CellSt × Outs :=
  let s := energyClose c s (c.cal / 1000000000)
  let s := s.push c 65
  let all := (List.range 6).map c.inp
  let dt : Rat := 1 / c.rate
  let marked := all.any fun (p : PtV) => p.qual.testBit 2 || p.qual.testBit 5
  let s := if all.all (·.valid) then
      let p := [0, 1, 2].foldl (fun a i => a + c.ana i * c.ana (3 + i)) 0
      let h (i : Nat) : Rat := s.win.zipIdx.foldl (fun a w => a + Config.hilbert w.2 * (memberAt w.1 i).ana) 0
      let q := [0, 1, 2].foldl (fun a i => a + c.ana i * h (3 + i)) 0
      let s := (s.setA 0 (s.a 0 + p * dt)).setA 1 (s.a 1 + q * dt)
      let s := [0, 1, 2].foldl (fun s i => s.setA (2 + i) (s.a (2 + i) + c.ana (3 + i) * c.ana (3 + i))) s
      let s := s.setC 2 (s.c 2 + 1)
      if marked then s.setC 13 1 else s
    else (s.setA 30 (s.a 30 + dt)).setC 13 1
  (s, energyOuts s)

/-! ### Balance (R257 to R259) -/

/-- BALANCE: inputs EA_IMP, EA_EXP, ENQ; outputs NTL, RATIO, COMPLETE, ALARM, REJ, RESTORED; settings TINT, NSLOT, LFIX, LPROP, TDL,
RALM, NCONS.  Numbers: 0 EA_IMP − EA_EXP now, 1 at the interval's start, 2 NTL, 3 RATIO; counts: 0 the interval's start (s), 2
something made it incomplete, 3 RESTORED, 4 COMPLETE, 5 ALARM, 6 complete intervals in a row, 7 REJ, 8 that an interval has been
judged, 9 the quality of NTL and RATIO, 11 that number 1 has been taken. -/
def balanceOuts (s : CellSt) : Outs :=
  let q := if s.f 8 then s.c 9 else 2
  [(.ana (s.a 2), q), (.ana (s.a 3), q), (.bin (s.f 4), 1), (.bin (s.f 5), 1), (.cnt (s.c 7), 0), (.bin (s.f 3), 1)]

/-- The step of BALANCE: it takes the head counters, those of its first step as the start of the interval that runs at release, and notes
what makes the interval incomplete (R259). -/
def cellBalance (c : CellCtx) (s : CellSt) : CellSt × Outs :=
  let s := s.setA 0 (((c.inp 0).val : Rat) - ((c.inp 1).val : Rat))
  let s := if s.f 11 then s else (s.setA 1 (s.a 0)).setC 11 1
  let s := if !c.calOk || c.bin 2 then s.setC 2 1 else s
  (s, balanceOuts s)

/-- An interval closes and the one that starts at `sec` begins (R257), incomplete from its start where `bad` says so. -/
def balanceClose (s : CellSt) (sec tsc : Nat) (bad : Bool) : CellSt :=
  let s := { s with ints := s.ints ++ [({ start := s.c 0, head := (s.a 0 - s.a 1) / 1000, closed := tsc, reports := [], bad := s.f 2 } : BalInt)] }
  ((s.setC 0 sec).setB 2 bad).setA 1 (s.a 0)

/-- A step of CAL falls into the running interval (R259).  A step over a boundary closes it, and the one in which CAL lands begins
incomplete; a step back leaves it running, under the boundary before CAL (log entry 77). -/
def balanceJump (s : CellSt) (sec tsc : Nat) : CellSt :=
  let s := s.setC 2 1
  if s.c 0 < sec then balanceClose s sec tsc true else s.setC 0 sec

/-- Stores a report with the first of some intervals that has its start and a free slot. -/
def putReport (slot minute : Nat) (energy : Int) : List BalInt → List BalInt
  | [] => []
  | i :: is =>
    if i.start / 60 = minute ∧ SMap.get? i.reports slot = none then { i with reports := SMap.set i.reports slot (energy : Rat) } :: is
    else i :: putReport slot minute energy is

/-- A report reaches the cell, which accepts it or counts it in REJ (R258).  It names its interval's start in whole minutes of CAL. -/
def balanceReport (s : CellSt) (slot minute status nslot : Nat) (energy : Int) : CellSt :=
  let older := s.ints.take (s.ints.length - 8)
  let recent := s.ints.drop (s.ints.length - 8)
  let ok := recent.any (fun i => i.start / 60 == minute && !((SMap.get? i.reports slot).isSome)) && status == 0 && decide (slot < nslot)
  if ok then { s with ints := older ++ putReport slot minute energy recent } else s.setC 7 (s.c 7 + 1)

/-- Judges an interval (R259): its NTL and RATIO, the slots that did not report, and the state after. -/
def balanceJudge (s : CellSt) (i : BalInt) (nslot ncons : Nat) (lfix lprop ralm : Rat) : CellSt × Rat × Rat × Bool × Nat :=
  let missing := nslot - i.reports.length
  let complete := decide (missing = 0) && !i.bad
  let sum := i.reports.foldl (fun a p => a + p.2) 0
  let ntl := i.head - sum - (lfix + lprop * i.head)
  let ratio := if i.head ≤ 0 then 0 else ntl / i.head
  let run := if complete then (if ralm ≤ ratio then s.c 6 + 1 else 0) else s.c 6
  let alarm := if complete then (decide (ralm ≤ ratio) && (s.f 5 || decide (ncons ≤ run))) else s.f 5
  let s := (((s.setA 2 ntl).setA 3 ratio).setB 4 complete).setB 5 alarm
  let s := ((s.setC 6 run).setC 8 1).setC 9 (if complete then 1 else 34)
  ({ s with ints := s.ints.drop 1 }, ntl, ratio, complete, missing)

/-! ### Logic, timers, plausibility (R260, R261) -/

/-- LOGIC: up to six inputs; output the table's bit; settings TT low and high words. -/
def cellLogic (c : CellCtx) (s : CellSt) : CellSt × Outs :=
  let b := (List.range 6).foldl (fun a i => a + (c.bin i).toNat * 2 ^ i) 0
  let word (i : Nat) : Nat := ((c.set i).num % 2 ^ 32).toNat
  (s, [(.bin ((word 0 + word 1 * 2 ^ 32).testBit b), c.logicQual)])

/-- TIMER: input IN; output; settings MODE, T.  Flag 0 is the input before, 1 the output. -/
def cellTimer (c : CellCtx) (s : CellSt) : CellSt × Outs :=
  let x := c.bin 0
  let t := c.set 1
  let r : CellSt × Bool :=
    if c.setN 0 = 0 then s.delay 0 c.t x t
    else if c.setN 0 = 1 then
      if x then (s.stop 0, true)
      else if s.f 1 then
        let d := s.delay 0 c.t true t
        if d.2 then (d.1.stop 0, false) else (d.1, true)
      else (s, false)
    else
      let s := if s.over 0 c.t t then s.stop 0 else s
      let s := if x && !(s.f 0) && !(s.runs 0) then s.start 0 c.t else s
      (s, s.runs 0)
  ((r.1.setB 0 x).setB 1 r.2, [(.bin r.2, c.logicQual)])

/-- LATCH: inputs SET, RESET; outputs its state, RESTORED; settings RDOM, RETAIN.  Flag 0 is the output, 3 RESTORED. -/
def cellLatch (c : CellCtx) (s : CellSt) : CellSt × Outs :=
  let set := c.bin 0
  let rst := c.bin 1
  let o := if set && rst then c.setN 0 == 0 else if set then true else if rst then false else s.f 0
  (s.setB 0 o, [(.bin o, c.logicQual), (.bin (s.f 3), 1)])

/-- A FAIL output: it sets when its condition has lasted TDEF and clears when it has been absent as long (R261). -/
def failAfter (c : CellCtx) (s : CellSt) (i : Nat) (cond ready : Bool) (ms : Rat) : CellSt × Bool :=
  if !ready then (s.hold c.dt, false)
  else
    let r := s.delay i c.t (cond != s.f i) ms
    if r.2 then ((r.1.stop i).setB i cond, cond) else (r.1, s.f i)

/-- PL_ISUM: inputs Ia, Ib, Ic, In_meas; output FAIL; settings ISET, SLOPE, TDEF, IN. -/
def cellPlIsum (c : CellCtx) (s : CellSt) : CellSt × Outs :=
  let d := csub (cadd (c.pha 0) (cadd (c.pha 1) (c.pha 2))) (c.pha 3)
  let a := c.set 0 * c.set 3
  let b := c.set 1 * c.set 1 * maxList ([0, 1, 2].map fun i => mag2 (c.pha i))
  let ready := (List.range 4).all fun i => (c.inp i).valid
  let r := failAfter c s 0 (decide (maxR (a * a) b ≤ mag2 d)) ready (c.set 2)
  (r.1, [(.bin r.2, if ready then 1 else 2)])

/-- PL_VT: inputs Ua, Ub, Uc, U2, Ia, Ib, Ic, I2, CLOSED; output FAIL; settings U2SET, I2SET, UDEAD, ILIVE, TDEF, IN, UN. -/
def cellPlVt (c : CellCtx) (s : CellSt) : CellSt × Outs :=
  let sq (x : Rat) : Rat := x * x
  let a := decide (sq (c.set 0 * c.set 6) ≤ mag2 (c.pha 3)) && decide (mag2 (c.pha 7) < sq (c.set 1 * c.set 5))
  let b := ([0, 1, 2].all fun i => decide (mag2 (c.pha i) < sq (c.set 2 * c.set 6))) &&
    ([4, 5, 6].any fun i => decide (sq (c.set 3 * c.set 5) ≤ mag2 (c.pha i))) && c.bin 8
  let ready := (List.range 8).all fun i => (c.inp i).valid
  let r := failAfter c s 0 (a || b) ready (c.set 4)
  (r.1, [(.bin r.2, if ready then 1 else 2)])

/-- PL_OPEN: inputs phases A, B, C, X1, X2; outputs OPEN_A, OPEN_B, OPEN_C, ROTATION; settings FRAC, MINLOAD, TDEF, base. -/
def cellPlOpen (c : CellCtx) (s : CellSt) : CellSt × Outs :=
  let m (i : Nat) : Rat := sqrtR (mag2 (c.pha i))
  let load := c.set 1 * c.set 3
  let ready := (List.range 5).all fun i => (c.inp i).valid
  let r := (List.range 3).foldl (fun (acc : CellSt × List Bool) p =>
    let mean := (m ((p + 1) % 3) + m ((p + 2) % 3)) / 2
    let x := failAfter c acc.1 p (decide (m p < c.set 0 * mean) && decide (load ≤ mean)) ready (c.set 2)
    (if ready then x.1 else acc.1, acc.2 ++ [x.2])) (s, [])
  let rot := decide (81 / 100 * mag2 (c.pha 3) ≤ mag2 (c.pha 4)) && decide (load * load ≤ mag2 (c.pha 3))
  let x := failAfter c r.1 3 rot ready (c.set 2)
  (x.1, (r.2 ++ [x.2]).map fun b => (.bin b, if ready then 1 else 2))

/-- CH_HEALTH: outputs HEALTHY_0 to HEALTHY_15; setting CHMASK.  Count 0 is the count of fallbacks at its last read. -/
def cellChHealth (c : CellCtx) (s : CellSt) : CellSt × Outs :=
  let noFallback := decide (s.c 0 = c.fallbacks)
  (s.setC 0 c.fallbacks, c.health.zipIdx.map fun p => (.bin ((c.setN 0).testBit p.2 && p.1 && noFallback), 1))

/-- The step of a cell by its CELLTYPE (R212); a type that is not listed is rejected at LOAD. -/
def cellStep (ct : Nat) (c : CellCtx) (s : CellSt) : CellSt × Outs :=
  if ct = 0x0001 then cellDft true c s
  else if ct = 0x0002 then cellDft false c s
  else if ct = 0x0003 then cellSeq c s
  else if ct = 0x0010 then cellOc 3 c s
  else if ct = 0x0011 then cellOc 1 c s
  else if ct = 0x0012 then cellOcFast c s
  else if ct = 0x0013 then cellDirPh c s
  else if ct = 0x0014 then cellDirEf c s
  else if ct = 0x0020 then cellUv c s
  else if ct = 0x0021 then cellOv c s
  else if ct = 0x0022 then cellFreq c s
  else if ct = 0x0023 then cellRocof c s
  else if ct = 0x0030 then cellThermal c s
  else if ct = 0x0031 then cellBrkWear c s
  else if ct = 0x0040 then cellMho c s
  else if ct = 0x0050 then cellBroken c s
  else if ct = 0x0051 then cellClp c s
  else if ct = 0x0052 then cellSotf c s
  else if ct = 0x0053 then cellBf c s
  else if ct = 0x0054 then cellAr c s
  else if ct = 0x0055 then cellSync c s
  else if ct = 0x0056 then cellHif c s
  else if ct = 0x0060 then cellEnergy c s
  else if ct = 0x0061 then cellBalance c s
  else if ct = 0x0070 then cellLogic c s
  else if ct = 0x0071 then cellTimer c s
  else if ct = 0x0072 then cellLatch c s
  else if ct = 0x0078 then cellPlIsum c s
  else if ct = 0x0079 then cellPlVt c s
  else if ct = 0x007A then cellPlOpen c s
  else if ct = 0x007B then cellChHealth c s
  else (s, [])

end Sys2Proof.Machine
end

