-- ==== Sys2Proof/Machine/RegMap.lean ====
section
/-!
DEFINITION. The register map: every register of spec/ (R27, and the register tables of each chapter), its place, class,
window and fields.  A register that the spec gives once per index is one name here with an index.

* `Reg` names the registers; `Fld` names a field of one, by the register and its bits.
* `Reg.desc` is the register's row: address, class, index ranges, composite, window and fields.
* An absent reset value (the entries I, C and a dash of R7) is 0: DESIGN CHOICE, log entry 5.
* The names DMA_MXAL to DMA_PBA stand for the MSI-X table and pending-bit words of R411; their layout is PCIe's own
  (PRESUMED, log entry 7).
-/
set_option maxRecDepth 4000
namespace Sys2Proof.Machine

/-- The registers, by the names of the spec's headings with the index left off. -/
inductive Reg where
  | SYS_MODE
  | SYS_MODECNT
  | SYS_STEPPING
  | SYS_START
  | SYS_DEGR
  | SYS_TREL
  | SYS_OUTAGE
  | SYS_PWR
  | SYS_HOLDUP
  | SYS_HALF
  | SYS_THYME
  | SYS_MBXGO
  | SYS_MBX
  | HFR_GATE
  | HFR_LOCK
  | HFR_IMG
  | HFR_KEYS
  | HFR_RB
  | HFR_NONCE
  | HFR_UID
  | HFR_RSTAT
  | HFR_RTAG
  | HFR_TAMPER
  | HFR_FAIL
  | SAGE_STAT
  | SAGE_REFC
  | SAGE_REFN
  | SAGE_REFS
  | SAGE_LASTC
  | SAGE_LASTN
  | SAGE_LASTS
  | CLK_TSC
  | CLK_CAL
  | CLK_CAL_RATE
  | CLK_UTC
  | CLK_CAL_STAT
  | CLK_TCXO
  | CLK_SNAP_CTL
  | CLK_SNAP_SEQ
  | CLK_SNAP_TSC
  | CLK_SNAP_CAL
  | CLK_SNAP_ANG
  | CLK_CONVA
  | CLK_CONVT
  | CLK_CONV_STAT
  | ANG_CTL
  | ANG_REFA
  | ANG_REFB
  | ANG_REFC
  | ANG_VNOM_LO
  | ANG_VNOM_HI
  | ANG_OFS
  | ANG_TIME
  | ANG_FREQ
  | ANG_ROCOF
  | ANG_PHERR
  | ANG_STAT
  | NET_CTL
  | NET_STAT
  | NET_RLIM
  | NET_PCNT
  | PTP_CTL
  | PTP_STAT
  | PTP_GMID
  | PTP_OFS
  | PTP_CNT
  | PTP_GMINFO
  | PTP_VID
  | PTP_PDLY
  | PTP_ASYM
  | NET_LQSEL
  | NET_LQBA0
  | NET_LQBA1
  | NET_LQBA2
  | NET_LQCFG
  | NET_LQTAIL
  | NET_LQSTAT
  | SVI_DL
  | SVI_UNMATCH
  | SVI_SVIDSEL
  | SVI_SVIDWR
  | SVI_SVIDRD
  | SVI_INVAL
  | SVI_LIVE
  | SVI_SUBCTL
  | SVI_SUBMAC0
  | SVI_SUBMAC1
  | SVI_SUBMAC2
  | SVI_SUBAPP
  | SVI_SUBREVLO
  | SVI_SUBREVHI
  | SVI_SUBMAP
  | SVI_SUBSCL
  | SVI_SUBSTAT
  | SVI_SUBCNT
  | AFE_REF
  | AFE_PAIR
  | AFE_BGC
  | AFE_STAT
  | AFE_CLIP
  | AFE_BGC_STAT
  | AFE_REFIN
  | AFE_GAIN
  | AFE_CHSTAT
  | AFE_SKEW01
  | AFE_SKEW23
  | AFE_OFSA
  | AFE_OFSB
  | AFE_GNA
  | AFE_GNB
  | AUX_CTL
  | AUX_GAP
  | AUX_STAT
  | AUX_URG
  | AUX_URG_RES
  | AUX_URG_DROP
  | AUX_SLOT
  | AUX_RES
  | FLT_CTL
  | FLT_RESET
  | FLT_STAT
  | FLT_FRSTAT
  | FLT_CWSEL
  | FLT_CWLO
  | FLT_CWHI
  | FLT_CRD
  | FLT_PITS0
  | FLT_PITS1
  | FLT_CHCTL
  | FLT_DCB
  | FLT_SWAP
  | FLT_CHSTAT
  | FLT_DCEST
  | FLT_DECIDX
  | SEAM_STAT
  | SEAM_GRP
  | SEAM_GRP_STAT
  | SEAM_GRP_CNT
  | SEAM_OVR
  | SEAM_HALT
  | SEAM_DUP
  | SEAM_DUPLAST
  | SEAM_LOADERR
  | SEAM_OVRH
  | SEAM_HALTH
  | SEAM_PADDR
  | SEAM_PVAL
  | SEAM_PMETA
  | SEAM_PSTEP
  | SEAM_HIN
  | SEAM_HOUT
  | SEAM_FSTAT
  | SEAM_FBUD
  | SEAM_FMAX
  | SEAM_FSTEP
  | TWU_STAT
  | TWU_FARCNT
  | TWU_FARCAL
  | TWU_FARGO
  | TWU_EVSEL
  | TWU_EVARR
  | TWU_EVATTR
  | TWU_GCTL
  | TWU_GCH
  | TWU_GTHR
  | TWU_GDLY
  | TWU_GVLO
  | TWU_GVHI
  | TWU_GLLO
  | TWU_GLHI
  | TWU_GWIN
  | TWU_GRFR
  | TWU_GHOLD
  | TWU_GSTAT
  | TWU_GSE
  | TWU_GDE
  | TWU_GARR
  | ASY_STAT
  | ASY_SQSEL
  | ASY_SQW0
  | ASY_SQW1
  | ASY_SQW2
  | ASY_SQW3
  | ASY_SQRD
  | ASY_SQCTL
  | ASY_SQSTAT
  | ASY_RCMP
  | ASY_RTHR
  | ASY_RHYS
  | ASY_RCNT
  | ASY_ACTL
  | ASY_ALENLO
  | ASY_ALENHI
  | ASY_APOSTLO
  | ASY_APOSTHI
  | ASY_ASEL
  | ASY_AFIRST
  | ASY_ASEGS
  | ASY_ABASE
  | ASY_ASIZE
  | ASY_ARIDX
  | ASY_ASTAT
  | ASY_ACNT
  | ASY_MKCTL
  | ASY_MKPLO
  | ASY_MKPHI
  | ASY_MKSTAT
  | ASY_ENVSEL
  | ASY_ENVLO
  | ASY_ENVHI
  | ASY_TBASE
  | ASY_TSIZE
  | ASY_TCNT
  | ASY_TWR
  | ASY_TCTL
  | ASY_TSRC
  | ASY_TIVAL
  | TLY_STAT
  | TLY_LOST
  | TLY_NEAR
  | TLY_FAR
  | TLY_OPSEC
  | TLY_PCYC
  | TLY_BACKLOG
  | TLY_CHCTL
  | TLY_NREG
  | TLY_FBASE
  | TLY_FSIZE
  | TLY_CHSEL
  | TLY_CHTRG
  | TLY_FRZ
  | TLY_CHSTAT
  | TLY_GEN
  | TLY_WSEQ
  | TLY_OSEQ
  | TLY_SNLO
  | TLY_SNHI
  | FIO_STAT
  | FIO_GATE
  | FIO_INTG
  | FIO_CLRSEL
  | FIO_CLRMASK
  | FIO_CNY
  | FIO_SCHED
  | FIO_PCFG
  | FIO_BSTAT
  | FIO_LEVEL
  | FIO_DRV
  | FIO_CNT
  | FIO_CAUSE
  | DMA_STAT
  | DMA_LINK
  | DMA_B2AP
  | DMA_MVCTL
  | DMA_MVBA0
  | DMA_MVBA1
  | DMA_MVBA2
  | DMA_MVBA3
  | DMA_MVPOSLO
  | DMA_MVPOSHI
  | DMA_MVTAIL
  | DMA_MVSTAT
  | DMA_MVCNT
  | DMA_BQTAIL
  | DMA_MVPOS
  | DMA_BQBASE
  | DMA_VHOLD
  | DMA_MXAL
  | DMA_MXAH
  | DMA_MXDAT
  | DMA_MXCTL
  | DMA_PBA
  | SKIP_EXH
  | SKIP_OFFLINE
  | SKIP_STAT
  | SKIP_HWM
  | SKIP_CAP
  | SKIP_STALL
  | SKIP_DROP
  | TRB_STICKY0
  | TRB_STICKY1
  | TRB_STICKY2
  | TRB_STICKY3
  | TRB_LOCK_CNT
  | TRB_MEMCNT
  | TRB_MEMLAST
  | TRB_MEMINFO
  | TRB_SCRUB
  | TRB_NANDWEAR
  | TRB_FAREA
  | TLK_CTL
  | TLK_STAT
  | TLK_HOP
  | TLK_CUM
  | TLK_OFS
  | TLK_CNT
  | BLK_TEAR
  | BLK_ID
  deriving DecidableEq, Repr

/-- The class of a register (R31). -/
inductive RegClass where
  | control | data | status | pair
  deriving DecidableEq, Repr

/-- How a field answers accesses: read-only, read-write under its class, a write strobe that reads 0, a read-clear
counter or captured value (`rcv`), and a read-clear flag or single-bit field (`rcf`), which R50 clears bit by bit. -/
inductive Acc where
  | ro | rw | ws | rcv | rcf
  deriving DecidableEq, Repr

/-- Which requesters besides Headframe may write a register (R426, R427): nobody, every requester after the release,
the host's mover window, Gallery, the mailbox of each requester, the launch tails that Headframe grants. -/
inductive Win where
  | nobody | everyone | hostDma | gallery | mailbox | lqtail
  deriving DecidableEq, Repr

/-- Which Sage region holds a register's configuration (R443): none, core, by channel, by pin, by port. -/
inductive Region where
  | none | core | channel | pin | port
  deriving DecidableEq, Repr

/-- A field: a register, its lowest bit, its width and its value on entry to BOOT (R7). -/
structure Fld where
  reg : Reg
  lo : Nat
  len : Nat
  rst : Nat
  deriving DecidableEq, Repr

/-- A field's row: its place, access, lock code and the least and greatest value R35 lets a write store. -/
structure FldDesc where
  fld : Fld
  acc : Acc
  lk : Bool
  min : Nat
  max : Nat
  deriving DecidableEq, Repr

/-- A register's row.  Index i stands at `addr + s1 * (i / n2) + s2 * (i % n2)`; there are `n1 * n2` indices.
`tear` and `tearStep` give a pair's TEAR bit index (R43); `commit` names the composite's commit register (R34). -/
structure RegDesc where
  addr : Nat
  cls : RegClass
  n1 : Nat
  s1 : Nat
  n2 : Nat
  s2 : Nat
  commit : Option Reg
  perReq : Bool
  win : Win
  region : Region
  tear : Nat
  tearStep : Nat
  flds : List FldDesc
  deriving DecidableEq, Repr

-- The fields, named REGISTER_FIELD as the spec's REGISTER.FIELD.
namespace F
abbrev SYS_MODE_MODE : Fld := ⟨.SYS_MODE, 0, 4, 1⟩
abbrev SYS_MODE_PREV : Fld := ⟨.SYS_MODE, 4, 4, 0⟩
abbrev SYS_MODE_CAUSE : Fld := ⟨.SYS_MODE, 8, 16, 1⟩
abbrev SYS_MODECNT_CHANGES : Fld := ⟨.SYS_MODECNT, 0, 16, 0⟩
abbrev SYS_MODECNT_DEGR : Fld := ⟨.SYS_MODECNT, 16, 16, 0⟩
abbrev SYS_STEPPING_LETTER : Fld := ⟨.SYS_STEPPING, 0, 8, 66⟩
abbrev SYS_STEPPING_DIGIT : Fld := ⟨.SYS_STEPPING, 8, 8, 49⟩
abbrev SYS_START_THYME_LOST : Fld := ⟨.SYS_START, 0, 1, 0⟩
abbrev SYS_START_SNAP : Fld := ⟨.SYS_START, 1, 2, 0⟩
abbrev SYS_START_ORIGIN : Fld := ⟨.SYS_START, 3, 2, 0⟩
abbrev SYS_START_STARTMODE : Fld := ⟨.SYS_START, 5, 1, 0⟩
abbrev SYS_START_LOAD_HELD : Fld := ⟨.SYS_START, 6, 1, 0⟩
abbrev SYS_DEGR_SKIP_PROT : Fld := ⟨.SYS_DEGR, 0, 1, 0⟩
abbrev SYS_DEGR_OVERRUN : Fld := ⟨.SYS_DEGR, 1, 1, 0⟩
abbrev SYS_DEGR_DUPLEX : Fld := ⟨.SYS_DEGR, 2, 1, 0⟩
abbrev SYS_DEGR_SAGE : Fld := ⟨.SYS_DEGR, 3, 1, 0⟩
abbrev SYS_DEGR_HALF_N : Fld := ⟨.SYS_DEGR, 4, 1, 0⟩
abbrev SYS_DEGR_HALF_S : Fld := ⟨.SYS_DEGR, 5, 1, 0⟩
abbrev SYS_DEGR_RESUME_OK : Fld := ⟨.SYS_DEGR, 6, 1, 0⟩
abbrev SYS_TREL_TSC : Fld := ⟨.SYS_TREL, 0, 64, 0⟩
abbrev SYS_OUTAGE_MS : Fld := ⟨.SYS_OUTAGE, 0, 64, 0⟩
abbrev SYS_PWR_SUPPLY_OK : Fld := ⟨.SYS_PWR, 0, 1, 1⟩
abbrev SYS_PWR_RIDE : Fld := ⟨.SYS_PWR, 1, 1, 0⟩
abbrev SYS_PWR_HOLD_READY : Fld := ⟨.SYS_PWR, 2, 1, 0⟩
abbrev SYS_PWR_KA_FULL : Fld := ⟨.SYS_PWR, 3, 1, 0⟩
abbrev SYS_PWR_OVERVOLT : Fld := ⟨.SYS_PWR, 4, 1, 0⟩
abbrev SYS_PWR_PF_S : Fld := ⟨.SYS_PWR, 5, 1, 0⟩
abbrev SYS_PWR_HOLDUP_LOW : Fld := ⟨.SYS_PWR, 6, 1, 0⟩
abbrev SYS_PWR_KA_LOW : Fld := ⟨.SYS_PWR, 7, 1, 0⟩
abbrev SYS_HOLDUP_CAP : Fld := ⟨.SYS_HOLDUP, 0, 16, 0⟩
abbrev SYS_HOLDUP_ENERGY : Fld := ⟨.SYS_HOLDUP, 16, 16, 0⟩
abbrev SYS_HALF_N_OFF : Fld := ⟨.SYS_HALF, 0, 1, 0⟩
abbrev SYS_HALF_S_OFF : Fld := ⟨.SYS_HALF, 1, 1, 0⟩
abbrev SYS_HALF_N_TRIES : Fld := ⟨.SYS_HALF, 2, 2, 0⟩
abbrev SYS_HALF_S_TRIES : Fld := ⟨.SYS_HALF, 4, 2, 0⟩
abbrev SYS_HALF_N_GIVEUP : Fld := ⟨.SYS_HALF, 6, 1, 0⟩
abbrev SYS_HALF_S_GIVEUP : Fld := ⟨.SYS_HALF, 7, 1, 0⟩
abbrev SYS_HALF_LOSSES : Fld := ⟨.SYS_HALF, 16, 8, 0⟩
abbrev SYS_THYME_COUNT : Fld := ⟨.SYS_THYME, 0, 48, 0⟩
abbrev SYS_THYME_VALID : Fld := ⟨.SYS_THYME, 48, 1, 0⟩
abbrev SYS_MBXGO_GO : Fld := ⟨.SYS_MBXGO, 0, 1, 0⟩
abbrev SYS_MBX_WORD : Fld := ⟨.SYS_MBX, 0, 32, 0⟩
abbrev HFR_GATE_OPEN : Fld := ⟨.HFR_GATE, 0, 1, 0⟩
abbrev HFR_GATE_TESTOUT : Fld := ⟨.HFR_GATE, 1, 1, 0⟩
abbrev HFR_LOCK_STRUCT : Fld := ⟨.HFR_LOCK, 0, 1, 0⟩
abbrev HFR_LOCK_TIME : Fld := ⟨.HFR_LOCK, 1, 1, 0⟩
abbrev HFR_IMG_ACTIVE : Fld := ⟨.HFR_IMG, 0, 1, 0⟩
abbrev HFR_IMG_PREF : Fld := ⟨.HFR_IMG, 1, 1, 0⟩
abbrev HFR_IMG_NONE : Fld := ⟨.HFR_IMG, 2, 1, 0⟩
abbrev HFR_IMG_FAIL_A : Fld := ⟨.HFR_IMG, 8, 3, 0⟩
abbrev HFR_IMG_FAIL_B : Fld := ⟨.HFR_IMG, 11, 3, 0⟩
abbrev HFR_IMG_KEY : Fld := ⟨.HFR_IMG, 14, 2, 0⟩
abbrev HFR_KEYS_PROG : Fld := ⟨.HFR_KEYS, 0, 4, 0⟩
abbrev HFR_KEYS_REVOKED : Fld := ⟨.HFR_KEYS, 4, 4, 0⟩
abbrev HFR_KEYS_VALID : Fld := ⟨.HFR_KEYS, 8, 4, 0⟩
abbrev HFR_KEYS_ROWS : Fld := ⟨.HFR_KEYS, 12, 8, 0⟩
abbrev HFR_RB_COUNTER : Fld := ⟨.HFR_RB, 0, 64, 0⟩
abbrev HFR_NONCE_NONCE : Fld := ⟨.HFR_NONCE, 0, 64, 0⟩
abbrev HFR_UID_UID : Fld := ⟨.HFR_UID, 0, 64, 0⟩
abbrev HFR_RSTAT_STATE : Fld := ⟨.HFR_RSTAT, 0, 3, 0⟩
abbrev HFR_RSTAT_RESULT : Fld := ⟨.HFR_RSTAT, 3, 4, 0⟩
abbrev HFR_RSTAT_INDEX : Fld := ⟨.HFR_RSTAT, 8, 8, 0⟩
abbrev HFR_RSTAT_BUSY_REJ : Fld := ⟨.HFR_RSTAT, 16, 1, 0⟩
abbrev HFR_RTAG_TAG : Fld := ⟨.HFR_RTAG, 0, 32, 0⟩
abbrev HFR_TAMPER_CLOSED : Fld := ⟨.HFR_TAMPER, 0, 1, 0⟩
abbrev HFR_TAMPER_OPEN_S : Fld := ⟨.HFR_TAMPER, 1, 1, 0⟩
abbrev HFR_TAMPER_UNPWR : Fld := ⟨.HFR_TAMPER, 16, 16, 0⟩
abbrev HFR_FAIL_LOGLOSS : Fld := ⟨.HFR_FAIL, 0, 1, 0⟩
abbrev HFR_FAIL_ENTRIES : Fld := ⟨.HFR_FAIL, 8, 7, 0⟩
abbrev SAGE_STAT_RUN : Fld := ⟨.SAGE_STAT, 0, 1, 0⟩
abbrev SAGE_STAT_MIS_C : Fld := ⟨.SAGE_STAT, 1, 1, 0⟩
abbrev SAGE_STAT_MIS_N : Fld := ⟨.SAGE_STAT, 2, 1, 0⟩
abbrev SAGE_STAT_MIS_S : Fld := ⟨.SAGE_STAT, 3, 1, 0⟩
abbrev SAGE_STAT_SKIP_N : Fld := ⟨.SAGE_STAT, 4, 1, 0⟩
abbrev SAGE_STAT_SKIP_S : Fld := ⟨.SAGE_STAT, 5, 1, 0⟩
abbrev SAGE_STAT_POLICY : Fld := ⟨.SAGE_STAT, 6, 1, 0⟩
abbrev SAGE_STAT_PASSES : Fld := ⟨.SAGE_STAT, 16, 16, 0⟩
abbrev SAGE_REFC_REF : Fld := ⟨.SAGE_REFC, 0, 32, 0⟩
abbrev SAGE_REFN_REF : Fld := ⟨.SAGE_REFN, 0, 32, 0⟩
abbrev SAGE_REFS_REF : Fld := ⟨.SAGE_REFS, 0, 32, 0⟩
abbrev SAGE_LASTC_CRC : Fld := ⟨.SAGE_LASTC, 0, 32, 0⟩
abbrev SAGE_LASTN_CRC : Fld := ⟨.SAGE_LASTN, 0, 32, 0⟩
abbrev SAGE_LASTS_CRC : Fld := ⟨.SAGE_LASTS, 0, 32, 0⟩
abbrev CLK_TSC_TSC : Fld := ⟨.CLK_TSC, 0, 64, 0⟩
abbrev CLK_CAL_CAL : Fld := ⟨.CLK_CAL, 0, 64, 0⟩
abbrev CLK_CAL_RATE_RATE : Fld := ⟨.CLK_CAL_RATE, 0, 32, 0⟩
abbrev CLK_UTC_UTC_OFS : Fld := ⟨.CLK_UTC, 0, 16, 0⟩
abbrev CLK_UTC_UTC_VALID : Fld := ⟨.CLK_UTC, 16, 1, 0⟩
abbrev CLK_UTC_LI_61 : Fld := ⟨.CLK_UTC, 17, 1, 0⟩
abbrev CLK_UTC_LI_59 : Fld := ⟨.CLK_UTC, 18, 1, 0⟩
abbrev CLK_CAL_STAT_STATE : Fld := ⟨.CLK_CAL_STAT, 0, 3, 0⟩
abbrev CLK_CAL_STAT_STEPPED : Fld := ⟨.CLK_CAL_STAT, 3, 1, 0⟩
abbrev CLK_CAL_STAT_RESTEPS : Fld := ⟨.CLK_CAL_STAT, 8, 8, 0⟩
abbrev CLK_TCXO_DIFF : Fld := ⟨.CLK_TCXO, 0, 16, 0⟩
abbrev CLK_TCXO_ACTIVE : Fld := ⟨.CLK_TCXO, 16, 1, 0⟩
abbrev CLK_TCXO_MISMATCH : Fld := ⟨.CLK_TCXO, 17, 1, 0⟩
abbrev CLK_TCXO_A_LOST : Fld := ⟨.CLK_TCXO, 18, 1, 0⟩
abbrev CLK_TCXO_B_LOST : Fld := ⟨.CLK_TCXO, 19, 1, 0⟩
abbrev CLK_TCXO_BACKUP : Fld := ⟨.CLK_TCXO, 20, 1, 0⟩
abbrev CLK_SNAP_CTL_SNAP : Fld := ⟨.CLK_SNAP_CTL, 0, 1, 0⟩
abbrev CLK_SNAP_SEQ_SEQ : Fld := ⟨.CLK_SNAP_SEQ, 0, 16, 0⟩
abbrev CLK_SNAP_SEQ_SRC : Fld := ⟨.CLK_SNAP_SEQ, 16, 12, 0⟩
abbrev CLK_SNAP_TSC_TSC : Fld := ⟨.CLK_SNAP_TSC, 0, 64, 0⟩
abbrev CLK_SNAP_CAL_CAL : Fld := ⟨.CLK_SNAP_CAL, 0, 64, 0⟩
abbrev CLK_SNAP_ANG_ANG : Fld := ⟨.CLK_SNAP_ANG, 0, 48, 0⟩
abbrev CLK_SNAP_ANG_STATE : Fld := ⟨.CLK_SNAP_ANG, 48, 3, 0⟩
abbrev CLK_SNAP_ANG_ALIGNED : Fld := ⟨.CLK_SNAP_ANG, 51, 1, 0⟩
abbrev CLK_CONVA_ANG : Fld := ⟨.CLK_CONVA, 0, 48, 0⟩
abbrev CLK_CONVA_CLOCK : Fld := ⟨.CLK_CONVA, 48, 2, 0⟩
abbrev CLK_CONVT_TSC : Fld := ⟨.CLK_CONVT, 0, 64, 0⟩
abbrev CLK_CONV_STAT_KIND : Fld := ⟨.CLK_CONV_STAT, 0, 2, 0⟩
abbrev ANG_CTL_BIND : Fld := ⟨.ANG_CTL, 0, 1, 0⟩
abbrev ANG_CTL_NOM : Fld := ⟨.ANG_CTL, 1, 2, 0⟩
abbrev ANG_REFA_INDEX : Fld := ⟨.ANG_REFA, 0, 7, 0⟩
abbrev ANG_REFA_SVCH : Fld := ⟨.ANG_REFA, 7, 3, 0⟩
abbrev ANG_REFA_SRC : Fld := ⟨.ANG_REFA, 15, 1, 0⟩
abbrev ANG_REFB_INDEX : Fld := ⟨.ANG_REFB, 0, 7, 0⟩
abbrev ANG_REFB_SVCH : Fld := ⟨.ANG_REFB, 7, 3, 0⟩
abbrev ANG_REFB_SRC : Fld := ⟨.ANG_REFB, 15, 1, 0⟩
abbrev ANG_REFC_INDEX : Fld := ⟨.ANG_REFC, 0, 7, 0⟩
abbrev ANG_REFC_SVCH : Fld := ⟨.ANG_REFC, 7, 3, 0⟩
abbrev ANG_REFC_SRC : Fld := ⟨.ANG_REFC, 15, 1, 0⟩
abbrev ANG_VNOM_LO_VNOM_LO : Fld := ⟨.ANG_VNOM_LO, 0, 16, 0⟩
abbrev ANG_VNOM_HI_VNOM_HI : Fld := ⟨.ANG_VNOM_HI, 0, 8, 0⟩
abbrev ANG_OFS_OFS : Fld := ⟨.ANG_OFS, 0, 16, 0⟩
abbrev ANG_TIME_ANG : Fld := ⟨.ANG_TIME, 0, 48, 0⟩
abbrev ANG_FREQ_FREQ : Fld := ⟨.ANG_FREQ, 0, 32, 3276800⟩
abbrev ANG_ROCOF_ROCOF : Fld := ⟨.ANG_ROCOF, 0, 32, 0⟩
abbrev ANG_PHERR_PHERR : Fld := ⟨.ANG_PHERR, 0, 16, 0⟩
abbrev ANG_STAT_STATE : Fld := ⟨.ANG_STAT, 0, 3, 0⟩
abbrev ANG_STAT_ALIGNED : Fld := ⟨.ANG_STAT, 3, 1, 0⟩
abbrev ANG_STAT_CAUSE : Fld := ⟨.ANG_STAT, 4, 4, 6⟩
abbrev ANG_STAT_LOSS : Fld := ⟨.ANG_STAT, 8, 1, 0⟩
abbrev ANG_STAT_RANGE : Fld := ⟨.ANG_STAT, 9, 1, 0⟩
abbrev ANG_STAT_SLIP : Fld := ⟨.ANG_STAT, 10, 1, 0⟩
abbrev NET_CTL_AB_MODE : Fld := ⟨.NET_CTL, 0, 2, 0⟩
abbrev NET_CTL_CD_MODE : Fld := ⟨.NET_CTL, 2, 1, 0⟩
abbrev NET_CTL_PEN : Fld := ⟨.NET_CTL, 3, 4, 0⟩
abbrev NET_STAT_LINK : Fld := ⟨.NET_STAT, 0, 4, 0⟩
abbrev NET_STAT_LINK_LOST : Fld := ⟨.NET_STAT, 4, 4, 0⟩
abbrev NET_STAT_OFFLINE : Fld := ⟨.NET_STAT, 8, 4, 0⟩
abbrev NET_RLIM_RATE : Fld := ⟨.NET_RLIM, 0, 14, 1000⟩
abbrev NET_PCNT_BE_DROP : Fld := ⟨.NET_PCNT, 0, 16, 0⟩
abbrev NET_PCNT_DUP : Fld := ⟨.NET_PCNT, 16, 8, 0⟩
abbrev NET_PCNT_FCS : Fld := ⟨.NET_PCNT, 24, 8, 0⟩
abbrev PTP_CTL_EN : Fld := ⟨.PTP_CTL, 0, 4, 0⟩
abbrev PTP_CTL_PROFILE : Fld := ⟨.PTP_CTL, 4, 1, 0⟩
abbrev PTP_CTL_DOMAIN : Fld := ⟨.PTP_CTL, 5, 8, 0⟩
abbrev PTP_CTL_VTAG : Fld := ⟨.PTP_CTL, 13, 1, 0⟩
abbrev PTP_STAT_SEL_PORT : Fld := ⟨.PTP_STAT, 0, 2, 0⟩
abbrev PTP_STAT_SLAVE : Fld := ⟨.PTP_STAT, 2, 1, 0⟩
abbrev PTP_STAT_SLEWING : Fld := ⟨.PTP_STAT, 3, 1, 0⟩
abbrev PTP_STAT_FIRSTLOCK : Fld := ⟨.PTP_STAT, 4, 1, 0⟩
abbrev PTP_STAT_MASTER_CHG : Fld := ⟨.PTP_STAT, 5, 1, 0⟩
abbrev PTP_GMID_GMID : Fld := ⟨.PTP_GMID, 0, 64, 0⟩
abbrev PTP_OFS_OFS : Fld := ⟨.PTP_OFS, 0, 64, 0⟩
abbrev PTP_CNT_OUTLIER : Fld := ⟨.PTP_CNT, 0, 16, 0⟩
abbrev PTP_CNT_DISCARD : Fld := ⟨.PTP_CNT, 16, 16, 0⟩
abbrev PTP_GMINFO_CLASS : Fld := ⟨.PTP_GMINFO, 0, 8, 0⟩
abbrev PTP_GMINFO_SOURCE : Fld := ⟨.PTP_GMINFO, 8, 8, 0⟩
abbrev PTP_GMINFO_INACC : Fld := ⟨.PTP_GMINFO, 16, 16, 0⟩
abbrev PTP_VID_VID : Fld := ⟨.PTP_VID, 0, 12, 0⟩
abbrev PTP_PDLY_MLD : Fld := ⟨.PTP_PDLY, 0, 32, 0⟩
abbrev PTP_ASYM_ASYM : Fld := ⟨.PTP_ASYM, 0, 16, 0⟩
abbrev NET_LQSEL_PORT : Fld := ⟨.NET_LQSEL, 0, 2, 0⟩
abbrev NET_LQSEL_QUEUE : Fld := ⟨.NET_LQSEL, 2, 6, 0⟩
abbrev NET_LQBA0_BA : Fld := ⟨.NET_LQBA0, 0, 16, 0⟩
abbrev NET_LQBA1_BA : Fld := ⟨.NET_LQBA1, 0, 16, 0⟩
abbrev NET_LQBA2_BA : Fld := ⟨.NET_LQBA2, 0, 16, 0⟩
abbrev NET_LQCFG_EN : Fld := ⟨.NET_LQCFG, 0, 1, 0⟩
abbrev NET_LQCFG_LATEPOL : Fld := ⟨.NET_LQCFG, 1, 1, 0⟩
abbrev NET_LQCFG_SIZE : Fld := ⟨.NET_LQCFG, 2, 4, 4⟩
abbrev NET_LQTAIL_TAIL : Fld := ⟨.NET_LQTAIL, 0, 12, 0⟩
abbrev NET_LQSTAT_HEAD : Fld := ⟨.NET_LQSTAT, 0, 12, 0⟩
abbrev NET_LQSTAT_LATE : Fld := ⟨.NET_LQSTAT, 16, 8, 0⟩
abbrev NET_LQSTAT_DELAYED : Fld := ⟨.NET_LQSTAT, 24, 8, 0⟩
abbrev SVI_DL_DL : Fld := ⟨.SVI_DL, 0, 10, 200⟩
abbrev SVI_UNMATCH_UNMATCHED : Fld := ⟨.SVI_UNMATCH, 0, 16, 0⟩
abbrev SVI_UNMATCH_MALFORMED : Fld := ⟨.SVI_UNMATCH, 16, 16, 0⟩
abbrev SVI_SVIDSEL_SUB : Fld := ⟨.SVI_SVIDSEL, 0, 7, 0⟩
abbrev SVI_SVIDSEL_PAIR : Fld := ⟨.SVI_SVIDSEL, 7, 5, 0⟩
abbrev SVI_SVIDWR_OCTETS : Fld := ⟨.SVI_SVIDWR, 0, 16, 0⟩
abbrev SVI_SVIDRD_OCTETS : Fld := ⟨.SVI_SVIDRD, 0, 16, 0⟩
abbrev SVI_INVAL_INVAL : Fld := ⟨.SVI_INVAL, 0, 32, 0⟩
abbrev SVI_LIVE_LIVE : Fld := ⟨.SVI_LIVE, 0, 32, 0⟩
abbrev SVI_SUBCTL_EN : Fld := ⟨.SVI_SUBCTL, 0, 1, 0⟩
abbrev SVI_SUBCTL_PORT : Fld := ⟨.SVI_SUBCTL, 1, 2, 0⟩
abbrev SVI_SUBCTL_RATE : Fld := ⟨.SVI_SUBCTL, 3, 2, 0⟩
abbrev SVI_SUBCTL_ANG_EN : Fld := ⟨.SVI_SUBCTL, 5, 1, 0⟩
abbrev SVI_SUBCTL_CLK : Fld := ⟨.SVI_SUBCTL, 6, 2, 0⟩
abbrev SVI_SUBCTL_N : Fld := ⟨.SVI_SUBCTL, 8, 2, 2⟩
abbrev SVI_SUBCTL_NAT_EN : Fld := ⟨.SVI_SUBCTL, 10, 1, 0⟩
abbrev SVI_SUBCTL_SIM : Fld := ⟨.SVI_SUBCTL, 11, 1, 0⟩
abbrev SVI_SUBCTL_SYNC_MIN : Fld := ⟨.SVI_SUBCTL, 12, 1, 0⟩
abbrev SVI_SUBCTL_QUEST_INV : Fld := ⟨.SVI_SUBCTL, 13, 1, 0⟩
abbrev SVI_SUBCTL_GMCHK : Fld := ⟨.SVI_SUBCTL, 14, 1, 0⟩
abbrev SVI_SUBMAC0_MAC : Fld := ⟨.SVI_SUBMAC0, 0, 16, 0⟩
abbrev SVI_SUBMAC1_MAC : Fld := ⟨.SVI_SUBMAC1, 0, 16, 0⟩
abbrev SVI_SUBMAC2_MAC : Fld := ⟨.SVI_SUBMAC2, 0, 16, 0⟩
abbrev SVI_SUBAPP_APPID : Fld := ⟨.SVI_SUBAPP, 0, 16, 0⟩
abbrev SVI_SUBREVLO_REV : Fld := ⟨.SVI_SUBREVLO, 0, 16, 0⟩
abbrev SVI_SUBREVHI_REV : Fld := ⟨.SVI_SUBREVHI, 0, 16, 0⟩
abbrev SVI_SUBMAP_PITS : Fld := ⟨.SVI_SUBMAP, 0, 4, 0⟩
abbrev SVI_SUBMAP_NCH : Fld := ⟨.SVI_SUBMAP, 4, 4, 0⟩
abbrev SVI_SUBMAP_FIRST : Fld := ⟨.SVI_SUBMAP, 8, 5, 0⟩
abbrev SVI_SUBSCL_SHIFTA : Fld := ⟨.SVI_SUBSCL, 0, 4, 0⟩
abbrev SVI_SUBSCL_SHIFTB : Fld := ⟨.SVI_SUBSCL, 4, 4, 0⟩
abbrev SVI_SUBSCL_SVID_LEN : Fld := ⟨.SVI_SUBSCL, 8, 7, 0⟩
abbrev SVI_SUBSTAT_STATE : Fld := ⟨.SVI_SUBSTAT, 0, 3, 0⟩
abbrev SVI_SUBSTAT_REASON : Fld := ⟨.SVI_SUBSTAT, 3, 4, 0⟩
abbrev SVI_SUBSTAT_PORTA_SEEN : Fld := ⟨.SVI_SUBSTAT, 7, 1, 0⟩
abbrev SVI_SUBSTAT_PORTB_SEEN : Fld := ⟨.SVI_SUBSTAT, 8, 1, 0⟩
abbrev SVI_SUBSTAT_SMPSYNCH : Fld := ⟨.SVI_SUBSTAT, 16, 8, 0⟩
abbrev SVI_SUBCNT_SUBST : Fld := ⟨.SVI_SUBCNT, 0, 16, 0⟩
abbrev SVI_SUBCNT_LATE : Fld := ⟨.SVI_SUBCNT, 16, 8, 0⟩
abbrev AFE_REF_REFSEL : Fld := ⟨.AFE_REF, 0, 1, 0⟩
abbrev AFE_PAIR_PAIR : Fld := ⟨.AFE_PAIR, 0, 8, 0⟩
abbrev AFE_BGC_EN : Fld := ⟨.AFE_BGC, 0, 16, 65535⟩
abbrev AFE_STAT_REF_OK : Fld := ⟨.AFE_STAT, 0, 1, 0⟩
abbrev AFE_STAT_REF_SRC : Fld := ⟨.AFE_STAT, 1, 1, 0⟩
abbrev AFE_STAT_REF_FALLBACK : Fld := ⟨.AFE_STAT, 2, 1, 0⟩
abbrev AFE_STAT_CAL_DONE : Fld := ⟨.AFE_STAT, 3, 1, 0⟩
abbrev AFE_STAT_CAL_BUSY : Fld := ⟨.AFE_STAT, 4, 1, 0⟩
abbrev AFE_STAT_CAL_FAIL : Fld := ⟨.AFE_STAT, 16, 16, 0⟩
abbrev AFE_CLIP_CLIP : Fld := ⟨.AFE_CLIP, 0, 16, 0⟩
abbrev AFE_BGC_STAT_CONV : Fld := ⟨.AFE_BGC_STAT, 0, 16, 0⟩
abbrev AFE_BGC_STAT_HOLD : Fld := ⟨.AFE_BGC_STAT, 16, 16, 0⟩
abbrev AFE_REFIN_RATIO : Fld := ⟨.AFE_REFIN, 0, 16, 0⟩
abbrev AFE_GAIN_GAIN : Fld := ⟨.AFE_GAIN, 0, 2, 0⟩
abbrev AFE_CHSTAT_GAIN_ACT : Fld := ⟨.AFE_CHSTAT, 0, 2, 0⟩
abbrev AFE_CHSTAT_DARK : Fld := ⟨.AFE_CHSTAT, 2, 1, 0⟩
abbrev AFE_CHSTAT_RATE40 : Fld := ⟨.AFE_CHSTAT, 3, 1, 0⟩
abbrev AFE_CHSTAT_CAL_FB : Fld := ⟨.AFE_CHSTAT, 4, 1, 0⟩
abbrev AFE_SKEW01_SKEW_S0 : Fld := ⟨.AFE_SKEW01, 0, 16, 0⟩
abbrev AFE_SKEW01_SKEW_S1 : Fld := ⟨.AFE_SKEW01, 16, 16, 0⟩
abbrev AFE_SKEW23_SKEW_S2 : Fld := ⟨.AFE_SKEW23, 0, 16, 0⟩
abbrev AFE_SKEW23_SKEW_S3 : Fld := ⟨.AFE_SKEW23, 16, 16, 0⟩
abbrev AFE_OFSA_OFS_G1 : Fld := ⟨.AFE_OFSA, 0, 16, 0⟩
abbrev AFE_OFSA_OFS_G4 : Fld := ⟨.AFE_OFSA, 16, 16, 0⟩
abbrev AFE_OFSB_OFS_G16 : Fld := ⟨.AFE_OFSB, 0, 16, 0⟩
abbrev AFE_OFSB_OFS_G64 : Fld := ⟨.AFE_OFSB, 16, 16, 0⟩
abbrev AFE_GNA_GN_G1 : Fld := ⟨.AFE_GNA, 0, 16, 0⟩
abbrev AFE_GNA_GN_G4 : Fld := ⟨.AFE_GNA, 16, 16, 0⟩
abbrev AFE_GNB_GN_G16 : Fld := ⟨.AFE_GNB, 0, 16, 0⟩
abbrev AFE_GNB_GN_G64 : Fld := ⟨.AFE_GNB, 16, 16, 0⟩
abbrev AUX_CTL_RUN : Fld := ⟨.AUX_CTL, 0, 1, 1⟩
abbrev AUX_CTL_REFSEL : Fld := ⟨.AUX_CTL, 1, 2, 0⟩
abbrev AUX_CTL_LEN : Fld := ⟨.AUX_CTL, 3, 5, 24⟩
abbrev AUX_GAP_GAP : Fld := ⟨.AUX_GAP, 0, 16, 0⟩
abbrev AUX_STAT_REF_OK : Fld := ⟨.AUX_STAT, 0, 1, 0⟩
abbrev AUX_STAT_RUNNING : Fld := ⟨.AUX_STAT, 1, 1, 0⟩
abbrev AUX_STAT_IN_GAP : Fld := ⟨.AUX_STAT, 2, 1, 0⟩
abbrev AUX_STAT_URG_BUSY : Fld := ⟨.AUX_STAT, 3, 1, 0⟩
abbrev AUX_STAT_PASS : Fld := ⟨.AUX_STAT, 16, 16, 0⟩
abbrev AUX_URG_INPUT : Fld := ⟨.AUX_URG, 0, 5, 0⟩
abbrev AUX_URG_AVG : Fld := ⟨.AUX_URG, 5, 3, 0⟩
abbrev AUX_URG_SHIFT : Fld := ⟨.AUX_URG, 8, 4, 0⟩
abbrev AUX_URG_GO : Fld := ⟨.AUX_URG, 12, 1, 0⟩
abbrev AUX_URG_RES_VALUE : Fld := ⟨.AUX_URG_RES, 0, 24, 0⟩
abbrev AUX_URG_RES_VALID : Fld := ⟨.AUX_URG_RES, 24, 1, 0⟩
abbrev AUX_URG_RES_DONE : Fld := ⟨.AUX_URG_RES, 25, 1, 0⟩
abbrev AUX_URG_DROP_DROP : Fld := ⟨.AUX_URG_DROP, 0, 16, 0⟩
abbrev AUX_SLOT_INPUT : Fld := ⟨.AUX_SLOT, 0, 5, 0⟩
abbrev AUX_SLOT_AVG : Fld := ⟨.AUX_SLOT, 5, 3, 0⟩
abbrev AUX_SLOT_SHIFT : Fld := ⟨.AUX_SLOT, 8, 4, 1⟩
abbrev AUX_RES_VALUE : Fld := ⟨.AUX_RES, 0, 24, 0⟩
abbrev AUX_RES_VALID : Fld := ⟨.AUX_RES, 24, 1, 0⟩
abbrev AUX_RES_PASS : Fld := ⟨.AUX_RES, 25, 7, 0⟩
abbrev FLT_CTL_FR_RATE : Fld := ⟨.FLT_CTL, 0, 2, 0⟩
abbrev FLT_RESET_RESET : Fld := ⟨.FLT_RESET, 0, 16, 0⟩
abbrev FLT_STAT_SWAP_OVERRUN : Fld := ⟨.FLT_STAT, 0, 16, 0⟩
abbrev FLT_STAT_REJECT : Fld := ⟨.FLT_STAT, 16, 16, 0⟩
abbrev FLT_FRSTAT_RESYNC : Fld := ⟨.FLT_FRSTAT, 0, 1, 0⟩
abbrev FLT_CWSEL_TAP : Fld := ⟨.FLT_CWSEL, 0, 7, 0⟩
abbrev FLT_CWSEL_BANK : Fld := ⟨.FLT_CWSEL, 7, 1, 0⟩
abbrev FLT_CWSEL_CH : Fld := ⟨.FLT_CWSEL, 8, 4, 0⟩
abbrev FLT_CWLO_COEF_LO : Fld := ⟨.FLT_CWLO, 0, 16, 0⟩
abbrev FLT_CWHI_COEF_HI : Fld := ⟨.FLT_CWHI, 0, 8, 0⟩
abbrev FLT_CRD_COEF : Fld := ⟨.FLT_CRD, 0, 24, 0⟩
abbrev FLT_PITS0_ANGSET : Fld := ⟨.FLT_PITS0, 0, 32, 0⟩
abbrev FLT_PITS1_FRSET0 : Fld := ⟨.FLT_PITS1, 0, 4, 0⟩
abbrev FLT_PITS1_FRSET1 : Fld := ⟨.FLT_PITS1, 4, 4, 0⟩
abbrev FLT_CHCTL_RUN : Fld := ⟨.FLT_CHCTL, 0, 1, 0⟩
abbrev FLT_CHCTL_ANG_EN : Fld := ⟨.FLT_CHCTL, 1, 1, 0⟩
abbrev FLT_CHCTL_CLK : Fld := ⟨.FLT_CHCTL, 2, 2, 0⟩
abbrev FLT_CHCTL_N : Fld := ⟨.FLT_CHCTL, 4, 2, 2⟩
abbrev FLT_CHCTL_FR_EN : Fld := ⟨.FLT_CHCTL, 6, 1, 0⟩
abbrev FLT_CHCTL_POL : Fld := ⟨.FLT_CHCTL, 7, 1, 0⟩
abbrev FLT_CHCTL_TEST : Fld := ⟨.FLT_CHCTL, 8, 1, 0⟩
abbrev FLT_CHCTL_DCB_FRZ : Fld := ⟨.FLT_CHCTL, 9, 1, 0⟩
abbrev FLT_DCB_FC : Fld := ⟨.FLT_DCB, 0, 9, 10⟩
abbrev FLT_SWAP_FADE : Fld := ⟨.FLT_SWAP, 0, 7, 0⟩
abbrev FLT_SWAP_TARGET : Fld := ⟨.FLT_SWAP, 7, 1, 0⟩
abbrev FLT_SWAP_GO : Fld := ⟨.FLT_SWAP, 8, 1, 0⟩
abbrev FLT_CHSTAT_BANK : Fld := ⟨.FLT_CHSTAT, 0, 1, 0⟩
abbrev FLT_CHSTAT_FADING : Fld := ⟨.FLT_CHSTAT, 1, 1, 0⟩
abbrev FLT_CHSTAT_PENDING : Fld := ⟨.FLT_CHSTAT, 2, 1, 0⟩
abbrev FLT_CHSTAT_PEND_TARGET : Fld := ⟨.FLT_CHSTAT, 3, 1, 0⟩
abbrev FLT_CHSTAT_SETTLE : Fld := ⟨.FLT_CHSTAT, 4, 5, 0⟩
abbrev FLT_CHSTAT_FAST : Fld := ⟨.FLT_CHSTAT, 9, 1, 0⟩
abbrev FLT_CHSTAT_CLIP : Fld := ⟨.FLT_CHSTAT, 10, 1, 0⟩
abbrev FLT_CHSTAT_RESETS : Fld := ⟨.FLT_CHSTAT, 16, 8, 0⟩
abbrev FLT_CHSTAT_LAST_CAUSE : Fld := ⟨.FLT_CHSTAT, 24, 3, 0⟩
abbrev FLT_DCEST_DCEST : Fld := ⟨.FLT_DCEST, 0, 32, 0⟩
abbrev FLT_DECIDX_IDX : Fld := ⟨.FLT_DECIDX, 0, 64, 0⟩
abbrev SEAM_STAT_OVR : Fld := ⟨.SEAM_STAT, 0, 1, 0⟩
abbrev SEAM_STAT_HALT : Fld := ⟨.SEAM_STAT, 1, 1, 0⟩
abbrev SEAM_STAT_DUP_MIS : Fld := ⟨.SEAM_STAT, 2, 1, 0⟩
abbrev SEAM_STAT_GRP_OVERRUN : Fld := ⟨.SEAM_STAT, 3, 1, 0⟩
abbrev SEAM_STAT_SCHED_FULL : Fld := ⟨.SEAM_STAT, 4, 1, 0⟩
abbrev SEAM_STAT_GRP_REFUSED : Fld := ⟨.SEAM_STAT, 5, 1, 0⟩
abbrev SEAM_STAT_LATE : Fld := ⟨.SEAM_STAT, 16, 16, 0⟩
abbrev SEAM_GRP_GROUP : Fld := ⟨.SEAM_GRP, 0, 3, 0⟩
abbrev SEAM_GRP_GO : Fld := ⟨.SEAM_GRP, 3, 1, 0⟩
abbrev SEAM_GRP_STAT_ACT : Fld := ⟨.SEAM_GRP_STAT, 0, 3, 0⟩
abbrev SEAM_GRP_STAT_PENDING : Fld := ⟨.SEAM_GRP_STAT, 3, 1, 0⟩
abbrev SEAM_GRP_STAT_PEND_GRP : Fld := ⟨.SEAM_GRP_STAT, 4, 3, 0⟩
abbrev SEAM_GRP_STAT_SWITCHING : Fld := ⟨.SEAM_GRP_STAT, 7, 1, 0⟩
abbrev SEAM_GRP_STAT_DEFINED : Fld := ⟨.SEAM_GRP_STAT, 8, 8, 0⟩
abbrev SEAM_GRP_STAT_DOM_DONE : Fld := ⟨.SEAM_GRP_STAT, 16, 13, 8191⟩
abbrev SEAM_GRP_CNT_CNT : Fld := ⟨.SEAM_GRP_CNT, 0, 16, 0⟩
abbrev SEAM_OVR_OVR_LO : Fld := ⟨.SEAM_OVR, 0, 32, 0⟩
abbrev SEAM_HALT_HALT_LO : Fld := ⟨.SEAM_HALT, 0, 32, 0⟩
abbrev SEAM_DUP_MIS : Fld := ⟨.SEAM_DUP, 0, 16, 0⟩
abbrev SEAM_DUP_SINGLE : Fld := ⟨.SEAM_DUP, 16, 1, 0⟩
abbrev SEAM_DUPLAST_NODE : Fld := ⟨.SEAM_DUPLAST, 0, 20, 0⟩
abbrev SEAM_LOADERR_CODE : Fld := ⟨.SEAM_LOADERR, 0, 4, 0⟩
abbrev SEAM_LOADERR_OFS : Fld := ⟨.SEAM_LOADERR, 4, 28, 0⟩
abbrev SEAM_OVRH_OVR_HI : Fld := ⟨.SEAM_OVRH, 0, 32, 0⟩
abbrev SEAM_HALTH_HALT_HI : Fld := ⟨.SEAM_HALTH, 0, 32, 0⟩
abbrev SEAM_PADDR_ADDR : Fld := ⟨.SEAM_PADDR, 0, 20, 0⟩
abbrev SEAM_PVAL_VALUE : Fld := ⟨.SEAM_PVAL, 0, 64, 0⟩
abbrev SEAM_PMETA_QUAL : Fld := ⟨.SEAM_PMETA, 0, 8, 0⟩
abbrev SEAM_PMETA_TYPE : Fld := ⟨.SEAM_PMETA, 8, 8, 0⟩
abbrev SEAM_PMETA_HELD : Fld := ⟨.SEAM_PMETA, 16, 1, 0⟩
abbrev SEAM_PSTEP_STEP : Fld := ⟨.SEAM_PSTEP, 0, 32, 0⟩
abbrev SEAM_HIN_HIN : Fld := ⟨.SEAM_HIN, 0, 32, 0⟩
abbrev SEAM_HOUT_HOUT : Fld := ⟨.SEAM_HOUT, 0, 32, 0⟩
abbrev SEAM_FSTAT_STATE : Fld := ⟨.SEAM_FSTAT, 0, 2, 0⟩
abbrev SEAM_FSTAT_DOMAIN : Fld := ⟨.SEAM_FSTAT, 2, 4, 15⟩
abbrev SEAM_FSTAT_OVR : Fld := ⟨.SEAM_FSTAT, 6, 1, 0⟩
abbrev SEAM_FSTAT_LAG : Fld := ⟨.SEAM_FSTAT, 8, 8, 0⟩
abbrev SEAM_FSTAT_MISS : Fld := ⟨.SEAM_FSTAT, 16, 8, 0⟩
abbrev SEAM_FBUD_BUDGET : Fld := ⟨.SEAM_FBUD, 0, 18, 0⟩
abbrev SEAM_FMAX_MAXCYC : Fld := ⟨.SEAM_FMAX, 0, 20, 0⟩
abbrev SEAM_FSTEP_STEP : Fld := ⟨.SEAM_FSTEP, 0, 32, 0⟩
abbrev TWU_STAT_EVENT : Fld := ⟨.TWU_STAT, 0, 4, 0⟩
abbrev TWU_STAT_SE_DONE : Fld := ⟨.TWU_STAT, 4, 4, 0⟩
abbrev TWU_STAT_DE_DONE : Fld := ⟨.TWU_STAT, 8, 4, 0⟩
abbrev TWU_FARCNT_UNMATCHED : Fld := ⟨.TWU_FARCNT, 0, 16, 0⟩
abbrev TWU_FARCNT_DUP : Fld := ⟨.TWU_FARCNT, 16, 16, 0⟩
abbrev TWU_FARCAL_CAL : Fld := ⟨.TWU_FARCAL, 0, 64, 0⟩
abbrev TWU_FARGO_FRAC : Fld := ⟨.TWU_FARGO, 0, 5, 0⟩
abbrev TWU_FARGO_GROUP : Fld := ⟨.TWU_FARGO, 5, 2, 0⟩
abbrev TWU_FARGO_POL : Fld := ⟨.TWU_FARGO, 7, 1, 0⟩
abbrev TWU_FARGO_LOCKED : Fld := ⟨.TWU_FARGO, 8, 1, 0⟩
abbrev TWU_FARGO_GO : Fld := ⟨.TWU_FARGO, 9, 1, 0⟩
abbrev TWU_EVSEL_GROUP : Fld := ⟨.TWU_EVSEL, 0, 2, 0⟩
abbrev TWU_EVSEL_INDEX : Fld := ⟨.TWU_EVSEL, 2, 4, 0⟩
abbrev TWU_EVARR_ARR : Fld := ⟨.TWU_EVARR, 0, 64, 0⟩
abbrev TWU_EVATTR_HEIGHT : Fld := ⟨.TWU_EVATTR, 0, 19, 0⟩
abbrev TWU_EVATTR_CLIP : Fld := ⟨.TWU_EVATTR, 19, 1, 0⟩
abbrev TWU_EVATTR_MODE : Fld := ⟨.TWU_EVATTR, 20, 1, 0⟩
abbrev TWU_EVATTR_GROUND : Fld := ⟨.TWU_EVATTR, 21, 1, 0⟩
abbrev TWU_EVATTR_REFL : Fld := ⟨.TWU_EVATTR, 22, 1, 0⟩
abbrev TWU_EVATTR_NARR : Fld := ⟨.TWU_EVATTR, 23, 5, 0⟩
abbrev TWU_GCTL_EN : Fld := ⟨.TWU_GCTL, 0, 1, 0⟩
abbrev TWU_GCTL_SE_EN : Fld := ⟨.TWU_GCTL, 1, 1, 0⟩
abbrev TWU_GCTL_DE_EN : Fld := ⟨.TWU_GCTL, 2, 1, 0⟩
abbrev TWU_GCTL_SE_POL : Fld := ⟨.TWU_GCTL, 3, 1, 0⟩
abbrev TWU_GCTL_PITS : Fld := ⟨.TWU_GCTL, 4, 4, 0⟩
abbrev TWU_GCH_CHA : Fld := ⟨.TWU_GCH, 0, 4, 0⟩
abbrev TWU_GCH_CHB : Fld := ⟨.TWU_GCH, 4, 4, 0⟩
abbrev TWU_GCH_CHC : Fld := ⟨.TWU_GCH, 8, 4, 0⟩
abbrev TWU_GTHR_THR : Fld := ⟨.TWU_GTHR, 0, 16, 0⟩
abbrev TWU_GDLY_D : Fld := ⟨.TWU_GDLY, 0, 4, 0⟩
abbrev TWU_GDLY_BLIND : Fld := ⟨.TWU_GDLY, 4, 8, 0⟩
abbrev TWU_GVLO_VEL_LO : Fld := ⟨.TWU_GVLO, 0, 16, 0⟩
abbrev TWU_GVHI_VEL_HI : Fld := ⟨.TWU_GVHI, 0, 3, 0⟩
abbrev TWU_GLLO_LEN_LO : Fld := ⟨.TWU_GLLO, 0, 16, 0⟩
abbrev TWU_GLHI_LEN_HI : Fld := ⟨.TWU_GLHI, 0, 2, 0⟩
abbrev TWU_GWIN_TWIN : Fld := ⟨.TWU_GWIN, 0, 11, 0⟩
abbrev TWU_GRFR_RFRAC : Fld := ⟨.TWU_GRFR, 0, 8, 0⟩
abbrev TWU_GHOLD_EVHOLD : Fld := ⟨.TWU_GHOLD, 0, 10, 0⟩
abbrev TWU_GSTAT_IN_EVENT : Fld := ⟨.TWU_GSTAT, 0, 1, 0⟩
abbrev TWU_GSTAT_READY : Fld := ⟨.TWU_GSTAT, 1, 1, 0⟩
abbrev TWU_GSTAT_GAP : Fld := ⟨.TWU_GSTAT, 2, 1, 0⟩
abbrev TWU_GSTAT_CLIP : Fld := ⟨.TWU_GSTAT, 3, 1, 0⟩
abbrev TWU_GSTAT_OFFLINE : Fld := ⟨.TWU_GSTAT, 4, 1, 0⟩
abbrev TWU_GSTAT_EVENTS : Fld := ⟨.TWU_GSTAT, 16, 16, 0⟩
abbrev TWU_GSE_DIST : Fld := ⟨.TWU_GSE, 0, 18, 0⟩
abbrev TWU_GSE_STATUS : Fld := ⟨.TWU_GSE, 18, 3, 0⟩
abbrev TWU_GSE_EVSEQ : Fld := ⟨.TWU_GSE, 21, 11, 0⟩
abbrev TWU_GDE_DIST : Fld := ⟨.TWU_GDE, 0, 18, 0⟩
abbrev TWU_GDE_STATUS : Fld := ⟨.TWU_GDE, 18, 3, 0⟩
abbrev TWU_GDE_EVSEQ : Fld := ⟨.TWU_GDE, 21, 11, 0⟩
abbrev TWU_GARR_ARR : Fld := ⟨.TWU_GARR, 0, 64, 0⟩
abbrev ASY_STAT_SEG_DONE : Fld := ⟨.ASY_STAT, 0, 8, 0⟩
abbrev ASY_STAT_STOPPED : Fld := ⟨.ASY_STAT, 8, 8, 0⟩
abbrev ASY_STAT_LOST : Fld := ⟨.ASY_STAT, 16, 8, 0⟩
abbrev ASY_STAT_VIOL : Fld := ⟨.ASY_STAT, 24, 8, 0⟩
abbrev ASY_SQSEL_SEQ : Fld := ⟨.ASY_SQSEL, 0, 3, 0⟩
abbrev ASY_SQSEL_STATE : Fld := ⟨.ASY_SQSEL, 3, 4, 0⟩
abbrev ASY_SQSEL_ITEM : Fld := ⟨.ASY_SQSEL, 7, 4, 0⟩
abbrev ASY_SQW0_W : Fld := ⟨.ASY_SQW0, 0, 16, 0⟩
abbrev ASY_SQW1_W : Fld := ⟨.ASY_SQW1, 0, 16, 0⟩
abbrev ASY_SQW2_W : Fld := ⟨.ASY_SQW2, 0, 16, 0⟩
abbrev ASY_SQW3_W : Fld := ⟨.ASY_SQW3, 0, 16, 0⟩
abbrev ASY_SQRD_ITEM : Fld := ⟨.ASY_SQRD, 0, 64, 0⟩
abbrev ASY_SQCTL_RUN : Fld := ⟨.ASY_SQCTL, 0, 1, 0⟩
abbrev ASY_SQCTL_RESTART : Fld := ⟨.ASY_SQCTL, 1, 1, 0⟩
abbrev ASY_SQSTAT_STATE : Fld := ⟨.ASY_SQSTAT, 0, 4, 0⟩
abbrev ASY_SQSTAT_RUNNING : Fld := ⟨.ASY_SQSTAT, 4, 1, 0⟩
abbrev ASY_SQSTAT_TRANS : Fld := ⟨.ASY_SQSTAT, 8, 8, 0⟩
abbrev ASY_SQSTAT_TRIGS : Fld := ⟨.ASY_SQSTAT, 16, 16, 0⟩
abbrev ASY_RCMP_EN : Fld := ⟨.ASY_RCMP, 0, 1, 0⟩
abbrev ASY_RCMP_CH : Fld := ⟨.ASY_RCMP, 1, 4, 0⟩
abbrev ASY_RCMP_EDGE : Fld := ⟨.ASY_RCMP, 5, 2, 0⟩
abbrev ASY_RTHR_THR : Fld := ⟨.ASY_RTHR, 0, 16, 0⟩
abbrev ASY_RHYS_HYST : Fld := ⟨.ASY_RHYS, 0, 15, 0⟩
abbrev ASY_RCNT_CROSS : Fld := ⟨.ASY_RCNT, 0, 16, 0⟩
abbrev ASY_RCNT_EXTRA : Fld := ⟨.ASY_RCNT, 16, 16, 0⟩
abbrev ASY_ACTL_RUN : Fld := ⟨.ASY_ACTL, 0, 1, 0⟩
abbrev ASY_ACTL_KIND : Fld := ⟨.ASY_ACTL, 1, 1, 0⟩
abbrev ASY_ACTL_FULL : Fld := ⟨.ASY_ACTL, 2, 1, 0⟩
abbrev ASY_ACTL_RESTART : Fld := ⟨.ASY_ACTL, 3, 1, 0⟩
abbrev ASY_ALENLO_LEN_LO : Fld := ⟨.ASY_ALENLO, 0, 16, 0⟩
abbrev ASY_ALENHI_LEN_HI : Fld := ⟨.ASY_ALENHI, 0, 10, 0⟩
abbrev ASY_APOSTLO_POST_LO : Fld := ⟨.ASY_APOSTLO, 0, 16, 0⟩
abbrev ASY_APOSTHI_POST_HI : Fld := ⟨.ASY_APOSTHI, 0, 10, 0⟩
abbrev ASY_ASEL_SEL : Fld := ⟨.ASY_ASEL, 0, 16, 0⟩
abbrev ASY_AFIRST_FIRST : Fld := ⟨.ASY_AFIRST, 0, 12, 0⟩
abbrev ASY_ASEGS_SEGS : Fld := ⟨.ASY_ASEGS, 0, 13, 0⟩
abbrev ASY_ABASE_ABASE : Fld := ⟨.ASY_ABASE, 0, 12, 0⟩
abbrev ASY_ASIZE_ASIZE : Fld := ⟨.ASY_ASIZE, 0, 12, 0⟩
abbrev ASY_ARIDX_RIDX : Fld := ⟨.ASY_ARIDX, 0, 13, 0⟩
abbrev ASY_ASTAT_STATE : Fld := ⟨.ASY_ASTAT, 0, 3, 0⟩
abbrev ASY_ASTAT_POSTCLIP : Fld := ⟨.ASY_ASTAT, 3, 1, 0⟩
abbrev ASY_ASTAT_WIDX : Fld := ⟨.ASY_ASTAT, 16, 13, 0⟩
abbrev ASY_ACNT_REFUSED : Fld := ⟨.ASY_ACNT, 0, 16, 0⟩
abbrev ASY_ACNT_LOST : Fld := ⟨.ASY_ACNT, 16, 16, 0⟩
abbrev ASY_MKCTL_EN : Fld := ⟨.ASY_MKCTL, 0, 1, 0⟩
abbrev ASY_MKCTL_STOP : Fld := ⟨.ASY_MKCTL, 1, 1, 0⟩
abbrev ASY_MKCTL_AREA : Fld := ⟨.ASY_MKCTL, 2, 3, 0⟩
abbrev ASY_MKCTL_VCNT : Fld := ⟨.ASY_MKCTL, 5, 4, 1⟩
abbrev ASY_MKPLO_ADDR_LO : Fld := ⟨.ASY_MKPLO, 0, 16, 0⟩
abbrev ASY_MKPHI_ADDR_HI : Fld := ⟨.ASY_MKPHI, 0, 4, 0⟩
abbrev ASY_MKSTAT_VIOL : Fld := ⟨.ASY_MKSTAT, 0, 16, 0⟩
abbrev ASY_MKSTAT_HOLDOFF : Fld := ⟨.ASY_MKSTAT, 16, 1, 0⟩
abbrev ASY_ENVSEL_MASK : Fld := ⟨.ASY_ENVSEL, 0, 3, 0⟩
abbrev ASY_ENVSEL_IDX : Fld := ⟨.ASY_ENVSEL, 3, 8, 0⟩
abbrev ASY_ENVSEL_UL : Fld := ⟨.ASY_ENVSEL, 11, 1, 0⟩
abbrev ASY_ENVLO_LIM_LO : Fld := ⟨.ASY_ENVLO, 0, 16, 0⟩
abbrev ASY_ENVHI_LIM_HI : Fld := ⟨.ASY_ENVHI, 0, 16, 0⟩
abbrev ASY_TBASE_TBASE : Fld := ⟨.ASY_TBASE, 0, 12, 0⟩
abbrev ASY_TSIZE_TSIZE : Fld := ⟨.ASY_TSIZE, 0, 12, 0⟩
abbrev ASY_TCNT_LOST : Fld := ⟨.ASY_TCNT, 0, 16, 0⟩
abbrev ASY_TWR_WRITTEN : Fld := ⟨.ASY_TWR, 0, 64, 0⟩
abbrev ASY_TCTL_EN : Fld := ⟨.ASY_TCTL, 0, 1, 0⟩
abbrev ASY_TCTL_UNIT : Fld := ⟨.ASY_TCTL, 1, 1, 0⟩
abbrev ASY_TSRC_SRC : Fld := ⟨.ASY_TSRC, 0, 12, 0⟩
abbrev ASY_TIVAL_TIVAL : Fld := ⟨.ASY_TIVAL, 0, 15, 0⟩
abbrev TLY_STAT_NEAR_OK : Fld := ⟨.TLY_STAT, 0, 1, 1⟩
abbrev TLY_STAT_FAR_OK : Fld := ⟨.TLY_STAT, 1, 1, 1⟩
abbrev TLY_STAT_LOGLOSS : Fld := ⟨.TLY_STAT, 2, 1, 0⟩
abbrev TLY_STAT_FAR_READY : Fld := ⟨.TLY_STAT, 3, 1, 0⟩
abbrev TLY_STAT_BROKEN : Fld := ⟨.TLY_STAT, 8, 8, 0⟩
abbrev TLY_STAT_FROZEN : Fld := ⟨.TLY_STAT, 16, 8, 0⟩
abbrev TLY_STAT_LATE : Fld := ⟨.TLY_STAT, 24, 1, 0⟩
abbrev TLY_LOST_DISCARD : Fld := ⟨.TLY_LOST, 0, 16, 0⟩
abbrev TLY_LOST_LATE_N : Fld := ⟨.TLY_LOST, 16, 16, 0⟩
abbrev TLY_NEAR_CAUSE : Fld := ⟨.TLY_NEAR, 0, 4, 0⟩
abbrev TLY_FAR_CAUSE : Fld := ⟨.TLY_FAR, 0, 4, 0⟩
abbrev TLY_FAR_SPARE : Fld := ⟨.TLY_FAR, 16, 16, 0⟩
abbrev TLY_OPSEC_OPSEC : Fld := ⟨.TLY_OPSEC, 0, 32, 0⟩
abbrev TLY_PCYC_PCYC : Fld := ⟨.TLY_PCYC, 0, 24, 0⟩
abbrev TLY_BACKLOG_FAR : Fld := ⟨.TLY_BACKLOG, 0, 16, 0⟩
abbrev TLY_BACKLOG_MERGE : Fld := ⟨.TLY_BACKLOG, 16, 16, 0⟩
abbrev TLY_CHCTL_EN : Fld := ⟨.TLY_CHCTL, 0, 1, 0⟩
abbrev TLY_CHCTL_CLASS : Fld := ⟨.TLY_CHCTL, 1, 1, 0⟩
abbrev TLY_NREG_NBASE : Fld := ⟨.TLY_NREG, 0, 8, 0⟩
abbrev TLY_NREG_NSIZE : Fld := ⟨.TLY_NREG, 8, 8, 0⟩
abbrev TLY_FBASE_FBASE : Fld := ⟨.TLY_FBASE, 0, 13, 0⟩
abbrev TLY_FSIZE_FSIZE : Fld := ⟨.TLY_FSIZE, 0, 13, 0⟩
abbrev TLY_CHSEL_GROUPS : Fld := ⟨.TLY_CHSEL, 0, 16, 0⟩
abbrev TLY_CHTRG_TRG : Fld := ⟨.TLY_CHTRG, 0, 16, 0⟩
abbrev TLY_FRZ_FREEZE : Fld := ⟨.TLY_FRZ, 0, 1, 0⟩
abbrev TLY_FRZ_STRIG : Fld := ⟨.TLY_FRZ, 1, 1, 0⟩
abbrev TLY_CHSTAT_FROZEN : Fld := ⟨.TLY_CHSTAT, 0, 1, 0⟩
abbrev TLY_CHSTAT_SIDE : Fld := ⟨.TLY_CHSTAT, 1, 11, 0⟩
abbrev TLY_CHSTAT_SNAP_SKIP : Fld := ⟨.TLY_CHSTAT, 16, 8, 0⟩
abbrev TLY_GEN_GEN : Fld := ⟨.TLY_GEN, 0, 16, 0⟩
abbrev TLY_GEN_LISTGEN : Fld := ⟨.TLY_GEN, 16, 16, 0⟩
abbrev TLY_WSEQ_WSEQ : Fld := ⟨.TLY_WSEQ, 0, 32, 0⟩
abbrev TLY_OSEQ_OSEQ : Fld := ⟨.TLY_OSEQ, 0, 32, 0⟩
abbrev TLY_SNLO_ADDR_LO : Fld := ⟨.TLY_SNLO, 0, 16, 0⟩
abbrev TLY_SNHI_ADDR_HI : Fld := ⟨.TLY_SNHI, 0, 5, 0⟩
abbrev TLY_SNHI_EN : Fld := ⟨.TLY_SNHI, 15, 1, 0⟩
abbrev FIO_STAT_BANK_FAULT : Fld := ⟨.FIO_STAT, 0, 4, 0⟩
abbrev FIO_STAT_BANK_FLT_S : Fld := ⟨.FIO_STAT, 4, 4, 0⟩
abbrev FIO_STAT_SILENT : Fld := ⟨.FIO_STAT, 8, 4, 0⟩
abbrev FIO_STAT_INTG_REJ : Fld := ⟨.FIO_STAT, 12, 4, 0⟩
abbrev FIO_STAT_SCHED_LATE : Fld := ⟨.FIO_STAT, 16, 1, 0⟩
abbrev FIO_STAT_SCHED_RANGE : Fld := ⟨.FIO_STAT, 17, 1, 0⟩
abbrev FIO_GATE_OPEN : Fld := ⟨.FIO_GATE, 0, 1, 0⟩
abbrev FIO_GATE_TESTOUT : Fld := ⟨.FIO_GATE, 1, 1, 0⟩
abbrev FIO_GATE_HOLDING : Fld := ⟨.FIO_GATE, 2, 1, 0⟩
abbrev FIO_GATE_SAFE : Fld := ⟨.FIO_GATE, 3, 1, 0⟩
abbrev FIO_INTG_BANK : Fld := ⟨.FIO_INTG, 0, 2, 0⟩
abbrev FIO_INTG_GO : Fld := ⟨.FIO_INTG, 2, 1, 0⟩
abbrev FIO_CLRSEL_BANK : Fld := ⟨.FIO_CLRSEL, 0, 2, 0⟩
abbrev FIO_CLRMASK_MASK : Fld := ⟨.FIO_CLRMASK, 0, 16, 0⟩
abbrev FIO_CNY_OP : Fld := ⟨.FIO_CNY, 0, 16, 0⟩
abbrev FIO_CNY_ARMED : Fld := ⟨.FIO_CNY, 16, 1, 0⟩
abbrev FIO_CNY_KEEP : Fld := ⟨.FIO_CNY, 17, 1, 0⟩
abbrev FIO_CNY_TLOCK : Fld := ⟨.FIO_CNY, 18, 1, 0⟩
abbrev FIO_CNY_CHECK_FAIL : Fld := ⟨.FIO_CNY, 19, 1, 0⟩
abbrev FIO_SCHED_PENDING : Fld := ⟨.FIO_SCHED, 0, 8, 0⟩
abbrev FIO_SCHED_EXEC : Fld := ⟨.FIO_SCHED, 16, 16, 0⟩
abbrev FIO_PCFG_DIR : Fld := ⟨.FIO_PCFG, 0, 1, 0⟩
abbrev FIO_PCFG_TYPE : Fld := ⟨.FIO_PCFG, 1, 1, 0⟩
abbrev FIO_PCFG_WB : Fld := ⟨.FIO_PCFG, 2, 1, 0⟩
abbrev FIO_PCFG_FILT : Fld := ⟨.FIO_PCFG, 3, 3, 0⟩
abbrev FIO_PCFG_LOG : Fld := ⟨.FIO_PCFG, 6, 1, 0⟩
abbrev FIO_BSTAT_FLAGS : Fld := ⟨.FIO_BSTAT, 0, 6, 0⟩
abbrev FIO_BSTAT_INTG_BUSY : Fld := ⟨.FIO_BSTAT, 6, 1, 0⟩
abbrev FIO_BSTAT_INTG_DONE : Fld := ⟨.FIO_BSTAT, 7, 1, 0⟩
abbrev FIO_BSTAT_INTG_FAIL : Fld := ⟨.FIO_BSTAT, 8, 1, 0⟩
abbrev FIO_BSTAT_OFFLINE : Fld := ⟨.FIO_BSTAT, 9, 1, 0⟩
abbrev FIO_LEVEL_LEVEL : Fld := ⟨.FIO_LEVEL, 0, 16, 0⟩
abbrev FIO_LEVEL_BRK : Fld := ⟨.FIO_LEVEL, 16, 16, 0⟩
abbrev FIO_DRV_DRV : Fld := ⟨.FIO_DRV, 0, 16, 0⟩
abbrev FIO_DRV_CANARY : Fld := ⟨.FIO_DRV, 16, 16, 0⟩
abbrev FIO_CNT_CRC : Fld := ⟨.FIO_CNT, 0, 16, 0⟩
abbrev FIO_CNT_SILENCES : Fld := ⟨.FIO_CNT, 16, 8, 0⟩
abbrev FIO_CNT_EVENTS : Fld := ⟨.FIO_CNT, 24, 8, 0⟩
abbrev FIO_CAUSE_CAUSE : Fld := ⟨.FIO_CAUSE, 0, 64, 0⟩
abbrev DMA_STAT_ERR : Fld := ⟨.DMA_STAT, 0, 8, 0⟩
abbrev DMA_STAT_STARVE : Fld := ⟨.DMA_STAT, 8, 8, 0⟩
abbrev DMA_STAT_PERST : Fld := ⟨.DMA_STAT, 16, 1, 0⟩
abbrev DMA_STAT_LINKDOWN : Fld := ⟨.DMA_STAT, 17, 1, 0⟩
abbrev DMA_LINK_UP : Fld := ⟨.DMA_LINK, 0, 1, 0⟩
abbrev DMA_LINK_SPEED : Fld := ⟨.DMA_LINK, 1, 2, 0⟩
abbrev DMA_LINK_WIDTH : Fld := ⟨.DMA_LINK, 3, 2, 0⟩
abbrev DMA_LINK_STRAP : Fld := ⟨.DMA_LINK, 5, 3, 0⟩
abbrev DMA_B2AP_BASE : Fld := ⟨.DMA_B2AP, 0, 8, 0⟩
abbrev DMA_MVCTL_EN : Fld := ⟨.DMA_MVCTL, 0, 1, 0⟩
abbrev DMA_MVCTL_KIND : Fld := ⟨.DMA_MVCTL, 1, 3, 0⟩
abbrev DMA_MVCTL_INDEX : Fld := ⟨.DMA_MVCTL, 4, 3, 0⟩
abbrev DMA_MVCTL_PRIO : Fld := ⟨.DMA_MVCTL, 7, 2, 0⟩
abbrev DMA_MVCTL_AUTO : Fld := ⟨.DMA_MVCTL, 9, 1, 0⟩
abbrev DMA_MVCTL_FROM : Fld := ⟨.DMA_MVCTL, 10, 2, 0⟩
abbrev DMA_MVCTL_SIZE : Fld := ⟨.DMA_MVCTL, 12, 4, 0⟩
abbrev DMA_MVBA0_BA : Fld := ⟨.DMA_MVBA0, 0, 16, 0⟩
abbrev DMA_MVBA1_BA : Fld := ⟨.DMA_MVBA1, 0, 16, 0⟩
abbrev DMA_MVBA2_BA : Fld := ⟨.DMA_MVBA2, 0, 16, 0⟩
abbrev DMA_MVBA3_BA : Fld := ⟨.DMA_MVBA3, 0, 16, 0⟩
abbrev DMA_MVPOSLO_POS : Fld := ⟨.DMA_MVPOSLO, 0, 16, 0⟩
abbrev DMA_MVPOSHI_POS : Fld := ⟨.DMA_MVPOSHI, 0, 16, 0⟩
abbrev DMA_MVTAIL_TAIL : Fld := ⟨.DMA_MVTAIL, 0, 16, 0⟩
abbrev DMA_MVSTAT_HEAD : Fld := ⟨.DMA_MVSTAT, 0, 16, 0⟩
abbrev DMA_MVSTAT_STATE : Fld := ⟨.DMA_MVSTAT, 16, 2, 0⟩
abbrev DMA_MVCNT_STARVE : Fld := ⟨.DMA_MVCNT, 0, 8, 0⟩
abbrev DMA_MVCNT_GAP : Fld := ⟨.DMA_MVCNT, 8, 8, 0⟩
abbrev DMA_MVCNT_NOTOWN : Fld := ⟨.DMA_MVCNT, 16, 8, 0⟩
abbrev DMA_MVCNT_POISON : Fld := ⟨.DMA_MVCNT, 24, 8, 0⟩
abbrev DMA_BQTAIL_TAIL : Fld := ⟨.DMA_BQTAIL, 0, 8, 0⟩
abbrev DMA_MVPOS_POS : Fld := ⟨.DMA_MVPOS, 0, 32, 0⟩
abbrev DMA_BQBASE_BASE : Fld := ⟨.DMA_BQBASE, 0, 64, 0⟩
abbrev DMA_VHOLD_HOLD : Fld := ⟨.DMA_VHOLD, 0, 16, 0⟩
abbrev DMA_MXAL_ADDR_LO : Fld := ⟨.DMA_MXAL, 0, 32, 0⟩
abbrev DMA_MXAH_ADDR_HI : Fld := ⟨.DMA_MXAH, 0, 32, 0⟩
abbrev DMA_MXDAT_DATA : Fld := ⟨.DMA_MXDAT, 0, 32, 0⟩
abbrev DMA_MXCTL_MASK : Fld := ⟨.DMA_MXCTL, 0, 1, 1⟩
abbrev DMA_PBA_PBA : Fld := ⟨.DMA_PBA, 0, 32, 0⟩
abbrev SKIP_EXH_EXH : Fld := ⟨.SKIP_EXH, 0, 31, 0⟩
abbrev SKIP_OFFLINE_OFF : Fld := ⟨.SKIP_OFFLINE, 0, 31, 0⟩
abbrev SKIP_STAT_DEPTH : Fld := ⟨.SKIP_STAT, 0, 12, 0⟩
abbrev SKIP_STAT_CREDITS : Fld := ⟨.SKIP_STAT, 12, 12, 0⟩
abbrev SKIP_STAT_STATE : Fld := ⟨.SKIP_STAT, 24, 3, 0⟩
abbrev SKIP_STAT_CLASS : Fld := ⟨.SKIP_STAT, 27, 2, 0⟩
abbrev SKIP_HWM_HWM : Fld := ⟨.SKIP_HWM, 0, 12, 0⟩
abbrev SKIP_HWM_PDEPTH : Fld := ⟨.SKIP_HWM, 12, 12, 0⟩
abbrev SKIP_CAP_CAP : Fld := ⟨.SKIP_CAP, 0, 12, 0⟩
abbrev SKIP_CAP_RESV : Fld := ⟨.SKIP_CAP, 12, 12, 0⟩
abbrev SKIP_STALL_STALL : Fld := ⟨.SKIP_STALL, 0, 32, 0⟩
abbrev SKIP_DROP_DROP : Fld := ⟨.SKIP_DROP, 0, 32, 0⟩
abbrev TRB_STICKY0_BUS_UNMAP : Fld := ⟨.TRB_STICKY0, 0, 1, 0⟩
abbrev TRB_STICKY0_BUS_ALIGN : Fld := ⟨.TRB_STICKY0, 1, 1, 0⟩
abbrev TRB_STICKY0_BUS_WIDTH : Fld := ⟨.TRB_STICKY0, 2, 1, 0⟩
abbrev TRB_STICKY0_BUS_VALUE : Fld := ⟨.TRB_STICKY0, 3, 1, 0⟩
abbrev TRB_STICKY0_LOCK_VIOL : Fld := ⟨.TRB_STICKY0, 4, 1, 0⟩
abbrev TRB_STICKY0_SKIP_PROT : Fld := ⟨.TRB_STICKY0, 8, 1, 0⟩
abbrev TRB_STICKY0_SKIP_STREAM : Fld := ⟨.TRB_STICKY0, 9, 1, 0⟩
abbrev TRB_STICKY0_TCXO_DIFF : Fld := ⟨.TRB_STICKY0, 16, 1, 0⟩
abbrev TRB_STICKY0_TCXO_LOST : Fld := ⟨.TRB_STICKY0, 17, 1, 0⟩
abbrev TRB_STICKY0_CAL_SUSPECT : Fld := ⟨.TRB_STICKY0, 18, 1, 0⟩
abbrev TRB_STICKY0_HOST_LINK : Fld := ⟨.TRB_STICKY0, 24, 1, 0⟩
abbrev TRB_STICKY0_DMA_FAULT : Fld := ⟨.TRB_STICKY0, 25, 1, 0⟩
abbrev TRB_STICKY0_NET_LINK : Fld := ⟨.TRB_STICKY0, 26, 1, 0⟩
abbrev TRB_STICKY1_AFE_CAL : Fld := ⟨.TRB_STICKY1, 0, 1, 0⟩
abbrev TRB_STICKY1_AFE_REF : Fld := ⟨.TRB_STICKY1, 1, 1, 0⟩
abbrev TRB_STICKY1_AUX_REF : Fld := ⟨.TRB_STICKY1, 2, 1, 0⟩
abbrev TRB_STICKY1_SEAM_OVERRUN : Fld := ⟨.TRB_STICKY1, 8, 1, 0⟩
abbrev TRB_STICKY1_SEAM_HALT : Fld := ⟨.TRB_STICKY1, 9, 1, 0⟩
abbrev TRB_STICKY1_SEAM_DUPLEX : Fld := ⟨.TRB_STICKY1, 10, 1, 0⟩
abbrev TRB_STICKY1_FIO_BANK : Fld := ⟨.TRB_STICKY1, 16, 1, 0⟩
abbrev TRB_STICKY1_FIO_CANARY : Fld := ⟨.TRB_STICKY1, 17, 1, 0⟩
abbrev TRB_STICKY1_SAGE : Fld := ⟨.TRB_STICKY1, 24, 1, 0⟩
abbrev TRB_STICKY2_TLY_NEAR : Fld := ⟨.TRB_STICKY2, 0, 1, 0⟩
abbrev TRB_STICKY2_TLY_FAR : Fld := ⟨.TRB_STICKY2, 1, 1, 0⟩
abbrev TRB_STICKY2_LOGLOSS : Fld := ⟨.TRB_STICKY2, 2, 1, 0⟩
abbrev TRB_STICKY2_THYME_LOST : Fld := ⟨.TRB_STICKY2, 8, 1, 0⟩
abbrev TRB_STICKY2_HOLDUP : Fld := ⟨.TRB_STICKY2, 9, 1, 0⟩
abbrev TRB_STICKY2_PWR_HALF : Fld := ⟨.TRB_STICKY2, 10, 1, 0⟩
abbrev TRB_STICKY2_TEMP : Fld := ⟨.TRB_STICKY2, 11, 1, 0⟩
abbrev TRB_STICKY3_MEM_CE : Fld := ⟨.TRB_STICKY3, 0, 1, 0⟩
abbrev TRB_STICKY3_MEM_UE : Fld := ⟨.TRB_STICKY3, 1, 1, 0⟩
abbrev TRB_STICKY3_POISON : Fld := ⟨.TRB_STICKY3, 2, 1, 0⟩
abbrev TRB_STICKY3_SCRUB_LATE : Fld := ⟨.TRB_STICKY3, 3, 1, 0⟩
abbrev TRB_STICKY3_NAND_WEAR : Fld := ⟨.TRB_STICKY3, 4, 1, 0⟩
abbrev TRB_STICKY3_HFR_FAULT : Fld := ⟨.TRB_STICKY3, 8, 1, 0⟩
abbrev TRB_STICKY3_HFR_GIVEUP : Fld := ⟨.TRB_STICKY3, 9, 1, 0⟩
abbrev TRB_STICKY3_FAREA_WRAP : Fld := ⟨.TRB_STICKY3, 10, 1, 0⟩
abbrev TRB_LOCK_CNT_CNT : Fld := ⟨.TRB_LOCK_CNT, 0, 32, 0⟩
abbrev TRB_MEMCNT_CORR : Fld := ⟨.TRB_MEMCNT, 0, 16, 0⟩
abbrev TRB_MEMCNT_UNCORR : Fld := ⟨.TRB_MEMCNT, 16, 16, 0⟩
abbrev TRB_MEMLAST_ADDR : Fld := ⟨.TRB_MEMLAST, 0, 48, 0⟩
abbrev TRB_MEMINFO_REGION : Fld := ⟨.TRB_MEMINFO, 0, 4, 0⟩
abbrev TRB_MEMINFO_KIND : Fld := ⟨.TRB_MEMINFO, 4, 2, 0⟩
abbrev TRB_MEMINFO_SCRUB : Fld := ⟨.TRB_MEMINFO, 6, 1, 0⟩
abbrev TRB_MEMINFO_FACE : Fld := ⟨.TRB_MEMINFO, 8, 8, 0⟩
abbrev TRB_MEMINFO_SRC : Fld := ⟨.TRB_MEMINFO, 16, 12, 0⟩
abbrev TRB_SCRUB_PASSES : Fld := ⟨.TRB_SCRUB, 0, 16, 0⟩
abbrev TRB_SCRUB_PCT : Fld := ⟨.TRB_SCRUB, 16, 7, 0⟩
abbrev TRB_SCRUB_RUNNING : Fld := ⟨.TRB_SCRUB, 23, 1, 0⟩
abbrev TRB_SCRUB_PAUSED : Fld := ⟨.TRB_SCRUB, 24, 1, 0⟩
abbrev TRB_NANDWEAR_PE : Fld := ⟨.TRB_NANDWEAR, 0, 16, 0⟩
abbrev TRB_NANDWEAR_RATE : Fld := ⟨.TRB_NANDWEAR, 16, 16, 0⟩
abbrev TRB_FAREA_WORD : Fld := ⟨.TRB_FAREA, 0, 32, 0⟩
abbrev TLK_CTL_EN : Fld := ⟨.TLK_CTL, 0, 1, 0⟩
abbrev TLK_CTL_ROLE : Fld := ⟨.TLK_CTL, 1, 1, 0⟩
abbrev TLK_STAT_STATE : Fld := ⟨.TLK_STAT, 0, 2, 0⟩
abbrev TLK_STAT_POS : Fld := ⟨.TLK_STAT, 2, 3, 0⟩
abbrev TLK_STAT_LOSS : Fld := ⟨.TLK_STAT, 5, 1, 0⟩
abbrev TLK_STAT_OVERLONG : Fld := ⟨.TLK_STAT, 6, 1, 0⟩
abbrev TLK_STAT_BADFRM : Fld := ⟨.TLK_STAT, 16, 16, 0⟩
abbrev TLK_HOP_HOP : Fld := ⟨.TLK_HOP, 0, 24, 0⟩
abbrev TLK_CUM_CUM : Fld := ⟨.TLK_CUM, 0, 24, 0⟩
abbrev TLK_OFS_OFS : Fld := ⟨.TLK_OFS, 0, 64, 0⟩
abbrev TLK_CNT_SENT : Fld := ⟨.TLK_CNT, 0, 12, 0⟩
abbrev TLK_CNT_RCVD : Fld := ⟨.TLK_CNT, 12, 12, 0⟩
abbrev TLK_CNT_UNSENT : Fld := ⟨.TLK_CNT, 24, 8, 0⟩
abbrev BLK_TEAR_TEAR : Fld := ⟨.BLK_TEAR, 0, 32, 0⟩
abbrev BLK_ID_BLOCK : Fld := ⟨.BLK_ID, 0, 16, 0⟩
abbrev BLK_ID_VER : Fld := ⟨.BLK_ID, 16, 8, 1⟩
end F

/-- The row of each register. -/
def Reg.desc : Reg → RegDesc
  | .SYS_MODE => ⟨0x000000, .status, 1, 0, 1, 0, none, false, .nobody, .none, 0, 0,
    [⟨F.SYS_MODE_MODE, .ro, false, 0, 15⟩, ⟨F.SYS_MODE_PREV, .ro, false, 0, 15⟩, ⟨F.SYS_MODE_CAUSE, .ro, false, 0, 65535⟩]⟩
  | .SYS_MODECNT => ⟨0x000004, .status, 1, 0, 1, 0, none, false, .nobody, .none, 0, 0,
    [⟨F.SYS_MODECNT_CHANGES, .rcv, false, 0, 65535⟩, ⟨F.SYS_MODECNT_DEGR, .rcv, false, 0, 65535⟩]⟩
  | .SYS_STEPPING => ⟨0x000008, .status, 1, 0, 1, 0, none, false, .nobody, .none, 0, 0,
    [⟨F.SYS_STEPPING_LETTER, .ro, false, 0, 255⟩, ⟨F.SYS_STEPPING_DIGIT, .ro, false, 0, 255⟩]⟩
  | .SYS_START => ⟨0x00000C, .status, 1, 0, 1, 0, none, false, .nobody, .none, 0, 0,
    [⟨F.SYS_START_THYME_LOST, .ro, false, 0, 1⟩, ⟨F.SYS_START_SNAP, .ro, false, 0, 3⟩, ⟨F.SYS_START_ORIGIN, .ro, false, 0, 3⟩, ⟨F.SYS_START_STARTMODE, .ro, false, 0, 1⟩, ⟨F.SYS_START_LOAD_HELD, .ro, false, 0, 1⟩]⟩
  | .SYS_DEGR => ⟨0x000010, .status, 1, 0, 1, 0, none, false, .nobody, .none, 0, 0,
    [⟨F.SYS_DEGR_SKIP_PROT, .rcf, false, 0, 1⟩, ⟨F.SYS_DEGR_OVERRUN, .rcf, false, 0, 1⟩, ⟨F.SYS_DEGR_DUPLEX, .rcf, false, 0, 1⟩, ⟨F.SYS_DEGR_SAGE, .rcf, false, 0, 1⟩, ⟨F.SYS_DEGR_HALF_N, .ro, false, 0, 1⟩, ⟨F.SYS_DEGR_HALF_S, .ro, false, 0, 1⟩, ⟨F.SYS_DEGR_RESUME_OK, .ro, false, 0, 1⟩]⟩
  | .SYS_TREL => ⟨0x000018, .pair, 1, 0, 1, 0, none, false, .nobody, .none, 0, 0,
    [⟨F.SYS_TREL_TSC, .ro, false, 0, 18446744073709551615⟩]⟩
  | .SYS_OUTAGE => ⟨0x000020, .pair, 1, 0, 1, 0, none, false, .nobody, .none, 1, 0,
    [⟨F.SYS_OUTAGE_MS, .ro, false, 0, 18446744073709551615⟩]⟩
  | .SYS_PWR => ⟨0x000100, .status, 1, 0, 1, 0, none, false, .nobody, .none, 0, 0,
    [⟨F.SYS_PWR_SUPPLY_OK, .ro, false, 0, 1⟩, ⟨F.SYS_PWR_RIDE, .ro, false, 0, 1⟩, ⟨F.SYS_PWR_HOLD_READY, .ro, false, 0, 1⟩, ⟨F.SYS_PWR_KA_FULL, .ro, false, 0, 1⟩, ⟨F.SYS_PWR_OVERVOLT, .ro, false, 0, 1⟩, ⟨F.SYS_PWR_PF_S, .rcf, false, 0, 1⟩, ⟨F.SYS_PWR_HOLDUP_LOW, .ro, false, 0, 1⟩, ⟨F.SYS_PWR_KA_LOW, .ro, false, 0, 1⟩]⟩
  | .SYS_HOLDUP => ⟨0x000104, .status, 1, 0, 1, 0, none, false, .nobody, .none, 0, 0,
    [⟨F.SYS_HOLDUP_CAP, .ro, false, 0, 65535⟩, ⟨F.SYS_HOLDUP_ENERGY, .ro, false, 0, 65535⟩]⟩
  | .SYS_HALF => ⟨0x000108, .status, 1, 0, 1, 0, none, false, .nobody, .none, 0, 0,
    [⟨F.SYS_HALF_N_OFF, .ro, false, 0, 1⟩, ⟨F.SYS_HALF_S_OFF, .ro, false, 0, 1⟩, ⟨F.SYS_HALF_N_TRIES, .ro, false, 0, 3⟩, ⟨F.SYS_HALF_S_TRIES, .ro, false, 0, 3⟩, ⟨F.SYS_HALF_N_GIVEUP, .ro, false, 0, 1⟩, ⟨F.SYS_HALF_S_GIVEUP, .ro, false, 0, 1⟩, ⟨F.SYS_HALF_LOSSES, .rcv, false, 0, 255⟩]⟩
  | .SYS_THYME => ⟨0x000110, .pair, 1, 0, 1, 0, none, false, .nobody, .none, 2, 0,
    [⟨F.SYS_THYME_COUNT, .ro, false, 0, 281474976710655⟩, ⟨F.SYS_THYME_VALID, .ro, false, 0, 1⟩]⟩
  | .SYS_MBXGO => ⟨0x000FF0, .control, 1, 0, 1, 0, none, false, .mailbox, .none, 0, 0,
    [⟨F.SYS_MBXGO_GO, .ws, false, 0, 1⟩]⟩
  | .SYS_MBX => ⟨0x001000, .data, 1016, 4, 1, 0, none, true, .mailbox, .none, 0, 0,
    [⟨F.SYS_MBX_WORD, .rw, false, 0, 4294967295⟩]⟩
  | .HFR_GATE => ⟨0x010000, .control, 1, 0, 1, 0, none, false, .nobody, .none, 0, 0,
    [⟨F.HFR_GATE_OPEN, .rw, false, 0, 1⟩, ⟨F.HFR_GATE_TESTOUT, .rw, false, 0, 1⟩]⟩
  | .HFR_LOCK => ⟨0x010004, .status, 1, 0, 1, 0, none, false, .nobody, .none, 0, 0,
    [⟨F.HFR_LOCK_STRUCT, .ro, false, 0, 1⟩, ⟨F.HFR_LOCK_TIME, .ro, false, 0, 1⟩]⟩
  | .HFR_IMG => ⟨0x010008, .status, 1, 0, 1, 0, none, false, .nobody, .none, 0, 0,
    [⟨F.HFR_IMG_ACTIVE, .ro, false, 0, 1⟩, ⟨F.HFR_IMG_PREF, .ro, false, 0, 1⟩, ⟨F.HFR_IMG_NONE, .ro, false, 0, 1⟩, ⟨F.HFR_IMG_FAIL_A, .ro, false, 0, 7⟩, ⟨F.HFR_IMG_FAIL_B, .ro, false, 0, 7⟩, ⟨F.HFR_IMG_KEY, .ro, false, 0, 3⟩]⟩
  | .HFR_KEYS => ⟨0x01000C, .status, 1, 0, 1, 0, none, false, .nobody, .none, 0, 0,
    [⟨F.HFR_KEYS_PROG, .ro, false, 0, 15⟩, ⟨F.HFR_KEYS_REVOKED, .ro, false, 0, 15⟩, ⟨F.HFR_KEYS_VALID, .ro, false, 0, 15⟩, ⟨F.HFR_KEYS_ROWS, .ro, false, 0, 255⟩]⟩
  | .HFR_RB => ⟨0x010010, .pair, 1, 0, 1, 0, none, false, .nobody, .none, 0, 0,
    [⟨F.HFR_RB_COUNTER, .ro, false, 0, 18446744073709551615⟩]⟩
  | .HFR_NONCE => ⟨0x010018, .pair, 1, 0, 1, 0, none, false, .nobody, .none, 1, 0,
    [⟨F.HFR_NONCE_NONCE, .ro, false, 0, 18446744073709551615⟩]⟩
  | .HFR_UID => ⟨0x010020, .pair, 1, 0, 1, 0, none, false, .nobody, .none, 2, 0,
    [⟨F.HFR_UID_UID, .ro, false, 0, 18446744073709551615⟩]⟩
  | .HFR_RSTAT => ⟨0x010028, .status, 1, 0, 1, 0, none, true, .nobody, .none, 0, 0,
    [⟨F.HFR_RSTAT_STATE, .ro, false, 0, 7⟩, ⟨F.HFR_RSTAT_RESULT, .ro, false, 0, 15⟩, ⟨F.HFR_RSTAT_INDEX, .ro, false, 0, 255⟩, ⟨F.HFR_RSTAT_BUSY_REJ, .rcf, false, 0, 1⟩]⟩
  | .HFR_RTAG => ⟨0x01002C, .status, 1, 0, 1, 0, none, true, .nobody, .none, 0, 0,
    [⟨F.HFR_RTAG_TAG, .ro, false, 0, 4294967295⟩]⟩
  | .HFR_TAMPER => ⟨0x010030, .status, 1, 0, 1, 0, none, false, .nobody, .none, 0, 0,
    [⟨F.HFR_TAMPER_CLOSED, .ro, false, 0, 1⟩, ⟨F.HFR_TAMPER_OPEN_S, .rcf, false, 0, 1⟩, ⟨F.HFR_TAMPER_UNPWR, .ro, false, 0, 65535⟩]⟩
  | .HFR_FAIL => ⟨0x010034, .status, 1, 0, 1, 0, none, false, .nobody, .none, 0, 0,
    [⟨F.HFR_FAIL_LOGLOSS, .ro, false, 0, 1⟩, ⟨F.HFR_FAIL_ENTRIES, .ro, false, 0, 127⟩]⟩
  | .SAGE_STAT => ⟨0x020000, .status, 1, 0, 1, 0, none, false, .nobody, .none, 0, 0,
    [⟨F.SAGE_STAT_RUN, .ro, false, 0, 1⟩, ⟨F.SAGE_STAT_MIS_C, .rcf, false, 0, 1⟩, ⟨F.SAGE_STAT_MIS_N, .rcf, false, 0, 1⟩, ⟨F.SAGE_STAT_MIS_S, .rcf, false, 0, 1⟩, ⟨F.SAGE_STAT_SKIP_N, .ro, false, 0, 1⟩, ⟨F.SAGE_STAT_SKIP_S, .ro, false, 0, 1⟩, ⟨F.SAGE_STAT_POLICY, .ro, false, 0, 1⟩, ⟨F.SAGE_STAT_PASSES, .ro, false, 0, 65535⟩]⟩
  | .SAGE_REFC => ⟨0x020010, .status, 1, 0, 1, 0, none, false, .nobody, .none, 0, 0,
    [⟨F.SAGE_REFC_REF, .ro, false, 0, 4294967295⟩]⟩
  | .SAGE_REFN => ⟨0x020014, .status, 1, 0, 1, 0, none, false, .nobody, .none, 0, 0,
    [⟨F.SAGE_REFN_REF, .ro, false, 0, 4294967295⟩]⟩
  | .SAGE_REFS => ⟨0x020018, .status, 1, 0, 1, 0, none, false, .nobody, .none, 0, 0,
    [⟨F.SAGE_REFS_REF, .ro, false, 0, 4294967295⟩]⟩
  | .SAGE_LASTC => ⟨0x020020, .status, 1, 0, 1, 0, none, false, .nobody, .none, 0, 0,
    [⟨F.SAGE_LASTC_CRC, .ro, false, 0, 4294967295⟩]⟩
  | .SAGE_LASTN => ⟨0x020024, .status, 1, 0, 1, 0, none, false, .nobody, .none, 0, 0,
    [⟨F.SAGE_LASTN_CRC, .ro, false, 0, 4294967295⟩]⟩
  | .SAGE_LASTS => ⟨0x020028, .status, 1, 0, 1, 0, none, false, .nobody, .none, 0, 0,
    [⟨F.SAGE_LASTS_CRC, .ro, false, 0, 4294967295⟩]⟩
  | .CLK_TSC => ⟨0x030000, .pair, 1, 0, 1, 0, none, false, .nobody, .none, 0, 0,
    [⟨F.CLK_TSC_TSC, .ro, false, 0, 18446744073709551615⟩]⟩
  | .CLK_CAL => ⟨0x030008, .pair, 1, 0, 1, 0, none, false, .nobody, .none, 1, 0,
    [⟨F.CLK_CAL_CAL, .ro, false, 0, 18446744073709551615⟩]⟩
  | .CLK_CAL_RATE => ⟨0x030010, .status, 1, 0, 1, 0, none, false, .nobody, .none, 0, 0,
    [⟨F.CLK_CAL_RATE_RATE, .ro, false, 0, 4294967295⟩]⟩
  | .CLK_UTC => ⟨0x030014, .status, 1, 0, 1, 0, none, false, .nobody, .none, 0, 0,
    [⟨F.CLK_UTC_UTC_OFS, .ro, false, 0, 65535⟩, ⟨F.CLK_UTC_UTC_VALID, .ro, false, 0, 1⟩, ⟨F.CLK_UTC_LI_61, .ro, false, 0, 1⟩, ⟨F.CLK_UTC_LI_59, .ro, false, 0, 1⟩]⟩
  | .CLK_CAL_STAT => ⟨0x030018, .status, 1, 0, 1, 0, none, false, .nobody, .none, 0, 0,
    [⟨F.CLK_CAL_STAT_STATE, .ro, false, 0, 7⟩, ⟨F.CLK_CAL_STAT_STEPPED, .ro, false, 0, 1⟩, ⟨F.CLK_CAL_STAT_RESTEPS, .ro, false, 0, 255⟩]⟩
  | .CLK_TCXO => ⟨0x03001C, .status, 1, 0, 1, 0, none, false, .nobody, .none, 0, 0,
    [⟨F.CLK_TCXO_DIFF, .ro, false, 0, 65535⟩, ⟨F.CLK_TCXO_ACTIVE, .ro, false, 0, 1⟩, ⟨F.CLK_TCXO_MISMATCH, .ro, false, 0, 1⟩, ⟨F.CLK_TCXO_A_LOST, .rcf, false, 0, 1⟩, ⟨F.CLK_TCXO_B_LOST, .rcf, false, 0, 1⟩, ⟨F.CLK_TCXO_BACKUP, .ro, false, 0, 1⟩]⟩
  | .CLK_SNAP_CTL => ⟨0x030020, .control, 1, 0, 1, 0, none, false, .everyone, .none, 0, 0,
    [⟨F.CLK_SNAP_CTL_SNAP, .ws, false, 0, 1⟩]⟩
  | .CLK_SNAP_SEQ => ⟨0x030024, .status, 1, 0, 1, 0, none, false, .nobody, .none, 0, 0,
    [⟨F.CLK_SNAP_SEQ_SEQ, .ro, false, 0, 65535⟩, ⟨F.CLK_SNAP_SEQ_SRC, .ro, false, 0, 4095⟩]⟩
  | .CLK_SNAP_TSC => ⟨0x030028, .pair, 1, 0, 1, 0, none, false, .nobody, .none, 2, 0,
    [⟨F.CLK_SNAP_TSC_TSC, .ro, false, 0, 18446744073709551615⟩]⟩
  | .CLK_SNAP_CAL => ⟨0x030030, .pair, 1, 0, 1, 0, none, false, .nobody, .none, 3, 0,
    [⟨F.CLK_SNAP_CAL_CAL, .ro, false, 0, 18446744073709551615⟩]⟩
  | .CLK_SNAP_ANG => ⟨0x030038, .pair, 4, 8, 1, 0, none, false, .nobody, .none, 4, 1,
    [⟨F.CLK_SNAP_ANG_ANG, .ro, false, 0, 281474976710655⟩, ⟨F.CLK_SNAP_ANG_STATE, .ro, false, 0, 7⟩, ⟨F.CLK_SNAP_ANG_ALIGNED, .ro, false, 0, 1⟩]⟩
  | .CLK_CONVA => ⟨0x030060, .pair, 1, 0, 1, 0, none, true, .everyone, .none, 12, 0,
    [⟨F.CLK_CONVA_ANG, .rw, false, 0, 281474976710655⟩, ⟨F.CLK_CONVA_CLOCK, .rw, false, 0, 3⟩]⟩
  | .CLK_CONVT => ⟨0x030068, .pair, 1, 0, 1, 0, none, true, .nobody, .none, 13, 0,
    [⟨F.CLK_CONVT_TSC, .ro, false, 0, 18446744073709551615⟩]⟩
  | .CLK_CONV_STAT => ⟨0x030070, .status, 1, 0, 1, 0, none, true, .nobody, .none, 0, 0,
    [⟨F.CLK_CONV_STAT_KIND, .ro, false, 0, 3⟩]⟩
  | .ANG_CTL => ⟨0x030100, .control, 4, 64, 1, 0, some .ANG_CTL, false, .nobody, .core, 0, 0,
    [⟨F.ANG_CTL_BIND, .rw, false, 0, 1⟩, ⟨F.ANG_CTL_NOM, .rw, false, 0, 1⟩]⟩
  | .ANG_REFA => ⟨0x030104, .control, 4, 64, 1, 0, some .ANG_CTL, false, .nobody, .core, 0, 0,
    [⟨F.ANG_REFA_INDEX, .rw, false, 0, 127⟩, ⟨F.ANG_REFA_SVCH, .rw, false, 0, 7⟩, ⟨F.ANG_REFA_SRC, .rw, false, 0, 1⟩]⟩
  | .ANG_REFB => ⟨0x030108, .control, 4, 64, 1, 0, some .ANG_CTL, false, .nobody, .core, 0, 0,
    [⟨F.ANG_REFB_INDEX, .rw, false, 0, 127⟩, ⟨F.ANG_REFB_SVCH, .rw, false, 0, 7⟩, ⟨F.ANG_REFB_SRC, .rw, false, 0, 1⟩]⟩
  | .ANG_REFC => ⟨0x03010C, .control, 4, 64, 1, 0, some .ANG_CTL, false, .nobody, .core, 0, 0,
    [⟨F.ANG_REFC_INDEX, .rw, false, 0, 127⟩, ⟨F.ANG_REFC_SVCH, .rw, false, 0, 7⟩, ⟨F.ANG_REFC_SRC, .rw, false, 0, 1⟩]⟩
  | .ANG_VNOM_LO => ⟨0x030110, .control, 4, 64, 1, 0, some .ANG_CTL, false, .nobody, .core, 0, 0,
    [⟨F.ANG_VNOM_LO_VNOM_LO, .rw, false, 0, 65535⟩]⟩
  | .ANG_VNOM_HI => ⟨0x030114, .control, 4, 64, 1, 0, some .ANG_CTL, false, .nobody, .core, 0, 0,
    [⟨F.ANG_VNOM_HI_VNOM_HI, .rw, false, 0, 127⟩]⟩
  | .ANG_OFS => ⟨0x030118, .control, 4, 64, 1, 0, none, false, .nobody, .core, 0, 0,
    [⟨F.ANG_OFS_OFS, .rw, false, 0, 65535⟩]⟩
  | .ANG_TIME => ⟨0x030120, .pair, 4, 64, 1, 0, none, false, .nobody, .none, 8, 1,
    [⟨F.ANG_TIME_ANG, .ro, false, 0, 281474976710655⟩]⟩
  | .ANG_FREQ => ⟨0x030128, .status, 4, 64, 1, 0, none, false, .nobody, .none, 0, 0,
    [⟨F.ANG_FREQ_FREQ, .ro, false, 0, 4294967295⟩]⟩
  | .ANG_ROCOF => ⟨0x03012C, .status, 4, 64, 1, 0, none, false, .nobody, .none, 0, 0,
    [⟨F.ANG_ROCOF_ROCOF, .ro, false, 0, 4294967295⟩]⟩
  | .ANG_PHERR => ⟨0x030130, .status, 4, 64, 1, 0, none, false, .nobody, .none, 0, 0,
    [⟨F.ANG_PHERR_PHERR, .ro, false, 0, 65535⟩]⟩
  | .ANG_STAT => ⟨0x030134, .status, 4, 64, 1, 0, none, false, .nobody, .none, 0, 0,
    [⟨F.ANG_STAT_STATE, .ro, false, 0, 7⟩, ⟨F.ANG_STAT_ALIGNED, .ro, false, 0, 1⟩, ⟨F.ANG_STAT_CAUSE, .ro, false, 0, 15⟩, ⟨F.ANG_STAT_LOSS, .rcf, false, 0, 1⟩, ⟨F.ANG_STAT_RANGE, .rcf, false, 0, 1⟩, ⟨F.ANG_STAT_SLIP, .rcf, false, 0, 1⟩]⟩
  | .NET_CTL => ⟨0x040000, .control, 1, 0, 1, 0, none, false, .nobody, .core, 0, 0,
    [⟨F.NET_CTL_AB_MODE, .rw, true, 0, 2⟩, ⟨F.NET_CTL_CD_MODE, .rw, true, 0, 1⟩, ⟨F.NET_CTL_PEN, .rw, false, 0, 15⟩]⟩
  | .NET_STAT => ⟨0x040004, .status, 1, 0, 1, 0, none, false, .nobody, .none, 0, 0,
    [⟨F.NET_STAT_LINK, .ro, false, 0, 15⟩, ⟨F.NET_STAT_LINK_LOST, .rcf, false, 0, 15⟩, ⟨F.NET_STAT_OFFLINE, .ro, false, 0, 15⟩]⟩
  | .NET_RLIM => ⟨0x040100, .control, 4, 16, 1, 0, none, false, .nobody, .port, 0, 0,
    [⟨F.NET_RLIM_RATE, .rw, false, 1, 10000⟩]⟩
  | .NET_PCNT => ⟨0x040104, .status, 4, 16, 1, 0, none, false, .nobody, .none, 0, 0,
    [⟨F.NET_PCNT_BE_DROP, .rcv, false, 0, 65535⟩, ⟨F.NET_PCNT_DUP, .rcv, false, 0, 255⟩, ⟨F.NET_PCNT_FCS, .rcv, false, 0, 255⟩]⟩
  | .PTP_CTL => ⟨0x040400, .control, 1, 0, 1, 0, none, false, .nobody, .core, 0, 0,
    [⟨F.PTP_CTL_EN, .rw, false, 0, 15⟩, ⟨F.PTP_CTL_PROFILE, .rw, false, 0, 1⟩, ⟨F.PTP_CTL_DOMAIN, .rw, false, 0, 255⟩, ⟨F.PTP_CTL_VTAG, .rw, false, 0, 1⟩]⟩
  | .PTP_STAT => ⟨0x040404, .status, 1, 0, 1, 0, none, false, .nobody, .none, 0, 0,
    [⟨F.PTP_STAT_SEL_PORT, .ro, false, 0, 3⟩, ⟨F.PTP_STAT_SLAVE, .ro, false, 0, 1⟩, ⟨F.PTP_STAT_SLEWING, .ro, false, 0, 1⟩, ⟨F.PTP_STAT_FIRSTLOCK, .ro, false, 0, 1⟩, ⟨F.PTP_STAT_MASTER_CHG, .rcf, false, 0, 1⟩]⟩
  | .PTP_GMID => ⟨0x040408, .pair, 1, 0, 1, 0, none, false, .nobody, .none, 0, 0,
    [⟨F.PTP_GMID_GMID, .ro, false, 0, 18446744073709551615⟩]⟩
  | .PTP_OFS => ⟨0x040410, .pair, 1, 0, 1, 0, none, false, .nobody, .none, 1, 0,
    [⟨F.PTP_OFS_OFS, .ro, false, 0, 18446744073709551615⟩]⟩
  | .PTP_CNT => ⟨0x040418, .status, 1, 0, 1, 0, none, false, .nobody, .none, 0, 0,
    [⟨F.PTP_CNT_OUTLIER, .rcv, false, 0, 65535⟩, ⟨F.PTP_CNT_DISCARD, .rcv, false, 0, 65535⟩]⟩
  | .PTP_GMINFO => ⟨0x04041C, .status, 1, 0, 1, 0, none, false, .nobody, .none, 0, 0,
    [⟨F.PTP_GMINFO_CLASS, .ro, false, 0, 255⟩, ⟨F.PTP_GMINFO_SOURCE, .ro, false, 0, 255⟩, ⟨F.PTP_GMINFO_INACC, .ro, false, 0, 65535⟩]⟩
  | .PTP_VID => ⟨0x040420, .control, 1, 0, 1, 0, none, false, .nobody, .core, 0, 0,
    [⟨F.PTP_VID_VID, .rw, false, 0, 4095⟩]⟩
  | .PTP_PDLY => ⟨0x040440, .status, 4, 4, 1, 0, none, false, .nobody, .none, 0, 0,
    [⟨F.PTP_PDLY_MLD, .ro, false, 0, 4294967295⟩]⟩
  | .PTP_ASYM => ⟨0x040450, .control, 4, 4, 1, 0, none, false, .nobody, .port, 0, 0,
    [⟨F.PTP_ASYM_ASYM, .rw, false, 0, 65535⟩]⟩
  | .NET_LQSEL => ⟨0x041000, .control, 1, 0, 1, 0, some .NET_LQCFG, false, .nobody, .core, 0, 0,
    [⟨F.NET_LQSEL_PORT, .rw, false, 0, 3⟩, ⟨F.NET_LQSEL_QUEUE, .rw, false, 0, 63⟩]⟩
  | .NET_LQBA0 => ⟨0x041004, .control, 1, 0, 1, 0, some .NET_LQCFG, false, .nobody, .core, 0, 0,
    [⟨F.NET_LQBA0_BA, .rw, false, 0, 65535⟩]⟩
  | .NET_LQBA1 => ⟨0x041008, .control, 1, 0, 1, 0, some .NET_LQCFG, false, .nobody, .core, 0, 0,
    [⟨F.NET_LQBA1_BA, .rw, false, 0, 65535⟩]⟩
  | .NET_LQBA2 => ⟨0x04100C, .control, 1, 0, 1, 0, some .NET_LQCFG, false, .nobody, .core, 0, 0,
    [⟨F.NET_LQBA2_BA, .rw, false, 0, 65535⟩]⟩
  | .NET_LQCFG => ⟨0x041010, .control, 1, 0, 1, 0, some .NET_LQCFG, false, .nobody, .core, 0, 0,
    [⟨F.NET_LQCFG_EN, .rw, false, 0, 1⟩, ⟨F.NET_LQCFG_LATEPOL, .rw, false, 0, 1⟩, ⟨F.NET_LQCFG_SIZE, .rw, false, 4, 12⟩]⟩
  | .NET_LQTAIL => ⟨0x041400, .data, 256, 4, 1, 0, none, false, .lqtail, .none, 0, 0,
    [⟨F.NET_LQTAIL_TAIL, .rw, false, 0, 4095⟩]⟩
  | .NET_LQSTAT => ⟨0x041800, .status, 256, 4, 1, 0, none, false, .nobody, .none, 0, 0,
    [⟨F.NET_LQSTAT_HEAD, .ro, false, 0, 4095⟩, ⟨F.NET_LQSTAT_LATE, .rcv, false, 0, 255⟩, ⟨F.NET_LQSTAT_DELAYED, .rcv, false, 0, 255⟩]⟩
  | .SVI_DL => ⟨0x050000, .control, 1, 0, 1, 0, none, false, .nobody, .core, 0, 0,
    [⟨F.SVI_DL_DL, .rw, false, 25, 1000⟩]⟩
  | .SVI_UNMATCH => ⟨0x050010, .status, 1, 0, 1, 0, none, false, .nobody, .none, 0, 0,
    [⟨F.SVI_UNMATCH_UNMATCHED, .rcv, false, 0, 65535⟩, ⟨F.SVI_UNMATCH_MALFORMED, .rcv, false, 0, 65535⟩]⟩
  | .SVI_SVIDSEL => ⟨0x050020, .control, 1, 0, 1, 0, none, false, .nobody, .none, 0, 0,
    [⟨F.SVI_SVIDSEL_SUB, .rw, false, 0, 127⟩, ⟨F.SVI_SVIDSEL_PAIR, .rw, false, 0, 31⟩]⟩
  | .SVI_SVIDWR => ⟨0x050024, .control, 1, 0, 1, 0, none, false, .nobody, .none, 0, 0,
    [⟨F.SVI_SVIDWR_OCTETS, .rw, false, 0, 65535⟩]⟩
  | .SVI_SVIDRD => ⟨0x050028, .status, 1, 0, 1, 0, none, false, .nobody, .none, 0, 0,
    [⟨F.SVI_SVIDRD_OCTETS, .ro, false, 0, 65535⟩]⟩
  | .SVI_INVAL => ⟨0x050040, .status, 4, 4, 1, 0, none, false, .nobody, .none, 0, 0,
    [⟨F.SVI_INVAL_INVAL, .rcf, false, 0, 4294967295⟩]⟩
  | .SVI_LIVE => ⟨0x050050, .status, 4, 4, 1, 0, none, false, .nobody, .none, 0, 0,
    [⟨F.SVI_LIVE_LIVE, .ro, false, 0, 4294967295⟩]⟩
  | .SVI_SUBCTL => ⟨0x050200, .control, 128, 40, 1, 0, some .SVI_SUBCTL, false, .nobody, .core, 0, 0,
    [⟨F.SVI_SUBCTL_EN, .rw, false, 0, 1⟩, ⟨F.SVI_SUBCTL_PORT, .rw, true, 0, 2⟩, ⟨F.SVI_SUBCTL_RATE, .rw, true, 0, 2⟩, ⟨F.SVI_SUBCTL_ANG_EN, .rw, true, 0, 1⟩, ⟨F.SVI_SUBCTL_CLK, .rw, true, 0, 3⟩, ⟨F.SVI_SUBCTL_N, .rw, true, 0, 2⟩, ⟨F.SVI_SUBCTL_NAT_EN, .rw, true, 0, 1⟩, ⟨F.SVI_SUBCTL_SIM, .rw, false, 0, 1⟩, ⟨F.SVI_SUBCTL_SYNC_MIN, .rw, false, 0, 1⟩, ⟨F.SVI_SUBCTL_QUEST_INV, .rw, false, 0, 1⟩, ⟨F.SVI_SUBCTL_GMCHK, .rw, false, 0, 1⟩]⟩
  | .SVI_SUBMAC0 => ⟨0x050204, .control, 128, 40, 1, 0, some .SVI_SUBCTL, false, .nobody, .core, 0, 0,
    [⟨F.SVI_SUBMAC0_MAC, .rw, false, 0, 65535⟩]⟩
  | .SVI_SUBMAC1 => ⟨0x050208, .control, 128, 40, 1, 0, some .SVI_SUBCTL, false, .nobody, .core, 0, 0,
    [⟨F.SVI_SUBMAC1_MAC, .rw, false, 0, 65535⟩]⟩
  | .SVI_SUBMAC2 => ⟨0x05020C, .control, 128, 40, 1, 0, some .SVI_SUBCTL, false, .nobody, .core, 0, 0,
    [⟨F.SVI_SUBMAC2_MAC, .rw, false, 0, 65535⟩]⟩
  | .SVI_SUBAPP => ⟨0x050210, .control, 128, 40, 1, 0, some .SVI_SUBCTL, false, .nobody, .core, 0, 0,
    [⟨F.SVI_SUBAPP_APPID, .rw, false, 0, 65535⟩]⟩
  | .SVI_SUBREVLO => ⟨0x050214, .control, 128, 40, 1, 0, some .SVI_SUBCTL, false, .nobody, .core, 0, 0,
    [⟨F.SVI_SUBREVLO_REV, .rw, false, 0, 65535⟩]⟩
  | .SVI_SUBREVHI => ⟨0x050218, .control, 128, 40, 1, 0, some .SVI_SUBCTL, false, .nobody, .core, 0, 0,
    [⟨F.SVI_SUBREVHI_REV, .rw, false, 0, 65535⟩]⟩
  | .SVI_SUBMAP => ⟨0x05021C, .control, 128, 40, 1, 0, some .SVI_SUBCTL, false, .nobody, .core, 0, 0,
    [⟨F.SVI_SUBMAP_PITS, .rw, true, 0, 15⟩, ⟨F.SVI_SUBMAP_NCH, .rw, true, 0, 8⟩, ⟨F.SVI_SUBMAP_FIRST, .rw, true, 0, 23⟩]⟩
  | .SVI_SUBSCL => ⟨0x050220, .control, 128, 40, 1, 0, some .SVI_SUBCTL, false, .nobody, .core, 0, 0,
    [⟨F.SVI_SUBSCL_SHIFTA, .rw, false, 0, 15⟩, ⟨F.SVI_SUBSCL_SHIFTB, .rw, false, 0, 15⟩, ⟨F.SVI_SUBSCL_SVID_LEN, .rw, false, 0, 64⟩]⟩
  | .SVI_SUBSTAT => ⟨0x051600, .status, 128, 8, 1, 0, none, false, .nobody, .none, 0, 0,
    [⟨F.SVI_SUBSTAT_STATE, .ro, false, 0, 7⟩, ⟨F.SVI_SUBSTAT_REASON, .ro, false, 0, 15⟩, ⟨F.SVI_SUBSTAT_PORTA_SEEN, .rcf, false, 0, 1⟩, ⟨F.SVI_SUBSTAT_PORTB_SEEN, .rcf, false, 0, 1⟩, ⟨F.SVI_SUBSTAT_SMPSYNCH, .ro, false, 0, 255⟩]⟩
  | .SVI_SUBCNT => ⟨0x051604, .status, 128, 8, 1, 0, none, false, .nobody, .none, 0, 0,
    [⟨F.SVI_SUBCNT_SUBST, .rcv, false, 0, 65535⟩, ⟨F.SVI_SUBCNT_LATE, .rcv, false, 0, 255⟩]⟩
  | .AFE_REF => ⟨0x060000, .control, 1, 0, 1, 0, none, false, .nobody, .core, 0, 0,
    [⟨F.AFE_REF_REFSEL, .rw, false, 0, 1⟩]⟩
  | .AFE_PAIR => ⟨0x060004, .control, 1, 0, 1, 0, none, false, .nobody, .core, 0, 0,
    [⟨F.AFE_PAIR_PAIR, .rw, false, 0, 255⟩]⟩
  | .AFE_BGC => ⟨0x060008, .control, 1, 0, 1, 0, none, false, .nobody, .core, 0, 0,
    [⟨F.AFE_BGC_EN, .rw, false, 0, 65535⟩]⟩
  | .AFE_STAT => ⟨0x060010, .status, 1, 0, 1, 0, none, false, .nobody, .none, 0, 0,
    [⟨F.AFE_STAT_REF_OK, .ro, false, 0, 1⟩, ⟨F.AFE_STAT_REF_SRC, .ro, false, 0, 1⟩, ⟨F.AFE_STAT_REF_FALLBACK, .rcf, false, 0, 1⟩, ⟨F.AFE_STAT_CAL_DONE, .ro, false, 0, 1⟩, ⟨F.AFE_STAT_CAL_BUSY, .ro, false, 0, 1⟩, ⟨F.AFE_STAT_CAL_FAIL, .ro, false, 0, 65535⟩]⟩
  | .AFE_CLIP => ⟨0x060014, .status, 1, 0, 1, 0, none, false, .nobody, .none, 0, 0,
    [⟨F.AFE_CLIP_CLIP, .rcf, false, 0, 65535⟩]⟩
  | .AFE_BGC_STAT => ⟨0x060018, .status, 1, 0, 1, 0, none, false, .nobody, .none, 0, 0,
    [⟨F.AFE_BGC_STAT_CONV, .ro, false, 0, 65535⟩, ⟨F.AFE_BGC_STAT_HOLD, .ro, false, 0, 65535⟩]⟩
  | .AFE_REFIN => ⟨0x06001C, .status, 1, 0, 1, 0, none, false, .nobody, .none, 0, 0,
    [⟨F.AFE_REFIN_RATIO, .ro, false, 0, 65535⟩]⟩
  | .AFE_GAIN => ⟨0x060100, .control, 16, 128, 1, 0, none, false, .nobody, .channel, 0, 0,
    [⟨F.AFE_GAIN_GAIN, .rw, false, 0, 3⟩]⟩
  | .AFE_CHSTAT => ⟨0x060104, .status, 16, 128, 1, 0, none, false, .nobody, .none, 0, 0,
    [⟨F.AFE_CHSTAT_GAIN_ACT, .ro, false, 0, 3⟩, ⟨F.AFE_CHSTAT_DARK, .ro, false, 0, 1⟩, ⟨F.AFE_CHSTAT_RATE40, .ro, false, 0, 1⟩, ⟨F.AFE_CHSTAT_CAL_FB, .ro, false, 0, 1⟩]⟩
  | .AFE_SKEW01 => ⟨0x060108, .status, 16, 128, 1, 0, none, false, .nobody, .none, 0, 0,
    [⟨F.AFE_SKEW01_SKEW_S0, .ro, false, 0, 65535⟩, ⟨F.AFE_SKEW01_SKEW_S1, .ro, false, 0, 65535⟩]⟩
  | .AFE_SKEW23 => ⟨0x06010C, .status, 16, 128, 1, 0, none, false, .nobody, .none, 0, 0,
    [⟨F.AFE_SKEW23_SKEW_S2, .ro, false, 0, 65535⟩, ⟨F.AFE_SKEW23_SKEW_S3, .ro, false, 0, 65535⟩]⟩
  | .AFE_OFSA => ⟨0x060110, .status, 16, 128, 4, 16, none, false, .nobody, .none, 0, 0,
    [⟨F.AFE_OFSA_OFS_G1, .ro, false, 0, 65535⟩, ⟨F.AFE_OFSA_OFS_G4, .ro, false, 0, 65535⟩]⟩
  | .AFE_OFSB => ⟨0x060114, .status, 16, 128, 4, 16, none, false, .nobody, .none, 0, 0,
    [⟨F.AFE_OFSB_OFS_G16, .ro, false, 0, 65535⟩, ⟨F.AFE_OFSB_OFS_G64, .ro, false, 0, 65535⟩]⟩
  | .AFE_GNA => ⟨0x060118, .status, 16, 128, 4, 16, none, false, .nobody, .none, 0, 0,
    [⟨F.AFE_GNA_GN_G1, .ro, false, 0, 65535⟩, ⟨F.AFE_GNA_GN_G4, .ro, false, 0, 65535⟩]⟩
  | .AFE_GNB => ⟨0x06011C, .status, 16, 128, 4, 16, none, false, .nobody, .none, 0, 0,
    [⟨F.AFE_GNB_GN_G16, .ro, false, 0, 65535⟩, ⟨F.AFE_GNB_GN_G64, .ro, false, 0, 65535⟩]⟩
  | .AUX_CTL => ⟨0x061000, .control, 1, 0, 1, 0, none, false, .nobody, .core, 0, 0,
    [⟨F.AUX_CTL_RUN, .rw, false, 0, 1⟩, ⟨F.AUX_CTL_REFSEL, .rw, false, 0, 2⟩, ⟨F.AUX_CTL_LEN, .rw, false, 0, 24⟩]⟩
  | .AUX_GAP => ⟨0x061004, .control, 1, 0, 1, 0, none, false, .nobody, .core, 0, 0,
    [⟨F.AUX_GAP_GAP, .rw, false, 0, 65535⟩]⟩
  | .AUX_STAT => ⟨0x061008, .status, 1, 0, 1, 0, none, false, .nobody, .none, 0, 0,
    [⟨F.AUX_STAT_REF_OK, .ro, false, 0, 1⟩, ⟨F.AUX_STAT_RUNNING, .ro, false, 0, 1⟩, ⟨F.AUX_STAT_IN_GAP, .ro, false, 0, 1⟩, ⟨F.AUX_STAT_URG_BUSY, .ro, false, 0, 1⟩, ⟨F.AUX_STAT_PASS, .ro, false, 0, 65535⟩]⟩
  | .AUX_URG => ⟨0x06100C, .control, 1, 0, 1, 0, none, false, .everyone, .none, 0, 0,
    [⟨F.AUX_URG_INPUT, .rw, false, 0, 23⟩, ⟨F.AUX_URG_AVG, .rw, false, 0, 7⟩, ⟨F.AUX_URG_SHIFT, .rw, false, 0, 8⟩, ⟨F.AUX_URG_GO, .ws, false, 0, 1⟩]⟩
  | .AUX_URG_RES => ⟨0x061010, .status, 1, 0, 1, 0, none, false, .nobody, .none, 0, 0,
    [⟨F.AUX_URG_RES_VALUE, .ro, false, 0, 16777215⟩, ⟨F.AUX_URG_RES_VALID, .ro, false, 0, 1⟩, ⟨F.AUX_URG_RES_DONE, .rcf, false, 0, 1⟩]⟩
  | .AUX_URG_DROP => ⟨0x061014, .status, 1, 0, 1, 0, none, false, .nobody, .none, 0, 0,
    [⟨F.AUX_URG_DROP_DROP, .rcv, false, 0, 65535⟩]⟩
  | .AUX_SLOT => ⟨0x061100, .control, 24, 4, 1, 0, none, false, .nobody, .core, 0, 0,
    [⟨F.AUX_SLOT_INPUT, .rw, false, 0, 23⟩, ⟨F.AUX_SLOT_AVG, .rw, false, 0, 7⟩, ⟨F.AUX_SLOT_SHIFT, .rw, false, 0, 8⟩]⟩
  | .AUX_RES => ⟨0x061200, .status, 24, 4, 1, 0, none, false, .nobody, .none, 0, 0,
    [⟨F.AUX_RES_VALUE, .ro, false, 0, 16777215⟩, ⟨F.AUX_RES_VALID, .ro, false, 0, 1⟩, ⟨F.AUX_RES_PASS, .ro, false, 0, 127⟩]⟩
  | .FLT_CTL => ⟨0x070000, .control, 1, 0, 1, 0, none, false, .nobody, .core, 0, 0,
    [⟨F.FLT_CTL_FR_RATE, .rw, true, 0, 2⟩]⟩
  | .FLT_RESET => ⟨0x070004, .control, 1, 0, 1, 0, none, false, .nobody, .none, 0, 0,
    [⟨F.FLT_RESET_RESET, .ws, false, 0, 65535⟩]⟩
  | .FLT_STAT => ⟨0x070010, .status, 1, 0, 1, 0, none, false, .nobody, .none, 0, 0,
    [⟨F.FLT_STAT_SWAP_OVERRUN, .rcf, false, 0, 65535⟩, ⟨F.FLT_STAT_REJECT, .rcf, false, 0, 65535⟩]⟩
  | .FLT_FRSTAT => ⟨0x070014, .status, 1, 0, 1, 0, none, false, .nobody, .none, 0, 0,
    [⟨F.FLT_FRSTAT_RESYNC, .rcf, false, 0, 1⟩]⟩
  | .FLT_CWSEL => ⟨0x070020, .control, 1, 0, 1, 0, some .FLT_CWHI, false, .nobody, .none, 0, 0,
    [⟨F.FLT_CWSEL_TAP, .rw, false, 0, 95⟩, ⟨F.FLT_CWSEL_BANK, .rw, false, 0, 1⟩, ⟨F.FLT_CWSEL_CH, .rw, false, 0, 15⟩]⟩
  | .FLT_CWLO => ⟨0x070024, .control, 1, 0, 1, 0, some .FLT_CWHI, false, .nobody, .none, 0, 0,
    [⟨F.FLT_CWLO_COEF_LO, .rw, false, 0, 65535⟩]⟩
  | .FLT_CWHI => ⟨0x070028, .control, 1, 0, 1, 0, some .FLT_CWHI, false, .nobody, .none, 0, 0,
    [⟨F.FLT_CWHI_COEF_HI, .rw, false, 0, 255⟩]⟩
  | .FLT_CRD => ⟨0x07002C, .status, 1, 0, 1, 0, none, false, .nobody, .none, 0, 0,
    [⟨F.FLT_CRD_COEF, .ro, false, 0, 16777215⟩]⟩
  | .FLT_PITS0 => ⟨0x070030, .status, 1, 0, 1, 0, none, false, .nobody, .core, 0, 0,
    [⟨F.FLT_PITS0_ANGSET, .ro, false, 0, 4294967295⟩]⟩
  | .FLT_PITS1 => ⟨0x070034, .status, 1, 0, 1, 0, none, false, .nobody, .core, 0, 0,
    [⟨F.FLT_PITS1_FRSET0, .ro, false, 0, 15⟩, ⟨F.FLT_PITS1_FRSET1, .ro, false, 0, 15⟩]⟩
  | .FLT_CHCTL => ⟨0x070100, .control, 16, 64, 1, 0, none, false, .nobody, .channel, 0, 0,
    [⟨F.FLT_CHCTL_RUN, .rw, false, 0, 1⟩, ⟨F.FLT_CHCTL_ANG_EN, .rw, true, 0, 1⟩, ⟨F.FLT_CHCTL_CLK, .rw, true, 0, 3⟩, ⟨F.FLT_CHCTL_N, .rw, true, 0, 2⟩, ⟨F.FLT_CHCTL_FR_EN, .rw, true, 0, 1⟩, ⟨F.FLT_CHCTL_POL, .rw, true, 0, 1⟩, ⟨F.FLT_CHCTL_TEST, .rw, false, 0, 1⟩, ⟨F.FLT_CHCTL_DCB_FRZ, .rw, false, 0, 1⟩]⟩
  | .FLT_DCB => ⟨0x070104, .control, 16, 64, 1, 0, none, false, .nobody, .channel, 0, 0,
    [⟨F.FLT_DCB_FC, .rw, false, 5, 500⟩]⟩
  | .FLT_SWAP => ⟨0x070108, .control, 16, 64, 1, 0, none, false, .nobody, .none, 0, 0,
    [⟨F.FLT_SWAP_FADE, .rw, false, 0, 64⟩, ⟨F.FLT_SWAP_TARGET, .rw, false, 0, 1⟩, ⟨F.FLT_SWAP_GO, .ws, false, 0, 1⟩]⟩
  | .FLT_CHSTAT => ⟨0x070110, .status, 16, 64, 1, 0, none, false, .nobody, .none, 0, 0,
    [⟨F.FLT_CHSTAT_BANK, .ro, false, 0, 1⟩, ⟨F.FLT_CHSTAT_FADING, .ro, false, 0, 1⟩, ⟨F.FLT_CHSTAT_PENDING, .ro, false, 0, 1⟩, ⟨F.FLT_CHSTAT_PEND_TARGET, .ro, false, 0, 1⟩, ⟨F.FLT_CHSTAT_SETTLE, .ro, false, 0, 31⟩, ⟨F.FLT_CHSTAT_FAST, .ro, false, 0, 1⟩, ⟨F.FLT_CHSTAT_CLIP, .rcf, false, 0, 1⟩, ⟨F.FLT_CHSTAT_RESETS, .rcv, false, 0, 255⟩, ⟨F.FLT_CHSTAT_LAST_CAUSE, .ro, false, 0, 7⟩]⟩
  | .FLT_DCEST => ⟨0x070114, .status, 16, 64, 1, 0, none, false, .nobody, .none, 0, 0,
    [⟨F.FLT_DCEST_DCEST, .ro, false, 0, 4294967295⟩]⟩
  | .FLT_DECIDX => ⟨0x070120, .pair, 16, 64, 1, 0, none, false, .nobody, .none, 0, 1,
    [⟨F.FLT_DECIDX_IDX, .ro, false, 0, 18446744073709551615⟩]⟩
  | .SEAM_STAT => ⟨0x080000, .status, 1, 0, 1, 0, none, false, .nobody, .none, 0, 0,
    [⟨F.SEAM_STAT_OVR, .rcf, false, 0, 1⟩, ⟨F.SEAM_STAT_HALT, .ro, false, 0, 1⟩, ⟨F.SEAM_STAT_DUP_MIS, .rcf, false, 0, 1⟩, ⟨F.SEAM_STAT_GRP_OVERRUN, .rcf, false, 0, 1⟩, ⟨F.SEAM_STAT_SCHED_FULL, .rcf, false, 0, 1⟩, ⟨F.SEAM_STAT_GRP_REFUSED, .rcf, false, 0, 1⟩, ⟨F.SEAM_STAT_LATE, .rcv, false, 0, 65535⟩]⟩
  | .SEAM_GRP => ⟨0x080004, .control, 1, 0, 1, 0, none, false, .nobody, .none, 0, 0,
    [⟨F.SEAM_GRP_GROUP, .rw, false, 0, 7⟩, ⟨F.SEAM_GRP_GO, .ws, false, 0, 1⟩]⟩
  | .SEAM_GRP_STAT => ⟨0x080008, .status, 1, 0, 1, 0, none, false, .nobody, .none, 0, 0,
    [⟨F.SEAM_GRP_STAT_ACT, .ro, false, 0, 7⟩, ⟨F.SEAM_GRP_STAT_PENDING, .ro, false, 0, 1⟩, ⟨F.SEAM_GRP_STAT_PEND_GRP, .ro, false, 0, 7⟩, ⟨F.SEAM_GRP_STAT_SWITCHING, .ro, false, 0, 1⟩, ⟨F.SEAM_GRP_STAT_DEFINED, .ro, false, 0, 255⟩, ⟨F.SEAM_GRP_STAT_DOM_DONE, .ro, false, 0, 8191⟩]⟩
  | .SEAM_GRP_CNT => ⟨0x08000C, .status, 1, 0, 1, 0, none, false, .nobody, .none, 0, 0,
    [⟨F.SEAM_GRP_CNT_CNT, .ro, false, 0, 65535⟩]⟩
  | .SEAM_OVR => ⟨0x080010, .status, 4, 4, 1, 0, none, false, .nobody, .none, 0, 0,
    [⟨F.SEAM_OVR_OVR_LO, .rcf, false, 0, 4294967295⟩]⟩
  | .SEAM_HALT => ⟨0x080020, .status, 4, 4, 1, 0, none, false, .nobody, .none, 0, 0,
    [⟨F.SEAM_HALT_HALT_LO, .ro, false, 0, 4294967295⟩]⟩
  | .SEAM_DUP => ⟨0x080030, .status, 1, 0, 1, 0, none, false, .nobody, .none, 0, 0,
    [⟨F.SEAM_DUP_MIS, .rcv, false, 0, 65535⟩, ⟨F.SEAM_DUP_SINGLE, .ro, false, 0, 1⟩]⟩
  | .SEAM_DUPLAST => ⟨0x080034, .status, 1, 0, 1, 0, none, false, .nobody, .none, 0, 0,
    [⟨F.SEAM_DUPLAST_NODE, .ro, false, 0, 1048575⟩]⟩
  | .SEAM_LOADERR => ⟨0x080038, .status, 1, 0, 1, 0, none, false, .nobody, .none, 0, 0,
    [⟨F.SEAM_LOADERR_CODE, .ro, false, 0, 15⟩, ⟨F.SEAM_LOADERR_OFS, .ro, false, 0, 268435455⟩]⟩
  | .SEAM_OVRH => ⟨0x080040, .status, 4, 4, 1, 0, none, false, .nobody, .none, 0, 0,
    [⟨F.SEAM_OVRH_OVR_HI, .rcf, false, 0, 4294967295⟩]⟩
  | .SEAM_HALTH => ⟨0x080050, .status, 4, 4, 1, 0, none, false, .nobody, .none, 0, 0,
    [⟨F.SEAM_HALTH_HALT_HI, .ro, false, 0, 4294967295⟩]⟩
  | .SEAM_PADDR => ⟨0x080060, .pair, 1, 0, 1, 0, none, true, .everyone, .none, 0, 0,
    [⟨F.SEAM_PADDR_ADDR, .rw, false, 0, 1048575⟩]⟩
  | .SEAM_PVAL => ⟨0x080068, .pair, 1, 0, 1, 0, none, true, .nobody, .none, 1, 0,
    [⟨F.SEAM_PVAL_VALUE, .ro, false, 0, 18446744073709551615⟩]⟩
  | .SEAM_PMETA => ⟨0x080070, .status, 1, 0, 1, 0, none, true, .nobody, .none, 0, 0,
    [⟨F.SEAM_PMETA_QUAL, .ro, false, 0, 255⟩, ⟨F.SEAM_PMETA_TYPE, .ro, false, 0, 255⟩, ⟨F.SEAM_PMETA_HELD, .ro, false, 0, 1⟩]⟩
  | .SEAM_PSTEP => ⟨0x080074, .status, 1, 0, 1, 0, none, true, .nobody, .none, 0, 0,
    [⟨F.SEAM_PSTEP_STEP, .ro, false, 0, 4294967295⟩]⟩
  | .SEAM_HIN => ⟨0x080100, .data, 8, 4, 1, 0, none, false, .everyone, .none, 0, 0,
    [⟨F.SEAM_HIN_HIN, .rw, false, 0, 4294967295⟩]⟩
  | .SEAM_HOUT => ⟨0x080120, .status, 8, 4, 1, 0, none, false, .nobody, .none, 0, 0,
    [⟨F.SEAM_HOUT_HOUT, .ro, false, 0, 4294967295⟩]⟩
  | .SEAM_FSTAT => ⟨0x080800, .status, 256, 16, 1, 0, none, false, .nobody, .none, 0, 0,
    [⟨F.SEAM_FSTAT_STATE, .ro, false, 0, 3⟩, ⟨F.SEAM_FSTAT_DOMAIN, .ro, false, 0, 15⟩, ⟨F.SEAM_FSTAT_OVR, .rcf, false, 0, 1⟩, ⟨F.SEAM_FSTAT_LAG, .ro, false, 0, 255⟩, ⟨F.SEAM_FSTAT_MISS, .rcv, false, 0, 255⟩]⟩
  | .SEAM_FBUD => ⟨0x080804, .status, 256, 16, 1, 0, none, false, .nobody, .none, 0, 0,
    [⟨F.SEAM_FBUD_BUDGET, .ro, false, 0, 262143⟩]⟩
  | .SEAM_FMAX => ⟨0x080808, .status, 256, 16, 1, 0, none, false, .nobody, .none, 0, 0,
    [⟨F.SEAM_FMAX_MAXCYC, .rcv, false, 0, 1048575⟩]⟩
  | .SEAM_FSTEP => ⟨0x08080C, .status, 256, 16, 1, 0, none, false, .nobody, .none, 0, 0,
    [⟨F.SEAM_FSTEP_STEP, .ro, false, 0, 4294967295⟩]⟩
  | .TWU_STAT => ⟨0x090000, .status, 1, 0, 1, 0, none, false, .nobody, .none, 0, 0,
    [⟨F.TWU_STAT_EVENT, .rcf, false, 0, 15⟩, ⟨F.TWU_STAT_SE_DONE, .rcf, false, 0, 15⟩, ⟨F.TWU_STAT_DE_DONE, .rcf, false, 0, 15⟩]⟩
  | .TWU_FARCNT => ⟨0x090004, .status, 1, 0, 1, 0, none, false, .nobody, .none, 0, 0,
    [⟨F.TWU_FARCNT_UNMATCHED, .rcv, false, 0, 65535⟩, ⟨F.TWU_FARCNT_DUP, .rcv, false, 0, 65535⟩]⟩
  | .TWU_FARCAL => ⟨0x090010, .pair, 1, 0, 1, 0, none, false, .everyone, .none, 4, 0,
    [⟨F.TWU_FARCAL_CAL, .rw, false, 0, 18446744073709551615⟩]⟩
  | .TWU_FARGO => ⟨0x090018, .control, 1, 0, 1, 0, none, false, .everyone, .none, 0, 0,
    [⟨F.TWU_FARGO_FRAC, .rw, false, 0, 19⟩, ⟨F.TWU_FARGO_GROUP, .rw, false, 0, 3⟩, ⟨F.TWU_FARGO_POL, .rw, false, 0, 1⟩, ⟨F.TWU_FARGO_LOCKED, .rw, false, 0, 1⟩, ⟨F.TWU_FARGO_GO, .ws, false, 0, 1⟩]⟩
  | .TWU_EVSEL => ⟨0x090020, .control, 1, 0, 1, 0, none, false, .everyone, .none, 0, 0,
    [⟨F.TWU_EVSEL_GROUP, .rw, false, 0, 3⟩, ⟨F.TWU_EVSEL_INDEX, .rw, false, 0, 15⟩]⟩
  | .TWU_EVARR => ⟨0x090028, .pair, 1, 0, 1, 0, none, false, .nobody, .none, 5, 0,
    [⟨F.TWU_EVARR_ARR, .ro, false, 0, 18446744073709551615⟩]⟩
  | .TWU_EVATTR => ⟨0x090030, .status, 1, 0, 1, 0, none, false, .nobody, .none, 0, 0,
    [⟨F.TWU_EVATTR_HEIGHT, .ro, false, 0, 524287⟩, ⟨F.TWU_EVATTR_CLIP, .ro, false, 0, 1⟩, ⟨F.TWU_EVATTR_MODE, .ro, false, 0, 1⟩, ⟨F.TWU_EVATTR_GROUND, .ro, false, 0, 1⟩, ⟨F.TWU_EVATTR_REFL, .ro, false, 0, 1⟩, ⟨F.TWU_EVATTR_NARR, .ro, false, 0, 31⟩]⟩
  | .TWU_GCTL => ⟨0x090100, .control, 4, 64, 1, 0, some .TWU_GCTL, false, .nobody, .core, 0, 0,
    [⟨F.TWU_GCTL_EN, .rw, true, 0, 1⟩, ⟨F.TWU_GCTL_SE_EN, .rw, false, 0, 1⟩, ⟨F.TWU_GCTL_DE_EN, .rw, false, 0, 1⟩, ⟨F.TWU_GCTL_SE_POL, .rw, false, 0, 1⟩, ⟨F.TWU_GCTL_PITS, .rw, true, 0, 15⟩]⟩
  | .TWU_GCH => ⟨0x090104, .control, 4, 64, 1, 0, some .TWU_GCTL, false, .nobody, .core, 0, 0,
    [⟨F.TWU_GCH_CHA, .rw, true, 0, 15⟩, ⟨F.TWU_GCH_CHB, .rw, true, 0, 15⟩, ⟨F.TWU_GCH_CHC, .rw, true, 0, 15⟩]⟩
  | .TWU_GTHR => ⟨0x090108, .control, 4, 64, 1, 0, some .TWU_GCTL, false, .nobody, .core, 0, 0,
    [⟨F.TWU_GTHR_THR, .rw, false, 16, 32767⟩]⟩
  | .TWU_GDLY => ⟨0x09010C, .control, 4, 64, 1, 0, some .TWU_GCTL, false, .nobody, .core, 0, 0,
    [⟨F.TWU_GDLY_D, .rw, false, 2, 15⟩, ⟨F.TWU_GDLY_BLIND, .rw, false, 0, 255⟩]⟩
  | .TWU_GVLO => ⟨0x090110, .control, 4, 64, 1, 0, some .TWU_GCTL, false, .nobody, .core, 0, 0,
    [⟨F.TWU_GVLO_VEL_LO, .rw, false, 0, 65535⟩]⟩
  | .TWU_GVHI => ⟨0x090114, .control, 4, 64, 1, 0, some .TWU_GCTL, false, .nobody, .core, 0, 0,
    [⟨F.TWU_GVHI_VEL_HI, .rw, false, 0, 7⟩]⟩
  | .TWU_GLLO => ⟨0x090118, .control, 4, 64, 1, 0, some .TWU_GCTL, false, .nobody, .core, 0, 0,
    [⟨F.TWU_GLLO_LEN_LO, .rw, false, 0, 65535⟩]⟩
  | .TWU_GLHI => ⟨0x09011C, .control, 4, 64, 1, 0, some .TWU_GCTL, false, .nobody, .core, 0, 0,
    [⟨F.TWU_GLHI_LEN_HI, .rw, false, 0, 3⟩]⟩
  | .TWU_GWIN => ⟨0x090120, .control, 4, 64, 1, 0, some .TWU_GCTL, false, .nobody, .core, 0, 0,
    [⟨F.TWU_GWIN_TWIN, .rw, false, 10, 2000⟩]⟩
  | .TWU_GRFR => ⟨0x090124, .control, 4, 64, 1, 0, some .TWU_GCTL, false, .nobody, .core, 0, 0,
    [⟨F.TWU_GRFR_RFRAC, .rw, false, 1, 255⟩]⟩
  | .TWU_GHOLD => ⟨0x090128, .control, 4, 64, 1, 0, some .TWU_GCTL, false, .nobody, .core, 0, 0,
    [⟨F.TWU_GHOLD_EVHOLD, .rw, false, 1, 1000⟩]⟩
  | .TWU_GSTAT => ⟨0x09012C, .status, 4, 64, 1, 0, none, false, .nobody, .none, 0, 0,
    [⟨F.TWU_GSTAT_IN_EVENT, .ro, false, 0, 1⟩, ⟨F.TWU_GSTAT_READY, .ro, false, 0, 1⟩, ⟨F.TWU_GSTAT_GAP, .rcf, false, 0, 1⟩, ⟨F.TWU_GSTAT_CLIP, .rcf, false, 0, 1⟩, ⟨F.TWU_GSTAT_OFFLINE, .ro, false, 0, 1⟩, ⟨F.TWU_GSTAT_EVENTS, .rcv, false, 0, 65535⟩]⟩
  | .TWU_GSE => ⟨0x090130, .status, 4, 64, 1, 0, none, false, .nobody, .none, 0, 0,
    [⟨F.TWU_GSE_DIST, .ro, false, 0, 262143⟩, ⟨F.TWU_GSE_STATUS, .ro, false, 0, 7⟩, ⟨F.TWU_GSE_EVSEQ, .ro, false, 0, 2047⟩]⟩
  | .TWU_GDE => ⟨0x090134, .status, 4, 64, 1, 0, none, false, .nobody, .none, 0, 0,
    [⟨F.TWU_GDE_DIST, .ro, false, 0, 262143⟩, ⟨F.TWU_GDE_STATUS, .ro, false, 0, 7⟩, ⟨F.TWU_GDE_EVSEQ, .ro, false, 0, 2047⟩]⟩
  | .TWU_GARR => ⟨0x090138, .pair, 4, 64, 1, 0, none, false, .nobody, .none, 0, 1,
    [⟨F.TWU_GARR_ARR, .ro, false, 0, 18446744073709551615⟩]⟩
  | .ASY_STAT => ⟨0x0A0000, .status, 1, 0, 1, 0, none, false, .nobody, .none, 0, 0,
    [⟨F.ASY_STAT_SEG_DONE, .rcf, false, 0, 255⟩, ⟨F.ASY_STAT_STOPPED, .rcf, false, 0, 255⟩, ⟨F.ASY_STAT_LOST, .rcf, false, 0, 255⟩, ⟨F.ASY_STAT_VIOL, .rcf, false, 0, 255⟩]⟩
  | .ASY_SQSEL => ⟨0x0A0010, .control, 1, 0, 1, 0, some .ASY_SQW3, false, .nobody, .core, 0, 0,
    [⟨F.ASY_SQSEL_SEQ, .rw, false, 0, 7⟩, ⟨F.ASY_SQSEL_STATE, .rw, false, 0, 15⟩, ⟨F.ASY_SQSEL_ITEM, .rw, false, 0, 11⟩]⟩
  | .ASY_SQW0 => ⟨0x0A0014, .control, 1, 0, 1, 0, some .ASY_SQW3, false, .nobody, .core, 0, 0,
    [⟨F.ASY_SQW0_W, .rw, false, 0, 65535⟩]⟩
  | .ASY_SQW1 => ⟨0x0A0018, .control, 1, 0, 1, 0, some .ASY_SQW3, false, .nobody, .core, 0, 0,
    [⟨F.ASY_SQW1_W, .rw, false, 0, 65535⟩]⟩
  | .ASY_SQW2 => ⟨0x0A001C, .control, 1, 0, 1, 0, some .ASY_SQW3, false, .nobody, .core, 0, 0,
    [⟨F.ASY_SQW2_W, .rw, false, 0, 65535⟩]⟩
  | .ASY_SQW3 => ⟨0x0A0020, .control, 1, 0, 1, 0, some .ASY_SQW3, false, .nobody, .core, 0, 0,
    [⟨F.ASY_SQW3_W, .rw, false, 0, 65535⟩]⟩
  | .ASY_SQRD => ⟨0x0A0028, .pair, 1, 0, 1, 0, none, false, .nobody, .none, 0, 0,
    [⟨F.ASY_SQRD_ITEM, .ro, false, 0, 18446744073709551615⟩]⟩
  | .ASY_SQCTL => ⟨0x0A0100, .control, 8, 16, 1, 0, none, false, .everyone, .none, 0, 0,
    [⟨F.ASY_SQCTL_RUN, .rw, false, 0, 1⟩, ⟨F.ASY_SQCTL_RESTART, .ws, false, 0, 1⟩]⟩
  | .ASY_SQSTAT => ⟨0x0A0104, .status, 8, 16, 1, 0, none, false, .nobody, .none, 0, 0,
    [⟨F.ASY_SQSTAT_STATE, .ro, false, 0, 15⟩, ⟨F.ASY_SQSTAT_RUNNING, .ro, false, 0, 1⟩, ⟨F.ASY_SQSTAT_TRANS, .rcv, false, 0, 255⟩, ⟨F.ASY_SQSTAT_TRIGS, .rcv, false, 0, 65535⟩]⟩
  | .ASY_RCMP => ⟨0x0A0200, .control, 16, 16, 1, 0, none, false, .nobody, .core, 0, 0,
    [⟨F.ASY_RCMP_EN, .rw, false, 0, 1⟩, ⟨F.ASY_RCMP_CH, .rw, false, 0, 15⟩, ⟨F.ASY_RCMP_EDGE, .rw, false, 0, 2⟩]⟩
  | .ASY_RTHR => ⟨0x0A0204, .control, 16, 16, 1, 0, none, false, .nobody, .core, 0, 0,
    [⟨F.ASY_RTHR_THR, .rw, false, 0, 65535⟩]⟩
  | .ASY_RHYS => ⟨0x0A0208, .control, 16, 16, 1, 0, none, false, .nobody, .core, 0, 0,
    [⟨F.ASY_RHYS_HYST, .rw, false, 0, 32767⟩]⟩
  | .ASY_RCNT => ⟨0x0A020C, .status, 16, 16, 1, 0, none, false, .nobody, .none, 0, 0,
    [⟨F.ASY_RCNT_CROSS, .rcv, false, 0, 65535⟩, ⟨F.ASY_RCNT_EXTRA, .rcv, false, 0, 65535⟩]⟩
  | .ASY_ACTL => ⟨0x0A0400, .control, 8, 64, 1, 0, some .ASY_ACTL, false, .nobody, .core, 0, 0,
    [⟨F.ASY_ACTL_RUN, .rw, false, 0, 1⟩, ⟨F.ASY_ACTL_KIND, .rw, true, 0, 1⟩, ⟨F.ASY_ACTL_FULL, .rw, false, 0, 1⟩, ⟨F.ASY_ACTL_RESTART, .ws, false, 0, 1⟩]⟩
  | .ASY_ALENLO => ⟨0x0A0404, .control, 8, 64, 1, 0, some .ASY_ACTL, false, .nobody, .core, 0, 0,
    [⟨F.ASY_ALENLO_LEN_LO, .rw, false, 0, 65535⟩]⟩
  | .ASY_ALENHI => ⟨0x0A0408, .control, 8, 64, 1, 0, some .ASY_ACTL, false, .nobody, .core, 0, 0,
    [⟨F.ASY_ALENHI_LEN_HI, .rw, false, 0, 1023⟩]⟩
  | .ASY_APOSTLO => ⟨0x0A040C, .control, 8, 64, 1, 0, some .ASY_ACTL, false, .nobody, .core, 0, 0,
    [⟨F.ASY_APOSTLO_POST_LO, .rw, false, 0, 65535⟩]⟩
  | .ASY_APOSTHI => ⟨0x0A0410, .control, 8, 64, 1, 0, some .ASY_ACTL, false, .nobody, .core, 0, 0,
    [⟨F.ASY_APOSTHI_POST_HI, .rw, false, 0, 1023⟩]⟩
  | .ASY_ASEL => ⟨0x0A0414, .control, 8, 64, 1, 0, some .ASY_ACTL, false, .nobody, .core, 0, 0,
    [⟨F.ASY_ASEL_SEL, .rw, false, 0, 65535⟩]⟩
  | .ASY_AFIRST => ⟨0x0A0418, .control, 8, 64, 1, 0, some .ASY_ACTL, false, .nobody, .core, 0, 0,
    [⟨F.ASY_AFIRST_FIRST, .rw, false, 0, 4095⟩]⟩
  | .ASY_ASEGS => ⟨0x0A041C, .control, 8, 64, 1, 0, some .ASY_ACTL, false, .nobody, .core, 0, 0,
    [⟨F.ASY_ASEGS_SEGS, .rw, false, 1, 4096⟩]⟩
  | .ASY_ABASE => ⟨0x0A0420, .control, 8, 64, 1, 0, some .ASY_ACTL, false, .nobody, .core, 0, 0,
    [⟨F.ASY_ABASE_ABASE, .rw, false, 0, 4095⟩]⟩
  | .ASY_ASIZE => ⟨0x0A0424, .control, 8, 64, 1, 0, some .ASY_ACTL, false, .nobody, .core, 0, 0,
    [⟨F.ASY_ASIZE_ASIZE, .rw, false, 0, 4095⟩]⟩
  | .ASY_ARIDX => ⟨0x0A0428, .control, 8, 64, 1, 0, none, false, .everyone, .none, 0, 0,
    [⟨F.ASY_ARIDX_RIDX, .rw, false, 0, 8191⟩]⟩
  | .ASY_ASTAT => ⟨0x0A042C, .status, 8, 64, 1, 0, none, false, .nobody, .none, 0, 0,
    [⟨F.ASY_ASTAT_STATE, .ro, false, 0, 7⟩, ⟨F.ASY_ASTAT_POSTCLIP, .ro, false, 0, 1⟩, ⟨F.ASY_ASTAT_WIDX, .ro, false, 0, 8191⟩]⟩
  | .ASY_ACNT => ⟨0x0A0430, .status, 8, 64, 1, 0, none, false, .nobody, .none, 0, 0,
    [⟨F.ASY_ACNT_REFUSED, .rcv, false, 0, 65535⟩, ⟨F.ASY_ACNT_LOST, .rcv, false, 0, 65535⟩]⟩
  | .ASY_MKCTL => ⟨0x0A0800, .control, 8, 16, 1, 0, some .ASY_MKCTL, false, .nobody, .core, 0, 0,
    [⟨F.ASY_MKCTL_EN, .rw, false, 0, 1⟩, ⟨F.ASY_MKCTL_STOP, .rw, false, 0, 1⟩, ⟨F.ASY_MKCTL_AREA, .rw, false, 0, 7⟩, ⟨F.ASY_MKCTL_VCNT, .rw, false, 1, 15⟩]⟩
  | .ASY_MKPLO => ⟨0x0A0804, .control, 8, 16, 1, 0, some .ASY_MKCTL, false, .nobody, .core, 0, 0,
    [⟨F.ASY_MKPLO_ADDR_LO, .rw, false, 0, 65535⟩]⟩
  | .ASY_MKPHI => ⟨0x0A0808, .control, 8, 16, 1, 0, some .ASY_MKCTL, false, .nobody, .core, 0, 0,
    [⟨F.ASY_MKPHI_ADDR_HI, .rw, false, 0, 15⟩]⟩
  | .ASY_MKSTAT => ⟨0x0A080C, .status, 8, 16, 1, 0, none, false, .nobody, .none, 0, 0,
    [⟨F.ASY_MKSTAT_VIOL, .rcv, false, 0, 65535⟩, ⟨F.ASY_MKSTAT_HOLDOFF, .ro, false, 0, 1⟩]⟩
  | .ASY_ENVSEL => ⟨0x0A0900, .control, 1, 0, 1, 0, some .ASY_ENVHI, false, .nobody, .core, 0, 0,
    [⟨F.ASY_ENVSEL_MASK, .rw, false, 0, 7⟩, ⟨F.ASY_ENVSEL_IDX, .rw, false, 0, 255⟩, ⟨F.ASY_ENVSEL_UL, .rw, false, 0, 1⟩]⟩
  | .ASY_ENVLO => ⟨0x0A0904, .control, 1, 0, 1, 0, some .ASY_ENVHI, false, .nobody, .core, 0, 0,
    [⟨F.ASY_ENVLO_LIM_LO, .rw, false, 0, 65535⟩]⟩
  | .ASY_ENVHI => ⟨0x0A0908, .control, 1, 0, 1, 0, some .ASY_ENVHI, false, .nobody, .core, 0, 0,
    [⟨F.ASY_ENVHI_LIM_HI, .rw, false, 0, 65535⟩]⟩
  | .ASY_TBASE => ⟨0x0A0A00, .control, 1, 0, 1, 0, none, false, .nobody, .core, 0, 0,
    [⟨F.ASY_TBASE_TBASE, .rw, false, 0, 4095⟩]⟩
  | .ASY_TSIZE => ⟨0x0A0A04, .control, 1, 0, 1, 0, none, false, .nobody, .core, 0, 0,
    [⟨F.ASY_TSIZE_TSIZE, .rw, false, 0, 4095⟩]⟩
  | .ASY_TCNT => ⟨0x0A0A08, .status, 1, 0, 1, 0, none, false, .nobody, .none, 0, 0,
    [⟨F.ASY_TCNT_LOST, .rcv, false, 0, 65535⟩]⟩
  | .ASY_TWR => ⟨0x0A0A10, .pair, 1, 0, 1, 0, none, false, .nobody, .none, 1, 0,
    [⟨F.ASY_TWR_WRITTEN, .ro, false, 0, 18446744073709551615⟩]⟩
  | .ASY_TCTL => ⟨0x0A0A40, .control, 32, 16, 1, 0, some .ASY_TCTL, false, .nobody, .core, 0, 0,
    [⟨F.ASY_TCTL_EN, .rw, false, 0, 1⟩, ⟨F.ASY_TCTL_UNIT, .rw, false, 0, 1⟩]⟩
  | .ASY_TSRC => ⟨0x0A0A44, .control, 32, 16, 1, 0, some .ASY_TCTL, false, .nobody, .core, 0, 0,
    [⟨F.ASY_TSRC_SRC, .rw, false, 0, 4095⟩]⟩
  | .ASY_TIVAL => ⟨0x0A0A48, .control, 32, 16, 1, 0, some .ASY_TCTL, false, .nobody, .core, 0, 0,
    [⟨F.ASY_TIVAL_TIVAL, .rw, false, 0, 32767⟩]⟩
  | .TLY_STAT => ⟨0x0B0000, .status, 1, 0, 1, 0, none, false, .nobody, .none, 0, 0,
    [⟨F.TLY_STAT_NEAR_OK, .ro, false, 0, 1⟩, ⟨F.TLY_STAT_FAR_OK, .ro, false, 0, 1⟩, ⟨F.TLY_STAT_LOGLOSS, .ro, false, 0, 1⟩, ⟨F.TLY_STAT_FAR_READY, .ro, false, 0, 1⟩, ⟨F.TLY_STAT_BROKEN, .rcf, false, 0, 255⟩, ⟨F.TLY_STAT_FROZEN, .ro, false, 0, 255⟩, ⟨F.TLY_STAT_LATE, .rcf, false, 0, 1⟩]⟩
  | .TLY_LOST => ⟨0x0B0004, .status, 1, 0, 1, 0, none, false, .nobody, .none, 0, 0,
    [⟨F.TLY_LOST_DISCARD, .rcv, false, 0, 65535⟩, ⟨F.TLY_LOST_LATE_N, .rcv, false, 0, 65535⟩]⟩
  | .TLY_NEAR => ⟨0x0B0008, .status, 1, 0, 1, 0, none, false, .nobody, .none, 0, 0,
    [⟨F.TLY_NEAR_CAUSE, .ro, false, 0, 15⟩]⟩
  | .TLY_FAR => ⟨0x0B000C, .status, 1, 0, 1, 0, none, false, .nobody, .none, 0, 0,
    [⟨F.TLY_FAR_CAUSE, .ro, false, 0, 15⟩, ⟨F.TLY_FAR_SPARE, .ro, false, 0, 65535⟩]⟩
  | .TLY_OPSEC => ⟨0x0B0010, .status, 1, 0, 1, 0, none, false, .nobody, .none, 0, 0,
    [⟨F.TLY_OPSEC_OPSEC, .ro, false, 0, 4294967295⟩]⟩
  | .TLY_PCYC => ⟨0x0B0014, .status, 1, 0, 1, 0, none, false, .nobody, .none, 0, 0,
    [⟨F.TLY_PCYC_PCYC, .ro, false, 0, 16777215⟩]⟩
  | .TLY_BACKLOG => ⟨0x0B0018, .status, 1, 0, 1, 0, none, false, .nobody, .none, 0, 0,
    [⟨F.TLY_BACKLOG_FAR, .ro, false, 0, 65535⟩, ⟨F.TLY_BACKLOG_MERGE, .ro, false, 0, 65535⟩]⟩
  | .TLY_CHCTL => ⟨0x0B0100, .control, 8, 32, 1, 0, some .TLY_CHCTL, false, .nobody, .core, 0, 0,
    [⟨F.TLY_CHCTL_EN, .rw, true, 0, 1⟩, ⟨F.TLY_CHCTL_CLASS, .rw, true, 0, 1⟩]⟩
  | .TLY_NREG => ⟨0x0B0104, .control, 8, 32, 1, 0, some .TLY_CHCTL, false, .nobody, .core, 0, 0,
    [⟨F.TLY_NREG_NBASE, .rw, true, 0, 191⟩, ⟨F.TLY_NREG_NSIZE, .rw, true, 1, 192⟩]⟩
  | .TLY_FBASE => ⟨0x0B0108, .control, 8, 32, 1, 0, some .TLY_CHCTL, false, .nobody, .core, 0, 0,
    [⟨F.TLY_FBASE_FBASE, .rw, true, 0, 4095⟩]⟩
  | .TLY_FSIZE => ⟨0x0B010C, .control, 8, 32, 1, 0, some .TLY_CHCTL, false, .nobody, .core, 0, 0,
    [⟨F.TLY_FSIZE_FSIZE, .rw, true, 1, 4096⟩]⟩
  | .TLY_CHSEL => ⟨0x0B0110, .control, 8, 32, 1, 0, some .TLY_CHCTL, false, .nobody, .core, 0, 0,
    [⟨F.TLY_CHSEL_GROUPS, .rw, false, 0, 65535⟩]⟩
  | .TLY_CHTRG => ⟨0x0B0114, .control, 8, 32, 1, 0, some .TLY_CHCTL, false, .nobody, .core, 0, 0,
    [⟨F.TLY_CHTRG_TRG, .rw, false, 0, 65535⟩]⟩
  | .TLY_FRZ => ⟨0x0B0118, .control, 8, 32, 1, 0, none, false, .everyone, .none, 0, 0,
    [⟨F.TLY_FRZ_FREEZE, .rw, false, 0, 1⟩, ⟨F.TLY_FRZ_STRIG, .ws, false, 0, 1⟩]⟩
  | .TLY_CHSTAT => ⟨0x0B0200, .status, 8, 16, 1, 0, none, false, .nobody, .none, 0, 0,
    [⟨F.TLY_CHSTAT_FROZEN, .ro, false, 0, 1⟩, ⟨F.TLY_CHSTAT_SIDE, .ro, false, 0, 2047⟩, ⟨F.TLY_CHSTAT_SNAP_SKIP, .rcv, false, 0, 255⟩]⟩
  | .TLY_GEN => ⟨0x0B0204, .status, 8, 16, 1, 0, none, false, .nobody, .none, 0, 0,
    [⟨F.TLY_GEN_GEN, .ro, false, 0, 65535⟩, ⟨F.TLY_GEN_LISTGEN, .ro, false, 0, 65535⟩]⟩
  | .TLY_WSEQ => ⟨0x0B0208, .status, 8, 16, 1, 0, none, false, .nobody, .none, 0, 0,
    [⟨F.TLY_WSEQ_WSEQ, .ro, false, 0, 4294967295⟩]⟩
  | .TLY_OSEQ => ⟨0x0B020C, .status, 8, 16, 1, 0, none, false, .nobody, .none, 0, 0,
    [⟨F.TLY_OSEQ_OSEQ, .ro, false, 0, 4294967295⟩]⟩
  | .TLY_SNLO => ⟨0x0B0400, .control, 8, 128, 16, 8, some .TLY_SNHI, false, .nobody, .core, 0, 0,
    [⟨F.TLY_SNLO_ADDR_LO, .rw, false, 0, 65535⟩]⟩
  | .TLY_SNHI => ⟨0x0B0404, .control, 8, 128, 16, 8, some .TLY_SNHI, false, .nobody, .core, 0, 0,
    [⟨F.TLY_SNHI_ADDR_HI, .rw, false, 0, 31⟩, ⟨F.TLY_SNHI_EN, .rw, false, 0, 1⟩]⟩
  | .FIO_STAT => ⟨0x0C0000, .status, 1, 0, 1, 0, none, false, .nobody, .none, 0, 0,
    [⟨F.FIO_STAT_BANK_FAULT, .ro, false, 0, 15⟩, ⟨F.FIO_STAT_BANK_FLT_S, .rcf, false, 0, 15⟩, ⟨F.FIO_STAT_SILENT, .ro, false, 0, 15⟩, ⟨F.FIO_STAT_INTG_REJ, .rcf, false, 0, 15⟩, ⟨F.FIO_STAT_SCHED_LATE, .rcf, false, 0, 1⟩, ⟨F.FIO_STAT_SCHED_RANGE, .rcf, false, 0, 1⟩]⟩
  | .FIO_GATE => ⟨0x0C0004, .status, 1, 0, 1, 0, none, false, .nobody, .none, 0, 0,
    [⟨F.FIO_GATE_OPEN, .ro, false, 0, 1⟩, ⟨F.FIO_GATE_TESTOUT, .ro, false, 0, 1⟩, ⟨F.FIO_GATE_HOLDING, .ro, false, 0, 1⟩, ⟨F.FIO_GATE_SAFE, .ro, false, 0, 1⟩]⟩
  | .FIO_INTG => ⟨0x0C0008, .control, 1, 0, 1, 0, none, false, .everyone, .none, 0, 0,
    [⟨F.FIO_INTG_BANK, .rw, false, 0, 3⟩, ⟨F.FIO_INTG_GO, .ws, false, 0, 1⟩]⟩
  | .FIO_CLRSEL => ⟨0x0C000C, .control, 1, 0, 1, 0, some .FIO_CLRMASK, false, .everyone, .none, 0, 0,
    [⟨F.FIO_CLRSEL_BANK, .rw, false, 0, 3⟩]⟩
  | .FIO_CLRMASK => ⟨0x0C0010, .control, 1, 0, 1, 0, some .FIO_CLRMASK, false, .everyone, .none, 0, 0,
    [⟨F.FIO_CLRMASK_MASK, .ws, false, 0, 65535⟩]⟩
  | .FIO_CNY => ⟨0x0C0020, .status, 1, 0, 1, 0, none, false, .nobody, .none, 0, 0,
    [⟨F.FIO_CNY_OP, .rcf, false, 0, 65535⟩, ⟨F.FIO_CNY_ARMED, .ro, false, 0, 1⟩, ⟨F.FIO_CNY_KEEP, .ro, false, 0, 1⟩, ⟨F.FIO_CNY_TLOCK, .ro, false, 0, 1⟩, ⟨F.FIO_CNY_CHECK_FAIL, .ro, false, 0, 1⟩]⟩
  | .FIO_SCHED => ⟨0x0C0024, .status, 1, 0, 1, 0, none, false, .nobody, .none, 0, 0,
    [⟨F.FIO_SCHED_PENDING, .ro, false, 0, 255⟩, ⟨F.FIO_SCHED_EXEC, .rcv, false, 0, 65535⟩]⟩
  | .FIO_PCFG => ⟨0x0C0100, .control, 64, 4, 1, 0, none, false, .nobody, .pin, 0, 0,
    [⟨F.FIO_PCFG_DIR, .rw, true, 0, 1⟩, ⟨F.FIO_PCFG_TYPE, .rw, false, 0, 1⟩, ⟨F.FIO_PCFG_WB, .rw, false, 0, 1⟩, ⟨F.FIO_PCFG_FILT, .rw, false, 0, 7⟩, ⟨F.FIO_PCFG_LOG, .rw, false, 0, 1⟩]⟩
  | .FIO_BSTAT => ⟨0x0C0200, .status, 4, 64, 1, 0, none, false, .nobody, .none, 0, 0,
    [⟨F.FIO_BSTAT_FLAGS, .ro, false, 0, 63⟩, ⟨F.FIO_BSTAT_INTG_BUSY, .ro, false, 0, 1⟩, ⟨F.FIO_BSTAT_INTG_DONE, .rcf, false, 0, 1⟩, ⟨F.FIO_BSTAT_INTG_FAIL, .rcf, false, 0, 1⟩, ⟨F.FIO_BSTAT_OFFLINE, .ro, false, 0, 1⟩]⟩
  | .FIO_LEVEL => ⟨0x0C0204, .status, 4, 64, 1, 0, none, false, .nobody, .none, 0, 0,
    [⟨F.FIO_LEVEL_LEVEL, .ro, false, 0, 65535⟩, ⟨F.FIO_LEVEL_BRK, .ro, false, 0, 65535⟩]⟩
  | .FIO_DRV => ⟨0x0C0208, .status, 4, 64, 1, 0, none, false, .nobody, .none, 0, 0,
    [⟨F.FIO_DRV_DRV, .ro, false, 0, 65535⟩, ⟨F.FIO_DRV_CANARY, .ro, false, 0, 65535⟩]⟩
  | .FIO_CNT => ⟨0x0C020C, .status, 4, 64, 1, 0, none, false, .nobody, .none, 0, 0,
    [⟨F.FIO_CNT_CRC, .rcv, false, 0, 65535⟩, ⟨F.FIO_CNT_SILENCES, .rcv, false, 0, 255⟩, ⟨F.FIO_CNT_EVENTS, .rcv, false, 0, 255⟩]⟩
  | .FIO_CAUSE => ⟨0x0C0210, .pair, 4, 64, 1, 0, none, false, .nobody, .none, 0, 1,
    [⟨F.FIO_CAUSE_CAUSE, .ro, false, 0, 18446744073709551615⟩]⟩
  | .DMA_STAT => ⟨0x0D0000, .status, 1, 0, 1, 0, none, false, .nobody, .none, 0, 0,
    [⟨F.DMA_STAT_ERR, .rcf, false, 0, 255⟩, ⟨F.DMA_STAT_STARVE, .rcf, false, 0, 255⟩, ⟨F.DMA_STAT_PERST, .rcf, false, 0, 1⟩, ⟨F.DMA_STAT_LINKDOWN, .rcf, false, 0, 1⟩]⟩
  | .DMA_LINK => ⟨0x0D0008, .status, 1, 0, 1, 0, none, false, .nobody, .none, 0, 0,
    [⟨F.DMA_LINK_UP, .ro, false, 0, 1⟩, ⟨F.DMA_LINK_SPEED, .ro, false, 0, 3⟩, ⟨F.DMA_LINK_WIDTH, .ro, false, 0, 3⟩, ⟨F.DMA_LINK_STRAP, .ro, false, 0, 7⟩]⟩
  | .DMA_B2AP => ⟨0x0D0010, .control, 3, 4, 1, 0, none, false, .hostDma, .none, 0, 0,
    [⟨F.DMA_B2AP_BASE, .rw, false, 0, 191⟩]⟩
  | .DMA_MVCTL => ⟨0x0D0100, .control, 8, 64, 1, 0, some .DMA_MVCTL, false, .hostDma, .none, 0, 0,
    [⟨F.DMA_MVCTL_EN, .rw, false, 0, 1⟩, ⟨F.DMA_MVCTL_KIND, .rw, false, 0, 3⟩, ⟨F.DMA_MVCTL_INDEX, .rw, false, 0, 7⟩, ⟨F.DMA_MVCTL_PRIO, .rw, false, 0, 3⟩, ⟨F.DMA_MVCTL_AUTO, .rw, false, 0, 1⟩, ⟨F.DMA_MVCTL_FROM, .rw, false, 0, 2⟩, ⟨F.DMA_MVCTL_SIZE, .rw, false, 0, 12⟩]⟩
  | .DMA_MVBA0 => ⟨0x0D0104, .control, 8, 64, 1, 0, some .DMA_MVCTL, false, .hostDma, .none, 0, 0,
    [⟨F.DMA_MVBA0_BA, .rw, false, 0, 65535⟩]⟩
  | .DMA_MVBA1 => ⟨0x0D0108, .control, 8, 64, 1, 0, some .DMA_MVCTL, false, .hostDma, .none, 0, 0,
    [⟨F.DMA_MVBA1_BA, .rw, false, 0, 65535⟩]⟩
  | .DMA_MVBA2 => ⟨0x0D010C, .control, 8, 64, 1, 0, some .DMA_MVCTL, false, .hostDma, .none, 0, 0,
    [⟨F.DMA_MVBA2_BA, .rw, false, 0, 65535⟩]⟩
  | .DMA_MVBA3 => ⟨0x0D0110, .control, 8, 64, 1, 0, some .DMA_MVCTL, false, .hostDma, .none, 0, 0,
    [⟨F.DMA_MVBA3_BA, .rw, false, 0, 65535⟩]⟩
  | .DMA_MVPOSLO => ⟨0x0D0114, .control, 8, 64, 1, 0, some .DMA_MVCTL, false, .hostDma, .none, 0, 0,
    [⟨F.DMA_MVPOSLO_POS, .rw, false, 0, 65535⟩]⟩
  | .DMA_MVPOSHI => ⟨0x0D0118, .control, 8, 64, 1, 0, some .DMA_MVCTL, false, .hostDma, .none, 0, 0,
    [⟨F.DMA_MVPOSHI_POS, .rw, false, 0, 65535⟩]⟩
  | .DMA_MVTAIL => ⟨0x0D011C, .data, 8, 64, 1, 0, none, false, .hostDma, .none, 0, 0,
    [⟨F.DMA_MVTAIL_TAIL, .rw, false, 0, 65535⟩]⟩
  | .DMA_MVSTAT => ⟨0x0D0120, .status, 8, 64, 1, 0, none, false, .nobody, .none, 0, 0,
    [⟨F.DMA_MVSTAT_HEAD, .ro, false, 0, 65535⟩, ⟨F.DMA_MVSTAT_STATE, .ro, false, 0, 3⟩]⟩
  | .DMA_MVCNT => ⟨0x0D0124, .status, 8, 64, 1, 0, none, false, .nobody, .none, 0, 0,
    [⟨F.DMA_MVCNT_STARVE, .rcv, false, 0, 255⟩, ⟨F.DMA_MVCNT_GAP, .rcv, false, 0, 255⟩, ⟨F.DMA_MVCNT_NOTOWN, .rcv, false, 0, 255⟩, ⟨F.DMA_MVCNT_POISON, .rcv, false, 0, 255⟩]⟩
  | .DMA_BQTAIL => ⟨0x0D0128, .data, 8, 64, 1, 0, none, false, .gallery, .none, 0, 0,
    [⟨F.DMA_BQTAIL_TAIL, .rw, false, 0, 255⟩]⟩
  | .DMA_MVPOS => ⟨0x0D0130, .pair, 8, 64, 1, 0, none, false, .hostDma, .none, 0, 1,
    [⟨F.DMA_MVPOS_POS, .ro, false, 0, 4294967295⟩]⟩
  | .DMA_BQBASE => ⟨0x0D0138, .pair, 8, 64, 1, 0, none, false, .hostDma, .none, 8, 1,
    [⟨F.DMA_BQBASE_BASE, .ro, false, 0, 18446744073709551615⟩]⟩
  | .DMA_VHOLD => ⟨0x0D0400, .control, 64, 4, 1, 0, none, false, .hostDma, .none, 0, 0,
    [⟨F.DMA_VHOLD_HOLD, .rw, false, 0, 65535⟩]⟩
  | .DMA_MXAL => ⟨0x0D1000, .data, 64, 16, 1, 0, none, false, .hostDma, .none, 0, 0,
    [⟨F.DMA_MXAL_ADDR_LO, .rw, false, 0, 4294967295⟩]⟩
  | .DMA_MXAH => ⟨0x0D1004, .data, 64, 16, 1, 0, none, false, .hostDma, .none, 0, 0,
    [⟨F.DMA_MXAH_ADDR_HI, .rw, false, 0, 4294967295⟩]⟩
  | .DMA_MXDAT => ⟨0x0D1008, .data, 64, 16, 1, 0, none, false, .hostDma, .none, 0, 0,
    [⟨F.DMA_MXDAT_DATA, .rw, false, 0, 4294967295⟩]⟩
  | .DMA_MXCTL => ⟨0x0D100C, .data, 64, 16, 1, 0, none, false, .hostDma, .none, 0, 0,
    [⟨F.DMA_MXCTL_MASK, .rw, false, 0, 1⟩]⟩
  | .DMA_PBA => ⟨0x0D1400, .data, 2, 4, 1, 0, none, false, .hostDma, .none, 0, 0,
    [⟨F.DMA_PBA_PBA, .ro, false, 0, 4294967295⟩]⟩
  | .SKIP_EXH => ⟨0x0E0000, .status, 1, 0, 1, 0, none, false, .nobody, .none, 0, 0,
    [⟨F.SKIP_EXH_EXH, .rcf, false, 0, 2147483647⟩]⟩
  | .SKIP_OFFLINE => ⟨0x0E0004, .status, 1, 0, 1, 0, none, false, .nobody, .none, 0, 0,
    [⟨F.SKIP_OFFLINE_OFF, .ro, false, 0, 2147483647⟩]⟩
  | .SKIP_STAT => ⟨0x0E0100, .status, 32, 32, 1, 0, none, false, .nobody, .none, 0, 0,
    [⟨F.SKIP_STAT_DEPTH, .ro, false, 0, 4095⟩, ⟨F.SKIP_STAT_CREDITS, .ro, false, 0, 4095⟩, ⟨F.SKIP_STAT_STATE, .ro, false, 0, 7⟩, ⟨F.SKIP_STAT_CLASS, .ro, false, 0, 3⟩]⟩
  | .SKIP_HWM => ⟨0x0E0104, .status, 32, 32, 1, 0, none, false, .nobody, .none, 0, 0,
    [⟨F.SKIP_HWM_HWM, .rcv, false, 0, 4095⟩, ⟨F.SKIP_HWM_PDEPTH, .ro, false, 0, 4095⟩]⟩
  | .SKIP_CAP => ⟨0x0E0108, .status, 32, 32, 1, 0, none, false, .nobody, .none, 0, 0,
    [⟨F.SKIP_CAP_CAP, .ro, false, 0, 4095⟩, ⟨F.SKIP_CAP_RESV, .ro, false, 0, 4095⟩]⟩
  | .SKIP_STALL => ⟨0x0E010C, .status, 32, 32, 1, 0, none, false, .nobody, .none, 0, 0,
    [⟨F.SKIP_STALL_STALL, .rcv, false, 0, 4294967295⟩]⟩
  | .SKIP_DROP => ⟨0x0E0110, .status, 32, 32, 1, 0, none, false, .nobody, .none, 0, 0,
    [⟨F.SKIP_DROP_DROP, .rcv, false, 0, 4294967295⟩]⟩
  | .TRB_STICKY0 => ⟨0x0F0000, .status, 1, 0, 1, 0, none, false, .nobody, .none, 0, 0,
    [⟨F.TRB_STICKY0_BUS_UNMAP, .rcf, false, 0, 1⟩, ⟨F.TRB_STICKY0_BUS_ALIGN, .rcf, false, 0, 1⟩, ⟨F.TRB_STICKY0_BUS_WIDTH, .rcf, false, 0, 1⟩, ⟨F.TRB_STICKY0_BUS_VALUE, .rcf, false, 0, 1⟩, ⟨F.TRB_STICKY0_LOCK_VIOL, .rcf, false, 0, 1⟩, ⟨F.TRB_STICKY0_SKIP_PROT, .rcf, false, 0, 1⟩, ⟨F.TRB_STICKY0_SKIP_STREAM, .rcf, false, 0, 1⟩, ⟨F.TRB_STICKY0_TCXO_DIFF, .rcf, false, 0, 1⟩, ⟨F.TRB_STICKY0_TCXO_LOST, .rcf, false, 0, 1⟩, ⟨F.TRB_STICKY0_CAL_SUSPECT, .rcf, false, 0, 1⟩, ⟨F.TRB_STICKY0_HOST_LINK, .rcf, false, 0, 1⟩, ⟨F.TRB_STICKY0_DMA_FAULT, .rcf, false, 0, 1⟩, ⟨F.TRB_STICKY0_NET_LINK, .rcf, false, 0, 1⟩]⟩
  | .TRB_STICKY1 => ⟨0x0F0004, .status, 1, 0, 1, 0, none, false, .nobody, .none, 0, 0,
    [⟨F.TRB_STICKY1_AFE_CAL, .rcf, false, 0, 1⟩, ⟨F.TRB_STICKY1_AFE_REF, .rcf, false, 0, 1⟩, ⟨F.TRB_STICKY1_AUX_REF, .rcf, false, 0, 1⟩, ⟨F.TRB_STICKY1_SEAM_OVERRUN, .rcf, false, 0, 1⟩, ⟨F.TRB_STICKY1_SEAM_HALT, .rcf, false, 0, 1⟩, ⟨F.TRB_STICKY1_SEAM_DUPLEX, .rcf, false, 0, 1⟩, ⟨F.TRB_STICKY1_FIO_BANK, .rcf, false, 0, 1⟩, ⟨F.TRB_STICKY1_FIO_CANARY, .rcf, false, 0, 1⟩, ⟨F.TRB_STICKY1_SAGE, .rcf, false, 0, 1⟩]⟩
  | .TRB_STICKY2 => ⟨0x0F0008, .status, 1, 0, 1, 0, none, false, .nobody, .none, 0, 0,
    [⟨F.TRB_STICKY2_TLY_NEAR, .rcf, false, 0, 1⟩, ⟨F.TRB_STICKY2_TLY_FAR, .rcf, false, 0, 1⟩, ⟨F.TRB_STICKY2_LOGLOSS, .rcf, false, 0, 1⟩, ⟨F.TRB_STICKY2_THYME_LOST, .rcf, false, 0, 1⟩, ⟨F.TRB_STICKY2_HOLDUP, .rcf, false, 0, 1⟩, ⟨F.TRB_STICKY2_PWR_HALF, .rcf, false, 0, 1⟩, ⟨F.TRB_STICKY2_TEMP, .rcf, false, 0, 1⟩]⟩
  | .TRB_STICKY3 => ⟨0x0F000C, .status, 1, 0, 1, 0, none, false, .nobody, .none, 0, 0,
    [⟨F.TRB_STICKY3_MEM_CE, .rcf, false, 0, 1⟩, ⟨F.TRB_STICKY3_MEM_UE, .rcf, false, 0, 1⟩, ⟨F.TRB_STICKY3_POISON, .rcf, false, 0, 1⟩, ⟨F.TRB_STICKY3_SCRUB_LATE, .rcf, false, 0, 1⟩, ⟨F.TRB_STICKY3_NAND_WEAR, .rcf, false, 0, 1⟩, ⟨F.TRB_STICKY3_HFR_FAULT, .rcf, false, 0, 1⟩, ⟨F.TRB_STICKY3_HFR_GIVEUP, .rcf, false, 0, 1⟩, ⟨F.TRB_STICKY3_FAREA_WRAP, .rcf, false, 0, 1⟩]⟩
  | .TRB_LOCK_CNT => ⟨0x0F0010, .status, 1, 0, 1, 0, none, false, .nobody, .none, 0, 0,
    [⟨F.TRB_LOCK_CNT_CNT, .rcv, false, 0, 4294967295⟩]⟩
  | .TRB_MEMCNT => ⟨0x0F0020, .status, 8, 4, 1, 0, none, false, .nobody, .none, 0, 0,
    [⟨F.TRB_MEMCNT_CORR, .rcv, false, 0, 65535⟩, ⟨F.TRB_MEMCNT_UNCORR, .rcv, false, 0, 65535⟩]⟩
  | .TRB_MEMLAST => ⟨0x0F0040, .pair, 1, 0, 1, 0, none, false, .nobody, .none, 0, 0,
    [⟨F.TRB_MEMLAST_ADDR, .ro, false, 0, 281474976710655⟩]⟩
  | .TRB_MEMINFO => ⟨0x0F0048, .status, 1, 0, 1, 0, none, false, .nobody, .none, 0, 0,
    [⟨F.TRB_MEMINFO_REGION, .ro, false, 0, 15⟩, ⟨F.TRB_MEMINFO_KIND, .ro, false, 0, 3⟩, ⟨F.TRB_MEMINFO_SCRUB, .ro, false, 0, 1⟩, ⟨F.TRB_MEMINFO_FACE, .ro, false, 0, 255⟩, ⟨F.TRB_MEMINFO_SRC, .ro, false, 0, 4095⟩]⟩
  | .TRB_SCRUB => ⟨0x0F0060, .status, 8, 4, 1, 0, none, false, .nobody, .none, 0, 0,
    [⟨F.TRB_SCRUB_PASSES, .ro, false, 0, 65535⟩, ⟨F.TRB_SCRUB_PCT, .ro, false, 0, 127⟩, ⟨F.TRB_SCRUB_RUNNING, .ro, false, 0, 1⟩, ⟨F.TRB_SCRUB_PAUSED, .ro, false, 0, 1⟩]⟩
  | .TRB_NANDWEAR => ⟨0x0F0080, .status, 1, 0, 1, 0, none, false, .nobody, .none, 0, 0,
    [⟨F.TRB_NANDWEAR_PE, .ro, false, 0, 65535⟩, ⟨F.TRB_NANDWEAR_RATE, .ro, false, 0, 65535⟩]⟩
  | .TRB_FAREA => ⟨0x0F0800, .status, 512, 4, 1, 0, none, false, .nobody, .none, 0, 0,
    [⟨F.TRB_FAREA_WORD, .ro, false, 0, 4294967295⟩]⟩
  | .TLK_CTL => ⟨0x100000, .control, 1, 0, 1, 0, none, false, .nobody, .core, 0, 0,
    [⟨F.TLK_CTL_EN, .rw, false, 0, 1⟩, ⟨F.TLK_CTL_ROLE, .rw, true, 0, 1⟩]⟩
  | .TLK_STAT => ⟨0x100004, .status, 1, 0, 1, 0, none, false, .nobody, .none, 0, 0,
    [⟨F.TLK_STAT_STATE, .ro, false, 0, 3⟩, ⟨F.TLK_STAT_POS, .ro, false, 0, 7⟩, ⟨F.TLK_STAT_LOSS, .rcf, false, 0, 1⟩, ⟨F.TLK_STAT_OVERLONG, .ro, false, 0, 1⟩, ⟨F.TLK_STAT_BADFRM, .rcv, false, 0, 65535⟩]⟩
  | .TLK_HOP => ⟨0x100008, .status, 1, 0, 1, 0, none, false, .nobody, .none, 0, 0,
    [⟨F.TLK_HOP_HOP, .ro, false, 0, 16777215⟩]⟩
  | .TLK_CUM => ⟨0x10000C, .status, 1, 0, 1, 0, none, false, .nobody, .none, 0, 0,
    [⟨F.TLK_CUM_CUM, .ro, false, 0, 16777215⟩]⟩
  | .TLK_OFS => ⟨0x100010, .pair, 1, 0, 1, 0, none, false, .nobody, .none, 0, 0,
    [⟨F.TLK_OFS_OFS, .ro, false, 0, 18446744073709551615⟩]⟩
  | .TLK_CNT => ⟨0x100018, .status, 1, 0, 1, 0, none, false, .nobody, .none, 0, 0,
    [⟨F.TLK_CNT_SENT, .rcv, false, 0, 4095⟩, ⟨F.TLK_CNT_RCVD, .rcv, false, 0, 4095⟩, ⟨F.TLK_CNT_UNSENT, .rcv, false, 0, 255⟩]⟩
  | .BLK_TEAR => ⟨0x001FF8, .status, 17, 65536, 1, 0, none, false, .nobody, .none, 0, 0,
    [⟨F.BLK_TEAR_TEAR, .rcf, false, 0, 4294967295⟩]⟩
  | .BLK_ID => ⟨0x001FFC, .status, 17, 65536, 1, 0, none, false, .nobody, .none, 0, 0,
    [⟨F.BLK_ID_BLOCK, .ro, false, 0, 65535⟩, ⟨F.BLK_ID_VER, .ro, false, 0, 255⟩]⟩

/-- Part 0 of the list of all registers, in address order but for the two common ones of R61, which come last. -/
def Reg.part0 : List Reg := [.SYS_MODE, .SYS_MODECNT, .SYS_STEPPING, .SYS_START, .SYS_DEGR, .SYS_TREL, .SYS_OUTAGE, .SYS_PWR, .SYS_HOLDUP, .SYS_HALF, .SYS_THYME, .SYS_MBXGO, .SYS_MBX, .HFR_GATE, .HFR_LOCK, .HFR_IMG, .HFR_KEYS, .HFR_RB, .HFR_NONCE, .HFR_UID, .HFR_RSTAT, .HFR_RTAG, .HFR_TAMPER, .HFR_FAIL, .SAGE_STAT, .SAGE_REFC, .SAGE_REFN, .SAGE_REFS, .SAGE_LASTC, .SAGE_LASTN, .SAGE_LASTS, .CLK_TSC, .CLK_CAL, .CLK_CAL_RATE, .CLK_UTC, .CLK_CAL_STAT, .CLK_TCXO, .CLK_SNAP_CTL, .CLK_SNAP_SEQ, .CLK_SNAP_TSC]
/-- Part 1 of the list of all registers, in address order but for the two common ones of R61, which come last. -/
def Reg.part1 : List Reg := [.CLK_SNAP_CAL, .CLK_SNAP_ANG, .CLK_CONVA, .CLK_CONVT, .CLK_CONV_STAT, .ANG_CTL, .ANG_REFA, .ANG_REFB, .ANG_REFC, .ANG_VNOM_LO, .ANG_VNOM_HI, .ANG_OFS, .ANG_TIME, .ANG_FREQ, .ANG_ROCOF, .ANG_PHERR, .ANG_STAT, .NET_CTL, .NET_STAT, .NET_RLIM, .NET_PCNT, .PTP_CTL, .PTP_STAT, .PTP_GMID, .PTP_OFS, .PTP_CNT, .PTP_GMINFO, .PTP_VID, .PTP_PDLY, .PTP_ASYM, .NET_LQSEL, .NET_LQBA0, .NET_LQBA1, .NET_LQBA2, .NET_LQCFG, .NET_LQTAIL, .NET_LQSTAT, .SVI_DL, .SVI_UNMATCH, .SVI_SVIDSEL]
/-- Part 2 of the list of all registers, in address order but for the two common ones of R61, which come last. -/
def Reg.part2 : List Reg := [.SVI_SVIDWR, .SVI_SVIDRD, .SVI_INVAL, .SVI_LIVE, .SVI_SUBCTL, .SVI_SUBMAC0, .SVI_SUBMAC1, .SVI_SUBMAC2, .SVI_SUBAPP, .SVI_SUBREVLO, .SVI_SUBREVHI, .SVI_SUBMAP, .SVI_SUBSCL, .SVI_SUBSTAT, .SVI_SUBCNT, .AFE_REF, .AFE_PAIR, .AFE_BGC, .AFE_STAT, .AFE_CLIP, .AFE_BGC_STAT, .AFE_REFIN, .AFE_GAIN, .AFE_CHSTAT, .AFE_SKEW01, .AFE_SKEW23, .AFE_OFSA, .AFE_OFSB, .AFE_GNA, .AFE_GNB, .AUX_CTL, .AUX_GAP, .AUX_STAT, .AUX_URG, .AUX_URG_RES, .AUX_URG_DROP, .AUX_SLOT, .AUX_RES, .FLT_CTL, .FLT_RESET]
/-- Part 3 of the list of all registers, in address order but for the two common ones of R61, which come last. -/
def Reg.part3 : List Reg := [.FLT_STAT, .FLT_FRSTAT, .FLT_CWSEL, .FLT_CWLO, .FLT_CWHI, .FLT_CRD, .FLT_PITS0, .FLT_PITS1, .FLT_CHCTL, .FLT_DCB, .FLT_SWAP, .FLT_CHSTAT, .FLT_DCEST, .FLT_DECIDX, .SEAM_STAT, .SEAM_GRP, .SEAM_GRP_STAT, .SEAM_GRP_CNT, .SEAM_OVR, .SEAM_HALT, .SEAM_DUP, .SEAM_DUPLAST, .SEAM_LOADERR, .SEAM_OVRH, .SEAM_HALTH, .SEAM_PADDR, .SEAM_PVAL, .SEAM_PMETA, .SEAM_PSTEP, .SEAM_HIN, .SEAM_HOUT, .SEAM_FSTAT, .SEAM_FBUD, .SEAM_FMAX, .SEAM_FSTEP, .TWU_STAT, .TWU_FARCNT, .TWU_FARCAL, .TWU_FARGO, .TWU_EVSEL]
/-- Part 4 of the list of all registers, in address order but for the two common ones of R61, which come last. -/
def Reg.part4 : List Reg := [.TWU_EVARR, .TWU_EVATTR, .TWU_GCTL, .TWU_GCH, .TWU_GTHR, .TWU_GDLY, .TWU_GVLO, .TWU_GVHI, .TWU_GLLO, .TWU_GLHI, .TWU_GWIN, .TWU_GRFR, .TWU_GHOLD, .TWU_GSTAT, .TWU_GSE, .TWU_GDE, .TWU_GARR, .ASY_STAT, .ASY_SQSEL, .ASY_SQW0, .ASY_SQW1, .ASY_SQW2, .ASY_SQW3, .ASY_SQRD, .ASY_SQCTL, .ASY_SQSTAT, .ASY_RCMP, .ASY_RTHR, .ASY_RHYS, .ASY_RCNT, .ASY_ACTL, .ASY_ALENLO, .ASY_ALENHI, .ASY_APOSTLO, .ASY_APOSTHI, .ASY_ASEL, .ASY_AFIRST, .ASY_ASEGS, .ASY_ABASE, .ASY_ASIZE]
/-- Part 5 of the list of all registers, in address order but for the two common ones of R61, which come last. -/
def Reg.part5 : List Reg := [.ASY_ARIDX, .ASY_ASTAT, .ASY_ACNT, .ASY_MKCTL, .ASY_MKPLO, .ASY_MKPHI, .ASY_MKSTAT, .ASY_ENVSEL, .ASY_ENVLO, .ASY_ENVHI, .ASY_TBASE, .ASY_TSIZE, .ASY_TCNT, .ASY_TWR, .ASY_TCTL, .ASY_TSRC, .ASY_TIVAL, .TLY_STAT, .TLY_LOST, .TLY_NEAR, .TLY_FAR, .TLY_OPSEC, .TLY_PCYC, .TLY_BACKLOG, .TLY_CHCTL, .TLY_NREG, .TLY_FBASE, .TLY_FSIZE, .TLY_CHSEL, .TLY_CHTRG, .TLY_FRZ, .TLY_CHSTAT, .TLY_GEN, .TLY_WSEQ, .TLY_OSEQ, .TLY_SNLO, .TLY_SNHI, .FIO_STAT, .FIO_GATE, .FIO_INTG]
/-- Part 6 of the list of all registers, in address order but for the two common ones of R61, which come last. -/
def Reg.part6 : List Reg := [.FIO_CLRSEL, .FIO_CLRMASK, .FIO_CNY, .FIO_SCHED, .FIO_PCFG, .FIO_BSTAT, .FIO_LEVEL, .FIO_DRV, .FIO_CNT, .FIO_CAUSE, .DMA_STAT, .DMA_LINK, .DMA_B2AP, .DMA_MVCTL, .DMA_MVBA0, .DMA_MVBA1, .DMA_MVBA2, .DMA_MVBA3, .DMA_MVPOSLO, .DMA_MVPOSHI, .DMA_MVTAIL, .DMA_MVSTAT, .DMA_MVCNT, .DMA_BQTAIL, .DMA_MVPOS, .DMA_BQBASE, .DMA_VHOLD, .DMA_MXAL, .DMA_MXAH, .DMA_MXDAT, .DMA_MXCTL, .DMA_PBA, .SKIP_EXH, .SKIP_OFFLINE, .SKIP_STAT, .SKIP_HWM, .SKIP_CAP, .SKIP_STALL, .SKIP_DROP, .TRB_STICKY0]
/-- Part 7 of the list of all registers, in address order but for the two common ones of R61, which come last. -/
def Reg.part7 : List Reg := [.TRB_STICKY1, .TRB_STICKY2, .TRB_STICKY3, .TRB_LOCK_CNT, .TRB_MEMCNT, .TRB_MEMLAST, .TRB_MEMINFO, .TRB_SCRUB, .TRB_NANDWEAR, .TRB_FAREA, .TLK_CTL, .TLK_STAT, .TLK_HOP, .TLK_CUM, .TLK_OFS, .TLK_CNT, .BLK_TEAR, .BLK_ID]
/-- Every register of the map. -/
def Reg.all : List Reg := Reg.part0 ++ Reg.part1 ++ Reg.part2 ++ Reg.part3 ++ Reg.part4 ++ Reg.part5 ++ Reg.part6 ++ Reg.part7

/-- How many indices a register has. -/
def RegDesc.count (x : RegDesc) : Nat := x.n1 * x.n2

/-- How many bytes a register occupies: 8 for a pair, 4 for every other. -/
def RegDesc.size (x : RegDesc) : Nat := if x.cls = .pair then 8 else 4

/-- The address of index `i` of a register. -/
def Reg.addrOf (r : Reg) (i : Nat) : Nat :=
  let x := r.desc
  x.addr + x.s1 * (i / x.n2) + x.s2 * (i % x.n2)

/-- The index of the register that occupies the word at primary address `a`, if this one does. -/
def Reg.indexAt (r : Reg) (a : Nat) : Option Nat :=
  let x := r.desc
  if a < x.addr then none else
  let o := a - x.addr
  let i := if x.n1 ≤ 1 then 0 else o / x.s1
  let o2 := if x.n1 ≤ 1 then o else o % x.s1
  let j := if x.n2 ≤ 1 then 0 else o2 / x.s2
  let o3 := if x.n2 ≤ 1 then o2 else o2 % x.s2
  if i < x.n1 ∧ j < x.n2 ∧ o3 < x.size then some (i * x.n2 + j) else none

/-- The register and index that occupy the byte at primary address `a` (R29: none is unmapped). -/
def Reg.at (a : Nat) : Option (Reg × Nat) :=
  Reg.all.findSome? fun r => (r.indexAt a).map fun i => (r, i)

/-- The place of a field in the register file: one number for a field and a register index. -/
def Fld.key (f : Fld) (i : Nat) : Nat := f.reg.ctorIdx + 512 * (f.lo + 64 * i)

/-- The value of a field on entry to BOOT; the spec gives two of them by index (R117, R61). -/
def Fld.reset (f : Fld) (i : Nat) : Nat :=
  match f.reg with
  | .AUX_SLOT => if f.lo = 0 then i else f.rst
  | .BLK_ID => if f.lo = 0 then i else f.rst
  | _ => f.rst

end Sys2Proof.Machine
end

