-- ==== Sys2Proof/Machine/State.lean ====
section
/-!
DEFINITION. The state of the part as plain data, its reset state, and the reasons a step can stop.

Registers live in one sparse register file `Dev.regs` of field values (an unlisted field holds its value of R7); a field
that shows live state is computed from that state when it is read (`Machine/View.lean`).  Sparse maps stand for rows of
equal things; what an unlisted row holds is the default of its structure.
-/
namespace Sys2Proof.Machine

/-- The states of a skip (SKIP_STATn.STATE). -/
inductive SkipSt where
  | unused | run | offline | stopped
  deriving DecidableEq, Repr

/-- A producer of a skip: its count of lumps, the lumps it dropped since the last it sent, whether its next lump
carries GAP, and whether that lump is its first after an outage, which carries LOST = 0 (R13, R19, R22, R523). -/
structure Prod where
  seq : Nat := 0
  lost : Nat := 0
  gap : Bool := false
  back : Bool := false
  deriving DecidableEq, Repr

/-- A skip (R13, R14): its state, the producer side's credits, the credits on their way back (the class of the lump of each,
oldest first), the lumps held, the reserve, the producers, the lumps that bulk producers hold back (R18), whether it has left
OFFLINE, and the state that it returns to from OFFLINE (R22). -/
structure Skip where
  st : SkipSt := .unused
  credits : Nat := 0
  returning : List Bool := []
  queue : List Lump := []
  resv : Nat := 0
  prods : SMap Prod := []
  waiting : List Lump := []
  rejoined : Bool := false
  was : SkipSt := .unused
  deriving DecidableEq, Repr

/-- The records a producer has requested and not yet sent (R356), each with the RECORD_LOSS that goes before it, and the
count and first time-stamp of the requests discarded since. -/
structure RecQ where
  items : List (Option Record × Record) := []
  lost : Nat := 0
  first : Nat := 0
  deriving DecidableEq, Repr

/-- A stretch of the calendar: from a TSC on, the accumulator's value there, RATE and STATE (R66, R364). -/
structure CalSeg where
  tsc : Nat := 0
  acc : Nat := 0
  rate : Int := 0
  state : Nat := 0
  deriving DecidableEq, Repr

/-- The calendar and timebase: the calendar's stretches, latest first, the two oscillators, the gates of R63 in a row
with and without disagreement, and the TSC of the latest gate's end and of the latest TIMEMARK. -/
structure Clk where
  cal : List CalSeg := [{}]
  aStopped : Bool := false
  bStopped : Bool := false
  badGates : Nat := 0
  goodGates : Nat := 0
  gate : Nat := 0
  mark : Nat := 0
  deriving DecidableEq, Repr

/-- The states of an angle clock (ANGn_STAT.STATE). -/
inductive AngSt where
  | freewheel | qualify | acquire | locked
  deriving DecidableEq, Repr

/-- An angle clock (R73 to R83).  `acc` counts the angle in units of 10⁻⁹ × 2⁻³² cycle, so that its angle time with the 16
hidden fraction bits is `acc / 10⁹`; `prev` is `acc` before the latest advance; `corr` is the correction still to be slewed and `ref`
the phase of the reference of a locked clock, in the same units; `frac` holds the part of the tracked frequency below `freq`, in 10⁻⁹ of its
unit; `entry` is `acc` at the entry to FREEWHEEL and `entryBoot` says that its cause was BOOT (R78); `since` is the TSC of the entry to
QUALIFY (R79); `cycles` are the TSCs at which the latest cycles started and `refCycles` those of the reference since the lock, latest
first (R77, R87); `refOk` are the references (bits A, B, C) whose latest sample was VALID, and `refInv` says that INVALID has arisen since all
three were. -/
structure Ang where
  st : AngSt := .freewheel
  cause : Nat := 6
  freq : Nat := 0x320000
  frac : Nat := 0
  rocof : Int := 0
  acc : Nat := 0
  prev : Nat := 0
  corr : Int := 0
  ref : Nat := 0
  entry : Nat := 0
  entryBoot : Bool := true
  since : Nat := 0
  cycles : List Nat := [0]
  refCycles : List Nat := []
  refOk : Nat := 0
  refInv : Bool := false
  deriving DecidableEq, Repr

/-- A window of the background correction (R94, R95): its blocks, for each slice the sum of its codes and of their squares, and whether a
code is clipped. -/
structure BgcWin where
  blocks : Nat := 0
  sum : List Int := List.replicate 8 0
  sq : List Nat := List.replicate 8 0
  clip : Bool := false
  deriving DecidableEq, Repr

/-- An analogue channel (R97 to R110): whether it is released and waits for its release boundary, whether it is paired and
on the external reference, the index and count of the block in progress, that block's marks and HOLD state, the GAP owed
to the next header of each skip, the run of small background updates, the window in progress and one that waits for its update, factor
changes waiting for a boundary, and of an even channel the factors of its partner's converter through its amplifier, by place. -/
structure AfeCh where
  released : Bool := false
  relPend : Bool := false
  paired : Bool := false
  refExt : Bool := false
  first : Nat := 0
  blockSeq : Nat := 0
  markN : Nat := 0
  markCause : Nat := 0
  bgcHold : Bool := false
  gapOwed : SMap Bool := []
  convRun : Nat := 0
  pendOfs : List Int := []
  pendGain : List Int := []
  pendSkew : List Int := []
  win : BgcWin := {}
  winDone : Option BgcWin := none
  cal2 : SMap Nat := []
  deriving DecidableEq, Repr

/-- What REFIN is doing (R107, R108): unused, being qualified, given up until the next retry, in use. -/
inductive RefinSt where
  | off | qualifying | fallback | inUse
  deriving DecidableEq, Repr

/-- The converters as a whole: REFIN, its fallbacks so far (R261), the halves whose recalibration is due, those that calibrate and whether
BOOT started it, and the TSC from which the internal reference is settled (R103, R105, R107). -/
structure Afe where
  refin : RefinSt := .off
  fallbacks : Nat := 0
  calDue : List Half := []
  calRun : List (Half × Bool) := []
  refFrom : Option Nat := none
  deriving DecidableEq, Repr

/-- What the AUX sequencer is doing (R115 to R118). -/
inductive AuxPhase where
  | off | settling | pass | gap | stopped
  deriving DecidableEq, Repr

/-- The AUX sequencer: the list of the pass in progress, its gap, the slot in progress, the reference in force and the
urgent request that runs, each slot and request as (input, AVG, SHIFT). -/
structure Aux where
  phase : AuxPhase := .off
  slots : List (Nat × Nat × Nat) := []
  gap : Nat := 0
  slot : Nat := 0
  refsel : Nat := 0
  urgent : Option (Nat × Nat × Nat) := none
  deriving DecidableEq, Repr

/-- A decimated sample after the DC-blocking stage (R126, R129). -/
structure DecS where
  j : Nat
  val : Int
  settling : Bool
  clipped : Bool
  fading : Bool
  test : Bool
  deriving DecidableEq, Repr

/-- A swap that has been accepted (R142 to R144): its target bank, its fade length, the decimated sample it starts at and the samples computed
since its start. -/
structure Fade where
  target : Nat
  len : Nat
  start : Nat
  m : Nat := 0
  deriving DecidableEq, Repr

/-- A mark that waits for its decimated sample: from sample `j` on, at least `s` samples carry SETTLING; a reset also
clears both delay lines and the DC estimate and forces the values to 0 (R148, R150). -/
structure FltMark where
  j : Nat
  s : Nat
  reset : Bool
  deriving DecidableEq, Repr

/-- A filter chain (R124 to R149): the CIC's registers, the CIC outputs (index, value, gain) that the FIR has not yet
taken, the delay line of each bank, the DC estimate, the last decimated samples (latest first), the marks that wait, the
counts of samples still SETTLING, still forced to 0 and still in fast-settle, the swap accepted and the one held; the
raw block being taken (index of its first code, gain, marked codes and their replacement), the next code's index, the
last code and the runs of clipped indices (first, last; latest first); the runs of decimated samples that were never computed; resets asked
for (cause, boundary) and the one due; what the Canary is still to be denied; the index of the last angle-tap sample. -/
structure FltCh where
  integ : List Int := [0, 0, 0, 0, 0]
  comb : List Int := [0, 0, 0, 0, 0]
  cicQ : List (Nat × Int × Nat) := []
  lineA : List Int := List.replicate 96 0
  lineB : List Int := List.replicate 96 0
  dc : Int := 0
  dec : List DecS := []
  marks : List FltMark := []
  settle : Nat := 0
  zero : Nat := 0
  fastDue : Bool := false
  fast : Nat := 0
  fade : Option Fade := none
  held : Option (Nat × Nat) := none
  gain : Nat := 0
  markN : Nat := 0
  fill : Int := 0
  blockPos : Nat := 0
  rate40 : Bool := false
  next : Nat := 0
  last : Int := 0
  clips : List (Nat × Nat) := []
  lost : List (Nat × Nat) := []
  asked : List (Nat × Nat) := []
  due : Option (Nat × Nat) := none
  canaryDenied : Nat := 0
  canaryRun : List Int := []
  lastK : Option Nat := none
  deriving DecidableEq, Repr

/-- An instant of a timing domain: its index, its TSC in 1/16 ns, and whether the angle clock freewheels there (R131, R132, R180). -/
structure Inst where
  k : Nat
  t16 : Nat
  freewheel : Bool
  deriving DecidableEq, Repr

/-- An instant of a tap that waits for its support: its index, at 256 per cycle where an angle clock makes it, the index that its lump
shows, its TSC in 1/16 ns, whether its clock freewheels, and the channels that have a sample there (R131, R132, R137). -/
structure TapInst where
  k : Nat
  seq : Nat
  t16 : Nat
  freewheel : Bool
  chans : List Nat
  deriving DecidableEq, Repr

/-- The fixed-rate tap: the second and number of its last instant, that instant's TSC in 1/16 ns, the second and number
of the next one, the count of instants and of those that have been taken, and whether the next one is the first after a step of CAL
(R132, R133, R137). -/
structure FrTap where
  last : Option (Nat × Nat × Nat) := none
  next : Option (Nat × Nat) := none
  count : Nat := 0
  taken : Nat := 0
  resync : Bool := false
  deriving DecidableEq, Repr

/-- A resolved stream sample (R162 to R164): its index `S × F + n` (R155), whether it was received, the count of missing
samples in a row up to it, and per channel its value and quality without VALID and SOURCE. -/
structure SvSample where
  idx : Nat
  received : Bool
  c : Nat
  chans : List (Int × Nat)
  deriving DecidableEq, Repr

/-- A subscription (R156 to R172): its applied and holding svID octets, its resolved samples (latest first), the index of
the first sample at or after the start and of the first one not yet resolved, the count of samples resolved in order since the start, whether
one has been received since, the TSC of the start, the latest index each port delivered, the latest angle sample and the angle instants that
wait for their support. -/
structure SvSub where
  svid : SMap Nat := []
  hold : SMap Nat := []
  hist : List SvSample := []
  start : Nat := 0
  next : Nat := 0
  count : Nat := 0
  got : Bool := false
  startTsc : Nat := 0
  lastA : Option Nat := none
  lastB : Option Nat := none
  lastK : Option Nat := none
  insts : List TapInst := []
  deriving DecidableEq, Repr

/-- A lump's words at a pit, or the mark of a lost instant (R21): the index, the TSC at which the lump entered the pit's skip, the words. -/
structure SeamIn where
  k : Nat
  arr : Nat
  words : Option (List Word)
  deriving DecidableEq, Repr

/-- The states of a face (SEAM_FSTATg.STATE). -/
inductive FaceSt where
  | unused | run | halted | offline
  deriving DecidableEq, Repr

/-- A completed step of a face: its index, the TSC of its completion, the points it left. -/
structure StepRec where
  k : Nat
  done : Nat
  pts : SMap PtV
  deriving DecidableEq, Repr

/-- A face: its state, the step it started at and the next one it evaluates, the instant of its latest step, its completed steps (latest
first), and whether it restarts from a surviving copy (R196). -/
structure Face where
  st : FaceSt := .unused
  first : Nat := 0
  next : Nat := 0
  lastT : Option Nat := none
  hist : List StepRec := []
  restart : Bool := false
  deriving DecidableEq, Repr

/-- A transition that a pit keeps in its lumps (R191, R192): the face that scheduled it, channel, state, clock, AT. -/
structure Sched where
  face : Nat
  ch : Nat
  state : Bool
  clk : Nat
  at_ : Nat
  deriving DecidableEq, Repr

/-- A group switch: old and new group, cause, the TSC of its commit and its k_c in each domain that carries faces. -/
structure GrpSwitch where
  old : Nat
  new : Nat
  cause : Nat
  tsc : Nat
  kc : List (Nat × Nat)
  deriving DecidableEq, Repr

/-- A write of a host-input word (R183): its index, the value before, and k_c in each domain. -/
structure HinChange where
  ix : Nat
  old : Nat
  kc : List (Nat × Nat)
  deriving DecidableEq, Repr

/-- A committed cell-setting change (R183): its record and group, the value before, and k_c in each domain. -/
structure SetChange where
  ix : Nat
  group : Nat
  old : Nat
  kc : List (Nat × Nat)
  deriving DecidableEq, Repr

/-- The comparison of a duplex lode's copies (R195): whether an episode runs, for each output port the steps in a row with a
difference and those without one, and the step of each domain at which comparison resumes after a restart. -/
structure DupSt where
  episode : Bool := false
  bad : SMap Nat := []
  good : SMap Nat := []
  resume : SMap Nat := []
  deriving DecidableEq, Repr

/-- A report for a BALANCE cell: its node, slot, interval start (minutes of CAL), energy and status, and the step of the fixed domain after
which it is delivered (R258, R441). -/
structure Report where
  node : Nat
  slot : Nat
  start : Nat
  energy : Int
  status : Nat
  step : Nat
  deriving DecidableEq, Repr

/-- The Seam: the image's design, the faces, the cells (keyed 2 × node + copy), the points by address, the inputs of each pit by 4096 × pit + source (65536 more for native lumps),
the sources not waited for with the index they are waited for again from (R523), each pit's TWU results and event times,
field inputs by channel, scheduled transitions and count of lumps by pit, the group switches latest first, whether the latest is incomplete and the
pending request, changes of settings and of host inputs latest first, the duplex comparisons by lode, the reports on their way, the latest ON of
each pit's lumps, and whether the faces have stopped with SAFE (R210). -/
structure Seam where
  design : Design := {}
  faces : SMap Face := []
  cells : SMap CellSt := []
  points : SMap PtV := []
  ins : SMap (List SeamIn) := []
  away : SMap (Option Nat) := []
  twuRes : SMap PtV := []
  twuUntil : SMap (List (Nat × Nat)) := []
  twuLast : SMap (List Nat) := []
  fieldIn : SMap PtV := []
  sched : SMap (List Sched) := []
  groups : List GrpSwitch := []
  group0 : Nat := 0
  switching : Bool := false
  grpPend : Option (Nat × Nat) := none
  changes : List SetChange := []
  hin : List HinChange := []
  dups : SMap DupSt := []
  reports : List Report := []
  imgOn : SMap Nat := []
  stopped : Bool := false
  deriving DecidableEq, Repr

/-- An arrival of an event (R270 to R272). -/
structure TwArr where
  arr : Nat
  height : Int
  beta : Bool
  ground : Bool
  clip : Bool
  refl : Bool := false
  deriving DecidableEq, Repr

/-- An event of a detector group (R271, R273): its number, the detection index of its first arrival, its arrivals, the
calendar time of the first in 50 ps units, whether CAL was LOCKED there, whether it has accepted a far arrival. -/
structure TwEv where
  seq : Nat
  k0 : Nat
  arrs : List TwArr
  cal20 : Nat
  locked : Bool
  far : Bool := false
  deriving DecidableEq, Repr

/-- A group's settings in force (R283). -/
structure TwCfg where
  en : Bool := false
  se : Bool := false
  de : Bool := false
  pol : Bool := false
  pits : Nat := 0
  chans : List Nat := []
  thr : Nat := 0
  d : Nat := 0
  blind : Nat := 0
  vel : Nat := 0
  len : Nat := 0
  twin : Nat := 0
  rfrac : Nat := 0
  deriving DecidableEq, Repr

/-- A detector group: its settings and whether a change waits, the next raw index, the present samples without a break
(index, mα, mβ, m0, clipped; latest first), the index up to which it is blind, the open event, the closed ones (latest first),
the next EVSEQ, and the far arrival held (50 ps units, LOCKED, TSC of its write). -/
structure TwGrp where
  cfg : TwCfg := {}
  change : Bool := false
  next : Option Nat := none
  sig : List (Nat × Int × Int × Int × Bool) := []
  blindTo : Nat := 0
  open_ : Option TwEv := none
  closed : List TwEv := []
  evseq : Nat := 0
  far : Option (Nat × Bool × Nat) := none
  deriving DecidableEq, Repr

/-- The TWU: the raw samples of each channel not yet used (index, code, none where absent; oldest first), the marked codes and
rate of the block each channel takes, its next index, and the groups. -/
structure Twu where
  raw : SMap (List (Nat × Option (BitVec 16))) := []
  blk : SMap (Nat × Bool) := []
  grps : SMap TwGrp := []
  deriving DecidableEq, Repr

/-- The field side of a bank, which runs from the field supply whatever the module does (R285, R299, R305): whether its logic
is out of reset, the CFG of each pin, the commanded driver states, whether it holds them, the good frames since with the last
SEQ, the latched UV-OFF and the present UVW, INFAIL and OT, the class of each input (0 OFF, 1 ON, 2 BREAK), the readback
bits, the event counts, and bit sets: latched pins, those that wait for CLEAR, those in current limit, those with a limit
integral above 0, those with readback mismatch; the sticky bits of the cause word; the interrogation: a sweep that runs, the
cause word and the next nibble; the timed transition that waits; the SEQ of the latest good frame; the ns counted towards the retry of each
latched pin (R530), and the pins that a CLEAR has released, whose drivers follow from the next frame (R294). -/
structure Field where
  powered : Bool := false
  cfg : SMap Nat := []
  drv : Nat := 0
  held : Bool := true
  lastGood : Option Nat := none
  uvOff : Bool := true
  uvw : Bool := true
  inFail : Bool := true
  ot : Bool := false
  cls : SMap Nat := []
  rb : Nat := 0
  events : SMap Nat := []
  latched : Nat := 0
  perm : Nat := 0
  limit : Nat := 0
  energy : Nat := 0
  mis : Nat := 0
  uvoffS : Bool := false
  silentS : Bool := false
  sweep : Bool := false
  cause : Nat := 0
  nib : Option Nat := none
  timed : Option (Nat × Bool) := none
  seq : Nat := 0
  retry : SMap Nat := []
  freed : Nat := 0
  deriving DecidableEq, Repr

/-- The filter of an input pin: the class its latest frames carry and the TSC of the first of them, and the filtered state. -/
structure InFilt where
  run : Option (Nat × Nat) := none
  state : Option Nat := none
  deriving DecidableEq, Repr

/-- The logic side of a bank: its frame count, the pin whose CFG the next frame refreshes, the commands that wait (0: a CLEAR's
mask follows; 1: INTERROGATE), the frames in flight in each direction, the latest good uplink payload, good frames in a row
while SILENT, the filters, the cause word being collected, and the driver states of the latest frame. -/
structure Bank where
  seq : Nat := 0
  cpin : Nat := 0
  cmds : List (Nat × Nat) := []
  down : Option (BitVec 80) := none
  up : Option (BitVec 80) := none
  last : Nat := 0
  silent : Bool := false
  good : Nat := 0
  filt : SMap InFilt := []
  word : Nat := 0
  sent : Nat := 0
  deriving DecidableEq, Repr

/-- A transition accepted by FIO (R316): channel, state, clock, AT, issue angle, and once fixed t_f, the start of its frame and
LATE. -/
structure Pow where
  ch : Nat
  state : Bool
  clk : Nat
  at_ : Nat
  ai : Nat
  fixed : Option (Nat × Nat × Bool) := none
  deriving DecidableEq, Repr

/-- FIO: whether frames are sent, the banks, the latest image of each pit (ON, DRIVEN), the entries already taken from the
pits' lumps, the transitions pending, and the operated Canary entries with the TSC of their latest output above threshold. -/
structure Fio where
  started : Bool := false
  banks : SMap Bank := []
  img : SMap (Nat × Nat) := []
  seen : List (Nat × Bool × Nat × Nat) := []
  pows : List Pow := []
  canary : SMap Nat := []
  deriving DecidableEq, Repr

/-- A point as Assay last had it presented: its value words, QUAL, the instant of its step (50 ps units) and its face. -/
structure AsyPt where
  val : Nat
  val2 : Nat
  qual : Nat
  inst : Nat
  face : Nat
  deriving DecidableEq, Repr

/-- An input presented to the sequencers in a tick (R320, R321), with the instant it describes in 50 ps units. -/
inductive Pres where
  /-- A point's value, with the value before. -/
  | point (addr : Nat) (old : Option AsyPt) (new : AsyPt)
  /-- A crossing of a raw comparator. -/
  | raw (r inst : Nat)
  /-- An arrival of a TWU group. -/
  | twu (g inst : Nat)
  /-- A trigger on a line of the trigger bus, its origin, and whether its instant is only the tick of receipt. -/
  | link (line inst origin : Nat) (unsync : Bool)
  /-- A violation of a mask test. -/
  | mask (m inst : Nat)
  deriving DecidableEq, Repr

/-- A sequencer (R324 to R326): its counters, the TSC and the angle times at which its state was entered, the angle timers
that have fired, and a RESTART that waits for the next tick. -/
structure AsySeq where
  cnt : List Nat := [0, 0]
  start : Nat := 0
  ang : List Nat := [0, 0, 0, 0]
  fired : List Bool := [false, false]
  restart : Bool := false
  deriving DecidableEq, Repr

/-- A raw comparator (R322): the channel, index and code of the last sample, and the directions that wait for HYST. -/
structure AsyCmp where
  ch : Nat := 0
  last : Option (Nat × Int) := none
  noRise : Bool := false
  noFall : Bool := false
  deriving DecidableEq, Repr

/-- A segment in progress (R327 to R331): the trigger's instant (50 ps units), primary bit, mask, source, state left and
transition, link flags, the first sample's index, DEAD, and the lengths in force. -/
structure AsySeg where
  inst : Nat
  prim : Nat
  smask : Nat
  psrc : Nat
  from_ : Nat
  flags : Nat
  first : Int
  dead : Nat
  len : Nat
  post : Nat
  postReq : Nat
  maskno : Option Nat
  deriving DecidableEq, Repr

/-- A record area: LEN, POST and POST_REQ of its arming, its segments since its start, whether the next is the first since
its start, the instant of its last sample (50 ps units), the segment in progress, the slots that hold FROZEN
segments, and the slot of each segment that record memory still holds, by its WIDX count. -/
structure AsyArea where
  len : Nat := 0
  post : Nat := 0
  postReq : Nat := 0
  segno : Nat := 0
  fresh : Bool := true
  last : Option Nat := none
  seg : Option AsySeg := none
  frozen : List Nat := []
  slots : SMap Nat := []
  deriving DecidableEq, Repr

/-- A mask test (R338): violating steps in a row, and the steps without one that are still to pass after a violation. -/
structure AsyMask where
  run : Nat := 0
  hold : Nat := 0
  deriving DecidableEq, Repr

/-- An interval of a trend channel (R340 to R342): its number, the count of calendar steps before its latest sample, the
instants of its first and last step, its counts, and its reductions. -/
structure TrendInt where
  id : Nat
  cal : Nat
  start : Nat
  stop : Nat
  nval : Nat := 0
  ninv : Nat := 0
  min : Rat := 0
  max : Rat := 0
  sum : Rat := 0
  sumSq : Rat := 0
  flags : Nat := 0
  deriving DecidableEq, Repr

/-- A trend channel: the number of the interval it skips before it starts, the interval in progress, those that have ended with the TSC of
their end, its SEQNO and whether a record was lost. -/
structure Trend where
  skip : Option Nat := none
  cur : Option TrendInt := none
  ended : List (Nat × TrendInt) := []
  seqno : Nat := 0
  lost : Bool := false
  deriving DecidableEq, Repr

/-- A step in the point history: its index, its face, and its entries as (address, QUAL, VALUE word). -/
structure HistStep where
  k : Nat
  face : Nat
  entries : List (Nat × Nat × Nat)
  deriving DecidableEq, Repr

/-- Assay: whether it has started, its ticks' latest TSC, the points presented as of now and as of the last tick, what has
been presented since and in the last tick, the sequencers' items (R321), the sequencers, the comparators, the raw ring's sample lumps and headers by
channel (latest first), the point history by domain (latest first), the range each half's
comparators have presented, the areas, the mask tests, their limits and the trend channels. -/
structure Assay where
  started : Bool := false
  tickAt : Option Nat := none
  pts : SMap AsyPt := []
  before : SMap AsyPt := []
  pres : List Pres := []
  presBefore : List Pres := []
  items : SMap Nat := []
  seqs : SMap AsySeq := []
  cmps : SMap AsyCmp := []
  raw : SMap (List (Nat × List (BitVec 16))) := []
  hdrs : SMap (List RawHeader) := []
  hist : SMap (List HistStep) := []
  range : SMap Nat := []
  areas : SMap AsyArea := []
  masks : SMap AsyMask := []
  env : SMap Nat := []
  trends : SMap Trend := []
  deriving DecidableEq, Repr

/-- The trigger link (R343 to R347): PPS edges since it went DOWN, the local TSC of the latest edge, the head's second, CUM
and HOP of port U (50 ps units) once they are known, OFS at the latest edge (50 ps units), the drift of the REF rate, the
offsets that agree so far, bad frames in a row, the probes returned; towards port D the probes sent, the round trips and the HOP measured. -/
structure Tlk where
  edges : Nat := 0
  edgeAt : Nat := 0
  second : Option Nat := none
  cum : Option Nat := none
  ofs : Int := 0
  rate : Int := 0
  agree : List Int := []
  bad : Nat := 0
  echoes : Nat := 0
  probes : Nat := 0
  trips : List Nat := []
  hopDown : Nat := 0
  deriving DecidableEq, Repr

/-- An entry of the failure area (R517). -/
structure FEntry where
  kind : Nat
  src : Nat
  pcyc : Nat
  tsc : Nat
  opsec : Nat
  arg0 : Nat
  arg1 : Nat
  deriving DecidableEq, Repr

/-- A posted launch descriptor (R398): its place in the ring, the descriptor, where it stands (0 posted, 1 held for its launch, 2
ready, 3 in transmission, 4 completed), the status it will complete with, and whether its frame has been read. -/
structure LqEnt where
  ix : Nat
  desc : LqDesc
  st : Nat := 0
  status : Nat := 0
  read : Bool := false
  deriving DecidableEq, Repr

/-- A launch queue (R397 to R403): its applied configuration, the descriptors posted and not completed, the place of the next
one, whether it has stopped at a descriptor that could not be read, and how many of those still to be read were posted before the latest
step of CAL (R401). -/
structure LQueue where
  en : Bool := false
  latepol : Bool := false
  size : Nat := 4
  base : Nat := 0
  ents : List LqEnt := []
  next : Nat := 0
  stopped : Bool := false
  stale : Nat := 0
  deriving DecidableEq, Repr

/-- A port: the queue whose frame it sends and whether that frame is timed, and its window of R384 with the bits passed in it. -/
structure NetPort where
  busy : Option (Nat × Bool) := none
  win : Nat := 0
  used : Nat := 0
  deriving DecidableEq, Repr

/-- A foreign master of a PTP port: its latest Announce, the TSC of it and of the one before. -/
structure Foreign where
  ann : Announce
  last : Nat
  prev : Option Nat := none
  deriving DecidableEq, Repr

/-- A PTP port: its foreign masters, the number of its latest Pdelay_Req and its transmit stamp (1/16 ns). -/
structure PtpPort where
  masters : List Foreign := []
  seq : Nat := 0
  t1 : Option Nat := none
  deriving DecidableEq, Repr

/-- A Sync that waits for its Follow_Up: its number, receive stamp (1/16 ns), correction (1/16 ns) and TSC of reception. -/
structure SyncWait where
  seq : Nat
  t2 : Nat
  corr : Int
  at_ : Nat
  deriving DecidableEq, Repr

/-- The calendar servo (R391 to R396): the TSC of the latest Sync of the selected master and of the latest step, the measurements that
first lock collects, the integral, whether the latest measurement was one beyond 100 ms, good ones in a row in SUSPECT, and the
latest measurement with its TSC. -/
structure Servo where
  wait : Option SyncWait := none
  lastSync : Option Nat := none
  lastStep : Option Nat := none
  meas : List Int := []
  s : Rat := 0
  outlier : Bool := false
  good : Nat := 0
  latest : Option (Int × Nat) := none
  deriving DecidableEq, Repr

/-- A frame's entry in a pair's duplicate-discard table (R382): source, sequence number, TSC. -/
structure DupEnt where
  src : Nat
  seq : Nat
  tsc : Nat
  deriving DecidableEq, Repr

/-- The network ports, the duplicate tables of the two pairs, the launch queues, the PTP ports, the SLAVE port and the servo. -/
structure Net where
  ports : SMap NetPort := []
  dup : SMap (List DupEnt) := []
  lq : SMap LQueue := []
  ptp : SMap PtpPort := []
  slave : Option Nat := none
  servo : Servo := {}
  deriving DecidableEq, Repr

/-- A record as Tally has released it: with its power cycle, OPSEC and calendar (R363, R364). -/
structure RelRec where
  body : Record
  pcyc : Nat
  opsec : Nat
  cal : Nat
  calst : Nat
  deriving DecidableEq, Repr

/-- A Tally channel as the MRAM holds it (R357, R370, R377): the layout its regions are formatted with, the next SEQ, the units
written to each region since the format, GEN, whether the last record is LOG_CLOSE, the records written to each region (SEQ, first unit,
count of units; latest first), the side ring and whether it was left by an earlier power cycle. -/
structure TlyCh where
  en : Bool := false
  full : Bool := false
  nbase : Nat := 0
  nsize : Nat := 0
  fbase : Nat := 0
  fsize : Nat := 0
  seq : Nat := 0
  npos : Nat := 0
  fpos : Nat := 0
  gen : Nat := 0
  clean : Bool := false
  near : List (Nat × Nat × Nat) := []
  far : List (Nat × Nat × Nat) := []
  side : List RelRec := []
  deriving DecidableEq, Repr

/-- Tally's volatile part: the merge buffer, the place in the order of R72 of the latest record released, whether the near store
is open, the TSC of each channel's latest capture and the place of its trigger in the order of R72, the units on their way to the far store by channel (unit number, TSC,
bytes; oldest first), those that found the far backlog full and the time-stamp of the first, and whether LOG_CLOSE has been written. -/
structure Tally where
  merge : List Record := []
  lastRel : Option (Nat × Nat × Nat) := none
  opened : Bool := false
  caps : SMap (Nat × Nat × Nat × Nat) := []
  pages : SMap (List (Nat × Nat × List Byte)) := []
  farLost : Nat := 0
  farFirst : Nat := 0
  closed : Bool := false
  deriving DecidableEq, Repr

/-- A key slot (R430): the OTP hash, empty while the slot is unprogrammed, its revocation fuse, and the MRAM copy of the key. -/
structure KeySlot where
  hash : List Byte := []
  revoked : Bool := false
  pub : List Byte := []
  deriving DecidableEq, Repr

/-- An entry of a power-fail snapshot: PATHID, cell type and state. -/
structure SnapCell where
  path : Nat
  ctype : Nat
  st : CellSt
  deriving DecidableEq, Repr

/-- A copy of the power-fail snapshot (R471): its header, its entries by cell node, and whether its CHECK has been completed and
holds. -/
structure Snap where
  pcyc : Nat := 0
  calst : Nat := 0
  tsc : Nat := 0
  cal : Nat := 0
  thyme : Nat := 0
  opsec : Nat := 0
  cells : SMap SnapCell := []
  ok : Bool := false
  deriving DecidableEq, Repr

/-- Thyme (R448, R473, R474): its count at TSC 0 of the present power cycle, whether it runs, its VALID flag, the count latched at the
latest entry to HOLD, and the openings of the tamper loop that it counted while unpowered, with its counts at the first and the last. -/
structure Thyme where
  base : Nat := 0
  run : Bool := true
  valid : Bool := false
  latched : Nat := 0
  opens : Nat := 0
  first : Nat := 0
  last : Nat := 0
  deriving DecidableEq, Repr

/-- What outlives the supply: Headframe MRAM, OTP, the image slots, Thyme (`nv` of log entry 9 as manufactured). -/
structure Nv where
  pcyc : Nat := 1
  opsec : Nat := 0
  farea : SMap FEntry := []
  fareaNext : Nat := 0
  canary : Option (List Byte) := none
  chans : SMap TlyCh := []
  near : Memory := []
  far : Memory := []
  logloss : Bool := false
  fareaBad : List Nat := []
  keys : SMap KeySlot := []
  rows : List Nat := []
  slots : SMap (List Byte) := []
  pref : Nat := 0
  startmode : Nat := 0
  snaps : SMap Snap := []
  thyme : Thyme := {}
  deriving DecidableEq, Repr

/-- A submission (R436): who made it and its copy of SYS_MBX, the words that are not 0. -/
structure Sub where
  req : Requester
  words : SMap Nat
  deriving DecidableEq, Repr

/-- Headframe (R428, R436, R514 to R516): the submissions not yet done in the order of their GO, whether the first has been
validated, whether the cores are held in reset and for good, the TSC of each fault (latest first), the slots tried since entry
to BOOT and whether one has passed, whether the ROM has run, how BOOT was entered; and the snapshot and closing of logs that an entry to
HOLD starts: its TSC, whether it came from RESTART, the copy being written with the faces still to contribute, and whether the logs are closed,
the snapshot failed, HOLD_DONE was recorded, and the TSC of a fault in that HOLD. -/
structure Hfr where
  subs : List Sub := []
  waiting : Bool := false
  held : Bool := false
  giveup : Bool := false
  faults : List Nat := []
  tried : List Nat := []
  passed : Bool := false
  rom : Bool := false
  origin : Nat := 0
  holdAt : Nat := 0
  restart : Bool := false
  snap : Option (Nat × List Nat) := none
  snapFailed : Bool := false
  logsClosed : Bool := false
  holdDone : Bool := false
  holdFault : Option Nat := none
  deriving DecidableEq, Repr

/-- Sage: the TSC at which the pass in progress started, none while the next pass is held or Sage does not run; the TSC at which the
latest pass ended; whether a pass has completed, and whether the latest compared equal in every region. -/
structure SageSt where
  start : Option Nat := none
  ended : Option Nat := none
  passed : Bool := false
  equal : Bool := false
  deriving DecidableEq, Repr

/-- A power half's monitor (R477): the TSC of its failure, whether its converters run again, its readmissions (latest first). -/
structure HalfSt where
  failedAt : Nat := 0
  restarted : Bool := false
  readmits : List Nat := []
  deriving DecidableEq, Repr

/-- The part of a segment or block that a mover has copied (R416, R419): its slot, its bytes in all, its SEGNO, the bytes
copied. -/
structure MvPart where
  slot : Nat := 0
  total : Nat := 0
  segno : Nat := 0
  ofs : Nat := 0
  deriving DecidableEq, Repr

/-- A mover (R413 to R422): the descriptor it has read and owns, the item it is in, whether its next buffer completes as GAP,
whether it waits for a TAIL write after a descriptor with OWN = 0, the descriptors that are still to be completed as ABORTED, the
blocks of its queue by the count of blocks posted before, that count, the place in it and the block number it waits for, whether the
write that hands back the descriptor at HEAD is on its way. -/
structure Mover where
  cur : Option MvDesc := none
  part : Option MvPart := none
  gap : Bool := false
  wait : Bool := false
  abort : Nat := 0
  blocks : SMap Block := []
  posted : Nat := 0
  bpos : Nat := 0
  want : Option Nat := none
  closing : Bool := false
  deriving DecidableEq, Repr

/-- The PCIe endpoint (R406, R407, R412): whether PERST# is asserted, the moment from which it trains, the bits of its
configuration space that act, whether DRAM is initialised, and the mover whose write request was granted last (R421). -/
structure Pcie where
  perst : Bool := true
  start : Option Nat := none
  msixEn : Bool := false
  fmask : Bool := false
  d3 : Bool := false
  dram : Bool := false
  granted : Nat := 7
  deriving DecidableEq, Repr

/-- What leaves the part, in order. -/
inductive Output where
  /-- An MSI-X message of a vector (R412). -/
  | msix (vector : Nat) (addr : Nat) (data : Nat)
  /-- A trigger-link frame on port U (`false`) or D (`true`), with the TSC at which it starts (R344 to R347). -/
  | link (portD : Bool) (tsc : Nat) (frame : BitVec 80)
  /-- The PPS edge on port D of the trigger link (R343). -/
  | linkPps (tsc : Nat)
  /-- A frame leaves a network port from a launch queue (R399): queue, descriptor, its length, and whether its FCS is inverted, as it holds a
  poisoned word of DRAM (R510). -/
  | frame (port queue ix len : Nat) (inverted : Bool)
  /-- A frame is forwarded on the other port of an HSR ring (R382), with the correction added to it (R388). -/
  | forward (port : Nat) (f : NetFrame) (corr : Nat)
  /-- A frame is passed to Gallery's receive rings (R383). -/
  | toGallery (port : Nat) (f : NetFrame)
  /-- A PTP message of the responder or requester (R387): port, kind (0 Pdelay_Req, 1 Pdelay_Resp, 2 its follow-up), number, time-stamp
  in 1/16 ns of CAL, VLAN. -/
  | ptp (port kind seq stamp : Nat) (vlan : Option Nat)
  /-- Bytes written to host memory. -/
  | hostWrite (addr : Nat) (bytes : List Byte)
  /-- The bytes that answer a BAR2 read, and whether the completion carries EP (R409). -/
  | bar2 (offset : Nat) (bytes : List Byte) (ep : Bool)
  /-- Bytes written to Gallery's or Headframe's DRAM. -/
  | dramWrite (addr : Nat) (bytes : List Byte)
  /-- The LOGLOSS event, passed to the vendor communications stack in Gallery (R376, R403). -/
  | logLoss
  deriving DecidableEq, Repr

/-- The answer to an access: its value, or the abort of R49. -/
structure Completion where
  req : Requester
  value : Dword
  abort : Bool
  deriving DecidableEq, Repr

/-- Everything the part holds but the queue of waiting commands.  `insts` holds the instants of every timing domain, latest first: 3 × clock + the
code of N for the angle domains, 12 for the fixed rate (R180).  `svPart` holds for each
port the octet at which the next part of a sampled-value frame must start, and `svIn` its frames that SVI has still to take. -/
structure Dev where
  tsc : Nat := 0
  mode : Mode := .boot
  regs : SMap Nat := []
  holding : SMap Nat := []
  shadow : SMap Nat := []
  fresh : SMap Bool := []
  wrHold : SMap Nat := []
  wrFresh : SMap Bool := []
  completions : List Completion := []
  out : List Output := []
  free : Nat := 0
  recOrder : Nat := 0
  recq : SMap RecQ := []
  skips : SMap Skip := []
  vecLast : SMap Nat := []
  clk : Clk := {}
  ang : SMap Ang := []
  afe : Afe := {}
  afeCh : SMap AfeCh := []
  aux : Aux := {}
  fltCh : SMap FltCh := []
  coef : SMap Int := []
  insts : SMap (List Inst) := []
  taps : SMap (List TapInst) := []
  fr : FrTap := {}
  svi : SMap SvSub := []
  svPart : SMap Nat := []
  svIn : SMap (List (Nat × Option SvFrame)) := []
  seam : Seam := {}
  twu : Twu := {}
  fio : Fio := {}
  asy : Assay := {}
  tlk : Tlk := {}
  tly : Tally := {}
  net : Net := {}
  recMem : Memory := []
  bad : SMap (List Nat) := []
  mov : SMap Mover := []
  pcie : Pcie := {}
  field : SMap Field := []
  opsec0 : Nat := 1
  fareaCnt : SMap Nat := []
  hfr : Hfr := {}
  sage : SageSt := {}
  halves : SMap HalfSt := []
  lockQ : SMap (List Nat) := []
  lockSup : SMap Nat := []
  pps : Option Nat := none
  nv : Nv := {}
  deriving DecidableEq, Repr

/-- The state of the block: the device and the commands that wait, first in, first out. -/
structure State where
  dev : Dev
  pending : List Instr
  deriving DecidableEq, Repr

/-- Why a step can stop. -/
inductive Fault where
  /-- Raised by every meaning whose operands are ill-formed (`Instr.wf` refuses them): nothing outside the part can make
  such a command.  Safe: the hardware never goes on from one. -/
  | illFormed
  deriving DecidableEq, Repr

/-- Why a command can be refused. -/
inductive Refusal where
  /-- Raised by an arm of `exec` that has no meaning yet.  Safe: nothing is claimed of the command. -/
  | notModelled (mnemonic : String)
  deriving DecidableEq, Repr

/-- The outcome of a meaning. -/
abbrev Out := Host.Outcome State Fault Refusal

/-- The machine right after its entry to BOOT from OFF at TSC 0. -/
def State.reset : State := ⟨{}, []⟩

end Sys2Proof.Machine
end

