-- ==== Sys2Proof/Machine/Ops.lean ====
section
/-!
DEFINITION. The operations every block shares: registers by field, trouble bits, interrupt vectors, free values, the
calendar, skips, records and mode changes.
-/
namespace Sys2Proof.Machine

/-! ### Registers by field -/

/-- The value of a register field as it is stored (R7: its reset value until something sets it). -/
def Dev.getF (d : Dev) (f : Fld) (i : Nat := 0) : Nat := SMap.getD d.regs (f.key i) (f.reset i)

/-- Stores a field, cut to its width. -/
def Dev.setF (d : Dev) (f : Fld) (i : Nat) (v : Nat) : Dev :=
  { d with regs := SMap.set d.regs (f.key i) (v % 2 ^ f.len) }

/-- A one-bit field as a truth value. -/
def Dev.getB (d : Dev) (f : Fld) (i : Nat := 0) : Bool := d.getF f i != 0

/-- Stores a truth value in a one-bit field. -/
def Dev.setB (d : Dev) (f : Fld) (i : Nat) (b : Bool) : Dev := d.setF f i b.toNat

/-- Adds to a counter, which stops at all ones (R41). -/
def Dev.addF (d : Dev) (f : Fld) (i : Nat) (n : Nat) : Dev := d.setF f i (min (d.getF f i + n) (2 ^ f.len - 1))

/-- Adds 1 to a counter, which stops at all ones (R41). -/
def Dev.incF (d : Dev) (f : Fld) (i : Nat := 0) : Dev := d.addF f i 1

/-- Adds 1 to a counter that wraps. -/
def Dev.incWrap (d : Dev) (f : Fld) (i : Nat := 0) : Dev := d.setF f i (d.getF f i + 1)

/-- Sets bit `k` of a field. -/
def Dev.setBit (d : Dev) (f : Fld) (i k : Nat) : Dev := d.setF f i (d.getF f i ||| 2 ^ k)

/-- Clears bit `k` of a field. -/
def Dev.clrBit (d : Dev) (f : Fld) (i k : Nat) : Dev := d.setF f i (d.getF f i - (d.getF f i &&& 2 ^ k))

/-- Bit `k` of a field. -/
def Dev.bitF (d : Dev) (f : Fld) (i k : Nat) : Bool := (d.getF f i).testBit k

/-! ### Interrupt vectors and trouble bits -/

/-- An event of vector `v` sets its pending bit (R412). -/
def Dev.fire (d : Dev) (v : Nat) : Dev := d.setBit F.DMA_PBA_PBA (v / 32) (v % 32)

/-- Sets a trouble bit; its rise fires vector 2 (R519). -/
def Dev.trouble (d : Dev) (f : Fld) : Dev :=
  if d.getB f then d else (d.setF f 0 1).fire 2

/-- Sets bit `k` of a flag field; its rise fires vector `v` (R411). -/
def Dev.flag (d : Dev) (f : Fld) (i k v : Nat) : Dev :=
  if d.bitF f i k then d else (d.setBit f i k).fire v

/-! ### Free values -/

/-- The next free value. -/
def Dev.peekFree (d : Dev) : Nat := (Config.free d.free).toNat

/-- Moves on to the next free value. -/
def Dev.draw (d : Dev) : Dev := { d with free := d.free + 1 }

/-- Stores a free value in a field. -/
def Dev.setFree (d : Dev) (f : Fld) (i : Nat) : Dev := (d.setF f i d.peekFree).draw

/-! ### The calendar (R66) -/

/-- The accumulator of the calendar at a TSC of a stretch. -/
def CalSeg.at (s : CalSeg) (t : Nat) : Nat :=
  (((s.acc : Int) + ((t : Int) - s.tsc) * (2 ^ 40 + s.rate)) % 2 ^ 104).toNat

/-- The stretch in force at a TSC. -/
def calSegAt : List CalSeg → Nat → CalSeg
  | [], _ => {}
  | [s], _ => s
  | s :: ss, t => if s.tsc ≤ t then s else calSegAt ss t

/-- The present stretch. -/
def Dev.calSeg (d : Dev) : CalSeg := d.clk.cal.headD {}

/-- CAL now (R66). -/
def Dev.cal (d : Dev) : Nat := (d.calSeg.at d.tsc) / 2 ^ 40

/-- CAL at a TSC, from the step history (R364). -/
def Dev.calAt (d : Dev) (t : Nat) : Nat := ((calSegAt d.clk.cal t).at t) / 2 ^ 40

/-- The state of the calendar now (CLK_CAL_STAT.STATE). -/
def Dev.calState (d : Dev) : Nat := d.calSeg.state

/-- A short time-stamp later than another (R69). -/
def stampLater (a b : Nat) : Bool := decide (0 < sgn 32 (a + 2 ^ 32 - b % 2 ^ 32))

/-! ### Skips (R13 to R25) -/

/-- The class of a protection skip (R17). -/
def skipProt (n : Nat) : Bool := decide (6 ≤ n ∧ n ≤ 21)

/-- The class of a bulk skip (R17). -/
def skipBulk (n : Nat) : Bool := decide ((22 ≤ n ∧ n ≤ 26) ∨ n = 29 ∨ n = 30)

/-- SKIP_STATn.CLASS: 0 stream, 1 protection, 2 bulk. -/
def skipClass (n : Nat) : Nat := if skipProt n then 1 else if skipBulk n then 2 else 0

/-- The capacity of a skip in lumps (R17). -/
def skipCap (n : Nat) : Nat :=
  if n < 4 then 256 else if n < 6 then 1024 else if n < 14 then 512 else if n < 18 then 64 else if n < 22 then 32
  else if n < 26 then 256 else if n < 27 then 1024 else if n < 29 then 2048 else if n < 30 then 128
  else if n < 31 then 256 else 0

/-- The half that a skip's row of R17 names, if it names one. -/
def skipHalf (n : Nat) : Option Half :=
  if n < 6 then some (if n % 2 = 0 then .north else .south)
  else if n < 26 then some (if (n - 6) % 4 < 2 then .north else .south)
  else if n = 27 then some .north
  else if n = 28 then some .south
  else none

/-- The half that a source lies in: converters, chains, FLT producers, faces, banks, ports and Gallery cores; none for the core
domain (R10, R58, R70, R121, R139, R404). -/
def srcHalf (src : Nat) : Option Half :=
  let at_ (first south last : Nat) : Option Half :=
    if first ≤ src ∧ src < last then some (if src < south then .north else .south) else none
  [at_ 0x020 0x028 0x030, at_ 0x050 0x058 0x060, at_ 0x060 0x064 0x068, at_ 0x068 0x069 0x06A, at_ 0x100 0x180 0x200,
    at_ 0x220 0x222 0x224, at_ 0x240 0x241 0x242, at_ 0x242 0x243 0x244, at_ 0x280 0x284 0x288].findSome? id

/-- Whether a power half is offline (SYS_HALF). -/
def Dev.halfOff (d : Dev) : Half → Bool
  | .north => d.getB F.SYS_HALF_N_OFF
  | .south => d.getB F.SYS_HALF_S_OFF

/-- Whether a source lies in an offline half. -/
def Dev.srcOff (d : Dev) (src : Nat) : Bool :=
  match srcHalf src with
  | some h => d.halfOff h
  | none => false

/-- A skip; an unlisted one is as on entry to BOOT (R24). -/
def Dev.skip (d : Dev) (n : Nat) : Skip := SMap.getD d.skips n {}

/-- Replaces a skip. -/
def Dev.setSkip (d : Dev) (n : Nat) (s : Skip) : Dev := { d with skips := SMap.set d.skips n s }

/-- Lumps held, both classes (SKIP_STATn.DEPTH). -/
def Skip.depth (s : Skip) : Nat := s.queue.length

/-- Protection-class lumps held (SKIP_HWMn.PDEPTH). -/
def Skip.pdepth (s : Skip) : Nat := s.queue.countP fun l => l.tag.pclass

/-- Lumps held, those whose credit is on its way back included, of both classes: `pdepth + gdepth` of R14. -/
def Skip.total (s : Skip) : Nat := s.depth + s.returning.length

/-- General lumps held, those whose credit is on its way back included: `gdepth` of R14. -/
def Skip.gdepth (s : Skip) : Nat := s.queue.countP (fun l => !l.tag.pclass) + s.returning.countP (fun c => !c)

/-- The admission rule of R14; a producer sends only on a credit (R13). -/
def Skip.admits (s : Skip) (n : Nat) (pclass : Bool) : Bool :=
  if s.credits = 0 then false
  else if pclass then decide (s.total < skipCap n)
  else decide (s.gdepth < skipCap n - s.resv ∧ s.total < skipCap n)

/-- Which producer a lump comes from.  Its source number stands in the low 12 bits of `src`; where one source has a second
producer (R169) `src` is 4096 more, and where a pit sends for its faces (R191) what stands above them numbers the pit. -/
def prodKey (src : Nat) : Nat := if 8192 ≤ src then src / 4096 * 65536 else src

/-- A producer of a skip; one that has sent nothing since the skip left OFFLINE starts with GAP (R22). -/
def Skip.prod (s : Skip) (src : Nat) : Prod := SMap.getD s.prods (prodKey src) { gap := s.rejoined, back := s.rejoined }

/-- The producer as its next lump after an outage finds it: GAP = 1 and LOST = 0 (R22, R523). -/
def Prod.afterOutage (p : Prod) : Prod := { p with lost := 0, gap := true, back := true }

/-- Sends an admitted lump: one credit less, one lump more, GAP and LOST as R13 gives them. -/
def Dev.push (d : Dev) (n src : Nat) (pclass : Bool) (seq len : Nat) (body : LumpBody) : Dev :=
  let s := d.skip n
  let p := s.prod src
  let tag : Tag := ⟨BitVec.ofNat 8 seq, p.gap, pclass && skipProt n, if p.gap then p.lost else 0, len, src % 4096⟩
  let prods := SMap.set s.prods (prodKey src) { p with lost := 0, gap := false, back := false }
  let s' := { s with credits := s.credits - 1, queue := s.queue ++ [⟨tag, body, d.tsc⟩], prods := prods }
  let d := d.setSkip n s'
  d.setF F.SKIP_HWM_HWM n (max (d.getF F.SKIP_HWM_HWM n) s'.depth)

/-- Counts a lump produced on a skip; SEQ counts dropped lumps too (R13). -/
def Dev.countProduced (d : Dev) (n src : Nat) : Dev :=
  let s := d.skip n
  let p := s.prod src
  d.setSkip n { s with prods := SMap.set s.prods (prodKey src) { p with seq := (p.seq + 1) % 256 } }

/-! ### Records (R354 to R365) -/

/-- The producer's queue of records. -/
def Dev.recQ (d : Dev) (src : Nat) : RecQ := SMap.getD d.recq src {}

/-- The RECORD_LOSS record of a producer (R356). -/
def lossRecord (src lost first tsc : Nat) : Record :=
  { typ := 0x0064, src := src, tsc := tsc, fields := [(4, lost), (8, first)] }

/-- The lump that carries a record: one lump a record (log entry 8). -/
def recLen (r : Record) : Nat := min 8 ((10 + (packFields r.fields).length + 7) / 8)

/-- Sends one record on skip 29, which has room for it. -/
def Dev.pushRecord (d : Dev) (r : Record) : Dev :=
  let q := (d.skip 29).prod r.src
  let d := d.countProduced 29 r.src
  d.push 29 r.src false q.seq (recLen r) (.record r)

/-- A producer sends the first lump of its queue where skip 29 runs and gives credit and its half has power: the RECORD_LOSS
that goes before a record, then the record (R18, R356, R523). -/
def Dev.drainOne (d : Dev) (src : Nat) : Dev :=
  let q := d.recQ src
  match q.items with
  | [] => d
  | (loss, r) :: rest =>
    if (d.skip 29).st = .run ∧ (d.skip 29).admits 29 false ∧ d.srcOff src = false then
      match loss with
      | some l => { d with recq := SMap.set d.recq src { q with items := (none, r) :: rest } }.pushRecord l
      | none => { d with recq := SMap.set d.recq src { q with items := rest } }.pushRecord r
    else d

/-- Sends what a producer's queue holds. -/
def Dev.drainQ : Nat → Nat → Dev → Dev
  | 0, _, d => d
  | n + 1, src, d => drainQ n src (d.drainOne src)

/-- Fabric cycles in each of which every producer asks for one credit, granted in ascending source number (R15). -/
def Dev.drainRounds : Nat → Dev → Dev
  | 0, d => d
  | n + 1, d => drainRounds n (d.recq.foldl (fun d p => d.drainOne p.1) d)

/-- The producers of records send what they hold, in the order of R15; a queue holds at most 32 lumps. -/
def Dev.drainAll (d : Dev) : Dev := if d.recq.all (fun p => p.2.items.isEmpty) then d else d.drainRounds 32

/-- The lumps of an entry of a producer's queue. -/
def recLumps (x : Option Record × Record) : Nat := if x.1.isSome then 2 else 1

/-- Counts each lump that the producers of a choice still hold as one that has to wait on skip 29 (R18). -/
def Dev.countStalls (d : Dev) (p : Nat → Bool) : Dev :=
  let n := d.recq.foldl (fun n q => if p q.1 && !d.srcOff q.1 then n + (q.2.items.map recLumps).sum else n) 0
  if n = 0 then d else d.addF F.SKIP_STALL_STALL 29 n

/-- A block requests a record: it joins the producer's queue, or is lost when that holds 16 (R356), and is sent at once
where skip 29 gives credit.  Each of its lumps that has to wait on a running skip counts one stall (R18). -/
def Dev.requestRecord (d : Dev) (r : Record) : Dev :=
  let q := d.recQ r.src
  let r := { r with order := d.recOrder }
  let d := { d with recOrder := d.recOrder + 1 }
  if 16 ≤ q.items.length then
    let q' := { q with lost := q.lost + 1, first := if q.lost = 0 then r.tsc else q.first }
    { d with recq := SMap.set d.recq r.src q' }
  else
    let loss := if q.lost = 0 then none else some { lossRecord r.src q.lost q.first d.tsc with order := r.order }
    let d := { d with recq := SMap.set d.recq r.src ⟨q.items ++ [(loss, r)], 0, 0⟩ }
    let d := Dev.drainQ 32 r.src d
    match (d.recQ r.src).items.getLast? with
    | some x => if (d.skip 29).st = .run ∧ d.srcOff r.src = false then d.addF F.SKIP_STALL_STALL 29 (recLumps x) else d
    | none => d

/-- Requests a record stamped now (R355). -/
def Dev.record (d : Dev) (typ src : Nat) (fields : List (Nat × Nat)) : Dev :=
  d.requestRecord { typ := typ, src := src, tsc := d.tsc, fields := fields }

/-! ### Operating time and the failure area (R363, R517, R518) -/

/-- OPSEC at a TSC (R363). -/
def Dev.opsecAt (d : Dev) (t : Nat) : Nat := (d.opsec0 + t / 1000000000) % 2 ^ 32

/-- Writes an entry into the failure area: at most four of one kind a power cycle; places 0 to 47 once, then 48 to 63 as
a ring, whose overwrites set TRB.FAREA_WRAP (R518). -/
def Dev.farea (d : Dev) (kind src arg0 arg1 : Nat) : Dev :=
  let n := SMap.getD d.fareaCnt kind 0
  if 4 ≤ n then d
  else
    let e : FEntry := ⟨kind, src, d.nv.pcyc, d.tsc, d.opsecAt d.tsc, arg0, arg1⟩
    let at_ := if d.nv.fareaNext < 64 then d.nv.fareaNext else 48 + (d.nv.fareaNext - 64) % 16
    let nv := { d.nv with farea := SMap.set d.nv.farea at_ e, fareaNext := d.nv.fareaNext + 1 }
    let d' := { d with nv := nv, fareaCnt := SMap.set d.fareaCnt kind (n + 1) }
    if 64 ≤ d.nv.fareaNext then d'.trouble F.TRB_STICKY3_FAREA_WRAP else d'

/-! ### Poisoned words (R508, R510) -/

/-- Whether the word of a region that holds a byte is poisoned; `Dev.bad` lists a region's poisoned 8 B words. -/
def Dev.poisoned (d : Dev) (r a : Nat) : Bool := (SMap.getD d.bad r []).contains (a / 8)

/-- A write of whole words clears their poison (R508). -/
def Dev.unpoison (d : Dev) (r a n : Nat) : Dev :=
  match SMap.get? d.bad r with
  | none => d
  | some l => { d with bad := SMap.put [] d.bad r (l.filter fun w => !decide (a ≤ 8 * w ∧ 8 * w + 8 ≤ a + n)) }

/-- Whether bytes from an address on touch a poisoned word. -/
def Dev.poisonIn (d : Dev) (r a n : Nat) : Bool := (SMap.getD d.bad r []).any fun w => decide (a < 8 * w + 8 ∧ 8 * w < a + n)

/-! ### Mode changes (R452, R463) -/

/-- Whether the trip gate stands open in a mode (R307). -/
def gateOpen (m : Mode) (testout : Bool) : Bool :=
  match m with
  | .protect => true
  | .degraded => true
  | .commission => testout
  | _ => false

/-- Sets the gate for the mode in force and requests the GATE record (R307, R365, R463). -/
def Dev.setGate (d : Dev) (testout : Bool) : Dev :=
  let o := gateOpen d.mode testout
  let d := (d.setB F.HFR_GATE_OPEN 0 o).setB F.HFR_GATE_TESTOUT 0 testout
  d.record 0x0015 0x224 [(1, o.toNat), (1, testout.toNat), (1, d.mode.code)]

/-- Outside a change of mode, the gate is recorded where its state changes (R307). -/
def Dev.updateGate (d : Dev) (testout : Bool) : Dev :=
  if d.getB F.HFR_GATE_OPEN = gateOpen d.mode testout ∧ d.getB F.HFR_GATE_TESTOUT = testout then d else d.setGate testout

/-- A change of mode as every one of them is reported (R463). -/
def Dev.changeMode (d : Dev) (m : Mode) (cause : Nat) : Dev :=
  let old := d.mode
  let d := { d with mode := m }
  let d := (d.setF F.SYS_MODE_PREV 0 old.code).setF F.SYS_MODE_CAUSE 0 cause
  let d := d.incF F.SYS_MODECNT_CHANGES
  let d := if m = .degraded then d.incF F.SYS_MODECNT_DEGR else d
  let d := d.record 0x0010 0x000 [(1, old.code), (1, m.code), (2, cause)]
  let d := d.fire 1
  d.setGate (if old = .commission then false else d.getB F.HFR_GATE_TESTOUT)

/-- A cause of DEGRADED: in PROTECT it changes the mode, in every other mode it changes none (R452). -/
def Dev.degradedCause (d : Dev) (cause : Nat) : Dev :=
  if d.mode = .protect then d.changeMode .degraded cause else d

/-! ### Sending on skips -/

/-- A stream or protection lump finds no credit: the actions of R19 in their order, and R20. -/
def Dev.exhausted (d : Dev) (n src : Nat) : Dev :=
  let s := d.skip n
  let p := s.prod src
  let d := (d.incF F.SKIP_STALL_STALL n).incF F.SKIP_DROP_DROP n
  let first := !(d.bitF F.SKIP_EXH_EXH 0 n)
  let d := d.setBit F.SKIP_EXH_EXH 0 n
  let d := d.trouble (if skipProt n then F.TRB_STICKY0_SKIP_PROT else F.TRB_STICKY0_SKIP_STREAM)
  let d := if first then d.record 0x0012 (src % 4096) [(1, n), (2, s.depth)] else d
  let s := d.skip n
  let lost := if p.back then 0 else min (p.lost + 1) 63
  let d := d.setSkip n { s with prods := SMap.set s.prods (prodKey src) { p with lost := lost, gap := true } }
  if skipProt n ∧ d.mode ≠ .commission then (d.setB F.SYS_DEGR_SKIP_PROT 0 true).degradedCause 0x0020 else d

/-- Whether a lump's producer comes before another on a bulk skip: the lower source number (R15), or on skip 30 the mover of the higher
PRIO and, among equal ones, the next in rotation after the last one granted (R421). -/
def Dev.before (d : Dev) (n a b : Nat) : Bool :=
  if n = 30 then
    let prio (s : Nat) : Nat := d.getF F.DMA_MVCTL_PRIO (s % 8)
    let turn (s : Nat) : Nat := (s % 8 + 7 - d.pcie.granted % 8) % 8
    decide (prio b < prio a) || (prio a == prio b && decide (turn a < turn b))
  else decide (a < b)

/-- The lump of a mover ends a write request of at most 256 B: rotation moves on (R421). -/
def Dev.grant (d : Dev) (src : Nat) (l : LumpBody) : Dev :=
  match l with
  | .hostWrite a b _ => if (a + b.length) % 256 = 0 ∨ b.length < 64 then { d with pcie := { d.pcie with granted := src % 8 } } else d
  | _ => d

/-- A producer offers a lump (R14, R18, R19): sent, held back on a bulk skip, or dropped.  On a bulk skip a lump is held back
while the same producer or one whose turn comes first waits (R15, R421).  A skip that does not run takes
nothing and counts nothing (R22, R25). -/
def Dev.sendLump (d : Dev) (n src : Nat) (pclass : Bool) (index : Option Nat) (len : Nat) (body : LumpBody) : Dev :=
  if (d.skip n).st ≠ .run then d
  else
    let seq := (index.getD ((d.skip n).prod src).seq) % 256
    let d := d.countProduced n src
    let s := d.skip n
    if skipBulk n then
      if s.admits n false ∧ s.waiting.all (fun l => d.before n src l.tag.src) then (d.push n src false seq len body).grant src body
      else
        let l : Lump := ⟨{ seq := BitVec.ofNat 8 seq, gap := false, pclass := false, lost := 0, len := len, src := src }, body, 0⟩
        (d.setSkip n { s with waiting := s.waiting ++ [l] }).incF F.SKIP_STALL_STALL n
    else if s.admits n (pclass && skipProt n) then d.push n src pclass seq len body
    else d.exhausted n src

/-- A bulk producer retries the lump it holds (R18); the credit goes to the source whose turn comes first of those that wait (R15,
R421). -/
def Dev.retryLump (d : Dev) (n src : Nat) : Dev :=
  if n = 29 then d.drainAll
  else
    let s := d.skip n
    match s.waiting.find? (fun l => l.tag.src = src) with
    | none => d
    | some l =>
      if s.st = .run ∧ s.admits n false ∧ s.waiting.all (fun l => l.tag.src == src || d.before n src l.tag.src) then
        ((d.setSkip n { s with waiting := s.waiting.erase l }).push n src false l.tag.seq.toNat l.tag.len l.body).grant src l.body
      else d

/-- The consumer takes the oldest lump of a running skip and returns its credit, which is on its way with at most three
others: the oldest of five reaches the producers at once (R13). -/
def Dev.takeLump (d : Dev) (n : Nat) : Dev × Option Lump :=
  let s := d.skip n
  match s.queue with
  | [] => (d, none)
  | l :: q =>
    if s.st = .run then
      let r := s.returning ++ [l.tag.pclass]
      if s.returning.length < 4 then (d.setSkip n { s with queue := q, returning := r }, some l)
      else (d.setSkip n { s with queue := q, returning := r.tail, credits := s.credits + 1 }, some l)
    else (d, none)

/-- A returned credit reaches the producers (R13); on skip 29 waiting records are sent with it. -/
def Dev.creditReturn (d : Dev) (n : Nat) : Dev :=
  let s := d.skip n
  if s.st = .run ∧ s.returning ≠ [] then
    let d := d.setSkip n { s with returning := s.returning.tail, credits := s.credits + 1 }
    if n = 29 then d.drainAll else d
  else d

/-! ### Power halves -/

/-- The half of an analogue channel (R10). -/
def chHalf (c : Nat) : Half := if c < 8 then .north else .south

/-- Whether the half that a skip's row names is offline (R22). -/
def Dev.skipOff (d : Dev) (n : Nat) : Bool :=
  match skipHalf n with
  | some h => d.halfOff h
  | none => false

/-- A skip starts: RUN with its credits at CAP (R24), or OFFLINE where its half is down, from which it returns to RUN (R22).  The
records that have waited for skip 29 are sent, and those that find no credit count as stalls (R18, R24). -/
def Dev.startSkip (d : Dev) (n : Nat) : Dev :=
  let s := d.skip n
  if s.st = .offline ∧ s.was = .unused then d.setSkip n { s with was := .run }
  else if s.st ≠ .unused then d
  else if d.skipOff n then d.setSkip n { s with st := .offline, was := .run }
  else
    let d := d.setSkip n { s with st := .run, credits := skipCap n }
    if n = 29 then (d.drainAll).countStalls fun _ => true else d

/-- A skip holds nothing and gives no credit: its queued lumps are discarded (R22, R25).  That its CREDITS then read 0, that no credit
is left on its way, and that a bulk producer gives up the lump it held back, is the model's choice (log entry 73). -/
def Skip.emptied (s : Skip) (st : SkipSt) : Skip := { s with st := st, queue := [], waiting := [], credits := 0, returning := [] }

/-- A skip enters OFFLINE from whatever state it is in (R22). -/
def Dev.skipOffline (d : Dev) (n : Nat) : Dev :=
  let s := d.skip n
  if s.st = .offline then d else d.setSkip n { s.emptied .offline with was := s.st }

/-- An OFFLINE skip returns to RUN with its credits at CAP, and every producer's next lump carries GAP and LOST = 0 (R22).  One that did
not run before returns to what it was, as R24 and R25 keep it there (log entry 73). -/
def Dev.skipRejoin (d : Dev) (n : Nat) : Dev :=
  let s := d.skip n
  if s.st ≠ .offline then d
  else if s.was ≠ .run then d.setSkip n { s with st := s.was }
  else
    let prods := s.prods.map fun p => (p.1, p.2.afterOutage)
    d.setSkip n { s with st := .run, credits := skipCap n, rejoined := true, prods := prods }

/-- A skip enters STOPPED (R25). -/
def Dev.skipStop (d : Dev) (n : Nat) : Dev := d.setSkip n ((d.skip n).emptied .stopped)

/-- On entry to SAFE, every skip but 29 and 30 stops (R25). -/
def Dev.stopSkips (d : Dev) : Dev :=
  (List.range 31).foldl (fun d n => if n = 29 ∨ n = 30 then d else d.skipStop n) d

/-! ### Running a command -/

/-- A command's effect on the device, with the queue left alone. -/
def State.run (s : State) (f : Dev → Dev) : Out := .next { s with dev := f s.dev }

/-- The effect of a command in every mode but OFF, in which only Thyme runs (R451). -/
def State.up (s : State) (f : Dev → Dev) : Out := s.run fun d => if d.mode = .off then d else f d

/-- The same for a command whose operands can be ill-formed. -/
def State.upWf (s : State) (ok : Bool) (f : Dev → Dev) : Out := if ok then s.up f else .fault .illFormed

/-- The modes in which Gallery runs: from release, and halted in HOLD and SAFE (R462). -/
def galleryRuns (m : Mode) : Bool :=
  match m with
  | .commission => true
  | .protect => true
  | .degraded => true
  | _ => false

/-- Whether a requester can access registers: a Gallery core while its half has power and Gallery runs (R10, R11, R462), Headframe while its
cores are not held in reset (R515). -/
def Dev.reqUp (d : Dev) (req : Requester) : Bool :=
  match req with
  | .headframe => !d.hfr.held
  | .host => true
  | .gallery _ => galleryRuns d.mode && !(d.srcOff req.src)

/-- The effect of an access by a requester, which is none where the requester does not run. -/
def State.access (s : State) (req : Requester) (f : Dev → Dev) : Out := s.up fun d => if d.reqUp req then f d else d

/-- The same for an access whose operands can be ill-formed. -/
def State.accessWf (s : State) (ok : Bool) (req : Requester) (f : Dev → Dev) : Out := if ok then s.access req f else .fault .illFormed

end Sys2Proof.Machine
end

