-- ==== Sys2Proof/Machine/Afe.lean ====
section
/-!
DEFINITION. The analogue front end and the auxiliary converter.
-/
namespace Sys2Proof.Machine

/-- A channel's state. -/
def Dev.afeChan (d : Dev) (c : Nat) : AfeCh := SMap.getD d.afeCh c {}

/-- Replaces a channel's state. -/
def Dev.setAfeChan (d : Dev) (c : Nat) (a : AfeCh) : Dev := { d with afeCh := SMap.set d.afeCh c a }

/-- Whether a channel's converter runs: the AFE stops in SAFE (R462) and with its half (R11). -/
def Dev.afeRuns (d : Dev) (c : Nat) : Bool :=
  decide (d.mode ≠ .off ∧ d.mode ≠ .safe) && !(d.halfOff (chHalf c))

/-! ### Correction factors (R93, R94, R103, R109) -/

/-- Where a register of AFE_CAL stands: its channel, and its place in the channel's set of factors: skews 0 to 3, then for each slice
its offsets and its gains at the four gains. -/
def calPlace (r : Reg) (lo i : Nat) : Option (Nat × Nat) :=
  let slice (o : Nat) : Option (Nat × Nat) := some (i / 4, 4 + 8 * (i % 4) + o + lo / 16)
  match r with
  | .AFE_SKEW01 => some (i, lo / 16)
  | .AFE_SKEW23 => some (i, 2 + lo / 16)
  | .AFE_OFSA => slice 0
  | .AFE_OFSB => slice 2
  | .AFE_GNA => slice 4
  | .AFE_GNB => slice 6
  | _ => none

/-- The factor fields of a channel in the order of their places: four skews, and per slice an offset and a gain at each of the four gains. -/
def calFields (c : Nat) : List (Fld × Nat) :=
  [(F.AFE_SKEW01_SKEW_S0, c), (F.AFE_SKEW01_SKEW_S1, c), (F.AFE_SKEW23_SKEW_S2, c), (F.AFE_SKEW23_SKEW_S3, c)] ++
  (List.range 4).flatMap fun s =>
    [(F.AFE_OFSA_OFS_G1, 4 * c + s), (F.AFE_OFSA_OFS_G4, 4 * c + s), (F.AFE_OFSB_OFS_G16, 4 * c + s), (F.AFE_OFSB_OFS_G64, 4 * c + s),
     (F.AFE_GNA_GN_G1, 4 * c + s), (F.AFE_GNA_GN_G4, 4 * c + s), (F.AFE_GNB_GN_G16, 4 * c + s), (F.AFE_GNB_GN_G64, 4 * c + s)]

/-- A factor of a channel by its place: of its own converter, or of its pair partner's through its amplifier (R103, R109). -/
def Dev.factor (d : Dev) (c : Nat) (partner : Bool) (place : Nat) : Int :=
  sgn 16 (if partner then SMap.getD (d.afeChan c).cal2 place 0
    else match (calFields c)[place]? with
      | some p => d.getF p.1 p.2
      | none => 0)

/-- Stores a factor, cut to its 16 bits. -/
def Dev.setFactor (d : Dev) (c : Nat) (partner : Bool) (place : Nat) (v : Nat) : Dev :=
  if partner then d.setAfeChan c { d.afeChan c with cal2 := SMap.set (d.afeChan c).cal2 place (v % 65536) }
  else match (calFields c)[place]? with
    | some p => d.setF p.1 p.2 v
    | none => d

/-- The places of the offset, gain and skew factors of a slice at a gain. -/
def slicePlaces (s g : Nat) : Nat × Nat × Nat := (4 + 8 * s + g, 8 + 8 * s + g, s)

/-- The offset, gain and skew factors of slice `s` in force: 0 to 3 of the channel's own converter, 4 to 7 of its partner's. -/
def Dev.sliceFactors (d : Dev) (c s : Nat) : Int × Int × Int :=
  let p := slicePlaces (s % 4) (d.getF F.AFE_CHSTAT_GAIN_ACT c)
  let f := d.factor c (decide (4 ≤ s))
  (f p.1, f p.2.1, f p.2.2)

/-- A code corrected by its slice's factors: the offset in 1/16 LSB, the gain factor 1 + GN × 2⁻²⁰, the ratio of REFIN in 2⁻¹⁵ while REFIN is in
use, and the shift of the sampling instant, whose effect depends on the neighbouring samples (R90, R93, R107, log entry 22). -/
def correctCode (f : Int × Int × Int) (ratio : Nat) (prev x next : BitVec 16) : BitVec 16 :=
  let v := ((16 * x.toInt + f.1) * (1048576 + f.2.1) * (ratio : Int) + 2 ^ 38) / 2 ^ 39
  let v := if f.2.2 = 0 then v else v + (Config.skewShift f.2.2 prev x next).toInt
  BitVec.ofInt 16 (max (-32768) (min v 32767))

/-- The slice that takes the sample at a place of a block: k mod 4 at 20 MS/s; on a pair the even places are the channel's own converter's,
the odd ones its partner's (R93, R109). -/
def sliceOf (rate40 : Bool) (i : Nat) : Nat := if rate40 then i % 2 * 4 + i / 2 % 4 else i % 4

/-- The codes of a block from place `i` on, corrected. -/
def correctFrom (fs : List (Int × Int × Int)) (rate40 : Bool) (ratio : Nat) : Nat → BitVec 16 → List (BitVec 16) → List (BitVec 16)
  | _, _, [] => []
  | i, prev, x :: xs =>
    correctCode (fs.getD (sliceOf rate40 i) (0, 0, 0)) ratio prev x (xs.headD x) :: correctFrom fs rate40 ratio (i + 1) x xs

/-- A channel's block as the AFE delivers it: every code corrected by the factors of the slice that took it (R93). -/
def Dev.corrected (d : Dev) (c : Nat) (codes : List (BitVec 16)) : List (BitVec 16) :=
  let rate40 := d.getB F.AFE_CHSTAT_RATE40 c
  let ratio := if (d.afeChan c).refExt then d.getF F.AFE_REFIN_RATIO else 32768
  correctFrom ((List.range 8).map (d.sliceFactors c)) rate40 ratio 0 (codes.headD 0) codes

/-! ### Raw blocks (R97 to R102) -/

/-- A clipped code (R90). -/
def clipped (x : BitVec 16) : Bool := x == 0x8000 || x == 0x7FFF

/-- The header of the block that ends, with the GAP of one skip (R98, R99). -/
def Dev.rawHeaderOf (d : Dev) (c : Nat) (codes : List (BitVec 16)) (gap : Bool) : RawHeader :=
  let a := d.afeChan c
  { first := a.first, ch := c, rate40 := d.getB F.AFE_CHSTAT_RATE40 c, gain := d.getF F.AFE_CHSTAT_GAIN_ACT c
    refExt := a.refExt, calFb := d.getB F.AFE_CHSTAT_CAL_FB c, bgcHold := a.bgcHold, gap := gap
    markN := a.markN, clipN := codes.countP clipped
    clipFirst := if codes.any clipped then codes.findIdx clipped else 0xFFFF
    min := codes.foldl (fun m x => if x.toInt < m.toInt then x else m) (codes.headD 0)
    max := codes.foldl (fun m x => if m.toInt < x.toInt then x else m) (codes.headD 0)
    markCause := if a.markN = 0 then 0 else a.markCause, blockSeq := a.blockSeq }

/-- FLAGS of a raw block header (R98). -/
def headerFlags (h : RawHeader) : Nat :=
  h.ch % 16 + 16 * h.rate40.toNat + 32 * (h.gain % 4) + 128 * h.refExt.toNat + 256 * h.calFb.toNat + 512 * h.bgcHold.toNat + 1024 * h.gap.toNat

/-- The 32 bytes of a raw block header (R98). -/
def headerBytes (h : RawHeader) : List Byte :=
  packFields [(8, h.first), (2, headerFlags h), (2, h.markN), (2, h.clipN), (2, h.clipFirst), (2, h.min.toNat), (2, h.max.toNat), (1, h.markCause),
    (3, 0), (4, h.blockSeq), (4, 0)]

/-- Whether the producer's last lump on a skip was dropped. -/
def Dev.wasDropped (d : Dev) (n src : Nat) : Bool := ((d.skip n).prod src).gap

/-- Sends one lump of a block and remembers whether it was dropped (R99). -/
def Dev.sendRaw (d : Dev) (c n first len : Nat) (body : LumpBody) : Dev :=
  let d := d.sendLump n (0x020 + c) false (some first) len body
  if d.wasDropped n (0x020 + c) then
    let a := d.afeChan c
    d.setAfeChan c { a with gapOwed := SMap.set a.gapOwed n true }
  else d

/-- The sample lumps of a block: 32 codes each, lowest index first (R97). -/
def Dev.sendSamples (d : Dev) (c n : Nat) : Nat → Nat → List (BitVec 16) → Dev
  | 0, _, _ => d
  | k + 1, first, codes =>
    sendSamples (d.sendRaw c n first 8 (.rawSamples c first (codes.take 32))) c n k (first + 32) (codes.drop 32)

/-- A block on one skip: the header lump with LEN = 4 and 32 sample lumps (R97). -/
def Dev.sendBlock (d : Dev) (c : Nat) (codes : List (BitVec 16)) (n : Nat) : Dev :=
  if (d.skip n).st ≠ .run then d
  else
    let a := d.afeChan c
    let gap := SMap.getD a.gapOwed n false
    let d := d.setAfeChan c { a with gapOwed := SMap.set a.gapOwed n false }
    let d := d.sendRaw c n a.first 4 (.rawHeader (d.rawHeaderOf c codes gap))
    let d := if gap ∧ d.wasDropped n (0x020 + c) then
        let b := d.afeChan c
        d.setAfeChan c { b with gapOwed := SMap.set b.gapOwed n true }
      else d
    d.sendSamples c n 32 a.first codes

/-- The skips of a channel: AFE→FLT, AFE→TWU, AFE→RAW of its half (R17). -/
def rawSkips (c : Nat) : List Nat := if c < 8 then [0, 2, 4] else [1, 3, 5]

/-- Adds the changes of an update to the factors of the slices from `s` on, at the gain in force (R94, R96). -/
def Dev.applyFactors (d : Dev) (c : Nat) : List Int → List Int → List Int → Nat → Dev
  | o :: os, gn :: gs, k :: ks, s =>
    let p := slicePlaces (s % 4) (d.getF F.AFE_CHSTAT_GAIN_ACT c)
    let add (d : Dev) (place : Nat) (x : Int) : Dev :=
      d.setFactor c (decide (4 ≤ s)) place (unsgn 16 (d.factor c (decide (4 ≤ s)) place + x))
    applyFactors (add (add (add d p.1 o) p.2.1 gn) p.2.2 k) c os gs ks (s + 1)
  | _, _, _, _ => d

/-- What a boundary applies to the block that begins (R100, R101): the release, a gain, a reference, a pairing; the marks
are the greatest of their counts.  BLOCK_SEQ counts the boundaries of a dark channel too, which sends no block (log entry 74). -/
def Dev.markApply (d : Dev) (c : Nat) : Dev :=
  let a := d.afeChan c
  let release := a.relPend
  let wantPair := d.bitF F.AFE_PAIR_PAIR 0 (c / 2)
  let common := a.paired = false ∨ c % 2 = 1 ∨ a.first % 2048 = 0
  let pair := a.paired ≠ wantPair ∧ common
  let dark := (if pair then wantPair else a.paired) && c % 2 == 1
  let rate40 := (if pair then wantPair else a.paired) && c % 2 == 0
  let gain := !dark && d.getF F.AFE_CHSTAT_GAIN_ACT c != d.getF F.AFE_GAIN_GAIN c
  let ref := a.refExt ≠ (d.afe.refin = .inUse)
  let n := max (max (if release then 3 else 0) (if pair then 16 else 0)) (if gain ∨ ref then 3 else 0)
  let cause := gain.toNat + 2 * (decide pair).toNat + 4 * (decide ref).toNat + 8 * release.toNat
  let first := if pair ∧ c % 2 = 0 then (if wantPair then 2 * a.first else a.first / 2) else a.first
  let d := d.applyFactors c a.pendOfs a.pendGain a.pendSkew 0
  let d := if dark then d else d.setF F.AFE_CHSTAT_GAIN_ACT c (d.getF F.AFE_GAIN_GAIN c)
  let d := (d.setB F.AFE_CHSTAT_DARK c dark).setB F.AFE_CHSTAT_RATE40 c rate40
  d.setAfeChan c
    { d.afeChan c with
      relPend := false, released := true, paired := if pair then wantPair else a.paired
      refExt := decide (d.afe.refin = .inUse), first := first, markN := n, markCause := cause
      blockSeq := if release then 0 else (a.blockSeq + 1) % 2 ^ 32
      bgcHold := d.bitF F.AFE_BGC_STAT_HOLD 0 c
      convRun := if release then 0 else a.convRun
      win := if release ∨ pair then {} else a.win, winDone := if release ∨ pair then none else a.winDone
      pendOfs := [], pendGain := [], pendSkew := [] }

/-- A sample joins a window of the background correction, at its slice. -/
def BgcWin.sample (w : BgcWin) (s : Nat) (x : BitVec 16) : BgcWin :=
  { w with sum := w.sum.modify s (· + x.toInt), sq := w.sq.modify s (· + x.toInt.natAbs ^ 2), clip := w.clip || clipped x }

/-- A block joins a channel's window, which is complete after 1024 blocks (R94). -/
def Dev.windowBlock (d : Dev) (c : Nat) (codes : List (BitVec 16)) : Dev :=
  let a := d.afeChan c
  let rate40 := d.getB F.AFE_CHSTAT_RATE40 c
  let w : BgcWin := codes.zipIdx.foldl (fun w p => w.sample (sliceOf rate40 p.2) p.1) { a.win with blocks := a.win.blocks + 1 }
  d.setAfeChan c (if w.blocks < 1024 then { a with win := w } else { a with win := {}, winDone := some w })

/-- A channel completes a block: its codes are corrected and sent on its skips (R93, R97). -/
def Dev.blockDone (d : Dev) (c : Nat) (codes : List (BitVec 16)) : Dev :=
  let codes := d.corrected c codes
  let d := if codes.any clipped then d.setBit F.AFE_CLIP_CLIP 0 c else d
  (rawSkips c).foldl (fun d n => d.sendBlock c codes n) (d.windowBlock c codes)

/-- The first block boundary of a channel at or after now, as an index at its rate (R97, R103). -/
def Dev.releaseIndex (d : Dev) (c : Nat) : Nat :=
  if (d.afeChan c).paired && c % 2 == 0 then (d.tsc + 25599) / 25600 * 1024 else (d.tsc + 51199) / 51200 * 1024

/-- A boundary of a channel: the block that ends at it and what the boundary applies, or the channel's release (R97, R100, R103 step 7). -/
def Dev.rawBoundary (d : Dev) (c : Nat) (codes : List (BitVec 16)) : Dev :=
  let a := d.afeChan c
  if a.released then
    let d := if d.getB F.AFE_CHSTAT_DARK c then d else d.blockDone c codes
    (d.setAfeChan c { d.afeChan c with first := a.first + 1024 }).markApply c
  else if a.relPend then (d.setAfeChan c { a with first := d.releaseIndex c }).markApply c
  else d

/-! ### Background correction (R94, R95) -/

/-- The bounds of one update (R94): four slices, or eight of a pair. -/
def bgcWf (ofs gain skew : List Int) : Bool :=
  (ofs.length == 4 || ofs.length == 8) && gain.length == ofs.length && skew.length == ofs.length &&
  ofs.all (fun x => decide (x.natAbs ≤ 1)) && gain.all (fun x => decide (x.natAbs ≤ 4)) && skew.all (fun x => decide (x.natAbs ≤ 1))

/-- Whether gain and skew are held: the window's RMS lies below −50 dB of a full-scale sine's, or it holds a clipped sample (R95). -/
def BgcWin.hold (w : BgcWin) : Bool := w.clip || decide (200000 * w.sq.sum < 1048576 * 32768 ^ 2)

/-- Whether a change moves a slice towards the mean of `n` slices whose total is `total`: not away from it (R94). -/
def towards (n : Nat) (total own change : Int) : Bool :=
  if total < n * own then decide (change ≤ 0) else if n * own < total then decide (0 ≤ change) else change == 0

/-- Whether changes are such as the statistics of a window call for: offsets towards the mean, gains towards equal mean squares; of the
skew's correlation error the rule gives the direction only in words (R94, log entry 22). -/
def BgcWin.calls (w : BgcWin) (n : Nat) (ofs gain : List Int) : Bool :=
  let sq : List Int := w.sq.map fun x => (x : Int)
  (List.range n).all fun s => towards n w.sum.sum (w.sum.getD s 0) (ofs.getD s 0) && towards n sq.sum (sq.getD s 0) (gain.getD s 0)

/-- BGC_UPDATE: a window of 2²⁰ samples has ended; the changes, which its statistics call for, wait for the next block boundary (R94, R96).
With gain and skew held they change the offsets alone (R95). -/
def execBgcUpdate (c : Fin 16) (ofs gain skew : List Int) (s : State) : Out :=
  s.upWf (bgcWf ofs gain skew) fun d =>
    let a := d.afeChan c
    let n := if d.getB F.AFE_CHSTAT_RATE40 c then 8 else 4
    match a.winDone with
    | none => d
    | some w =>
      let gain := if w.hold then gain.map fun _ => 0 else gain
      let skew := if w.hold then skew.map fun _ => 0 else skew
      if !(d.afeRuns c) || !a.released || d.getB F.AFE_CHSTAT_DARK c || !(d.bitF F.AFE_BGC_EN 0 c) || ofs.length != n || !(w.calls n ofs gain) then d
      else
        let run := if gain.all fun x => decide (x.natAbs ≤ 1) then min (a.convRun + 1) 8 else 0
        let d := if w.hold then d.setBit F.AFE_BGC_STAT_HOLD 0 c else d.clrBit F.AFE_BGC_STAT_HOLD 0 c
        d.setAfeChan c { a with convRun := run, winDone := none, pendOfs := ofs, pendGain := gain, pendSkew := skew }

/-- A write of AFE_BGC: a channel whose EN rises starts its count of updates again (R95). -/
def Dev.bgcWritten (d : Dev) (old : Nat) : Dev :=
  (List.range 16).foldl (fun d c =>
    if old.testBit c ∨ ¬d.bitF F.AFE_BGC_EN 0 c then d else d.setAfeChan c { d.afeChan c with convRun := 0 }) d

/-- AFE_BGC_STAT.CONV: the channels that have converged, none of them frozen or dark (R95). -/
def Dev.converged (d : Dev) : Nat :=
  (List.range 16).foldl (fun v c =>
    if 8 ≤ (d.afeChan c).convRun ∧ d.bitF F.AFE_BGC_EN 0 c ∧ ¬d.getB F.AFE_CHSTAT_DARK c then v + 2 ^ c else v) 0

/-! ### Self-calibration (R103 to R105) -/

/-- SELF_CALIBRATION_START: at t0 + 7 ms for both halves (`none`), or after the readmission of one (R103, R105); the internal reference, once
started, settles within 4 ms and keeps running (R103 step 2, R106). -/
def execSelfCalibrationStart (h : Option Half) (s : State) : Out := s.up fun d =>
  let hs := match h with
    | none => if d.mode = .boot ∧ ¬d.getB F.AFE_STAT_CAL_DONE ∧ d.afe.calRun = [] then [Half.north, .south].filter fun x => !(d.halfOff x) else []
    | some x => if x ∈ d.afe.calDue then [x] else []
  if hs = [] then d
  else
    let ref := d.afe.refFrom.getD (d.tsc + min 4000000 Config.refSettle.toNat)
    let d := { d with afe := { d.afe with
      calRun := d.afe.calRun ++ hs.map fun x => (x, h.isNone), calDue := d.afe.calDue.filter fun x => !(hs.contains x), refFrom := some ref } }
    let d := (hs.flatMap Half.channels).foldl (fun d c => d.setAfeChan c { d.afeChan c with released := false, relPend := false }) d
    d.setB F.AFE_STAT_CAL_BUSY 0 true

/-- Sets every factor of a channel: those of its own converter, and of an even channel those of its partner's through its amplifier
(R103 step 4). -/
def Dev.loadFactors (d : Dev) (c : Nat) (f : Dev → Nat → Dev × Nat) : Dev :=
  let one (partner : Bool) (d : Dev) (i : Nat) : Dev :=
    let r := f d ((if partner then 36 else 0) + i)
    r.1.setFactor c partner i r.2
  let d := (List.range 36).foldl (one false) d
  if c % 2 = 0 then (List.range 36).foldl (one true) d else d

/-- The measured factors of a channel: what the converters measure is theirs, a free value each (R7, entry C). -/
def Dev.loadMeasured (d : Dev) (c : Nat) : Dev :=
  (d.loadFactors c fun d _ => (d.draw, d.peekFree)).setB F.AFE_CHSTAT_CAL_FB c false

/-- The factory factors of a channel (R104). -/
def Dev.loadFactory (d : Dev) (c : Nat) : Dev :=
  let d := d.loadFactors c fun d i => (d, (Config.factoryFactor (72 * c + i)).toNat)
  ((d.setB F.AFE_CHSTAT_CAL_FB c true).setBit F.AFE_STAT_CAL_FAIL 0 c).trouble F.TRB_STICKY1_AFE_CAL

/-- SELF_CALIBRATION_END: the calibration of BOOT (`none`) or that of a readmitted half ends: the factors are checked and written; `fail` names
the channels with a factor outside its limit (R103 step 6, R104, R105); the channels wait for their release boundary, and skips 0 and 1
enter RUN (R24). -/
def execSelfCalibrationEnd (h : Option Half) (fail : BitVec 16) (s : State) : Out := s.up fun d =>
  let ends (x : Half × Bool) : Bool := match h with
    | none => x.2
    | some y => x.1 == y && !x.2
  let hs := (d.afe.calRun.filter ends).map fun x => x.1
  if hs = [] then d
  else
    let d := (hs.flatMap Half.channels).foldl (fun d c =>
      let d := if fail.toNat.testBit c then d.loadFactory c else (d.loadMeasured c).clrBit F.AFE_STAT_CAL_FAIL 0 c
      d.setAfeChan c { d.afeChan c with relPend := true, convRun := 0 }) d
    let run := d.afe.calRun.filter fun x => !(ends x)
    let d := { d with afe := { d.afe with calRun := run } }
    let d := (d.setB F.AFE_STAT_CAL_BUSY 0 (run != [])).setB F.AFE_STAT_CAL_DONE 0 true
    (d.startSkip 0).startSkip 1

/-! ### Reference (R106 to R108) -/

/-- Where REFIN stands. -/
def Dev.setRefin (d : Dev) (r : RefinSt) : Dev := { d with afe := { d.afe with refin := r } }

/-- AFE_STAT.REF_OK: the reference in use has settled: the internal one 4 ms at most after its start (R103); while REFIN is being
qualified it reads 0 (R107). -/
def Dev.refOk (d : Dev) : Bool :=
  d.afe.refin != .qualifying && (match d.afe.refFrom with
    | some t => decide (t ≤ d.tsc)
    | none => false)

/-- A write of AFE_REF.REFSEL (R107, R108). -/
def Dev.refselWritten (d : Dev) (old : Nat) : Dev :=
  let new := d.getF F.AFE_REF_REFSEL
  if old = 0 ∧ new = 1 then d.setRefin .qualifying
  else if old = 1 ∧ new = 0 then (d.setRefin .off).setB F.AFE_STAT_REF_SRC 0 false
  else d

/-- REFIN_QUALIFIED: REFIN has settled; its ratio is recorded, which scales every gain factor from then on, and every channel switches at its
next boundary (R107). -/
def execRefinQualified (ratio : BitVec 16) (s : State) : Out := s.up fun d =>
  if d.afe.refin = .qualifying then ((d.setRefin .inUse).setF F.AFE_REFIN_RATIO 0 ratio.toNat).setB F.AFE_STAT_REF_SRC 0 true
  else d

/-- The fallback to the internal reference, which is settled (R107, R108). -/
def Dev.refFallback (d : Dev) : Dev :=
  let d := { d with afe := { d.afe with fallbacks := d.afe.fallbacks + 1 } }
  let d := ((d.setRefin .fallback).setB F.AFE_STAT_REF_FALLBACK 0 true).trouble F.TRB_STICKY1_AFE_REF
  d.setB F.AFE_STAT_REF_SRC 0 false

/-- REFIN_QUALIFY_TIMEOUT: REFIN has not qualified after 100 ms (R107). -/
def execRefinQualifyTimeout (s : State) : Out := s.up fun d =>
  if d.afe.refin = .qualifying then d.refFallback else d

/-- REFIN_RETRY: qualifying starts again while REFSEL = 1 after a fallback (R107).  That REF_OK reads 0 while it runs, as after the change of
REFSEL itself, is the model's choice (log entry 74). -/
def execRefinRetry (s : State) : Out := s.up fun d =>
  if d.afe.refin = .fallback ∧ d.getF F.AFE_REF_REFSEL = 1 then d.setRefin .qualifying else d

/-- REFIN_OUT_OF_RANGE: REFIN in use leaves 2.5 V ±5 % (R108). -/
def execRefinOutOfRange (s : State) : Out := s.up fun d =>
  if d.afe.refin = .inUse then d.refFallback else d

/-! ### The auxiliary converter (R115 to R120) -/

/-- Replaces the sequencer's state. -/
def Dev.setAux (d : Dev) (a : Aux) : Dev := { d with aux := a }

/-- The sequencer enters the gap after a pass, which counts as completed (R116). -/
def Dev.auxGap (d : Dev) : Dev :=
  let d := d.incWrap F.AUX_STAT_PASS
  ((d.setAux { d.aux with phase := .gap }).setB F.AUX_STAT_RUNNING 0 false).setB F.AUX_STAT_IN_GAP 0 true

/-- No pass runs: RUN = 0, or passes and gaps of no length at all (log entry 74). -/
def Dev.auxStopped (d : Dev) : Dev :=
  ((d.setAux { d.aux with phase := .stopped }).setB F.AUX_STAT_RUNNING 0 false).setB F.AUX_STAT_IN_GAP 0 false

/-- A pass begins with the lists as they stand now (R116): its first slot, or where LEN = 0 the gap alone (R115); it does not begin while
RUN = 0. -/
def Dev.auxRun (d : Dev) : Dev :=
  if d.getF F.AUX_CTL_RUN = 0 then d.auxStopped
  else
    let slots := (List.range (d.getF F.AUX_CTL_LEN)).map fun i =>
      (d.getF F.AUX_SLOT_INPUT i, d.getF F.AUX_SLOT_AVG i, d.getF F.AUX_SLOT_SHIFT i)
    let gap := d.getF F.AUX_GAP_GAP
    if slots = [] ∧ gap = 0 then d.auxStopped
    else
      let d := d.setAux { d.aux with slots := slots, gap := gap }
      if slots = [] then d.auxGap
      else ((d.setAux { d.aux with phase := .pass, slot := 0 }).setB F.AUX_STAT_RUNNING 0 true).setB F.AUX_STAT_IN_GAP 0 false

/-- The start of the next pass: it begins, or waits for a reference that has changed (R118), or is not due while RUN = 0. -/
def Dev.auxPass (d : Dev) : Dev :=
  let ref := d.getF F.AUX_CTL_REFSEL
  if d.getF F.AUX_CTL_RUN = 0 then d.auxStopped
  else if d.aux.refsel = ref then d.auxRun
  else
    let d := (d.setAux { d.aux with phase := .settling, refsel := ref }).setB F.AUX_STAT_REF_OK 0 false
    (d.setB F.AUX_STAT_RUNNING 0 false).setB F.AUX_STAT_IN_GAP 0 false

/-- AUX_START: the default sequence begins on the internal reference (R117). -/
def execAuxStart (s : State) : Out := s.up fun d => if d.aux.phase = .off then d.auxPass else d

/-- The result of a slot or request from its conversions: the first is discarded, the other 2^(AVG + 1) are summed and shifted; none where
they are not that many (R115). -/
def auxResult (avg shift : Nat) (conv : List (BitVec 16)) : Option Nat :=
  if conv.length = 1 + 2 ^ (avg + 1) then some ((conv.tail.map BitVec.toNat).sum / 2 ^ shift) else none

/-- AUX_SLOT_DONE: the slot in progress ends with its conversions (R115). -/
def execAuxSlotDone (conv : List (BitVec 16)) (s : State) : Out := s.up fun d =>
  if d.aux.phase = .pass then
    match d.aux.slots[d.aux.slot]? with
    | none => d
    | some (input, avg, shift) =>
      match auxResult avg shift conv with
      | none => d
      | some v =>
        let d := d.setF F.AUX_RES_VALUE input v
        let d := (d.setF F.AUX_RES_VALID input (d.getF F.AUX_STAT_REF_OK)).setF F.AUX_RES_PASS input (d.getF F.AUX_STAT_PASS)
        if d.aux.slot + 1 < d.aux.slots.length then
          if d.getF F.AUX_CTL_RUN = 0 then d.auxStopped else d.setAux { d.aux with slot := d.aux.slot + 1 }
        else if d.aux.gap = 0 then (d.incWrap F.AUX_STAT_PASS).auxPass
        else d.auxGap
  else d

/-- AUX_GAP_END: the gap count is exhausted; it pauses while an urgent request runs (R116, R120). -/
def execAuxGapEnd (s : State) : Out := s.up fun d =>
  if d.aux.phase = .gap ∧ d.aux.urgent = none then d.auxPass else d

/-- AUX_REF_SETTLED: REF_OK sets, and a pass that waited for it begins (R118). -/
def execAuxRefSettled (s : State) : Out := s.up fun d =>
  if d.getB F.AUX_STAT_REF_OK ∨ d.aux.phase = .off then d
  else
    let d := d.setB F.AUX_STAT_REF_OK 0 true
    if d.aux.phase = .settling then d.auxRun else d

/-- AUX_REF_TIMEOUT: REF_OK has not set 10 ms after the change (R118). -/
def execAuxRefTimeout (s : State) : Out := s.up fun d =>
  if d.aux.phase = .settling then d.trouble F.TRB_STICKY1_AUX_REF else d

/-- A write of AUX_CTL or AUX_GAP: a stopped sequencer begins its next pass once RUN = 1 again. -/
def Dev.auxCtlWritten (d : Dev) : Dev :=
  if d.aux.phase = .stopped ∧ d.getF F.AUX_CTL_RUN = 1 then d.auxPass else d

/-- A write of AUX_URG with GO: accepted in the idle gap with no conversion running and the reference settled, otherwise
dropped and counted (R119). -/
def Dev.auxUrgent (d : Dev) : Dev :=
  if d.aux.phase = .gap ∧ d.aux.urgent = none ∧ d.getB F.AUX_STAT_REF_OK then
    let u := (d.getF F.AUX_URG_INPUT, d.getF F.AUX_URG_AVG, d.getF F.AUX_URG_SHIFT)
    (d.setAux { d.aux with urgent := some u }).setB F.AUX_STAT_URG_BUSY 0 true
  else d.incF F.AUX_URG_DROP_DROP

/-- AUX_URGENT_DONE: the urgent request completes with its conversions; the gap count resumes (R120). -/
def execAuxUrgentDone (conv : List (BitVec 16)) (s : State) : Out := s.up fun d =>
  match d.aux.urgent with
  | none => d
  | some (_, avg, shift) =>
    match auxResult avg shift conv with
    | none => d
    | some v =>
      let d := (d.setAux { d.aux with urgent := none }).setB F.AUX_STAT_URG_BUSY 0 false
      ((d.setF F.AUX_URG_RES_VALUE 0 v).setB F.AUX_URG_RES_VALID 0 true).setB F.AUX_URG_RES_DONE 0 true

end Sys2Proof.Machine
end

