-- ==== Sys2Proof/Machine/Clk.lean ====
section
/-!
DEFINITION. Grid angle and device time: the timebase, the calendar, the angle clocks, snapshots and conversions.
-/
namespace Sys2Proof.Machine

/-! ### The angle clocks -/

/-- One fraction unit (1/65536 cycle) in the units of `Ang.acc`. -/
def angUnit : Nat := 65536 * 1000000000

/-- The angle time, 48 bits (R73). -/
def Ang.time (a : Ang) : Nat := a.acc / angUnit % 2 ^ 48

/-- ANGn_PHERR: the whole fraction units still to be slewed (R80). -/
def Ang.pherr (a : Ang) : Int := a.corr.tdiv angUnit

/-- ANGn_STAT.ALIGNED (R81). -/
def Ang.aligned (a : Ang) : Bool := decide (a.st = .locked ∧ a.pherr.natAbs ≤ 18)

/-- Whether sample words on the clock carry FREEWHEEL (R78, R79). -/
def Ang.freewheels (a : Ang) : Bool :=
  decide (a.st ≠ .locked ∧ (a.entryBoot = true ∨ a.entry + 65536 * angUnit ≤ a.acc))

/-- ANGn_STAT.STATE. -/
def AngSt.code : AngSt → Nat
  | .freewheel => 0 | .qualify => 1 | .acquire => 2 | .locked => 3

/-- An angle clock; an unlisted one is as on entry to BOOT (R83). -/
def Dev.angle (d : Dev) (n : Nat) : Ang := SMap.getD d.ang n {}

/-- Replaces an angle clock. -/
def Dev.setAngle (d : Dev) (n : Nat) (a : Ang) : Dev := { d with ang := SMap.set d.ang n a }

/-- 40 Hz to 70 Hz in units of 2⁻¹⁶ Hz (R77). -/
def clampFreq (f : Nat) : Nat := max 2621440 (min f 4587520)

/-- The nominal frequency that ANGn_CTL.NOM selects. -/
def nomFreq (nom : Nat) : Nat := if nom = 1 then 0x3C0000 else 0x320000

/-- A change of state of an angle clock, recorded with its cause (R88, R365) and signalled on LOSS only. -/
def Dev.angState (d : Dev) (n : Nat) (a : Ang) (old : AngSt) (cause : Nat) : Dev :=
  (d.setAngle n a).record 0x0004 (0x012 + n) [(1, old.code), (1, a.st.code), (1, cause), (6, a.time), (4, a.freq)]

/-- A correction brought to the smaller direction; of the two equal ones of half a turn, the negative one, which is the one that the 16
bits of ANGn_PHERR show (R80). -/
def wrapCorr (c : Int) : Int :=
  let m := c % (65536 * angUnit : Nat)
  if m < (32768 * angUnit : Nat) then m else m - (65536 * angUnit : Nat)

/-- The reference frequency averaged over the last full reference cycle, from the instants at which its latest two cycles started; the
present one before it has seen a full cycle (R77). -/
def Ang.average (a : Ang) : Nat :=
  match a.refCycles with
  | t1 :: t0 :: _ => if t0 < t1 then 65536000000000 / (t1 - t0) else a.freq
  | _ => a.freq

/-- A cause of R77 arises for clock `n` (R77, R526). -/
def Dev.angCause (d : Dev) (n cause : Nat) : Dev :=
  let a := d.angle n
  let d := if cause = 3 then d.setF F.ANG_STAT_RANGE n 1 else d
  match a.st with
  | .locked =>
    let d := if cause = 4 then d.setF F.ANG_STAT_SLIP n 1 else d
    let b := { a with
      st := .freewheel, cause := cause, freq := clampFreq a.average, frac := 0, rocof := 0, corr := 0, entry := a.acc, entryBoot := false }
    (d.flag F.ANG_STAT_LOSS n 0 17).angState n b .locked cause
  | old => d.angState n { a with st := .freewheel, cause := cause } old cause

/-- The bits of the phases of clock `n` (A, B, C at 0, 1, 2) whose reference is a channel: SRC, INDEX, SVCH (R74). -/
def Dev.refBits (d : Dev) (n src ix sv : Nat) : Nat :=
  let at_ (s x v : Fld) : Bool := d.getF s n == src && d.getF x n == ix && d.getF v n == sv
  (at_ F.ANG_REFA_SRC F.ANG_REFA_INDEX F.ANG_REFA_SVCH).toNat + 2 * (at_ F.ANG_REFB_SRC F.ANG_REFB_INDEX F.ANG_REFB_SVCH).toNat +
    4 * (at_ F.ANG_REFC_SRC F.ANG_REFC_INDEX F.ANG_REFC_SVCH).toNat

/-- A reference of clock `n` delivers nothing valid: INVALID arises where the reference was not invalid already (R77). -/
def Dev.refInvalid (d : Dev) (n bits : Nat) : Dev :=
  if bits = 0 ∨ ¬d.getB F.ANG_CTL_BIND n then d
  else
    let a := d.angle n
    let d := d.setAngle n { a with refOk := a.refOk - (a.refOk &&& bits), refInv := true }
    if a.refInv then d else d.angCause n 2

/-- A reference sample of a bound clock (R77, R79).  While the latest sample of each of the three references is VALID, a freewheeling clock
begins to count its qualifying cycle where the reference meets the other conditions of R79 too, which depend on the measured waveform
and are a free value (log entry 10). -/
def Dev.angSample (d : Dev) (n bits : Nat) (valid : Bool) : Dev :=
  if ¬valid then d.refInvalid n bits
  else if bits = 0 ∨ ¬d.getB F.ANG_CTL_BIND n then d
  else
    let a := d.angle n
    let ok := a.refOk ||| bits
    let a := { a with refOk := ok, refInv := a.refInv && ok != 7 }
    if a.st = .freewheel ∧ ok = 7 then
      if d.peekFree % 2 = 1 then d.draw.angState n { a with st := .qualify, since := d.tsc } .freewheel 0 else d.draw.setAngle n a
    else d.setAngle n a

/-- A write of ANGn_OFS: a locked clock slews the change out (R80). -/
def Dev.angOfs (d : Dev) (n : Nat) (old : Nat) : Dev :=
  let a := d.angle n
  if a.st = .locked then
    d.setAngle n { a with corr := wrapCorr (a.corr + (sgn 16 (d.getF F.ANG_OFS_OFS n + 65536 - old)) * angUnit) }
  else d

/-- The local references of clock `n` in an offline half are invalid (R77). -/
def Dev.refsOff (d : Dev) (n : Nat) : Dev :=
  (List.range 16).foldl (fun d c => if d.halfOff (chHalf c) then d.refInvalid n (d.refBits n 0 c 0) else d) d

/-- A commit of the composite ANGn_CTL: what it does to the clock (R77, R83).  `wasBound` and `refChanged` compare the
applied values before and after; a reference that is new has delivered nothing yet. -/
def Dev.angCommit (d : Dev) (n : Nat) (wasBound refChanged : Bool) : Dev :=
  let bound := d.getB F.ANG_CTL_BIND n
  let a := d.angle n
  let d := if a.st ≠ .locked ∧ a.entryBoot then d.setAngle n { a with freq := nomFreq (d.getF F.ANG_CTL_NOM n) } else d
  let d := if refChanged ∨ ¬wasBound then d.setAngle n { d.angle n with refOk := 0, refInv := false } else d
  (if wasBound ∧ (¬bound ∨ refChanged) then d.angCause n 5 else d).refsOff n

/-- 10 Hz/s in units of 2⁻¹⁶ Hz/s (R75). -/
def maxRocof : Nat := 655360

/-- One advance of a clock, every 8 ns (R73, R80, R82).  A locked clock tracks its reference, whose frequency moves within 40 Hz to 70 Hz
at a rate within ±10 Hz/s (R75); that rate is not the part's to say and is a free value (log entry 18).  `ref` is the reference's phase,
so that the clock's angle and the correction left stay at φ + OFS (R74). -/
def Ang.advance (a : Ang) (rate tsc : Nat) : Ang :=
  let locked := a.st = .locked
  let r : Int := if locked then ((rate % (2 * maxRocof + 1) : Nat) : Int) - (maxRocof : Nat) else 0
  let fine : Int := max 2621440000000000 (min (((a.freq * 1000000000 + a.frac : Nat) : Int) + 8 * r) 4587520000000000)
  let f := if locked then fine.toNat / 1000000000 else a.freq
  let step := f * 8 * 65536
  let s : Nat := min a.corr.natAbs (f * 8 * 364)
  let acc := if 0 ≤ a.corr then a.acc + step + s else a.acc + step - s
  let corr := if 0 ≤ a.corr then a.corr - s else a.corr + s
  let cycle := 65536 * angUnit
  { a with
    freq := f, frac := if locked then fine.toNat % 1000000000 else a.frac, rocof := r, prev := a.acc, acc := acc, corr := corr
    ref := a.ref + step
    refCycles := if locked ∧ a.ref / cycle < (a.ref + step) / cycle then (tsc :: a.refCycles).take 2 else a.refCycles
    cycles := if a.acc / cycle < acc / cycle then (tsc :: a.cycles).take 258 else a.cycles }

/-- One nanosecond of the timebase: what the block does while no command waits (log entry 1): the TSC counts (R62), and
every 8 ns the angle clocks advance (R73). -/
def Dev.tick (d : Dev) : Dev :=
  if d.mode = .off then d
  else
    let t := (d.tsc + 1) % 2 ^ 64
    let d := { d with tsc := t }
    if t % 8 = 0 then
      (List.range 4).foldl (fun d n =>
        let a := d.angle n
        let rate := d.peekFree
        d.draw.setAngle n (a.advance rate t)) d
    else d

/-! ### The calendar -/

/-- Starts a new stretch of the calendar at this TSC. -/
def Dev.pushCal (d : Dev) (acc : Nat) (rate : Int) (state : Nat) : Dev :=
  { d with clk := { d.clk with cal := ⟨d.tsc, acc, rate, state⟩ :: d.clk.cal } }

/-- Sets RATE, held within ±549,755,813 (R66). -/
def Dev.setRate (d : Dev) (rate : Int) : Dev :=
  d.pushCal (d.calSeg.at d.tsc) (max (-549755813) (min rate 549755813)) d.calState

/-- A change of CAL's state: recorded (R88) and signalled on vector 17 (R411). -/
def Dev.setCalState (d : Dev) (new : Nat) : Dev :=
  let old := d.calState
  if old = new then d
  else
    let s := d.calSeg
    ((d.pushCal (s.at d.tsc) s.rate new).record 0x0003 0x011 [(1, old), (1, new)]).fire 17

/-! ### The timebase (R63, R64) -/

/-- The record of a timebase event (R365). -/
def Dev.tcxoRecord (d : Dev) (event : Nat) : Dev :=
  d.record 0x0005 0x010 [(1, event), (2, d.getF F.CLK_TCXO_DIFF)]

/-- TCXO_GATE: the end of a 1 s gate of TSC, with the disagreement found, in ppb (R63).  Every gate that ends a run of two or more beyond
2 ppm sets the flags; the record goes with the change of MISMATCH. -/
def execTcxoGate (diff : BitVec 16) (s : State) : Out := s.up fun d =>
  if d.clk.aStopped ∨ d.clk.bStopped ∨ d.tsc % 1000000000 ≠ 0 ∨ d.tsc ≤ d.clk.gate then d
  else
    let d := { d with clk := { d.clk with gate := d.tsc } }
    let d := d.setF F.CLK_TCXO_DIFF 0 diff.toNat
    let was := d.getB F.CLK_TCXO_MISMATCH
    if 2000 < diff.toInt.natAbs then
      let d := { d with clk := { d.clk with badGates := d.clk.badGates + 1, goodGates := 0 } }
      if 2 ≤ d.clk.badGates then
        let d := (d.setF F.CLK_TCXO_MISMATCH 0 1).trouble F.TRB_STICKY0_TCXO_DIFF
        if was then d else d.tcxoRecord 0
      else d
    else
      let d := { d with clk := { d.clk with goodGates := d.clk.goodGates + 1, badGates := 0 } }
      if 2 ≤ d.clk.goodGates ∧ was then (d.setF F.CLK_TCXO_MISMATCH 0 0).tcxoRecord 1 else d

/-! ### Snapshots, conversion and time marks -/

/-- The state word of an angle clock in snapshots and time marks. -/
def Ang.stateBits (a : Ang) : Nat := a.st.code + 8 * a.aligned.toNat

/-- The snapshot of R86. -/
def Dev.snapshot (d : Dev) (req : Requester) : Dev :=
  let d := (d.setF F.CLK_SNAP_TSC_TSC 0 d.tsc).setF F.CLK_SNAP_CAL_CAL 0 d.cal
  let d := (List.range 4).foldl (fun d n =>
    let a := d.angle n
    ((d.setF F.CLK_SNAP_ANG_ANG n a.time).setF F.CLK_SNAP_ANG_STATE n a.st.code).setF F.CLK_SNAP_ANG_ALIGNED n a.aligned.toNat) d
  (d.incWrap F.CLK_SNAP_SEQ_SEQ).setF F.CLK_SNAP_SEQ_SRC 0 req.src

/-- The conversion of R87: the result and its kind (0 PAST, 1 PREDICTED, 2 RANGE).  An angle inside the present cycle, whose end is not
recorded, is interpolated between the start of that cycle and now: the spec names no second point there (DESIGN CHOICE, log entry 78). -/
def Ang.convert (a : Ang) (tsc target : Nat) : Nat × Nat :=
  let range : Nat × Nat := (2 ^ 64 - 1, 2)
  let diff := sgn 48 (target + 2 ^ 48 - a.time)
  if diff ≤ 0 then
    let back := diff.natAbs
    if 256 * 65536 < back then range
    else
      let here := a.time % 65536
      if back ≤ here then
        match a.cycles[0]? with
        | some t0 => if here = 0 then (tsc, 0) else (t0 + (here - back) * (tsc - t0) / here, 0)
        | none => range
      else
        let k := (back - here + 65535) / 65536
        let frac := k * 65536 - (back - here)
        match a.cycles[k]?, a.cycles[k - 1]? with
        | some t0, some t1 => (t0 + frac * (t1 - t0) / 65536, 0)
        | _, _ => range
  else if diff ≤ (65536 * 65536 : Int) then
    if a.rocof = 0 then (tsc + diff.toNat * 1000000000 / a.freq, 1)
    else ((tsc + (Config.predict diff.toNat a.freq a.rocof).toNat) % 2 ^ 64, 1)
  else range

/-- A write of CLK_CONVA converts in the requester's slot (R87). -/
def Dev.convert (d : Dev) (req : Requester) : Dev :=
  let a := d.angle (d.getF F.CLK_CONVA_CLOCK req.slot)
  let r := a.convert d.tsc (d.getF F.CLK_CONVA_ANG req.slot)
  (d.setF F.CLK_CONVT_TSC req.slot r.1).setF F.CLK_CONV_STAT_KIND req.slot r.2

/-- TIMEMARK: at each multiple of 10 s of TSC from 10 s on, one record of every clock at one tick (R88). -/
def execTimemark (s : State) : Out := s.up fun d =>
  if d.tsc % 10000000000 = 0 ∧ d.clk.mark < d.tsc then
    let angs := (List.range 4).flatMap fun n =>
      let a := d.angle n
      [(6, a.time), (4, a.freq), (1, a.stateBits)]
    { d with clk := { d.clk with mark := d.tsc } }.record 0x0002 0x016 ([(8, d.cal), (4, unsgn 32 d.calSeg.rate), (1, d.calState)] ++ angs)
  else d

/-! ### The angle clocks' events -/

/-- Whether a cause that the measured waveform shows can arise: only with BIND; SLIP only while LOCKED, LOW only with VNOM set (R77). -/
def Dev.angCanArise (d : Dev) (n : Nat) (c : AngCause) : Bool :=
  d.getB F.ANG_CTL_BIND n && match c with
  | .slip => decide ((d.angle n).st = .locked)
  | .low => decide (d.getF F.ANG_VNOM_LO_VNOM_LO n + 65536 * d.getF F.ANG_VNOM_HI_VNOM_HI n ≠ 0)
  | .range => true

/-- ANG_FREEWHEEL: the measured reference shows a cause of loss (R77, R526); the other causes arise in the steps that bring them. -/
def execAngFreewheel (n : Fin 4) (c : AngCause) (s : State) : Out := s.up fun d =>
  if d.angCanArise n c then d.angCause n c.code else d

/-- ANG_QUALIFY_FAIL: a condition of R79 fails with no cause of R77 (R526). -/
def execAngQualifyFail (n : Fin 4) (s : State) : Out := s.up fun d =>
  let a := d.angle n
  match a.st with
  | .qualify => d.angState n { a with st := .freewheel } .qualify a.cause
  | .acquire => d.angState n { a with st := .freewheel } .acquire a.cause
  | _ => d

/-- 40 Hz to 70 Hz (R75). -/
def inRange (freq : Nat) : Bool := decide (2621440 ≤ freq ∧ freq ≤ 4587520)

/-- ANG_QUALIFIED: the reference, at a frequency in 2⁻¹⁶ Hz, has met every condition for one full cycle of its own, and acquisition starts
(R79). -/
def execAngQualified (n : Fin 4) (freq : Word) (s : State) : Out := s.up fun d =>
  let a := d.angle n
  if a.st = .qualify ∧ inRange freq.toNat ∧ 65536000000000 ≤ (d.tsc - a.since) * freq.toNat then d.angState n { a with st := .acquire } .qualify 0
  else d

/-- ANG_LOCKED: the acquiring clock reaches LOCKED at the reference's frequency and phase φ (fraction units); what is then left between the
clock and φ + OFS is its correction to slew out (R74, R75, R80). -/
def execAngLocked (n : Fin 4) (freq : Word) (phase : BitVec 16) (s : State) : Out := s.up fun d =>
  let a := d.angle n
  if a.st = .acquire ∧ inRange freq.toNat then
    let corr := wrapCorr (((phase.toNat + d.getF F.ANG_OFS_OFS n) * angUnit : Nat) - (a.acc : Int))
    d.angState n { a with
      st := .locked, freq := freq.toNat, frac := 0, corr := corr, ref := phase.toNat * angUnit, refCycles := [], entryBoot := false } .acquire 0
  else d

end Sys2Proof.Machine
end

