-- ==== Sys2Proof/Machine/Flt.lean ====
section
/-!
DEFINITION. The filter chain: CIC, FIR, DC-blocking stage, resampler taps, coefficient banks and swaps, synchronising
resets, and the sample words it sends to the Seam.
-/
namespace Sys2Proof.Machine

/-! ### Sample words (R122, R123) -/

/-- A sample word from a signed value and a quality byte. -/
def sampleWord (v : Int) (q : Nat) : Word := BitVec.ofInt 24 v ++ BitVec.ofNat 8 q

/-- The value of a sample word. -/
def wordVal (w : Word) : Int := (w.extractLsb' 8 24).toInt

/-- The quality of a sample word. -/
def wordQual (w : Word) : Nat := w.toNat % 256

/-- The quality of a local sample: SETTLING is the only flag that takes VALID away (R123). -/
def localQual (settling clipped fading freewheel test : Bool) : Nat :=
  (!settling).toNat + 2 * settling.toNat + 4 * clipped.toNat + 8 * fading.toNat + 16 * freewheel.toNat + 64 * test.toNat

/-- Clamps to ±8,388,607 (R124). -/
def sat24 (v : Int) : Int := max (-8388607) (min v 8388607)

/-- Bits [45:0], sign-extended (R124). -/
def wrap46 (v : Int) : Int := (BitVec.ofInt 46 v).toInt

/-! ### The CIC (R124) -/

/-- A channel's chain. -/
def Dev.chain (d : Dev) (c : Nat) : FltCh := SMap.getD d.fltCh c {}

/-- Replaces a channel's chain. -/
def Dev.setChain (d : Dev) (c : Nat) (x : FltCh) : Dev := { d with fltCh := SMap.set d.fltCh c x }

/-- The running sums of the integrators for one code, each taking the new value of the one before it. -/
def integrate : Int → List Int → List Int
  | _, [] => []
  | x, i :: is => let n := wrap46 (i + x); n :: integrate n is

/-- The comb stages for one value: the new registers and the value that leaves the last. -/
def combs : Int → List Int → List Int × Int
  | v, [] => ([], v)
  | v, c :: cs => let r := combs (wrap46 (v - c)) cs; (v :: r.1, r.2)

/-- A clipped code joins the runs of clipped indices; runs that no sample still to come spans are dropped (R126). -/
def FltCh.clipAt (x : FltCh) (k : Nat) : List (Nat × Nat) :=
  match x.clips with
  | (lo, hi) :: rs => if hi + 1 = k then (lo, k) :: rs else (k, k) :: ((lo, hi) :: rs).filter fun r => decide (k ≤ r.2 + 16384)
  | [] => [(k, k)]

/-- One code of index `k` at 20 MS/s enters the CIC; every 64th gives an output (R124).  The Canary's comparator takes the
outputs that R149 does not withhold. -/
def FltCh.rawIn (x : FltCh) (code : Int) (k : Nat) : FltCh :=
  let integ := integrate code x.integ
  let x := { x with integ := integ, last := code, clips := if code = -32768 ∨ code = 32767 then x.clipAt k else x.clips }
  if k % 64 = 63 then
    let r := combs (integ.getLastD 0) x.comb
    let v := r.2 / 2 ^ 14
    let x := { x with comb := r.1, cicQ := x.cicQ ++ [(k / 64, v, x.gain)] }
    if 0 < x.canaryDenied then { x with canaryDenied := x.canaryDenied - 1, canaryRun := [] }
    else { x with canaryRun := (v :: x.canaryRun).take 4 }
  else x

/-- One code of the block being taken: the marked leading codes are replaced (R128), and a paired channel takes only the
codes of its own converter (R127). -/
def FltCh.blockCode (x : FltCh) (code : BitVec 16) : FltCh :=
  let v := if x.blockPos < x.markN then x.fill else code.toInt
  let keep := !x.rate40 || x.blockPos % 2 == 0
  let y := if keep then x.rawIn v x.next else x
  { y with blockPos := x.blockPos + 1, next := if keep then x.next + 1 else x.next }

/-! ### Synchronising resets (R147 to R149) -/

/-- The raw block boundary that follows an instant, as an index at 20 MS/s: the blocks of a pair are half as long (R97, R109, R147). -/
def nextBoundary (rate40 : Bool) (tsc : Nat) : Nat := if rate40 then (tsc + 25599) / 25600 * 512 else (tsc + 51199) / 51200 * 1024

/-- Whether a swap's fade is in progress: from its first sample on, with FADE > 0 (R144). -/
def Fade.running (f : Fade) : Bool := decide (0 < f.len ∧ 0 < f.m)

/-- A reset at raw index `b`: integrators and combs at once, the rest with decimated sample `b / 512`; a fade in progress ends, and
its target, or the target of the request held, becomes active (R146, R148, R149).  After RELEASE, PAIR and RUN the angle tap begins anew. -/
def Dev.syncReset (d : Dev) (c cause b : Nat) : Dev :=
  let x := d.chain c
  let fading := match x.fade with
    | some f => f.running
    | none => false
  let bank := match x.held, x.fade with
    | some (t, _), _ => t
    | none, some f => if f.running then f.target else d.getF F.FLT_CHSTAT_BANK c
    | none, none => d.getF F.FLT_CHSTAT_BANK c
  let d := d.setChain c
    { x with
      integ := [0, 0, 0, 0, 0], comb := [0, 0, 0, 0, 0], marks := x.marks ++ [⟨b / 512, 17, true⟩]
      fade := if fading then none else x.fade, held := none, lastK := if cause = 3 ∨ cause = 5 then x.lastK else none
      due := none, asked := x.asked.filter fun p => decide (b < p.2)
      canaryDenied := 5, canaryRun := [] }
  let d := (d.setF F.FLT_CHSTAT_BANK c bank).setF F.FLT_CHSTAT_FADING c 0
  let d := (d.setF F.FLT_CHSTAT_PENDING c 0).setF F.FLT_CHSTAT_PEND_TARGET c 0
  let d := ((d.incF F.FLT_CHSTAT_RESETS c).setF F.FLT_CHSTAT_LAST_CAUSE c cause).setF F.FLT_CHSTAT_SETTLE c 17
  d.record 0x0020 (0x050 + c) [(1, cause), (8, b)]

/-- The reset that is due takes place. -/
def Dev.runDueReset (d : Dev) (c : Nat) : Dev :=
  match (d.chain c).due with
  | some (cause, b) => d.syncReset c cause b
  | none => d

/-- A reset asked for at the channel's next raw block boundary (causes RUN and COMMAND). -/
def Dev.askReset (d : Dev) (c cause : Nat) : Dev :=
  let x := d.chain c
  d.setChain c { x with asked := x.asked ++ [(cause, nextBoundary (d.getB F.AFE_CHSTAT_RATE40 c) d.tsc)] }

/-- SYNCHRONISING_RESET: the boundary of a reset has come (R147, R148). -/
def execSynchronisingReset (c : Fin 16) (s : State) : Out := s.up fun d =>
  if d.afeRuns c then d.runDueReset c else d

/-! ### Taking raw blocks (skips 0 and 1) -/

/-- The complete groups of CIC outputs that wait: all but the outputs after the last one that ends a group (R124). -/
def completeGroups (q : List (Nat × Int × Nat)) : List (Nat × Int × Nat) := ((q.reverse.dropWhile fun o => o.1 % 8 != 7)).reverse

/-- The decimated samples that the groups still to be decimated will not give, up to sample `j`: a run that ends below it, where the next
one to be expected lies below it too (R148). -/
def FltCh.lostTo (x : FltCh) (q : List (Nat × Int × Nat)) (j : Nat) : List (Nat × Nat) :=
  let next := match q.getLast?, x.dec with
    | some o, _ => o.1 / 8 + 1
    | none, s :: _ => s.j + 1
    | none, [] => 0
  if next < j then ((next, j - 1) :: x.lost).take 64 else x.lost

/-- A block's header reaches the chain: its gain and marks, and the reset that its cause, its GAP or an earlier request
asks for at its first code (R128, R147, R150). -/
def Dev.fltHeader (d : Dev) (h : RawHeader) (lumpGap : Bool) : Dev :=
  let c := h.ch
  let x := d.chain c
  let b := if h.rate40 then h.first / 2 else h.first
  let release := h.markCause.testBit 3
  let pair := h.markCause.testBit 1
  let gap := h.gap || lumpGap
  let asked := x.asked.filter fun p => decide (p.2 ≤ b)
  let cause := if release then some 1 else if pair then some 2 else if gap then some 3
    else if asked.any (fun p => p.1 = 4) then some 4 else if asked ≠ [] then some 5 else none
  let marks := if h.markCause.testBit 0 then x.marks ++ [⟨b / 512, 17, false⟩] else x.marks
  let fill := if release || pair then 0 else x.last
  let cicQ := if release then [] else if cause = none then x.cicQ else completeGroups x.cicQ
  let lost := if cause = none then x.lost else x.lostTo cicQ (b / 512)
  let due := match cause with
    | some v => some (v, b)
    | none => x.due
  d.setChain c
    { x with
      gain := h.gain, markN := h.markN, fill := fill, blockPos := 0, rate40 := h.rate40, next := b, lost := lost, marks := marks
      cicQ := cicQ, due := due }

/-- A sample lump reaches the chain (R124, R127, R128).  The FIR of a channel whose RUN has risen starts with the reset that this causes (R147). -/
def Dev.fltSamples (d : Dev) (c : Nat) (codes : List (BitVec 16)) : Dev :=
  let d := d.runDueReset c
  let x := codes.foldl (fun x v => x.blockCode v) (d.chain c)
  d.setChain c (if d.getB F.FLT_CHCTL_RUN c ∧ ¬x.asked.any (fun p => p.1 = 4) then x else { x with cicQ := [] })

/-! ### The FIR and the DC-blocking stage (R124 to R130) -/

/-- The key of a coefficient: channel, bank, tap. -/
def coefKey (c bank tap : Nat) : Nat := (2 * c + bank) * 128 + tap

/-- A coefficient; the memory holds what the image and later commits wrote (entry I of R7: 0 before). -/
def Dev.coefAt (d : Dev) (c bank tap : Nat) : Int := SMap.getD d.coef (coefKey c bank tap) 0

/-- The sum of products over the delay line, newest first. -/
def Dev.firSum (d : Dev) (c bank : Nat) : Nat → List Int → Int
  | _, [] => 0
  | t, v :: vs => d.coefAt c bank t * v + firSum d c bank (t + 1) vs

/-- The FIR's value at a gain: scaled, rounded half up, clamped; and whether it was clamped (R124). -/
def Dev.firOut (d : Dev) (c bank g : Nat) (line : List Int) : Int × Bool :=
  let y := (d.firSum c bank 0 line + 2 ^ (29 + 2 * g)) / 2 ^ (30 + 2 * g)
  (sat24 y, decide (sat24 y ≠ y))

/-- Rounds half away from zero (R144). -/
def divRound (a b : Int) : Int := if 0 ≤ a then (2 * a + b) / (2 * b) else -((-2 * a + b) / (2 * b))

/-- round(2π × fc × 2²⁴ / 39,062.5) for a corner in 0.01 Hz (R129). -/
def kdc (fc : Nat) : Nat := (fc * 4 * 314159265358979323846 * 2 ^ 24 + 3906250 * 10 ^ 20) / (2 * 3906250 * 10 ^ 20)

/-- One update of the DC estimate (R129). -/
def dcStep (m y : Int) (k : Nat) : Int := m + ((y * 2 ^ 32 - m) / 2 ^ 16 * k) / 2 ^ 8

/-- Handles a swap request that can start at decimated sample `start` (R142, R145).  A swap accepted but not yet started is no fade in
progress: a further request for the other bank takes its place. -/
def Dev.swapRequest (d : Dev) (c target len start : Nat) : Dev :=
  let x := d.chain c
  let fading := match x.fade with
    | some f => f.running
    | none => false
  if ¬d.getB F.FLT_CHCTL_RUN c then
    let d := (d.setChain c { x with fade := none, held := none }).setF F.FLT_CHSTAT_BANK c target
    ((d.setF F.FLT_CHSTAT_FADING c 0).setF F.FLT_CHSTAT_PENDING c 0).setF F.FLT_CHSTAT_PEND_TARGET c 0
  else if d.getB F.FLT_CHCTL_POL c then d.setBit F.FLT_STAT_REJECT 0 c
  else if fading then
    let replaced := x.held.isSome
    let d := d.setChain c { x with held := some (target, len) }
    let d := (d.setF F.FLT_CHSTAT_PENDING c 1).setF F.FLT_CHSTAT_PEND_TARGET c target
    if replaced then (d.setBit F.FLT_STAT_SWAP_OVERRUN 0 c).record 0x0021 (0x050 + c) [(1, target)] else d
  else if target = d.getF F.FLT_CHSTAT_BANK c then d
  else d.setChain c { x with fade := some { target := target, len := len, start := start } }

/-- The first decimated sample whose last raw code is still to reach the chain (R142). -/
def FltCh.swapSample (x : FltCh) : Nat := x.next / 512

/-- A fade ends: its target becomes active, and the request held is handled as one that arrives now, so that it starts with the next sample
(R144, R145). -/
def Dev.fadeEnd (d : Dev) (c : Nat) (f : Fade) : Dev :=
  let x := d.chain c
  let d := (d.setF F.FLT_CHSTAT_BANK c f.target).setF F.FLT_CHSTAT_FADING c 0
  let d := (d.setF F.FLT_CHSTAT_PENDING c 0).setF F.FLT_CHSTAT_PEND_TARGET c 0
  let d := d.setChain c { x with fade := none, held := none }
  match x.held with
  | some (t, l) => d.swapRequest c t l (f.start + 12 + f.len)
  | none => d

/-- Whether the last blended sample of a fade has passed (R144). -/
def Fade.done (f : Fade) : Bool := decide (0 < f.len ∧ f.m = 12 + f.len)

/-- The fade of a channel ends where its last blended sample has passed. -/
def Dev.fadeDone (d : Dev) (c : Nat) : Dev :=
  match (d.chain c).fade with
  | some f => if f.done then d.fadeEnd c f else d
  | none => d

/-- FADE_END: the last blended sample has passed (R145). -/
def execFadeEnd (c : Fin 16) (s : State) : Out := s.up fun d => d.fadeDone c

/-- The swap that starts with sample `j`: without fade the target bank is active from here, with its delay line cleared (R143); with one, the
fade is in progress from here (R144). -/
def Dev.swapStart (d : Dev) (c j : Nat) : Dev :=
  let x := d.chain c
  match x.fade with
  | some f =>
    if f.m = 0 ∧ f.start ≤ j then
      if f.len = 0 then
        let x := { x with fade := none, settle := max x.settle 12 }
        let x := if f.target = 0 then { x with lineA := List.replicate 96 0 } else { x with lineB := List.replicate 96 0 }
        (d.setChain c x).setF F.FLT_CHSTAT_BANK c f.target
      else d.setF F.FLT_CHSTAT_FADING c 1
    else d
  | none => d

/-- The marks that begin with decimated sample `j` take effect (R148, R150, R151). -/
def FltCh.takeMarks (x : FltCh) (j : Nat) : FltCh :=
  let now := x.marks.filter fun m => decide (m.j ≤ j)
  let x := { x with marks := x.marks.filter fun m => decide (j < m.j), settle := now.foldl (fun s m => max s m.s) x.settle }
  if now.any (·.reset) then
    { x with lineA := List.replicate 96 0, lineB := List.replicate 96 0, dc := 0, zero := 17, fastDue := true, fast := 0 }
  else x

/-- Eight CIC outputs shifted into a delay line, newest first. -/
def shiftIn (line : List Int) (vs : List Int) : List Int := (vs.reverse ++ line).take 96

/-- Splits off the CIC outputs of one decimated sample: those up to the first whose last raw code has (k & 511) = 511 (R124). -/
def cicGroup : List (Nat × Int × Nat) → Option (List (Nat × Int × Nat) × List (Nat × Int × Nat))
  | [] => none
  | o :: q => if o.1 % 8 = 7 then some ([o], q) else (cicGroup q).map fun r => (o :: r.1, r.2)

/-- One decimated sample of a running chain (R124, R126, R129, R130, R143, R144, R150). -/
def Dev.decimate (d : Dev) (c : Nat) (outs rest : List (Nat × Int × Nat)) : Dev :=
  let j := (outs.getLastD (0, 0, 0)).1 / 8
  let g := (outs.getLastD (0, 0, 0)).2.2
  let d := d.setChain c { ((d.chain c).takeMarks j) with cicQ := rest }
  let d := (d.fadeDone c).swapStart c j
  let x := d.chain c
  let fade := match x.fade with
    | some f => if f.start ≤ j then some f else none
    | none => none
  let bank := d.getF F.FLT_CHSTAT_BANK c
  let vs := outs.map fun p => p.2.1
  let feedA := bank = 0 ∨ fade.isSome
  let feedB := bank = 1 ∨ fade.isSome
  let lineA := if feedA then shiftIn x.lineA vs else x.lineA
  let lineB := if feedB then shiftIn x.lineB vs else x.lineB
  let cur := d.firOut c bank g (if bank = 0 then lineA else lineB)
  let blend := match fade with
    | some f => decide (12 ≤ f.m)
    | none => false
  let raw := match fade with
    | some f =>
      if 12 ≤ f.m then
        let b := d.firOut c f.target g (if f.target = 0 then lineA else lineB)
        (cur.1 + divRound ((b.1 - cur.1) * (f.m - 12 + 1 : Nat)) (f.len + 1 : Nat), cur.2 || b.2)
      else cur
    | none => cur
  let settling := decide (0 < x.settle)
  let inSpan := x.clips.any fun r => decide (512 * j ≤ r.2 + 5884 ∧ r.1 ≤ 512 * j + 511)
  let y := if 0 < x.zero then 0 else raw.1
  let clip0 := (raw.2 && x.zero == 0) || inSpan
  let fastStart := x.fastDue && !settling
  let fast := if fastStart then 39063 else x.fast
  let k := kdc (d.getF F.FLT_DCB_FC c * if 0 < fast then 10 else 1)
  let out0 := y - (x.dc + 2 ^ 31) / 2 ^ 32
  let out := if 0 < x.zero then 0 else sat24 out0
  let clip := clip0 || (x.zero == 0 && decide (sat24 out0 ≠ out0))
  let dc := if d.getB F.FLT_CHCTL_DCB_FRZ c || settling || clip0 then x.dc else dcStep x.dc y k
  let smp : DecS := ⟨j, out, settling, clip, blend, d.getB F.FLT_CHCTL_TEST c⟩
  let d := d.setChain c
    { x with
      lineA := lineA, lineB := lineB, dc := dc, dec := (smp :: x.dec).take 1024, settle := x.settle - 1, zero := x.zero - 1
      fastDue := x.fastDue && !fastStart, fast := fast - 1, fade := x.fade.map fun f => if f.start ≤ j then { f with m := f.m + 1 } else f }
  let d := (d.setF F.FLT_CHSTAT_SETTLE c (x.settle - 1)).setB F.FLT_CHSTAT_FAST c (decide (0 < fast))
  let d := if clip then d.setF F.FLT_CHSTAT_CLIP c 1 else d
  (d.setF F.FLT_DCEST_DCEST c (unsgn 32 ((dc + 2 ^ 31) / 2 ^ 32))).setF F.FLT_DECIDX_IDX c j

/-- DECIMATED_SAMPLE: 512 raw codes have passed, and the FIR computes the next decimated sample (R124); a sample is
one of the references of the clocks that name its channel (R77, R79). -/
def execDecimatedSample (c : Fin 16) (s : State) : Out := s.up fun d =>
  if d.afeRuns c ∧ d.getB F.FLT_CHCTL_RUN c then
    match cicGroup (d.chain c).cicQ with
    | none => d
    | some (outs, rest) =>
      let d := d.decimate c outs rest
      let valid := match (d.chain c).dec with
        | x :: _ => !x.settling
        | [] => false
      (List.range 4).foldl (fun d n => d.angSample n (d.refBits n 0 c 0) valid) d
  else d

/-- FAST_SETTLE_END: 39,063 decimated samples after its start, fast-settle ends (R130). -/
def execFastSettleEnd (c : Fin 16) (s : State) : Out := s.up fun d =>
  let x := d.chain c
  if x.fast = 0 ∧ ¬x.fastDue ∧ d.getB F.FLT_CHSTAT_FAST c then d.setB F.FLT_CHSTAT_FAST c false else d

/-! ### Resampler taps (R131 to R135) -/

/-- The index and position of an instant in the decimated stream (R134). -/
def tapQ (t16 : Nat) : Nat := (t16 + 2149200) * 4 / 25

/-- The cubic interpolant of four samples at μ (R134), before clamping. -/
def cubic (p0 p1 p2 p3 : Int) (mu : Nat) : Int :=
  let a3 := -p0 + 3 * p1 - 3 * p2 + p3
  let a2 := 3 * p0 - 6 * p1 + 3 * p2
  let a1 := -2 * p0 - 3 * p1 + 6 * p2 - p3
  let t := a3 * mu / 2 ^ 16
  let t := (t + a2) * mu / 2 ^ 16
  let t := (t + a1) * mu / 2 ^ 16
  p1 + if 0 ≤ t then (t + 3) / 6 else -((-t + 3) / 6)

/-- The decimated sample with an index: one of the latest computed, or value 0 with SETTLING where its codes were lost or the chain did not
run (R137, R148). -/
def FltCh.decAt (x : FltCh) (j : Nat) : Option DecS :=
  match x.dec.find? fun s => s.j = j with
  | some s => some s
  | none => if x.lost.any fun r => decide (r.1 ≤ j ∧ j ≤ r.2) then some ⟨j, 0, true, false, false, false⟩ else none

/-- A tap sample at an instant, once its support of four decimated samples is there (R134, R135). -/
def FltCh.resample (x : FltCh) (t16 : Nat) (freewheel : Bool) : Option Word :=
  let q := tapQ t16
  let j := q / 65536
  match x.decAt (j - 1), x.decAt j, x.decAt (j + 1), x.decAt (j + 2) with
  | some a, some b, some c, some e =>
    let y := cubic a.val b.val c.val e.val (q % 65536)
    let sup := [a, b, c, e]
    some (sampleWord (sat24 y) (localQual (sup.any (·.settling)) (sup.any (·.clipped) || decide (sat24 y ≠ y)) (sup.any (·.fading))
      freewheel (sup.any (·.test))))
  | _, _, _, _ => none

/-- Samples per cycle that a two-bit N stands for (FLT_CHCTLc.N, SVI_SUBCTLs.N). -/
def samplesPerCycle (code : Nat) : Nat := if code = 0 then 64 else if code = 1 then 128 else 256

/-- The TSC, in 1/16 ns, at which a clock's angle reached sample `k` at N per cycle, the tick at which it now stands being the first that
reaches it (R131). -/
def Ang.instant (a : Ang) (tsc k n : Nat) : Nat :=
  let target := k * 2 ^ 32 / n
  let a1 := a.acc / 1000000000
  let a0 := a.prev / 1000000000
  16 * tsc - 128 * (a1 - target) / max 1 (a1 - a0)

/-- The samples per cycle that an angle, in the units of `Ang.acc`, has passed. -/
def sampleIndex (acc n : Nat) : Nat := acc / 1000000000 * n / 2 ^ 32

/-- Samples per cycle of an angle domain (R180). -/
def domainN (dom : Nat) : Nat := samplesPerCycle (dom % 3)

/-- Notes an instant of a timing domain. -/
def Dev.pushInst (d : Dev) (dom : Nat) (i : Inst) : Dev :=
  { d with insts := SMap.set d.insts dom ((i :: SMap.getD d.insts dom []).take 4096) }

/-- The instants of a domain, latest first. -/
def Dev.instsOf (d : Dev) (dom : Nat) : List Inst := SMap.getD d.insts dom []

/-- The instants of an angle domain that the tick just past was the first to reach (R131). -/
def Dev.domAdvance (d : Dev) (dom : Nat) : Dev :=
  let a := d.angle (dom / 3)
  let n := domainN dom
  let old := sampleIndex a.prev n
  (List.range (sampleIndex a.acc n - old)).foldl (fun d i =>
    d.pushInst dom ⟨old + 1 + i, a.instant d.tsc (old + 1 + i) n, a.freewheels⟩) d

/-- The next instant that a tap takes after index `last`: the oldest one noted; a tap that begins takes the latest (R131). -/
def nextInst (last : Option Nat) (l : List Inst) : Option Inst :=
  match last with
  | some k => (l.filter fun i => decide (k < i.k)).getLast?
  | none => l.head?

/-- The number of an FLT producer: 0 to 7 angle (4 × half + clock), 8 and 9 fixed-rate (R139). -/
def fltSource (p : Nat) : Nat := 0x060 + p

/-- Adds a channel's instant to what a producer has still to send; channels with one instant share it. -/
def addInstant (t : TapInst) : List TapInst → List TapInst
  | [] => [t]
  | u :: us => if u.t16 = t.t16 then { u with chans := u.chans ++ t.chans } :: us else u :: addInstant t us

/-- Puts an instant on a producer's list. -/
def Dev.queueTap (d : Dev) (p : Nat) (t : TapInst) : Dev :=
  { d with taps := SMap.set d.taps p (addInstant t (SMap.getD d.taps p [])) }

/-- Whether a channel has an angle tap that runs: bound, with RUN = 1, released and not dark (R131, R137). -/
def Dev.angTap (d : Dev) (c : Nat) : Bool :=
  d.afeRuns c && d.getB F.FLT_CHCTL_RUN c && d.getB F.FLT_CHCTL_ANG_EN c && (d.afeChan c).released && !(d.getB F.AFE_CHSTAT_DARK c)

/-- The timing domain of a channel's angle tap. -/
def Dev.tapDomain (d : Dev) (c : Nat) : Nat := 3 * d.getF F.FLT_CHCTL_CLK c + min 2 (d.getF F.FLT_CHCTL_N c)

/-- An index at 256 samples per cycle of one at N. -/
def at256 (dom k : Nat) : Nat := k * (256 / domainN dom)

/-- ANGLE_TAP_SAMPLE: the next instant of a channel's angle tap has come (R131).  Where channels of one half take the same clock at
different N, the lump of an instant that they share shows the index of the channel whose sample comes first (log entry 75). -/
def execAngleTapSample (c : Fin 16) (s : State) : Out := s.up fun d =>
  let dom := d.tapDomain c
  match nextInst (d.chain c).lastK (d.instsOf dom) with
  | none => d
  | some i =>
    if d.angTap c then
      (d.setChain c { d.chain c with lastK := some i.k }).queueTap (4 * (chHalf c).num + dom / 3) ⟨at256 dom i.k, i.k, i.t16, i.freewheel, [c]⟩
    else d

/-- The fixed rate that FR_RATE selects (R132). -/
def frRate (code : Nat) : Nat := if code = 0 then 4000 else if code = 1 then 4800 else 14400

/-- CAL of sample `n` of second `S` at rate F (R132). -/
def frCal (F S n : Nat) : Nat := S * 1000000000 + (2 * n * 1000000000 + F) / (2 * F)

/-- The first instant of the sequence at or after a CAL. -/
def frFirst (F cal : Nat) : Nat × Nat :=
  let S := cal / 1000000000
  let n := cal % 1000000000 * F / 1000000000
  let n := if cal ≤ frCal F S n then n else n + 1
  if n < F then (S, n) else (S + 1, 0)

/-- The instant after one. -/
def frNext (F : Nat) (i : Nat × Nat) : Nat × Nat := if i.2 + 1 < F then (i.1, i.2 + 1) else (i.1 + 1, 0)

/-- The TSC, in 1/16 ns rounded down, at which the calendar reaches a value in a stretch (R132, log entry 75). -/
def CalSeg.reach (g : CalSeg) (cal : Nat) : Nat :=
  16 * g.tsc + (16 * (cal * 2 ^ 40 - g.acc) / (2 ^ 40 + g.rate).toNat)

/-- The channels of a half whose fixed-rate tap runs. -/
def Dev.frChans (d : Dev) (h : Half) : List Nat :=
  h.channels.filter fun c => d.getB F.FLT_CHCTL_RUN c && d.getB F.FLT_CHCTL_FR_EN c && (d.afeChan c).released && !(d.getB F.AFE_CHSTAT_DARK c)

/-- The fixed-rate tap's next instant, where CAL has just reached it (R132).  The first after a step of CAL is passed over while it lies less
than half a period after the one before the step; once reached it is recorded (R133). -/
def Dev.frTick (d : Dev) : Dev :=
  let rate := frRate (d.getF F.FLT_CTL_FR_RATE)
  let i := d.fr.next.getD (frFirst rate d.cal)
  let cal := frCal rate i.1 i.2
  if d.cal < cal then { d with fr := { d.fr with next := some i } }
  else
    let t := d.calSeg.reach cal
    let close := match d.fr.last with
      | some (_, _, l) => d.fr.resync && decide (t < l + 8000000000 / rate)
      | none => false
    if close then { d with fr := { d.fr with next := some (frNext rate i) } }
    else
      let first := d.fr.resync
      let d := d.pushInst 12 ⟨d.fr.count, t, false⟩
      let d := { d with fr := { d.fr with last := some (i.1, i.2, t), next := some (frNext rate i), count := d.fr.count + 1, resync := false } }
      if first then d.record 0x0022 0x068 [(8, t / 16), (8, cal)] else d

/-- A step of CAL: the tap looks for the first instant of the new sequence; RESYNC sets (R133). -/
def Dev.frResync (d : Dev) : Dev :=
  ({ d with fr := { d.fr with next := none, resync := true } }).setF F.FLT_FRSTAT_RESYNC 0 1

/-- The fixed-rate tap takes an instant that CAL has reached: each half has a sample there (R132, R137).  The count that its lumps
show is taken before the instant itself is counted: the first after entry to BOOT shows 0 (log entry 75). -/
def Dev.fixedRate (d : Dev) : Dev :=
  match (d.instsOf 12).find? fun i => i.k == d.fr.taken with
  | none => d
  | some i =>
    let d := { d with fr := { d.fr with taken := i.k + 1 } }
    [Half.north, .south].foldl (fun d h =>
      let cs := d.frChans h
      if d.halfOff h ∨ d.mode = .safe ∨ cs = [] then d else d.queueTap (8 + h.num) ⟨i.k, i.k, i.t16, false, cs⟩) d

/-- FIXED_RATE_INSTANT: the fixed-rate tap takes the next instant that the calendar has reached (R132). -/
def execFixedRateInstant (s : State) : Out := s.up fun d => d.fixedRate

/-! ### Lumps to the Seam (R137, R138) -/

/-- The pit set of an FLT producer (FLT_PITS0, FLT_PITS1). -/
def Dev.fltPits (d : Dev) (p : Nat) : List Nat :=
  let m := if p < 8 then d.getF F.FLT_PITS0_ANGSET / 2 ^ (4 * p) % 16
    else if p = 8 then d.getF F.FLT_PITS1_FRSET0 else d.getF F.FLT_PITS1_FRSET1
  (List.range 4).filter fun i => m.testBit i

/-- Whether a channel's tap is one that a producer's lumps carry: its angle tap on the producer's clock, or its fixed-rate tap. -/
def Dev.tapBound (d : Dev) (p c : Nat) : Bool :=
  if p < 8 then d.getB F.FLT_CHCTL_ANG_EN c && d.getF F.FLT_CHCTL_CLK c == p % 4 else d.getB F.FLT_CHCTL_FR_EN c

/-- The word of one channel in a producer's lump: value 0 with SETTLING where it has RUN = 0 or is dark, its sample where it is bound, else 0
(R137).  A bound channel of smaller N has no sample at every instant of its clock's lumps, and contributes 0 to the others (log entry 75). -/
def Dev.tapWord (d : Dev) (p : Nat) (t : TapInst) (c : Nat) : Option Word :=
  if !(d.getB F.FLT_CHCTL_RUN c) || d.getB F.AFE_CHSTAT_DARK c then some (sampleWord 0 2)
  else if d.tapBound p c ∧ (8 ≤ p ∨ t.k % (256 / domainN (d.tapDomain c)) = 0) then (d.chain c).resample t.t16 t.freewheel
  else some 0

/-- Whether every angle tap that a producer's lumps carry has taken its sample at an instant. -/
def Dev.tapsTaken (d : Dev) (p : Nat) (h : Half) (t : TapInst) : Bool :=
  h.channels.all fun c => !(decide (p < 8) && d.angTap c && d.tapBound p c) || (match nextInst (d.chain c).lastK (d.instsOf (d.tapDomain c)) with
    | some i => (d.chain c).lastK.isNone || decide (t.t16 < i.t16)
    | none => true)

/-- All of a list of optional values, or none. -/
def allSome {α : Type} : List (Option α) → Option (List α)
  | [] => some []
  | none :: _ => none
  | some x :: xs => (allSome xs).map (x :: ·)

/-- FLT_LUMP_SEND: the support of a producer's oldest instant is there, and its lump goes to every pit of its set (R137,
R138). -/
def execFltLumpSend (h : Half) (clock : Option (Fin 4)) (s : State) : Out := s.up fun d =>
  let p := match clock with
    | some n => 4 * h.num + n.val
    | none => 8 + h.num
  match SMap.getD d.taps p [] with
  | [] => d
  | t :: ts =>
    if d.halfOff h ∨ d.mode = .safe ∨ ¬d.tapsTaken p h t then d
    else match allSome (h.channels.map fun c => d.tapWord p t c) with
      | none => d
      | some ws =>
        let d := { d with taps := SMap.set d.taps p ts }
        (d.fltPits p).foldl (fun d pit => d.sendLump (6 + pit) (fltSource p) clock.isSome (some t.seq) 4 (.sampleWords t.k ws)) d

/-! ### Registers of the block -/

/-- Whether a coefficient commit is refused (R141). -/
def Dev.coefRefused (d : Dev) (c bank : Nat) : Bool :=
  let stopped := d.getB F.FLT_CHCTL_POL c
  let fading := match (d.chain c).fade with
    | some f => f.running && f.target == bank
    | none => false
  (d.getB F.FLT_CHCTL_RUN c && (d.getF F.FLT_CHSTAT_BANK c == bank || fading || stopped)) ||
    (d.getB F.AFE_CHSTAT_DARK c && stopped)

/-- A commit of FLT_CWHI that is not refused writes one coefficient (R141). -/
def Dev.coefCommit (d : Dev) : Dev :=
  let c := d.getF F.FLT_CWSEL_CH
  let bank := d.getF F.FLT_CWSEL_BANK
  let v := sgn 24 (d.getF F.FLT_CWLO_COEF_LO + 65536 * d.getF F.FLT_CWHI_COEF_HI)
  { d with coef := SMap.set d.coef (coefKey c bank (d.getF F.FLT_CWSEL_TAP)) v }

/-- A write of FLT_CHCTLc: a change of RUN from 0 to 1 on a released channel asks for a reset (R147 cause 4). -/
def Dev.chctlWritten (d : Dev) (c : Nat) (oldRun : Bool) : Dev :=
  if ¬oldRun ∧ d.getB F.FLT_CHCTL_RUN c then
    let x := d.chain c
    let d := d.setChain c { x with cicQ := [], lost := x.lostTo [] (x.next / 512) }
    if (d.afeChan c).released then d.askReset c 4 else d
  else d

/-- RAW_BLOCK_BOUNDARY: 1024 codes of a channel have passed, as its converters measured them (R97, R100).  The odd channel of a pair that
forms sends no header; its chain is reset at the boundary itself (R110, R147 cause 2). -/
def execRawBlockBoundary (c : Fin 16) (codes : List (BitVec 16)) (s : State) : Out := s.upWf (codes.length == 1024) fun d =>
  if d.afeRuns c then
    let dark := d.getB F.AFE_CHSTAT_DARK c
    let d := d.rawBoundary c codes
    if ¬dark ∧ d.getB F.AFE_CHSTAT_DARK c then d.syncReset c 2 (d.afeChan c).first else d
  else d

/-- A write of FLT_RESET: one request for each bit written with 1 (R147 cause 5). -/
def Dev.fltResetWritten (d : Dev) (bits : Nat) : Dev :=
  (List.range 16).foldl (fun d c => if bits.testBit c ∧ (d.afeChan c).released then d.askReset c 5 else d) d

end Sys2Proof.Machine
end

