-- ==== Sys2Proof/Machine/Svi.lean ====
section
/-!
DEFINITION. Sampled-value ingest: matching, conversion, missing samples, the angle tap of a stream and native lumps.
-/
namespace Sys2Proof.Machine

/-- A subscription. -/
def Dev.sub (d : Dev) (s : Nat) : SvSub := SMap.getD d.svi s {}

/-- Replaces a subscription. -/
def Dev.setSub (d : Dev) (s : Nat) (x : SvSub) : Dev := { d with svi := SMap.set d.svi s x }

/-- The rate of a subscription (R155). -/
def Dev.subRate (d : Dev) (s : Nat) : Nat := frRate (d.getF F.SVI_SUBCTL_RATE s)

/-- The destination MAC of a subscription, octet 1 first. -/
def Dev.subMac (d : Dev) (s : Nat) : Nat :=
  (d.getF F.SVI_SUBMAC0_MAC s * 65536 + d.getF F.SVI_SUBMAC1_MAC s) * 65536 + d.getF F.SVI_SUBMAC2_MAC s

/-- The svID of a subscription: SVID_LEN octets of the applied copy. -/
def Dev.subSvid (d : Dev) (s : Nat) : List Nat :=
  (List.range (d.getF F.SVI_SUBSCL_SVID_LEN s)).map fun i => SMap.getD (d.sub s).svid i 0

/-- The quality of an SV sample word: SETTLING is its only invalidity, and SOURCE is 1 (R162). -/
def svQual (q : Nat) : Nat := q % 128 - q % 2 + (!(q.testBit 1)).toNat + 128

/-- CAL of a stream sample (R155). -/
def svCal (rate idx : Nat) : Nat := frCal rate (idx / rate) (idx % rate)

/-- The TSC, in 1/16 ns, at which the calendar reached a value, following every stretch (R132, R166). -/
def calReach : List CalSeg → Nat → Nat
  | [], _ => 0
  | [g], cal => g.reach cal
  | g :: gs, cal => if g.acc ≤ cal * 2 ^ 40 then g.reach cal else calReach gs cal

/-- The TSC of a stream sample's instant, in 1/16 ns. -/
def Dev.svInstant (d : Dev) (rate idx : Nat) : Nat := calReach d.clk.cal (svCal rate idx)

/-! ### Resolution and STATE (R163, R164, R171) -/

/-- A new STATE: set, recorded on entry to INVALID and on departure from it, and flagged on entry (R171). -/
def Dev.subState (d : Dev) (s new smpcnt : Nat) : Dev :=
  let old := d.getF F.SVI_SUBSTAT_STATE s
  let d := d.setF F.SVI_SUBSTAT_STATE s new
  if (old = 4) = (new = 4) then d
  else
    let d := if new = 4 then d.flag F.SVI_INVAL_INVAL (s / 32) (s % 32) 16 else d
    d.record 0x0028 (0x080 + s) [(1, old), (1, new), (1, d.getF F.SVI_SUBSTAT_REASON s), (2, smpcnt)]

/-- STATE after a sample has been resolved (R171); WAITING until one has been received. -/
def Dev.subResolved (d : Dev) (s : Nat) (x : SvSample) : Dev :=
  let new := if !(d.sub s).got then 1
    else if x.chans.any (fun p => p.2.testBit 1) then 4
    else if x.received then 2 else 3
  d.subState s new (x.idx % d.subRate s)

/-- The pits a subscription's lumps go to. -/
def Dev.subPits (d : Dev) (s : Nat) : List Nat := (List.range 4).filter fun p => d.bitF F.SVI_SUBMAP_PITS s p

/-- The eight words of a lump: channel i for i < NCH, 0 otherwise (R169). -/
def svWords (chans : List (Int × Nat)) : List Word :=
  ((chans.map fun (p : Int × Nat) => sampleWord p.1 (svQual p.2)) ++ List.replicate 8 0).take 8

/-- The resolved sample with an index. -/
def SvSub.sample (x : SvSub) (idx : Nat) : Option SvSample := x.hist.find? fun s => s.idx = idx

/-- Passes the samples that are resolved in order, each a native lump while NAT_EN = 1 (R168, R169). -/
def Dev.subAdvance (s : Nat) : Nat → Dev → Dev
  | 0, d => d
  | fuel + 1, d =>
    let x := d.sub s
    match x.sample x.next with
    | none => d
    | some m =>
      let d := d.setSub s { x with next := x.next + 1, count := x.count + 1 }
      let d := if d.getB F.SVI_SUBCTL_NAT_EN s then
          (d.subPits s).foldl (fun d p => d.sendLump (10 + p) (0x1080 + s) false (some x.count) 4 (.sampleWords x.next (svWords m.chans))) d
        else d
      subAdvance s fuel d

/-- The channels of a stream's resolved sample are references of the clocks that name them (R77, R79). -/
def Dev.svReference (d : Dev) (s : Nat) (chans : List (Int × Nat)) : Dev :=
  (List.range 4).foldl (fun d n => chans.zipIdx.foldl (fun d p => d.angSample n (d.refBits n 1 s p.2) (!(p.1.2.testBit 1))) d) d

/-- Resolves a sample: it joins the history, STATE follows, and what is now in order is passed.  A sample from before the first one of the
start is history alone (log entry 75). -/
def Dev.subResolve (d : Dev) (s : Nat) (m : SvSample) : Dev :=
  let x := d.sub s
  let d := d.setSub s { x with hist := (m :: x.hist).take 16384, got := x.got || m.received }
  (Dev.subAdvance s 16384 (d.subResolved s m)).svReference s m.chans

/-- The latest received sample before an index. -/
def lastReceived (idx : Nat) : List SvSample → Option SvSample
  | [] => none
  | m :: ms =>
    match lastReceived idx ms with
    | none => if m.received ∧ m.idx < idx then some m else none
    | some b => if m.received ∧ m.idx < idx ∧ b.idx < m.idx then some m else some b

/-- What fills a missing sample (R164). -/
def SvSub.fill (x : SvSub) (idx nch : Nat) : SvSample :=
  let c := match x.sample (idx - 1) with
    | some m => m.c + 1
    | none => 1
  match lastReceived idx x.hist with
  | some b => ⟨idx, false, c, b.chans.map fun p => (p.1, if c ≤ 2 then p.2 ||| 32 else 34)⟩
  | none => ⟨idx, false, c, List.replicate nch (0, 34)⟩

/-- The ports that carry a subscription (R163): those PORT names whose link is up and whose skip is not OFFLINE. -/
def Dev.carries (d : Dev) (s port : Nat) : Bool :=
  let sel := d.getF F.SVI_SUBCTL_PORT s
  (sel == 0 || sel == port + 1) && d.bitF F.NET_STAT_LINK 0 port && decide ((d.skip (27 + port)).st ≠ .offline)

/-- Whether every carrying port has delivered a later sample. -/
def Dev.allPassed (d : Dev) (s idx : Nat) : Bool :=
  let x := d.sub s
  let past (port : Nat) (l : Option Nat) : Bool := !(d.carries s port) || (match l with
    | some j => decide (idx < j)
    | none => false)
  (d.carries s 0 || d.carries s 1) && past 0 x.lastA && past 1 x.lastB

/-- Whether SVI runs a subscription: enabled, started (R172) and not stopped with SAFE (R462). -/
def Dev.subRuns (d : Dev) (s : Nat) : Bool :=
  d.getB F.SVI_SUBCTL_EN s && d.getF F.SVI_SUBSTAT_STATE s != 0 && decide (d.mode ≠ .safe)

/-- The first stream sample at or after a CAL. -/
def svFirst (rate cal : Nat) : Nat := let i := frFirst rate cal; i.1 * rate + i.2

/-- SV_SAMPLE_MISSING: the first unresolved sample of a subscription has passed its deadline, or every carrying port has
passed it, and it is missing (R163, R164). -/
def execSvSampleMissing (i : Fin 128) (s : State) : Out := s.up fun d =>
  let x := d.sub i
  let rate := d.subRate i
  let idx := x.next
  let late := decide (d.svInstant rate idx + 160000 * d.getF F.SVI_DL_DL ≤ 16 * d.tsc)
  if d.subRuns i && (late || d.allPassed i idx) then
    let m := x.fill idx (d.getF F.SVI_SUBMAP_NCH i)
    let d := d.incF F.SVI_SUBCNT_SUBST i
    let d := if 2 < m.c ∨ lastReceived idx x.hist = none then d.setF F.SVI_SUBSTAT_REASON i 1 else d
    d.subResolve i m
  else d

/-! ### Conversion (R159 to R161) -/

/-- The value of a channel from its entry and shift; and whether it saturated (R159). -/
def svValue (v : Word) (sh : Nat) : Int × Bool :=
  let y := if sh = 0 then v.toInt else (v.toInt + 2 ^ (sh - 1)) / 2 ^ sh
  (sat24 y, decide (sat24 y ≠ y))

/-- What a quality does (R160): the marks of the channel and whether it is invalid for its quality.  The detail bits follow
validity in the standard's order: overflow, outOfRange, badReference, oscillatory, failure, oldData, inconsistent,
inaccurate, source, test, operatorBlocked, derived. -/
def svQuality (q : Word) (questInv : Bool) : Nat × Bool :=
  let v := q.toNat % 4
  let b (i : Nat) : Bool := q.toNat.testBit i
  let bad := v == 1 || v == 2 || b 6 || b 4 || b 8 || b 7 || (v == 3 && questInv)
  (4 * (b 2 || b 3).toNat + 32 * (b 10).toNat + 64 * (b 11).toNat, bad)

/-- The invalidity that an ASDU's synchronisation gives every channel, as a REASON: the first row of the table that holds (R161, log entry 75). -/
def Dev.svSync (d : Dev) (s : Nat) (a : Asdu) : Option Nat :=
  let y := a.smpSynch.getD 0
  if y = 0 then some 3
  else if y ≠ 2 ∧ ¬d.getB F.SVI_SUBCTL_SYNC_MIN s then some 3
  else if y = 2 ∧ d.getB F.SVI_SUBCTL_GMCHK s ∧ a.gmIdentity ≠ some (d.getF F.PTP_GMID_GMID) then some 5
  else if d.calState ≠ 2 ∧ d.calState ≠ 3 then some 4
  else none

/-- The channels of an accepted ASDU (R159 to R162), and the causes of invalidity among them. -/
def Dev.svConvert (d : Dev) (s : Nat) (sim : Bool) (a : Asdu) : List (Int × Nat) × List Nat :=
  let first := d.getF F.SVI_SUBMAP_FIRST s
  let sync := d.svSync s a
  let chans := (List.range (d.getF F.SVI_SUBMAP_NCH s)).map fun i =>
    let e := (a.entries[first + i]?).getD (0, 0)
    let y := svValue e.1 (if i < 4 then d.getF F.SVI_SUBSCL_SHIFTA s else d.getF F.SVI_SUBSCL_SHIFTB s)
    let q := svQuality e.2 (d.getB F.SVI_SUBCTL_QUEST_INV s)
    (y.1, (q.1 ||| 4 * y.2.toNat ||| 64 * sim.toNat ||| 2 * (q.2 || sync.isSome).toNat), q.2)
  (chans.map fun p => (p.1, p.2.1), (if chans.any (fun p => p.2.2) then [2] else []) ++ sync.toList)

/-- Sets REASON to the cause of an invalid sample; where two hold, R160 and R161 give no order and a free value chooses. -/
def Dev.svReason (d : Dev) (s : Nat) (causes : List Nat) : Dev :=
  match causes with
  | [] => d
  | [r] => d.setF F.SVI_SUBSTAT_REASON s r
  | r :: rs => (d.setF F.SVI_SUBSTAT_REASON s ((r :: rs).getD (d.peekFree % (rs.length + 1)) r)).draw

/-! ### Frames (R154 to R158, R165) -/

/-- Whether an ASDU meets the table of R154, but for the range of smpCnt. -/
def asduOk (a : Asdu) : Bool :=
  decide (1 ≤ a.svid.length ∧ a.svid.length ≤ 64) && a.smpCnt.isSome && a.confRev.isSome && a.smpSynch.isSome &&
  decide (1 ≤ a.entries.length ∧ a.entries.length ≤ 24)

/-- The enabled entry that a frame and an ASDU match (R156). -/
def Dev.svMatch (d : Dev) (f : SvFrame) (a : Asdu) : Option Nat :=
  (List.range 128).find? fun s =>
    d.getB F.SVI_SUBCTL_EN s && d.subMac s == f.dmac.toNat && d.getF F.SVI_SUBAPP_APPID s == f.appid.toNat &&
      d.getF F.SVI_SUBSCL_SVID_LEN s != 0 && d.subSvid s == a.svid.map BitVec.toNat

/-- The index of the sample an ASDU carries, from the CAL of arrival (R155). -/
def svIndex (rate arrival n : Nat) : Option Nat :=
  let low := (arrival : Int) - 900000000
  let S := (low + 999999999 - (frCal rate 0 n : Int)) / 1000000000
  if n < rate ∧ 0 ≤ S then some (S.toNat * rate + n) else none

/-- Sets PORTx_SEEN. -/
def Dev.portSeen (d : Dev) (s : Nat) (portB : Bool) : Dev :=
  if portB then d.setF F.SVI_SUBSTAT_PORTB_SEEN s 1 else d.setF F.SVI_SUBSTAT_PORTA_SEEN s 1

/-- Notes the latest index a port has delivered. -/
def SvSub.delivered (x : SvSub) (portB : Bool) (idx : Nat) : SvSub :=
  let up (l : Option Nat) : Option Nat := some (max idx (l.getD idx))
  if portB then { x with lastB := up x.lastB } else { x with lastA := up x.lastA }

/-- An ASDU that matched subscription `s` with a sample index (R158, R165, R159 to R161).  The discards of R158 come before those of R165, and
where several of their conditions hold REASON names the first of the table: the rules give no order (log entry 75). -/
def Dev.svAccept (d : Dev) (s idx : Nat) (portB : Bool) (f : SvFrame) (a : Asdu) : Dev :=
  let d := d.setSub s ((d.sub s).delivered portB idx)
  let rev := d.getF F.SVI_SUBREVLO_REV s + 65536 * d.getF F.SVI_SUBREVHI_REV s
  if a.confRev ≠ some rev then d.setF F.SVI_SUBSTAT_REASON s 6
  else if a.entries.length < d.getF F.SVI_SUBMAP_FIRST s + d.getF F.SVI_SUBMAP_NCH s then d.setF F.SVI_SUBSTAT_REASON s 7
  else if f.sim ≠ d.getB F.SVI_SUBCTL_SIM s then d.setF F.SVI_SUBSTAT_REASON s 1
  else
    match (d.sub s).sample idx with
    | some m => if m.received then d.portSeen s portB else d.incF F.SVI_SUBCNT_LATE s
    | none =>
      let r := d.svConvert s f.sim a
      let d := (d.portSeen s portB).setF F.SVI_SUBSTAT_SMPSYNCH s (a.smpSynch.getD 0)
      let d := d.svReason s r.2
      d.subResolve s ⟨idx, true, 0, r.1⟩

/-- One ASDU of a frame (R154 to R156). -/
def Dev.svAsdu (d : Dev) (portB : Bool) (arrival : Nat) (f : SvFrame) (a : Asdu) : Dev :=
  if !asduOk a then d.incF F.SVI_UNMATCH_MALFORMED
  else match d.svMatch f a with
    | none => d.incF F.SVI_UNMATCH_UNMATCHED
    | some s =>
      let sel := d.getF F.SVI_SUBCTL_PORT s
      if sel ≠ 0 ∧ sel ≠ (if portB then 2 else 1) then d.incF F.SVI_UNMATCH_UNMATCHED
      else match svIndex (d.subRate s) arrival (a.smpCnt.getD 0) with
        | none => d.incF F.SVI_UNMATCH_MALFORMED
        | some idx => if d.subRuns s then d.svAccept s idx portB f a else d

/-- A frame that SVI takes, time-stamped by NET at a TSC (R154). -/
def Dev.svFrame (d : Dev) (portB : Bool) (ts : Nat) (f : SvFrame) : Dev :=
  if 1 < f.tags ∨ f.asdus.length = 0 ∨ 8 < f.asdus.length then d.incF F.SVI_UNMATCH_MALFORMED
  else f.asdus.foldl (fun d a => d.svAsdu portB (d.calAt ts) f a) d

/-- A part of a frame leaves skip 27 or 28; a frame of which a part is lost is lost (R21). -/
def Dev.svTakePart (d : Dev) (port ofs : Nat) (gap : Bool) (frame : Option (Nat × Option SvFrame)) : Dev :=
  let due := if ofs = 0 then true else !gap && SMap.get? d.svPart port == some ofs
  let whole := if due then frame else none
  let d := { d with svPart := if due ∧ frame = none then SMap.set d.svPart port (ofs + 64) else SMap.erase d.svPart port }
  match whole with
  | some f => { d with svIn := SMap.set d.svIn port (SMap.getD d.svIn port [] ++ [f]) }
  | none => d

/-- SV_FRAME_RECEIVE: SVI takes the oldest frame that a port has delivered to it (R154 to R165). -/
def execSvFrameReceive (portB : Bool) (s : State) : Out := s.up fun d =>
  if d.mode = .safe then d
  else match SMap.getD d.svIn portB.toNat [] with
    | [] => d
    | (ts, f) :: fs =>
      let d := { d with svIn := SMap.set d.svIn portB.toNat fs }
      match f with
      | some f => d.svFrame portB ts f
      | none => d.incF F.SVI_UNMATCH_MALFORMED

/-! ### The angle tap (R166, R167, R169) -/

/-- The latest stream sample at or before an instant (1/16 ns). -/
def Dev.svBefore (d : Dev) (rate t16 : Nat) : Nat :=
  let i := svFirst rate (d.calAt (t16 / 16) + 1)
  let g := i + 1
  if d.svInstant rate g ≤ t16 then g else if d.svInstant rate i ≤ t16 then i
  else if d.svInstant rate (i - 1) ≤ t16 then i - 1 else i - 2

/-- A sample of a support: one from before the start has value 0 and is invalid (R172). -/
def SvSub.support (x : SvSub) (nch idx : Nat) : Option SvSample :=
  match x.sample idx with
  | some m => some m
  | none => if idx < x.start then some ⟨idx, false, 0, List.replicate nch (0, 2)⟩ else none

/-- A tap sample of one channel from its support (R166, R167). -/
def svInterp (a b c e : Int × Nat) (mu : Nat) (freewheel : Bool) : Int × Nat :=
  let y := cubic a.1 b.1 c.1 e.1 mu
  (sat24 y, ((a.2 ||| b.2 ||| c.2 ||| e.2) &&& 0x66) ||| 4 * (decide (sat24 y ≠ y)).toNat ||| 16 * freewheel.toNat)

/-- The channels of an angle sample, once stream sample j₀ + 2 is resolved (R166, R169); at an instant from before the start there is no
sample of the stream as it now counts, and every channel has value 0 and is invalid (R172). -/
def Dev.svTap (d : Dev) (s : Nat) (t : TapInst) : Option (List (Int × Nat)) :=
  let x := d.sub s
  let rate := d.subRate s
  let nch := d.getF F.SVI_SUBMAP_NCH s
  if t.t16 < 16 * x.startTsc then some (List.replicate nch (0, 2 + 16 * t.freewheel.toNat))
  else
    let j := d.svBefore rate t.t16
    match x.support nch (j - 1), x.support nch j, x.support nch (j + 1), x.support nch (j + 2) with
    | some a, some b, some c, some e =>
      let t0 := d.svInstant rate j
      let mu := 65536 * (t.t16 - t0) / max 1 (d.svInstant rate (j + 1) - t0)
      let at_ (m : SvSample) (k : Nat) : Int × Nat := (m.chans[k]?).getD (0, 2)
      some ((List.range nch).map fun k => svInterp (at_ a k) (at_ b k) (at_ c k) (at_ e k) mu t.freewheel)
    | _, _, _, _ => none

/-- SV_LUMP_SEND: the support of a subscription's oldest angle instant is resolved, and its lump goes to the mapped pits (R166, R169). -/
def execSvLumpSend (i : Fin 128) (s : State) : Out := s.up fun d =>
  let x := d.sub i
  match x.insts with
  | [] => d
  | t :: ts =>
    if !(d.subRuns i) then d
    else match d.svTap i t with
      | none => d
      | some chans =>
        let d := d.setSub i { x with insts := ts }
        (d.subPits i).foldl (fun d p => d.sendLump (10 + p) (0x080 + i) true (some t.seq) 4 (.sampleWords t.k (svWords chans))) d

/-- The angle instants of a subscription that its clock has passed since the last look (R131, R166); a tap that does not run has none, and
one that begins does so with the next instant. -/
def Dev.subTick (d : Dev) (s : Nat) (x : SvSub) : Dev :=
  if d.subRuns s && d.getB F.SVI_SUBCTL_ANG_EN s then
    let dom := 3 * d.getF F.SVI_SUBCTL_CLK s + min 2 (d.getF F.SVI_SUBCTL_N s)
    let now := sampleIndex (d.angle (d.getF F.SVI_SUBCTL_CLK s)).acc (domainN dom)
    let new := match x.lastK with
      | some l => ((d.instsOf dom).filter fun i => decide (l < i.k)).reverse.map fun i => (⟨at256 dom i.k, i.k, i.t16, i.freewheel, []⟩ : TapInst)
      | none => []
    d.setSub s { x with lastK := some now, insts := x.insts ++ new }
  else if x.lastK = none ∧ x.insts = [] then d
  else d.setSub s { x with lastK := none, insts := [] }

/-- Every subscription's angle instants; part of the passing of 8 ns. -/
def Dev.sviTick (d : Dev) : Dev := d.svi.foldl (fun d p => d.subTick p.1 p.2) d

/-! ### Starts and commits (R157, R172) -/

/-- Starts a subscription: history empty, c = 0, STATE = WAITING, REASON none; OFF where EN = 0 (R172). -/
def Dev.subStart (d : Dev) (s : Nat) : Dev :=
  let en := d.getB F.SVI_SUBCTL_EN s
  let x := d.sub s
  let first := svFirst (d.subRate s) d.cal
  let d := d.setSub s
    { x with hist := [], start := first, next := first, count := 0, got := false, startTsc := d.tsc, lastA := none, lastB := none }
  let d := d.subState s (if en then 1 else 0) 0
  d.setF F.SVI_SUBSTAT_REASON s 0

/-- Every subscription starts: on leaving LOAD, and on a step of CAL (R172). -/
def Dev.sviStart (d : Dev) : Dev := (List.range 128).foldl (fun d s => d.subStart s) d

/-- A step of CAL restarts what runs (R172). -/
def Dev.sviStep (d : Dev) : Dev :=
  (List.range 128).foldl (fun d s => if d.getF F.SVI_SUBSTAT_STATE s = 0 then d else d.subStart s) d

/-- Whether two enabled entries would share destination MAC, APPID and svID (R157). -/
def Dev.subClash (d : Dev) (s : Nat) : Bool :=
  d.getB F.SVI_SUBCTL_EN s && (List.range 128).any fun t =>
    t != s && d.getB F.SVI_SUBCTL_EN t && d.subMac t == d.subMac s && d.getF F.SVI_SUBAPP_APPID t == d.getF F.SVI_SUBAPP_APPID s
      && d.subSvid t == d.subSvid s

/-- The holding svID of a commit becomes the applied one. -/
def Dev.svidApply (d : Dev) (s : Nat) : Dev :=
  let x := d.sub s
  d.setSub s { x with svid := x.hold.foldl (fun m p => SMap.set m p.1 p.2) x.svid, hold := [] }

/-- After a commit of SVI_SUBCTLs that changed a field (R172); `cadence` says that CLK, N or ANG_EN changed, so that the
angle tap begins another sequence. -/
def Dev.subCommitted (d : Dev) (s : Nat) (cadence : Bool) : Dev :=
  let x := d.sub s
  let d := if cadence then d.setSub s { x with lastK := none, insts := [] } else d
  if d.mode = .boot ∨ d.mode = .load then d else d.subStart s

/-- A write of SVI_SVIDWR stores the octets that its mask selects in the holding svID of SUB (R32, R34). -/
def Dev.svidWritten (d : Dev) (mask : Nat) : Dev :=
  let s := d.getF F.SVI_SVIDSEL_SUB
  let p := 2 * d.getF F.SVI_SVIDSEL_PAIR
  let x := d.sub s
  let held (o : Nat) : Nat := SMap.getD x.hold o (SMap.getD x.svid o 0)
  let v := (held p + 256 * held (p + 1)) &&& (65535 - mask) ||| (d.getF F.SVI_SVIDWR_OCTETS &&& mask)
  (d.setSub s { x with hold := SMap.set (SMap.set x.hold p (v % 256)) (p + 1) (v / 256) }).setF F.SVI_SVIDWR_OCTETS 0 0

end Sys2Proof.Machine
end

