-- ==== Sys2Proof/Machine/Seam.lean ====
section
/-!
DEFINITION. The Seam fabric: the design's structure, the steps of faces, routes, deadlines, halts, duplex lodes, setting
groups, point reads and the timed events of ENERGY and BALANCE.
-/
namespace Sys2Proof.Machine

/-! ### The design (R175, R178, R203, R528) -/

/-- No index. -/
def noIx : Nat := 0xFFFFFFFF

/-- A node of the tree. -/
def Design.node (D : Design) (i : Nat) : Option NodeRec := D.nodes[i]?

/-- The port records of a node, in order. -/
def Design.portsOf (D : Design) (n : NodeRec) : List PortRec := (D.ports.drop n.portBase).take n.ports

/-- The face of a point address. -/
def faceOf (addr : Nat) : Nat := addr / 4096

/-- Whether an address or face lies in a south pit, given its pit. -/
def southPit (pit : Nat) : Bool := decide (2 ≤ pit)

/-- The half of a face's pit (R174). -/
def faceHalf (g : Nat) : Half := if southPit (g / 64) then .south else .north

/-- The outermost lode with DUPLEX at or above a node (R194, R195). -/
def Design.duplexLode (D : Design) : Nat → Nat → Option Nat
  | 0, _ => none
  | fuel + 1, i =>
    match D.node i with
    | none => none
    | some n =>
      match duplexLode D fuel n.parent with
      | some l => some l
      | none => if n.kind = 0 ∧ n.flags % 2 = 1 then some i else none

/-- Whether a cell lies inside a duplex lode. -/
def Design.isDuplex (D : Design) (i : Nat) : Bool := (D.duplexLode (D.nodes.length + 1) i).isSome

/-- The point a port of copy N is bound to. -/
def Design.bound (D : Design) (p : PortRec) : Option PointRec := if p.bind = noIx then none else D.points[p.bind]?

/-- The face on which copy N of a cell is placed: that of its first bound port, outputs first. -/
def Design.cellFace (D : Design) (i : Nat) : Option Nat :=
  match D.node i with
  | none => none
  | some n =>
    let ps := D.portsOf n
    let ordered := ps.filter (fun p => p.dir == 1) ++ ps.filter (fun p => p.dir != 1)
    (ordered.filterMap D.bound).head?.map fun p => faceOf p.addr

/-- The face on which copy S of a duplex cell is placed: where the output records lie that copy N does not write (R203). -/
def Design.cellFaceS (D : Design) (i : Nat) : Option Nat :=
  (D.points.find? fun p => p.origin == 0 && p.writer == i && D.cellFace i != some (faceOf p.addr)).map fun p => faceOf p.addr

/-- The index of a point's record. -/
def Design.indexOf (D : Design) (p : PointRec) : Nat := D.points.findIdx fun q => q == p

/-- The twin of a route's source point: the same point in the south pits (R528). -/
def Design.sourceTwin (D : Design) (ix : Nat) : Option PointRec :=
  match D.points[ix]? with
  | none => none
  | some p => D.points.find? fun q =>
      southPit (q.addr / 2 ^ 18) && q.typ == p.typ && q.origin == p.origin && q.ix == p.ix && q.writer == p.writer

/-- The twin, on a face, of a point of copy N (R528). -/
def Design.twin (D : Design) (faceS : Nat) (p : PointRec) : Option PointRec :=
  let writer := if p.origin = 7 then ((D.sourceTwin p.writer).map D.indexOf).getD noIx else p.writer
  D.points.find? fun q => faceOf q.addr == faceS && q.typ == p.typ && q.origin == p.origin && q.ix == p.ix && q.writer == writer

/-- The point of a port of a copy. -/
def Design.portPoint (D : Design) (i copy : Nat) (p : PortRec) : Option PointRec :=
  match D.bound p with
  | none => none
  | some q => if copy = 0 then some q else (D.cellFaceS i).bind fun f => D.twin f q

/-- Inserts a cell by its place in the compiler's schedule. -/
def scheduleInsert (x : Nat × Nat) : List (Nat × Nat) → List (Nat × Nat)
  | [] => [x]
  | y :: ys => if Config.schedule x.1 ≤ Config.schedule y.1 then x :: y :: ys else y :: scheduleInsert x ys

/-- The cells of a face as (node, copy), in schedule order (R181 phase 4, log entry 13). -/
def Design.cellsOn (D : Design) (g : Nat) : List (Nat × Nat) :=
  let all := (List.range D.nodes.length).flatMap fun i =>
    match D.node i with
    | some n =>
      if n.kind = 1 then
        (if D.cellFace i = some g then [(i, 0)] else []) ++ (if D.isDuplex i ∧ D.cellFaceS i = some g then [(i, 1)] else [])
      else []
    | none => []
  match all with
  | [x] => [x]
  | xs => xs.foldr scheduleInsert []

/-- The record of the point at an address. -/
def Design.pointOf (D : Design) (addr : Nat) : Option PointRec := D.points.find? fun p => p.addr == addr

/-- The face program record of a face. -/
def Design.faceRec (D : Design) (g : Nat) : Option FaceRec := D.faces.find? fun f => f.face == g

/-- The timing domain of a face; 15 for one without cells (R180). -/
def Design.domainOf (D : Design) (g : Nat) : Nat := ((D.faceRec g).map fun f => f.domain).getD 15

/-- The domains that carry faces. -/
def Design.domains (D : Design) : List Nat := (List.range 13).filter fun x => D.faces.any fun f => f.domain == x

/-- The points of a face. -/
def Design.facePoints (D : Design) (g : Nat) : List PointRec := D.points.filter fun p => faceOf p.addr == g

/-! ### State -/

/-- Replaces the Seam. -/
def Dev.setSeam (d : Dev) (x : Seam) : Dev := { d with seam := x }
/-- A face. -/
def Dev.face (d : Dev) (g : Nat) : Face := SMap.getD d.seam.faces g {}
/-- Replaces a face. -/
def Dev.setFace (d : Dev) (g : Nat) (f : Face) : Dev := d.setSeam { d.seam with faces := SMap.set d.seam.faces g f }
/-- A copy of a cell. -/
def Dev.cell (d : Dev) (i copy : Nat) : CellSt := SMap.getD d.seam.cells (2 * i + copy) {}
/-- Replaces a copy of a cell. -/
def Dev.setCell (d : Dev) (i copy : Nat) (c : CellSt) : Dev := d.setSeam { d.seam with cells := SMap.set d.seam.cells (2 * i + copy) c }

/-- A point nothing has written reads 0, SETTLING where its type carries quality (R181). -/
def pointDefault (typ : Nat) : PtV := { val := 0, qual := if typ = 1 ∨ typ = 2 ∨ typ = 3 then 2 else 0 }

/-- A point's slot. -/
def Dev.point (d : Dev) (p : PointRec) : PtV := SMap.getD d.seam.points p.addr (pointDefault p.typ)

/-- Writes a point in a step; counter and time points have QUAL 0 (R176). -/
def Dev.writePoint (d : Dev) (p : PointRec) (val qual k : Nat) : Dev :=
  let v : PtV := ⟨val % 2 ^ 64, if 4 ≤ p.typ then 0 else qual % 256, k % 2 ^ 32⟩
  d.setSeam { d.seam with points := SMap.set d.seam.points p.addr v }

/-- Previous value with SUBST and SETTLING (R21, R181). -/
def PtV.stale (p : PtV) : PtV := { p with qual := (p.qual ||| 0x23) - 1 }

/-! ### Domains (R180, R183) -/

/-- The first step of a domain whose instant lies after now (R183). -/
def Dev.domNext (d : Dev) (dom : Nat) : Nat :=
  if dom < 12 then sampleIndex (d.angle (dom / 3)).acc (domainN dom) + 1 else d.fr.count

/-- The instant of a step, in 1/16 ns, once it has passed. -/
def Dev.stepInstant (d : Dev) (dom k : Nat) : Option Nat :=
  ((d.instsOf dom).find? fun p => p.k == k).map fun p => p.t16

/-- k_c of a commit now in every domain that carries faces (R183). -/
def Dev.commitSteps (d : Dev) : List (Nat × Nat) := d.seam.design.domains.map fun x => (x, d.domNext x)

/-- k_c of a domain. -/
def kcOf (kc : List (Nat × Nat)) (dom : Nat) : Nat := ((kc.find? fun p => p.1 == dom).map fun p => p.2).getD 0

/-- The setting group of a step (R197, R199). -/
def groupAt (dom k : Nat) : List GrpSwitch → Nat → Nat
  | [], base => base
  | s :: ss, _ => if kcOf s.kc dom ≤ k then s.new else groupAt dom k ss s.old

/-- The group of a step of a domain. -/
def Dev.groupOf (d : Dev) (dom k : Nat) : Nat := groupAt dom k d.seam.groups d.seam.group0

/-- A setting's word as a number: binary32 for KIND 1, otherwise s32 (R206). -/
def settingNum (kind w : Nat) : Rat := if kind = 1 then f32 w else (sgn 32 w : Rat)

/-- The word a setting record has for a step: the present one, or the one before a change whose k_c lies above (R183). -/
def Dev.settingWord (d : Dev) (ix : Nat) (r : SetRec) (group dom k : Nat) : Nat :=
  d.seam.changes.foldl (fun v c => if c.ix = ix ∧ c.group = group ∧ k < kcOf c.kc dom then c.old else v) (r.values.getD group 0)

/-- A setting of a cell at a step. -/
def Dev.cellSetting (d : Dev) (node dom k setno : Nat) : Rat :=
  let rs := d.seam.design.settings
  let ix := rs.findIdx fun r => r.node == node && r.setno == setno
  match rs[ix]? with
  | some r => settingNum r.kind (d.settingWord ix r (d.groupOf dom k) dom k)
  | none => 0

/-! ### Inputs of a step (R177, R180, R181, R184, R185, R523) -/

/-- How an input stands for a step: there, there as a lost instant, missing, not waited for. -/
inductive InSt where
  | words (w : List Word)
  | lost
  | value (v : PtV)
  | held (v : PtV)
  | missing
  | away
  deriving DecidableEq, Repr

/-- The source of the lumps that a point takes, for a face of a domain. -/
def lumpSource (dom : Nat) (p : PointRec) : Option Nat :=
  if p.origin = 1 then some (0x060 + 4 * (p.ix / 8) + dom / 3)
  else if p.origin = 4 then some (0x068 + p.ix / 8)
  else if p.origin = 2 then some (0x080 + p.ix / 8)
  else none

/-- The sources of lumps a face waits for, each once. -/
def Design.lumpSources (D : Design) (g : Nat) : List Nat := ((D.facePoints g).filterMap (lumpSource (D.domainOf g))).eraseDups

/-- The deadline of a step, in 1/16 ns (R181). -/
def Dev.deadline (d : Dev) (g k : Nat) : Nat :=
  (d.stepInstant (d.seam.design.domainOf g) k).getD 0 + 16000 * ((d.seam.design.faceRec g).map fun f => f.wait).getD 0

/-- The index at which a lump shows a step of a domain: that of the step, at 256 per cycle for an angle clock. -/
def lumpIndex (dom k : Nat) : Nat := if dom < 12 then at256 dom k else k

/-- The words of a source that wait in a pit's skip, of the lump with an index that entered it by an instant (1/16 ns). -/
def Dev.queuedWords (d : Dev) (pit src ix by16 : Nat) : Option (List Word) :=
  ((d.skip (6 + pit)).queue ++ (d.skip (10 + pit)).queue).findSome? fun l =>
    match l.body with
    | .sampleWords k w => if l.tag.src = src ∧ k = ix ∧ 16 * l.at_ ≤ by16 ∧ (0x080 ≤ src → l.tag.pclass) then some w else none
    | _ => none

/-- How the lumps of a source stand for a step of a face: an input is there once its lump has entered the pit's skip (R181). -/
def Dev.lumpIn (d : Dev) (g k src : Nat) : InSt :=
  let key := 4096 * (g / 64) + src
  let ix := lumpIndex (d.seam.design.domainOf g) k
  let gone := match SMap.get? d.seam.away key with
    | some none => true
    | some (some k0) => decide (ix < k0)
    | none => false
  if gone then .away
  else
    match (SMap.getD d.seam.ins key []).find? fun e => e.k == ix && decide (16 * e.arr ≤ d.deadline g k) with
    | some e => match e.words with
      | some w => .words w
      | none => .lost
    | none => match d.queuedWords (g / 64) src ix (d.deadline g k) with
      | some w => .words w
      | none => .missing

/-- A point as a face's completed step left it. -/
def Face.pointAt (f : Face) (k addr typ : Nat) : PtV :=
  match f.hist.find? fun h => h.k == k with
  | some h => SMap.getD h.pts addr (pointDefault typ)
  | none => pointDefault typ

/-- The value that the last step a face completed at or before an index left. -/
def Face.lastPoint (f : Face) (k addr typ : Nat) : Option PtV :=
  (f.hist.find? fun h => decide (h.k ≤ k)).map fun h => SMap.getD h.pts addr (pointDefault typ)

/-- How a route stands for a step: the source step is k, k − 1 with DELAY1, or the latest at or before t − XDL of the source's
domain (R184, R185).  Before the source's first step the point reads as one that nothing has written (R181); a step that the source left out,
its half having been offline, is not waited for (R523). -/
def Dev.routeIn (d : Dev) (g k : Nat) (r : RouteRec) : InSt :=
  let D := d.seam.design
  match D.pointOf r.src with
  | none => .missing
  | some p =>
    let sg := faceOf p.addr
    let f := d.face sg
    let dom := D.domainOf g
    let sdom := D.domainOf sg
    if f.st = .halted ∨ f.st = .offline then .held ((f.lastPoint f.next p.addr p.typ).getD (pointDefault p.typ))
    else
      let j : Option Nat := if dom = sdom then (if r.flags % 2 = 1 then (if k = 0 then none else some (k - 1)) else some k)
        else
          let t := (d.stepInstant dom k).getD 0 - 16000 * r.xdl
          ((d.instsOf sdom).find? fun e => decide (e.t16 ≤ t)).map fun e => e.k
      match j with
      | none => .value (pointDefault p.typ)
      | some j =>
        match f.hist.find? fun h => h.k == j with
        | some h => if 16 * h.done ≤ d.deadline g k then .value (SMap.getD h.pts p.addr (pointDefault p.typ)) else .missing
        | none =>
          if f.next ≤ j then .missing
          else match f.lastPoint j p.addr p.typ with
            | some v => .held v
            | none => .value (pointDefault p.typ)

/-- The route that writes a point. -/
def Design.routeTo (D : Design) (p : PointRec) : Option RouteRec := D.routes.find? fun r => r.dst == p.addr

/-- Every synchronous input of a step of a face. -/
def Dev.inputs (d : Dev) (g k : Nat) : List InSt :=
  let D := d.seam.design
  (D.lumpSources g).map (d.lumpIn g k) ++
    ((D.facePoints g).filter fun p => p.origin == 7).map fun p =>
      match D.routeTo p with
      | some r => d.routeIn g k r
      | none => .value (d.point p)

/-- Whether every synchronous input of a step has arrived or is not waited for. -/
def Dev.arrived (d : Dev) (g k : Nat) : Bool := (d.inputs g k).all fun i => i != .missing

/-- Inputs counted in MISS: those still missing. -/
def Dev.missCount (d : Dev) (g k : Nat) : Nat := (d.inputs g k).countP fun i => i == .missing

/-- A sample word at a point: its value times SCALE as a binary32, and its quality (R177). -/
def scaled (p : PointRec) (w : Word) : Nat × Nat := (f32Of ((wordVal w : Rat) * f32 p.scale), wordQual w)

/-- A host-input word as a step of a domain sees it: as it stands, or as it stood before a write whose k_c lies above (R183). -/
def Dev.hinWord (d : Dev) (ix dom k : Nat) : Nat :=
  d.seam.hin.foldl (fun v c => if c.ix = ix ∧ k < kcOf c.kc dom then c.old else v) (d.getF F.SEAM_HIN_HIN ix)

/-- A write of a host-input word that held `old`; writes that every face has passed are forgotten. -/
def Dev.hinWritten (d : Dev) (ix old : Nat) : Dev :=
  let needed (c : HinChange) : Bool := d.seam.design.faces.any fun f =>
    (d.face f.face).st == .run && decide ((d.face f.face).next < kcOf c.kc f.domain)
  if d.getF F.SEAM_HIN_HIN ix = old then d
  else d.setSeam { d.seam with hin := ⟨ix, old, d.commitSteps⟩ :: d.seam.hin.filter needed }

/-- The asynchronous value of a point (R180, R181): native samples, TWU results, host bits, field inputs. -/
def Dev.asyncIn (d : Dev) (g k t16 : Nat) (p : PointRec) : Option (Nat × Nat) :=
  let pit := g / 64
  if p.origin = 3 then
    match SMap.getD d.seam.ins (65536 + 4096 * pit + 0x080 + p.ix / 8) [] with
    | e :: _ => match e.words with
      | some w => some (scaled p ((w[p.ix % 8]?).getD 0))
      | none => let v := (d.point p).stale; some (v.val, v.qual)
    | [] => none
  else if p.origin = 5 then
    if p.ix % 16 = 0 then
      some (((SMap.getD d.seam.twuUntil (4 * pit + p.ix / 16) []).any fun e => decide (e.1 ≤ t16 ∧ t16 ≤ e.2)).toNat, 1)
    else (SMap.get? d.seam.twuRes (64 * pit + p.ix)).map fun v => (v.val, v.qual)
  else if p.origin = 6 then some (((d.hinWord (p.ix / 32) (d.seam.design.domainOf g) k).testBit (p.ix % 32)).toNat, 1)
  else if p.origin = 8 then (SMap.get? d.seam.fieldIn p.ix).map fun v => (v.val, v.qual)
  else none

/-- Unpacks one input point for a step (R181 phase 3). -/
def Dev.unpackPoint (d : Dev) (g k t16 : Nat) (p : PointRec) : Dev :=
  let D := d.seam.design
  let put (i : InSt) : Dev :=
    let old := (d.point p).stale
    match i with
    | .words w => let v := scaled p ((w[p.ix % 8]?).getD 0); d.writePoint p v.1 v.2 k
    | .value v => d.writePoint p v.val v.qual k
    | .held v => d.writePoint p v.stale.val v.stale.qual k
    | _ => d.writePoint p old.val old.qual k
  match lumpSource (D.domainOf g) p with
  | some src => put (d.lumpIn g k src)
  | none =>
    if p.origin = 7 then
      match D.routeTo p with
      | some r => put (d.routeIn g k r)
      | none => d
    else
      match d.asyncIn g k t16 p with
      | some v => d.writePoint p v.1 v.2 k
      | none => d

/-! ### The cells of a step -/

/-- What a cell sees of a step. -/
def Dev.cellCtx (d : Dev) (i copy dom k t16 dt : Nat) (n : NodeRec) : CellCtx :=
  let D := d.seam.design
  let ins := ((D.portsOf n).filter fun p => p.dir == 0).map fun p => (D.portPoint i copy p).map d.point
  { k := k, t := t16, dt := dt, n := if dom < 12 then domainN dom else 0, rate := frRate (d.getF F.FLT_CTL_FR_RATE)
    cal := d.calAt (t16 / 16), calOk := let s := (calSegAt d.clk.cal (t16 / 16)).state; s == 2 || s == 3
    set := d.cellSetting i dom k, ins := ins
    health := (List.range 16).map fun c => !(d.getB F.AFE_CHSTAT_CAL_FB c) && !(d.getB F.AFE_CHSTAT_DARK c)
    fallbacks := d.afe.fallbacks, free := d.peekFree, node := i }

/-- Writes a cell's outputs to its output points. -/
def Dev.writeOuts (d : Dev) (i copy k : Nat) (n : NodeRec) (outs : Outs) : Dev :=
  let D := d.seam.design
  let ports := (D.portsOf n).filter fun p => p.dir == 1
  (ports.zip outs).foldl (fun d x =>
    match D.portPoint i copy x.1 with
    | some p => d.writePoint p x.2.1.code x.2.2 k
    | none => d) d

/-- Executes one cell in a step (R181 phase 4). -/
def Dev.runCell (d : Dev) (dom k t16 dt : Nat) (x : Nat × Nat) : Dev :=
  match d.seam.design.node x.1 with
  | none => d
  | some n =>
    let c := d.cellCtx x.1 x.2 dom k t16 dt n
    let r := cellStep n.cellType c (d.cell x.1 x.2)
    ((d.draw.setCell x.1 x.2 r.1).writeOuts x.1 x.2 k n r.2)

/-! ### Budgets (R187) -/

/-- Program cycles a step may take: ⌊600,000,000 / f_max⌋ − 1024. -/
def budget (dom frRateCode : Nat) : Nat :=
  if dom < 12 then 600000000000 / (70389 * domainN dom) - 1024
  else 600000000 * 10000 / (frRate frRateCode * 10005) - 1024

/-- The budget of a face. -/
def Dev.faceBudget (d : Dev) (g : Nat) : Nat := budget (d.seam.design.domainOf g) (d.getF F.FLT_CTL_FR_RATE)

/-- Sets bit `face` of a pit's pair of registers. -/
def Dev.faceBit (d : Dev) (lo hi : Fld) (g : Nat) : Dev :=
  if g % 64 < 32 then d.setBit lo (g / 64) (g % 32) else d.setBit hi (g / 64) (g % 32)

/-- The actions of R189 on an overrun. -/
def Dev.overrun (d : Dev) (g k cycles : Nat) (halted : Bool) : Dev :=
  let d := (d.faceBit F.SEAM_OVR_OVR_LO F.SEAM_OVRH_OVR_HI g).setF F.SEAM_FSTAT_OVR g 1
  let d := (d.flag F.SEAM_STAT_OVR 0 0 19).trouble F.TRB_STICKY1_SEAM_OVERRUN
  let d := d.record 0x0030 (0x100 + g) [(4, k % 2 ^ 32), (4, cycles % 2 ^ 32), (1, halted.toNat)]
  (d.setB F.SYS_DEGR_OVERRUN 0 true).degradedCause 0x0021

/-! ### Output lumps (R191 to R193) -/

/-- The driving point of an output channel for a pit. -/
def drivingPoint (r : IoRec) (pit : Nat) : Option Nat :=
  let a := r.pnt.getD pit noIx
  if r.dir = 1 ∧ a ≠ noIx then some a else none

/-- Whether a face drives a field output. -/
def Design.drives (D : Design) (g : Nat) : Bool :=
  D.io.any fun r => match drivingPoint r (g / 64) with
    | some a => faceOf a == g
    | none => false

/-- ON and DRIVEN of a pit: each driven channel's point as `on` gives it, the safe state where its face is HALTED (R191, R192). -/
def Dev.imageOf (d : Dev) (pit : Nat) (on : IoRec → Nat → Nat) : Nat × Nat :=
  d.seam.design.io.foldl (fun acc r =>
    match drivingPoint r pit with
    | none => acc
    | some a =>
      let b := if (d.face (faceOf a)).st = .halted then r.flags % 2 else on r a % 2
      (acc.1 ||| b * 2 ^ r.ch, acc.2 ||| 2 ^ r.ch)) (0, 0)

/-- The image of a pit from its points. -/
def Dev.pitImage (d : Dev) (pit : Nat) : Nat × Nat := d.imageOf pit fun _ a => (SMap.getD d.seam.points a {}).val

/-- Whether a clock has passed an angle time (R192). -/
def Dev.passed (d : Dev) (clk at_ : Nat) : Bool := decide (0 ≤ sgn 48 ((d.angle clk).time + 2 ^ 48 - at_ % 2 ^ 48))

/-- The transitions a pit still keeps. -/
def Dev.pitSched (d : Dev) (pit : Nat) : List Sched := (SMap.getD d.seam.sched pit []).filter fun s => !(d.passed s.clk s.at_)

/-- Replaces a pit's transitions. -/
def Dev.setSched (d : Dev) (pit : Nat) (l : List Sched) : Dev := d.setSeam { d.seam with sched := SMap.set d.seam.sched pit l }

/-- The lump with which a pit's SEAM→FIO skip ends, where it has entered in this very cycle for the end of a step (R191). -/
def Dev.sameCycle (d : Dev) (pit : Nat) : Option Lump :=
  match (d.skip (18 + pit)).queue.getLast? with
  | some l => if l.at_ = d.tsc ∧ (d.face (l.tag.src % 256)).st ≠ .halted then some l else none
  | none => none

/-- A pit's SEAM→FIO lump for a face, with its transitions still to come.  A step that completes in the cycle of another one, by
their TSC, joins its lump, which then carries the lower source number (R191, log entry 76). -/
def Dev.sendOn (d : Dev) (g on driven : Nat) (merge : Bool) : Dev :=
  let pit := g / 64
  let n := 18 + pit
  let l := d.pitSched pit
  let d := d.setSched pit l
  let d := d.setSeam { d.seam with imgOn := SMap.set d.seam.imgOn pit on }
  let body := LumpBody.image (BitVec.ofNat 64 on) (BitVec.ofNat 64 driven) (l.map fun s => (s.ch, s.state, s.clk, s.at_))
  match if merge then d.sameCycle pit else none with
  | some x =>
    let s := d.skip n
    d.setSkip n { s with queue := s.queue.dropLast ++ [{ x with tag := { x.tag with src := min x.tag.src (0x100 + g) }, body := body }] }
  | none => d.sendLump n (4096 * (2 + pit) + 0x100 + g) true none 8 body

/-- The lump after a step (R191), with channels that a full list has applied at once (R192). -/
def Dev.sendImage (d : Dev) (g : Nat) (atOnce : List (Nat × Bool)) : Dev :=
  let img := d.pitImage (g / 64)
  d.sendOn g (atOnce.foldl (fun o p => if p.2 then o ||| 2 ^ p.1 else o - (o &&& 2 ^ p.1)) img.1) img.2 true

/-- The lump at a halt: the safe states of the face's channels, the latest ON of every other one (R192). -/
def Dev.sendHalted (d : Dev) (g : Nat) : Dev :=
  let last := SMap.getD d.seam.imgOn (g / 64) 0
  let img := d.imageOf (g / 64) fun r _ => last / 2 ^ r.ch
  d.sendOn g img.1 img.2 false

/-- Schedules the transitions that a step's cells ask for; one that finds six in use is applied at once and recorded (R192). -/
def Dev.schedule (d : Dev) (g : Nat) (req : List Sched) : Dev × List (Nat × Bool) :=
  let pit := g / 64
  req.foldl (fun (acc : Dev × List (Nat × Bool)) r =>
    let d := acc.1
    let l := d.pitSched pit
    if l.length < 6 then (d.setSched pit (l ++ [r]), acc.2)
    else
      let d := (d.flag F.SEAM_STAT_SCHED_FULL 0 0 19).record 0x0032 (0x100 + g) [(1, r.ch), (1, r.state.toNat), (1, r.clk), (6, r.at_)]
      (d, acc.2 ++ [(r.ch, r.state)])) (d, [])

/-- The entries of a step on the Assay list; a phasor takes two (R193). -/
def Dev.assayEntries (d : Dev) (g : Nat) : List (Nat × Nat × Nat) :=
  (d.seam.design.assay.filter fun a => faceOf a == g).flatMap fun a =>
    let typ := ((d.seam.design.points.find? fun p => p.addr == a).map fun p => p.typ).getD 0
    let v := SMap.getD d.seam.points a (pointDefault typ)
    (a % 2 ^ 18, v.qual, v.val % 2 ^ 32) :: (if typ = 3 then [(a % 2 ^ 18, v.qual, v.val / 2 ^ 32 % 2 ^ 32)] else [])

/-- Splits entries into lumps of up to seven. -/
def sevens : Nat → List (Nat × Nat × Nat) → List (List (Nat × Nat × Nat))
  | 0, _ => []
  | n + 1, l => if l = [] then [] else l.take 7 :: sevens n (l.drop 7)

/-- Sends a step's SEAM→ASY lumps (R193). -/
def Dev.sendPoints (d : Dev) (g dom k : Nat) : Dev :=
  let es := d.assayEntries g
  (sevens es.length es).foldl (fun d e =>
    d.sendLump (22 + g / 64) (0x100 + g) false none (min 8 (e.length + 1)) (.points (k % 2 ^ 24) dom e)) d

/-- SEAM_HOUT as it stands (log entry 13). -/
def Dev.hostOut (d : Dev) (m : Nat) : Nat :=
  (List.range 32).foldl (fun v i => v + ((SMap.getD d.seam.points (Config.published (32 * m + i)) {}).val % 2) * 2 ^ i) 0

/-! ### Duplex lodes (R195, R196) -/

/-- The cell port that a port maps to, with its node. -/
def Design.resolvePort (D : Design) : Nat → Nat → Option (Nat × PortRec)
  | 0, _ => none
  | fuel + 1, ix =>
    let i := D.nodes.findIdx fun n => decide (n.portBase ≤ ix ∧ ix < n.portBase + n.ports)
    match D.node i, D.ports[ix]? with
    | some n, some p => if n.kind = 1 then some (i, p) else resolvePort D fuel p.bind
    | _, _ => none

/-- The outermost duplex lodes. -/
def Design.duplexLodes (D : Design) : List Nat :=
  (List.range D.nodes.length).filter fun i => D.duplexLode (D.nodes.length + 1) i == some i

/-- The output ports of a duplex lode as pairs of points: copy N's and copy S's. -/
def Design.duplexPorts (D : Design) (i : Nat) : List (PointRec × PointRec) :=
  match D.node i with
  | none => []
  | some n =>
    ((List.range n.ports).filterMap fun j =>
      match D.ports[n.portBase + j]? with
      | some p =>
        if p.dir = 1 then
          (D.resolvePort (D.nodes.length + 1) p.bind).bind fun c =>
            match D.portPoint c.1 0 c.2, D.portPoint c.1 1 c.2 with
            | some a, some b => some (a, b)
            | _, _ => none
        else none
      | none => none)

/-- Compares a lode's copies at a step of face `g` that both have completed: the ports whose copies lie in the timing domain of that face (R195). -/
def Dev.duplexStep (d : Dev) (g k i : Nat) : Dev :=
  let D := d.seam.design
  let dom := D.domainOf g
  let ps := (D.duplexPorts i).zipIdx.filter fun p => D.domainOf (faceOf p.1.1.addr) == dom
  let faces := ps.flatMap fun p => [faceOf p.1.1.addr, faceOf p.1.2.addr]
  let ready := faces.all fun f => (d.face f).st == .run && (d.face f).hist.any fun h => h.k == k
  let x := SMap.getD d.seam.dups i {}
  if !(faces.contains g && ready) ∨ k < SMap.getD x.resume dom 0 then d
  else
    let differs (p : PointRec × PointRec) : Bool :=
      let a := (d.face (faceOf p.1.addr)).pointAt k p.1.addr p.1.typ
      let b := (d.face (faceOf p.2.addr)).pointAt k p.2.addr p.2.typ
      a.val != b.val || a.qual != b.qual
    let count (m : SMap Nat) (b : Bool) : SMap Nat :=
      ps.foldl (fun m p => SMap.set m p.2 (if differs p.1 == b then SMap.getD m p.2 0 + 1 else 0)) m
    let bad := count x.bad true
    let good := count x.good false
    let begins := !x.episode && bad.any fun n => decide (4 ≤ n.2)
    let agreed := (List.range (D.duplexPorts i).length).all fun n => decide (4 ≤ SMap.getD good n 0)
    let episode := (x.episode || begins) && !agreed
    let d := d.setSeam { d.seam with dups := SMap.set d.seam.dups i { x with episode := episode, bad := bad, good := good } }
    if begins then
      let fn := ((D.duplexPorts i).map fun p => faceOf p.1.addr).foldl min 255
      let fs := ((D.duplexPorts i).map fun p => faceOf p.2.addr).foldl min 255
      let d := (d.incF F.SEAM_DUP_MIS).setF F.SEAM_DUPLAST_NODE 0 i
      let d := (d.flag F.SEAM_STAT_DUP_MIS 0 0 19).trouble F.TRB_STICKY1_SEAM_DUPLEX
      let d := d.record 0x0031 (0x100 + fn) [(4, i), (1, fs), (4, k % 2 ^ 32)]
      (d.setB F.SYS_DEGR_DUPLEX 0 true).degradedCause 0x0022
    else d

/-- The face that carries the other copy of a cell. -/
def Design.survivor (D : Design) (x : Nat × Nat) : Option Nat :=
  if x.2 = 0 then D.cellFaceS x.1 else D.cellFace x.1

/-- A copy of a cell takes the state and points of the other one (R196). -/
def Dev.takeCopy (d : Dev) (x : Nat × Nat) : Dev :=
  let D := d.seam.design
  match D.node x.1 with
  | none => d
  | some n =>
    (D.portsOf n).foldl (fun d p =>
      match D.portPoint x.1 x.2 p, D.portPoint x.1 (1 - x.2) p with
      | some mine, some other => d.setSeam { d.seam with points := SMap.set d.seam.points mine.addr (d.point other) }
      | _, _ => d) (d.setCell x.1 x.2 (d.cell x.1 (1 - x.2)))

/-- A restarting face takes the copies whose other one, on face `h`, runs and has just completed the step before the face's next one. -/
def Dev.takeFrom (d : Dev) (g h : Nat) : Dev :=
  if (d.face h).st = .run ∧ ¬(d.face h).restart ∧ (d.face h).next = (d.face g).next then
    ((d.seam.design.cellsOn g).filter fun x => d.seam.design.isDuplex x.1 && d.seam.design.survivor x == some h).foldl Dev.takeCopy d
  else d

/-- A face that completes a step hands its copies over to the restarting faces that begin with the next one (R196). -/
def Dev.handOver (d : Dev) (h : Nat) : Dev :=
  d.seam.design.faces.foldl (fun d f => if (d.face f.face).restart then d.takeFrom f.face h else d) d

/-! ### Setting groups (R197 to R199) -/

/-- Whether the oldest of four kept switches is still needed (R199). -/
def Dev.oldestNeeded (d : Dev) : Bool :=
  match d.seam.groups.reverse with
  | _ :: second :: _ =>
    decide (4 ≤ d.seam.groups.length) && d.seam.design.faces.any fun f =>
      (d.face f.face).st == .run && decide ((d.face f.face).next < kcOf second.kc f.domain)
  | _ => false

/-- A group request is refused, held pending or started (R197 to R199). -/
def Dev.groupRequest (d : Dev) (g cause : Nat) : Dev :=
  if ¬d.bitF F.SEAM_GRP_STAT_DEFINED 0 g then d.flag F.SEAM_STAT_GRP_REFUSED 0 0 19
  else if d.seam.switching ∨ d.oldestNeeded then
    let d := if d.seam.grpPend.isSome then d.flag F.SEAM_STAT_GRP_OVERRUN 0 0 19 else d
    (d.setSeam { d.seam with grpPend := some (g, cause) }).setF F.SEAM_GRP_STAT_PENDING 0 1 |>.setF F.SEAM_GRP_STAT_PEND_GRP 0 g
  else
    let kept := if 4 ≤ d.seam.groups.length then d.seam.groups.take 3 else d.seam.groups
    let old := match d.seam.groups with
      | s :: _ => s.new
      | [] => d.seam.group0
    let sw : GrpSwitch := ⟨old, g, cause, d.tsc, d.commitSteps⟩
    (d.setSeam { d.seam with groups := sw :: kept, switching := true }).setF F.SEAM_GRP_STAT_SWITCHING 0 1

/-- Handles the pending request as one that arrives now. -/
def Dev.groupPending (d : Dev) : Dev :=
  match d.seam.grpPend with
  | none => d
  | some (g, cause) =>
    if d.seam.switching ∨ d.oldestNeeded then d
    else
      let d := (d.setSeam { d.seam with grpPend := none }).setF F.SEAM_GRP_STAT_PENDING 0 0
      d.groupRequest g cause

/-- Whether the latest switch has passed its k_c in every domain. -/
def Dev.groupPassed (d : Dev) : Bool :=
  match d.seam.groups with
  | s :: _ => s.kc.all fun p => decide (p.2 < d.domNext p.1)
  | [] => false

/-- GROUP_SWITCH_REQUEST: from a staged setting or the selector point (R197, R198). -/
def execGroupSwitchRequest (g : Fin 8) (selector : Bool) (s : State) : Out := s.up fun d => d.groupRequest g selector.toNat

/-- GROUP_SWITCH_COMPLETE: the instant of k_c has passed in the last domain (R197, R198). -/
def execGroupSwitchComplete (s : State) : Out := s.up fun d =>
  match d.seam.groups with
  | [] => d
  | sw :: _ =>
    if d.seam.switching ∧ d.groupPassed then
      let d := (d.setSeam { d.seam with switching := false }).setF F.SEAM_GRP_STAT_SWITCHING 0 0
      let d := (d.setF F.SEAM_GRP_STAT_ACT 0 sw.new).incWrap F.SEAM_GRP_CNT_CNT
      let d := (d.fire 19).record 0x0013 0x000 [(1, sw.old), (1, sw.new), (1, sw.cause), (8, sw.tsc)]
      d.groupPending
    else d

/-! ### Steps of faces (R181, R189, R190, R210) -/

/-- Whether faces evaluate steps in a mode (R210). -/
def seamRuns (m : Mode) : Bool :=
  match m with
  | .commission => true
  | .protect => true
  | .degraded => true
  | .hold => true
  | _ => false

/-- Whether faces evaluate steps now: in those modes, but not in the HOLD that follows a SAFE, with which every face stopped. -/
def Dev.seamOn (d : Dev) : Bool := seamRuns d.mode && !d.seam.stopped

/-- The program cycles of a step are measured, the highest kept (R188). -/
def Dev.stepCycles (d : Dev) (g cycles : Nat) : Dev :=
  d.setF F.SEAM_FMAX_MAXCYC g (min (2 ^ 20 - 1) (max (d.getF F.SEAM_FMAX_MAXCYC g) cycles))

/-- Whether a face can evaluate its next step: its instant has passed. -/
def Dev.stepDue (d : Dev) (g : Nat) : Bool :=
  let f := d.face g
  d.seamOn && f.st == .run && !f.restart && (d.stepInstant (d.seam.design.domainOf g) f.next).isSome

/-- Evaluates a face's next step (R181 phases 3 to 5), with what it sends and compares after it. -/
def Dev.faceStep (d : Dev) (g cycles : Nat) (req : List Sched) : Dev :=
  let D := d.seam.design
  let f := d.face g
  let k := f.next
  let dom := D.domainOf g
  let t16 := (d.stepInstant dom k).getD 0
  let dt := match f.lastT with
    | some t => t16 - t
    | none => 0
  let hout := (List.range 8).map d.hostOut
  let d := (D.facePoints g).foldl (fun d p => d.unpackPoint g k t16 p) d
  let d := (D.cellsOn g).foldl (fun d x => d.runCell dom k t16 dt x) d
  let left := (D.facePoints g).map fun p => (p.addr, d.point p)
  let left := left.foldl (fun m p => SMap.set m p.1 p.2) []
  let d := d.setFace g { f with next := k + 1, lastT := some t16, hist := (⟨k, d.tsc, left⟩ :: f.hist).take 2048 }
  let d := d.setF F.SEAM_FSTEP_STEP g k
  let d := d.stepCycles g cycles
  let d := if d.faceBudget g < cycles then d.overrun g k cycles false else d
  let r := d.schedule g req
  let d := if D.drives g ∨ req ≠ [] then r.1.sendImage g r.2 else r.1
  let d := d.sendPoints g dom k
  let d := D.duplexLodes.foldl (fun d i => d.duplexStep g k i) (d.handOver g)
  let d := (hout.zipIdx).foldl (fun d p => if d.hostOut p.2 = p.1 then d else d.fire (24 + p.2)) d
  d.groupPending

/-- The transitions of a step's cells as its command gives them: channel, state, clock, AT. -/
def schedOf (g : Nat) (l : List (Fin 64 × Bool × Fin 4 × BitVec 48)) : List Sched :=
  l.map fun e => ⟨g, e.1.val, e.2.1, e.2.2.1.val, e.2.2.2.toNat⟩

/-! ### Restarting a copy (R196) -/

/-- Whether every surviving copy has completed the step before a face's next one. -/
def Dev.survivorsDone (d : Dev) (g : Nat) : Bool :=
  (d.seam.design.cellsOn g).all fun x =>
    !(d.seam.design.isDuplex x.1) || (match d.seam.design.survivor x with
      | some h => (d.face h).st != .run || (d.face h).restart || decide ((d.face g).next ≤ (d.face h).next)
      | none => true)

/-- DUPLEX_RESTART: a face of a readmitted half, which has been handed the cell state and points of its surviving copies as they stood once
each had completed the step before, runs again (R196). -/
def execDuplexRestart (g : Fin 256) (s : State) : Out := s.up fun d =>
  let D := d.seam.design
  let f := d.face g
  if f.restart ∧ f.st = .run ∧ d.survivorsDone g then
    let left := (D.facePoints g).foldl (fun m p => SMap.set m p.addr (d.point p)) []
    let d := d.setFace g { f with restart := false, hist := (⟨f.next - 1, d.tsc, left⟩ :: f.hist).take 2048 }
    let lodes := ((D.cellsOn g).filterMap fun x => D.duplexLode (D.nodes.length + 1) x.1).eraseDups
    lodes.foldl (fun d i =>
      let x := SMap.getD d.seam.dups i {}
      d.setSeam { d.seam with dups := SMap.set d.seam.dups i { x with resume := SMap.set x.resume (D.domainOf g) (f.next + 4) } }) d
  else d

/-! ### Point reads -/

/-- Applying SEAM_PADDR latches the slot for a requester. -/
def Dev.pointLatch (d : Dev) (req : Requester) : Dev :=
  let a := d.getF F.SEAM_PADDR_ADDR req.slot
  let typ := ((d.seam.design.points.find? fun p => p.addr == a).map fun p => p.typ).getD 0
  let v := SMap.getD d.seam.points a (pointDefault typ)
  let st := (d.face (faceOf a)).st
  let d := (d.setF F.SEAM_PVAL_VALUE req.slot v.val).setF F.SEAM_PMETA_QUAL req.slot v.qual
  let d := (d.setF F.SEAM_PMETA_TYPE req.slot typ).setB F.SEAM_PMETA_HELD req.slot (st == .halted || st == .offline)
  d.setF F.SEAM_PSTEP_STEP req.slot v.step

/-! ### ENERGY and BALANCE (R254, R257 to R259) -/

/-- The copies of a cell node of a type, with their faces. -/
def Dev.copies (d : Dev) (node ct : Nat) : List (Nat × Nat) :=
  let D := d.seam.design
  match D.node node with
  | some n =>
    if n.kind = 1 ∧ n.cellType = ct then
      ((D.cellFace node).map fun g => (0, g)).toList ++ (if D.isDuplex node then ((D.cellFaceS node).map fun g => (1, g)).toList else [])
    else []
  | none => []

/-- The copies of a cell node of a type on faces that run: a HALTED or OFFLINE face, or one that waits for its surviving copy, evaluates
nothing (R11, R190, R196). -/
def Dev.liveCopies (d : Dev) (node ct : Nat) : List (Nat × Nat) :=
  (d.copies node ct).filter fun x => (d.face x.2).st == .run && !(d.face x.2).restart

/-- Writes a cell's outputs outside a step, with the STEP of its face's latest step. -/
def Dev.refreshOuts (d : Dev) (node copy g : Nat) (outs : Outs) : Dev :=
  match d.seam.design.node node with
  | some n => d.writeOuts node copy ((d.face g).next - 1) n outs
  | none => d

/-- ENERGY_BOOKING: a calendar second has ended, and the cell books its sums (R254). -/
def execEnergyBooking (node : BitVec 20) (s : State) : Out := s.up fun d =>
  if d.seamOn then
    (d.liveCopies node.toNat 0x0060).foldl (fun d x =>
      let c := d.cell node.toNat x.1
      if c.f 12 then
        let c := energyBook c
        (d.setCell node.toNat x.1 c).refreshOuts node.toNat x.1 x.2 (energyOuts c)
      else d) d
  else d

/-- A setting of a cell as its face's next step sees it. -/
def Dev.setNow (d : Dev) (node g setno : Nat) : Rat := d.cellSetting node (d.seam.design.domainOf g) (d.face g).next setno

/-- The latest boundary of TINT minutes at or before CAL, in seconds (R257). -/
def Dev.balanceBoundary (d : Dev) (tint : Nat) : Nat :=
  let sec := d.cal / 1000000000
  let p := max 1 (60 * tint)
  sec - ((sec : Int) - sgn 16 (d.getF F.CLK_UTC_UTC_OFS)).toNat % p

/-- BALANCE_INTERVAL_CLOSE: the calendar has reached an interval's end (R257). -/
def execBalanceIntervalClose (node : BitVec 20) (s : State) : Out := s.up fun d =>
  if d.seamOn then
    (d.liveCopies node.toNat 0x0061).foldl (fun d x =>
      let c := d.cell node.toNat x.1
      let b := d.balanceBoundary (d.setNow node.toNat x.2 0).num.toNat
      if c.c 0 < b then d.setCell node.toNat x.1 (balanceClose c b d.tsc false) else d) d
  else d

/-- BALANCE_REPORT_DELIVERY: the oldest report on its way reaches its cell, which accepts or rejects it, at the first step boundary of the
fixed domain after its batch (R258, R441). -/
def execBalanceReportDelivery (s : State) : Out := s.up fun d =>
  match d.seam.reports with
  | [] => d
  | r :: rs =>
    if d.seamOn ∧ r.step < d.domNext 12 then
      let d := d.setSeam { d.seam with reports := rs }
      (d.liveCopies r.node 0x0061).foldl (fun d x =>
        let c := balanceReport (d.cell r.node x.1) r.slot r.start r.status (d.setNow r.node x.2 1).num.toNat r.energy
        (d.setCell r.node x.1 c).refreshOuts r.node x.1 x.2 (balanceOuts c)) d
    else d

/-- BALANCE_JUDGE: all reports of the oldest closed interval are in, or TDL has passed since it closed (R259). -/
def execBalanceJudge (node : BitVec 20) (s : State) : Out := s.up fun d =>
  if d.seamOn then
    (d.liveCopies node.toNat 0x0061).foldl (fun d x =>
      let c := d.cell node.toNat x.1
      let set (i : Nat) : Rat := d.setNow node.toNat x.2 i
      match c.ints with
      | [] => d
      | i :: _ =>
        let nslot := (set 1).num.toNat
        if nslot ≤ i.reports.length ∨ i.closed + (set 4).num.toNat * 1000000000 ≤ d.tsc then
          let r := balanceJudge c i nslot (set 6).num.toNat (set 2) (set 3) (set 5)
          let d := (d.setCell node.toNat x.1 r.1).refreshOuts node.toNat x.1 x.2 (balanceOuts r.1)
          if x.1 = 0 then
            d.record 0x0050 (0x100 + x.2) [(4, node.toNat), (8, i.start * 1000000000), (4, f32Of r.2.1), (4, f32Of r.2.2.1),
              (1, r.2.2.2.1.toNat), (1, r.2.2.2.2)]
          else d
        else d) d
  else d

/-- A step of CAL falls into the running interval of every BALANCE (R259). -/
def Dev.balanceStep (d : Dev) : Dev :=
  (List.range d.seam.design.nodes.length).foldl (fun d i =>
    (d.copies i 0x0061).foldl (fun d x =>
      d.setCell i x.1 (balanceJump (d.cell i x.1) (d.balanceBoundary (d.setNow i x.2 0).num.toNat) d.tsc)) d) d

/-! ### Release and restored state (R210, R262 to R265) -/

/-- The name of a node. -/
def Design.nameOf (D : Design) (n : NodeRec) : List Byte := (D.pool.drop n.name).takeWhile fun b => b != 0

/-- A node's name path from the root lode (R263). -/
def Design.path (D : Design) : Nat → Nat → List (List Byte)
  | 0, _ => []
  | fuel + 1, i =>
    match D.node i with
    | none => []
    | some n => path D fuel n.parent ++ [D.nameOf n]

/-- Whether a cell type has restorable state (R263). -/
def restorable (ct : Nat) : Bool := [0x0030, 0x0031, 0x0060, 0x0061, 0x0051, 0x0054, 0x0072].contains ct

/-- A cell's start from the image: THETA0, the LATCH's initial output, and the running interval of BALANCE, which is incomplete (R262). -/
def Dev.cellInit (d : Dev) (i g ct : Nat) : CellSt :=
  if ct = 0x0030 then ({} : CellSt).setA 9 (d.setNow i g 6)
  else if ct = 0x0072 then ({} : CellSt).setB 0 (Config.latchInit i)
  else if ct = 0x0061 then (({} : CellSt).setC 0 (d.balanceBoundary (d.setNow i g 0).num.toNat)).setC 2 1
  else {}

/-- BALANCE from a snapshot entry: the count, the unjudged intervals, whose closing has been moved to this power cycle, and the interval that
ran when the power failed, which overlaps the outage and is incomplete: it runs on where its boundary is still the latest one, and is
closed where CAL has gone past it. -/
def balanceRestore (init st : CellSt) (rel : Int → Int) (tsc : Nat) : CellSt :=
  let c := { ((init.setC 6 (st.c 6)).setC 3 1) with ints := st.ints.map fun (x : BalInt) => { x with closed := rel x.closed } }
  if st.c 0 < init.c 0 then { c with ints := c.ints ++ [({ start := st.c 0, head := (st.a 0 - st.a 1) / 1000, closed := tsc, reports := [], bad := true } : BalInt)] }
  else (c.setA 1 (st.a 1)).setC 11 (st.c 11)

/-- A cell's start from a snapshot entry taken at TSC `h` of its power cycle, `el` seconds of elapsed time T (R263); with the T of a stopped
Thyme THERMAL is cold and the rings are empty (R264). -/
def Dev.cellRestore (d : Dev) (i g ct : Nat) (st : CellSt) (h : Nat) (el : Rat) : CellSt :=
  let ns : Int := (el * 1000000000).floor
  let rel (t : Int) : Int := (d.tsc : Int) - (((h : Int) - t) + ns)
  let init := d.cellInit i g ct
  let cold := el = 604800
  if ct = 0x0030 then (init.setA 9 (if cold then 0 else st.a 9 * expR (-el / (d.setNow i g 3 * 60)))).setC 3 1
  else if ct = 0x0031 then
    { init with acc := st.acc.filter (fun p => p.1 < 3), cnt := SMap.set (SMap.set [] 3 1) 4 (st.c 4), evs := if cold then [] else st.evs.map rel }
  else if ct = 0x0060 then
    let c := { init with cnt := (st.cnt.filter fun p => 30 ≤ p.1), acc := st.acc.filter fun p => 20 ≤ p.1 }
    (c.setA 30 (st.a 30 + el)).setC 3 1
  else if ct = 0x0061 then
    balanceRestore init st rel d.tsc
  else if ct = 0x0051 then
    let c := init.setC 3 1
    match SMap.get? st.tim 0 with
    | some t => { c with tim := [(0, 16 * rel (t / 16))] }
    | none => c
  else if ct = 0x0054 then
    let c := if st.c 0 = 1 ∨ st.c 0 = 2 ∨ st.c 0 = 4 ∨ (st.c 0 = 3 ∧ st.c 2 = 2) then arLock init else arManual init (16 * d.tsc) 1
    c.setC 3 1
  else if ct = 0x0072 then if d.setNow i g 1 = 1 then (init.setB 0 (st.f 0)).setC 3 1 else init
  else init

/-! ### Lumps that reach a pit (R21, R182, R281, R523) -/

/-- Whether a lump's arrival lies after the deadline of every face of the pit that reads its source at its index (R182). -/
def Dev.lumpLate (d : Dev) (pit src ix arr : Nat) : Bool :=
  let D := d.seam.design
  let readers := (D.faces.map fun f => f.face).filter fun g => g / 64 == pit && (D.lumpSources g).contains src
  let steps := readers.filterMap fun g =>
    ((d.instsOf (D.domainOf g)).find? fun i => lumpIndex (D.domainOf g) i.k == ix).map fun i => d.deadline g i.k
  !steps.isEmpty && steps.all fun t => decide (t < 16 * arr)

/-- Lost instants between two indices (R21), latest first. -/
def lostInstants (arr lo hi : Nat) : List SeamIn := ((List.range (min 1024 (hi - lo))).map fun i => ⟨hi - 1 - i, arr, none⟩)

/-- A producer's first lump after readmission, the one with GAP = 1 and LOST = 0, makes its consumers wait for it again from the instant
that it covers (R523). -/
def Dev.waitAgain (d : Dev) (key : Nat) (t : Tag) (k : Nat) : Dev :=
  if SMap.get? d.seam.away key = some none ∧ t.gap ∧ t.lost = 0 then
    d.setSeam { d.seam with away := SMap.set d.seam.away key (some k) }
  else d

/-- A lump of sample words reaches a pit. -/
def Dev.seamWords (d : Dev) (pit : Nat) (t : Tag) (native : Bool) (k arr : Nat) (w : List Word) : Dev :=
  let key := 4096 * pit + t.src + if native then 65536 else 0
  let d := d.waitAgain key t k
  if !native && d.lumpLate pit t.src k arr then d.incF F.SEAM_STAT_LATE
  else
    let l := SMap.getD d.seam.ins key []
    let last := match l with
      | e :: _ => e.k + 1
      | [] => k
    let l := (⟨k, arr, some w⟩ : SeamIn) :: ((if t.gap then lostInstants arr last k else []) ++ l)
    d.setSeam { d.seam with ins := SMap.set d.seam.ins key (l.take 1024) }

/-- A result of the location unit reaches a pit (R281): an ARRIVAL sets points 0 to 4 of its group and holds EVENT; a single- or double-ended
result is applied only after the ARRIVAL of the same event, one of the 16 latest, with no GAP in between. -/
def Dev.seamTwu (d : Dev) (pit : Nat) (t : Tag) (kind g flags evseq arr arrCal value : Nat) : Dev :=
  let d := if t.gap then d.setSeam { d.seam with twuLast := d.seam.twuLast.filter fun p => p.1 / 4 != pit } else d
  let put (d : Dev) (r : Nat) (v : PtV) : Dev := d.setSeam { d.seam with twuRes := SMap.set d.seam.twuRes (64 * pit + 16 * g + r) v }
  if kind = 1 then
    let a := arr * 4 / 5
    let ev := (a, a + 16000000 * d.getF F.TWU_GHOLD_EVHOLD g)
    let d := put d 1 ⟨arrCal, 0, 0⟩
    let d := put d 2 ⟨f32Of (sgn 32 value : Rat), 1 + 4 * (flags.testBit 3).toNat, 0⟩
    let d := put (put d 3 ⟨(flags.testBit 2).toNat, 1, 0⟩) 4 ⟨evseq, 0, 0⟩
    let holds := (ev :: SMap.getD d.seam.twuUntil (4 * pit + g) []).take 16
    let seen := (evseq :: SMap.getD d.seam.twuLast (4 * pit + g) []).take 16
    d.setSeam { d.seam with twuUntil := SMap.set d.seam.twuUntil (4 * pit + g) holds, twuLast := SMap.set d.seam.twuLast (4 * pit + g) seen }
  else if (SMap.getD d.seam.twuLast (4 * pit + g) []).contains evseq then
    let st := flags / 16 % 8
    let ok := st == 1 || st == 2
    let r := if kind = 2 then 5 else 7
    put (put d r ⟨if ok then value else 0, if ok then 1 else 2, 0⟩) (r + 1) ⟨ok.toNat, 1, 0⟩
  else d

/-- A lump reaches a pit on skips 6 to 17. -/
def Dev.seamLump (d : Dev) (n : Nat) (l : Lump) : Dev :=
  let pit := (n - 6) % 4
  match l.body with
  | .sampleWords k w => d.seamWords pit l.tag (decide (10 ≤ n) && !l.tag.pclass) k l.at_ w
  | .twu kind g flags evseq arr arrCal value _ => d.seamTwu pit l.tag kind g flags evseq arr arrCal value
  | _ => d

end Sys2Proof.Machine
end

