-- ==== Sys2Proof/Machine/Twu.lean ====
section
/-!
DEFINITION. Travelling waves: detection and measurement of arrivals, events, single- and double-ended location.
-/
namespace Sys2Proof.Machine

/-- A group. -/
def Dev.grp (d : Dev) (g : Nat) : TwGrp := SMap.getD d.twu.grps g {}
/-- Replaces a group. -/
def Dev.setGrp (d : Dev) (g : Nat) (x : TwGrp) : Dev := { d with twu := { d.twu with grps := SMap.set d.twu.grps g x } }

/-- A group's composite as applied. -/
def Dev.grpCfg (d : Dev) (g : Nat) : TwCfg :=
  { en := d.getB F.TWU_GCTL_EN g, se := d.getB F.TWU_GCTL_SE_EN g, de := d.getB F.TWU_GCTL_DE_EN g
    pol := d.getB F.TWU_GCTL_SE_POL g, pits := d.getF F.TWU_GCTL_PITS g
    chans := [d.getF F.TWU_GCH_CHA g, d.getF F.TWU_GCH_CHB g, d.getF F.TWU_GCH_CHC g]
    thr := d.getF F.TWU_GTHR_THR g, d := d.getF F.TWU_GDLY_D g, blind := d.getF F.TWU_GDLY_BLIND g
    vel := d.getF F.TWU_GVLO_VEL_LO g + 65536 * d.getF F.TWU_GVHI_VEL_HI g
    len := d.getF F.TWU_GLLO_LEN_LO g + 65536 * d.getF F.TWU_GLHI_LEN_HI g
    twin := d.getF F.TWU_GWIN_TWIN g, rfrac := d.getF F.TWU_GRFR_RFRAC g }

/-- The conditions of R266 that an enabled group breaks: channels, ownership, rates, gains, TWIN. -/
def Dev.grpBroken (d : Dev) (g : Nat) : Bool :=
  let c := d.grpCfg g
  let a := c.chans.getD 0 0
  let b := c.chans.getD 1 0
  let e := c.chans.getD 2 0
  let distinct := a != b && b != e && a != e
  let half := c.chans.all fun x => x / 8 == a / 8
  let shared := (List.range 4).any fun h => h != g && d.getB F.TWU_GCTL_EN h && (d.grpCfg h).chans.any c.chans.contains
  let paired (x : Nat) : Bool := d.bitF F.AFE_PAIR_PAIR 0 (x / 2)
  let rates := c.chans.all (fun x => !(paired x)) || c.chans.all fun x => paired x && x % 2 == 0
  let gains := c.chans.all fun x => d.getF F.AFE_GAIN_GAIN x == d.getF F.AFE_GAIN_GAIN a
  let window := decide (2 * c.len * 1000 + 2 * c.vel ≤ c.twin * c.vel)
  c.en && !(distinct && half && !shared && rates && gains && window)

/-! ### Results -/

/-- The FLAGS of an arrival with a status (R280). -/
def TwArr.flags (a : TwArr) (status : Nat) : Nat :=
  (decide (a.height < 0)).toNat + 2 * a.beta.toNat + 4 * a.ground.toNat + 8 * a.clip.toNat + 16 * status

/-- Sends a result of the location unit on each pit of the set (R280). -/
def Dev.sendTwu (d : Dev) (g pits kind status value : Nat) (e : TwEv) : Dev :=
  match e.arrs with
  | [] => d
  | a :: _ =>
    ((List.range 4).filter fun p => pits.testBit p).foldl (fun d p =>
      d.sendLump (14 + p) 0x208 true none 4 (.twu kind g (a.flags status) e.seq a.arr (e.cal20 / 20) value (e.cal20 % 20))) d

/-- Metres rounded half up (TWU_GSEg). -/
def roundM (x : Rat) : Nat := ((2 * x.num + x.den) / (2 * x.den)).toNat

/-- A distance as the TWU computes it, in binary64. -/
def dist64 (x : Rat) : Rat := f64 (f64Of x)

/-- The double-ended result of an event and a far arrival at `tb` (50 ps units) (R278). -/
def Dev.doubleEnded (d : Dev) (g : Nat) (e : TwEv) (tb : Nat) (farLocked : Bool) : Dev :=
  let c := (d.grp g).cfg
  let x := dist64 (((c.len : Rat) + (c.vel : Rat) * (((e.cal20 : Int) - tb : Int) : Rat) / 20000000) / 2)
  let len : Rat := c.len
  let r : Nat × Rat := if !e.locked ∨ !farLocked then (5, 0)
    else if 0 ≤ x ∧ x ≤ len then (1, x)
    else if -(len / 100) ≤ x ∧ x < 0 then (2, 0)
    else if len < x ∧ x ≤ len * 101 / 100 then (2, len)
    else (4, 0)
  let d := ((d.setF F.TWU_GDE_DIST g (roundM r.2)).setF F.TWU_GDE_STATUS g r.1).setF F.TWU_GDE_EVSEQ g e.seq
  let d := d.flag F.TWU_STAT_DE_DONE 0 g 15
  let d := d.sendTwu g c.pits 3 r.1 (f32Of r.2) e
  d.record 0x0039 0x208 [(1, g), (4, e.seq), (1, r.1), (4, f32Of r.2), (8, e.cal20 / 20), (1, e.cal20 % 20), (8, tb / 20), (1, tb % 20)]

/-- The distance of two times. -/
def natDist (a b : Nat) : Nat := max a b - min a b

/-- The event that a far arrival matches: the nearest in time, on equality the one with the lower EVSEQ (R277). -/
def TwGrp.match_ (x : TwGrp) (tb : Nat) : Option TwEv :=
  let evs := (x.open_.toList ++ x.closed).take 8
  let near := evs.filter fun e => decide (natDist e.cal20 tb * x.cfg.vel ≤ (x.cfg.len * 1000 + 5 * x.cfg.vel) * 20000)
  near.foldl (fun b e => match b with
    | none => some e
    | some f => if natDist e.cal20 tb < natDist f.cal20 tb ∨ (natDist e.cal20 tb = natDist f.cal20 tb ∧ e.seq < f.seq) then some e else some f) none

/-- Marks an event as having accepted its far arrival. -/
def TwGrp.setFar (x : TwGrp) (seq : Nat) : TwGrp :=
  let f (e : TwEv) : TwEv := if e.seq = seq then { e with far := true } else e
  { x with open_ := x.open_.map f, closed := x.closed.map f }

/-- Tries to match a far arrival: `none` where no event matches, otherwise the device after (R277). -/
def Dev.farMatch (d : Dev) (g tb : Nat) (farLocked : Bool) : Option Dev :=
  match (d.grp g).match_ tb with
  | none => none
  | some e =>
    if e.far then some (d.incF F.TWU_FARCNT_DUP)
    else some ((d.setGrp g ((d.grp g).setFar e.seq)).doubleEnded g e tb farLocked)

/-- Whether the TWU runs: not in SAFE, nor in the HOLD that follows one (R283). -/
def Dev.twuOn (d : Dev) : Bool := d.mode != .safe && !d.seam.stopped

/-- A held far arrival is discarded 100 ms of TSC after its write (R276). -/
def Dev.farExpire (d : Dev) (g : Nat) : Dev :=
  match (d.grp g).far with
  | some (_, _, t) => if t + 100000000 ≤ d.tsc then (d.setGrp g { d.grp g with far := none }).incF F.TWU_FARCNT_UNMATCHED else d
  | none => d

/-- A write of TWU_FARGO.GO: the submission in the order of R276. -/
def Dev.farSubmit (d : Dev) : Dev :=
  let g := d.getF F.TWU_FARGO_GROUP
  let tb := 20 * d.getF F.TWU_FARCAL_CAL + d.getF F.TWU_FARGO_FRAC
  let locked := d.getB F.TWU_FARGO_LOCKED
  if !d.twuOn then d
  else if !(d.grp g).cfg.de then d.incF F.TWU_FARCNT_UNMATCHED
  else match d.farMatch g tb locked with
    | some d => d
    | none =>
      let d := if (d.grp g).far.isSome then d.incF F.TWU_FARCNT_UNMATCHED else d
      d.setGrp g { d.grp g with far := some (tb, locked, d.tsc) }

/-- FAR_ARRIVAL_EXPIRE: 100 ms of TSC after its write, a held far arrival is discarded (R276). -/
def execFarArrivalExpire (g : Fin 4) (s : State) : Out := s.up fun d => if d.twuOn then d.farExpire g else d

/-! ### Events (R271, R275) -/

/-- Takes a waiting change of settings into force at the next sample and restarts the history (R283); OFFLINE shows whether the half of the
group's channels is offline. -/
def Dev.grpTake (d : Dev) (g : Nat) : Dev :=
  let x := d.grp g
  if x.change ∧ x.open_ = none then
    let cfg := d.grpCfg g
    let newest := (cfg.chans.filterMap fun c => ((SMap.getD d.twu.raw c []).getLast?).map fun s => s.1 + 1).foldl max 0
    let next := match x.next with
      | some k => some k
      | none => if newest = 0 then none else some newest
    (d.setGrp g { x with cfg := cfg, change := false, sig := [], next := next, blindTo := 0 }).setB F.TWU_GSTAT_OFFLINE g
      (cfg.en && d.halfOff (chHalf (cfg.chans.headD 0)))
  else d

/-- The reflection of an event (R275). -/
def TwCfg.reflection (c : TwCfg) (e : TwEv) : Option TwArr :=
  match e.arrs with
  | [] => none
  | a :: as => as.find? fun r =>
      decide ((r.arr - a.arr) * c.vel ≤ 2 * c.len * 20000000) && ((decide (r.height < 0) == decide (a.height < 0)) != c.pol) &&
      decide (c.rfrac * a.height.natAbs ≤ 256 * r.height.natAbs)

/-- Closes a group's event: the single-ended result while SE_EN = 1 (R275), the record, and a change of settings that waited. -/
def Dev.closeEvent (d : Dev) (g : Nat) (aborted : Bool) : Dev :=
  let x := d.grp g
  match x.open_ with
  | none => d
  | some e =>
    let c := x.cfg
    let first := e.arrs.headD ⟨0, 0, false, false, false, false⟩
    let refl := if aborted then none else c.reflection e
    let dist := match refl with
      | some r => dist64 ((c.vel : Rat) * ((r.arr - first.arr : Nat) : Rat) / 40000000)
      | none => 0
    let status := if !c.se then 0 else if aborted then 6 else if refl.isSome then 1 else 3
    let used := c.se && refl.isSome
    let e' := { e with arrs := e.arrs.map fun a => if used ∧ refl = some a then { a with refl := true } else a }
    let d := d.setGrp g { x with open_ := none, closed := (e' :: x.closed).take 8 }
    let d := d.setF F.TWU_GSTAT_IN_EVENT g 0
    let d := if c.se then
        let d := ((d.setF F.TWU_GSE_DIST g (if used then roundM dist else 0)).setF F.TWU_GSE_STATUS g status).setF F.TWU_GSE_EVSEQ g e.seq
        (d.flag F.TWU_STAT_SE_DONE 0 g 15).sendTwu g c.pits 2 status (if used then f32Of dist else 0) e
      else d
    let d := d.record 0x0038 (0x200 + g)
      [(4, e.seq), (1, e.arrs.length), (2, first.flags status), (8, first.arr), (8, e.cal20 / 20), (1, e.cal20 % 20),
        (4, unsgn 32 first.height), (1, status), (4, if used then f32Of dist else 0),
        (8, if used then (refl.map fun r => r.arr).getD 0 else 0)]
    d.grpTake g

/-- The calendar at a TSC in 50 ps units, in 50 ps units (R273). -/
def Dev.cal20 (d : Dev) (arr : Nat) : Nat × Nat :=
  let s := calSegAt d.clk.cal (arr / 20)
  (((20 * (s.acc : Int) + ((arr : Int) - 20 * s.tsc) * (2 ^ 40 + s.rate)) / 2 ^ 40).toNat, s.state)

/-- An arrival of a group: it opens an event or joins the open one, where a 17th and later ones are ignored (R271); it is signalled to
Assay (R282). -/
def Dev.arrival (d : Dev) (g k0 : Nat) (a : TwArr) (signal : Dev → Nat → Nat → Dev) : Dev :=
  let x := d.grp g
  let blind := k0 + x.cfg.blind
  let clip (d : Dev) : Dev := if a.clip then d.setF F.TWU_GSTAT_CLIP g 1 else d
  match x.open_ with
  | some e =>
    if 16 ≤ e.arrs.length then d
    else signal ((clip d).setGrp g { x with open_ := some { e with arrs := e.arrs ++ [a] }, blindTo := blind }) g a.arr
  | none =>
    let t := d.cal20 a.arr
    let e : TwEv := ⟨x.evseq, k0, [a], t.1, decide (t.2 = 2), false⟩
    let d := (clip d).setGrp g { x with open_ := some e, evseq := (x.evseq + 1) % 2 ^ 32, blindTo := blind }
    let d := ((d.setF F.TWU_GSTAT_IN_EVENT g 1).incF F.TWU_GSTAT_EVENTS g).setF F.TWU_GARR_ARR g a.arr
    let d := d.flag F.TWU_STAT_EVENT 0 g 15
    let d := d.sendTwu g x.cfg.pits 1 0 (unsgn 32 a.height) e
    let d := (signal d g a.arr).farExpire g
    match (d.grp g).far with
    | some (tb, locked, _) =>
      match d.farMatch g tb locked with
      | some d => d.setGrp g { d.grp g with far := none }
      | none => d
    | none => d

/-! ### Detection (R268 to R272) -/

/-- A sample of the history. -/
def sigAt (sig : List (Nat × Int × Int × Int × Bool)) (k : Nat) : Option (Int × Int × Int × Bool) :=
  (sig.find? fun s => s.1 == k).map fun s => s.2

/-- The first pair of samples that brackets the half-height level, from `i` on (R272). -/
def bracket (m : Nat → Option Int) (l2 : Int) : Nat → Nat → Option (Nat × Int × Int)
  | 0, _ => none
  | n + 1, i =>
    match m i, m (i + 1) with
    | some a, some b => if (2 * a - l2) * (2 * b - l2) ≤ 0 ∧ b ≠ a then some (i, a, b) else bracket m l2 n (i + 1)
    | _, _ => none

/-- The arrival measured at a detection on one mode, with each operation rounded to binary64 (R272): `u` is the sample period in 50 ps
units. -/
def measure (sig : List (Nat × Int × Int × Int × Bool)) (k0 D u : Nat) (beta ground clip : Bool) : Option TwArr :=
  let m (k : Nat) : Option Int := (sigAt sig k).map fun s => if beta then s.2.1 else s.1
  match m (k0 - D), m (k0 + D) with
  | some base, some top =>
    let h := top - base
    let l2 := 2 * base + h
    match bracket m l2 (2 * D) (k0 - D) with
    | some (i, a, b) =>
      let phi := dist64 (((l2 : Rat) / 2 - a) / ((b - a : Int) : Rat))
      some ⟨i * u + (dist64 (dist64 (phi * u) + 1 / 2)).floor.toNat, h, beta, ground, clip, false⟩
    | none => none
  | _, _ => none

/-- Looks for a wavefront at `k0`, whose window to `k0 + D` has just become complete (R270). -/
def Dev.detect (d : Dev) (g k0 u : Nat) (signal : Dev → Nat → Nat → Dev) : Dev :=
  let x := d.grp g
  let D := x.cfg.d
  let thr := x.cfg.thr
  if k0 ≤ x.blindTo ∧ x.blindTo ≠ 0 then d
  else if k0 < D then d
  else
    match sigAt x.sig (k0 - D), sigAt x.sig k0 with
    | some p, some q =>
      let da := (q.1 - p.1).natAbs
      let db := (q.2.1 - p.2.1).natAbs
      if da < thr ∧ db < thr then d
      else
        let beta := decide (thr ≤ db) && (decide (da < thr) || decide (da < db))
        let d0 (k : Nat) : Bool := match sigAt x.sig k, sigAt x.sig (k - D) with
          | some s, some r => decide (thr ≤ (s.2.2.1 - r.2.2.1).natAbs)
          | _, _ => false
        let ground := (List.range (2 * D + 1)).any fun i => d0 (k0 - D + i)
        let clip := x.sig.any fun s => decide (k0 ≤ s.1 + 2 * D ∧ s.1 ≤ k0 + D) && s.2.2.2.2
        match measure x.sig k0 D u beta ground clip with
        | some a => d.arrival g k0 a signal
        | none => d
    | _, _ => d

/-- One sample index of a group, with its three codes where all are present. -/
def Dev.grpSample (d : Dev) (g k u : Nat) (codes : Option (BitVec 16 × BitVec 16 × BitVec 16)) (signal : Dev → Nat → Nat → Dev) : Dev :=
  let d := d.grpTake g
  let x := d.grp g
  match codes with
  | none =>
    let d := d.setGrp g { x with sig := [], next := some (k + 1) }
    (d.closeEvent g true).setF F.TWU_GSTAT_GAP g 1
  | some (a, b, c) =>
    let ai := a.toInt
    let bi := b.toInt
    let ci := c.toInt
    let s := (k, 2 * ai - bi - ci, (bi - ci) * 1774 / 1024, ai + bi + ci, clipped a || clipped b || clipped c)
    let d := d.setGrp g { x with sig := (s :: x.sig).take 64, next := some (k + 1) }
    let k0 := k - x.cfg.d
    let past := match x.open_ with
      | some e => decide (e.k0 + x.cfg.twin * (1000 / u * 20) ≤ k0)
      | none => false
    let d := if past then d.closeEvent g false else d
    if x.cfg.d ≤ k then d.detect g k0 u signal else d

/-- Runs a group over the indices at which all three channels have a sample; samples that a channel no longer has are absent. -/
def Dev.grpRun (g : Nat) (signal : Dev → Nat → Nat → Dev) : Nat → Dev → Dev
  | 0, d => d
  | fuel + 1, d =>
    let x := d.grp g
    let chan (i : Nat) : List (Nat × Option (BitVec 16)) := SMap.getD d.twu.raw (x.cfg.chans.getD i 0) []
    let firsts := [chan 0, chan 1, chan 2].map fun l => (l.head?.map fun s => s.1)
    match allSome firsts with
    | none => d
    | some fs =>
      let k := x.next.getD (fs.foldl max 0)
      let at_ (i : Nat) : Option (Option (BitVec 16)) := ((chan i).find? fun s => s.1 == k).map fun s => s.2
      match at_ 0, at_ 1, at_ 2 with
      | some a, some b, some c =>
        let u := if (SMap.getD d.twu.blk (x.cfg.chans.getD 0 0) (0, false)).2 then 500 else 1000
        let codes := match a, b, c with
          | some a, some b, some c => some (a, b, c)
          | _, _, _ => none
        grpRun g signal fuel (d.grpSample g k u codes signal)
      | _, _, _ =>
        let f := fs.foldl max 0
        if k < f then grpRun g signal fuel (d.grpSample g (f - 1) 1000 none signal) else d

/-- A raw block's header reaches the detectors: its marks and rate, and the absence of blocks lost before it (R268); a change of rate
restarts the history, since its indices count otherwise. -/
def Dev.twuHeader (d : Dev) (h : RawHeader) (lumpGap : Bool) : Dev :=
  let old := SMap.getD d.twu.blk h.ch (0, h.rate40)
  if !d.twuOn then d else
  let d := if h.gap ∨ lumpGap ∨ old.2 ≠ h.rate40 then
      (List.range 4).foldl (fun d g =>
        let x := d.grp g
        if x.cfg.en ∧ x.cfg.chans.contains h.ch then
          let d := d.setGrp g { x with sig := [], next := none }
          (d.closeEvent g true).setF F.TWU_GSTAT_GAP g 1
        else d) { d with twu := { d.twu with raw := SMap.set d.twu.raw h.ch [] } }
    else d
  { d with twu := { d.twu with blk := SMap.set d.twu.blk h.ch (h.first + h.markN, h.rate40) } }

/-- A sample lump reaches the detectors while they run: its codes join the channel, marked ones as absent, and the groups run. -/
def Dev.twuSamples (d : Dev) (c first : Nat) (codes : List (BitVec 16)) (signal : Dev → Nat → Nat → Dev) : Dev :=
  if !d.twuOn then d else
  let b := SMap.getD d.twu.blk c (0, false)
  let new := codes.zipIdx.map fun p => (first + p.2, if first + p.2 < b.1 then none else some p.1)
  let l := SMap.getD d.twu.raw c [] ++ new
  let d := { d with twu := { d.twu with raw := SMap.set d.twu.raw c (l.drop (l.length - 4096)) } }
  (List.range 4).foldl (fun d g =>
    let d := d.grpTake g
    let x := d.grp g
    if x.cfg.en ∧ x.cfg.chans.contains c then Dev.grpRun g signal 4096 d else d) d

/-- TW_EVENT_CLOSE: the detector has passed TWIN of a group's open event (R271). -/
def execTwEventClose (g : Fin 4) (s : State) : Out := s.up fun d =>
  let x := d.grp g
  match x.open_, x.next with
  | some e, some k =>
    let r := if (SMap.getD d.twu.blk (x.cfg.chans.getD 0 0) (0, false)).2 then 40 else 20
    if e.k0 + x.cfg.twin * r + x.cfg.d ≤ k ∧ d.twuOn then d.closeEvent g false else d
  | _, _ => d

/-- A commit of TWU_GCTLg that is not refused: it takes effect at the first sample without an open event (R283). -/
def Dev.grpCommitted (d : Dev) (g : Nat) : Dev := (d.setGrp g { d.grp g with change := true }).grpTake g

/-- The half of a group's channels. -/
def Dev.grpHalf (d : Dev) (g : Nat) : Half := chHalf ((d.grp g).cfg.chans.headD 0)

/-- A half fails: its open events close as ABORTED (R283). -/
def Dev.twuHalfLost (d : Dev) (h : Half) : Dev :=
  (List.range 4).foldl (fun d g =>
    if (d.grp g).cfg.en ∧ d.grpHalf g = h then
      let d := if d.twuOn then d.closeEvent g true else d
      (d.setGrp g { d.grp g with sig := [], next := none }).setF F.TWU_GSTAT_OFFLINE g 1
    else d) { d with twu := { d.twu with raw := d.twu.raw.filter fun p => chHalf p.1 != h } }

/-- A half is readmitted: its groups restart (R283). -/
def Dev.twuHalfBack (d : Dev) (h : Half) : Dev :=
  (List.range 4).foldl (fun d g => if d.grpHalf g = h then d.setF F.TWU_GSTAT_OFFLINE g 0 else d) d

end Sys2Proof.Machine
end

