-- ==== Sys2Proof/Machine/Fio.lean ====
section
/-!
DEFINITION. Field I/O: the field sides, the barrier, inputs, output faults, interrogation, the combiner and the trip gate, the
Canary, and point-on-wave transitions.
-/
namespace Sys2Proof.Machine

/-! ### State -/

/-- The logic side of a bank. -/
def Dev.bank (d : Dev) (n : Nat) : Bank := SMap.getD d.fio.banks n {}
/-- Replaces the logic side of a bank. -/
def Dev.setBank (d : Dev) (n : Nat) (b : Bank) : Dev := { d with fio := { d.fio with banks := SMap.set d.fio.banks n b } }
/-- The field side of a bank. -/
def Dev.fieldSide (d : Dev) (n : Nat) : Field := SMap.getD d.field n {}
/-- Replaces the field side of a bank. -/
def Dev.setField (d : Dev) (n : Nat) (f : Field) : Dev := { d with field := SMap.set d.field n f }
/-- The half of a bank's logic side (R285). -/
def bankHalf (n : Nat) : Half := if n < 2 then .north else .south
/-- Sets or clears a bit of a number. -/
def putBit (v i : Nat) (b : Bool) : Nat := if b then v ||| 2 ^ i else v - (v &&& 2 ^ i)
/-- Whether a logic side is powered and sends frames. -/
def Dev.bankRuns (d : Dev) (n : Nat) : Bool := d.fio.started && !(d.halfOff (bankHalf n)) && decide (d.mode ≠ .off)

/-! ### The Canary table (R311) -/

/-- An entry of the table: channel, EN, threshold, HOLD, OUTMASK. -/
structure CanaryEntry where
  ch : Nat
  en : Bool
  thr : Nat
  hold : Nat
  outmask : Nat
  deriving DecidableEq, Repr

/-- Entry `e` of a table's bytes. -/
def canaryEntry (t : List Byte) (e : Nat) : CanaryEntry :=
  let f (o n : Nat) : Nat := unle ((t.drop (16 + 24 * e + o)).take n)
  ⟨f 0 1, f 1 1 % 2 == 1, f 2 2, f 4 2, f 8 8⟩

/-- Whether a table passes CHECK. -/
def canaryOk (t : List Byte) : Bool := t.length == 404 && unle (t.drop 400) == crc32c (t.take 400) && unle (t.take 2) == 1

/-- The table in force: that of the MRAM where it passes CHECK. -/
def Dev.canaryTable (d : Dev) : Option (List Byte) := match d.nv.canary with
  | some t => if canaryOk t then some t else none
  | none => none

/-- KEEP and TLOCK of a table. -/
def canaryFlag (t : List Byte) (i : Nat) : Bool := (unle ((t.drop 2).take 2)).testBit i

/-- The gain of a channel stored in a table. -/
def canaryGain (t : List Byte) (c : Nat) : Nat := unle ((t.drop 4).take 4) / 4 ^ c % 4

/-- The field channels that a table's entries in use switch. -/
def canaryOuts (t : List Byte) : Nat := (List.range 16).foldl (fun m e =>
  let x := canaryEntry t e
  if x.en then m ||| x.outmask else m) 0

/-- The channels that operated entries hold on (R314). -/
def Dev.canaryMask (d : Dev) : Nat := match d.canaryTable with
  | some t => d.fio.canary.foldl (fun m p => m ||| (canaryEntry t p.1).outmask) 0
  | none => 0

/-- Whether a stage that counts towards disarming the Canary is not READY (R230). -/
def Dev.stageUnready (d : Dev) : Bool :=
  let D := d.seam.design
  D.faces.any fun f => (D.cellsOn f.face).any fun x =>
    match D.node x.1 with
    | some n =>
      let ix := if n.cellType = 0x0010 ∨ n.cellType = 0x0011 then some 8 else if n.cellType = 0x0012 then some 2 else none
      match ix with
      | some i => d.setNow x.1 f.face i == 1 && !((d.cell x.1 x.2).f 99)
      | none => false
    | none => false

/-- Whether the Canary is armed (R313). -/
def Dev.canaryWanted (d : Dev) : Bool :=
  match d.canaryTable with
  | none => false
  | some t =>
    d.fio.started && (match d.mode with
      | .boot => true
      | .load => true
      | .commission => canaryFlag t 0 || d.stageUnready
      | .protect => canaryFlag t 0 || d.stageUnready
      | .degraded => canaryFlag t 0 || d.stageUnready
      | _ => false)

/-- Brings the arming up to date: a change is recorded, and disarming ends every hold (R313, R314). -/
def Dev.updateCanary (d : Dev) : Dev :=
  let want := d.canaryWanted
  if d.getB F.FIO_CNY_ARMED = want then d
  else
    let keep := match d.canaryTable with
      | some t => canaryFlag t 0
      | none => false
    let d := d.setB F.FIO_CNY_ARMED 0 want
    let d := if want then d else { d with fio := { d.fio with canary := [] } }
    d.record 0x0042 0x225 [(1, want.toNat), (1, keep.toNat), (1, d.getF F.FIO_CNY_CHECK_FAIL)]

/-- Shows the MRAM table's flags; a table that fails CHECK sets TRB.FIO_CANARY (R313). -/
def Dev.showCanary (d : Dev) : Dev :=
  let d := match d.canaryTable with
    | some t => ((d.setB F.FIO_CNY_KEEP 0 (canaryFlag t 0)).setB F.FIO_CNY_TLOCK 0 (canaryFlag t 1)).setB F.FIO_CNY_CHECK_FAIL 0 false
    | none => ((d.setB F.FIO_CNY_KEEP 0 false).setB F.FIO_CNY_TLOCK 0 false).setB F.FIO_CNY_CHECK_FAIL 0 true
  if d.nv.canary.isSome ∧ d.canaryTable = none then d.trouble F.TRB_STICKY1_FIO_CANARY else d

/-- Whether a CIC output counts for an entry (R314). -/
def CanaryEntry.hit (e : CanaryEntry) (y : Int) : Bool := decide (e.thr * 65536 ≤ y.natAbs)

/-- A channel's new CIC output renews the hold of the operated entries that watch it (R314). -/
def Dev.canaryOutput (d : Dev) (c : Nat) : Dev :=
  match d.canaryTable, (d.chain c).canaryRun with
  | some t, y :: _ =>
    let hits := d.fio.canary.map fun p =>
      let e := canaryEntry t p.1
      if e.ch = c ∧ e.hit y then (p.1, d.tsc) else p
    { d with fio := { d.fio with canary := hits } }
  | _, _ => d

/-- CANARY_OPERATE: four consecutive CIC outputs of an active entry's channel exceed its threshold (R314). -/
def execCanaryOperate (e : Fin 16) (s : State) : Out := s.up fun d =>
  match d.canaryTable with
  | none => d
  | some t =>
    let x := canaryEntry t e
    let run := (d.chain x.ch).canaryRun
    if x.en ∧ d.getB F.FIO_CNY_ARMED ∧ (SMap.get? d.fio.canary e).isNone ∧ run.length = 4 ∧ run.all x.hit ∧ ¬d.getB F.AFE_CHSTAT_DARK x.ch then
      let d := { d with fio := { d.fio with canary := SMap.set d.fio.canary e d.tsc } }
      (d.flag F.FIO_CNY_OP 0 e 14).record 0x0043 0x225 [(1, e.val), (1, x.ch), (8, x.outmask)]
    else d

/-- CANARY_HOLD_EXPIRE: for HOLD ms no CIC output of an operated entry's channel has exceeded its threshold (R314). -/
def execCanaryHoldExpire (e : Fin 16) (s : State) : Out := s.up fun d =>
  match d.canaryTable, SMap.get? d.fio.canary e with
  | some t, some at_ =>
    if at_ + 1000000 * (canaryEntry t e).hold ≤ d.tsc then { d with fio := { d.fio with canary := SMap.erase d.fio.canary e } } else d
  | _, _ => d

/-! ### The combiner (R306 to R309) -/

/-- CFG of a pin as the logic side sends it: before the I/O map takes effect only Canary outputs are outputs (R308). -/
def Dev.pinCfg (d : Dev) (c : Nat) : Nat :=
  if d.mode = .boot ∨ d.mode = .load then
    match d.canaryTable with
    | some t => ((canaryOuts t).testBit c).toNat
    | none => 0
  else d.getF F.FIO_PCFG_DIR c + 2 * d.getF F.FIO_PCFG_TYPE c + 4 * d.getF F.FIO_PCFG_WB c + 8 * d.getF F.FIO_PCFG_FILT c
    + 64 * d.getF F.FIO_PCFG_LOG c

/-- The Seam term of a channel (R306). -/
def Dev.seamTerm (d : Dev) (c : Nat) : Bool :=
  let live (p : Nat) : Bool := decide ((d.skip (18 + p)).st ≠ .offline)
  let img (p : Nat) : Nat × Nat := SMap.getD d.fio.img p (0, 0)
  let drives (p : Nat) : Bool := (img p).2.testBit c
  let liveDriven := (List.range 4).any fun p => live p && drives p
  (List.range 4).any fun p => drives p && (img p).1.testBit c && (live p || !liveDriven)

/-- The safe state of a channel in the I/O map (R207). -/
def Dev.safeState (d : Dev) (c : Nat) : Bool :=
  ((d.seam.design.io.find? fun r => r.ch == c && r.dir == 1).map fun r => r.flags % 2 == 1).getD false

/-- The driver state of a channel as the logic side commands it (R307, R309). -/
def Dev.driver (d : Dev) (c : Nat) : Bool :=
  let now := (d.bank (c / 16)).sent.testBit (c % 16)
  if (d.canaryMask).testBit c then true
  else if !(d.getB F.HFR_GATE_OPEN) then
    match d.mode with
    | .boot => false
    | .load => false
    | .hold => now
    | .off => now
    | _ => d.safeState c
  else if d.fio.pows.any fun p => p.ch == c then now
  else d.seamTerm c

/-! ### Frames (R295 to R298) -/

/-- A barrier frame: start pattern 0b1010_1011 in [7:0], payload in [71:8], CRC-8 in [79:72]. -/
def barrierFrame (payload : Nat) : BitVec 80 :=
  BitVec.ofNat 80 (0xAB + payload % 2 ^ 64 * 2 ^ 8 + crc8 (le 8 payload) * 2 ^ 72)

/-- The payload of a good frame (R296). -/
def framePayload (f : BitVec 80) : Option Nat :=
  let p := bits f.toNat 8 64
  if bits f.toNat 0 8 = 0xAB ∧ bits f.toNat 72 8 = crc8 (le 8 p) then some p else none

/-- The timed transition that a bank's frame starting now carries, TDLY and LATE: the earliest of those fixed for this frame or an
earlier one, on equal t_f the lower channel, and of one channel the one accepted first (R316, R317). -/
def Dev.dueTransition (d : Dev) (n : Nat) : Option (Pow × Nat × Bool) :=
  let due := d.fio.pows.filterMap fun p => match p.fixed with
    | some (tf, start, late) => if p.ch / 16 = n ∧ start ≤ d.tsc then some (p, tf, start, late) else none
    | none => none
  let best := due.foldl (fun b x => match b with
    | none => some x
    | some y => if x.2.1 < y.2.1 ∨ (x.2.1 = y.2.1 ∧ x.1.ch < y.1.ch) then some x else some y) none
  best.map fun x =>
    if x.2.2.1 = d.tsc ∧ d.tsc + 8000 ≤ x.2.1 then (x.1, (x.2.1 - d.tsc - 8000) / 1000 % 32, x.2.2.2) else (x.1, 0, true)

/-- A transition is executed: counted, recorded at the TSC at which it fired (R85), no longer pending (R318). -/
def Dev.powDone (d : Dev) (p : Pow) (late : Bool) : Dev :=
  let tf := match p.fixed with
    | some (t, _, _) => t
    | none => d.tsc
  let d := { d with fio := { d.fio with pows := d.fio.pows.erase p } }
  let d := d.incF F.FIO_SCHED_EXEC
  let d := if late then d.setF F.FIO_STAT_SCHED_LATE 0 1 else d
  d.requestRecord { typ := 0x0044, src := 0x224, tsc := tf, fields := [(1, p.ch), (1, p.state.toNat), (1, p.clk), (1, late.toNat + 2 * (d.angle p.clk).aligned.toNat), (6, p.at_), (8, tf)] }

/-- DOWNLINK_FRAME: the logic side of a bank sends its frame, at every TSC congruent to 2n µs modulo 10 µs (R295, R297, R309). -/
def execDownlinkFrame (n : Fin 4) (s : State) : Out := s.up fun d =>
  if d.bankRuns n ∧ d.tsc % 10000 = 2000 * n.val then
    let b := d.bank n
    let on := (List.range 16).foldl (fun v i => putBit v i (d.driver (16 * n + i) && d.pinCfg (16 * n + i) % 2 == 1)) 0
    let t := d.dueTransition n
    let tbits := match t with
      | some (p, dly, _) => (p.ch % 16) * 2 ^ 16 + p.state.toNat * 2 ^ 20 + 2 ^ 21 + dly * 2 ^ 22
      | none => 0
    let cmd := match b.cmds with
      | (1, _) :: _ => 1 * 2 ^ 35
      | (_, m) :: _ => 2 * 2 ^ 35 + m * 2 ^ 42
      | [] => b.cpin * 2 ^ 38 + d.pinCfg (16 * n + b.cpin) * 2 ^ 42
    let sent := match t with
      | some (p, _, _) => putBit on (p.ch % 16) p.state
      | none => on
    let b := { b with
      seq := (b.seq + 1) % 256, cpin := if b.cmds = [] then (b.cpin + 1) % 16 else b.cpin, cmds := b.cmds.drop 1
      down := some (barrierFrame (on + tbits + b.seq * 2 ^ 27 + cmd)), sent := sent }
    let d := d.setBank n b
    let d := (d.setF F.FIO_DRV_DRV n sent).setF F.FIO_DRV_CANARY n (bits d.canaryMask (16 * n) 16)
    match t with
    | some (p, _, late) => d.powDone p late
    | none => d
  else d

/-! ### The field side (R290, R291, R293, R294, R299, R301 to R305) -/

/-- Whether a pin of the field side is an output. -/
def Field.isOut (f : Field) (p : Nat) : Bool := SMap.getD f.cfg p 0 % 2 == 1

/-- The driver of a pin: off in UV-OFF, latched (R309), or released by CLEAR with this frame (R294). -/
def Field.driver (f : Field) (p : Nat) : Bool :=
  f.powered && f.isOut p && f.drv.testBit p && !(f.latched.testBit p) && !(f.freed.testBit p) && !f.uvOff

/-- Takes driver states: an output commanded OFF while it waits for its retry has the retry cancelled and its latch released (R294). -/
def Field.command (f : Field) (drv : Nat) : Field :=
  let off := f.latched &&& (0xFFFF - drv) &&& (0xFFFF - f.perm)
  { f with drv := drv, latched := f.latched - off, retry := f.retry.filter fun e => !(off.testBit e.1) }

/-- The timed transition that waits is executed (R297). -/
def Field.transit (f : Field) : Field :=
  match f.timed with
  | some (p, b) => { (f.command (putBit f.drv p b)) with timed := none }
  | none => f

/-- A nanosecond of the field side: retry timers count unless it holds its outputs or is in UV-OFF (R530). -/
def Field.tick (f : Field) : Field :=
  if f.held ∨ f.uvOff then f else { f with retry := f.retry.map fun e => (e.1, e.2 + 1) }

/-- A nanosecond of every field side. -/
def Dev.fieldTick (d : Dev) : Dev := { d with field := d.field.map fun e => (e.1, e.2.tick) }

/-- CMD = CFG: the configuration of one pin. -/
def Field.cmdCfg (f : Field) (p : Nat) (cfg : Nat) : Field := { f with cfg := SMap.set f.cfg p cfg }

/-- CMD = INTERROGATE: the measurement sweep starts (R303). -/
def Field.cmdInterrogate (f : Field) : Field := { f with sweep := true, nib := none }

/-- CMD = CLEAR: the latches of the named pins are released and their counts are 0; their drivers stay off until the next frame (R294). -/
def Field.cmdClear (f : Field) (mask : Nat) : Field :=
  { f with
    latched := f.latched - (f.latched &&& mask), perm := f.perm - (f.perm &&& mask), freed := f.latched &&& mask
    retry := f.retry.filter fun e => !(mask.testBit e.1)
    events := f.events.map fun e => if mask.testBit e.1 then (e.1, 0) else e }

/-- Applies a good frame: its driver states, its timed transition and its command (R294, R297); a transition that still waits, at most
9 µs after its own frame, comes first. -/
def Field.apply (f : Field) (p : Nat) : Field :=
  let f := { f.transit with freed := 0 }
  let tv := p.testBit 21
  let pin := bits p 16 4
  let on := bits p 0 16
  let f := f.command (if tv then putBit on pin (f.drv.testBit pin) else on)
  let f := if tv then { f with timed := some (pin, p.testBit 20) } else f
  let cmd := bits p 35 3
  if cmd = 0 then f.cmdCfg (bits p 38 4) (bits p 42 16)
  else if cmd = 1 then f.cmdInterrogate
  else if cmd = 2 then f.cmdClear (bits p 42 16)
  else f

/-- The field side acts on a good frame; while it holds, the second of two with consecutive SEQ ends the hold (R299). -/
def Field.good (f : Field) (p : Nat) : Field :=
  let q := bits p 27 8
  let f' := { f with lastGood := some q, seq := q }
  if !f.held then f'.apply p
  else match f.lastGood with
    | some r => if q = (r + 1) % 256 then { (f'.apply p) with held := false } else f'
    | none => f'

/-- The frame in flight reaches the field side, with the errors of the wire (R296). -/
def Dev.downlink (d : Dev) (n : Nat) (err : BitVec 80) : Dev :=
  match (d.bank n).down with
  | none => d
  | some w =>
    let d := d.setBank n { d.bank n with down := none }
    let f := d.fieldSide n
    if !f.powered then d
    else match framePayload (w ^^^ err) with
      | some p => d.setField n (f.good p)
      | none => (d.setField n { f with lastGood := none }).incF F.FIO_CNT_CRC n

/-- The command of the frame in flight, if it arrives good. -/
def Dev.downCmd (d : Dev) (n : Nat) (err : BitVec 80) : Option Nat :=
  ((d.bank n).down.bind fun w => framePayload (w ^^^ err)).map fun p => bits p 35 3

/-- DOWNLINK_RECEIVE: the frame in flight reaches the field side, which acts on a good one (R295, R299). -/
def execDownlinkReceive (n : Fin 4) (err : BitVec 80) (s : State) : Out := s.up fun d => d.downlink n err

/-- CMD_CFG: the frame in flight carries CFG and arrives good; the field side takes it. -/
def execCmdCfg (n : Fin 4) (s : State) : Out := s.up fun d => if d.downCmd n 0 = some 0 then d.downlink n 0 else d

/-- CMD_INTERROGATE: the frame in flight carries INTERROGATE and arrives good; the field side takes it. -/
def execCmdInterrogate (n : Fin 4) (s : State) : Out := s.up fun d => if d.downCmd n 0 = some 1 then d.downlink n 0 else d

/-- CMD_CLEAR: the frame in flight carries CLEAR and arrives good; the field side takes it. -/
def execCmdClear (n : Fin 4) (s : State) : Out := s.up fun d => if d.downCmd n 0 = some 2 then d.downlink n 0 else d

/-- BANKn_FAULT (R302). -/
def Dev.bankFault (d : Dev) (n : Nat) : Bool :=
  let b := d.bank n
  let brk := bits b.last 16 16
  let pins := (List.range 16).any fun p =>
    brk.testBit p && (d.pinCfg (16 * n + p) % 2 == 1 || (d.pinCfg (16 * n + p)).testBit 2)
  bits b.last 40 5 != 0 || pins || (d.fieldSide n).limit != 0 || b.silent || d.halfOff (bankHalf n)

/-- Brings BANKn_FAULT up to date: each edge is recorded, a rising one is flagged (R302). -/
def Dev.updateBank (d : Dev) (n : Nat) : Dev :=
  let new := d.bankFault n
  if d.bitF F.FIO_STAT_BANK_FAULT 0 n = new then d
  else
    let d := d.setF F.FIO_STAT_BANK_FAULT 0 (putBit (d.getF F.FIO_STAT_BANK_FAULT) n new)
    let d := if new then (d.flag F.FIO_STAT_BANK_FLT_S 0 n 14).trouble F.TRB_STICKY1_FIO_BANK else d
    d.record 0x0040 (0x220 + n) [(1, new.toNat), (1, bits (d.bank n).last 40 6)]

/-- An event of a field side, which runs in every mode, OFF included (R285); BANKn_FAULT follows it while the logic side has power. -/
def State.atField (s : State) (n : Nat) (f : Field → Field) : Out := s.run fun d =>
  let d := d.setField n (f (d.fieldSide n))
  if d.mode = .off then d else d.updateBank n

/-- TIMED_TRANSITION: TDLY expires, and the timed pin takes TSTATE (R297). -/
def execTimedTransition (n : Fin 4) (s : State) : Out := s.atField n Field.transit

/-- FIELD_SIDE_HOLD: three downlink frames in a row were missed or bad, and the field side holds its outputs (R299). -/
def execFieldSideHold (n : Fin 4) (s : State) : Out := s.atField n fun f =>
  if f.powered ∧ ¬f.held then { f with held := true, lastGood := none, silentS := true } else f

/-- CURRENT_LIMIT_ENTRY: an output enters current limit, and its integral runs (R293). -/
def execCurrentLimitEntry (n : Fin 4) (p : Fin 16) (s : State) : Out := s.atField n fun f =>
  if f.driver p then { f with limit := f.limit ||| 2 ^ p.val, energy := f.energy ||| 2 ^ p.val } else f

/-- CURRENT_LIMIT_EXIT: an output leaves current limit, and its integral stops (R293). -/
def execCurrentLimitExit (n : Fin 4) (p : Fin 16) (s : State) : Out := s.atField n fun f => { f with limit := putBit f.limit p false }

/-- CURRENT_LIMIT_LATCH: the integral of an output in current limit reaches the latch energy: an event; the fourth waits for
CLEAR (R293, R294). -/
def execCurrentLimitLatch (n : Fin 4) (p : Fin 16) (s : State) : Out := s.atField n fun f =>
  if f.limit.testBit p ∧ f.driver p then
    let e := SMap.getD f.events p 0 + 1
    { f with
      latched := f.latched ||| 2 ^ p.val, events := SMap.set f.events p e, limit := putBit f.limit p false
      perm := if 4 ≤ e then f.perm ||| 2 ^ p.val else f.perm
      retry := if 4 ≤ e then f.retry else SMap.set f.retry p 0 }
  else f

/-- LIMIT_ENERGY_RESET: out of current limit for 100 ms, an output's integral returns to 0 (R293). -/
def execLimitEnergyReset (n : Fin 4) (p : Fin 16) (s : State) : Out := s.atField n fun f =>
  if f.limit.testBit p then f else { f with energy := putBit f.energy p false }

/-- OUTPUT_RETRY: after 1 s of counted time since an event, an output still commanded on is driven again; the count stands still while
the field side holds or is in UV-OFF (R294, R530). -/
def execOutputRetry (n : Fin 4) (p : Fin 16) (s : State) : Out := s.atField n fun f =>
  if f.latched.testBit p ∧ ¬f.perm.testBit p ∧ f.drv.testBit p ∧ ¬f.held ∧ ¬f.uvOff ∧ 1000000000 ≤ SMap.getD f.retry p 0 then
    { f with latched := putBit f.latched p false, retry := SMap.erase f.retry p }
  else f

/-- EVENT_COUNT_RESET: on for 10 s without current limit, an output's event count returns to 0 (R294). -/
def execEventCountReset (n : Fin 4) (p : Fin 16) (s : State) : Out := s.atField n fun f =>
  if f.driver p ∧ ¬f.limit.testBit p then { f with events := SMap.set f.events p 0 } else f

/-- READBACK_MISMATCH: an output's readback has differed from its driver for 1 ms of counted time (R301). -/
def execReadbackMismatch (n : Fin 4) (p : Fin 16) (s : State) : Out := s.atField n fun f =>
  if f.powered ∧ f.isOut p ∧ f.rb.testBit p ≠ f.driver p ∧ ¬f.latched.testBit p ∧ ¬f.uvOff then { f with mis := f.mis ||| 2 ^ p.val } else f

/-- The cause word at the end of a sweep (R304). -/
def Field.causeWord (f : Field) (vfld : Nat) : Nat :=
  let brk := (List.range 16).foldl (fun v p => putBit v p (!(f.isOut p) && SMap.getD f.cls p 0 == 2)) 0
  f.mis + (f.limit ||| f.latched) * 2 ^ 16 + brk * 2 ^ 32 + f.uvw.toNat * 2 ^ 48 + f.uvoffS.toNat * 2 ^ 49 + f.inFail.toNat * 2 ^ 50
    + f.silentS.toNat * 2 ^ 51 + f.ot.toNat * 2 ^ 52 + (decide (f.perm ≠ 0)).toNat * 2 ^ 53 + vfld * 2 ^ 56

/-- INTERROGATION_SWEEP_DONE: the sweep ends with the field supply it measured, in 0.2 V units (R303, R304). -/
def execInterrogationSweepDone (n : Fin 4) (vfld : Byte) (s : State) : Out := s.atField n fun f =>
  if f.powered ∧ f.sweep then { f with sweep := false, cause := f.causeWord vfld.toNat, nib := some 0 } else f

/-- FIELD_SUPPLY_WARNING: the supply crosses the warning threshold (R305). -/
def execFieldSupplyWarning (n : Fin 4) (below : Bool) (s : State) : Out := s.atField n fun f => { f with uvw := below }

/-- FIELD_INPUT_FAIL: the supply crosses the input fail threshold (R305). -/
def execFieldInputFail (n : Fin 4) (below : Bool) (s : State) : Out := s.atField n fun f => { f with inFail := below }

/-- FIELD_UV_OFF: the supply falls below 12.0 V; every driver turns off and UV-OFF latches (R305). -/
def execFieldUvOff (n : Fin 4) (s : State) : Out := s.atField n fun f => { f with uvOff := true, uvoffS := true, limit := 0 }

/-- UV_OFF_RELEASE: the supply rises above 18.5 V, and commanded outputs are driven again (R305). -/
def execUvOffRelease (n : Fin 4) (s : State) : Out := s.atField n fun f => if f.powered then { f with uvOff := false } else f

/-- FIELD_SIDE_RESET: the supply falls below 10.0 V; the field side is in reset with its outputs off (R305). -/
def execFieldSideReset (n : Fin 4) (s : State) : Out := s.atField n fun _ => {}

/-- FIELD_SIDE_RESET_RELEASE: the field side starts with inputs failed, UV-OFF latched and every previous class OFF (R305). -/
def execFieldSideResetRelease (n : Fin 4) (s : State) : Out := s.atField n fun f =>
  if f.powered then f else { ({} : Field) with powered := true }

/-- FIELD_OVERTEMP: the field side's overtemperature, as its uplink flags report it (R298). -/
def execFieldOvertemp (n : Fin 4) (on : Bool) (s : State) : Out := s.atField n fun f => { f with ot := on }

/-- The class of an input from its voltage (mV) and current (µA) (R290, R291). -/
def classify (cfg prev : Nat) (mv ua : Int) : Nat :=
  if cfg.testBit 2 then
    if 2000 < ua then 1 else if 300 ≤ ua ∧ ua ≤ 1500 then 0 else if ua < 200 then 2 else prev
  else if (if cfg.testBit 1 then 11000 else 15000) < mv then 1 else if mv < 5000 then 0 else if prev = 2 then 0 else prev

/-- The readback of an output: high above the high threshold, low below the low one; `any` stands for the part's own thresholds
within their limits (R289, R529). -/
def readback (was : Bool) (mv : Int) (any : Bool) : Bool :=
  if 10000 < mv then true else if mv < 5000 then false
  else if !was && 7500 < mv then any else if was && mv < 7000 then any else was

/-- UPLINK_FRAME: the field side classifies its pins from their voltage and current, samples readback and sends its frame; a
finished cause word goes out nibble by nibble (R290, R291, R298, R303, R304). -/
def execUplinkFrame (n : Fin 4) (pins : List (Int × Int)) (s : State) : Out :=
  s.upWf (pins.length == 16) fun d =>
    let f := d.fieldSide n
    if !f.powered then d
    else
      let any := d.peekFree
      let d := d.draw
      let cls := pins.zipIdx.foldl (fun m x =>
        let c := SMap.getD f.cfg x.2 0
        if c % 2 = 1 then m else SMap.set m x.2 (classify c (SMap.getD f.cls x.2 0) x.1.1 x.1.2)) f.cls
      let rb := pins.zipIdx.foldl (fun v x => if f.isOut x.2 then putBit v x.2 (readback (f.rb.testBit x.2) x.1.1 (any.testBit x.2)) else putBit v x.2 false) 0
      let f := { f with cls := cls, rb := rb }
      let mis := (List.range 16).foldl (fun v p =>
        putBit v p (f.mis.testBit p && f.isOut p && rb.testBit p != f.driver p && !(f.latched.testBit p) && !f.uvOff)) 0
      let level := (List.range 16).foldl (fun v p => putBit v p (if f.isOut p then rb.testBit p else SMap.getD cls p 0 == 1)) 0
      let brk := (List.range 16).foldl (fun v p => putBit v p (if f.isOut p then f.latched.testBit p else SMap.getD cls p 0 == 2)) 0
      let nib := match f.nib with
        | some k => 2 ^ 45 + k * 2 ^ 46 + bits f.cause (4 * k) 4 * 2 ^ 50
        | none => 0
      let payload := level + brk * 2 ^ 16 + f.seq * 2 ^ 32 + f.uvw.toNat * 2 ^ 40 + f.uvOff.toNat * 2 ^ 41 + f.inFail.toNat * 2 ^ 42
        + f.ot.toNat * 2 ^ 43 + (decide (mis ≠ 0)).toNat * 2 ^ 44 + nib
      let last := f.nib = some 15
      let f := { f with
        mis := mis, nib := if last then none else f.nib.map (· + 1)
        uvoffS := f.uvoffS && !(decide last), silentS := f.silentS && !(decide last) }
      (d.setField n f).setBank n { d.bank n with up := some (barrierFrame payload) }

/-! ### Inputs and bank faults (R292, R300, R302) -/

/-- The fail value of an input channel (R207). -/
def Dev.failValue (d : Dev) (c : Nat) : Nat :=
  ((d.seam.design.io.find? fun r => r.ch == c && r.dir == 0).map fun r => r.flags / 2 % 2).getD 0

/-- Writes the input points of a bank as they stand (R292). -/
def Dev.refreshInputs (d : Dev) (n : Nat) : Dev :=
  let b := d.bank n
  (List.range 16).foldl (fun d p =>
    let c := 16 * n + p
    if d.pinCfg c % 2 = 1 then d
    else
      let fail : PtV := ⟨d.failValue c, 0x22, 0⟩
      let v : Option PtV := if b.silent ∨ b.last.testBit 42 then some fail
        else match (SMap.getD b.filt p {}).state with
          | some 2 => some fail
          | some s => some ⟨s, 1, 0⟩
          | none => none
      match v with
      | some v => d.setSeam { d.seam with fieldIn := SMap.set d.seam.fieldIn c v }
      | none => d) d

/-- The FILT time in ns (R286). -/
def filtTime (code : Nat) : Nat :=
  if code = 0 then 10000 else if code = 1 then 100000 else if code = 2 then 500000 else if code = 3 then 1000000
  else if code = 4 then 2000000 else if code = 5 then 5000000 else if code = 6 then 10000000 else 20000000

/-- A new filtered state of an input: held, shown, recorded with LOG, written to its points (R292). -/
def Dev.inputState (d : Dev) (n p st stamp : Nat) : Dev :=
  let b := d.bank n
  let x := SMap.getD b.filt p {}
  let d := d.setBank n { b with filt := SMap.set b.filt p { x with state := some st } }
  let d := if d.pinCfg (16 * n + p) / 64 % 2 = 1 then
      d.requestRecord { typ := 0x0041, src := 0x220 + n, tsc := stamp, fields := [(1, p), (1, st)] }
    else d
  d.refreshInputs n

/-- The class of an input pin in the latest good frame. -/
def frameClass (payload p : Nat) : Nat := if payload.testBit (16 + p) then 2 else (payload.testBit p).toNat

/-- Takes a good uplink payload: classes and runs of the inputs, event counts, flags, a nibble of a cause word. -/
def Dev.uplink (d : Dev) (n payload : Nat) : Dev :=
  let b := d.bank n
  let newLatch := bits payload 16 16 &&& (0xFFFF - bits b.last 16 16)
  let events := (List.range 16).countP fun p => newLatch.testBit p && d.pinCfg (16 * n + p) % 2 == 1
  let d := d.addF F.FIO_CNT_EVENTS n events
  let good := b.good + 1
  let clears := b.silent && decide (2 ≤ good)
  let b := { b with last := payload, good := good, silent := b.silent && !clears, filt := if clears then [] else b.filt }
  let d := d.setBank n b
  let d := if clears then d.setF F.FIO_STAT_SILENT 0 (putBit (d.getF F.FIO_STAT_SILENT) n false) else d
  let d := if b.silent then d
    else (List.range 16).foldl (fun d p =>
      if d.pinCfg (16 * n + p) % 2 = 1 then d
      else
        let b := d.bank n
        let x := SMap.getD b.filt p {}
        let c := frameClass payload p
        let run := match x.run with
          | some (c', t) => if c' = c then (c', t) else (c, d.tsc)
          | none => (c, d.tsc)
        let d := d.setBank n { b with filt := SMap.set b.filt p { x with run := some run } }
        if c = 2 ∧ x.state ≠ some 2 then d.inputState n p 2 d.tsc else d) d
  let d := if payload.testBit 45 ∧ d.getB F.FIO_BSTAT_INTG_BUSY n then
      let k := bits payload 46 4
      let b := d.bank n
      let w := b.word - bits b.word (4 * k) 4 * 2 ^ (4 * k) + bits payload 50 4 * 2 ^ (4 * k)
      let d := d.setBank n { b with word := w }
      if k = 15 then ((d.setF F.FIO_CAUSE_CAUSE n w).setF F.FIO_BSTAT_INTG_BUSY n 0).setF F.FIO_BSTAT_INTG_DONE n 1 else d
    else d
  (d.refreshInputs n).updateBank n

/-- UPLINK_RECEIVE: the frame in flight reaches the logic side, with the errors of the wire (R296, R300). -/
def execUplinkReceive (n : Fin 4) (err : BitVec 80) (s : State) : Out := s.up fun d =>
  match (d.bank n).up with
  | none => d
  | some w =>
    let d := d.setBank n { d.bank n with up := none }
    if !(d.bankRuns n) then d
    else match framePayload (w ^^^ err) with
      | some p => d.uplink n p
      | none => (d.setBank n { d.bank n with good := 0 }).incF F.FIO_CNT_CRC n

/-- INPUT_FILTER_CHANGE: every frame for the FILT time has carried the class (R292). -/
def execInputFilterChange (n : Fin 4) (p : Fin 16) (s : State) : Out := s.up fun d =>
  let x := SMap.getD (d.bank n).filt p {}
  match x.run with
  | some (c, t) =>
    if d.bankRuns n ∧ c ≠ 2 ∧ x.state ≠ some c ∧ t + filtTime (d.pinCfg (16 * n + p) / 8 % 8) ≤ d.tsc + 10000 then d.inputState n p c t else d
  | none => d

/-- An interrogation that runs is cut short: the word 0 and INTG_FAIL (R303). -/
def Dev.intgCut (d : Dev) (n : Nat) : Dev :=
  if d.getB F.FIO_BSTAT_INTG_BUSY n then
    ((d.setF F.FIO_BSTAT_INTG_BUSY n 0).setF F.FIO_CAUSE_CAUSE n 0).setF F.FIO_BSTAT_INTG_FAIL n 1
  else d

/-- BANK_SILENT: three uplink frames in a row were missed or bad (R300, R303). -/
def execBankSilent (n : Fin 4) (s : State) : Out := s.up fun d =>
  let b := d.bank n
  if d.bankRuns n ∧ ¬b.silent then
    let d := d.setBank n { b with silent := true, good := 0 }
    let d := (d.setF F.FIO_STAT_SILENT 0 (putBit (d.getF F.FIO_STAT_SILENT) n true)).incF F.FIO_CNT_SILENCES n
    ((d.intgCut n).refreshInputs n).updateBank n
  else d

/-! ### Commands from registers (R294, R303) -/

/-- A write of FIO_INTG.GO. -/
def Dev.interrogate (d : Dev) (n : Nat) : Dev :=
  if d.getB F.FIO_BSTAT_INTG_BUSY n then d.setBit F.FIO_STAT_INTG_REJ 0 n
  else
    let b := d.bank n
    (d.setBank n { b with cmds := b.cmds ++ [(1, 0)], word := 0 }).setF F.FIO_BSTAT_INTG_BUSY n 1

/-- A commit of FIO_CLRMASK sends CLEAR for pins of BANK. -/
def Dev.fioClear (d : Dev) : Dev :=
  let n := d.getF F.FIO_CLRSEL_BANK
  let b := d.bank n
  d.setBank n { b with cmds := b.cmds ++ [(0, d.getF F.FIO_CLRMASK_MASK)] }

/-- BARRIER_START: the logic side begins its frames, with the Canary's outputs configured (R308, R313). -/
def execBarrierStart (s : State) : Out := s.up fun d =>
  if d.fio.started then d else ({ d with fio := { d.fio with started := true } }).updateCanary

/-! ### Images and point-on-wave (R306, R316, R317) -/

/-- The start of the latest frame of a bank whose action instant falls at or before a TSC (R295, R316). -/
def frameFor (n tf : Nat) : Nat := let x := tf - 8000 - 2000 * n; x - x % 10000 + 2000 * n

/-- A new entry of a lump: refused more than 16 cycles ahead, otherwise pending; one whose issue angle has already passed fires at the next
tick, LATE (R84, R316). -/
def Dev.acceptEntry (d : Dev) (e : Nat × Bool × Nat × Nat) : Dev :=
  let (ch, st, clk, at_) := e
  let a := d.angle clk
  let d := { d with fio := { d.fio with seen := d.fio.seen ++ [e] } }
  if (16 * 65536 : Int) < sgn 48 (at_ + 2 ^ 48 - a.time) then
    (d.setF F.FIO_STAT_SCHED_RANGE 0 1).record 0x0045 0x224 [(1, ch), (1, st.toNat), (1, clk), (6, at_)]
  else
    let opt := ((d.seam.design.io.find? fun r => r.ch == ch && r.dir == 1).map fun r => r.optime).getD 0
    let ofs := (2 * opt * a.freq + 1000000) / 2000000
    let ai := (at_ + 2 ^ 48 - ofs % 2 ^ 48) % 2 ^ 48
    let tf := d.tsc - d.tsc % 8 + 8
    let fixed := if d.passed clk ai then some (tf, frameFor (ch / 16) tf, true) else none
    { d with fio := { d.fio with pows := d.fio.pows ++ [⟨ch, st, clk, at_, ai, fixed⟩] } }

/-- A SEAM→FIO lump reaches FIO: its image supersedes the pit's last; a closed gate discards its transitions (R21, R23, R306). -/
def Dev.fioImage (d : Dev) (pit : Nat) (on driven : Nat) (sched : List (Nat × Bool × Nat × Nat)) : Dev :=
  if !(d.getB F.HFR_GATE_OPEN) then { d with fio := { d.fio with pows := [], seen := [] } }
  else
    let d := { d with fio := { d.fio with img := SMap.set d.fio.img pit (on, driven) } }
    let live := d.fio.seen.filter fun e => !(d.passed e.2.2.1 e.2.2.2) || d.fio.pows.any fun p => p.ch == e.1 && p.at_ == e.2.2.2
    let d := { d with fio := { d.fio with seen := live } }
    sched.foldl (fun d e => if d.fio.seen.contains e then d else d.acceptEntry e) d

/-- POW_TRANSITION_FIX: the issue angle of a channel's next transition is less than 200 µs ahead (R316): t_f is when R84 fires it. -/
def execPowTransitionFix (c : Fin 64) (s : State) : Out := s.up fun d =>
  let mine := d.fio.pows.filter fun p => p.ch == c.val && p.fixed.isNone
  let next := mine.foldl (fun b p => match b with
    | none => some p
    | some q => if sgn 48 (p.at_ + 2 ^ 48 - q.at_) < 0 then some p else some q) none
  match next with
  | none => d
  | some p =>
    let r := (d.angle p.clk).convert d.tsc p.ai
    let tf := (r.1 + 500) / 1000 * 1000
    if r.2 ≠ 2 ∧ r.1 < d.tsc + 200000 then
      { d with fio := { d.fio with pows := d.fio.pows.map fun q => if q = p then { q with fixed := some (tf, frameFor (c.val / 16) tf, false) } else q } }
    else d

/-- A half fails: its logic sides send nothing (R299), an interrogation that runs ends as one cut short (R303). -/
def Dev.bankHalfLost (d : Dev) (h : Half) : Dev :=
  ((List.range 4).filter fun n => bankHalf n == h).foldl (fun d n =>
    let d := ((d.setBank n {}).intgCut n).setF F.FIO_STAT_SILENT 0 (putBit (d.getF F.FIO_STAT_SILENT) n false)
    (d.setF F.FIO_BSTAT_OFFLINE n 1).updateBank n) d

/-- The logic sides of a readmitted half. -/
def Dev.bankHalfBack (d : Dev) (h : Half) : Dev :=
  ((List.range 4).filter fun n => bankHalf n == h).foldl (fun d n => (d.setF F.FIO_BSTAT_OFFLINE n 0).updateBank n) d

end Sys2Proof.Machine
end

