-- ==== Sys2Proof/Machine/Net.lean ====
section
/-!
DEFINITION. Network ports, PTP, the calendar servo and the launch queues; and a step of CAL with all it does.
-/
namespace Sys2Proof.Machine

/-- Replaces the network. -/
def Dev.setNet (d : Dev) (x : Net) : Dev := { d with net := x }
/-- A port. -/
def Dev.netPort (d : Dev) (p : Nat) : NetPort := SMap.getD d.net.ports p {}
/-- Replaces a port. -/
def Dev.setPort (d : Dev) (p : Nat) (x : NetPort) : Dev := d.setNet { d.net with ports := SMap.set d.net.ports p x }
/-- A launch queue. -/
def Dev.lqueue (d : Dev) (i : Nat) : LQueue := SMap.getD d.net.lq i {}
/-- Replaces a launch queue. -/
def Dev.setLq (d : Dev) (i : Nat) (x : LQueue) : Dev := d.setNet { d.net with lq := SMap.set d.net.lq i x }
/-- A PTP port. -/
def Dev.ptpPort (d : Dev) (p : Nat) : PtpPort := SMap.getD d.net.ptp p {}
/-- Replaces a PTP port. -/
def Dev.setPtp (d : Dev) (p : Nat) (x : PtpPort) : Dev := d.setNet { d.net with ptp := SMap.set d.net.ptp p x }
/-- Replaces the servo. -/
def Dev.setServo (d : Dev) (x : Servo) : Dev := d.setNet { d.net with servo := x }
/-- The half of a port (R381). -/
def portHalf (p : Nat) : Half := if p % 2 = 0 then .north else .south
/-- Whether a port has link (R383). -/
def Dev.portUp (d : Dev) (p : Nat) : Bool := d.bitF F.NET_STAT_LINK 0 p && !(d.halfOff (portHalf p))
/-- Whether a port takes part at all: enabled, powered, with link; in HOLD the optics of C and D are off (R462). -/
def Dev.portOn (d : Dev) (p : Nat) : Bool :=
  d.bitF F.NET_CTL_PEN 0 p && d.portUp p && decide (d.mode ≠ .off ∧ ¬(d.mode = .hold ∧ 2 ≤ p))
/-- Whether a port carries other frames than PTP in a mode (R462). -/
def portServes (m : Mode) (p : Nat) : Bool :=
  match m with
  | .commission => true
  | .protect => true
  | .degraded => true
  | .hold => decide (p < 2)
  | .safe => decide (2 ≤ p)
  | _ => false
/-- Whether a port's pair runs PRP (1) or HSR (2) (NET_CTL). -/
def Dev.pairMode (d : Dev) (p : Nat) : Nat := if p < 2 then d.getF F.NET_CTL_AB_MODE else d.getF F.NET_CTL_CD_MODE
/-- The calendar at a TSC in 1/16 ns, in 1/16 ns. -/
def Dev.cal16 (d : Dev) (t16 : Nat) : Int :=
  let s := calSegAt d.clk.cal (t16 / 16)
  (16 * (s.acc : Int) + ((t16 : Int) - 16 * s.tsc) * (2 ^ 40 + s.rate)) / 2 ^ 40
/-- The low 32 bits of CAL now (R69). -/
def Dev.shortCal (d : Dev) : Nat := d.cal % 2 ^ 32

/-! ### Time-stamps (R385) -/

/-- The receive stamp at the connector, in 1/16 ns of TSC: ingress correction and, on PTP event messages, ASYM. -/
def Dev.rxStamp (d : Dev) (p mac : Nat) : Nat :=
  ((mac : Int) - (if p < 2 then 666 else 3392) + 16 * sgn 16 (d.getF F.PTP_ASYM_ASYM p)).toNat

/-- The transmit stamp at the connector. -/
def txStamp (p mac : Nat) : Nat := mac + if p < 2 then 294 else 1536

/-! ### Launch queues (R397 to R403) -/

/-- The address of a descriptor. -/
def LQueue.descAddr (q : LQueue) (ix : Nat) : Nat := q.base + 32 * ix

/-- Whether a queue's ring and frames lie in host memory. -/
def lqHost (i : Nat) : Bool := decide (48 ≤ i % 64 ∧ i % 64 ≤ 62)

/-- Writes bytes where a queue's ring lies. -/
def Dev.lqWrite (d : Dev) (i addr : Nat) (bs : List Byte) : Dev :=
  { d with out := d.out ++ [if lqHost i then Output.hostWrite addr bs else Output.dramWrite addr bs] }

/-- Takes completed descriptors off the front of a queue; HEAD advances over them. -/
def lqAdvance (i : Nat) : Nat → Dev → Dev
  | 0, d => d
  | n + 1, d =>
    let q := d.lqueue i
    match q.ents with
    | e :: es =>
      if e.st = 4 then
        lqAdvance i n ((d.setLq i { q with ents := es }).setF F.NET_LQSTAT_HEAD i ((d.getF F.NET_LQSTAT_HEAD i + 1) % 2 ^ q.size))
      else d
    | [] => d

/-- Completes a descriptor: bytes 16 to 31 are written, then FLAGS with OWN = 0 (R398, R402). -/
def Dev.lqComplete (d : Dev) (i ix status tx : Nat) : Dev :=
  let q := d.lqueue i
  match q.ents.find? fun e => e.ix == ix && e.st != 4 with
  | none => d
  | some e =>
    let a := q.descAddr ix
    let d := d.lqWrite i (a + 16) (packFields [(4, tx), (1, status), (11, 0)])
    let d := d.lqWrite i (a + 10) (le 2 (2 * e.desc.timed.toNat))
    let d := if status = 1 ∨ status = 2 then d.incF F.NET_LQSTAT_LATE i else if status = 3 then d.incF F.NET_LQSTAT_DELAYED i else d
    let ents := q.ents.map fun x => if x.ix = ix then { x with st := 4, status := status } else x
    lqAdvance i ents.length (d.setLq i { q with ents := ents })

/-- Replaces the first descriptor of a queue. -/
def Dev.setFront (d : Dev) (i : Nat) (f : LqEnt → LqEnt) : Dev :=
  let q := d.lqueue i
  match q.ents with
  | e :: es => d.setLq i { q with ents := f e :: es }
  | [] => d

/-- Evaluates the eligible descriptor of a queue, and those after it while they complete at once (R398). -/
def lqEval (i : Nat) : Nat → Dev → Dev
  | 0, d => d
  | n + 1, d =>
    let q := d.lqueue i
    match q.ents with
    | e :: _ =>
      let len := e.desc.len.toNat
      let x := sgn 32 (e.desc.launch.toNat + 2 ^ 32 - d.shortCal)
      if e.st ≠ 0 then d
      else if len = 0 then lqEval i n (d.lqComplete i e.ix 7 0)
      else if len < 60 ∨ 1518 < len then lqEval i n (d.lqComplete i e.ix 8 0)
      else if !e.desc.timed then d.setFront i fun e => { e with st := 2 }
      else if x < 0 then
        if q.latepol then lqEval i n (d.lqComplete i e.ix 2 0) else d.setFront i fun e => { e with st := 2, status := 1 }
      else if x ≤ 1000000000 then d.setFront i fun e => { e with st := 1 }
      else lqEval i n (d.lqComplete i e.ix 4 0)
    | [] => d

/-- How far ahead a descriptor's LAUNCH lies. -/
def Dev.ahead (d : Dev) (e : LqEnt) : Int := sgn 32 (e.desc.launch.toNat + 2 ^ 32 - d.shortCal)

/-- The first descriptors of a port's queues; in SAFE queue 63 alone is served (R462). -/
def Dev.fronts (d : Dev) (p : Nat) : List (Nat × LqEnt) :=
  (d.net.lq.filter fun x => x.1 / 64 == p && (d.mode != .safe || x.1 % 64 == 63)).filterMap fun x => x.2.ents.head?.map fun e => (x.1, e)

/-- The frame a free port sends next (R399): a timed frame that is due, earliest LAUNCH and lowest queue first; otherwise the untimed
frame of the lowest queue, unless it would overlap the launch of a held one. -/
def Dev.pick (d : Dev) (p : Nat) : Option (Nat × LqEnt) :=
  let fs := d.fronts p
  let there (x : Nat × LqEnt) : Bool := !(lqHost x.1) || x.2.read
  let due := fs.filter fun x => there x && ((x.2.st == 1 && decide (d.ahead x.2 ≤ 0)) || (x.2.st == 2 && x.2.desc.timed))
  let best := due.foldl (fun (b : Option (Nat × LqEnt)) x => match b with
    | none => some x
    | some y => if d.ahead x.2 < d.ahead y.2 then some x else some y) none
  match best with
  | some x => some x
  | none =>
    match fs.find? fun x => there x && x.2.st == 2 with
    | none => none
    | some x =>
      let bytes := x.2.desc.len.toNat + 24
      let dur : Nat := if p < 2 then (bytes * 8 + 9) / 10 else bytes * 8
      if fs.any fun y => y.2.st == 1 && decide (d.ahead y.2 < dur) then none else some x

/-- A free port starts its next frame; with no link at any port of the queue it completes as LINKDOWN (R397, R399, R403). -/
def portPick (p : Nat) (after : Bool) : Nat → Dev → Dev
  | 0, d => d
  | n + 1, d =>
    if (d.netPort p).busy.isSome ∨ ¬portServes d.mode p then d
    else
      match d.pick p with
      | none => d
      | some (i, e) =>
        let ports := ((if d.pairMode p = 0 then [p] else [p, p + 1]).filter d.portOn)
        if ports = [] then portPick p after n (lqEval i 4096 (d.lqComplete i e.ix 6 0))
        else
          let status := if e.st = 1 then (if after ∧ d.ahead e < 0 then 3 else e.status) else e.status
          let d := d.setFront i fun e => { e with st := 3, status := status }
          let bad := !(lqHost i) && d.poisonIn 0 e.desc.buf.toNat e.desc.len.toNat
          let d := { d with out := d.out ++ ports.map fun x => Output.frame x (i % 64) e.ix e.desc.len.toNat bad }
          let d := if bad then d.trouble F.TRB_STICKY3_POISON else d
          d.setPort p { d.netPort p with busy := some (i, e.desc.timed) }

/-- The queue goes on: its next descriptor is evaluated and its port picks. -/
def Dev.lqRun (d : Dev) (i : Nat) : Dev := portPick (i / 64) false 64 (lqEval i 4096 d)

/-- Posts the descriptors up to a new tail (R398): of a queue in DRAM, as they stand in its ring; those of a host's queue are yet to
be read (R402). -/
def Dev.lqPost (d : Dev) (i : Nat) (descs : List LqDesc) : Dev :=
  let q := { d.lqueue i with stopped := false }
  if !q.en then d
  else if lqHost i then d.setLq i q
  else
    let n := (d.getF F.NET_LQTAIL_TAIL i + 2 ^ q.size - q.next) % 2 ^ q.size
    let new : List LqEnt := (descs.take n).zipIdx.map fun p => ({ ix := (q.next + p.2) % 2 ^ q.size, desc := p.1, read := true } : LqEnt)
    (d.setLq i { q with ents := q.ents ++ new, next := (q.next + new.length) % 2 ^ q.size }).lqRun i

/-- FRAME_LAUNCH: a held frame of a port falls due and is sent, or waits as DELAYED behind another (R399). -/
def execFrameLaunch (p : Fin 4) (s : State) : Out := s.up fun d =>
  let due := (d.fronts p).filter fun x => x.2.st == 1 && decide (d.ahead x.2 ≤ 0)
  if due = [] then d
  else if (d.netPort p).busy.isSome then
    due.foldl (fun d x => d.setFront x.1 fun e => { e with status := 3 }) d
  else portPick p false 64 d

/-- FRAME_TRANSMIT_DONE: a port's frame has left, with the MAC's transmit stamp in 1/16 ns; its descriptor completes (R385, R398). -/
def execFrameTransmitDone (p : Fin 4) (stamp : BitVec 68) (s : State) : Out := s.up fun d =>
  match (d.netPort p).busy with
  | none => d
  | some (i, _) =>
    let d := d.setPort p { d.netPort p with busy := none }
    let d := match (d.lqueue i).ents with
      | e :: _ =>
        let tx := (d.cal16 (txStamp p stamp.toNat) / 16 % 2 ^ 32).toNat
        if e.st = 3 then lqEval i 4096 (d.lqComplete i e.ix e.status tx) else d
      | [] => d
    portPick p true 64 d

/-- Whether the data link is up (DMA_LINK). -/
def Dev.hostUp (d : Dev) : Bool := d.getB F.DMA_LINK_UP

/-- HOST_FRAME_READ_DONE: the next descriptor of a host's queue has been read (`some`), or the frame of its first one (R402). -/
def execHostFrameReadDone (p : Fin 4) (q : Fin 64) (desc : Option LqDesc) (s : State) : Out := s.up fun d =>
  let i := 64 * p.val + q.val
  let x := d.lqueue i
  if ¬lqHost i ∨ ¬d.hostUp ∨ ¬x.en ∨ x.stopped then d
  else
    match desc with
    | some k =>
      if x.next = d.getF F.NET_LQTAIL_TAIL i % 2 ^ x.size then d
      else
        let d := d.setLq i { x with ents := x.ents ++ [{ ix := x.next, desc := k }], next := (x.next + 1) % 2 ^ x.size, stale := x.stale - 1 }
        (if 0 < x.stale ∧ k.timed then d.lqComplete i x.next 5 0 else d).lqRun i
    | none => (d.setFront i fun e => { e with read := true }).lqRun i

/-- HOST_READ_FAULT: a read of a host's queue fails or takes 50 ms: the frame's descriptor completes as HOSTFAULT, or the queue stops at a
descriptor that could not be read (R402). -/
def execHostReadFault (p : Fin 4) (q : Fin 64) (frame : Bool) (s : State) : Out := s.up fun d =>
  let i := 64 * p.val + q.val
  let x := d.lqueue i
  if ¬lqHost i ∨ ¬d.hostUp ∨ ¬x.en then d
  else if frame then
    match x.ents with
    | e :: _ =>
      if e.read ∨ e.st = 3 then d else ((d.trouble F.TRB_STICKY0_DMA_FAULT).lqComplete i e.ix 9 0).lqRun i
    | [] => d
  else if x.next = d.getF F.NET_LQTAIL_TAIL i % 2 ^ x.size then d
  else (d.trouble F.TRB_STICKY0_DMA_FAULT).setLq i { x with stopped := true }

/-- HOST_FRAME_LATE: 20 µs before its LAUNCH a timed host frame has not been read in full: it will be sent when it has been, or is dropped (R402). -/
def execHostFrameLate (p : Fin 4) (q : Fin 64) (s : State) : Out := s.up fun d =>
  let i := 64 * p.val + q.val
  let x := d.lqueue i
  match x.ents with
  | e :: _ =>
    if lqHost i ∧ e.st = 1 ∧ ¬e.read ∧ d.ahead e ≤ 20000 then
      if x.latepol then (d.lqComplete i e.ix 2 0).lqRun i else d.setFront i fun e => { e with st := 2, status := 1 }
    else d
  | [] => d

/-- At a step of CAL, every timed descriptor that has been posted and not started completes as STEPPED (R401). -/
def Dev.lqStepped (d : Dev) : Dev :=
  d.net.lq.foldl (fun d x =>
    let d := x.2.ents.foldl (fun d e => if e.desc.timed ∧ e.st < 3 then d.lqComplete x.1 e.ix 5 0 else d) d
    let q := d.lqueue x.1
    (d.setLq x.1 { q with stale := (d.getF F.NET_LQTAIL_TAIL x.1 + 2 ^ q.size - q.next) % 2 ^ q.size }).lqRun x.1) d

/-- On an endpoint reset, descriptors of host queues that have not started are abandoned and HEAD is set to TAIL (R402). -/
def Dev.lqAbandon (d : Dev) : Dev :=
  d.net.lq.foldl (fun d x =>
    if lqHost x.1 then
      let tail := d.getF F.NET_LQTAIL_TAIL x.1 % 2 ^ x.2.size
      (d.setLq x.1 { x.2 with ents := [], next := tail, stale := 0 }).setF F.NET_LQSTAT_HEAD x.1 tail
    else d) d

/-- Whether a commit of NET_LQCFG is refused: queue 63 by anyone but Headframe, or an unused queue of a pair (R403). -/
def Dev.lqBroken (d : Dev) (req : Requester) : Bool :=
  let p := d.getF F.NET_LQSEL_PORT
  (d.getF F.NET_LQSEL_QUEUE == 63 && req != .headframe) ||
    (d.getB F.NET_LQCFG_EN && decide (p % 2 = 1 ∧ d.pairMode p ≠ 0)) || d.getF F.NET_LQBA0_BA % 64 != 0

/-- A commit of NET_LQCFG configures the queue that NET_LQSEL names and sets its HEAD and TAIL to 0. -/
def Dev.lqCommitted (d : Dev) : Dev :=
  let i := 64 * d.getF F.NET_LQSEL_PORT + d.getF F.NET_LQSEL_QUEUE
  let q : LQueue :=
    { en := d.getB F.NET_LQCFG_EN, latepol := d.getB F.NET_LQCFG_LATEPOL, size := d.getF F.NET_LQCFG_SIZE
      base := d.getF F.NET_LQBA0_BA + 2 ^ 16 * d.getF F.NET_LQBA1_BA + 2 ^ 32 * d.getF F.NET_LQBA2_BA }
  ((d.setLq i q).setF F.NET_LQTAIL_TAIL i 0).setF F.NET_LQSTAT_HEAD i 0

/-- On LOGLOSS, Headframe posts the alarm frame untimed in queue 63 of ports C and D, and the event is passed to Gallery (R403). -/
def Dev.postAlarm (d : Dev) : Dev :=
  let d := { d with out := d.out ++ [.logLoss] }
  [191, 255].foldl (fun d i =>
    let q := d.lqueue i
    if q.en then
      let k : LqDesc := ⟨BitVec.ofNat 64 Config.alarmBuf, BitVec.ofNat 16 (60 + Config.alarmLen % 1459), true, false, 0⟩
      ((d.setLq i { q with ents := q.ents ++ [{ ix := q.next, desc := k, read := true }], next := (q.next + 1) % 2 ^ q.size }).setF
        F.NET_LQTAIL_TAIL i ((q.next + 1) % 2 ^ q.size)).lqRun i
    else d) d

/-! ### Ports (R382 to R384) -/

/-- Looks a frame up in the duplicate table of its pair and notes it: entries live 400 ms, 1024 sources at most (R382). -/
def Dev.duplicate (d : Dev) (p : Nat) (src seq : Nat) : Dev × Bool :=
  let l := (SMap.getD d.net.dup (p / 2) []).filter fun e => decide (d.tsc < e.tsc + 400000000)
  let dup := l.any fun e => e.src == src && e.seq == seq
  let srcs := (l.map fun e => e.src).eraseDups
  let l := if dup then l
    else
      let l := if !srcs.contains src && decide (1024 ≤ srcs.length) then l.filter fun e => some e.src != srcs.getLast? else l
      ⟨src, seq, d.tsc⟩ :: l
  (d.setNet { d.net with dup := SMap.set d.net.dup (p / 2) l }, dup)

/-- Passes a frame to Gallery within the rate limit of R384. -/
def Dev.toGallery (d : Dev) (p : Nat) (f : NetFrame) : Dev :=
  let x := d.netPort p
  let win := d.tsc / 1000000
  let used := (if x.win = win then x.used else 0)
  let bitsOf := 8 * f.len.toNat
  if used + bitsOf ≤ 1000 * d.getF F.NET_RLIM_RATE p then
    { d with out := d.out ++ [Output.toGallery p f] }.setPort p { x with win := win, used := used + bitsOf }
  else (d.incF F.NET_PCNT_BE_DROP p).setPort p { x with win := win, used := used }

/-- A sampled-value frame goes to SVI over skip 27 or 28: in lumps of up to 64 octets, the last of which completes it (R17, log entry 75). -/
def Dev.sendSv (d : Dev) (p ts : Nat) (f : NetFrame) : Dev :=
  let n := (f.len.toNat + 63) / 64
  (List.range (max 1 n)).foldl (fun d i =>
    let len := max 1 (min 8 ((f.len.toNat - 64 * i + 7) / 8))
    d.sendLump (27 + p) (0x240 + p) false none len (.svPart (64 * i) (if i + 1 = max 1 n then some (ts, f.sv) else none))) d

/-- FRAME_RECEIVE: a port receives a frame; duplicates are discarded, an HSR ring forwards, and what is left is sorted by EtherType
(R382 to R384).  What the PTP unit makes of a frame is the command of that frame. -/
def execFrameReceive (p : Fin 4) (f : NetFrame) (s : State) : Out := s.up fun d =>
  if ¬d.portOn p ∨ (f.etype ≠ 0x88F7 ∧ ¬portServes d.mode p) then d
  else if !f.fcsOk then d.incF F.NET_PCNT_FCS p
  else
    let m := d.pairMode p
    let r := match f.seq with
      | some q => if m = 0 then (d, false) else d.duplicate p f.src.toNat q.toNat
      | none => (d, false)
    let d := r.1
    let other := if p.val % 2 = 0 then p.val + 1 else p.val - 1
    if r.2 then d.incF F.NET_PCNT_DUP p
    else
      let d := if m = 2 ∧ !f.own ∧ !f.forUs ∧ d.portOn other then
          let corr := if f.etype == 0x88F7 && f.sync then d.peekFree % 48000 + d.getF F.PTP_PDLY_MLD p else 0
          { d.draw with out := d.out ++ [Output.forward other f corr] }
        else d
      if f.own then d
      else if f.etype = 0x88F7 then d
      else if f.etype = 0x88BA ∧ p.val < 2 then d.sendSv p d.tsc f
      else d.toGallery p f

/-! ### PTP masters (R389, R390) -/

/-- Whether a foreign master is qualified: two Announce messages within four intervals (IEEE 1588-2019; log entry 15). -/
def Foreign.qualified (f : Foreign) : Bool := match f.prev with
  | some p => decide (f.last ≤ p + 4000000000)
  | none => false

/-- The key of the dataset comparison: the smaller is the better (IEEE 1588-2019; log entry 15). -/
def annKey (a : Announce) : List Nat :=
  [a.prio1.toNat, a.clockClass.toNat, a.accuracy.toNat, a.variance.toNat, a.prio2.toNat, a.gmid.toNat, a.steps.toNat, a.sender.toNat]

/-- Whether one list of numbers stands below another. -/
def listBelow : List Nat → List Nat → Bool
  | a :: as, b :: bs => decide (a < b) || (a == b && listBelow as bs)
  | _, _ => false

/-- The best qualified master of a PTP port. -/
def Dev.bestOf (d : Dev) (p : Nat) : Option Announce :=
  if d.bitF F.PTP_CTL_EN 0 p ∧ d.portOn p then
    ((d.ptpPort p).masters.filter Foreign.qualified).foldl (fun (b : Option Announce) f => match b with
      | none => some f.ann
      | some a => if listBelow (annKey f.ann) (annKey a) then some f.ann else some a) none
  else none

/-- The port whose master is best, the lower index where they are equally good (the key but for the sender). -/
def Dev.bestPort (d : Dev) : Option (Nat × Announce) :=
  (List.range 4).foldl (fun (b : Option (Nat × Announce)) p => match b, d.bestOf p with
    | none, some a => some (p, a)
    | some x, some a => if listBelow ((annKey a).take 7) ((annKey x.2).take 7) then some (p, a) else some x
    | x, none => x) none

/-- The calendar servo holds: HOLDOVER after first lock (R395). -/
def Dev.holdover (d : Dev) : Dev :=
  if d.calState = 2 ∨ d.calState = 4 then (d.setCalState 3).setServo { d.net.servo with outlier := false, good := 0 } else d

/-- Takes over a selected master's Announce (R390). -/
def Dev.takeMaster (d : Dev) (a : Announce) : Dev :=
  let d := if d.getF F.PTP_GMID_GMID = a.gmid.toNat then d
    else ((d.setF F.PTP_GMID_GMID 0 a.gmid.toNat).setF F.PTP_STAT_MASTER_CHG 0 1).setServo { d.net.servo with meas := [] }
  let d := (d.setF F.CLK_UTC_UTC_OFS 0 a.utcOfs.toNat).setB F.CLK_UTC_UTC_VALID 0 a.utcValid
  let d := (d.setB F.CLK_UTC_LI_61 0 a.leap61).setB F.CLK_UTC_LI_59 0 a.leap59
  let d := (d.setF F.PTP_GMINFO_CLASS 0 a.clockClass.toNat).setF F.PTP_GMINFO_SOURCE 0 a.timeSource.toNat
  d.setF F.PTP_GMINFO_INACC 0 (if d.getB F.PTP_CTL_PROFILE then min ((a.inacc.map fun x => x.toNat).getD 0) 65535 else 0)

/-- Chooses the SLAVE port: it changes only for a better master, or when its own is lost (R389).  CLK_UTC keeps what the last master gave:
the spec names no clearing of it (R68, DESIGN CHOICE, log entry 78). -/
def Dev.selectMaster (d : Dev) : Dev :=
  let keep := d.net.slave.bind fun p => (d.bestOf p).map fun a => (p, a)
  let best := match keep, d.bestPort with
    | some k, some b => if listBelow ((annKey b.2).take 7) ((annKey k.2).take 7) then some b else some k
    | some k, none => some k
    | none, b => b
  match best with
  | some (p, a) =>
    let d := if d.net.slave = some p then d
      else d.setNet { d.net with slave := some p, servo := { d.net.servo with wait := none, lastSync := some d.tsc } }
    (((d.setF F.PTP_STAT_SEL_PORT 0 p).setF F.PTP_STAT_SLAVE 0 1)).takeMaster a
  | none =>
    let d := d.setNet { d.net with slave := none, servo := { d.net.servo with wait := none, meas := [] } }
    ((d.setF F.PTP_STAT_SLAVE 0 0).setF F.PTP_STAT_FIRSTLOCK 0 0).holdover

/-- ANNOUNCE_RECEIVE (R387, R389, R390). -/
def execAnnounceReceive (p : Fin 4) (a : Announce) (s : State) : Out := s.up fun d =>
  if ¬d.portOn p ∨ ¬d.bitF F.PTP_CTL_EN 0 p ∨ a.domain.toNat ≠ d.getF F.PTP_CTL_DOMAIN ∨ (d.getB F.PTP_CTL_PROFILE ∧ a.inacc = none) then d
  else
    let x := d.ptpPort p
    let old := x.masters.find? fun f => f.ann.sender == a.sender
    let f : Foreign := ⟨a, d.tsc, old.map fun f => f.last⟩
    (d.setPtp p { x with masters := x.masters.filter (fun f => f.ann.sender != a.sender) ++ [f] }).selectMaster

/-- Drops the masters of a port that have been silent for 3 s (announceReceiptTimeout, R387). -/
def Dev.dropSilent (d : Dev) (p : Nat) : Dev :=
  let x := d.ptpPort p
  d.setPtp p { x with masters := x.masters.filter fun f => decide (d.tsc < f.last + 3000000000) }

/-- ANNOUNCE_TIMEOUT: a port's master has been silent for three intervals (R389). -/
def execAnnounceTimeout (p : Fin 4) (s : State) : Out := s.up fun d => (d.dropSilent p).selectMaster

/-- PORT_LINK_LOSS (R383, R389). -/
def Dev.linkLost (d : Dev) (p : Nat) : Dev :=
  if d.bitF F.NET_STAT_LINK 0 p then
    let d := ((d.clrBit F.NET_STAT_LINK 0 p).setBit F.NET_STAT_LINK_LOST 0 p).trouble F.TRB_STICKY0_NET_LINK
    (d.setPtp p { d.ptpPort p with masters := [], t1 := none }).selectMaster
  else d

/-- PORT_LINK_LOSS: a port loses link. -/
def execPortLinkLoss (p : Fin 4) (s : State) : Out := s.up fun d => d.linkLost p

/-- PORT_LINK_UP: a port of a powered half gains link. -/
def execPortLinkUp (p : Fin 4) (s : State) : Out := s.up fun d => if d.halfOff (portHalf p) then d else portPick p false 64 (d.setBit F.NET_STAT_LINK 0 p)

/-- A half fails: its ports go OFFLINE (R383). -/
def Dev.netHalfLost (d : Dev) (h : Half) : Dev :=
  ((List.range 4).filter fun p => portHalf p == h).foldl (fun d p => (d.linkLost p).setBit F.NET_STAT_OFFLINE 0 p) d

/-- A half is readmitted. -/
def Dev.netHalfBack (d : Dev) (h : Half) : Dev :=
  ((List.range 4).filter fun p => portHalf p == h).foldl (fun d p => d.clrBit F.NET_STAT_OFFLINE 0 p) d

/-! ### The servo (R391 to R396) -/

/-- A step of CAL to a value of the accumulator: the STEP record, and all that follows every step (R88, R133, R172, R259, R396, R401). -/
def Dev.stepCal (d : Dev) (acc : Nat) (rate : Int) (state kind req : Nat) : Dev :=
  let old := d.cal
  let st := d.calState
  let d := d.pushCal (acc % 2 ^ 104) rate state
  let d := d.record 0x0001 0x011 [(1, kind), (8, old), (8, d.cal), (2, req)]
  let d := if st = state then d else (d.record 0x0003 0x011 [(1, st), (1, state)]).fire 17
  let d := d.setServo { d.net.servo with s := 0, lastStep := some d.tsc, outlier := false, good := 0, meas := [], wait := none }
  (d.frResync.sviStep.balanceStep).lqStepped

/-- The accumulator moved back by a measurement. -/
def Dev.accLess (d : Dev) (o : Int) : Nat := (((d.calSeg.at d.tsc : Int) - o * 2 ^ 40) % 2 ^ 104).toNat

/-- A binary64 result. -/
def r64 (x : Rat) : Rat := f64 (f64Of x)

/-- The servo of R393 applies a measurement. -/
def Dev.servoApply (d : Dev) (o : Int) : Dev :=
  let v := d.net.servo
  let sn := r64 (v.s + r64 (r64 (3 / 10) * o))
  let r := r64 (-(r64 (r64 (r64 (7 / 10) * o) + sn)) / 1000000000)
  let rate := (r64 (r * 1099511627776)).floor
  let d := if rate ≤ 549755813 ∧ -549755813 ≤ rate then d.setServo { v with s := sn } else d
  (d.setRate rate).setB F.PTP_STAT_SLEWING 0 (decide (1000 < o.natAbs))

/-- A measurement beyond 100 ms, or within it, in LOCKED and HOLDOVER (R394, R395). -/
def Dev.servoLocked (d : Dev) (o : Int) : Dev :=
  let v := d.net.servo
  if 100000000 < o.natAbs then
    if v.outlier then
      ((d.setServo { v with outlier := false, good := 0 }).setCalState 4).trouble F.TRB_STICKY0_CAL_SUSPECT
    else d.setServo { v with outlier := true }
  else
    let d := if v.outlier then (d.setServo { v with outlier := false }).incF F.PTP_CNT_OUTLIER else d
    (d.setCalState 2).servoApply o

/-- An offset measurement that is not discarded reaches the servo. -/
def Dev.measure (d : Dev) (o : Int) (syncAt : Nat) : Dev :=
  let d := d.setServo { d.net.servo with latest := some (o, syncAt) }
  let v := d.net.servo
  if d.calState = 0 ∨ d.calState = 1 then
    let m := (o :: v.meas).take 4
    let close := m.all fun x => m.all fun y => decide (x - y ≤ 1000)
    if m.length = 4 ∧ close then
      let d := d.stepCal (d.accLess o) 0 2 0 0
      ((d.setF F.CLK_CAL_STAT_STEPPED 0 1).setF F.HFR_LOCK_TIME 0 1).setF F.PTP_STAT_FIRSTLOCK 0 0
    else (d.setServo { v with meas := m }).setF F.PTP_STAT_FIRSTLOCK 0 1
  else if d.calState = 4 then
    if 100000000 < o.natAbs then d.setServo { v with good := 0 }
    else if v.good = 7 then ((d.setServo { v with good := 0, s := 0 }).setCalState 2).servoApply o
    else d.setServo { v with good := v.good + 1 }
  else d.servoLocked o

/-- Forms the measurement of a Sync (R391): discarded where a step of CAL has come since the Sync, or its Follow_Up is late. -/
def Dev.offset (d : Dev) (p t2 syncAt : Nat) (origin : Nat) (corr : Int) (late : Bool) : Dev :=
  let o := (d.cal16 t2 - (16 * (origin : Int) + corr + d.getF F.PTP_PDLY_MLD p)) / 16
  let d := d.setF F.PTP_OFS_OFS 0 (unsgn 64 o)
  let stale : Bool := match d.net.servo.lastStep with
    | some t => decide (syncAt < t)
    | none => false
  if late ∨ stale then d.incF F.PTP_CNT_DISCARD else d.measure o syncAt

/-- A Sync of the selected master, with the MAC's receive stamp (1/16 ns of TSC), its correctionField (2⁻¹⁶ ns) and, from
a one-step master, its originTimestamp in ns (R391). -/
def Dev.ptpSync (d : Dev) (p : Fin 4) (domain : Byte) (seq : BitVec 16) (mac : BitVec 68) (corr : BitVec 64) (origin : Option (BitVec 64)) : Dev :=
  if d.portOn p ∧ d.net.slave = some p.val ∧ domain.toNat = d.getF F.PTP_CTL_DOMAIN then
    let t2 := d.rxStamp p mac.toNat
    let c := corr.toInt / 4096
    let v := { d.net.servo with lastSync := some d.tsc, wait := none }
    match origin with
    | some o => (d.setServo v).offset p t2 d.tsc o.toNat c false
    | none => d.setServo { v with wait := some ⟨seq.toNat, t2, c, d.tsc⟩ }
  else d

/-- The Follow_Up of the Sync that waits (R391). -/
def Dev.ptpFollowUp (d : Dev) (p : Fin 4) (domain : Byte) (seq : BitVec 16) (origin : BitVec 64) (corr : BitVec 64) : Dev :=
  if d.portOn p ∧ d.net.slave = some p.val ∧ domain.toNat = d.getF F.PTP_CTL_DOMAIN then
    match d.net.servo.wait with
    | some w =>
      if w.seq = seq.toNat then
        (d.setServo { d.net.servo with wait := none }).offset p w.t2 w.at_ origin.toNat (w.corr + corr.toInt / 4096)
          (decide (w.at_ + 1000000000 < d.tsc))
      else d
    | none => d
  else d

/-- SYNC_TIMEOUT: no port has a qualified master, or the selected one has sent no Sync for 3 s (R395). -/
def execSyncTimeout (s : State) : Out := s.up fun d =>
  match d.net.slave, d.net.servo.lastSync with
  | some _, some t => if t + 3000000000 ≤ d.tsc then d.holdover else d
  | none, _ => d.holdover
  | some _, none => d.holdover

/-! ### Peer delay (R387) -/

/-- The VLAN of the PTP messages sent. -/
def Dev.ptpVlan (d : Dev) : Option Nat := if d.getB F.PTP_CTL_VTAG then some (d.getF F.PTP_VID_VID) else none

/-- PDELAY_REQ_RECEIVE: answered as a two-step responder, with the MAC stamps of the request and of the answer (R385, R387). -/
def execPdelayReqReceive (p : Fin 4) (domain : Byte) (seq : BitVec 16) (rx tx : BitVec 68) (s : State) : Out := s.up fun d =>
  if d.portOn p ∧ d.bitF F.PTP_CTL_EN 0 p ∧ domain.toNat = d.getF F.PTP_CTL_DOMAIN then
    { d with out := d.out ++
        [Output.ptp p 1 seq.toNat (d.cal16 (d.rxStamp p rx.toNat)).toNat d.ptpVlan, Output.ptp p 2 seq.toNat (d.cal16 (txStamp p tx.toNat)).toNat d.ptpVlan] }
  else d

/-- PDELAY_REQ_SEND: every 1 s, with the MAC's transmit stamp (R387). -/
def execPdelayReqSend (p : Fin 4) (tx : BitVec 68) (s : State) : Out := s.up fun d =>
  if d.portOn p ∧ d.bitF F.PTP_CTL_EN 0 p then
    let x := d.ptpPort p
    let n := (x.seq + 1) % 65536
    { d with out := d.out ++ [Output.ptp p 0 n 0 d.ptpVlan] }.setPtp p { x with seq := n, t1 := some (txStamp p tx.toNat) }
  else d

/-- PDELAY_RESP_RECEIVE: the answer and its follow-up, with the MAC's receive stamp and the responder's turnaround with the
corrections, in 1/16 ns (R387). -/
def execPdelayRespReceive (p : Fin 4) (domain : Byte) (seq : BitVec 16) (rx : BitVec 68) (turnaround : BitVec 64) (s : State) : Out := s.up fun d =>
  if d.portOn p ∧ d.bitF F.PTP_CTL_EN 0 p ∧ domain.toNat = d.getF F.PTP_CTL_DOMAIN then
    let x := d.ptpPort p
    match x.t1 with
    | some t1 =>
      if x.seq = seq.toNat then
        let mld := (((d.rxStamp p rx.toNat : Int) - t1 - turnaround.toInt) / 2).toNat
        (d.setF F.PTP_PDLY_MLD p (min mld (2 ^ 32 - 1))).setPtp p { x with t1 := none }
      else d
    | none => d
  else d

end Sys2Proof.Machine
end

