-- ==== Sys2Proof/Machine/Assay.lean ====
section
/-!
DEFINITION. Assay: raw comparators, trigger sequencers, record areas and their segments, mask tests and trend channels.
-/
namespace Sys2Proof.Machine

/-! ### State -/

/-- Replaces Assay. -/
def Dev.setAsy (d : Dev) (x : Assay) : Dev := { d with asy := x }
/-- A sequencer. -/
def Dev.seqr (d : Dev) (q : Nat) : AsySeq := SMap.getD d.asy.seqs q {}
/-- Replaces a sequencer. -/
def Dev.setSeqr (d : Dev) (q : Nat) (x : AsySeq) : Dev := d.setAsy { d.asy with seqs := SMap.set d.asy.seqs q x }
/-- A record area. -/
def Dev.area (d : Dev) (a : Nat) : AsyArea := SMap.getD d.asy.areas a {}
/-- Replaces a record area. -/
def Dev.setArea (d : Dev) (a : Nat) (x : AsyArea) : Dev := d.setAsy { d.asy with areas := SMap.set d.asy.areas a x }
/-- A trend channel. -/
def Dev.trend (d : Dev) (n : Nat) : Trend := SMap.getD d.asy.trends n {}
/-- Replaces a trend channel. -/
def Dev.setTrend (d : Dev) (n : Nat) (x : Trend) : Dev := d.setAsy { d.asy with trends := SMap.set d.asy.trends n x }
/-- Whether Assay runs (R349). -/
def Dev.asyRuns (d : Dev) : Bool := d.asy.started && seamRuns d.mode
/-- The first tick at or after now (R320). -/
def Dev.tickNext (d : Dev) : Nat := (d.tsc + 49) / 50 * 50
/-- Presents an input to the sequencers (R320). -/
def Dev.present (d : Dev) (p : Pres) : Dev := if d.asyRuns then d.setAsy { d.asy with pres := d.asy.pres ++ [p] } else d

/-- A sequencer's item (R321, ASY_SQW0): its bits. -/
def Dev.seqItem (d : Dev) (q st it : Nat) : Nat := SMap.getD d.asy.items (256 * q + 16 * st + it) 0

/-- 1/16 ns of TSC as 50 ps units, rounded (R327). -/
def units50 (t16 : Nat) : Nat := (5 * t16 + 2) / 4

/-- Steps of the calendar at or before a TSC: the stretches that do not continue the one before (R341, R334). -/
def calSteps (t : Nat) : List CalSeg → Nat
  | s :: r :: ss => (if s.tsc ≤ t ∧ r.at s.tsc ≠ s.acc then 1 else 0) + calSteps t (r :: ss)
  | _ => 0

/-! ### The Assay list (R193, R207) -/

/-- The type of a point. -/
def Design.typeOf (D : Design) (addr : Nat) : Nat := ((D.points.find? fun p => p.addr == addr).map fun p => p.typ).getD 0

/-- The 8 B entries of the Assay list, a phasor taking two: each with its address and which half of VALUE it holds. -/
def Design.asyEntries (D : Design) : List (Nat × Nat) :=
  D.assay.flatMap fun a => (a, 0) :: (if D.typeOf a = 3 then [(a, 1)] else [])

/-- A point address in full, from the pit and the entry of a lump (R193). -/
def fullAddr (pit low : Nat) : Nat := 2 ^ 18 * pit + low % 2 ^ 18

/-! ### Conditions (R321) -/

/-- Whether a condition holds in a tick, given the points as presented by it and what is presented in it. -/
def condTrue (pts : SMap AsyPt) (pres : List Pres) (item : Nat) : Bool :=
  let kind := bits item 0 4
  let arg := bits item 4 20
  let thr := f32 (bits item 32 32)
  let latest (f : AsyPt → Bool) : Bool := match SMap.get? pts arg with
    | some p => f p && p.qual % 2 == 1
    | none => false
  let edge (was now : Nat) : Bool := pres.any fun x => match x with
    | .point a (some o) p => a == arg && o.val % 2 == was && p.val % 2 == now && p.qual % 2 == 1
    | _ => false
  match kind with
  | 1 => latest fun p => p.val % 2 == 1
  | 2 => latest fun p => p.val % 2 == 0
  | 3 => edge 0 1
  | 4 => edge 1 0
  | 5 => latest fun p => decide (thr < f32 p.val)
  | 6 => latest fun p => decide (f32 p.val < thr)
  | 7 => pres.any fun x => match x with
    | .raw r _ => r == arg
    | _ => false
  | 8 => pres.any fun x => match x with
    | .twu g _ => g == arg
    | _ => false
  | 9 => pres.any fun x => match x with
    | .link l _ _ _ => l == arg
    | _ => false
  | 10 => pres.any fun x => match x with
    | .mask m _ => m == arg
    | _ => false
  | _ => false

/-- The instant, source and segment flags that an input presented in a tick gives a condition it makes true (R321, R327). -/
def Pres.makes (kind arg : Nat) : Pres → Option (Nat × Nat × Nat)
  | .point a (some o) p =>
    if a = arg ∧ p.qual % 2 = 1 ∧ ((kind = 3 ∧ o.val % 2 = 0 ∧ p.val % 2 = 1) ∨ (kind = 4 ∧ o.val % 2 = 1 ∧ p.val % 2 = 0)) then
      some (p.inst, 0x100 + p.face, 0)
    else none
  | .point _ none _ => none
  | .raw r i => if kind = 7 ∧ r = arg then some (i, 0x21A, 0) else none
  | .twu g i => if kind = 8 ∧ g = arg then some (i, 0x200 + g, 0) else none
  | .link l i o u => if kind = 9 ∧ l = arg then some (i, 0x298 + o, if u then 16 else 8) else none
  | .mask m i => if kind = 10 ∧ m = arg then some (i, 0x219, 0) else none

/-- The instant, source and segment flags of a condition that is the primary one (R327); of several inputs of one tick that make it true,
those of the earliest instant and then of the lowest source (R72). -/
def Dev.condSource (d : Dev) (item : Nat) : Nat × Nat × Nat :=
  let kind := bits item 0 4
  let arg := bits item 4 20
  let least (b : Option (Nat × Nat × Nat)) (x : Nat × Nat × Nat) : Option (Nat × Nat × Nat) := match b with
    | none => some x
    | some y => if x.1 < y.1 ∨ (x.1 = y.1 ∧ x.2.1 < y.2.1) then some x else some y
  match (d.asy.pres.filterMap (Pres.makes kind arg)).foldl least none with
  | some x => x
  | none =>
    match if kind ≤ 6 then SMap.get? d.asy.pts arg else none with
    | some p => (p.inst, 0x100 + p.face, 0)
    | none => (20 * d.tsc, 0, 0)

/-- The lowest set bit. -/
def lowBit (m : Nat) : Nat := ((List.range 8).find? m.testBit).getD 0

/-- The instant, source and flags of a trigger with a source mask (R327). -/
def Dev.trigSource (d : Dev) (q st smask : Nat) : Nat × Nat × Nat :=
  let p := lowBit smask
  if p < 4 then d.condSource (d.seqItem q st p) else (20 * d.tsc, 0x210 + q, 0)

/-! ### Areas (R328 to R332) -/

/-- LEN as applied. -/
def Dev.areaLen (d : Dev) (a : Nat) : Nat := d.getF F.ASY_ALENLO_LEN_LO a + 65536 * d.getF F.ASY_ALENHI_LEN_HI a
/-- POST_REQ as applied. -/
def Dev.areaPost (d : Dev) (a : Nat) : Nat := d.getF F.ASY_APOSTLO_POST_LO a + 65536 * d.getF F.ASY_APOSTHI_POST_HI a
/-- The channels of a RAW area. -/
def Dev.areaChans (d : Dev) (a : Nat) : List Nat := (List.range 16).filter fun c => d.bitF F.ASY_ASEL_SEL a c
/-- The entries of a POINT area. -/
def Dev.areaEntries (d : Dev) (a : Nat) : List (Nat × Nat) :=
  let D := d.seam.design
  let skip := (D.assay.take (d.getF F.ASY_AFIRST_FIRST a)).foldl (fun n x => n + if D.typeOf x = 3 then 2 else 1) 0
  (D.asyEntries.drop skip).take (d.getF F.ASY_ASEL_SEL a)
/-- The timing domain of a POINT area. -/
def Dev.areaDomain (d : Dev) (a : Nat) : Nat :=
  match d.areaEntries a with
  | e :: _ => d.seam.design.domainOf (faceOf e.1)
  | [] => 15
/-- The sample period of a RAW area, in 50 ps units. -/
def Dev.areaUnit (d : Dev) (a : Nat) : Nat :=
  match d.areaChans a with
  | c :: _ => if d.getB F.AFE_CHSTAT_RATE40 c then 500 else 1000
  | [] => 1000
/-- A channel's block of data, padded to 64 B (R335). -/
def rawBlockLen (len : Nat) : Nat := (2 * len + 63) / 64 * 64
/-- DATA_LEN of R335. -/
def Dev.areaData (d : Dev) (a len : Nat) : Nat :=
  if d.getB F.ASY_ACTL_KIND a then 8 * len * d.getF F.ASY_ASEL_SEL a else (d.areaChans a).length * rawBlockLen len
/-- SLOT of R332. -/
def Dev.areaSlot (d : Dev) (a : Nat) : Nat := d.getF F.ASY_ASIZE_ASIZE a * 2 ^ 20 / d.getF F.ASY_ASEGS_SEGS a / 64 * 64

/-- Enters a state. -/
def Dev.areaState (d : Dev) (a st : Nat) : Dev := d.setF F.ASY_ASTAT_STATE a st

/-- Enters STOPPED, which is signalled and recorded (R339). -/
def Dev.areaStop (d : Dev) (a maskno : Nat) : Dev :=
  ((d.areaState a 4).flag F.ASY_STAT_STOPPED 0 a 13).record 0x004A 0x218 [(1, a), (1, maskno)]

/-- Arms an area: its lengths are read, and it is FULL or STOPPED where it has no slot to write (R329, R332). -/
def Dev.arm (d : Dev) (a : Nat) : Dev :=
  let len := d.areaLen a
  let req := d.areaPost a
  let d := d.setArea a { d.area a with len := len, post := min req (len - 1), postReq := req }
  let d := d.setB F.ASY_ASTAT_POSTCLIP a (decide (len - 1 < req))
  let used := (d.getF F.ASY_ASTAT_WIDX a + 8192 - d.getF F.ASY_ARIDX_RIDX a) % 8192
  if ¬d.getB F.ASY_ACTL_FULL a ∧ used = d.getF F.ASY_ASEGS_SEGS a then d.areaState a 3
  else if d.getB F.ASY_ACTL_FULL a ∧ d.getF F.ASY_ASEGS_SEGS a ≤ (d.area a).frozen.length ∧ (d.area a).frozen ≠ [] then d.areaState a 4
  else d.areaState a 1

/-- The trigger sample of an instant: the latest at or before it (R330). -/
def Dev.triggerSample (d : Dev) (a inst : Nat) : Option Nat :=
  if d.getB F.ASY_ACTL_KIND a then
    ((d.instsOf (d.areaDomain a)).find? fun p => decide (units50 p.t16 ≤ inst)).map fun p => p.k
  else some (inst / d.areaUnit a)

/-- A trigger reaches its area, which accepts or refuses it (R328, R330, R331). -/
def Dev.accept (d : Dev) (a inst prim smask psrc from_ flags : Nat) (maskno : Option Nat) : Dev :=
  let x := d.area a
  let after : Bool := match x.last with
    | some l => decide (l < inst)
    | none => true
  match d.triggerSample a inst with
  | some t =>
    if d.getF F.ASY_ASTAT_STATE a = 1 ∧ after then
      let dead := if x.fresh then 0xFFFFFFFF else min ((inst - x.last.getD inst) / 20) 0xFFFFFFFE
      let clip := if x.len - 1 < x.postReq then 1 else 0
      let seg : AsySeg :=
        { inst := inst, prim := prim, smask := smask, psrc := psrc, from_ := from_, flags := flags + clip
          first := (t : Int) + x.post - x.len + 1, dead := dead, len := x.len, post := x.post, postReq := x.postReq, maskno := maskno }
      (d.setArea a { x with seg := some seg, fresh := false }).areaState a 2
    else d.incF F.ASY_ACNT_REFUSED a
  | none => d.incF F.ASY_ACNT_REFUSED a

/-! ### The trigger link's frames (R345 to R347) -/

/-- OFS now, in 50 ps units: since the latest edge it advances by the measured REF rate (R345). -/
def Dev.linkOfs (d : Dev) : Int := d.tlk.ofs + ((d.tsc : Int) - d.tlk.edgeAt) * d.tlk.rate / 2 ^ 40

/-- A frame's payload (R346). -/
def linkPayload (kind line origin data : Nat) : Nat := kind + 4 * (line % 8) + 32 * (origin % 8) + 256 * (data % 2 ^ 56)

/-- Sends a frame on a port. -/
def Dev.linkSend (d : Dev) (portD : Bool) (t payload : Nat) : Dev :=
  { d with out := d.out ++ [.link portD t (barrierFrame payload)] }

/-- A transition with LINKOUT: a TRIGGER frame on both ports, presented here in this tick; in DOWN nothing is sent (R347). -/
def Dev.linkOut (d : Dev) (line inst : Nat) : Dev :=
  if d.getF F.TLK_STAT_STATE = 0 then d.incF F.TLK_CNT_UNSENT
  else
    let pos := d.getF F.TLK_STAT_POS
    let p := linkPayload 0 line pos (unsgn 56 ((inst : Int) + d.linkOfs))
    let d := ((d.linkSend false d.tsc p).linkSend true d.tsc p).incF F.TLK_CNT_SENT
    d.present (.link line inst pos false)

/-! ### Sequencers (R324 to R327) -/

/-- Whether a timer has fired as of a tick (R325). -/
def Dev.timerFired (d : Dev) (q st i : Nat) : Bool :=
  let item := d.seqItem q st (6 + i)
  let x := d.seqr q
  let unit := bits item 1 3
  let preset := bits item 32 32
  let en := bits item 0 1 == 1
  if unit < 3 then en && decide (x.start + preset * (if unit = 0 then 50 else if unit = 1 then 1000 else 1000000) ≤ d.tsc)
  else if unit = 3 then false
  else en && (x.fired.getD i false || d.passed (unit - 4) (x.ang.getD (unit - 4) 0 + 256 * preset))

/-- A counter after a tick (R324). -/
def Dev.counted (d : Dev) (q st i ev : Nat) : Nat :=
  let item := d.seqItem q st (4 + i)
  let c := bits item 2 2
  let was := condTrue d.asy.before d.asy.presBefore (d.seqItem q st c)
  let n := (d.seqr q).cnt.getD i 0
  if bits item 0 1 = 1 ∧ ev.testBit c ∧ ¬(bits item 1 1 = 1 ∧ was) then n + 1 else n

/-- Enters a state: counters at 0, timers start at this tick. -/
def Dev.seqEnter (d : Dev) (q st tick : Nat) : Dev :=
  (d.setF F.ASY_SQSTAT_STATE q st).setSeqr q { start := tick, ang := (List.range 4).map fun n => (d.angle n).time }

/-- The events of a sequencer in this tick, and its counters after. -/
def Dev.seqEvents (d : Dev) (q : Nat) : Nat × List Nat :=
  let st := d.getF F.ASY_SQSTAT_STATE q
  let ev := (List.range 4).foldl (fun e i => if condTrue d.asy.pts d.asy.pres (d.seqItem q st i) then e + 2 ^ i else e) 0
  let cnt := [d.counted q st 0 ev, d.counted q st 1 ev]
  let done (i : Nat) : Bool := let item := d.seqItem q st (4 + i); bits item 0 1 == 1 && decide (bits item 32 32 ≤ cnt.getD i 0)
  (ev + 16 * (done 0).toNat + 32 * (done 1).toNat + 64 * (d.timerFired q st 0).toNat + 128 * (d.timerFired q st 1).toNat, cnt)

/-- The transition a sequencer takes: the lowest that is enabled (R326). -/
def Dev.seqTransition (d : Dev) (q ev : Nat) : Option Nat :=
  let st := d.getF F.ASY_SQSTAT_STATE q
  (List.range 4).find? fun t =>
    let item := d.seqItem q st (8 + t)
    let mask := bits item 0 8
    item.testBit 9 && mask != 0 && (if item.testBit 8 then ev &&& mask == mask else ev &&& mask != 0)

/-- Takes a transition (R326, R327). -/
def Dev.seqTake (d : Dev) (q ev t : Nat) : Dev :=
  let st := d.getF F.ASY_SQSTAT_STATE q
  let item := d.seqItem q st (8 + t)
  let smask := ev &&& bits item 0 8
  let src := d.trigSource q st smask
  let d := if item.testBit 14 then
      (d.incF F.ASY_SQSTAT_TRIGS q).accept q src.1 (lowBit smask) smask src.2.1 (st + 16 * t) src.2.2 none
    else d
  let d := if item.testBit 15 then d.linkOut (bits item 16 3) src.1 else d
  (d.incF F.ASY_SQSTAT_TRANS q).seqEnter q (bits item 10 4) d.tsc

/-- One pass over sequencers that have taken no transition in this tick: those that now take one, and the rest. -/
def Dev.seqPass (d : Dev) : List Nat → Dev × List Nat
  | [] => (d, [])
  | q :: qs =>
    let e := d.seqEvents q
    match d.seqTransition q e.1 with
    | some t => (d.seqTake q e.1 t).seqPass qs
    | none => let r := d.seqPass qs; (r.1, q :: r.2)

/-- Passes until no sequencer's LINKOUT presents anything new to those that have taken no transition (R347); these count. -/
def seqPasses : Nat → List Nat → Dev → Dev
  | 0, _, d => d
  | fuel + 1, qs, d =>
    let r := d.seqPass qs
    if r.1.asy.pres.length = d.asy.pres.length then
      r.2.foldl (fun d q =>
        let st := d.getF F.ASY_SQSTAT_STATE q
        d.setSeqr q { d.seqr q with cnt := (d.seqEvents q).2, fired := [d.timerFired q st 0, d.timerFired q st 1] }) r.1
    else seqPasses fuel r.2 r.1

/-- A violation with STOP acts on its area, after the sequencers of the tick (R339). -/
def Dev.maskStops (d : Dev) : Dev :=
  d.asy.pres.foldl (fun d p => match p with
    | .mask m inst =>
      let a := d.getF F.ASY_MKCTL_AREA m
      if ¬d.getB F.ASY_MKCTL_STOP m then d
      else if d.getF F.ASY_ASTAT_STATE a = 1 then d.accept a inst 8 0 0x219 0 0 (some m)
      else match (d.area a).seg with
        | some s => d.setArea a { d.area a with seg := some { s with maskno := some (s.maskno.getD m) } }
        | none => d
    | _ => d) d

/-- A tick: every running sequencer, then the mask tests (R320, R326). -/
def Dev.asyTick (d : Dev) : Dev :=
  if ¬d.asyRuns ∨ d.tsc % 50 ≠ 0 ∨ d.asy.tickAt = some d.tsc then d
  else
    let running := (List.range 8).filter fun q => d.getB F.ASY_SQSTAT_RUNNING q
    let restarts := running.filter fun q => (d.seqr q).restart
    let d := restarts.foldl (fun d q => d.seqEnter q 0 d.tsc) d
    let d := seqPasses 9 (running.filter fun q => !restarts.contains q) d
    let d := d.maskStops
    d.setAsy { d.asy with before := d.asy.pts, presBefore := d.asy.pres, pres := [], tickAt := some d.tsc }

/-- SEQUENCER_TICK: the sequencers are evaluated at a TSC that is a multiple of 50 ns (R320, R326). -/
def execSequencerTick (s : State) : Out := s.up Dev.asyTick

/-- SEQUENCER_TIMER_EXPIRY: a timer's duration has passed; it stays fired until its state is left (R325). -/
def execSequencerTimerExpiry (q : Fin 8) (i : Fin 2) (s : State) : Out := s.up fun d =>
  let st := d.getF F.ASY_SQSTAT_STATE q
  if d.asyRuns ∧ d.getB F.ASY_SQSTAT_RUNNING q then
    d.setSeqr q { d.seqr q with fired := (d.seqr q).fired.set i (d.timerFired q st i) }
  else d

/-- A write of ASY_SQCTLs (R326): a rise of RUN enters state 0, RESTART does at the next tick. -/
def Dev.sqctlWritten (d : Dev) (q : Nat) (oldRun restart : Bool) : Dev :=
  let run := d.getB F.ASY_SQCTL_RUN q
  let on := run && d.asyRuns
  let d := d.setB F.ASY_SQSTAT_RUNNING q on
  let d := if on ∧ ¬oldRun then d.seqEnter q 0 d.tickNext else d
  if on ∧ restart then d.setSeqr q { d.seqr q with restart := true } else d

/-- A commit of ASY_SQW3: the item at the ASY_SQSEL address takes the 64 bits (R321). -/
def Dev.seqItemCommitted (d : Dev) : Dev :=
  let key := 256 * d.getF F.ASY_SQSEL_SEQ + 16 * d.getF F.ASY_SQSEL_STATE + d.getF F.ASY_SQSEL_ITEM
  let v := d.getF F.ASY_SQW0_W + 2 ^ 16 * d.getF F.ASY_SQW1_W + 2 ^ 32 * d.getF F.ASY_SQW2_W + 2 ^ 48 * d.getF F.ASY_SQW3_W
  d.setAsy { d.asy with items := SMap.set d.asy.items key v }

/-- Whether the bits of an item are a legal value for its kind: reserved kinds and bits make a commit refused under R35. -/
def itemBad (it v : Nat) : Bool :=
  if it < 4 then
    decide (10 < bits v 0 4 ∨ bits v 24 8 ≠ 0) || decide (bits v 0 4 ≠ 5 ∧ bits v 0 4 ≠ 6 ∧ bits v 32 32 ≠ 0)
  else if it < 6 then decide (bits v 4 28 ≠ 0)
  else if it < 8 then decide (bits v 1 3 = 3 ∨ bits v 4 28 ≠ 0)
  else if it < 12 then decide (v / 2 ^ 19 ≠ 0)
  else true

/-! ### Raw samples (R322, R323) -/

/-- A raw block header or sample lump reaches the DRAM raw ring, which holds 2 s (skips 4 and 5). -/
def Dev.rawRing (d : Dev) (b : LumpBody) : Dev :=
  match b with
  | .rawHeader h => d.setAsy { d.asy with hdrs := SMap.set d.asy.hdrs h.ch ((h :: SMap.getD d.asy.hdrs h.ch []).take 78125) }
  | .rawSamples c first codes =>
    d.setAsy { d.asy with raw := SMap.set d.asy.raw c (((first, codes) :: SMap.getD d.asy.raw c []).take 2500000) }
  | _ => d

/-- A code of the raw ring. -/
def Dev.rawCode (d : Dev) (c k : Nat) : Option (BitVec 16) :=
  ((SMap.getD d.asy.raw c []).find? fun l => decide (l.1 ≤ k ∧ k < l.1 + l.2.length)).bind fun l => l.2[k - l.1]?

/-- Whether a sample lay within MARK_N of its block. -/
def Dev.rawMarked (d : Dev) (c k : Nat) : Bool :=
  (SMap.getD d.asy.hdrs c []).any fun h => decide (h.first ≤ k ∧ k < h.first + h.markN)

/-- Whether a channel's lumps reach up to a sample, or its samples are absent for good (R323, R331). -/
def Dev.rawReached (d : Dev) (c k : Nat) : Bool :=
  !(d.afeRuns c && (d.afeChan c).released) ||
    (match SMap.getD d.asy.raw c [] with
      | l :: _ => decide (k < l.1 + l.2.length)
      | [] => false)

/-- One sample at a comparator: the crossing it makes, if it counts (R322). -/
def AsyCmp.sample (x : AsyCmp) (thr : Int) (hyst edge c u k : Nat) (code : Option (BitVec 16)) : AsyCmp × Option Nat :=
  match code with
  | none => ({ x with last := none }, none)
  | some b =>
    let v := b.toInt
    let y := { x with ch := c, last := some (k, v) }
    let y := if v < thr - hyst then { y with noRise := false } else y
    let y := if thr + hyst < v then { y with noFall := false } else y
    match x.last with
    | some (j, p) =>
      if x.ch = c ∧ j + 1 = k then
        let rise := decide (p < thr ∧ thr ≤ v)
        let fall := decide (thr < p ∧ v ≤ thr)
        let inst := j * u + ((2 * (thr - p).natAbs * u + (v - p).natAbs) / (2 * (v - p).natAbs))
        if rise then ({ y with noRise := true }, if !x.noRise && edge != 1 then some inst else none)
        else if fall then ({ y with noFall := true }, if !x.noFall && edge != 0 then some inst else none)
        else (y, none)
      else (y, none)
    | none => (y, none)

/-- A comparator over a range of samples: at most its first crossing is presented (R323). -/
def Dev.cmpRange (d : Dev) (r n : Nat) : Dev :=
  let c := d.getF F.ASY_RCMP_CH r
  let fast := d.getB F.AFE_CHSTAT_RATE40 c
  let m := if fast then 64 else 32
  let u := if fast then 500 else 1000
  let thr := sgn 16 (d.getF F.ASY_RTHR_THR r)
  let res := (List.range m).foldl (fun (acc : AsyCmp × List Nat) i =>
    let k := m * n + i
    let code := if d.rawMarked c k then none else d.rawCode c k
    let x := acc.1.sample thr (d.getF F.ASY_RHYS_HYST r) (d.getF F.ASY_RCMP_EDGE r) c u k code
    (x.1, acc.2 ++ x.2.toList)) (SMap.getD d.asy.cmps r {}, [])
  let d := d.setAsy { d.asy with cmps := SMap.set d.asy.cmps r res.1 }
  match res.2 with
  | [] => d
  | i :: more => ((d.incF F.ASY_RCNT_CROSS r).addF F.ASY_RCNT_EXTRA r more.length).present (.raw r i)

/-- RAW_CROSSING_PRESENT: the lumps of every running channel of a half have arrived for the range of 1.6 µs `n` (32 samples
at 20 MS/s), and its comparators present their crossings (R323). -/
def execRawCrossingPresent (h : Half) (n : BitVec 48) (s : State) : Out := s.up fun d =>
  let n := n.toNat
  let ready := h.channels.all fun c => d.rawReached c (if d.getB F.AFE_CHSTAT_RATE40 c then 64 * n + 63 else 32 * n + 31)
  if d.asyRuns ∧ ready ∧ SMap.getD d.asy.range h.num 0 ≤ n ∧ ¬d.halfOff h then
    let d := d.setAsy { d.asy with range := SMap.set d.asy.range h.num (n + 1) }
    ((List.range 16).filter fun r => d.getB F.ASY_RCMP_EN r && h.channels.contains (d.getF F.ASY_RCMP_CH r)).foldl
      (fun d r => d.cmpRange r n) d
  else d

/-! ### Segments (R331 to R336) -/

/-- The face's lumps up to a step have reached Assay, or the face does not run. -/
def Dev.pointReached (d : Dev) (dom k addr : Nat) : Bool :=
  let g := faceOf addr
  decide ((d.face g).st ≠ .run) || (SMap.getD d.asy.hist dom []).any fun h => decide (k ≤ h.k) && h.face == g

/-- The index of a segment's last sample. -/
def AsySeg.lastIx (s : AsySeg) : Nat := (s.first + s.len - 1).toNat

/-- Whether a segment's last sample is here. -/
def Dev.segReached (d : Dev) (a : Nat) (s : AsySeg) : Bool :=
  if d.getB F.ASY_ACTL_KIND a then (d.areaEntries a).all fun e => d.pointReached (d.areaDomain a) s.lastIx e.1
  else (d.areaChans a).all fun c => d.rawReached c s.lastIx

/-- The instant of a sample of an area, in 50 ps units. -/
def Dev.sampleInst (d : Dev) (a : Nat) (k : Int) : Nat :=
  if d.getB F.ASY_ACTL_KIND a then units50 ((d.stepInstant (d.areaDomain a) k.toNat).getD 0) else k.toNat * d.areaUnit a

/-- The codes of a channel in a segment, none where absent. -/
def Dev.segCodes (d : Dev) (c : Nat) (s : AsySeg) : List (Option (BitVec 16)) :=
  (List.range s.len).map fun i => if s.first + i < 0 then none else d.rawCode c (s.first + i).toNat

/-- A channel's CHFLAGS byte: from the headers of the blocks that the segment overlaps (R334). -/
def Dev.chFlags (d : Dev) (c : Nat) (s : AsySeg) (gap : Bool) : Nat :=
  let hs := (SMap.getD d.asy.hdrs c []).filter fun h => decide ((h.first : Int) < s.first + s.len ∧ s.first < (h.first : Int) + 1024)
  match hs with
  | [] => 32 * gap.toNat
  | h :: _ =>
    h.gain % 4 + 4 * h.rate40.toNat + 8 * (hs.any fun h => decide (s.first < (h.first : Int) + h.markN ∧ (h.first : Int) < s.first + s.len ∧ 0 < h.markN)).toNat
      + 16 * (hs.any fun h => decide (0 < h.clipN)).toNat + 32 * gap.toNat + 64 * (hs.any fun h => h.calFb).toNat

/-- An entry of the point history: VALUE word and QUAL; none where the step never reached Assay. -/
def Dev.histEntry (d : Dev) (dom : Nat) (k : Int) (e : Nat × Nat) : Option (Nat × Nat) :=
  if k < 0 then none
  else ((SMap.getD d.asy.hist dom []).find? fun h => decide ((h.k : Int) = k) && h.face == faceOf e.1).bind fun h =>
    ((h.entries.filter fun x => x.1 == e.1)[e.2]?).map fun x => (x.2.2, x.2.1)

/-- A segment's data, its CHFLAGS and whether anything was absent (R335). -/
def Dev.segData (d : Dev) (a : Nat) (s : AsySeg) : List Byte × List Nat × Bool :=
  if d.getB F.ASY_ACTL_KIND a then
    let es := d.areaEntries a
    let dom := d.areaDomain a
    let steps := (List.range s.len).map fun i => es.map fun e => d.histEntry dom (s.first + i) e
    let bytes := steps.flatMap fun st => st.flatMap fun e => match e with
      | some (v, q) => le 4 v ++ le 4 q
      | none => le 4 0 ++ le 4 2
    (bytes, List.replicate 16 0, steps.any fun st => st.any Option.isNone)
  else
    let chans := d.areaChans a
    let blocks := chans.map fun c => (c, d.segCodes c s)
    let bytes := blocks.flatMap fun b =>
      (b.2.flatMap fun x => le 2 (x.getD 0).toNat) ++ List.replicate (rawBlockLen s.len - 2 * s.len) 0
    let flags := (List.range 16).map fun c => match blocks.find? fun b => b.1 == c with
      | some b => d.chFlags c s (b.2.any Option.isNone)
      | none => 0
    (bytes, flags, blocks.any fun b => b.2.any Option.isNone)

/-- A segment's header, 128 B (R334). -/
def Dev.segHeader (d : Dev) (a : Nat) (s : AsySeg) (chflags : List Nat) (gap lost : Bool) : List Byte :=
  let step := calSteps (d.sampleInst a (s.first + s.len - 1) / 20) d.clk.cal != calSteps (d.sampleInst a s.first / 20) d.clk.cal
  let flags := s.flags + 2 * s.maskno.isSome.toNat + 4 * lost.toNat + 32 * step.toNat + 64 * gap.toNat
  let h := packFields ([(2, 1), (1, a + 8 * d.getF F.ASY_ACTL_KIND a), (1, s.prim), (4, (d.area a).segno), (8, s.inst / 20), (1, s.inst % 20),
    (1, s.smask), (2, s.psrc), (1, s.from_), (1, (calSegAt d.clk.cal (s.inst / 20)).state), (2, flags), (8, d.calAt (s.inst / 20)), (4, s.dead),
    (4, s.len), (4, s.post), (4, s.postReq), (8, unsgn 64 s.first), (2, d.getF F.ASY_ASEL_SEL a), (1, s.maskno.getD 255), (1, 0),
    (4, d.areaData a s.len)] ++ chflags.map (fun f => (1, f)) ++ [(44, 0)])
  h ++ le 4 (crc32c h)

/-- How many segments ago an area's slot was written: 8192 where it holds none. -/
def Dev.slotAge (d : Dev) (a i : Nat) : Nat := match (d.area a).slots.find? fun p => p.2 == i with
  | some p => (d.getF F.ASY_ASTAT_WIDX a + 8191 - p.1) % 8192
  | none => 8192

/-- The slot that an area's next segment takes: WIDX mod SEGS; while slots hold FROZEN segments, the one written longest ago of the others
(R332). -/
def Dev.segSlot (d : Dev) (a : Nat) : Nat :=
  let n := d.getF F.ASY_ASEGS_SEGS a
  let w := d.getF F.ASY_ASTAT_WIDX a
  let x := d.area a
  if x.frozen = [] then w % n
  else
    let free := ((List.range n).map fun i => (w + i) % n).filter fun i => !x.frozen.contains i
    free.foldl (fun (j i : Nat) => if d.slotAge a j < d.slotAge a i then i else j) (free.headD (w % n))

/-! ### Record memory (skip 26) -/

/-- Octets cut into the payloads of lumps. -/
def lumpsOf : Nat → List Byte → List (List Byte)
  | 0, _ => []
  | n + 1, l => if l.isEmpty then [] else l.take 64 :: lumpsOf n (l.drop 64)

/-- Assay writes octets into record memory by lumps of skip 26 (R17); those that find no credit wait in its staging buffer (R18, R336). -/
def Dev.store (d : Dev) (addr : Nat) (b : List Byte) : Dev :=
  (lumpsOf b.length b).zipIdx.foldl (fun d p => d.sendLump 26 0x218 false none ((p.1.length + 7) / 8) (.store (addr + 64 * p.2) p.1)) d

/-- The octets that the staging buffer holds (R336). -/
def Dev.staged (d : Dev) : Nat := (d.skip 26).waiting.foldl (fun n l => n + 8 * l.tag.len) 0

/-- Whether the staging buffer of 8 MiB cannot hold some octets more. -/
def Dev.stagingFull (d : Dev) (n : Nat) : Bool := decide (2 ^ 23 < d.staged + n)

/-- A lump of skip 26 reaches record memory. -/
def Dev.storeTake (d : Dev) (addr : Nat) (b : List Byte) : Dev :=
  { d with recMem := Memory.writeBytes d.recMem addr b }.unpoison 0 addr b.length

/-- A segment is finished: its header and data go to its slot, or, where it is LOST, its header (R331, R334 to R336, R339). -/
def Dev.segEnd (d : Dev) (a : Nat) (s : AsySeg) (lost : Bool) : Dev :=
  let x := d.area a
  let slot := d.segSlot a
  let body := d.segData a s
  let at_ := d.getF F.ASY_ABASE_ABASE a * 2 ^ 20 + slot * d.areaSlot a
  let bytes := d.segHeader a s body.2.1 body.2.2 lost ++ (if lost then [] else body.1)
  let last := d.sampleInst a (s.first + s.len - 1)
  let d := d.store at_ bytes
  let slots := SMap.set (x.slots.filter fun p => p.2 != slot) (d.getF F.ASY_ASTAT_WIDX a) slot
  let d := d.incWrap F.ASY_ASTAT_WIDX a
  let frozen := if s.maskno.isSome then slot :: x.frozen else x.frozen
  let d := d.setArea a { x with seg := none, segno := x.segno + 1, last := some last, frozen := frozen, slots := slots }
  let d := if lost then
      ((d.incF F.ASY_ACNT_LOST a).flag F.ASY_STAT_LOST 0 a 13).record 0x0048 0x218 [(1, a), (4, x.segno), (8, s.inst / 20)]
    else d.flag F.ASY_STAT_SEG_DONE 0 a 12
  match s.maskno with
  | some m => d.areaStop a m
  | none => if d.getB F.ASY_ACTL_RUN a then d.arm a else d.areaState a 0

/-- SEGMENT_CAPTURE_END: the lumps with a segment's last sample have arrived; `full` says that the staging buffer could not
hold its bytes, as it cannot where they do not fit (R331, R336). -/
def Dev.segmentCaptureEnd (d : Dev) (a : Fin 8) (full : Bool) : Dev :=
  match (d.area a).seg with
  | some x =>
    if d.asyRuns ∧ d.segReached a x then
      d.segEnd a x (full || d.stagingFull (128 + d.areaData a x.len) || decide (d.sampleInst a x.first + 40000000000 < 20 * d.tsc))
    else d
  | none => d

/-- A write of ASY_ARIDXa: a FULL area with a slot free again arms (R332). -/
def Dev.ridxWritten (d : Dev) (a : Nat) : Dev := if d.getF F.ASY_ASTAT_STATE a = 3 ∧ d.asyRuns then d.arm a else d

/-- The regions of record memory in use but for one area's: areas and the trend ring, in MiB. -/
def Dev.recRegions (d : Dev) (a : Nat) : List (Nat × Nat) :=
  (d.getF F.ASY_TBASE_TBASE, d.getF F.ASY_TSIZE_TSIZE) ::
    ((List.range 8).filter fun b => b != a).map fun b => (d.getF F.ASY_ABASE_ABASE b, d.getF F.ASY_ASIZE_ASIZE b)

/-- Whether two regions share a place. -/
def overlaps (x y : Nat × Nat) : Bool := decide (0 < x.2 ∧ 0 < y.2 ∧ x.1 < y.1 + y.2 ∧ y.1 < x.1 + x.2)

/-- Whether an area's composite breaks R333. -/
def Dev.areaBroken (d : Dev) (a : Nat) : Bool :=
  let D := d.seam.design
  let point := d.getB F.ASY_ACTL_KIND a
  let len := d.areaLen a
  let es := d.areaEntries a
  let dom := d.areaDomain a
  let mine := (d.getF F.ASY_ABASE_ABASE a, d.getF F.ASY_ASIZE_ASIZE a)
  let listed := decide (es.length = d.getF F.ASY_ASEL_SEL a ∧ 1 ≤ es.length ∧ es.length ≤ 64)
  let oneDomain := es.all fun e => D.domainOf (faceOf e.1) == dom
  let long := if !point then decide (30000000000 < len * d.areaUnit a)
    else if dom < 12 then decide (3 * 39778 * domainN dom < 2000 * len)
    else decide (3 * 9995 * frRate (d.getF F.FLT_CTL_FR_RATE) < 20000 * len)
  d.getB F.ASY_ACTL_RUN a &&
    ((point && !(listed && oneDomain)) || decide (d.areaSlot a < 128 + d.areaData a len) || long ||
      (d.recRegions a).any (overlaps mine) || decide (3072 < mine.1 + mine.2))

/-- A commit of an area's composite that is not refused (R329, R332, R339). -/
def Dev.areaCommitted (d : Dev) (a : Nat) (oldRun restart : Bool) : Dev :=
  let run := d.getB F.ASY_ACTL_RUN a
  let start := run && !oldRun
  let d := if start ∨ restart then d.setArea a { d.area a with segno := 0, fresh := true, frozen := if restart then [] else (d.area a).frozen }
    else d
  if (d.area a).seg.isSome ∨ ¬d.asyRuns then d
  else if ¬run then d.areaState a 0
  else if start ∨ restart then d.arm a
  else d

/-! ### Mask tests (R338, R339) -/

/-- The point of a mask test. -/
def Dev.maskPoint (d : Dev) (m : Nat) : Nat := d.getF F.ASY_MKPLO_ADDR_LO m + 65536 * d.getF F.ASY_MKPHI_ADDR_HI m

/-- A limit of a mask test: L (0) or U (1) at a position. -/
def Dev.limit (d : Dev) (m ul i : Nat) : Rat := f32 (SMap.getD d.asy.env (512 * m + 256 * ul + i) 0)

/-- A step of the point of a mask test. -/
def Dev.maskStep (d : Dev) (m n k qual : Nat) (v : Rat) (inst : Nat) : Dev :=
  let x : AsyMask := SMap.getD d.asy.masks m {}
  let i := k % n
  let bad := qual % 2 == 1 && (decide (d.limit m 1 i < v) || decide (v < d.limit m 0 i))
  let run := if bad then x.run + 1 else 0
  let hits := bad && run == d.getF F.ASY_MKCTL_VCNT m && x.hold == 0
  let hold := if hits ∨ (bad ∧ 0 < x.hold) then n else x.hold - 1
  let d := d.setAsy { d.asy with masks := SMap.set d.asy.masks m ⟨run, hold⟩ }
  let d := d.setB F.ASY_MKSTAT_HOLDOFF m (decide (0 < hold))
  if hits then
    (((d.incF F.ASY_MKSTAT_VIOL m).flag F.ASY_STAT_VIOL 0 m 13).record 0x0049 0x219 [(1, m), (4, k % 2 ^ 32), (4, f32Of v)]).present (.mask m inst)
  else d

/-- Whether the composite of a mask test breaks R333, or names a point that is no angle-domain one (R338). -/
def Dev.maskBroken (d : Dev) (m : Nat) : Bool :=
  d.getB F.ASY_MKCTL_EN m &&
    !(d.seam.design.assay.contains (d.maskPoint m) && decide (d.seam.design.domainOf (faceOf (d.maskPoint m)) < 12))

/-- A commit of a mask test starts it anew. -/
def Dev.maskCommitted (d : Dev) (m : Nat) : Dev :=
  (d.setAsy { d.asy with masks := SMap.erase d.asy.masks m }).setF F.ASY_MKSTAT_HOLDOFF m 0

/-- Whether the position of a limit lies outside the cycle of its mask test (R35); a test without a point of the image has no N to
hold it against (log entry 46). -/
def Dev.envBroken (d : Dev) : Bool :=
  let p := d.maskPoint (d.getF F.ASY_ENVSEL_MASK)
  let dom := d.seam.design.domainOf (faceOf p)
  d.seam.design.assay.contains p && decide (dom < 12 ∧ domainN dom ≤ d.getF F.ASY_ENVSEL_IDX)

/-- A commit of ASY_ENVHI: the limit at the ASY_ENVSEL address takes the binary32 code (R338). -/
def Dev.envCommitted (d : Dev) : Dev :=
  let key := 512 * d.getF F.ASY_ENVSEL_MASK + 256 * d.getF F.ASY_ENVSEL_UL + d.getF F.ASY_ENVSEL_IDX
  d.setAsy { d.asy with env := SMap.set d.asy.env key (d.getF F.ASY_ENVLO_LIM_LO + 65536 * d.getF F.ASY_ENVHI_LIM_HI) }

/-! ### Trend channels (R340 to R342) -/

/-- The point of a trend channel. -/
def Dev.trendPoint (d : Dev) (n : Nat) : Option Nat := d.seam.design.assay[d.getF F.ASY_TSRC_SRC n]?

/-- The number of the interval that holds a step (R341). -/
def Dev.trendId (d : Dev) (n k ns : Nat) (dom : Nat) : Nat :=
  let t := max 1 (d.getF F.ASY_TIVAL_TIVAL n)
  if d.getB F.ASY_TCTL_UNIT n then d.calAt ns / (t * 1000000000) else k / domainN dom / t

/-- A binary64 sum. -/
def add64 (a b : Rat) : Rat := f64 (f64Of (a + b))

/-- An interval takes a sample: its reductions if VALID, its count otherwise (R340). -/
def TrendInt.add (c : TrendInt) (t16 qual : Nat) (v : Rat) (step : Bool) : TrendInt :=
  let f := (qual.testBit 4).toNat * 4 + (qual.testBit 2).toNat * 8 + (qual.testBit 5).toNat * 16 + (qual.testBit 6).toNat * 32 + step.toNat * 2
  let c := { c with stop := t16 / 16, flags := c.flags ||| f }
  if qual % 2 = 1 then
    { c with
      nval := c.nval + 1
      min := if c.nval = 0 ∨ v < c.min then v else c.min
      max := if c.nval = 0 ∨ c.max < v then v else c.max
      sum := add64 c.sum v
      sumSq := add64 c.sumSq (f64 (f64Of (v * v))) }
  else { c with ninv := c.ninv + 1 }

/-- A sample of a trend channel's point. -/
def Dev.trendStep (d : Dev) (n dom k t16 qual : Nat) (v : Rat) : Dev :=
  let x := d.trend n
  let id := d.trendId n k (t16 / 16) dom
  let steps := calSteps (t16 / 16) d.clk.cal
  let seconds := d.getB F.ASY_TCTL_UNIT n
  let tick := d.tickNext
  let whole := if seconds then 0 else domainN dom * max 1 (d.getF F.ASY_TIVAL_TIVAL n)
  let start : TrendInt := (⟨id, steps, t16 / 16, t16 / 16, 0, 0, 0, 0, 0, 0, 0⟩ : TrendInt).add t16 qual v false
  let close (x : Trend) (c : TrendInt) : Trend :=
    if !seconds && k % whole == whole - 1 then { x with cur := none, skip := some c.id, ended := x.ended ++ [(tick, c)] }
    else { x with cur := some c }
  d.setTrend n (match x.cur with
    | none => if x.skip = some id then x else close x start
    | some c =>
      if seconds ∧ c.cal ≠ steps then { x with cur := some ({ c with id := id, cal := steps }.add t16 qual v true) }
      else if c.id ≠ id then close { x with ended := x.ended ++ [(tick, c)] } start
      else close x (c.add t16 qual v false))

/-- A trend record, 48 B (R342). -/
def trendBytes (n : Nat) (c : TrendInt) (seqno : Nat) (lost : Bool) : List Byte :=
  let q : Rat := (c.nval : Rat)
  let e := c.nval == 0
  let w (v : Rat) : Nat := if e then 0 else f32Of v
  packFields [(4, w c.min), (4, w c.max), (4, w (c.sum / q)), (4, w (sqrtR (c.sumSq / q))), (8, c.start), (8, c.stop), (4, c.nval),
    (4, c.ninv), (1, n), (1, e.toNat + c.flags + 64 * lost.toNat), (2, 0), (4, seqno)]

/-- Writes octets into a ring of record memory. -/
def Dev.storeRing (d : Dev) (base size pos : Nat) (b : List Byte) : Dev :=
  let n := size - pos % size
  (d.store (base + pos % size) (b.take n)).store base (b.drop n)

/-- The ended intervals: the earliest tick first, then the lowest channel (R342). -/
def Dev.trendDue (d : Dev) : Option (Nat × Nat × TrendInt) :=
  d.asy.trends.foldl (fun best p => match p.2.ended with
    | [] => best
    | e :: _ => match best with
      | none => some (p.1, e)
      | some b => if e.1 < b.2.1 then some (p.1, e) else some b) none

/-- TREND_INTERVAL_END: a channel's interval has ended, and its record goes to the trend ring; `full` says that the
staging buffer is full, as it is where 48 B do not fit, and the record is discarded and counted (R342). -/
def Dev.trendIntervalEnd (d : Dev) (full : Bool) : Dev :=
  match d.trendDue with
  | none => d
  | some (n, _, c) =>
    let x := d.trend n
    let y := { x with ended := x.ended.drop 1, seqno := (x.seqno + 1) % 2 ^ 32 }
    let size := d.getF F.ASY_TSIZE_TSIZE * 2 ^ 20
    if full ∨ size = 0 ∨ d.stagingFull 48 then (d.setTrend n { y with lost := true }).incF F.ASY_TCNT_LOST
    else
      let d := d.storeRing (d.getF F.ASY_TBASE_TBASE * 2 ^ 20) size (48 * d.getF F.ASY_TWR_WRITTEN) (trendBytes n c x.seqno x.lost)
      (d.setTrend n { y with lost := false }).incWrap F.ASY_TWR_WRITTEN

/-- Whether the composite of a trend channel breaks R333 or R341. -/
def Dev.trendBroken (d : Dev) (n : Nat) : Bool :=
  let t := d.getF F.ASY_TIVAL_TIVAL n
  let seconds := d.getB F.ASY_TCTL_UNIT n
  d.getB F.ASY_TCTL_EN n && (match d.trendPoint n with
    | none => true
    | some a => decide (t = 0) || (if seconds then decide (600 < t) else decide (24000 < t) || decide (12 ≤ d.seam.design.domainOf (faceOf a))))

/-- A channel starts at the first boundary after now (R341). -/
def Dev.trendStart (d : Dev) (n : Nat) : Dev :=
  match d.trendPoint n with
  | some a =>
    let dom := d.seam.design.domainOf (faceOf a)
    let x := d.trend n
    d.setTrend n { skip := some (d.trendId n (d.domNext dom - 1) d.tsc dom), ended := x.ended }
  | none => d

/-! ### Points (R193, R321) -/

/-- The entries of a lump with a phasor's two taken together: address, QUAL, first and second word.  A phasor whose second entry the next
lump carries waits for it. -/
def Design.pairUp (D : Design) : List (Nat × Nat × Nat) → List (Nat × Nat × Nat × Nat)
  | (a, q, v) :: (b, r, w) :: es => if D.typeOf a = 3 then (a, q, v, w) :: D.pairUp es else (a, q, v, 0) :: D.pairUp ((b, r, w) :: es)
  | [(a, q, v)] => if D.typeOf a = 3 then [] else [(a, q, v, 0)]
  | [] => []

/-- The number that mask tests and trend channels take of a point: an analogue value, or the magnitude of a phasor (R338, R340). -/
def AsyPt.number (p : AsyPt) (typ : Nat) : Rat :=
  if typ = 3 then sqrtR (mag2 (f32 p.val, f32 p.val2)) else f32 p.val

/-- A point value of a step is presented: to the sequencers, the mask tests and the trend channels. -/
def Dev.pointPresent (d : Dev) (dom k t16 addr qual val val2 : Nat) : Dev :=
  let p : AsyPt := ⟨val, val2, qual, units50 t16, faceOf addr⟩
  let v := p.number (d.seam.design.typeOf addr)
  let old := SMap.get? d.asy.pts addr
  let d := (d.setAsy { d.asy with pts := SMap.set d.asy.pts addr p }).present (.point addr old p)
  let d := (List.range 8).foldl (fun d m =>
    if d.getB F.ASY_MKCTL_EN m ∧ d.maskPoint m = addr ∧ dom < 12 then d.maskStep m (domainN dom) k qual v p.inst else d) d
  (List.range 32).foldl (fun d n =>
    if d.getB F.ASY_TCTL_EN n ∧ d.trendPoint n = some addr then d.trendStep n dom k t16 qual v else d) d

/-- A SEAM→ASY lump reaches Assay: its entries join the point history and are presented (R193, R321). -/
def Dev.asyPoints (d : Dev) (pit k24 dom : Nat) (es : List (Nat × Nat × Nat)) : Dev :=
  if ¬d.asyRuns then d
  else
    match (d.instsOf dom).find? fun p => p.k % 2 ^ 24 == k24 % 2 ^ 24, es with
    | some ⟨k, t16, _⟩, e :: _ =>
      let full := es.map fun e => (fullAddr pit e.1, e.2)
      let g := faceOf (fullAddr pit e.1)
      let l := SMap.getD d.asy.hist dom []
      let same (h : HistStep) : Bool := h.k == k && h.face == g
      let prior := ((l.find? same).map fun h => h.entries).getD []
      let l := if l.any same then l.map (fun h => if same h then { h with entries := h.entries ++ full } else h)
        else (⟨k, g, full⟩ :: l).take 65536
      let d := d.setAsy { d.asy with hist := SMap.set d.asy.hist dom l }
      let split := match prior.getLast? with
        | some p => if d.seam.design.typeOf p.1 = 3 ∧ prior.countP (fun x => x.1 == p.1) = 1 then [p] else []
        | none => []
      (d.seam.design.pairUp (split ++ full)).foldl (fun d x => d.pointPresent dom k t16 x.1 x.2.1 x.2.2.1 x.2.2.2) d
    | _, _ => d

/-- A TWU arrival is presented (R282). -/
def Dev.asyTwu (d : Dev) (g arr : Nat) : Dev := d.present (.twu g arr)

/-! ### Start and stop (R349) -/

/-- Assay starts when the credit plan is applied: sequencers with RUN enter state 0, running areas arm, trend channels wait
for their first boundary. -/
def Dev.asyStart (d : Dev) : Dev :=
  let d := d.setAsy { d.asy with started := true }
  let d := (List.range 8).foldl (fun d q => if d.getB F.ASY_SQCTL_RUN q then (d.setF F.ASY_SQSTAT_RUNNING q 1).seqEnter q 0 d.tickNext else d) d
  let d := (List.range 8).foldl (fun d a => if d.getB F.ASY_ACTL_RUN a then d.arm a else d) d
  (List.range 32).foldl (fun d n => if d.getB F.ASY_TCTL_EN n then d.trendStart n else d) d

/-- Assay stops; record memory keeps its contents. -/
def Dev.asyStop (d : Dev) : Dev :=
  (List.range 8).foldl (fun d q => d.setF F.ASY_SQSTAT_RUNNING q 0) (d.setAsy { d.asy with started := false, pres := [] })

end Sys2Proof.Machine
end

