-- ==== Sys2Proof/Machine/Tlk.lean ====
section
/-!
DEFINITION. The trigger link on X9: position, link-up and cable measurement, link time, trigger frames.
-/
namespace Sys2Proof.Machine

/-- Replaces the trigger link. -/
def Dev.setTlk (d : Dev) (x : Tlk) : Dev := { d with tlk := x }

/-- Whether the link runs (R349). -/
def Dev.linkRuns (d : Dev) : Bool := d.asyRuns && d.getB F.TLK_CTL_EN

/-- Whether the module is the head of a chain (R343). -/
def Dev.isHead (d : Dev) : Bool := d.getB F.TLK_CTL_ROLE

/-- A change of state, which is recorded (R351, R365). -/
def Dev.tlkState (d : Dev) (new : Nat) : Dev :=
  let old := d.getF F.TLK_STAT_STATE
  if old = new then d
  else (d.setF F.TLK_STAT_STATE 0 new).record 0x004B 0x290 [(1, old), (1, new), (1, d.getF F.TLK_STAT_POS)]

/-- The link is left: everything measured is forgotten and it starts again at step 1 (R344). -/
def Dev.tlkForget (d : Dev) : Dev := ((d.setTlk {}).setF F.TLK_HOP_HOP 0 0).setF F.TLK_CUM_CUM 0 0

/-- Leaving UP for DOWN (R344). -/
def Dev.tlkLost (d : Dev) : Dev :=
  if d.getF F.TLK_STAT_STATE = 2 ∧ ¬d.isHead then ((d.tlkState 0).flag F.TLK_STAT_LOSS 0 0 22).tlkForget else d

/-- The link starts or stops with EN, ROLE and Assay: the head is UP at position 0 with OFS 0, a member is DOWN (R343 to R345). -/
def Dev.tlkApply (d : Dev) : Dev :=
  if d.linkRuns then
    if d.isHead then ((d.setF F.TLK_STAT_POS 0 0).setF F.TLK_STAT_OVERLONG 0 0).tlkForget.tlkState 2 else d
  else (d.tlkState 0).tlkForget

/-- A write of TLK_CTL that changes it. -/
def Dev.tlkCtlWritten (d : Dev) (changed : Bool) : Dev :=
  if changed then (if d.linkRuns then d.tlkForget.tlkState 0 else d).tlkApply else d

/-- A frame arrives: a bad one is counted, and the third in a row ends UP (R344, R346). -/
def Dev.linkFrame (d : Dev) (f : BitVec 80) : Dev × Option Nat :=
  match framePayload f with
  | some p => (d.setTlk { d.tlk with bad := 0 }, some p)
  | none =>
    let d := (d.incF F.TLK_STAT_BADFRM).setTlk { d.tlk with bad := d.tlk.bad + 1 }
    (if 3 ≤ d.tlk.bad then d.tlkLost else d, none)

/-- The second count of the link. -/
def Dev.linkSecond (d : Dev) : Nat := if d.isHead then d.tsc / 1000000000 else d.tlk.second.getD 0

/-- Sends the ADMIN frame on port D: HOP of the hop below, the module's own CUM, the low 8 bits of S (R344 to R346). -/
def Dev.sendAdmin (d : Dev) : Dev :=
  d.linkSend true d.tsc
    (linkPayload 3 0 (d.getF F.TLK_STAT_POS) (d.tlk.hopDown % 2 ^ 24 + 2 ^ 24 * d.getF F.TLK_CUM_CUM + 2 ^ 48 * (d.linkSecond % 256)))

/-- HEAD_PPS: the head drives PPS at a whole second of its TSC and sends the second count (R343, R345). -/
def execHeadPps (s : State) : Out := s.up fun d =>
  if d.linkRuns ∧ d.isHead ∧ d.tsc % 1000000000 = 0 then
    { d with out := d.out ++ [Output.linkPps d.tsc] }.sendAdmin
  else d

/-- The link-time offset of the latest edge, in 50 ps units (R345). -/
def Tlk.offset (t : Tlk) (second cum : Nat) : Int := 20000000000 * (second : Int) - (20 * (t.edgeAt : Int) - cum)

/-- PPS_EDGE_RECEIVE: a PPS edge on port U, with the drift of REF against the local timebase over the second before, in
2⁻⁴⁰ of 50 ps units per ns (R344, R345): the third from DOWN leads to MEASURE; once CUM and S are known each edge gives an offset, and three that
agree within 2 ns lead to UP. -/
def execPpsEdgeReceive (drift : BitVec 32) (s : State) : Out := s.up fun d =>
  if d.linkRuns ∧ ¬d.isHead then
    let d := { d with out := d.out ++ [Output.linkPps (d.tsc + 6)] }
    let t := { d.tlk with edges := d.tlk.edges + 1, edgeAt := d.tsc, rate := drift.toInt }
    match t.second, t.cum with
    | some sec, some cum =>
      let o := t.offset (sec + 1) cum
      let agree := (o :: t.agree).take 3
      let d := d.setTlk { t with second := some (sec + 1), ofs := o, agree := agree }
      if d.getF F.TLK_STAT_STATE = 1 ∧ agree.length = 3 ∧ agree.all fun x => agree.all fun y => decide (x - y ≤ 40) then d.tlkState 2 else d
    | _, _ =>
      let d := d.setTlk t
      if d.getF F.TLK_STAT_STATE = 0 ∧ 3 ≤ t.edges ∧ ¬d.getB F.TLK_STAT_OVERLONG then d.tlkState 1 else d
  else d

/-- PROBE_SEND: the upstream neighbour sends the next of 256 probes (R344). -/
def execProbeSend (s : State) : Out := s.up fun d =>
  if d.linkRuns ∧ d.tlk.probes < 256 then
    (d.linkSend true d.tsc (linkPayload 1 0 (d.getF F.TLK_STAT_POS) 0)).setTlk { d.tlk with probes := d.tlk.probes + 1 }
  else d

/-- A module takes its position from its upstream neighbour; position 8 leaves it DOWN (R343). -/
def Dev.takePos (d : Dev) (origin : Nat) : Dev :=
  if d.isHead then d
  else if origin = 7 then (d.setF F.TLK_STAT_OVERLONG 0 1).tlkState 0
  else (d.setF F.TLK_STAT_OVERLONG 0 0).setF F.TLK_STAT_POS 0 (origin + 1)

/-- PROBE_RECEIVE: a PROBE on port U is returned as ECHO 400 ns after its arrival (R344). -/
def execProbeReceive (f : BitVec 80) (s : State) : Out := s.up fun d =>
  if d.linkRuns then
    match d.linkFrame f with
    | (d, some p) =>
      if bits p 0 2 = 1 then
        let d := d.takePos (bits p 5 3)
        (d.linkSend false (d.tsc + 400) (linkPayload 2 0 (d.getF F.TLK_STAT_POS) 0)).setTlk { d.tlk with echoes := d.tlk.echoes + 1 }
      else d
    | (d, none) => d
  else d

/-- ECHO_RECEIVE: an ECHO on port D with its round trip in 50 ps units; after 256 the HOP is known and sent (R344). -/
def execEchoReceive (f : BitVec 80) (rt : BitVec 32) (s : State) : Out := s.up fun d =>
  if d.linkRuns then
    match d.linkFrame f with
    | (d, some p) =>
      if bits p 0 2 = 2 ∧ d.tlk.trips.length < d.tlk.probes then
        let trips := rt.toNat :: d.tlk.trips
        if trips.length = 256 then
          let sum : Int := trips.foldl (fun (a : Int) r => a + ((r : Int) - 8000)) 0
          (d.setTlk { d.tlk with trips := [], probes := 0, hopDown := (sum / 512).toNat }).sendAdmin
        else d.setTlk { d.tlk with trips := trips }
      else d
    | (d, none) => d
  else d

/-- The second count whose low 8 bits are given: nearest to the one expected; the first time the bits above are a free value. -/
def Dev.resolveSecond (d : Dev) (low : Nat) : Dev × Nat :=
  match d.tlk.second with
  | some sec => (d, ((sec : Int) + sgn 8 (low + 256 - sec % 256)).toNat)
  | none => (d.draw, 256 * (d.peekFree % 2 ^ 32) + low)

/-- ADMIN_RECEIVE: an ADMIN frame on port U: in MEASURE, after the probes, CUM and HOP are taken; S is the second of the
latest edge; the frame goes on to port D with the module's own (R344, R345). -/
def execAdminReceive (f : BitVec 80) (s : State) : Out := s.up fun d =>
  if d.linkRuns ∧ ¬d.isHead then
    match d.linkFrame f with
    | (d, some p) =>
      if bits p 0 2 = 3 then
        let d := d.takePos (bits p 5 3)
        let hop := bits p 8 24
        let d := if d.getF F.TLK_STAT_STATE = 1 ∧ 256 ≤ d.tlk.echoes ∧ d.tlk.cum = none then
            let cum := bits p 32 24 + hop + 120
            ((d.setF F.TLK_HOP_HOP 0 hop).setF F.TLK_CUM_CUM 0 cum).setTlk { d.tlk with cum := some cum }
          else d
        let d := match d.tlk.cum with
          | some cum =>
            let r := d.resolveSecond (bits p 56 8)
            let t := r.1.tlk
            r.1.setTlk { t with
              second := some r.2, ofs := t.offset r.2 cum
              agree := if t.second = some r.2 then t.agree else [] }
          | none => d
        d.sendAdmin
      else d
    | (d, none) => d
  else d

/-- LINK_DOWN: REF has been absent for 1 µs or PPS for 1.1 s (R344). -/
def execLinkDown (s : State) : Out := s.up fun d => if d.linkRuns then d.tlkLost else d

/-- TRIGGER_FRAME_RECEIVE: a TRIGGER on a port is repeated towards the other within 400 ns and presented; its instant is that of its
origin, or the tick of receipt while the module is not UP (R347). -/
def execTriggerFrameReceive (portD : Bool) (f : BitVec 80) (s : State) : Out := s.up fun d =>
  if d.linkRuns then
    match d.linkFrame f with
    | (d, some p) =>
      if bits p 0 2 = 0 then
        let d := d.incF F.TLK_CNT_RCVD
        let d := (d.linkSend (!portD) (d.tsc + d.peekFree % 401) p).draw
        let now : Int := 20 * (d.tsc : Int) + d.linkOfs
        let up := d.getF F.TLK_STAT_STATE == 2
        let inst := if up then (now + sgn 56 (unsgn 56 ((bits p 8 56 : Int) - now)) - d.linkOfs).toNat else 20 * d.tickNext
        d.present (.link (bits p 2 3) inst (bits p 5 3) (!up))
      else d
    | (d, none) => d
  else d

end Sys2Proof.Machine
end

