-- ==== Sys2Proof/Machine/Tally.lean ====
section
/-!
DEFINITION. Tally: the merge buffer, channels and their units, both stores, snapshots, freezing, store failures.
-/
namespace Sys2Proof.Machine

/-! ### State -/

/-- Replaces Tally's volatile part. -/
def Dev.setTly (d : Dev) (x : Tally) : Dev := { d with tly := x }
/-- A channel as the MRAM holds it. -/
def Dev.tlyCh (d : Dev) (c : Nat) : TlyCh := SMap.getD d.nv.chans c {}
/-- Replaces a channel. -/
def Dev.setTlyCh (d : Dev) (c : Nat) (x : TlyCh) : Dev := { d with nv := { d.nv with chans := SMap.set d.nv.chans c x } }
/-- The bytes of a unit. -/
def TlyCh.unit (x : TlyCh) : Nat := if x.full then 64 else 32
/-- The units of the near region. -/
def TlyCh.nearUnits (x : TlyCh) : Nat := x.nsize * 65536 / x.unit
/-- The units of the far region. -/
def TlyCh.farUnits (x : TlyCh) : Nat := x.fsize * 1048576 / x.unit
/-- The units of a far page. -/
def TlyCh.pageUnits (x : TlyCh) : Nat := 16384 / x.unit
/-- The records that a region still holds whole: none of their units overwritten (R357). -/
def heldOf (l : List (Nat × Nat × Nat)) (pos units : Nat) : List (Nat × Nat × Nat) := l.filter fun r => decide (pos ≤ r.2.1 + units)
/-- TLY_WSEQc (R357). -/
def TlyCh.wseq (x : TlyCh) : Nat := ((x.near.head?).map fun r => r.1).getD 0
/-- TLY_OSEQc. -/
def TlyCh.oseq (x : TlyCh) : Nat := ((x.near.getLast?).map fun r => r.1).getD 0
/-- Whether a store takes units. -/
def Dev.nearOk (d : Dev) : Bool := d.getB F.TLY_STAT_NEAR_OK
/-- Whether the far store has not FAILED. -/
def Dev.farOk (d : Dev) : Bool := d.getB F.TLY_STAT_FAR_OK
/-- Units that wait for the far store. -/
def Dev.farWaiting (d : Dev) : Nat := d.tly.pages.foldl (fun n p => n + p.2.length) 0

/-! ### Units (R358 to R362) -/

/-- Splits a body into pieces of a length. -/
def pieces : Nat → Nat → List Byte → List (List Byte)
  | 0, _, _ => []
  | fuel + 1, n, l => if l = [] then [] else l.take n :: pieces fuel n (l.drop n)

/-- Closes a unit with CHECK (R361). -/
def sealUnit (bs : List Byte) : List Byte := bs ++ le 2 (crc16 bs)

/-- The units of a record in a class. -/
def unitsOf (full : Bool) (seq : Nat) (r : RelRec) (side : Bool) : List (List Byte) :=
  let body := packFields r.body.fields
  let head := if full then 29 else 6
  let ext := if full then 57 else 25
  let more := pieces 4 ext (body.drop head)
  let pad (n : Nat) (l : List Byte) : List Byte := l.take n ++ List.replicate (n - l.length) 0
  let unit (i : Nat) : Nat := i + 4 * more.length + 16 * full.toNat + 32 * side.toNat + 64 * r.body.late.toNat
  let h := packFields [(4, seq), (1, unit 0), (3, r.pcyc), (8, r.body.tsc)]
  let hd := if full then packFields [(8, r.cal), (4, r.opsec), (2, r.body.src), (2, r.body.typ), (1, r.calst)]
    else packFields [(4, r.opsec), (2, r.body.src), (2, r.body.typ)]
  sealUnit (h ++ hd ++ pad head body) ::
    more.zipIdx.map fun p => sealUnit (packFields [(4, seq), (1, unit (p.2 + 1))] ++ pad ext p.1)

/-- A record with its power cycle, OPSEC and calendar (R363, R364). -/
def Dev.released (d : Dev) (r : Record) : RelRec :=
  ⟨r, d.nv.pcyc % 2 ^ 24, d.opsecAt r.tsc, d.calAt r.tsc % 2 ^ 64, (calSegAt d.clk.cal r.tsc).state⟩

/-- Writes consecutive units of a region, wrapping at its end (R357). -/
def writeUnits (m : Memory) (base size units : Nat) : Nat → List (List Byte) → Memory
  | _, [] => m
  | pos, u :: us => writeUnits (Memory.writeBytes m (base + pos % units * size) u) base size units (pos + 1) us

/-- Writes a record into the regions of a channel, with the next SEQ (R357, R377, R379). -/
def Dev.tlyPut (d : Dev) (c : Nat) (r : RelRec) (side toNear : Bool) : Dev :=
  let x := d.tlyCh c
  let us := unitsOf x.full x.seq r side
  let n := us.length
  let y := { x with seq := (x.seq + 1) % 2 ^ 32, clean := r.body.typ == 0x0061 }
  let nearGo := toNear && d.nearOk && decide (0 < x.nearUnits)
  let y := if nearGo then { y with npos := x.npos + n, near := heldOf ((x.seq, x.npos, n) :: x.near) (x.npos + n) x.nearUnits } else y
  let near := if nearGo then writeUnits d.nv.near (x.nbase * 65536) x.unit x.nearUnits x.npos us else d.nv.near
  let farGo := d.farOk && !d.tly.closed && decide (0 < x.farUnits)
  let fits := d.getB F.TLY_STAT_FAR_READY || decide (d.farWaiting + n ≤ 16384)
  let y := if farGo ∧ fits then { y with fpos := x.fpos + n, far := heldOf ((x.seq, x.fpos, n) :: x.far) (x.fpos + n) x.farUnits } else y
  let d := { d with nv := { d.nv with near := near } }
  let d := if nearGo then (List.range n).foldl (fun d i => d.unpoison 6 (x.nbase * 65536 + (x.npos + i) % x.nearUnits * x.unit) x.unit) d else d
  let d := d.setTlyCh c y
  if farGo then
    if fits then
      let q := SMap.getD d.tly.pages c [] ++ us.zipIdx.map fun p => (x.fpos + p.2, d.tsc, p.1)
      d.setTly { d.tly with pages := SMap.set d.tly.pages c q }
    else d.setTly { d.tly with farLost := d.tly.farLost + n, farFirst := if d.tly.farLost = 0 then r.body.tsc else d.tly.farFirst }
  else d

/-- Writes a record that Tally makes itself directly into a channel (R531). -/
def Dev.tlyDirect (d : Dev) (c typ tsc : Nat) (src : Nat) (fields : List (Nat × Nat)) : Dev :=
  d.tlyPut c (d.released { typ := typ, src := src, tsc := tsc, fields := fields }) false true

/-- The enabled channels. -/
def Dev.tlyChans (d : Dev) : List Nat := (List.range 8).filter fun c => (d.tlyCh c).en

/-! ### Release (R353, R354, R370 to R372) -/

/-- Whether a channel accepts a record (R353). -/
def Dev.tlyAccepts (d : Dev) (c : Nat) (r : Record) : Bool :=
  (d.tlyCh c).en &&
    (if r.typ / 16 = 6 then (if r.typ = 0x0062 ∨ r.typ = 0x0063 then r.src == 0x2B0 + c else true)
     else d.bitF F.TLY_CHSEL_GROUPS c (r.typ / 16 % 16))

/-- Shows whether a channel is frozen and what its side ring holds. -/
def Dev.showSide (d : Dev) (c : Nat) : Dev :=
  let f := d.getB F.TLY_FRZ_FREEZE c
  let d := (d.setB F.TLY_CHSTAT_FROZEN c f).setF F.TLY_CHSTAT_SIDE c (d.tlyCh c).side.length
  if f then d.setBit F.TLY_STAT_FROZEN 0 c else d.clrBit F.TLY_STAT_FROZEN 0 c

/-- Writes the side ring's records into both regions with SIDE = 1 (R371). -/
def Dev.sideOut (d : Dev) (c : Nat) : Dev :=
  let rs := (d.tlyCh c).side
  (rs.foldl (fun d r => d.tlyPut c r true true) (d.setTlyCh c { d.tlyCh c with side := [] })).showSide c

/-- A record finds the side ring full and breaks the freeze (R372). -/
def Dev.freezeBroken (d : Dev) (c : Nat) (r : RelRec) : Dev :=
  let d := (d.sideOut c).tlyPut c r true true
  let gen := ((d.tlyCh c).gen + 1) % 65536
  let d := d.tlyPut c { r with body := ⟨0x0063, 0x2B0 + c, r.body.tsc, [(2, gen), (8, d.tsc)], false, 0⟩ } false true
  let d := (d.setF F.TLY_FRZ_FREEZE c 0).setTlyCh c { d.tlyCh c with gen := gen }
  (d.flag F.TLY_STAT_BROKEN 0 c 18).showSide c

/-- A released record goes into every channel that accepts it; with both stores FAILED it is discarded and counted (R376). -/
def Dev.tlyRelease (d : Dev) (r : Record) : Dev :=
  if !d.nearOk ∧ !d.farOk then d.incF F.TLY_LOST_DISCARD
  else
    let x := d.released r
    (List.range 8).foldl (fun d c =>
      if d.tlyAccepts c r then
        if d.getB F.TLY_FRZ_FREEZE c then
          if 1024 ≤ (d.tlyCh c).side.length then d.freezeBroken c x
          else (d.setTlyCh c { d.tlyCh c with side := (d.tlyCh c).side ++ [x] }).showSide c
        else d.tlyPut c x false true
      else d) d

/-- The place of a record in the order of R72. -/
def recKey (r : Record) : Nat × Nat × Nat := (r.tsc, r.src, r.order)

/-- The order of R72. -/
def keyBelow (a b : Nat × Nat × Nat) : Bool :=
  decide (a.1 < b.1 ∨ (a.1 = b.1 ∧ (a.2.1 < b.2.1 ∨ (a.2.1 = b.2.1 ∧ a.2.2 < b.2.2))))

/-- The later of two places in that order. -/
def laterKey (a : Option (Nat × Nat × Nat)) (b : Nat × Nat × Nat) : Nat × Nat × Nat :=
  match a with
  | some k => if keyBelow b k then k else b
  | none => b

/-- The held record that is first in the order of R72. -/
def firstHeld (l : List Record) : Option Record :=
  l.foldl (fun best r => match best with
    | none => some r
    | some b => if keyBelow (recKey r) (recKey b) then some r else some b) none

/-- Releases the first held record (R354). -/
def Dev.releaseFirst (d : Dev) : Dev :=
  match firstHeld d.tly.merge with
  | none => d
  | some r => (d.setTly { d.tly with merge := d.tly.merge.erase r, lastRel := some (laterKey d.tly.lastRel (recKey r)) }).tlyRelease r

/-- RECORD_RELEASE: the first held record's time-stamp is 25 ms old (R354). -/
def Dev.recordRelease (d : Dev) : Dev :=
  match firstHeld d.tly.merge with
  | some r => if r.tsc + 25000000 ≤ d.tsc then d.releaseFirst else d
  | none => d

/-! ### Arrival and snapshots (R354, R367, R368) -/

/-- A record enters the merge buffer, or is released at once with LATE (R354). -/
def Dev.mergeIn (d : Dev) (r : Record) : Dev :=
  let below : Bool := match d.tly.lastRel with
    | some k => keyBelow (recKey r) k
    | none => false
  if r.tsc + 25000000 ≤ d.tsc ∧ below then
    ((d.tlyRelease { r with late := true }).incF F.TLY_LOST_LATE_N).flag F.TLY_STAT_LATE 0 0 18
  else d.setTly { d.tly with merge := d.tly.merge ++ [r] }

/-- Entry `i` of a channel's snapshot list: its register index. -/
def snIx (c i : Nat) : Nat := 16 * c + i

/-- A trigger that comes before the one that took a channel's snapshot in this cycle: the snapshot is its (R368). -/
def Dev.retrigger (d : Dev) (c typ src tsc : Nat) (key : Nat × Nat × Nat) : Dev :=
  let upd (r : Record) : Record :=
    if r.typ = 0x0062 ∧ r.src = 0x2B0 + c ∧ r.tsc = d.tsc then { r with fields := [(2, typ), (2, src), (8, tsc)] ++ r.fields.drop 3 } else r
  d.setTly { d.tly with merge := d.tly.merge.map upd, caps := SMap.set d.tly.caps c (d.tsc, key) }

/-- A channel's trigger: it captures its list in this cycle, or, within 1 ms of its previous capture, counts it (R367, R368); of the
triggers of one cycle the one lowest under R72 takes the snapshot. -/
def Dev.capture (d : Dev) (c typ src tsc order : Nat) (peek : Dev → Nat → Nat) : Dev :=
  let key := (tsc, src, order)
  match (SMap.get? d.tly.caps c).filter fun t => decide (d.tsc < t.1 + 1000000) with
  | some t =>
    let d := if t.1 = d.tsc ∧ keyBelow key t.2 then d.retrigger c typ src tsc key else d
    d.incF F.TLY_CHSTAT_SNAP_SKIP c
  | none =>
    let es := (List.range 16).filter fun i => d.getB F.TLY_SNHI_EN (snIx c i)
    let vals := es.map fun i => peek d (d.getF F.TLY_SNLO_ADDR_LO (snIx c i) + 65536 * d.getF F.TLY_SNHI_ADDR_HI (snIx c i))
    let d := d.setTly { d.tly with caps := SMap.set d.tly.caps c (d.tsc, key) }
    let r : Record := { typ := 0x0062, src := 0x2B0 + c, tsc := d.tsc, order := d.recOrder
                        fields := [(2, typ), (2, src), (8, tsc), (2, d.getF F.TLY_GEN_LISTGEN c), (1, vals.length)] ++ vals.map fun v => (4, v) }
    let d := { d with recOrder := d.recOrder + 1 }.mergeIn r
    if d.bitF F.TLY_CHTRG_TRG c 6 then d.incF F.TLY_CHSTAT_SNAP_SKIP c else d

/-- A record reaches Tally: it enters the merge buffer and triggers the channels that accept it and have its group in TRG. -/
def Dev.tlyTake (d : Dev) (r : Record) (peek : Dev → Nat → Nat) : Dev :=
  let d := d.mergeIn r
  (List.range 8).foldl (fun d c =>
    if d.tlyAccepts c r ∧ d.bitF F.TLY_CHTRG_TRG c (r.typ / 16 % 16) then d.capture c r.typ r.src r.tsc r.order peek else d) d

/-- Tally takes the oldest lump of skip 29, unless the merge buffer holds 4096 records (R354). -/
def Dev.recordArrival (d : Dev) (peek : Dev → Nat → Nat) : Dev :=
  if 4096 ≤ d.tly.merge.length then d
  else match d.takeLump 29 with
    | (d, some l) => match l.body with
      | .record r => d.tlyTake r peek
      | _ => d
    | (d, none) => d

/-- A write of TLY_FRZc (R367, R370, R371). -/
def Dev.frzWritten (d : Dev) (c src : Nat) (was strig : Bool) (peek : Dev → Nat → Nat) : Dev :=
  let now := d.getB F.TLY_FRZ_FREEZE c
  let d := if was ∧ ¬now then d.sideOut c else d.showSide c
  if strig then d.capture c 0 src d.tsc d.recOrder peek else d

/-- A commit of TLY_SNHI: the list's generation rises (R369). -/
def Dev.snapListCommitted (d : Dev) (c : Nat) : Dev := d.incWrap F.TLY_GEN_LISTGEN c

/-! ### Channel layouts (R352, R377, R378) -/

/-- Whether two ranges share a place. -/
def meets (a n b m : Nat) : Bool := decide (a < b + m ∧ b < a + n)

/-- Whether the composite of a channel makes regions of enabled channels overlap or leave their store (R352). -/
def Dev.tlyBroken (d : Dev) (c : Nat) : Bool :=
  let nb := d.getF F.TLY_NREG_NBASE c
  let ns := d.getF F.TLY_NREG_NSIZE c
  let fb := d.getF F.TLY_FBASE_FBASE c
  let fs := d.getF F.TLY_FSIZE_FSIZE c
  d.getB F.TLY_CHCTL_EN c &&
    (decide (192 < nb + ns ∨ 4096 < fb + fs) || (List.range 8).any fun b => b != c && d.getB F.TLY_CHCTL_EN b &&
      (meets nb ns (d.getF F.TLY_NREG_NBASE b) (d.getF F.TLY_NREG_NSIZE b) ||
        meets fb fs (d.getF F.TLY_FBASE_FBASE b) (d.getF F.TLY_FSIZE_FSIZE b)))

/-- LOG_OPEN of a channel (R377). -/
def Dev.logOpen (d : Dev) (c : Nat) : Dev :=
  let lost := d.getB F.SYS_START_THYME_LOST
  d.tlyDirect c 0x0060 d.tsc 0x2BA
    [(3, d.nv.pcyc), (1, (d.tlyCh c).clean.toNat), (8, if lost then 2 ^ 64 - 1 else d.getF F.SYS_OUTAGE_MS), (1, (!lost).toNat)]

/-- A layout that differs from that in MRAM formats the channel (R378). -/
def Dev.tlyCommitted (d : Dev) (c : Nat) : Dev :=
  let x := d.tlyCh c
  let y : TlyCh :=
    { en := d.getB F.TLY_CHCTL_EN c, full := d.getB F.TLY_CHCTL_CLASS c, nbase := d.getF F.TLY_NREG_NBASE c, nsize := d.getF F.TLY_NREG_NSIZE c
      fbase := d.getF F.TLY_FBASE_FBASE c, fsize := d.getF F.TLY_FSIZE_FSIZE c, gen := (x.gen + 1) % 65536, side := x.side }
  if (x.en, x.full, x.nbase, x.nsize, x.fbase, x.fsize) = (y.en, y.full, y.nbase, y.nsize, y.fbase, y.fsize) then d
  else
    let d := (d.setTlyCh c y).setTly { d.tly with pages := SMap.erase d.tly.pages c }
    if y.en ∧ d.tly.opened then d.logOpen c else d

/-- The registers that MRAM holds across power cycles show it on entry to BOOT. -/
def Dev.tlyBoot (d : Dev) : Dev :=
  (List.range 8).foldl (fun d c =>
    let x := d.tlyCh c
    let d := (d.setB F.TLY_CHCTL_EN c x.en).setB F.TLY_CHCTL_CLASS c x.full
    let d := (d.setF F.TLY_NREG_NBASE c x.nbase).setF F.TLY_NREG_NSIZE c x.nsize
    (d.setF F.TLY_FBASE_FBASE c x.fbase).setF F.TLY_FSIZE_FSIZE c x.fsize) d

/-- NEAR_STORE_OPEN: the side rings left over are written out, LOG_OPEN stands in every enabled channel, and skip 29 runs (R377). -/
def Dev.nearStoreOpen (d : Dev) : Dev :=
  if d.tly.opened then d
  else
    let d := d.setTly { d.tly with opened := true }
    let d := d.tlyChans.foldl (fun d c => d.sideOut c) d
    let d := d.tlyChans.foldl (fun d c => d.logOpen c) d
    d.startSkip 29

/-- FAR_STORE_READY: the far store takes the backlog; what did not fit is told by one RECORD_LOSS in it (R377, R531). -/
def execFarStoreReady (s : State) : Out := s.up fun d =>
  if d.getB F.TLY_STAT_FAR_READY ∨ ¬d.farOk then d
  else
    let d := d.setF F.TLY_STAT_FAR_READY 0 1
    if d.tly.farLost = 0 then d
    else
      let r := d.released { typ := 0x0064, src := 0x2B9, tsc := d.tsc, fields := [(4, d.tly.farLost), (8, d.tly.farFirst)] }
      (d.tlyChans.foldl (fun d c => d.tlyPut c r false false) d).setTly { d.tly with farLost := 0 }

/-! ### The far store (R380) -/

/-- The oldest page of a channel that waits to be programmed: its number, and its units. -/
def Dev.farPage (d : Dev) (c : Nat) : Option (Nat × List (Nat × Nat × List Byte)) :=
  match SMap.getD d.tly.pages c [] with
  | [] => none
  | u :: us =>
    let n := (d.tlyCh c).pageUnits
    some (u.1 / n, (u :: us).filter fun x => x.1 / n == u.1 / n)

/-- Programs a channel's oldest waiting page, padded where it is not full; padding counts as written (R357, R360). -/
def Dev.programPage (d : Dev) (c : Nat) : Dev :=
  match d.farPage c with
  | none => d
  | some (p, us) =>
    let x := d.tlyCh c
    let size := x.unit
    let n := x.pageUnits
    let last := p * n + n
    let stop := (us.getLast?.map fun u => u.1 + 1).getD last
    let far := us.foldl (fun m u => Memory.writeBytes m (x.fbase * 1048576 + u.1 % x.farUnits * size) u.2.2) d.nv.far
    let far := (List.range (last - stop)).foldl (fun m i =>
      Memory.writeBytes m (x.fbase * 1048576 + (stop + i) % x.farUnits * size) (List.replicate size 0xFF)) far
    let rest := (SMap.getD d.tly.pages c []).drop us.length
    let d := ({ d with nv := { d.nv with far := far } }.setTly { d.tly with pages := SMap.set d.tly.pages c rest })
    if rest = [] then d.setTlyCh c { d.tlyCh c with fpos := max x.fpos last, far := heldOf x.far (max x.fpos last) x.farUnits } else d

/-- FAR_PAGE_PROGRAM: a far page is full, or 250 ms have passed since its first unit (R380). -/
def execFarPageProgram (c : Fin 8) (s : State) : Out := s.up fun d =>
  if d.getB F.TLY_STAT_FAR_READY ∧ d.farOk then
    match d.farPage c with
    | some (p, us) =>
      let full := decide (us.getLast?.map (fun u => u.1) = some (p * (d.tlyCh c).pageUnits + (d.tlyCh c).pageUnits - 1))
      let old : Bool := match us with
        | u :: _ => decide (u.2.1 + 250000000 ≤ d.tsc)
        | [] => false
      if full || old then d.programPage c else d
    | none => d
  else d

/-- What a power cycle leaves of the far regions: units that no page has been programmed with are gone (R357). -/
def Dev.farCut (d : Dev) : Dev :=
  (List.range 8).foldl (fun d c => match SMap.getD d.tly.pages c [] with
    | [] => d
    | u :: _ => d.setTlyCh c { d.tlyCh c with fpos := u.1, far := (d.tlyCh c).far.filter fun r => decide (r.2.1 + r.2.2 ≤ u.1) }) d

/-! ### Failures (R374 to R376) -/

/-- Both stores have failed: the failure area has it, the latch and LOGLOSS are set and vector 0 fires (R376). -/
def Dev.logLoss (d : Dev) : Dev :=
  if d.nearOk ∨ d.farOk then d
  else
    let d := d.farea 1 0x000 (d.getF F.TLY_NEAR_CAUSE + 16 * d.getF F.TLY_FAR_CAUSE) 0
    (({ d with nv := { d.nv with logloss := true } }.trouble F.TRB_STICKY2_LOGLOSS).fire 0).postAlarm

/-- The STORE_FAIL record goes through the merge buffer (R531). -/
def Dev.storeFail (d : Dev) (src cause addr : Nat) (peek : Dev → Nat → Nat) : Dev :=
  { d with recOrder := d.recOrder + 1 }.tlyTake { typ := 0x0065, src := src, tsc := d.tsc, fields := [(1, cause), (8, addr)], order := d.recOrder } peek

/-- The near store fails (R374, R375). -/
def Dev.nearFail (d : Dev) (scrub : Bool) (addr : Nat) (peek : Dev → Nat → Nat) : Dev :=
  if d.nearOk then
    let cause := 1 + scrub.toNat
    let d := (d.setF F.TLY_NEAR_CAUSE 0 cause).setF F.TLY_STAT_NEAR_OK 0 0
    (((d.trouble F.TRB_STICKY2_TLY_NEAR).fire 18).storeFail 0x2B8 cause addr peek).logLoss
  else d

/-- The far store fails (R374, R375). -/
def Dev.farFail (d : Dev) (timeout : Bool) (addr : Nat) (peek : Dev → Nat → Nat) : Dev :=
  if d.farOk then
    let cause := 1 + timeout.toNat
    let d := ((d.setF F.TLY_FAR_CAUSE 0 cause).setF F.TLY_STAT_FAR_OK 0 0).setF F.TLY_STAT_FAR_READY 0 0
    (((d.trouble F.TRB_STICKY2_TLY_FAR).fire 18).storeFail 0x2B9 cause addr peek).logLoss
  else d

/-! ### Operating time and HOLD (R363, R379) -/

/-- Stores OPSEC in MRAM. -/
def Dev.storeOpsec (d : Dev) : Dev := { d with nv := { d.nv with opsec := d.opsecAt d.tsc } }

/-- OPSEC_STORE: every second of TSC (R363). -/
def execOpsecStore (s : State) : Out := s.up fun d => if d.tsc % 1000000000 = 0 then d.storeOpsec else d

/-- Releases every held record, in order. -/
def releaseAll : Nat → Dev → Dev
  | 0, d => d
  | n + 1, d => releaseAll n d.releaseFirst

/-- Programs every open page of a channel. -/
def programAll (c : Nat) : Nat → Dev → Dev
  | 0, d => d
  | n + 1, d => programAll c n (d.programPage c)

/-- Closing the log on entry to HOLD (R379). -/
def Dev.closeLog (d : Dev) : Dev :=
  if d.tly.closed ∨ ¬d.tly.opened then d
  else
    let d := releaseAll d.tly.merge.length d
    let d := (List.range 8).foldl (fun d c => if d.getB F.TLY_FRZ_FREEZE c then (d.setF F.TLY_FRZ_FREEZE c 0).sideOut c else d) d
    let d := d.tlyChans.foldl (fun d c => d.tlyDirect c 0x0061 d.tsc 0x2BA [(4, d.opsecAt d.tsc)]) d
    let d := if d.getB F.TLY_STAT_FAR_READY ∧ d.farOk then
        (List.range 8).foldl (fun d c => programAll c (SMap.getD d.tly.pages c []).length d) d
      else d
    d.setTly { d.tly with closed := true }

end Sys2Proof.Machine
end

