-- ==== Sys2Proof/Machine/Movers.lean ====
section
/-!
DEFINITION. The PCIe endpoint, MSI-X, the BAR2 window and the movers.
-/
namespace Sys2Proof.Machine

/-! ### The endpoint (R406, R407, R412) -/

/-- Replaces the endpoint. -/
def Dev.setPcie (d : Dev) (x : Pcie) : Dev := { d with pcie := x }
/-- A mover. -/
def Dev.mover (d : Dev) (m : Nat) : Mover := SMap.getD d.mov m {}
/-- Replaces a mover. -/
def Dev.setMover (d : Dev) (m : Nat) (x : Mover) : Dev := { d with mov := SMap.set d.mov m x }

/-- Whether the straps hold the endpoint in reset (R406). -/
def Dev.epHeld (d : Dev) : Bool := d.getF F.DMA_LINK_STRAP % 4 == 3
/-- The highest speed that the straps allow: 1 Gen1 to 3 Gen3 (R406). -/
def Dev.epSpeed (d : Dev) : Nat := 3 - d.getF F.DMA_LINK_STRAP % 4

/-- Link training may start from now on, if PERST# allows it (R406). -/
def Dev.trainStart (d : Dev) : Dev :=
  if d.pcie.perst ∨ d.epHeld then d else d.setPcie { d.pcie with start := some (d.pcie.start.getD d.tsc) }

/-- Whether the start of training that STRAP2 selects has come: Headframe's ROM has run, or Headframe has left LOAD. -/
def Dev.trainReached (d : Dev) : Bool :=
  if d.getF F.DMA_LINK_STRAP / 4 = 0 then d.hfr.rom else decide (d.getF F.SYS_TREL_TSC ≠ 0)

/-- PERST_DEASSERTION: the endpoint leaves reset. -/
def execPerstDeassertion (s : State) : Out := s.up fun d =>
  let d := d.setPcie { d.pcie with perst := false }
  if d.trainReached then d.trainStart else d

/-- PCIE_LINK_TRAINED: the endpoint completes link training, at a speed and width. -/
def execPcieLinkTrained (speed : Fin 3) (x2 : Bool) (s : State) : Out := s.up fun d =>
  if d.pcie.start.isNone ∨ d.pcie.perst ∨ d.epSpeed < speed.val + 1 then d
  else ((d.setF F.DMA_LINK_UP 0 1).setF F.DMA_LINK_SPEED 0 (speed.val + 1)).setF F.DMA_LINK_WIDTH 0 (1 + x2.toNat)

/-- CONFIGURATION_WRITE: the host sets MSI-X Enable, Function Mask and the power state; until 100 ms after the start of training the
endpoint answers with Configuration Request Retry Status and takes nothing (R406). -/
def execConfigurationWrite (msixEn fmask d3 : Bool) (s : State) : Out := s.up fun d =>
  match d.pcie.start with
  | some t =>
    if d.getB F.DMA_LINK_UP ∧ t + 100000000 ≤ d.tsc then d.setPcie { d.pcie with msixEn := msixEn, fmask := fmask, d3 := d3 } else d
  | none => d

/-- The registers that a reset of the endpoint returns to their reset values: those of the DMA block but the sampled straps
and the block queues' places, which Headframe sets (R407). -/
def epErased (f : Nat) : Bool :=
  (Reg.part6.any fun r => f % 512 == r.ctorIdx && decide (0x0D0000 ≤ r.desc.addr ∧ r.desc.addr < 0x0E0000) && r != .DMA_BQBASE) &&
    !(f % 512 == Reg.DMA_LINK.ctorIdx && f / 512 % 64 == 5)

/-- A mover as a reset of the endpoint leaves it; its source data stays in place. -/
def moverStopped (x : Mover) : Mover := { blocks := x.blocks, posted := x.posted, bpos := x.bpos }

/-- What skip 30 still holds goes nowhere: it is discarded, and its credits are those of an empty skip. -/
def Skip.drained (s : Skip) : Skip := { s with queue := [], waiting := [], returning := [], credits := if s.st = .run then skipCap 30 else s.credits }

/-- ENDPOINT_RESET: configuration space, MSI-X and every DMA register return to their reset values, the movers stop, and the
cause is shown (R402, R407). -/
def execEndpointReset (k : EpReset) (s : State) : Out := s.up fun d =>
  if k ≠ .perst ∧ ¬d.getB F.DMA_LINK_UP then d
  else
    let link := d.getF F.DMA_LINK_SPEED
    let width := d.getF F.DMA_LINK_WIDTH
    let d := { d with
      regs := d.regs.filter fun p => !epErased p.1
      holding := d.holding.filter fun p => !epErased p.1
      mov := SMap.mapV moverStopped d.mov }
    let d := d.setSkip 30 (d.skip 30).drained
    let d := d.setPcie { d.pcie with msixEn := false, fmask := false, d3 := false }
    let d := match k with
      | .perst => (d.setPcie { d.pcie with perst := true, start := none }).setF F.DMA_STAT_PERST 0 1
      | .dlDown => d.setF F.DMA_STAT_LINKDOWN 0 1
      | .function =>
        (((d.setF F.DMA_LINK_UP 0 1).setF F.DMA_LINK_SPEED 0 link).setF F.DMA_LINK_WIDTH 0 width).setF F.DMA_STAT_PERST 0 1
    d.lqAbandon.trouble F.TRB_STICKY0_HOST_LINK

/-- MSIX_MESSAGE: a pending vector whose conditions hold sends its message, and its pending bit clears (R412). -/
def execMsixMessage (v : Fin 64) (s : State) : Out := s.up fun d =>
  let v := v.val
  let rested : Bool := match SMap.get? d.vecLast v with
    | some t => decide (t + 1000 * d.getF F.DMA_VHOLD_HOLD v ≤ d.tsc)
    | none => true
  if d.bitF F.DMA_PBA_PBA (v / 32) (v % 32) ∧ d.getB F.DMA_LINK_UP ∧ d.pcie.msixEn ∧ ¬d.pcie.fmask ∧ ¬d.pcie.d3
      ∧ ¬d.getB F.DMA_MXCTL_MASK v ∧ rested then
    let addr := d.getF F.DMA_MXAL_ADDR_LO v + 2 ^ 32 * d.getF F.DMA_MXAH_ADDR_HI v
    let d := d.clrBit F.DMA_PBA_PBA (v / 32) (v % 32)
    { d with vecLast := SMap.set d.vecLast v d.tsc, out := d.out ++ [.msix v addr (d.getF F.DMA_MXDAT_DATA v)] }
  else d

/-- WAKE#: asserted in D3hot while a pending bit is set (R488). -/
def Dev.wake (d : Dev) : Bool := d.pcie.d3 && (d.getF F.DMA_PBA_PBA 0 != 0 || d.getF F.DMA_PBA_PBA 1 != 0)

/-! ### The BAR2 window (R408, R409) -/

/-- Where a BAR2 offset leads: the memory region and the address there; none where it is unmapped or not yet readable. -/
def Dev.bar2At (d : Dev) (o : Nat) : Option (Nat × Nat) :=
  if o < 0x3000000 then
    if d.pcie.dram then some (0, d.getF F.DMA_B2AP_BASE (o / 0x1000000) * 0x1000000 + o % 0x1000000) else none
  else if o < 0x3C00000 then some (6, o - 0x3000000)
  else none

/-- The byte that a BAR2 offset reads. -/
def Dev.bar2Byte (d : Dev) (o : Nat) : Byte :=
  match d.bar2At o with
  | some (0, a) => Memory.read d.recMem a
  | some (_, a) => Memory.read d.nv.near a
  | none => 0

/-- BAR2_READ: `len` bytes from an offset; a byte outside the windows reads 0 and sets TRB.BUS_UNMAP, and a poisoned word makes
the completion carry EP (R409, R510). -/
def execBar2Read (offset : BitVec 26) (len : Fin 513) (s : State) : Out := s.up fun d =>
  if ¬d.getB F.DMA_LINK_UP then d
  else
    let os := (List.range len.val).map fun i => offset.toNat + i
    let ep := os.any fun o => match d.bar2At o with
      | some (r, a) => d.poisoned r a
      | none => false
    let lost := os.any fun o => (d.bar2At o).isNone
    let d := { d with out := d.out ++ [.bar2 offset.toNat (os.map d.bar2Byte) ep] }
    let d := if ep then d.trouble F.TRB_STICKY3_POISON else d
    if lost then d.trouble F.TRB_STICKY0_BUS_UNMAP else d

/-- BAR2_WRITE: discarded, and TRB.BUS_UNMAP is set. -/
def execBar2Write (s : State) : Out := s.up fun d => d.trouble F.TRB_STICKY0_BUS_UNMAP

/-! ### What a mover's source holds (R413, R416 to R419) -/

/-- Whether movers run: DRAM is initialised and the link is up (R424). -/
def Dev.mvRuns (d : Dev) : Bool := d.pcie.dram && d.getB F.DMA_LINK_UP

/-- An item that a mover can copy: its position and the next one, whether earlier ones were no longer held, its bytes, whether
they hold a poisoned word, its TAG. -/
structure MvItem where
  pos : Nat
  next : Nat
  gap : Bool
  bytes : List Byte
  poison : Bool
  tag : Nat
  deriving DecidableEq, Repr

/-- The units of a record in the near store. -/
def Dev.nearRecord (d : Dev) (x : TlyCh) (r : Nat × Nat × Nat) : List Byte × Bool :=
  let at_ (i : Nat) : Nat := x.nbase * 65536 + (r.2.1 + i) % x.nearUnits * x.unit
  ((List.range r.2.2).flatMap fun i => Memory.readBytes d.nv.near (at_ i) x.unit, (List.range r.2.2).any fun i => d.poisonIn 6 (at_ i) x.unit)

/-- The units of a record in the far store, the backlog included. -/
def Dev.farRecord (d : Dev) (c : Nat) (x : TlyCh) (r : Nat × Nat × Nat) : List Byte :=
  (List.range r.2.2).flatMap fun i =>
    match (SMap.getD d.tly.pages c []).find? fun u => u.1 == r.2.1 + i with
    | some u => u.2.2
    | none => Memory.readBytes d.nv.far (x.fbase * 1048576 + (r.2.1 + i) % x.farUnits * x.unit) x.unit

/-- A record that either store of a channel still holds (R418, R510). -/
def Dev.tlyRecord (d : Dev) (c seq : Nat) : Option (List Byte × Bool) :=
  let x := d.tlyCh c
  let near := (x.near.find? fun r => r.1 == seq).map fun r => d.nearRecord x r
  let far := (x.far.find? fun r => r.1 == seq).map fun r => (d.farRecord c x r, false)
  match near, far with
  | some (_, true), some f => some f
  | some n, _ => some n
  | none, f => f

/-- How far a 32-bit count lies ahead of another. -/
def ahead32 (a b : Nat) : Int := sgn 32 (a + 2 ^ 32 - b % 2 ^ 32)

/-- The first of a list that is not before a position, counted modulo 2³². -/
def nextHeld (l : List Nat) (p : Nat) : Option Nat :=
  (l.filter fun q => decide (0 ≤ ahead32 q p)).foldl (fun best q => match best with
    | none => some q
    | some b => if ahead32 q b < 0 then some q else some b) none

/-- The next item of a TALLY mover at a position. -/
def Dev.tallyItem (d : Dev) (c p : Nat) : Option MvItem :=
  let x := d.tlyCh c
  (nextHeld ((x.near ++ x.far).map fun r => r.1) p).bind fun q => (d.tlyRecord c q).map fun b =>
    ⟨q, (q + 1) % 2 ^ 32, q != p, b.1, b.2, q⟩

/-- Whether octets of record memory are still on their way on skip 26. -/
def Dev.storing (d : Dev) (a n : Nat) : Bool :=
  ((d.skip 26).queue ++ (d.skip 26).waiting).any fun l => match l.body with
    | .store b o => decide (a < b + o.length ∧ b < a + n)
    | _ => false

/-- The next item of a TREND mover. -/
def Dev.trendItem (d : Dev) (p : Nat) : Option MvItem :=
  let size := d.getF F.ASY_TSIZE_TSIZE * 2 ^ 20
  let t := d.getF F.ASY_TWR_WRITTEN
  let back := ahead32 t p
  let held := min t (size / 48)
  if back ≤ 0 ∨ held = 0 then none
  else
    let q := if (held : Int) < back then t - held else p
    let at_ (i : Nat) : Nat := d.getF F.ASY_TBASE_TBASE * 2 ^ 20 + (48 * q + i) % size
    if (List.range 48).any fun i => d.storing (at_ i) 1 then none
    else some ⟨q, (q + 1) % 2 ^ 32, q != p, (List.range 48).map fun i => Memory.read d.recMem (at_ i),
      (List.range 48).any fun i => d.poisoned 0 (at_ i), q⟩

/-- The offset of a slot of an area. -/
def Dev.slotAt (d : Dev) (a slot : Nat) : Nat := d.getF F.ASY_ABASE_ABASE a * 2 ^ 20 + slot * d.areaSlot a

/-- A field of the header that stands in a slot (R334). -/
def Dev.slotField (d : Dev) (a slot ofs n : Nat) : Nat := unle (Memory.readBytes d.recMem (d.slotAt a slot + ofs) n)

/-- Whether the header in a slot carries LOST. -/
def Dev.slotLost (d : Dev) (a slot : Nat) : Bool := (d.slotField a slot 22 2).testBit 2

/-- The segment that a SEGMENT mover comes to at a position: its WIDX count and slot (R418, R419). -/
def Dev.segmentAt (d : Dev) (a p : Nat) : Option (Nat × Nat) :=
  let w := d.getF F.ASY_ASTAT_WIDX a
  let back (q : Nat) : Nat := (w + 8192 - q) % 8192
  ((d.area a).slots.filter fun s => decide (0 < back s.1 ∧ back s.1 ≤ back p ∧ back p ≤ 4096)).foldl (fun best s => match best with
    | none => some s
    | some b => if back b.1 < back s.1 then some s else some b) none

/-- The block that a BLOCK mover comes to: its place in the queue, whether blocks before it are no longer held, the block. -/
def Mover.blockAt (x : Mover) : Option (Nat × Bool × Block) :=
  match x.want with
  | some n => (x.blocks.find? fun b => decide (x.bpos ≤ b.1) && b.2.num.toNat == n).map fun b => (b.1, false, b.2)
  | none => (x.blocks.find? fun b => decide (x.bpos ≤ b.1)).map fun b => (b.1, b.1 != x.bpos, b.2)

/-- A mover's position (DMA_MVPOSm). -/
def Dev.mvPos (d : Dev) (m : Nat) : Nat := d.getF F.DMA_MVPOS_POS m
/-- A mover's KIND. -/
def Dev.mvKind (d : Dev) (m : Nat) : Nat := d.getF F.DMA_MVCTL_KIND m
/-- A mover's INDEX. -/
def Dev.mvIndex (d : Dev) (m : Nat) : Nat := d.getF F.DMA_MVCTL_INDEX m

/-- Whether a mover has an item ready. -/
def Dev.mvReady (d : Dev) (m : Nat) : Bool :=
  (d.mover m).part.isSome ||
    match d.mvKind m with
    | 0 => (d.tallyItem (d.mvIndex m) (d.mvPos m)).isSome
    | 1 => (d.segmentAt (d.mvIndex m) (d.mvPos m)).any fun s => !d.storing (d.slotAt (d.mvIndex m) s.2) (d.areaSlot (d.mvIndex m))
    | 2 => (d.trendItem (d.mvPos m)).isSome
    | _ => (d.mover m).blockAt.isSome

/-- The ring size of a mover. -/
def Dev.mvSize (d : Dev) (m : Nat) : Nat := 2 ^ (d.getF F.DMA_MVCTL_SIZE m + 4)
/-- HEAD of a mover. -/
def Dev.mvHead (d : Dev) (m : Nat) : Nat := d.getF F.DMA_MVSTAT_HEAD m
/-- The descriptors posted and not completed. -/
def Dev.mvPosted (d : Dev) (m : Nat) : Nat := (d.getF F.DMA_MVTAIL_TAIL m + 65536 - d.mvHead m) % d.mvSize m
/-- STATE of a mover. -/
def Dev.mvState (d : Dev) (m : Nat) : Nat := d.getF F.DMA_MVSTAT_STATE m
/-- The address of the descriptor at HEAD. -/
def Dev.mvDescAt (d : Dev) (m : Nat) : Nat :=
  d.getF F.DMA_MVBA0_BA m + 2 ^ 16 * d.getF F.DMA_MVBA1_BA m + 2 ^ 32 * d.getF F.DMA_MVBA2_BA m + 2 ^ 48 * d.getF F.DMA_MVBA3_BA m
    + 32 * d.mvHead m

/-- A running mover is STARVING while it has an item ready and HEAD = TAIL; each new period is counted and signalled (R420). -/
def Dev.mvRefresh (d : Dev) (m : Nat) : Dev :=
  if d.mvRuns ∧ (d.mvState m = 1 ∨ d.mvState m = 2) then
    if d.mvPosted m = 0 ∧ d.mvReady m then
      if d.mvState m = 2 then d
      else
        (((d.setF F.DMA_MVSTAT_STATE m 2).setBit F.DMA_STAT_STARVE 0 m).incF F.DMA_MVCNT_STARVE m).fire (4 + m)
    else d.setF F.DMA_MVSTAT_STATE m 1
  else d

/-- The same for every mover. -/
def Dev.mvRefreshAll (d : Dev) : Dev := (List.range 8).foldl Dev.mvRefresh d

/-! ### Descriptors (R414, R415) -/

/-- A mover's host write travels in lumps of skip 30 (R17, R421). -/
def Dev.hostSend (d : Dev) (m addr : Nat) (b : List Byte) (done : Option MvDone) : Dev :=
  (lumpsOf b.length b).zipIdx.foldl (fun d p =>
    d.sendLump 30 (0x260 + m) false none ((p.1.length + 7) / 8) (.hostWrite (addr + 64 * p.2) p.1 done)) d

/-- The mover completes the descriptor at HEAD: bytes 14 to 31, then bytes 12 and 13 with OWN = 0 (R415). -/
def Dev.mvComplete (d : Dev) (m status part done tag : Nat) (irq : Bool) (ridx : Option (Nat × Nat) := none) : Dev :=
  let at_ := d.mvDescAt m
  let d := d.setMover m { d.mover m with cur := none, closing := true }
  let d := d.hostSend m (at_ + 14) (packFields [(1, status), (1, part), (4, done), (4, tag), (8, d.tsc)]) none
  d.hostSend m (at_ + 12) (le 2 (2 * irq.toNat)) (some { mover := m, status := status, irq := irq, ridx := ridx })

/-- The descriptor is handed back: HEAD advances, GAP and POISON are counted, the vector fires, and AUTO's write of RIDX is done (R411, R415,
R419). -/
def Dev.mvHanded (d : Dev) (x : MvDone) : Dev :=
  let m := x.mover
  if ¬(d.mover m).closing then d
  else
    let d := d.setMover m { d.mover m with closing := false }
    let d := d.setF F.DMA_MVSTAT_HEAD m ((d.mvHead m + 1) % d.mvSize m)
    let d := if x.status = 3 ∨ x.status = 5 then d.incF F.DMA_MVCNT_GAP m else if x.status = 6 then d.incF F.DMA_MVCNT_POISON m else d
    let d := match x.ridx with
      | some r => (d.setF F.ASY_ARIDX_RIDX r.1 r.2).ridxWritten r.1
      | none => d
    (if x.irq then d.fire (4 + m) else d).mvRefreshAll

/-- The endpoint takes a lump of skip 30 and writes it to host memory. -/
def Dev.hostTake (d : Dev) (src addr : Nat) (b : List Byte) (done : Option MvDone) : Dev :=
  let d := { d with out := d.out ++ [.hostWrite addr b] }
  match done with
  | some x => if src = 0x260 + x.mover then d.mvHanded x else d
  | none => d

/-- Whether a descriptor's ADDR or LEN is malformed (R417). -/
def badLen (x : MvDesc) : Bool := x.addr.toNat % 64 != 0 || x.len.toNat % 64 != 0 || decide (16777216 < x.len.toNat)

/-- Whether a TALLY mover's next record is longer than a buffer (R417). -/
def Dev.mvSmall (d : Dev) (m len : Nat) : Bool :=
  d.mvKind m == 0 && match d.tallyItem (d.mvIndex m) (d.mvPos m) with
    | some x => decide (len < x.bytes.length)
    | none => false

/-- Whether a mover reads the descriptor at HEAD: it runs, or hands back those that it owned, none of them is in hand, and it does not
wait for a TAIL write (R415, R422). -/
def Dev.mvReads (d : Dev) (m : Nat) : Bool :=
  let v := d.mover m
  d.mvRuns && d.mvPosted m != 0 && v.cur.isNone && !v.closing && !v.wait && (v.abort != 0 || d.mvState m == 1)

/-- DESCRIPTOR_READ_DONE: the mover takes the descriptor at HEAD, or counts it NOTOWN; one that moves nothing completes at once
(R415, R417). -/
def execDescriptorReadDone (m : Fin 8) (x : MvDesc) (s : State) : Out := s.up fun d =>
  let m := m.val
  let v := d.mover m
  if ¬d.mvReads m then d
  else if ¬x.own then (d.incF F.DMA_MVCNT_NOTOWN m).setMover m { v with wait := true, abort := 0 }
  else if 0 < v.abort then (d.setMover m { v with abort := v.abort - 1 }).mvComplete m 7 0 0 0 x.irq
  else if x.len.toNat = 0 then d.mvComplete m 1 0 0 0 x.irq
  else if badLen x then d.mvComplete m 8 0 0 0 x.irq
  else if d.mvSmall m x.len.toNat then d.mvComplete m 2 0 0 0 x.irq
  else d.setMover m { v with cur := some x }

/-- MOVER_ERROR: a descriptor read fails or does not complete, and the mover stops (R422). -/
def execMoverError (m : Fin 8) (s : State) : Out := s.up fun d =>
  let m := m.val
  let v := d.mover m
  if ¬d.mvReads m then d
  else
    ((((d.setMover m { v with abort := 0 }).setF F.DMA_MVSTAT_STATE m 3).setBit F.DMA_STAT_ERR 0 m).trouble F.TRB_STICKY0_DMA_FAULT).fire (4 + m)

/-! ### Buffers (R416 to R421) -/

/-- Whether a mover of higher PRIO has data and a descriptor, for which a mover of lower PRIO waits (R421). -/
def Dev.mvOutranked (d : Dev) (m : Nat) : Bool :=
  (List.range 8).any fun b => decide (d.getF F.DMA_MVCTL_PRIO m < d.getF F.DMA_MVCTL_PRIO b) && (d.mover b).cur.isSome && d.mvReady b
    && d.mvState b == 1

/-- The whole items that fill a TALLY or TREND buffer, at most `n` of them. -/
def Dev.mvItems (d : Dev) (m : Nat) : Nat → Nat → Nat → List MvItem
  | 0, _, _ => []
  | n + 1, p, room =>
    match (if d.mvKind m = 0 then d.tallyItem (d.mvIndex m) p else d.trendItem p) with
    | none => []
    | some x => if x.bytes.length ≤ room then x :: mvItems d m n x.next (room - x.bytes.length) else []

/-- The mover writes data into the buffer it owns. -/
def Dev.mvData (d : Dev) (m : Nat) (x : MvDesc) (bytes : List Byte) (poison : Bool) : Dev :=
  let d := d.hostSend m x.addr.toNat bytes none
  if poison then d.trouble F.TRB_STICKY3_POISON else d

/-- A TALLY or TREND buffer completes with at most `n` items (R416, R418). -/
def Dev.mvWhole (d : Dev) (m n : Nat) (x : MvDesc) : Dev :=
  let v := d.mover m
  let is := d.mvItems m n (d.mvPos m) x.len.toNat
  match is, is.getLast? with
  | i :: _, some l =>
    let bytes := is.flatMap fun i => i.bytes
    let poison := is.any fun i => i.poison
    let gap := v.gap || is.any fun i => i.gap
    let d := (d.mvData m x bytes poison).setMover m { v with gap := false }
    (d.setF F.DMA_MVPOS_POS m l.next).mvComplete m (if gap then 3 else if poison then 6 else 0) 3 bytes.length i.tag x.irq
  | _, _ => if d.mvSmall m x.len.toNat then d.mvComplete m 2 0 0 0 x.irq else d

/-- A buffer of a segment completes (R416, R419). -/
def Dev.mvSegment (d : Dev) (m p : Nat) (part : MvPart) (x : MvDesc) : Dev :=
  let a := d.mvIndex m
  let v := d.mover m
  let n := min x.len.toNat (part.total - part.ofs)
  let at_ := d.slotAt a part.slot + part.ofs
  let poison := d.poisonIn 0 at_ n
  let last := decide (part.total ≤ part.ofs + n)
  let gone := last && d.slotField a part.slot 4 4 != part.segno
  let lost := part.total = 128 ∧ d.slotLost a part.slot
  let d := d.mvData m x (Memory.readBytes d.recMem at_ n) poison
  let d := d.setMover m { v with gap := false, part := if last then none else some { part with ofs := part.ofs + n } }
  let d := if last then d.setF F.DMA_MVPOS_POS m ((p + 1) % 8192) else d
  let status := if gone then 5 else if v.gap then 3 else if lost then 4 else if poison then 6 else 0
  let ridx := if last ∧ d.getB F.DMA_MVCTL_AUTO m then some (a, (p + 1) % 8192) else none
  d.mvComplete m status ((part.ofs == 0).toNat + 2 * last.toNat) n part.segno x.irq ridx

/-- The number that a BLOCK mover shows at its place in the queue. -/
def Mover.blockNum (x : Mover) (n : Nat) : Nat :=
  match x.blocks.find? fun b => b.1 == n with
  | some b => b.2.num.toNat
  | none => ((x.blocks.getLast?).map fun b => (b.2.num.toNat + 1) % 2 ^ 32).getD 0

/-- A buffer of a block completes (R416). -/
def Dev.mvBlock (d : Dev) (m ix : Nat) (b : Block) (part : MvPart) (x : MvDesc) : Dev :=
  let v := d.mover m
  let n := min x.len.toNat (part.total - part.ofs)
  let last := decide (part.total ≤ part.ofs + n)
  let v' := { v with gap := false, want := none, part := if last then none else some { part with ofs := part.ofs + n }
                     bpos := if last then ix + 1 else ix }
  let d := (d.mvData m x ((b.bytes.drop part.ofs).take n) b.poisoned).setMover m v'
  let d := d.setF F.DMA_MVPOS_POS m (v'.blockNum v'.bpos)
  d.mvComplete m (if v.gap then 3 else if b.poisoned then 6 else 0) ((part.ofs == 0).toNat + 2 * last.toNat) n b.num.toNat x.irq

/-- The mover fills the buffer it owns from the next undelivered byte of its source and completes it (R416). -/
def Dev.mvFill (d : Dev) (m n : Nat) (x : MvDesc) : Dev :=
  let v := d.mover m
  match d.mvKind m with
  | 0 => d.mvWhole m n x
  | 2 => d.mvWhole m n x
  | 1 =>
    match v.part with
    | some p => d.mvSegment m (d.mvPos m) p x
    | none => match d.segmentAt (d.mvIndex m) (d.mvPos m) with
      | some (q, slot) =>
        let a := d.mvIndex m
        let total := if d.slotLost a slot then 128 else 128 + d.slotField a slot 60 4
        let d := d.setMover m { v with gap := v.gap || q != d.mvPos m }
        (d.setF F.DMA_MVPOS_POS m q).mvSegment m q ⟨slot, total, d.slotField a slot 4 4, 0⟩ x
      | none => d
  | _ =>
    match v.blockAt with
    | some (ix, gap, b) =>
      let d := d.setMover m { v with gap := v.gap || gap, bpos := ix }
      d.mvBlock m ix b (v.part.getD ⟨0, b.bytes.length, 0, 0⟩) x
    | none => d

/-- The buffer completes where the mover may write: it runs, owns a descriptor, has an item and is not outranked. -/
def Dev.mvBuffer (d : Dev) (m n : Nat) : Dev :=
  match (d.mover m).cur with
  | some x => if d.mvRuns ∧ d.mvState m = 1 ∧ d.mvReady m ∧ ¬d.mvOutranked m then (d.mvFill m n x).mvRefreshAll else d
  | none => d

/-- BUFFER_COMPLETE: the buffer is full, or no further item is ready. -/
def execBufferComplete (m : Fin 8) (s : State) : Out := s.up fun d => d.mvBuffer m 524288

/-- BUFFER_TIMEOUT: a TALLY or TREND buffer completes 1 ms after its first item, with the items copied so far. -/
def execBufferTimeout (m : Fin 8) (items : BitVec 19) (s : State) : Out := s.up fun d =>
  if (d.mvKind m = 0 ∨ d.mvKind m = 2) ∧ 0 < items.toNat then d.mvBuffer m items.toNat else d

/-! ### Commits and doorbells (R413, R418, R422) -/

/-- The register fields of a mover's composite but for EN. -/
def mvFields : List Fld :=
  [F.DMA_MVCTL_KIND, F.DMA_MVCTL_INDEX, F.DMA_MVCTL_PRIO, F.DMA_MVCTL_AUTO, F.DMA_MVCTL_FROM, F.DMA_MVCTL_SIZE, F.DMA_MVBA0_BA, F.DMA_MVBA1_BA,
    F.DMA_MVBA2_BA, F.DMA_MVBA3_BA, F.DMA_MVPOSLO_POS, F.DMA_MVPOSHI_POS]

/-- Whether a commit of a mover is refused: it names a source that another enabled mover copies, or changes a field while EN is 1;
the ring base is a multiple of 64 B, and INDEX is 0 where the source has no other (R413). -/
def Dev.mvBroken (d : Dev) (m : Nat) (old : Dev) : Bool :=
  let same (b : Nat) : Bool := d.mvKind b == d.mvKind m && (d.mvIndex b == d.mvIndex m || d.mvKind m == 2) && d.mvKind m != 3
  (d.getB F.DMA_MVCTL_EN m && (List.range 8).any fun b => b != m && d.getB F.DMA_MVCTL_EN b && same b) ||
    (old.getB F.DMA_MVCTL_EN m && mvFields.any fun f => d.getF f m != old.getF f m) || d.getF F.DMA_MVBA0_BA m % 64 != 0
    || (decide (2 ≤ d.mvKind m) && d.mvIndex m != 0)

/-- The first position of a mover, from FROM (R418). -/
def Dev.mvFirst (d : Dev) (m : Nat) : Dev :=
  let v := d.mover m
  let i := d.mvIndex m
  let pos := d.getF F.DMA_MVPOSLO_POS m + 65536 * d.getF F.DMA_MVPOSHI_POS m
  let src := d.getF F.DMA_MVCTL_FROM m
  match d.mvKind m with
  | 0 =>
    let x := d.tlyCh i
    let oldest := (nextHeld ((x.near ++ x.far).map fun r => r.1) ((x.seq + 2 ^ 32 - 2 ^ 31 + 1) % 2 ^ 32)).getD x.seq
    d.setF F.DMA_MVPOS_POS m (if src = 0 then oldest else if src = 1 then x.seq else pos)
  | 1 =>
    let w := d.getF F.ASY_ASTAT_WIDX i
    let oldest := ((d.segmentAt i ((w + 4096) % 8192)).map fun s => s.1).getD w
    d.setF F.DMA_MVPOS_POS m (if src = 0 then oldest else if src = 1 then w else pos % 8192)
  | 2 =>
    let t := d.getF F.ASY_TWR_WRITTEN
    d.setF F.DMA_MVPOS_POS m (if src = 0 then t - min t (d.getF F.ASY_TSIZE_TSIZE * 2 ^ 20 / 48) else if src = 1 then t else pos)
  | _ =>
    let first := ((v.blocks.head?).map fun b => b.1).getD v.posted
    let newest := ((v.blocks.getLast?).map fun b => b.2.num.toNat).getD 0
    let held := v.blocks.find? fun b => b.2.num.toNat == pos
    let v := if src = 0 then { v with bpos := first } else if src = 1 then { v with bpos := v.posted }
      else match held with
        | some b => { v with bpos := b.1 }
        | none => if v.blocks = [] ∨ 0 < ahead32 pos newest then { v with bpos := v.posted, want := some pos }
                  else { v with bpos := first, gap := true }
    (d.setMover m v).setF F.DMA_MVPOS_POS m (if v.want.isSome then pos else v.blockNum v.bpos)

/-- A commit of DMA_MVCTLm that is not refused: EN rises and the mover starts, or EN falls and it leaves ERROR or hands back
what it owns as ABORTED (R418, R422). -/
def Dev.mvCommitted (d : Dev) (m : Nat) (wasEn : Bool) : Dev :=
  let v := d.mover m
  let clean : Mover := { v with closing := v.closing || v.cur.isSome, cur := none, part := none, gap := false, wait := false, want := none }
  if d.getB F.DMA_MVCTL_EN m then
    if wasEn then d else (((d.setMover m { clean with closing := v.closing }).setF F.DMA_MVSTAT_STATE m 1).mvFirst m).mvRefresh m
  else if d.mvState m = 3 then (d.setMover m clean).setF F.DMA_MVSTAT_STATE m 0
  else if ¬wasEn then d
  else
    let d := match v.cur with
      | some x => d.mvComplete m 7 0 0 0 x.irq
      | none => d
    (d.setMover m { clean with abort := d.mvPosted m - clean.closing.toNat }).setF F.DMA_MVSTAT_STATE m 0

/-- A write of DMA_MVTAILm: the mover reads the descriptor at HEAD (again) (R415). -/
def Dev.mvDoorbell (d : Dev) (m : Nat) : Dev := (d.setMover m { d.mover m with wait := false }).mvRefresh m

/-- A write of DMA_BQTAILm posts the blocks up to it; the queue holds at most 255 (R413). -/
def Dev.bqDoorbell (d : Dev) (m was : Nat) (blocks : List Block) : Dev :=
  let n := (d.getF F.DMA_BQTAIL_TAIL m + 256 - was) % 256
  let v := d.mover m
  let add := (blocks.take n).zipIdx.map fun b => (v.posted + b.2, b.1)
  let all := v.blocks ++ add
  let v := { v with blocks := all.drop (all.length - 255), posted := v.posted + add.length }
  let d := d.setMover m v
  (if v.want.isNone ∧ d.mvKind m = 3 then d.setF F.DMA_MVPOS_POS m (v.blockNum v.bpos) else d).mvRefresh m

/-- A channel is formatted: the position of its movers becomes SEQ 0, and their next descriptor completes as GAP (R418). -/
def Dev.mvFormatted (d : Dev) (c : Nat) : Dev :=
  (List.range 8).foldl (fun d m =>
    if d.getB F.DMA_MVCTL_EN m ∧ d.mvKind m = 0 ∧ d.mvIndex m = c then
      (d.setMover m { d.mover m with gap := true }).setF F.DMA_MVPOS_POS m 0
    else d) d

/-! ### The events of the sources -/

/-- RECORD_RELEASE: the first held record's time-stamp is 25 ms old (R354). -/
def execRecordRelease (s : State) : Out := s.up fun d => d.recordRelease.mvRefreshAll

/-- NEAR_STORE_OPEN: the side rings left over are written out, LOG_OPEN stands in every enabled channel, and skip 29 runs (R377). -/
def execNearStoreOpen (s : State) : Out := s.up fun d => d.nearStoreOpen.mvRefreshAll

/-- SEGMENT_CAPTURE_END: the lumps with a segment's last sample have arrived (R331, R336). -/
def execSegmentCaptureEnd (a : Fin 8) (full : Bool) (s : State) : Out := s.up fun d => (d.segmentCaptureEnd a full).mvRefreshAll

/-- TREND_INTERVAL_END: a trend record is due (R342). -/
def execTrendIntervalEnd (full : Bool) (s : State) : Out := s.up fun d => (d.trendIntervalEnd full).mvRefreshAll

end Sys2Proof.Machine
end

