-- ==== Sys2Proof/Machine/View.lean ====
section
/-!
DEFINITION. What the registers show: fields that show live state are computed from it, every other field reads as stored.
-/
namespace Sys2Proof.Machine

/-- Thyme's count now: its count at TSC 0 and what its crystal, off by at most 10 ppm, has counted since (R473). -/
def Dev.thymeNow (d : Dev) : Nat :=
  let err : Int := max (-10) (min Config.thymeError.toInt 10)
  if d.nv.thyme.run then
    (d.nv.thyme.base + ((32768 * d.tsc : Nat) * (1000000 + err) / (1000000000 * 1000000)).toNat) % 2 ^ 48
  else d.nv.thyme.base

/-- The state of a skip as SKIP_STATn shows it. -/
def SkipSt.code : SkipSt → Nat
  | .unused => 0 | .run => 1 | .offline => 2 | .stopped => 3

/-- The state of a face as SEAM_FSTATg shows it. -/
def FaceSt.code : FaceSt → Nat
  | .unused => 0 | .run => 1 | .halted => 2 | .offline => 3

/-- The skips that are OFFLINE. -/
def Dev.offlineSkips (d : Dev) : Nat := (List.range 31).foldl (fun v n => if (d.skip n).st = .offline then v + 2 ^ n else v) 0

/-- Steps ready and not yet evaluated (SEAM_FSTATg.LAG): the next one once its inputs are there, and every one whose deadline has passed. -/
def Dev.faceLag (d : Dev) (g : Nat) : Nat :=
  let f := d.face g
  if f.st ≠ .run then 0
  else
    let ks := (d.instsOf (d.seam.design.domainOf g)).filter fun p => decide (f.next ≤ p.k)
    min 255 (ks.countP fun p => (p.k == f.next && d.arrived g p.k) || decide (d.deadline g p.k ≤ 16 * d.tsc))

/-- Whether a duplex lode runs one copy (R196). -/
def Dev.duplexSingle (d : Dev) : Bool :=
  let D := d.seam.design
  (List.range D.nodes.length).any fun i =>
    D.isDuplex i && (match D.cellFace i, D.cellFaceS i with
      | some n, some s =>
        let a := (d.face n).st
        let b := (d.face s).st
        (a == .run && (b == .halted || b == .offline)) || (b == .run && (a == .halted || a == .offline))
      | _, _ => false)

/-- Domains that have passed k_c of the latest switch (SEAM_GRP_STAT.DOM_DONE). -/
def Dev.domDone (d : Dev) : Nat :=
  (List.range 13).foldl (fun v x =>
    let done := match d.seam.groups with
      | s :: _ => !(s.kc.any fun p => p.1 == x) || decide (kcOf s.kc x < d.domNext x)
      | [] => true
    if done then v + 2 ^ x else v) 0

/-- The latest closed event of the group that TWU_EVSEL selects, and the selected arrival. -/
def Dev.selectedEvent (d : Dev) : Option TwEv := (d.grp (d.getF F.TWU_EVSEL_GROUP)).closed.head?
/-- The selected arrival of that event. -/
def Dev.selectedArrival (d : Dev) : Option TwArr := d.selectedEvent.bind fun e => e.arrs[d.getF F.TWU_EVSEL_INDEX]?

/-- The inputs and readbacks of a bank (FIO_LEVELn.LEVEL). -/
def Dev.bankLevel (d : Dev) (n : Nat) : Nat :=
  let b := d.bank n
  (List.range 16).foldl (fun v p =>
    let on := if d.pinCfg (16 * n + p) % 2 = 1 then b.last.testBit p else (SMap.getD b.filt p {}).state == some 1
    if on then v + 2 ^ p else v) 0

/-- The coefficient at the applied FLT_CWSEL address. -/
def Dev.selectedCoef (d : Dev) : Nat :=
  unsgn 24 (d.coefAt (d.getF F.FLT_CWSEL_CH) (d.getF F.FLT_CWSEL_BANK) (d.getF F.FLT_CWSEL_TAP))

/-- The conditions of R454 for PROTECT and RESUME. -/
def Dev.resumeOk (d : Dev) : Bool :=
  !(d.halfOff .north) && !(d.halfOff .south) && d.seam.faces.all (fun p => p.2.st != .halted) &&
    d.sage.passed && d.sage.equal

/-- Whether a key slot is valid (R430): programmed, not revoked, and its MRAM copy verifies. -/
def KeySlot.valid (k : KeySlot) : Bool := k.hash != [] && !k.revoked && sha384 k.pub == k.hash

/-- A key slot. -/
def Dev.keySlot (d : Dev) (k : Nat) : KeySlot := SMap.getD d.nv.keys k {}

/-- The key slots that meet a test, as a bit set. -/
def Dev.keyBits (d : Dev) (p : KeySlot → Bool) : Nat := (List.range 4).foldl (fun v k => if p (d.keySlot k) then v + 2 ^ k else v) 0

/-- The bytes of an entry of the failure area (R517). -/
def FEntry.bytes (e : FEntry) : List Byte :=
  packFields [(1, e.kind), (1, 0), (2, e.src % 4096), (4, e.pcyc % 2 ^ 24), (8, e.tsc), (4, e.opsec), (4, e.arg0), (8, e.arg1)]

/-- A word of the failure area: a poisoned one reads all ones, and an entry with a poisoned word shows KIND 255 (R510, R517). -/
def Dev.fareaWord (d : Dev) (w : Nat) : Nat :=
  if d.nv.fareaBad.contains (w / 2) then 2 ^ 32 - 1
  else
    let v := match SMap.get? d.nv.farea (w / 8) with
      | some e => unle ((e.bytes.drop (4 * (w % 8))).take 4)
      | none => 0
    if w % 8 = 0 ∧ d.nv.fareaBad.any (fun x => x / 4 == w / 8) then v - v % 256 + 255 else v

/-- Readmissions of a half within the last 60 min (SYS_HALF). -/
def Dev.halfTries (d : Dev) (h : Half) : Nat :=
  ((SMap.getD d.halves h.num {}).readmits.filter fun t => decide (d.tsc < t + 3600000000000)).length

/-- Whether the scrubber of a region runs (R511); at the entry to BOOT none does (R7). -/
def Dev.scrubRuns (d : Dev) (r : Nat) : Bool :=
  d.mode != .off && d.tsc != 0 && (if r = 0 then d.pcie.dram
    else if r ≤ 3 then d.pcie.dram && !(d.halfOff .north && d.halfOff .south)
    else if r = 4 then galleryRuns d.mode
    else if r = 7 then d.mode != .hold
    else true)

/-- Whether part of a scrubber's region lies in an offline half (R512). -/
def Dev.scrubPaused (d : Dev) (r : Nat) : Bool := decide (1 ≤ r ∧ r ≤ 3) && d.pcie.dram && (d.halfOff .north || d.halfOff .south)

/-- AFE_CAL of an even channel that is paired shows the factors of its partner's converter through its amplifier. -/
def Dev.pairedFactor (d : Dev) (r : Reg) (lo i : Nat) : Option Nat :=
  match calPlace r lo i with
  | some (c, place) => if d.getB F.AFE_CHSTAT_RATE40 c then some (SMap.getD (d.afeChan c).cal2 place 0) else none
  | none => none

/-- The value of a field that shows live state (at the entry to BOOT, TSC 0, what the hold-up store shows is its reset value, R7): the register, the field's lowest bit, the register's index. -/
def Dev.live (d : Dev) (r : Reg) (lo i : Nat) : Option Nat :=
  match r with
  | .SYS_MODE => if lo = 0 then some d.mode.code else none
  | .SYS_START => if lo = 5 then some d.nv.startmode else none
  | .SYS_DEGR =>
    if lo = 4 then some (d.halfOff .north).toNat else if lo = 5 then some (d.halfOff .south).toNat
    else if lo = 6 then some d.resumeOk.toNat else none
  | .SYS_HALF =>
    if lo = 2 then some (d.halfTries .north) else if lo = 4 then some (d.halfTries .south) else none
  | .SYS_THYME => some (if lo = 0 then d.thymeNow else d.nv.thyme.valid.toNat)
  | .HFR_IMG => if lo = 1 then some d.nv.pref else none
  | .HFR_KEYS =>
    some (if lo = 0 then d.keyBits fun k => k.hash != []
      else if lo = 4 then d.keyBits fun k => k.revoked
      else if lo = 8 then d.keyBits fun k => k.valid
      else d.nv.rows.length)
  | .HFR_RB => some (d.nv.rows.headD 0)
  | .HFR_TAMPER => if lo = 0 then some (Config.loopClosed d.tsc).toNat else none
  | .HFR_FAIL => some (if lo = 0 then d.nv.logloss.toNat else min 64 d.nv.fareaNext)
  | .SAGE_STAT => if lo = 6 then some d.seam.design.policy.toNat else none
  | .CLK_TSC => some d.tsc
  | .CLK_CAL => some d.cal
  | .CLK_CAL_RATE => some (unsgn 32 d.calSeg.rate)
  | .CLK_CAL_STAT => if lo = 0 then some d.calState else none
  | .ANG_TIME => some (d.angle i).time
  | .ANG_FREQ => some (d.angle i).freq
  | .ANG_ROCOF => some (unsgn 32 (d.angle i).rocof)
  | .ANG_PHERR => some (unsgn 16 (d.angle i).pherr)
  | .ANG_STAT =>
    let a := d.angle i
    if lo = 0 then some a.st.code else if lo = 3 then some a.aligned.toNat else if lo = 4 then some a.cause else none
  | .SVI_SVIDRD =>
    let s := d.sub (d.getF F.SVI_SVIDSEL_SUB)
    let p := d.getF F.SVI_SVIDSEL_PAIR
    some (SMap.getD s.svid (2 * p) 0 + 256 * SMap.getD s.svid (2 * p + 1) 0)
  | .SVI_LIVE => some ((List.range 32).foldl (fun v b => if d.getF F.SVI_SUBSTAT_STATE (32 * i + b) = 2 then v + 2 ^ b else v) 0)
  | .AFE_STAT => if lo = 0 then some d.refOk.toNat else none
  | .AFE_BGC_STAT => if lo = 0 then some d.converged else none
  | .FLT_CRD => some d.selectedCoef
  | .SEAM_GRP_STAT => if lo = 16 then some d.domDone else none
  | .SEAM_DUP => if lo = 16 then some d.duplexSingle.toNat else none
  | .SEAM_HOUT => some (d.hostOut i)
  | .SEAM_FSTAT =>
    if lo = 0 then some (d.face i).st.code
    else if lo = 2 then some (if (d.seam.design.cellsOn i).isEmpty then 15 else d.seam.design.domainOf i)
    else if lo = 8 then some (d.faceLag i) else none
  | .SEAM_FBUD => some (if (d.seam.design.faceRec i).isSome then d.faceBudget i else 0)
  | .TWU_EVARR => some ((d.selectedArrival.map fun a => a.arr).getD 0)
  | .TWU_EVATTR =>
    let a := d.selectedArrival.getD ⟨0, 0, false, false, false, false⟩
    some (if lo = 0 then unsgn 19 a.height else if lo = 19 then a.clip.toNat else if lo = 20 then a.beta.toNat
      else if lo = 21 then a.ground.toNat else if lo = 22 then a.refl.toNat
      else (d.selectedEvent.map fun e => e.arrs.length).getD 0)
  | .TWU_GSTAT => if lo = 1 then some (decide ((d.grp i).cfg.d < (d.grp i).sig.length)).toNat else none
  | .ASY_SQRD => some (d.seqItem (d.getF F.ASY_SQSEL_SEQ) (d.getF F.ASY_SQSEL_STATE) (d.getF F.ASY_SQSEL_ITEM))
  | .TLY_STAT => if lo = 2 then some d.nv.logloss.toNat else none
  | .TLY_FAR => if lo = 16 then some (Config.farSpare d.tsc).toNat else none
  | .TLY_OPSEC => some (d.opsecAt d.tsc)
  | .TLY_PCYC => some d.nv.pcyc
  | .TLY_BACKLOG => some (if lo = 0 then (if d.getB F.TLY_STAT_FAR_READY then 0 else d.farWaiting) else d.tly.merge.length)
  | .TLY_GEN => if lo = 0 then some (d.tlyCh i).gen else none
  | .TLY_WSEQ => some (d.tlyCh i).wseq
  | .TLY_OSEQ => some (d.tlyCh i).oseq
  | .FIO_GATE =>
    let open_ := d.getB F.HFR_GATE_OPEN
    some (if lo = 0 then open_ else if lo = 1 then d.getB F.HFR_GATE_TESTOUT else if lo = 2 then d.mode == .hold
      else d.mode == .safe || (d.mode == .commission && !open_)).toNat
  | .FIO_SCHED => if lo = 0 then some (min 255 d.fio.pows.length) else none
  | .FIO_BSTAT => if lo = 0 then some (bits (d.bank i).last 40 6) else none
  | .FIO_LEVEL => some (if lo = 0 then d.bankLevel i else bits (d.bank i).last 16 16)
  | .SKIP_OFFLINE => some d.offlineSkips
  | .SKIP_STAT =>
    let s := d.skip i
    some (if lo = 0 then s.depth else if lo = 12 then s.credits else if lo = 24 then s.st.code else skipClass i)
  | .SKIP_HWM => if lo = 12 then some (if skipProt i then (d.skip i).pdepth else 0) else none
  | .SKIP_CAP => some (if lo = 0 then skipCap i else (d.skip i).resv)
  | .TRB_FAREA => some (d.fareaWord i)
  | .TRB_SCRUB =>
    if lo = 16 then some (if d.scrubRuns i then Config.scrubPct i d.tsc % 101 else 0)
    else if lo = 23 then some (d.scrubRuns i).toNat else if lo = 24 then some (d.scrubPaused i).toNat else none
  | .SYS_HOLDUP => if lo = 16 then some (if d.tsc = 0 then 0 else (Config.storedEnergy d.tsc).toNat) else none
  | .SYS_PWR => if lo = 3 then some (d.tsc != 0 && Config.kaFull d.tsc).toNat else none
  | .TLK_OFS => some (unsgn 64 (d.linkOfs / 20))
  | _ => d.pairedFactor r lo i

/-- What a field reads. -/
def Dev.show (d : Dev) (f : Fld) (i : Nat) : Nat := ((d.live f.reg f.lo i).getD (d.getF f i)) % 2 ^ f.len

/-- What a register reads, reserved bits as 0 and write strobes as 0: 64 bits for a pair, 32 for every other. -/
def Dev.regValue (d : Dev) (r : Reg) (i : Nat) : Nat :=
  r.desc.flds.foldl (fun v f => if f.acc = .ws then v else v + d.show f.fld i * 2 ^ f.fld.lo) 0

/-- The place of a register's state for a requester (R44): per-requester registers are kept once for each. -/
def Reg.indexFor (r : Reg) (i slot : Nat) : Nat := if r.desc.perReq then i + r.desc.count * slot else i

/-- What a word at a primary or peek address reads for a requester with no side effects: 0 where no register stands. -/
def Dev.peekWord (d : Dev) (slot a : Nat) : Nat :=
  match Reg.at a with
  | none => 0
  | some (r, i) =>
    let v := d.regValue r (r.indexFor i slot)
    if r.desc.cls = .pair ∧ (a - r.addrOf i) / 4 = 1 then v / 2 ^ 32 else v % 2 ^ 32

end Sys2Proof.Machine
end

