-- ==== Sys2Proof/Machine/Bus.lean ====
section
/-!
DEFINITION. Register accesses (R26 to R59): the checks of R524 in their order, the four classes, composites, pairs, windows and
locks, and what a write makes its block do.
-/
namespace Sys2Proof.Machine

/-! ### Addresses (R26 to R29, R49) -/

/-- The regions of a block (R28). -/
inductive BusRegion where
  | primary | peek | set | clr | tgl
  deriving DecidableEq, Repr

/-- The region and the primary address that an address belongs to. -/
def regionOf (a : Nat) : Option (BusRegion × Nat) :=
  let o := a % 65536
  let p := a - o + o % 0x2000
  if 0x110000 ≤ a then none
  else if o < 0x2000 then some (.primary, p)
  else if o < 0x4000 then some (.peek, p)
  else if o < 0x6000 then some (.set, p)
  else if 0x8000 ≤ o ∧ o < 0xA000 then some (.clr, p)
  else if 0xC000 ≤ o ∧ o < 0xE000 then some (.tgl, p)
  else none

/-- The register, index and region at an address; none where it is unmapped (R29). -/
def mapped (a : Nat) : Option (BusRegion × Reg × Nat) :=
  match regionOf a with
  | none => none
  | some (g, p) =>
    match Reg.at p with
    | none => none
    | some (r, i) => if (g = .primary ∨ g = .peek) ∨ r.desc.cls = .data then some (g, r, i) else none

/-- What R49 says of an access: accepted, BUS_ALIGN or BUS_WIDTH. -/
inductive Shape where
  | ok | align | width
  deriving DecidableEq, Repr

/-- The judgement of R49. -/
def accessShape (x : Access) : Shape :=
  if 8 < x.size then .width
  else if x.holes then .align
  else if (x.size = 1 ∨ x.size = 2 ∨ x.size = 4 ∨ x.size = 8) ∧ x.addr.toNat % x.size = 0 then .ok
  else .align

/-! ### Windows and lock violations (R12, R55 to R57, R426, R427) -/

/-- Whether a requester's window lets it write a register. -/
def Dev.mayWrite (d : Dev) (req : Requester) (r : Reg) (i : Nat) : Bool :=
  let released := d.getF F.SYS_TREL_TSC != 0
  match req with
  | .headframe => true
  | .host => match r.desc.win with
    | .nobody => false
    | .everyone => released
    | .hostDma => d.pcie.dram
    | .gallery => false
    | .mailbox => d.pcie.dram
    | .lqtail => released && decide (48 ≤ i % 64 ∧ i % 64 ≤ 62)
  | .gallery _ => match r.desc.win with
    | .nobody => false
    | .everyone => released
    | .hostDma => false
    | .gallery => released
    | .mailbox => released
    | .lqtail => released && decide (i % 64 < 48)

/-- The response to a lock violation, with at most 16 records of a requester in any second (R56, R57). -/
def Dev.lockViolation (d : Dev) (req : Requester) (a word : Nat) : Dev :=
  let d := (d.trouble F.TRB_STICKY0_LOCK_VIOL).incF F.TRB_LOCK_CNT_CNT
  let recent := (SMap.getD d.lockQ req.slot []).filter fun t => decide (d.tsc < t + 1000000000)
  let sup := SMap.getD d.lockSup req.slot 0
  if 16 ≤ recent.length then
    { d with lockQ := SMap.set d.lockQ req.slot recent, lockSup := SMap.set d.lockSup req.slot (sup + 1) }
  else
    let d := { d with lockQ := SMap.set d.lockQ req.slot (d.tsc :: recent), lockSup := SMap.set d.lockSup req.slot 0 }
    d.record 0x0011 req.src [(4, a), (4, word % 2 ^ 32), (2, min sup 65535)]

/-- Whether a field is locked now (R54, R446). -/
def Dev.locked (d : Dev) (f : FldDesc) : Bool := f.lk && d.getB F.HFR_LOCK_STRUCT

/-! ### Submissions to Headframe (R436, R532) -/

/-- Shows a submission of a requester as DONE and fires vector 3. -/
def Dev.subDone (d : Dev) (req : Requester) (result index : Nat) : Dev :=
  let d := (d.setF F.HFR_RSTAT_STATE req.slot 3).setF F.HFR_RSTAT_RESULT req.slot result
  (d.setF F.HFR_RSTAT_INDEX req.slot index).fire 3

/-- A requester's copy of SYS_MBX: its words that are not 0. -/
def Dev.mailbox (d : Dev) (req : Requester) : SMap Nat :=
  (List.range 1016).filterMap fun i =>
    let v := d.getF F.SYS_MBX_WORD (i + 1016 * req.slot)
    if v = 0 then none else some (i, v)

/-- GO: the requester's copy is submitted, refused with BUSY, or completed at once while the cores are in reset. -/
def Dev.submit (d : Dev) (req : Requester) : Dev :=
  if d.hfr.subs.any fun s => s.req == req then (d.setB F.HFR_RSTAT_BUSY_REJ req.slot true).fire 3
  else
    let m := d.mailbox req
    let d := d.setF F.HFR_RTAG_TAG req.slot (SMap.getD m 1 0)
    if d.hfr.held then d.subDone req 9 0
    else
      let d := ((d.setF F.HFR_RSTAT_STATE req.slot 1).setF F.HFR_RSTAT_RESULT req.slot 0).setF F.HFR_RSTAT_INDEX req.slot 0
      { d with hfr := { d.hfr with subs := d.hfr.subs ++ [⟨req, m⟩] } }

/-! ### Control registers (R32 to R36) -/

/-- A field's value in the holding copy of its composite, or as applied where nothing is held (R34). -/
def Dev.held (d : Dev) (f : Fld) (i : Nat) : Nat := SMap.getD d.holding (f.key i) (d.getF f i)

/-- The new value of a field under a masked write (R32). -/
def masked (f : Fld) (old mask payload : Nat) : Nat :=
  let m := bits mask f.lo f.len
  let v := bits payload f.lo f.len
  (old &&& (2 ^ f.len - 1 - m)) ||| (v &&& m)

/-- Whether a masked write selects a bit of a field. -/
def selects (f : Fld) (mask : Nat) : Bool := bits mask f.lo f.len != 0

/-- The lower end of TWU_GDLYg.BLIND is the D that the write leaves (R35). -/
def Dev.blindOk (d : Dev) (r : Reg) (i mask payload : Nat) : Bool :=
  r != .TWU_GDLY || !(selects F.TWU_GDLY_BLIND mask) ||
    decide (masked F.TWU_GDLY_D (d.held F.TWU_GDLY_D i) mask payload ≤ masked F.TWU_GDLY_BLIND (d.held F.TWU_GDLY_BLIND i) mask payload)

/-- The value checks of R35 on the fields that a write selects. -/
def Dev.valuesOk (d : Dev) (r : Reg) (i mask payload : Nat) : Bool :=
  (r.desc.flds.all fun f =>
    let v := masked f.fld (if f.acc = .ws then 0 else d.held f.fld i) mask payload
    !(selects f.fld mask) || f.acc == .ro || decide (f.min ≤ v ∧ v ≤ f.max)) && d.blindOk r i mask payload

/-- The registers of a composite, by its commit register. -/
def Reg.members (c : Reg) : List Reg := Reg.all.filter fun r => r.desc.commit == some c

/-- Stores a masked write of a control register in its fields. -/
def Dev.storeMasked (d : Dev) (r : Reg) (i mask payload : Nat) : Dev :=
  r.desc.flds.foldl (fun d f =>
    if f.acc = .rw then d.setF f.fld i (masked f.fld (d.getF f.fld i) mask payload) else d) d

/-- Stores a masked write in the holding copy. -/
def Dev.holdMasked (d : Dev) (r : Reg) (i mask payload : Nat) : Dev :=
  r.desc.flds.foldl (fun d f =>
    if f.acc = .rw then { d with holding := SMap.set d.holding (f.fld.key i) (masked f.fld (d.held f.fld i) mask payload) } else d) d

/-- Applies the holding copy of a composite. -/
def Dev.applyHeld (d : Dev) (c : Reg) (i : Nat) : Dev :=
  c.members.foldl (fun d r => r.desc.flds.foldl (fun d f =>
    if f.acc = .rw then
      let d' := d.setF f.fld i (d.held f.fld i)
      { d' with holding := SMap.erase d'.holding (f.fld.key i) }
    else d) d) d

/-- Whether any rw field of a composite differs between two states. -/
def compositeChanged (c : Reg) (i : Nat) (x y : Dev) : Bool :=
  c.members.any fun r => r.desc.flds.any fun f => x.getF f.fld i != y.getF f.fld i

/-- Whether a REF register of an angle clock names a channel that does not exist (ANGn_CTL). -/
def Dev.refBroken (d : Dev) (n : Nat) : Bool :=
  let bad (s x v : Fld) : Bool := decide (d.getF s n = 0 ∧ (15 < d.getF x n ∨ d.getF v n ≠ 0))
  bad F.ANG_REFA_SRC F.ANG_REFA_INDEX F.ANG_REFA_SVCH || bad F.ANG_REFB_SRC F.ANG_REFB_INDEX F.ANG_REFB_SVCH ||
    bad F.ANG_REFC_SRC F.ANG_REFC_INDEX F.ANG_REFC_SVCH

/-- VEL and LEN of a detector group outside their ranges, or BLIND below D. -/
def Dev.velBroken (d : Dev) (g : Nat) : Bool :=
  let vel := d.getF F.TWU_GVLO_VEL_LO g + 65536 * d.getF F.TWU_GVHI_VEL_HI g
  let len := d.getF F.TWU_GLLO_LEN_LO g + 65536 * d.getF F.TWU_GLHI_LEN_HI g
  decide (vel < 50000 ∨ 300000 < vel ∨ len < 10 ∨ 200000 < len ∨ d.getF F.TWU_GDLY_BLIND g < d.getF F.TWU_GDLY_D g)

/-- Refusals of a write or commit that rules other than the ranges of fields name: `old` is before it, `d` after it.  The answer is
the state that the refusal leaves. -/
def Dev.refusal (d old : Dev) (req : Requester) (r : Reg) (i ws : Nat) : Option Dev :=
  let value (b : Bool) : Option Dev := if b then some (old.trouble F.TRB_STICKY0_BUS_VALUE) else none
  match r with
  | .ANG_CTL => value (d.refBroken i)
  | .SVI_SUBCTL => value ((d.svidApply i).subClash i)
  | .TWU_GCTL => value (d.velBroken i || d.grpBroken i)
  | .FLT_CWHI =>
    let c := d.getF F.FLT_CWSEL_CH
    if d.coefRefused c (d.getF F.FLT_CWSEL_BANK) then some (old.setBit F.FLT_STAT_REJECT 0 c) else none
  | .FLT_SWAP =>
    if ws.testBit F.FLT_SWAP_GO.lo ∧ d.getB F.FLT_CHCTL_RUN i ∧ d.getB F.FLT_CHCTL_POL i then some (d.setBit F.FLT_STAT_REJECT 0 i) else none
  | .TLY_CHCTL => value (d.tlyBroken i)
  | .TLY_SNHI => value (decide (d.getF F.TLY_SNLO_ADDR_LO i % 4 ≠ 0 ∨ 16 < d.getF F.TLY_SNHI_ADDR_HI i))
  | .ASY_ACTL => value (d.areaBroken i)
  | .ASY_MKCTL => value (d.maskBroken i)
  | .ASY_ENVHI => value d.envBroken
  | .ASY_TCTL => value (d.trendBroken i)
  | .ASY_SQW3 =>
    value (itemBad (d.getF F.ASY_SQSEL_ITEM)
      (d.getF F.ASY_SQW0_W + 2 ^ 16 * d.getF F.ASY_SQW1_W + 2 ^ 32 * d.getF F.ASY_SQW2_W + 2 ^ 48 * d.getF F.ASY_SQW3_W))
  | .NET_LQCFG => value (d.lqBroken req)
  | .DMA_MVCTL => value (d.mvBroken i old)
  | _ => none

/-- How Tally reads a snapshot address (R367). -/
def Dev.peekAt (d : Dev) (a : Nat) : Nat := d.peekWord 0 a

/-- What a control write that is not refused makes its block do: `old` is before it, `mask` selects its bits, `ws` holds the write strobes written
with 1. -/
def Dev.effect (d old : Dev) (req : Requester) (r : Reg) (i mask ws : Nat) : Dev :=
  match r with
  | .SYS_MBXGO => if ws.testBit F.SYS_MBXGO_GO.lo then d.submit req else d
  | .HFR_GATE =>
    if d.getF F.HFR_GATE_OPEN = old.getF F.HFR_GATE_OPEN ∧ d.getF F.HFR_GATE_TESTOUT = old.getF F.HFR_GATE_TESTOUT then d
    else d.record 0x0015 0x224 [(1, d.getF F.HFR_GATE_OPEN), (1, d.getF F.HFR_GATE_TESTOUT), (1, d.mode.code)]
  | .CLK_SNAP_CTL => if ws.testBit F.CLK_SNAP_CTL_SNAP.lo then d.snapshot req else d
  | .ANG_CTL =>
    let refs := [F.ANG_REFA_INDEX, F.ANG_REFA_SVCH, F.ANG_REFA_SRC, F.ANG_REFB_INDEX, F.ANG_REFB_SVCH, F.ANG_REFB_SRC, F.ANG_REFC_INDEX,
      F.ANG_REFC_SVCH, F.ANG_REFC_SRC]
    d.angCommit i (old.getB F.ANG_CTL_BIND i) (refs.any fun f => old.getF f i != d.getF f i)
  | .ANG_OFS => d.angOfs i (old.getF F.ANG_OFS_OFS i)
  | .AFE_REF => d.refselWritten (old.getF F.AFE_REF_REFSEL)
  | .AFE_BGC => d.bgcWritten (old.getF F.AFE_BGC_EN)
  | .AUX_CTL => d.auxCtlWritten
  | .AUX_GAP => d.auxCtlWritten
  | .AUX_URG => if ws.testBit F.AUX_URG_GO.lo then d.auxUrgent else d
  | .FLT_RESET => d.fltResetWritten ws
  | .FLT_CTL => if old.getF F.FLT_CTL_FR_RATE = d.getF F.FLT_CTL_FR_RATE then d else { d with fr := { d.fr with next := none } }
  | .FLT_CHCTL => d.chctlWritten i (old.getB F.FLT_CHCTL_RUN i)
  | .FLT_SWAP => if ws.testBit F.FLT_SWAP_GO.lo then d.swapRequest i (d.getF F.FLT_SWAP_TARGET i) (d.getF F.FLT_SWAP_FADE i) (d.chain i).swapSample else d
  | .FLT_CWHI => d.coefCommit
  | .SVI_SUBCTL =>
    let changed := compositeChanged .SVI_SUBCTL i d old || (d.svidApply i).subSvid i != old.subSvid i
    let cadence := [F.SVI_SUBCTL_CLK, F.SVI_SUBCTL_N, F.SVI_SUBCTL_ANG_EN].any fun f => old.getF f i != d.getF f i
    if changed then (d.svidApply i).subCommitted i cadence else d.svidApply i
  | .SVI_SVIDWR => d.svidWritten mask
  | .SEAM_GRP => if ws.testBit F.SEAM_GRP_GO.lo then d.groupRequest (d.getF F.SEAM_GRP_GROUP) 0 else d
  | .TWU_GCTL => d.grpCommitted i
  | .TWU_FARGO => if ws.testBit F.TWU_FARGO_GO.lo then d.farSubmit else d
  | .ASY_SQW3 => d.seqItemCommitted
  | .ASY_SQCTL => d.sqctlWritten i (old.getB F.ASY_SQCTL_RUN i) (ws.testBit F.ASY_SQCTL_RESTART.lo)
  | .ASY_ACTL => (d.areaCommitted i (old.getB F.ASY_ACTL_RUN i) (ws.testBit F.ASY_ACTL_RESTART.lo)).mvRefreshAll
  | .ASY_ARIDX => (d.ridxWritten i).mvRefreshAll
  | .ASY_MKCTL => d.maskCommitted i
  | .ASY_ENVHI => d.envCommitted
  | .ASY_TCTL => if d.asyRuns then (if d.getB F.ASY_TCTL_EN i then d.trendStart i else d.setTrend i { d.trend i with skip := none, cur := none }) else d
  | .TLY_CHCTL =>
    let gen := (d.tlyCh i).gen
    let d := d.tlyCommitted i
    if (d.tlyCh i).gen = gen then d else (d.mvFormatted i).mvRefreshAll
  | .TLY_FRZ => d.frzWritten i req.src (old.getB F.TLY_FRZ_FREEZE i) (ws.testBit F.TLY_FRZ_STRIG.lo) Dev.peekAt
  | .TLY_SNHI => d.snapListCommitted (i / 16)
  | .FIO_INTG => if ws.testBit F.FIO_INTG_GO.lo then d.interrogate (d.getF F.FIO_INTG_BANK) else d
  | .FIO_CLRMASK => ((d.setF F.FIO_CLRMASK_MASK 0 ws).fioClear).setF F.FIO_CLRMASK_MASK 0 0
  | .NET_LQCFG => d.lqCommitted
  | .DMA_MVCTL => d.mvCommitted i (old.getB F.DMA_MVCTL_EN i)
  | .TLK_CTL => d.tlkCtlWritten (decide (old.getF F.TLK_CTL_EN ≠ d.getF F.TLK_CTL_EN ∨ old.getF F.TLK_CTL_ROLE ≠ d.getF F.TLK_CTL_ROLE))
  | _ => d

/-- A control write that has passed its window and its locks, and whether it was refused (R32 to R36). -/
def Dev.controlWrite (d : Dev) (req : Requester) (r : Reg) (i mask payload : Nat) : Dev × Bool :=
  let ws := payload &&& mask
  if mask = 0 then (d, false)
  else if !(d.valuesOk r i mask payload) then (d.trouble F.TRB_STICKY0_BUS_VALUE, true)
  else if r.desc.commit = some r then
    let new := (d.holdMasked r i mask payload).applyHeld r i
    match new.refusal d req r i ws with
    | some x => (x, true)
    | none => (new.effect d req r i mask ws, false)
  else if r.desc.commit.isSome then (d.holdMasked r i mask payload, false)
  else
    let new := d.storeMasked r i mask payload
    match new.refusal d req r i ws with
    | some x => (x, true)
    | none => (new.effect d req r i mask ws, false)

/-! ### Data registers (R37, R38) -/

/-- The new value of a register under a data write of a region, on the enabled bits. -/
def dataValue (g : BusRegion) (old enabled v : Nat) : Nat :=
  let w := v &&& enabled
  match g with
  | .set => old ||| w
  | .clr => old - (old &&& w)
  | .tgl => old ^^^ w
  | _ => (old - (old &&& enabled)) ||| w

/-- What a data write makes its block do; every write of a doorbell register is a doorbell (R398, R413, R415). -/
def Dev.dataEffect (d old : Dev) (r : Reg) (i : Nat) (ring : Ring) : Dev :=
  match r with
  | .SEAM_HIN => d.hinWritten i (old.getF F.SEAM_HIN_HIN i)
  | .NET_LQTAIL => d.lqPost i ring.descs
  | .DMA_MVTAIL => d.mvDoorbell i
  | .DMA_BQTAIL => d.bqDoorbell i (old.getF F.DMA_BQTAIL_TAIL i) ring.blocks
  | _ => d

/-- A data write: byte offset, size and value within the register's word. -/
def Dev.dataWrite (d : Dev) (req : Requester) (g : BusRegion) (r : Reg) (i ofs size v : Nat) (ring : Ring) : Dev :=
  let enabled := (2 ^ (8 * size) - 1) * 2 ^ (8 * ofs)
  let ix := r.indexFor i req.slot
  let new := r.desc.flds.foldl (fun d f =>
    if f.acc = .rw then
      let w := dataValue g (d.getF f.fld ix * 2 ^ f.fld.lo) enabled (v * 2 ^ (8 * ofs))
      d.setF f.fld ix (bits w f.fld.lo f.fld.len)
    else d) d
  new.dataEffect d r ix ring

/-! ### Pairs (R43 to R48) -/

/-- Where the read shadow and the holding copy of a pair stand for a requester. -/
def pairKey (r : Reg) (i slot : Nat) : Nat := slot + 16 * (r.ctorIdx + 512 * i)

/-- Sets the TEAR bit of a pair. -/
def Dev.tear (d : Dev) (r : Reg) (i : Nat) : Dev :=
  d.setBit F.BLK_TEAR_TEAR (r.desc.addr / 65536) (r.desc.tear + r.desc.tearStep * i)

/-- Both halves of a writable pair are applied in one cycle. -/
def Dev.pairApply (d : Dev) (req : Requester) (r : Reg) (i v : Nat) : Dev :=
  let ix := r.indexFor i req.slot
  let d := r.desc.flds.foldl (fun d f => if f.acc = .rw then d.setF f.fld ix (bits v f.fld.lo f.fld.len) else d) d
  match r with
  | .CLK_CONVA => d.convert req
  | .SEAM_PADDR => d.pointLatch req
  | _ => d

/-- Whether a pair has a field that can be written. -/
def writablePair (r : Reg) : Bool := r.desc.flds.any fun f => f.acc == .rw

/-- A 32-bit write of a half of a pair (R48). -/
def Dev.pairWrite (d : Dev) (req : Requester) (r : Reg) (i : Nat) (hi : Bool) (v : Nat) : Dev :=
  let k := pairKey r i req.slot
  if !(writablePair r) then d
  else if !hi then { d with wrHold := SMap.set d.wrHold k v, wrFresh := SMap.set d.wrFresh k true }
  else
    let lo := SMap.getD d.wrHold k 0
    let d := if SMap.getD d.wrFresh k false then d else d.tear r i
    { d with wrFresh := SMap.set d.wrFresh k false }.pairApply req r i (lo + 2 ^ 32 * v)

/-- A primary read of 1, 2 or 4 bytes of a pair, at a byte offset within its eight (R45, R46). -/
def Dev.pairRead (d : Dev) (req : Requester) (r : Reg) (i ofs size : Nat) : Dev × Nat :=
  let k := pairKey r i req.slot
  let v := d.regValue r (r.indexFor i req.slot)
  if ofs < 4 then
    let d := if ofs = 0 then { d with shadow := SMap.set d.shadow k (v / 2 ^ 32), fresh := SMap.set d.fresh k true } else d
    (d, bits v (8 * ofs) (8 * size))
  else
    let sh := SMap.getD d.shadow k 0
    let d := if SMap.getD d.fresh k false then d else d.tear r i
    let d := if ofs + size = 8 then { d with fresh := SMap.set d.fresh k false } else d
    (d, bits sh (8 * (ofs - 4)) (8 * size))

/-! ### Status registers (R39, R50) -/

/-- What a primary read of the bytes from `ofs` on clears in a field: bits of flags that lie in them, and counters and values that
lie wholly in them; SKIP_HWMn reloads with the present depth. -/
def Dev.readClear (d : Dev) (r : Reg) (i ofs size : Nat) : Dev :=
  r.desc.flds.foldl (fun d f =>
    match f.acc with
    | .rcf =>
      let seen := ((2 ^ (8 * size) - 1) * 2 ^ (8 * ofs)) / 2 ^ f.fld.lo
      let v := d.getF f.fld i
      d.setF f.fld i (v - (v &&& seen))
    | .rcv =>
      if ofs ≤ f.fld.lo / 8 ∧ (f.fld.lo + f.fld.len - 1) / 8 < ofs + size then
        d.setF f.fld i (if r = .SKIP_HWM then (d.skip i).depth else 0)
      else d
    | _ => d) d

/-! ### Accesses (R49, R52, R524) -/

/-- A write of at most 4 bytes, or of 8 to a pair, that has passed check 1. -/
def Dev.writeWord (d : Dev) (req : Requester) (a size v : Nat) (ring : Ring) : Dev :=
  match mapped a with
  | none => d.trouble F.TRB_STICKY0_BUS_UNMAP
  | some (g, r, i) =>
    if g = .peek then d
    else if !(d.mayWrite req r i) then d.lockViolation req a v
    else
      match r.desc.cls with
      | .control =>
        if size < 4 then d.trouble F.TRB_STICKY0_BUS_WIDTH
        else
          let mask := bits v 16 16
          if r.desc.flds.any fun f => d.locked f && selects f.fld mask then d.lockViolation req a v
          else (d.controlWrite req r i mask (v % 65536)).1
      | .data => d.dataWrite req g r i (a % 4) size v ring
      | .status => d
      | .pair =>
        if size < 4 then d.trouble F.TRB_STICKY0_BUS_WIDTH
        else if size = 8 then (if writablePair r then d.pairApply req r i v else d)
        else d.pairWrite req r i (decide (a % 8 = 4)) v

/-- Whether an access of 8 bytes meets a pair. -/
def atPair (a : Nat) : Bool := match mapped a with
  | some (_, r, _) => r.desc.cls == .pair
  | none => false

/-- A register write (R524). -/
def Dev.busWrite (d : Dev) (req : Requester) (x : Access) (data : Nat) (ring : Ring := {}) : Dev :=
  let a := x.addr.toNat
  match accessShape x with
  | .width => d.trouble F.TRB_STICKY0_BUS_WIDTH
  | .align => d.trouble F.TRB_STICKY0_BUS_ALIGN
  | .ok =>
    let v := data % 2 ^ (8 * x.size)
    if x.size = 8 ∧ !(atPair a) then
      (d.writeWord req a 4 (v % 2 ^ 32) ring).writeWord req (a + 4) 4 (v / 2 ^ 32) ring
    else d.writeWord req a x.size v ring

/-- A read of at most 4 bytes, or of 8 from a pair, that has passed check 1: the device after it and the bytes. -/
def Dev.readWord (d : Dev) (req : Requester) (a size : Nat) : Dev × Nat :=
  match mapped a with
  | none => (d.trouble F.TRB_STICKY0_BUS_UNMAP, 0)
  | some (g, r, i) =>
    let ix := r.indexFor i req.slot
    let v := d.regValue r ix
    if r.desc.cls = .pair then
      if size = 8 then (d, v)
      else if g = .primary then d.pairRead req r i (a % 8) size
      else (d, bits v (8 * (a % 8)) (8 * size))
    else
      let w := bits v (8 * (a % 4)) (8 * size)
      if g = .primary ∧ r.desc.cls = .status then (d.readClear r ix (a % 4) size, w) else (d, w)

/-- The answer to a read is noted. -/
def Dev.answer (d : Dev) (req : Requester) (v : Nat) (abort : Bool) : Dev :=
  { d with completions := d.completions ++ [⟨req, BitVec.ofNat 64 v, abort⟩] }

/-- A register read (R524). -/
def Dev.busRead (d : Dev) (req : Requester) (x : Access) : Dev :=
  let a := x.addr.toNat
  match accessShape x with
  | .width => (d.trouble F.TRB_STICKY0_BUS_WIDTH).answer req 0 true
  | .align => (d.trouble F.TRB_STICKY0_BUS_ALIGN).answer req 0 true
  | .ok =>
    if x.size = 8 ∧ !(atPair a) then
      let (d, lo) := d.readWord req a 4
      let (d, hi) := d.readWord req (a + 4) 4
      d.answer req (lo + 2 ^ 32 * hi) false
    else
      let (d, v) := d.readWord req a x.size
      d.answer req v false

/-- A 32-bit write of a register at its own address. -/
def Dev.writeReg (d : Dev) (req : Requester) (r : Reg) (i : Nat) (data : Nat) (ring : Ring := {}) : Dev :=
  d.busWrite req ⟨BitVec.ofNat 22 (r.addrOf i), 4, false⟩ data ring

end Sys2Proof.Machine
end

