-- ==== Sys2Proof/Machine/Image.lean ====
section
/-!
DEFINITION. Jixus images (R200 to R208, R429): the header and directory, the sections' records, the signature, and the checks that an
image passes before it runs.
-/
namespace Sys2Proof.Machine

/-! ### Bytes and sections (R200, R201) -/

/-- `n` bytes of an image from an offset, as a number. -/
def rd (b : List Byte) (o n : Nat) : Nat := unle ((b.drop o).take n)

/-- Whether `n` bytes from an offset are 0. -/
def zeros (b : List Byte) (o n : Nat) : Bool := ((b.drop o).take n).all fun x => x == 0

/-- The header of R200. -/
def headerOk (b : List Byte) : Bool :=
  decide (256 ≤ b.length) && rd b 0 4 == 0x3149584A && rd b 4 2 == 1 && rd b 6 2 == 256 && rd b 8 2 == 0x3142 && rd b 10 2 == 10
    && zeros b 12 4 && zeros b 48 16 && zeros b 224 32

/-- A directory entry: TYPE, OFFSET, LENGTH. -/
structure DirEnt where
  typ : Nat
  ofs : Nat
  len : Nat
  deriving DecidableEq, Repr

/-- Entry `i` of the directory. -/
def dirEnt (b : List Byte) (i : Nat) : DirEnt := ⟨rd b (64 + 16 * i) 2, rd b (72 + 16 * i) 8, rd b (68 + 16 * i) 4⟩

/-- The directory. -/
def directory (b : List Byte) : List DirEnt := (List.range 10).map (dirEnt b)

/-- Whether an entry is aligned and lies in the image (R201). -/
def DirEnt.placed (b : List Byte) (e : DirEnt) : Bool := e.ofs % 64 == 0 && decide (e.ofs + e.len ≤ b.length)

/-- The signature section: the one type-1 entry, where it can be located and holds its fields. -/
def signatureSection (b : List Byte) : Option DirEnt :=
  match (directory b).filter fun e => e.typ == 1 with
  | [e] => if e.placed b && decide (104 ≤ e.len) then some e else none
  | _ => none

/-- The section of a type. -/
def sectionOf (b : List Byte) (t : Nat) : DirEnt := ((directory b).find? fun e => e.typ == t).getD ⟨t, 0, 0⟩

/-- Checks by record: the image offset of the record and whether it passes. -/
abbrev Checks := List (Nat × Bool)

/-- The offset of the first check that fails. -/
def firstFail (c : Checks) : Option Nat := (c.find? fun x => !x.2).map fun x => x.1

/-- The directory faults that code 1 of R208 names. -/
def dirChecks (b : List Byte) : Checks :=
  (List.range 10).map fun i =>
    let e := dirEnt b i
    (64 + 16 * i, decide (1 ≤ e.typ ∧ e.typ ≤ 10) && e.placed b && ((List.range i).all fun j => (dirEnt b j).typ != e.typ))

/-- The least length of a section: its counts, or the whole of a section of fixed length. -/
def leastLen (t : Nat) : Nat :=
  if t = 1 then 104 else if t = 2 then 16 else if t = 6 ∨ t = 7 then 8 else if t = 8 then 404 else if t = 9 then 128 else if t = 10 then 8 else 4

/-- A section's count `j`. -/
def countOf (b : List Byte) (t j : Nat) : Nat := rd b ((sectionOf b t).ofs + 4 * j) 4

/-- The bytes that a section's counts say it holds: what the spec does not count (the pool, the programs) is left to its records. -/
def countedLen (b : List Byte) (t : Nat) : Nat :=
  let n (j : Nat) : Nat := countOf b t j
  if t = 2 then max (16 + 32 * n 0 + 8 * n 1) (n 2 + n 3)
  else if t = 3 then 4 + 32 * n 0
  else if t = 4 ∨ t = 5 then 4 + 16 * n 0
  else if t = 6 then 8 + 56 * n 0 + 16 * n 1
  else if t = 7 then 8 + 24 * n 0 + 4 * n 1
  else leastLen t

/-- Every section is long enough for what it says it holds. -/
def sizeChecks (b : List Byte) : Checks :=
  (List.range 11).drop 2 |>.map fun t =>
    let e := sectionOf b t
    (e.ofs, decide (leastLen t ≤ e.len) && decide (countedLen b t ≤ e.len) && (t != 2 || decide (countOf b 2 0 ≤ 1048576)))

/-! ### Records (R202 to R207) -/

/-- The offset of node record `i`. -/
def nodeAt (b : List Byte) (i : Nat) : Nat := (sectionOf b 2).ofs + 16 + 32 * i
/-- The offset of port record `i`. -/
def portAt (b : List Byte) (i : Nat) : Nat := (sectionOf b 2).ofs + 16 + 32 * countOf b 2 0 + 8 * i
/-- The offset of face program record `i`. -/
def faceAt (b : List Byte) (i : Nat) : Nat := (sectionOf b 3).ofs + 4 + 32 * i
/-- The offset of point record `i`. -/
def pointAt (b : List Byte) (i : Nat) : Nat := (sectionOf b 4).ofs + 4 + 16 * i
/-- The offset of route record `i`. -/
def routeAt (b : List Byte) (i : Nat) : Nat := (sectionOf b 5).ofs + 4 + 16 * i
/-- The offset of cell-setting record `i`. -/
def setAt (b : List Byte) (i : Nat) : Nat := (sectionOf b 6).ofs + 8 + 56 * i
/-- The offset of register-setting record `i`. -/
def regAt (b : List Byte) (i : Nat) : Nat := (sectionOf b 6).ofs + 8 + 56 * countOf b 6 0 + 16 * i
/-- The offset of channel record `i`. -/
def ioAt (b : List Byte) (i : Nat) : Nat := (sectionOf b 7).ofs + 8 + 24 * i
/-- The offset of Assay entry `i`. -/
def assayAt (b : List Byte) (i : Nat) : Nat := (sectionOf b 7).ofs + 8 + 24 * countOf b 7 0 + 4 * i

/-- A node record (R202). -/
def readNode (b : List Byte) (o : Nat) : NodeRec :=
  ⟨rd b o 1, rd b (o + 1) 1, rd b (o + 2) 2, rd b (o + 4) 4, rd b (o + 8) 4, rd b (o + 12) 4, rd b (o + 16) 4, rd b (o + 20) 2, rd b (o + 22) 2,
    rd b (o + 24) 4, rd b (o + 28) 4⟩
/-- A port record (R202). -/
def readPort (b : List Byte) (o : Nat) : PortRec := ⟨rd b o 1, rd b (o + 1) 1, rd b (o + 4) 4⟩
/-- A face program record (R205). -/
def readFace (b : List Byte) (o : Nat) : FaceRec :=
  ⟨rd b o 2, rd b (o + 2) 1, rd b (o + 3) 1, rd b (o + 4) 4, rd b (o + 8) 4, rd b (o + 12) 4, rd b (o + 16) 4, rd b (o + 20) 4, rd b (o + 24) 8⟩
/-- A point record (R203). -/
def readPoint (b : List Byte) (o : Nat) : PointRec :=
  ⟨rd b o 4 % 2 ^ 20, rd b (o + 4) 1, rd b (o + 5) 1, rd b (o + 6) 2, rd b (o + 8) 4, rd b (o + 12) 4⟩
/-- A route record (R204). -/
def readRoute (b : List Byte) (o : Nat) : RouteRec := ⟨rd b o 4, rd b (o + 4) 4, rd b (o + 8) 4, rd b (o + 12) 4⟩
/-- A cell-setting record (R206). -/
def readSet (b : List Byte) (o : Nat) : SetRec :=
  ⟨rd b o 4, rd b (o + 4) 2, rd b (o + 6) 1, (List.range 8).map fun g => rd b (o + 8 + 4 * g) 4, rd b (o + 40) 4, rd b (o + 44) 4, rd b (o + 48) 4,
    rd b (o + 52) 1⟩
/-- A register-setting record (R206). -/
def readReg (b : List Byte) (o : Nat) : RegRec := ⟨rd b o 4, rd b (o + 4) 2, rd b (o + 6) 2, rd b (o + 8) 4⟩
/-- A channel record of the I/O map (R207). -/
def readIo (b : List Byte) (o : Nat) : IoRec :=
  ⟨rd b o 1, rd b (o + 1) 1, rd b (o + 2) 1, rd b (o + 4) 2, rd b (o + 6) 2, (List.range 4).map fun p => rd b (o + 8 + 4 * p) 4⟩

/-- The design of an image whose sections are long enough. -/
def readDesign (b : List Byte) : Design :=
  let all {α : Type} (n : Nat) (f : Nat → α) : List α := (List.range n).map f
  let faces := all (countOf b 3 0) fun i => readFace b (faceAt b i)
  { nodes := all (countOf b 2 0) fun i => readNode b (nodeAt b i)
    ports := all (countOf b 2 1) fun i => readPort b (portAt b i)
    points := all (countOf b 4 0) fun i => readPoint b (pointAt b i)
    routes := all (countOf b 5 0) fun i => readRoute b (routeAt b i)
    faces := faces
    settings := all (countOf b 6 0) fun i => readSet b (setAt b i)
    regs := all (countOf b 6 1) fun i => readReg b (regAt b i)
    io := all (countOf b 7 0) fun i => readIo b (ioAt b i)
    assay := all (countOf b 7 1) fun i => rd b (assayAt b i) 4
    pool := (b.drop ((sectionOf b 2).ofs + countOf b 2 2)).take (countOf b 2 3)
    code := faces.foldl (fun m f => SMap.set m f.face ((b.drop ((sectionOf b 3).ofs + f.codeOfs)).take (f.codeLen + f.stateLen))) []
    plan := all 32 fun n => rd b ((sectionOf b 9).ofs + 4 * n) 4
    canary := (b.drop (sectionOf b 8).ofs).take 404
    policy := rd b (sectionOf b 10).ofs 1 % 2 == 1
    rollback := rd b 16 8
    key := ((signatureSection b).map fun e => rd b e.ofs 1).getD 0 }

/-! ### References (code 2) -/

/-- An index within a table, or none. -/
def ixOk (n i : Nat) : Bool := i == noIx || decide (i < n)

/-- ORIGIN, ORIGIN_IX and WRITER of a point record (R203). -/
def Design.originOk (D : Design) (p : PointRec) : Bool :=
  match p.origin with
  | 0 => decide (p.writer < D.nodes.length)
  | 1 => decide (p.ix < 16)
  | 2 => decide (p.ix < 1024)
  | 3 => decide (p.ix < 1024)
  | 4 => decide (p.ix < 16)
  | 5 => decide (p.ix < 64)
  | 6 => decide (p.ix < 256)
  | 7 => decide (p.writer < D.points.length)
  | 8 => decide (p.ix < 64)
  | _ => false

/-- PNT of a channel record for a pit: the point it drives from, or the field input it writes (R203). -/
def Design.pntOk (D : Design) (r : IoRec) (pit : Nat) : Bool :=
  let a := r.pnt.getD pit noIx
  a == noIx || (D.points.any fun p => p.addr == a && (r.dir == 1 || (p.origin == 8 && p.ix == r.ch && a / 2 ^ 18 == pit)))

/-- Every reference of a record lies in the table it names. -/
def refChecks (b : List Byte) (D : Design) : Checks :=
  let N := D.nodes.length
  (D.nodes.zipIdx.map fun x =>
    let n := x.1
    (nodeAt b x.2, ixOk N n.child && ixOk N n.sibling && (if x.2 = 0 then n.parent == noIx else decide (n.parent < N)) && decide (n.name < D.pool.length)
      && decide (n.portBase + n.ports ≤ D.ports.length) && decide (n.setBase + n.settings ≤ D.settings.length))) ++
  (D.ports.zipIdx.map fun x =>
    let cell := D.nodes.any fun n => n.kind == 1 && decide (n.portBase ≤ x.2 ∧ x.2 < n.portBase + n.ports)
    (portAt b x.2, ixOk (if cell then D.points.length else D.ports.length) x.1.bind)) ++
  (D.faces.zipIdx.map fun x =>
    (faceAt b x.2, decide (x.1.face < 256 ∧ x.1.codeOfs + x.1.codeLen + x.1.stateLen ≤ (sectionOf b 3).len))) ++
  (D.points.zipIdx.map fun x => (pointAt b x.2, D.originOk x.1)) ++
  (D.routes.zipIdx.map fun x => (routeAt b x.2, (D.pointOf x.1.src).isSome && (D.pointOf x.1.dst).isSome)) ++
  (D.settings.zipIdx.map fun x => (setAt b x.2, match D.node x.1.node with
    | some n => decide (x.1.setno < n.settings)
    | none => false)) ++
  (D.io.zipIdx.map fun x => (ioAt b x.2, decide (x.1.ch < 64) && (List.range 4).all (D.pntOk x.1))) ++
  (D.assay.zipIdx.map fun x => (assayAt b x.2, D.points.any fun p => p.addr == x.1))

/-! ### Writers (code 3: R175, R207) -/

/-- The points that output ports of cells are bound to, with the ports' indices. -/
def Design.outPorts (D : Design) : List (Nat × Nat × Nat) :=
  D.nodes.zipIdx.flatMap fun x =>
    if x.1.kind = 1 then
      (List.range x.1.ports).filterMap fun j =>
        match D.ports[x.1.portBase + j]? with
        | some p => if p.dir = 1 ∧ p.bind ≠ noIx then some (x.1.portBase + j, x.2, p.bind) else none
        | none => none
    else []

/-- Every point has one writer and every field channel one record. -/
def writerChecks (b : List Byte) (D : Design) : Checks :=
  let outs := D.outPorts
  (outs.zipIdx.map fun x =>
    let first := !((outs.take x.2).any fun y => y.2.2 == x.1.2.2)
    (portAt b x.1.1, first && (match D.points[x.1.2.2]? with
      | some p => p.origin == 0 && p.writer == x.1.2.1
      | none => false))) ++
  (D.points.zipIdx.map fun x => (pointAt b x.2, (!((D.points.take x.2).any fun q => q.addr == x.1.addr)) &&
    (x.1.origin != 7 || D.routes.any fun r => r.dst == x.1.addr))) ++
  (D.routes.zipIdx.map fun x =>
    (routeAt b x.2, (!((D.routes.take x.2).any fun r => r.dst == x.1.dst)) && (match D.pointOf x.1.dst with
      | some p => p.origin == 7 && (D.points[p.writer]?).any fun q => q.addr == x.1.src
      | none => false))) ++
  (D.io.zipIdx.map fun x => (ioAt b x.2, !((D.io.take x.2).any fun r => r.ch == x.1.ch)))

/-! ### Domains (code 4: R180, R212) -/

/-- Whether a cell type of R212 is accepted in a domain; `fr` is the code of the fixed rate. -/
def cellDomainOk (ct dom : Nat) : Bool :=
  if ct = 0x0056 then decide (dom < 12 ∧ dom % 3 ≠ 0)
  else if ct = 0x0060 ∨ ct = 0x0061 then dom == 12
  else if ct = 0x0070 ∨ ct = 0x0071 ∨ ct = 0x0072 ∨ ct = 0x007B then decide (dom < 13)
  else if [0x0001, 0x0002, 0x0003, 0x0010, 0x0011, 0x0012, 0x0013, 0x0014, 0x0020, 0x0021, 0x0022, 0x0023, 0x0030, 0x0031, 0x0040, 0x0050, 0x0051, 0x0052,
    0x0053, 0x0054, 0x0055, 0x0078, 0x0079, 0x007A].contains ct then decide (dom < 12)
  else false

/-- Whether the tap that a point takes belongs to the domain of its face; `d` holds the register settings of the image. -/
def Dev.tapOk (d : Dev) (dom : Nat) (p : PointRec) : Bool :=
  match p.origin with
  | 1 => decide (dom < 12 ∧ d.getF F.FLT_CHCTL_CLK p.ix = dom / 3 ∧ samplesPerCycle (d.getF F.FLT_CHCTL_N p.ix) = domainN dom)
  | 2 => decide (dom < 12 ∧ d.getF F.SVI_SUBCTL_CLK (p.ix / 8) = dom / 3 ∧ samplesPerCycle (d.getF F.SVI_SUBCTL_N (p.ix / 8)) = domainN dom)
  | 4 => dom == 12
  | _ => true

/-- Domains of faces, cells and taps; a cell's type is one of R212, and the faces that carry its copies have a domain for it. -/
def domainChecks (b : List Byte) (D : Design) (d : Dev) : Checks :=
  (D.faces.zipIdx.map fun x => (faceAt b x.2, decide (x.1.domain < 13))) ++
  (D.nodes.zipIdx.map fun x =>
    let ct := x.1.cellType
    let faces := (D.cellFace x.2).toList ++ (if D.isDuplex x.2 then (D.cellFaceS x.2).toList else [])
    (nodeAt b x.2, x.1.kind != 1 || (((List.range 13).any fun n => cellDomainOk ct n) && faces.all fun f => cellDomainOk ct (D.domainOf f)))) ++
  (D.points.zipIdx.map fun x => (pointAt b x.2, d.tapOk (D.domainOf (faceOf x.1.addr)) x.1))

/-! ### Routes (code 5: R184, R185) -/

/-- The same-domain routes without DELAY1: index, source face, reader's face. -/
def Design.plainRoutes (D : Design) : List (Nat × Nat × Nat) :=
  D.routes.zipIdx.filterMap fun x =>
    let f := faceOf x.1.src
    let g := faceOf x.1.dst
    if D.domainOf f = D.domainOf g ∧ x.1.flags % 2 = 0 then some (x.2, f, g) else none

/-- Leaves the routes that a cycle leads into: those whose source face itself waits for a route that is left. -/
def cyclic : Nat → List (Nat × Nat × Nat) → List (Nat × Nat × Nat)
  | 0, es => es
  | n + 1, es => cyclic n (es.filter fun e => es.any fun x => x.2.2 == e.2.1)

/-- Cycles, which the last of their routes closes, and XDL. -/
def routeChecks (b : List Byte) (D : Design) : Checks :=
  let es := D.plainRoutes
  D.routes.zipIdx.map fun x =>
    let same := D.domainOf (faceOf x.1.src) == D.domainOf (faceOf x.1.dst)
    (routeAt b x.2, cyclic 256 (es.filter fun e => e.1 ≤ x.2) == [] && (if same then x.1.xdl == 0 else decide (10 ≤ x.1.xdl ∧ x.1.xdl ≤ 65535)))

/-! ### Resources (code 6: R174, R186, R527) and budgets (code 7: R188) -/

/-- The timers of a cell type (R527). -/
def cellTimers (ct : Nat) : Nat :=
  if [0x0010, 0x0011, 0x0020, 0x0021, 0x0022, 0x0023, 0x0040, 0x0050, 0x0055, 0x0071, 0x0078, 0x0079].contains ct then 1
  else if [0x0053, 0x0051, 0x0052, 0x0054].contains ct then 2
  else if ct = 0x007A then 4 else 0

/-- The timers of the cells on a face. -/
def Design.timersOn (D : Design) (g : Nat) : Nat :=
  (D.cellsOn g).foldl (fun n x => n + ((D.node x.1).map fun c => cellTimers c.cellType).getD 0) 0

/-- Resources of faces, and routes. -/
def resourceChecks (b : List Byte) (D : Design) : Checks :=
  (D.faces.zipIdx.map fun x =>
    (faceAt b x.2, decide (x.1.codeLen ≤ 131072 ∧ x.1.stateLen ≤ 262144 ∧ x.1.points ≤ 4096 ∧ x.1.timers ≤ 16 ∧ x.1.timers = D.timersOn x.1.face))) ++
  (D.routes.zipIdx.map fun x =>
    let ends (r : RouteRec) : Nat × Nat := (faceOf r.src, faceOf r.dst)
    let e := ends x.1
    let upto := D.routes.take x.2
    (routeAt b x.2, decide (x.2 < 65536 ∧ upto.countP (fun r => (ends r).1 == e.1) < 512 ∧ upto.countP (fun r => (ends r).2 == e.2) < 512)))

/-- WCET within budget. -/
def wcetChecks (b : List Byte) (D : Design) (d : Dev) : Checks :=
  D.faces.zipIdx.map fun x => (faceAt b x.2, decide (x.1.wcet ≤ budget x.1.domain (d.getF F.FLT_CTL_FR_RATE)))

/-! ### Duplex lodes (code 8: R194, R528) -/

/-- The twins, on the face of copy S, of a point that a port of copy N is bound to. -/
def Design.twins (D : Design) (faceS : Nat) (p : PointRec) : Nat :=
  let sources := (D.points.filter fun q => match D.points[p.writer]? with
    | some s => southPit (q.addr / 2 ^ 18) && q.typ == s.typ && q.origin == s.origin && q.ix == s.ix && q.writer == s.writer
    | none => false).map D.indexOf
  D.points.countP fun q => faceOf q.addr == faceS && q.typ == p.typ && q.origin == p.origin && q.ix == p.ix &&
    (if p.origin = 7 then sources.contains q.writer else q.writer == p.writer)

/-- Whether a point takes what a cell outside every duplex lode writes in the other half. -/
def Design.crossRead (D : Design) (p : PointRec) : Bool :=
  p.origin == 7 && (match D.points[p.writer]? with
    | some s => s.origin == 0 && !(D.isDuplex s.writer) && southPit (s.addr / 2 ^ 18) != southPit (p.addr / 2 ^ 18)
    | none => false)

/-- Whether each copy of an outermost duplex lode lies whole in one pit, copy N in the north and copy S in the south (R194). -/
def Design.lodePlaced (D : Design) (l : Nat) : Bool :=
  let cells := (List.range D.nodes.length).filter fun j => (D.node j).any (fun n => n.kind == 1) && D.duplexLode (D.nodes.length + 1) j == some l
  let pitsN := (cells.map fun j => (D.cellFace j).map fun g => g / 64).eraseDups
  let pitsS := (cells.map fun j => (D.cellFaceS j).map fun g => g / 64).eraseDups
  decide (pitsN.length ≤ 1 ∧ pitsS.length ≤ 1) && (pitsN.all fun p => p.any fun p => !(southPit p)) && pitsS.all fun p => p.any southPit

/-- The field outputs that a point drives. -/
def Design.drivenBy (D : Design) (addr : Nat) : List Nat := (D.io.filter fun r => r.dir == 1 && r.pnt.contains addr).map fun r => r.ch

/-- Whether every point that a duplex cell's ports bind has one twin, which drives the same field outputs, and neither copy takes from the other half what a cell outside
every duplex lode writes there (R194, R528). -/
def Design.twinned (D : Design) (i : Nat) (n : NodeRec) : Bool :=
  match D.cellFaceS i with
  | some s => ((D.portsOf n).filterMap D.bound).all fun p => D.twins s p == 1 && !(D.crossRead p) && (match D.twin s p with
      | some q => !(D.crossRead q) && (p.origin != 0 || D.drivenBy p.addr == D.drivenBy q.addr)
      | none => false)
  | none => false

/-- Placement of duplex lodes and the twins of their cells' points. -/
def duplexChecks (b : List Byte) (D : Design) : Checks :=
  D.nodes.zipIdx.map fun x =>
    let l := D.duplexLode (D.nodes.length + 1) x.2
    (nodeAt b x.2, if x.1.kind = 1 then l.isNone || D.twinned x.2 x.1 else l != some x.2 || D.lodePlaced x.2)

/-! ### Settings (code 9: R206, R226) -/

/-- Groups that a mask of DEFINED names. -/
def definedGroups (m : Nat) : List Nat := (List.range 8).filter fun g => m.testBit g

/-- Whether a setting word lies within MIN and MAX of its record. -/
def SetRec.inRange (r : SetRec) (w : Nat) : Bool :=
  !(r.kind == 1 && bits w 23 8 == 255) && decide (settingNum r.kind r.min ≤ settingNum r.kind w ∧ settingNum r.kind w ≤ settingNum r.kind r.max)

/-- The DEFINED of a design; without a cell-setting record only group 0 is (R206). -/
def Design.defined (D : Design) : Nat := match D.settings with
  | r :: _ => r.defined
  | [] => 1

/-- A word of a cell's setting, where it has a record of it. -/
def Design.settingAt (D : Design) (node setno g : Nat) : Option Nat :=
  (D.settings.find? fun r => r.node == node && r.setno == setno).map fun r => r.values.getD g 0

/-- RESET = DEPENDENT needs curve 5, 6 or 7 (R226). -/
def Design.resetOk (D : Design) (node g : Nat) : Bool :=
  match D.node node with
  | some n =>
    if n.cellType = 0x0010 ∨ n.cellType = 0x0011 then
      match D.settingAt node 5 g, D.settingAt node 1 g with
      | some r, some c => r != 2 || c == 5 || c == 6 || c == 7
      | some r, none => r != 2
      | _, _ => true
    else true
  | none => true

/-- Settings, WAIT and DEFINED. -/
def settingChecks (b : List Byte) (D : Design) : Checks :=
  (D.faces.zipIdx.map fun x => (faceAt b x.2, decide (50 ≤ x.1.wait ∧ x.1.wait ≤ 20000))) ++
  (D.settings.zipIdx.map fun x =>
    let r := x.1
    (setAt b x.2, decide (r.kind ≤ 2) && r.defined != 0 && r.defined == D.defined &&
      (definedGroups r.defined).all fun g => r.inRange (r.values.getD g 0) && (r.setno != 5 || D.resetOk r.node g)))

/-! ### Register settings and the Canary table (code 10: R111, R206, R266, R312) -/

/-- Inserts a register setting by its ORDER, after those of the same ORDER. -/
def orderInsert (x : RegRec × Nat) : List (RegRec × Nat) → List (RegRec × Nat)
  | [] => [x]
  | y :: ys => if x.1.order < y.1.order then x :: y :: ys else y :: orderInsert x ys

/-- The register settings with their record numbers in ascending ORDER. -/
def Design.ordered (D : Design) : List (RegRec × Nat) := D.regs.zipIdx.foldl (fun l x => orderInsert x l) []

/-- Applies one register setting as Headframe's control write; whether it was refused. -/
def Dev.applyReg (d : Dev) (r : RegRec) : Dev × Bool :=
  match mapped r.addr with
  | some (.primary, reg, i) => if reg.desc.cls = .control then d.controlWrite .headframe reg i r.mask r.value else (d, true)
  | _ => (d, true)

/-- Applies register settings until one is refused: the device and the number of the record refused. -/
def Dev.applyRegs : List (RegRec × Nat) → Dev → Dev × Option Nat
  | [], d => (d, none)
  | x :: xs, d =>
    let r := d.applyReg x.1
    if r.2 then (r.1, some x.2) else applyRegs xs r.1

/-- Whether a channel is the odd one of a pair. -/
def Dev.pairedOdd (d : Dev) (c : Nat) : Bool := c % 2 == 1 && (d.getF F.AFE_PAIR_PAIR).testBit (c / 2)

/-- Whether an entry of a Canary table reads a paired odd channel, or one whose gain is not the table's (R111). -/
def Dev.entryBroken (d : Dev) (t : List Byte) (e : Nat) : Bool :=
  let x := canaryEntry t e
  x.en && (d.pairedOdd x.ch || d.getF F.AFE_GAIN_GAIN x.ch != canaryGain t x.ch)

/-- Whether pairing or a gain disagrees with the design or the Canary table (R111). -/
def Dev.pairBroken (d : Dev) (D : Design) (table : Option (List Byte)) : Bool :=
  (D.points.any fun p => (p.origin == 1 || p.origin == 4) && d.pairedOdd p.ix) ||
    table.any fun t => (List.range 16).any (d.entryBroken t)

/-- The Canary table that runs once an image is accepted (R312). -/
def Dev.tableAfter (d : Dev) (D : Design) : Option (List Byte) :=
  let t := match d.canaryTable with
    | some t => if canaryFlag t 1 then t else D.canary
    | none => D.canary
  if canaryOk t then some t else none

/-- Whether a locked table stands against an image's Canary section (R312). -/
def Dev.tableLocked (d : Dev) (D : Design) : Bool := match d.canaryTable with
  | some t => canaryFlag t 1 && t != D.canary
  | none => false

/-- Whether a field channel is named in any OUTMASK. -/
def outmaskNames (t : List Byte) (c : Nat) : Bool := (List.range 16).any fun e => (canaryEntry t e).outmask.testBit c

/-- Register settings that are refused, and what the image's registers break: `x` is the device with them applied. -/
def registerChecks (b : List Byte) (D : Design) (d : Dev) (x : Dev × Option Nat) : Checks :=
  (match x.2 with
    | some i => [(regAt b i, false)]
    | none => []) ++
  [((sectionOf b 6).ofs, !((List.range 4).any fun g => x.1.getB F.TWU_GCTL_EN g && x.1.grpBroken g) && !(x.1.pairBroken D none)),
    ((sectionOf b 8).ofs, !(d.tableLocked D))] ++
  ((List.range 16).map fun e => ((sectionOf b 8).ofs + 16 + 24 * e, !((d.tableAfter D).any fun t => x.1.entryBroken t e))) ++
  (D.io.zipIdx.map fun r => (ioAt b r.2, !(r.1.dir == 0 && outmaskNames D.canary r.1.ch)))

/-! ### The credit plan (code 11: R16) -/

/-- A word of the credit plan. -/
def planOk (n w : Nat) : Bool :=
  let named := w.testBit 12
  let resv := w % 4096
  if n = 31 ∧ named then false
  else if skipProt n ∧ named then decide (resv ≠ 0 ∧ resv ≤ skipCap n)
  else resv == 0

/-- The credit plan's words. -/
def planChecks (b : List Byte) (D : Design) : Checks := D.plan.zipIdx.map fun x => ((sectionOf b 9).ofs + 4 * x.2, planOk x.2 x.1)

/-! ### The whole of R208 and R429 -/

/-- The first check of R208 that fails, as CODE and OFS of SEAM_LOADERR; the checks of one code end before those of the next. -/
def Dev.imageFault (d : Dev) (b : List Byte) : Option (Nat × Nat) :=
  let fail (code : Nat) (c : Checks) : Option (Nat × Nat) := (firstFail c).map fun o => (code, o / 16)
  match fail 1 (dirChecks b) with
  | some f => some f
  | none =>
    match fail 2 (sizeChecks b) with
    | some f => some f
    | none =>
      let D := readDesign b
      let x := d.applyRegs D.ordered
      (fail 2 (refChecks b D)).or <| (fail 3 (writerChecks b D)).or <| (fail 4 (domainChecks b D x.1)).or <| (fail 5 (routeChecks b D)).or <|
        (fail 6 (resourceChecks b D)).or <| (fail 7 (wcetChecks b D x.1)).or <| (fail 8 (duplexChecks b D)).or <| (fail 9 (settingChecks b D)).or <|
        (fail 10 (registerChecks b D d x)).or <| fail 11 (planChecks b D)

/-- Whether an image's signature holds under a key slot's public key (R201, R429). -/
def signatureOk (b : List Byte) (e : DirEnt) (k : KeySlot) : Bool :=
  ecdsaOk (k.pub.drop 1) (sha384 (b.take e.ofs ++ b.drop (e.ofs + e.len))) ((b.drop (e.ofs + 8)).take 96)

/-- The code of R429 that an image fails with, 0 where it passes, and the fault of R208 where that is 5. -/
def Dev.imageCode (d : Dev) (b : List Byte) : Nat × Nat × Nat :=
  match (if b = [] ∨ !(headerOk b) then none else signatureSection b) with
  | none => (1, 0, 0)
  | some e =>
    let slot := rd b e.ofs 1
    let k := d.keySlot slot
    if 3 < slot ∨ !k.valid then (2, 0, 0)
    else if !(signatureOk b e k) then (3, 0, 0)
    else if rd b 16 8 < d.nv.rows.headD 0 then (4, 0, 0)
    else
      match d.imageFault b with
      | some f => (5, f.1, f.2)
      | none => (0, 0, 0)

end Sys2Proof.Machine
end

