-- ==== Sys2Proof/Machine/Sage.lean ====
section
/-!
DEFINITION. What Sage covers and the CRCs it compares (R209, R442 to R445).
-/
namespace Sys2Proof.Machine

/-- The regions of Sage. -/
inductive SageRegion where
  | c | n | s
  deriving DecidableEq, Repr

/-- Of which bits of a register Sage takes: the fields that can be written, and the three registers of R442 that hold others. -/
def sageField (r : Reg) (f : FldDesc) : Bool :=
  match r with
  | .FLT_CHSTAT => f.fld == F.FLT_CHSTAT_BANK
  | .SKIP_CAP => f.fld == F.SKIP_CAP_RESV
  | .HFR_LOCK => true
  | .FLT_PITS0 => true
  | .FLT_PITS1 => true
  | _ => f.acc == .rw

/-- The region that covers index `i` of a register. -/
def sageRegion (r : Reg) (i : Nat) : Option SageRegion :=
  let half (north : Bool) : Option SageRegion := some (if north then .n else .s)
  match r with
  | .FLT_CHSTAT => half (decide (i < 8))
  | .SKIP_CAP => some .c
  | .HFR_LOCK => some .c
  | _ => match r.desc.region with
    | .none => none
    | .core => some .c
    | .channel => half (decide (i < 8))
    | .pin => half (decide (i < 32))
    | .port => half (i % 2 == 0)

/-- The bank of a channel once every swap asked for has taken effect (R443). -/
def Dev.bankAfter (d : Dev) (c : Nat) : Nat :=
  match (d.chain c).held, (d.chain c).fade with
  | some (t, _), _ => t
  | none, some f => f.target
  | none, none => d.getF F.FLT_CHSTAT_BANK c

/-- A register's word as Sage takes it: as it stands, or with `settled` as it is once every swap has taken effect. -/
def Dev.sageWord (d : Dev) (settled : Bool) (r : Reg) (i : Nat) : Nat :=
  r.desc.flds.foldl (fun v f =>
    if sageField r f then
      let x := if settled && r == .FLT_CHSTAT then d.bankAfter i else d.show f.fld i
      v + x * 2 ^ f.fld.lo
    else v) 0

/-- The registers of a region, by address. -/
def Dev.sageRegs (d : Dev) (settled : Bool) (g : SageRegion) : SMap Nat :=
  Reg.all.foldl (fun m r =>
    (List.range r.desc.count).foldl (fun m i =>
      if sageRegion r i = some g then SMap.set m (r.addrOf i) (d.sageWord settled r i) else m) m) []

/-- Whether a channel, face or the core belongs to a region. -/
def SageRegion.hasChannel (g : SageRegion) (c : Nat) : Bool := match g with
  | .c => false
  | .n => decide (c < 8)
  | .s => decide (8 ≤ c ∧ c < 16)

/-- Configuration that no register address shows (log entry 13): the coefficients of a region's channels, and in region C the svIDs, the
sequencers' items and the mask limits. -/
def Dev.sageHidden (d : Dev) (g : SageRegion) : List Nat :=
  ((List.range 16).filter g.hasChannel).flatMap (fun c => (List.range 2).flatMap fun b => (List.range 96).map fun t => unsgn 24 (d.coefAt c b t)) ++
    (match g with
      | .c => d.svi.flatMap (fun p => p.1 :: p.2.svid.flatMap fun q => [q.1, q.2]) ++
          d.asy.items.flatMap (fun p => [p.1, p.2 % 2 ^ 32, p.2 / 2 ^ 32]) ++ d.asy.env.flatMap fun p => [p.1, p.2]
      | _ => [])

/-- What the image puts into a face's configuration memory: its program, its points, the routes into it and the settings of its cells. -/
def Design.faceContents (D : Design) (g : Nat) : List Nat :=
  (SMap.getD D.code g []).map (fun b => b.toNat) ++
    (D.facePoints g).flatMap (fun p => [p.addr, p.typ, p.origin, p.ix, p.writer, p.scale]) ++
    (D.routes.filter fun r => faceOf r.dst == g).flatMap (fun r => [r.src, r.dst, r.xdl, r.flags]) ++
    (D.settings.filter fun r => (D.cellsOn g).any fun x => x.1 == r.node).flatMap fun r => [r.node, r.setno, r.kind] ++ r.values

/-- The faces of a region. -/
def SageRegion.faces : SageRegion → List Nat
  | .c => []
  | .n => List.range 128
  | .s => (List.range 128).map (· + 128)

/-- Every byte of a region in the order in which Sage reads it (R442). -/
def Dev.sageBytes (d : Dev) (settled : Bool) (g : SageRegion) : List Byte :=
  (d.sageRegs settled g).flatMap (fun p => le 4 p.2) ++ (d.sageHidden g).flatMap (le 4) ++
    (match g with
      | .c => (d.nv.canary.getD []) ++ le 1 d.seam.design.policy.toNat
      | _ => []) ++
    (g.faces.filter fun f => (d.seam.design.faceRec f).isSome).flatMap fun f => Config.faceMemory f (d.seam.design.faceContents f)

/-- The CRC of a region as it stands. -/
def Dev.sageCrc (d : Dev) (g : SageRegion) : Nat := crc32c (d.sageBytes false g)

/-- The references that Headframe commits: the CRCs of what it has written, with every swap taken effect (R439, R443). -/
def Dev.sageCommit (d : Dev) : Dev :=
  let ref (g : SageRegion) : Nat := crc32c (d.sageBytes true g)
  ((d.setF F.SAGE_REFC_REF 0 (ref .c)).setF F.SAGE_REFN_REF 0 (ref .n)).setF F.SAGE_REFS_REF 0 (ref .s)

/-- Whether a swap that changes what Sage reads is still to take effect (R443). -/
def Dev.swapPending (d : Dev) : Bool := (List.range 16).any fun c => d.bankAfter c != d.getF F.FLT_CHSTAT_BANK c

/-- The modes in which Sage runs (R462). -/
def sageRuns (m : Mode) : Bool := seamRuns m

/-- Sage stops: on entry to SAFE, and while Headframe's cores are held (R439, R445). -/
def Dev.sageStop (d : Dev) : Dev := { d.setF F.SAGE_STAT_RUN 0 0 with sage := { d.sage with start := none } }

/-- A pass starts, or is held while a swap has still to take effect; it skips the region of a half that is offline (R443, R445). -/
def Dev.sagePass (d : Dev) : Dev :=
  if d.swapPending then { d with sage := { d.sage with start := none } }
  else
    let d := (d.setB F.SAGE_STAT_SKIP_N 0 (d.halfOff .north)).setB F.SAGE_STAT_SKIP_S 0 (d.halfOff .south)
    { d with sage := { d.sage with start := some d.tsc } }

/-- SAGE_PASS_START: at the first multiple of 8 ms after Headframe has left LOAD the first pass starts; a pass that waited for a swap
starts once it has taken effect (R443). -/
def execSagePassStart (s : State) : Out := s.up fun d =>
  if sageRuns d.mode ∧ ¬d.hfr.held ∧ d.sage.start = none then
    if d.getB F.SAGE_STAT_RUN then d.sagePass
    else if d.tsc % 8000000 = 0 then (d.setF F.SAGE_STAT_RUN 0 1).sagePass
    else d
  else d

end Sys2Proof.Machine
end

