-- ==== Sys2Proof/Machine/Modes.lean ====
section
/-!
DEFINITION. Changes of mode with all that starts and stops with them, the loss of the timebase, and faults of Headframe.
-/
namespace Sys2Proof.Machine

/-! ### Changes of mode (R307, R313, R452, R463) -/

/-- What follows the trip gate and the Canary after a change: a closed gate discards the transitions that wait, and the arming is
brought up to date. -/
def Dev.gateSettled (d : Dev) : Dev :=
  (if d.getB F.HFR_GATE_OPEN then d else { d with fio := { d.fio with pows := [], seen := [] } }).updateCanary

/-- A change of mode with what follows it. -/
def Dev.toMode (d : Dev) (m : Mode) (cause : Nat) : Dev := (d.changeMode m cause).gateSettled

/-- A word of a submission. -/
def Sub.word (s : Sub) (i : Nat) : Nat := SMap.getD s.words i 0

/-- KIND of a submission (R433, R437). -/
def Sub.kind (s : Sub) : Nat := s.word 0 % 256

/-- The submission in process is done: its result is shown, and an authorised request, accepted or refused, brings a new nonce (R433, R436). -/
def Dev.subFinish (d : Dev) (result index : Nat) : Dev :=
  match d.hfr.subs with
  | [] => d
  | s :: ss =>
    let d := { d with hfr := { d.hfr with subs := ss, waiting := false } }
    let d := d.subDone s.req result index
    if s.kind = 3 then d.setFree F.HFR_NONCE_NONCE 0 else d

/-- A batch in WAITING when Sage stops is refused with STATE (R439). -/
def Dev.refuseWaiting (d : Dev) : Dev :=
  match d.hfr.subs with
  | s :: _ => if d.hfr.waiting ∧ s.kind ≠ 3 then d.subFinish 9 0 else d
  | [] => d

/-- Entry to SAFE: the change of mode, and what stops with it (R25, R210, R283, R349, R439, R445, R462). -/
def Dev.enterSafe (d : Dev) (cause : Nat) : Dev :=
  if d.mode = .safe then d
  else
    let d := d.toMode .safe cause
    (({ d with seam := { d.seam with stopped := true } }.stopSkips.sageStop.refuseWaiting).asyStop).tlkApply

/-! ### The timebase (R64) -/

/-- Both oscillators have stopped: both are shown as lost, the backup oscillator takes over, the failure area has it, and every mode but HOLD and
SAFE goes to SAFE (R64). -/
def Dev.timebaseBackup (d : Dev) : Dev :=
  let d := ((d.setF F.CLK_TCXO_A_LOST 0 1).setF F.CLK_TCXO_B_LOST 0 1).setF F.CLK_TCXO_BACKUP 0 1
  let d := d.farea 6 0x000 2 0
  match d.mode with
  | .hold => d
  | .safe => d
  | .off => d
  | _ => d.enterSafe 0x0032

/-- TCXO_A_LOST: TCXO A gives no edge for 1 µs (R64). -/
def execTcxoALost (s : State) : Out := s.up fun d =>
  if d.clk.aStopped then d
  else
    let d := { d with clk := { d.clk with aStopped := true } }
    let d := ((d.setF F.CLK_TCXO_A_LOST 0 1).trouble F.TRB_STICKY0_TCXO_LOST).tcxoRecord 2
    if d.clk.bStopped then d.timebaseBackup else d.setF F.CLK_TCXO_ACTIVE 0 1

/-- TCXO_B_LOST: TCXO B stops (R64). -/
def execTcxoBLost (s : State) : Out := s.up fun d =>
  if d.clk.bStopped then d
  else
    let d := { d with clk := { d.clk with bStopped := true } }
    let d := ((d.setF F.CLK_TCXO_B_LOST 0 1).trouble F.TRB_STICKY0_TCXO_LOST).tcxoRecord 3
    if d.clk.aStopped then d.timebaseBackup else d

/-! ### Power records (R365, R478) -/

/-- The latest 16-bit mean code of an AUX input, by the AVG and SHIFT of the first slot that reads it (R113, R115). -/
def Dev.auxCode (d : Dev) (input : Nat) : Nat :=
  match (List.range 24).find? fun i => d.getF F.AUX_SLOT_INPUT i == input with
  | some i => d.getF F.AUX_RES_VALUE input * 2 ^ d.getF F.AUX_SLOT_SHIFT i / 2 ^ (d.getF F.AUX_SLOT_AVG i + 1) % 65536
  | none => d.getF F.AUX_RES_VALUE input % 65536

/-- Requests a POWER record with the AUX codes of V_IN and V_HOLD. -/
def Dev.powerRecord (d : Dev) (src event : Nat) : Dev :=
  d.record 0x0070 src [(1, event), (2, d.auxCode 7), (2, d.auxCode 15)]

/-! ### Faults of Headframe (R514 to R516, R532) -/

/-- Every submission completes with STATE and nothing of it is applied (R532). -/
def Dev.subsAborted : Nat → Dev → Dev
  | 0, d => d
  | n + 1, d => subsAborted n (d.subFinish 9 0)

/-- A snapshot that is not complete is abandoned (R515). -/
def Dev.snapAbandon (d : Dev) : Dev :=
  match d.hfr.snap with
  | some _ => { d with hfr := { d.hfr with snap := none, snapFailed := true } }.powerRecord 0x2A4 5
  | none => d

/-- The monitor acts on a fault of Headframe of a kind of R514, with the leading core's program counter (R515, R516). -/
def Dev.headframeFault (d : Dev) (kind pc : Nat) : Dev :=
  if d.hfr.held then d
  else
    let old := d.mode
    let recent := (d.tsc :: d.hfr.faults).filter fun t => decide (d.tsc < t + 3600000000000)
    let giveup := decide (3 ≤ recent.length)
    let d := { d with hfr := { d.hfr with held := true, faults := recent, giveup := giveup } }
    let d := (Dev.subsAborted d.hfr.subs.length d).sageStop
    let d := (d.trouble F.TRB_STICKY3_HFR_FAULT).farea 3 0x000 (kind + 256 * old.code) pc
    let d := if giveup then d.trouble F.TRB_STICKY3_HFR_GIVEUP else d
    match old with
    | .off => d
    | .hold => { d with hfr := { d.hfr with holdFault := some d.tsc } }.snapAbandon
    | .safe => ((d.setF F.SYS_MODE_CAUSE 0 0x0031).record 0x0010 0x000 [(1, 7), (1, 7), (2, 0x0031)]).fire 1
    | _ => d.enterSafe 0x0031

/-- HEADFRAME_FAULT: the two cores differ, or a core consumes a poisoned word (R514). -/
def execHeadframeFault (poison : Bool) (pc : Dword) (s : State) : Out := s.up fun d => d.headframeFault (if poison then 3 else 1) pc.toNat

/-- HEADFRAME_WATCHDOG_EXPIRY: the watchdog has gone 10 ms without service (R514). -/
def execHeadframeWatchdogExpiry (pc : Dword) (s : State) : Out := s.up fun d => d.headframeFault 2 pc.toNat

/-- HEADFRAME_RESTART: 10 ms after a fault Headframe restarts into SAFE, unless the monitor has given it up (R515, R516). -/
def execHeadframeRestart (s : State) : Out := s.up fun d =>
  if d.hfr.held ∧ ¬d.hfr.giveup ∧ (d.mode = .safe ∨ (d.mode = .hold ∧ d.hfr.holdFault = none)) ∧ d.hfr.faults.headD 0 + 10000000 ≤ d.tsc then
    { d with hfr := { d.hfr with held := false } }
  else d

end Sys2Proof.Machine
end

