-- ==== Sys2Proof/Machine/Hfr.lean ====
section
/-!
DEFINITION. The settings gate: authorised requests, staged settings and their commit, and the passes of Sage (R430 to R447, R454).
-/
namespace Sys2Proof.Machine

/-! ### Submissions (R433, R437) -/

/-- `n` bytes of a submission from an offset, as a number; they do not cross a word. -/
def Sub.field (s : Sub) (o n : Nat) : Nat := bits (s.word (o / 4)) (8 * (o % 4)) (8 * n)

/-- Bytes of a submission. -/
def Sub.bytes (s : Sub) (o n : Nat) : List Byte :=
  (((List.range (n / 4 + 2)).flatMap fun i => le 4 (s.word (o / 4 + i))).drop (o % 4)).take n

/-- CODE of an authorised request. -/
def Sub.code (s : Sub) : Nat := s.field 1 1
/-- The argument of an authorised request as a number. -/
def Sub.arg (s : Sub) (n : Nat) : Nat := unle (s.bytes 32 n)

/-- The bytes of ARG that each code accepted by R434 and R454 uses. -/
def argLen (code : Nat) : Option Nat :=
  if code = 1 ∨ code = 4 ∨ code = 5 ∨ (16 ≤ code ∧ code ≤ 20) then some 0
  else if code = 2 ∨ code = 8 then some 8
  else if code = 3 ∨ code = 7 ∨ code = 9 ∨ code = 21 then some 1
  else if code = 6 then some 98
  else none

/-- The form of an authorised request (R433, R434). -/
def Sub.authForm (s : Sub) : Bool :=
  match argLen s.code with
  | none => false
  | some n =>
    s.field 2 2 == n && (s.bytes 17 15).all (· == 0) && (s.bytes (32 + n) (128 - n)).all (· == 0) &&
      (if s.code = 3 ∨ s.code = 9 ∨ s.code = 21 then decide (s.arg 1 ≤ 1) else if s.code = 6 ∨ s.code = 7 then decide (s.arg 1 ≤ 3) else true)

/-- Whether the key slot is valid and the signature verifies over bytes 0 to 159 and HFR_UID (R430, R433). -/
def Dev.sigOk (d : Dev) (s : Sub) : Bool :=
  let k := d.keySlot (s.field 16 1)
  decide (s.field 16 1 ≤ 3) && k.valid && ecdsaOk (k.pub.drop 1) (sha384 (s.bytes 0 160 ++ le 8 (d.getF F.HFR_UID_UID))) (s.bytes 160 96)

/-- RESULT of an authorised request's validation (R433, R436, R456). -/
def Dev.authResult (d : Dev) (s : Sub) : Nat :=
  if !s.authForm then 2
  else if !(d.sigOk s) then 7
  else if unle (s.bytes 8 8) ≠ d.getF F.HFR_NONCE_NONCE then 8
  else if d.getB F.SYS_START_LOAD_HELD ∧ s.code ≠ 9 ∧ s.code ≠ 20 then 9
  else 0

/-! ### Batches (R437, R438) -/

/-- An entry of a batch: its byte offset in the submission. -/
def entryAt (i : Nat) : Nat := 32 + 16 * i

/-- Whether a setting word stands on the grid of its record (R438). -/
def SetRec.onGrid (r : SetRec) (w : Nat) : Bool :=
  if r.kind = 1 then
    let lo := f32 r.min
    let st := f32 r.step
    if st = 0 then w == r.min
    else
      let n := ((f32 w - lo) / st).floor
      [n - 1, n, n + 1, n + 2].any fun (k : Int) => f32Of (f64 (f64Of (lo + f64 (f64Of (k * st))))) == w
  else (sgn 32 w - sgn 32 r.min) % sgn 32 r.step == 0

/-- What a batch makes of the present values, tried on a copy: the device and the Canary table. -/
structure Trial where
  dev : Dev
  table : List Byte
  deriving DecidableEq, Repr

/-- Changes a cell setting: its record, group and word. -/
def Dev.putSetting (d : Dev) (ix g w : Nat) : Dev :=
  let D := d.seam.design
  d.setSeam { d.seam with design := { D with settings := D.settings.modify ix fun r => { r with values := r.values.set g w } } }

/-- The groups that an entry names: one, or every defined one. -/
def Design.groupsOf (D : Design) (g : Nat) : List Nat := if g = 0xFF then definedGroups D.defined else [g]

/-- Whether a REG entry may address a register (R438). -/
def stageable (r : Reg) : Bool :=
  r.desc.cls == .control &&
    (r.desc.region != .none || [Reg.FLT_SWAP, .FLT_RESET, .FLT_CWSEL, .FLT_CWLO, .FLT_CWHI].contains r)

/-- Tries an entry of kind CELL. -/
def Trial.cell (t : Trial) (s : Sub) (o : Nat) : Trial × Nat :=
  let D := t.dev.seam.design
  let g := s.field (o + 1) 1
  let ix := D.settings.findIdx fun r => r.node == s.field (o + 4) 4 && r.setno == s.field (o + 2) 2
  let w := s.field (o + 8) 4
  match D.settings[ix]? with
  | none => (t, 2)
  | some r =>
    if g ≠ 0xFF ∧ (7 < g ∨ !(D.defined.testBit g)) then (t, 6)
    else if !(r.inRange w && r.onGrid w) then (t, 3)
    else ({ t with dev := (D.groupsOf g).foldl (fun d k => d.putSetting ix k w) t.dev }, 0)

/-- Tries an entry of kind REG. -/
def Trial.reg (t : Trial) (s : Sub) (o : Nat) : Trial × Nat :=
  match mapped (s.field (o + 4) 4) with
  | some (.primary, r, i) =>
    let mask := s.field (o + 2) 2
    let v := s.field (o + 8) 2
    if !(stageable r) then (t, 2)
    else if r.desc.flds.any fun f => t.dev.locked f && selects f.fld mask then (t, 4)
    else if !(t.dev.valuesOk r i mask v) then (t, 3)
    else
      let x := t.dev.controlWrite .headframe r i mask v
      ({ t with dev := x.1 }, if x.2 then 5 else 0)
  | _ => (t, 2)

/-- Tries an entry of kind CANARY; `ok` says that the MRAM table passes CHECK (R312, R438). -/
def Trial.canary (t : Trial) (ok : Bool) (s : Sub) (o : Nat) : Trial × Nat :=
  let n := s.field (o + 1) 1
  let at_ := s.field (o + 2) 2
  if !ok then (t, 9)
  else if n < 1 ∨ 8 < n ∨ at_ < 4 ∨ 400 < at_ + n then (t, 3)
  else if canaryFlag t.table 1 then (t, 4)
  else ({ t with table := t.table.take at_ ++ s.bytes (o + 8) n ++ t.table.drop (at_ + n) }, 0)

/-- Tries an entry of a SETTINGS batch: RESULT 0 where it passes. -/
def Trial.entry (t : Trial) (ok : Bool) (s : Sub) (i : Nat) : Trial × Nat :=
  let o := entryAt i
  match s.field o 1 with
  | 1 => t.cell s o
  | 2 => t.reg s o
  | 3 => (t, if s.field (o + 1) 1 < 8 ∧ t.dev.seam.design.defined.testBit (s.field (o + 1) 1) then 0 else 6)
  | 5 => t.canary ok s o
  | _ => (t, 2)

/-- The conditions on the whole of R438 that no single write shows, each true where it is broken: R111, R266 with R267, R226, R312. -/
def Trial.broken (t : Trial) : List Bool :=
  let d := t.dev
  let D := d.seam.design
  [d.pairBroken D (if t.table = [] then none else some t.table),
    (List.range 4).any fun g => d.getB F.TWU_GCTL_EN g && d.grpBroken g,
    D.settings.any fun r => r.setno == 5 && (definedGroups D.defined).any fun g => !(D.resetOk r.node g),
    t.table != [] && (List.range 64).any fun c => outmaskNames t.table c && d.getF F.FIO_PCFG_DIR c == 0]

/-- Whether a trial breaks a condition that held before the batch. -/
def Trial.breaks (t : Trial) (before : List Bool) : Bool := (t.broken.zip before).any fun p => p.1 && !p.2

/-- Tries entries from `i` on: the trial after them and RESULT and INDEX of the first failure; `first` is the first entry after which a
condition on the whole was broken. -/
def tryEntries (ok : Bool) (s : Sub) (before : List Bool) : Nat → Nat → Option Nat → Trial → Nat × Nat
  | 0, i, first, t => if t.breaks before then (5, first.getD (i - 1)) else (0, 0)
  | n + 1, i, first, t =>
    let r := t.entry ok s i
    if r.2 ≠ 0 then (r.2, i)
    else
      let first := match first with
        | some k => some k
        | none => if r.1.breaks before then some i else none
      tryEntries ok s before n (i + 1) first r.1

/-- RESULT and INDEX of a SETTINGS batch's validation (R438). -/
def Dev.settingsResult (d : Dev) (s : Sub) : Nat × Nat :=
  let t : Trial := ⟨d, d.canaryTable.getD []⟩
  tryEntries d.canaryTable.isSome s t.broken (s.field 2 2) 0 none t

/-- RESULT of an entry of a REPORTS batch (R441). -/
def Dev.reportResult (d : Dev) (s : Sub) (i : Nat) : Nat :=
  let o := entryAt i
  let node := s.field (o + 4) 4
  if s.field o 1 ≠ 4 then 2
  else
    match d.copies node 0x0061 with
    | [] => 2
    | x :: _ => if s.field (o + 1) 1 < (d.setNow node x.2 1).num.toNat then 0 else 3

/-- RESULT and INDEX of a submission's validation (R436 to R441, R456). -/
def Dev.validate (d : Dev) (s : Sub) : Nat × Nat :=
  let n := s.field 2 2
  if s.kind = 3 then (d.authResult s, 0)
  else if (s.kind ≠ 1 ∧ s.kind ≠ 2) ∨ n < 1 ∨ 252 < n then (2, 0)
  else if d.getB F.SYS_START_LOAD_HELD ∨ ¬d.getB F.SAGE_STAT_RUN then (9, 0)
  else if s.kind = 1 then d.settingsResult s
  else
    match (List.range n).find? fun i => d.reportResult s i != 0 with
    | some i => (d.reportResult s i, i)
    | none => (0, 0)

/-- The reports of a batch go on their way to their cells, for the next step of the fixed domain (R441). -/
def Dev.sendReports (d : Dev) (s : Sub) : Dev :=
  let rs := (List.range (s.field 2 2)).map fun i =>
    let o := entryAt i
    (⟨s.field (o + 4) 4, s.field (o + 1) 1, s.field (o + 8) 4, sgn 32 (s.field (o + 12) 4), s.field (o + 2) 1, d.domNext 12⟩ : Report)
  d.setSeam { d.seam with reports := d.seam.reports ++ rs }

/-- VALIDATION_COMPLETE: the submission in process is refused, carried out (REPORTS), or WAITING for the end of Sage's pass (R438, R439,
R441). -/
def execValidationComplete (s : State) : Out := s.up fun d =>
  match d.hfr.subs with
  | [] => d
  | x :: _ =>
    if d.hfr.waiting ∨ d.hfr.held then d
    else
      let r := d.validate x
      if r.1 ≠ 0 then d.subFinish r.1 r.2
      else if x.kind = 2 then (d.sendReports x).subFinish 0 0
      else { d with hfr := { d.hfr with waiting := true } }.setF F.HFR_RSTAT_STATE x.req.slot 2 |>.fire 3

/-! ### The commit (R439) -/

/-- Commits a REG entry as Headframe's control write. -/
def Dev.commitReg (d : Dev) (s : Sub) (o : Nat) : Dev :=
  (d.applyReg ⟨s.field (o + 4) 4, s.field (o + 2) 2, s.field (o + 8) 2, 0⟩).1

/-- Commits a CELL entry, effective at k_c of each domain (R183). -/
def Dev.commitCell (d : Dev) (s : Sub) (o : Nat) : Dev :=
  let D := d.seam.design
  let ix := D.settings.findIdx fun r => r.node == s.field (o + 4) 4 && r.setno == s.field (o + 2) 2
  (D.groupsOf (s.field (o + 1) 1)).foldl (fun d g =>
    let old := ((d.seam.design.settings[ix]?).map fun r => r.values.getD g 0).getD 0
    let c : SetChange := ⟨ix, g, old, d.commitSteps⟩
    (d.setSeam { d.seam with changes := c :: d.seam.changes }).putSetting ix g (s.field (o + 8) 4)) d

/-- Writes bytes into the Canary table, with a new CHECK. -/
def Dev.putTable (d : Dev) (at_ : Nat) (bs : List Byte) : Dev :=
  match d.nv.canary with
  | none => d
  | some t =>
    let b := t.take at_ ++ bs ++ t.drop (at_ + bs.length)
    { d with nv := { d.nv with canary := some (b.take 400 ++ le 4 (crc32c (b.take 400))) } }

/-- Applies the entries of one kind in batch order. -/
def Dev.commitKind (d : Dev) (s : Sub) (kind : Nat) (f : Dev → Nat → Dev) : Dev :=
  (List.range (s.field 2 2)).foldl (fun d i => if s.field (entryAt i) 1 = kind then f d (entryAt i) else d) d

/-- The commit of a batch, in the order of R439. -/
def Dev.commitBatch (d : Dev) (s : Sub) : Dev :=
  let d := d.commitKind s 2 fun d o => d.commitReg s o
  let d := d.commitKind s 1 fun d o => d.commitCell s o
  let d := d.commitKind s 5 fun d o => d.putTable (s.field (o + 2) 2) (s.bytes (o + 8) (s.field (o + 1) 1))
  let d := d.showCanary.updateCanary
  let d := d.commitKind s 3 fun d o => d.groupRequest (s.field (o + 1) 1) 0
  d.sageCommit

/-- Whether a pass of Sage has ended now; while Sage does not run, every multiple of 8 ms serves for it (R439, R441). -/
def Dev.passEnd (d : Dev) : Bool :=
  if d.getB F.SAGE_STAT_RUN then d.sage.ended == some d.tsc else d.tsc % 8000000 == 0

/-- SETTINGS_COMMIT: the pass has ended and compared equal, and the batch that waits is committed; the next pass starts over, or is
held (R439, R443). -/
def execSettingsCommit (s : State) : Out := s.up fun d =>
  match d.hfr.subs with
  | [] => d
  | x :: _ =>
    if d.hfr.waiting ∧ x.kind = 1 ∧ d.getB F.SAGE_STAT_RUN ∧ d.passEnd ∧ d.sage.equal then ((d.commitBatch x).subFinish 0 0).sagePass else d

/-! ### Sage's comparison (R443, R444) -/

/-- What Sage does with the comparisons of a pass (R443, R444): equal regions end the pass; a mismatch is recorded,
refuses a batch that waits, and degrades the part or, under the bound policy, takes it to SAFE. -/
def Dev.sageVerdict (d : Dev) (badC badN badS : Bool) : Dev :=
  if badC || badN || badS then
    let d := if badC then d.setF F.SAGE_STAT_MIS_C 0 1 else d
    let d := if badN then d.setF F.SAGE_STAT_MIS_N 0 1 else d
    let d := if badS then d.setF F.SAGE_STAT_MIS_S 0 1 else d
    let d := (d.trouble F.TRB_STICKY1_SAGE).setF F.SYS_DEGR_SAGE 0 1
    let d := match d.hfr.subs with
      | x :: _ => if d.hfr.waiting ∧ x.kind = 1 then d.subFinish 11 0 else d
      | [] => d
    if d.seam.design.policy ∧ (d.mode = .protect ∨ d.mode = .degraded) then
      (d.farea 7 0x000 (badC.toNat + 2 * badN.toNat + 4 * badS.toNat) 0).enterSafe 0x0030
    else (d.degradedCause 0x0023).sagePass
  else d.sagePass

/-- SAGE_COMPARE: at a multiple of 8 ms, at least 5 ms after the start of the pass, each region that is not skipped is compared with its
reference.  `errC`, `errN` and `errS` are what upsets have changed in the CRCs found.  The batch that waits is refused where a region
differs, and the next pass starts. -/
def execSageCompare (errC errN errS : Word) (s : State) : Out := s.up fun d =>
  match d.sage.start with
  | none => d
  | some t =>
    if d.getB F.SAGE_STAT_RUN ∧ sageRuns d.mode ∧ d.tsc % 8000000 = 0 ∧ t + 5000000 ≤ d.tsc then
      let skipN := d.getB F.SAGE_STAT_SKIP_N || d.halfOff .north
      let skipS := d.getB F.SAGE_STAT_SKIP_S || d.halfOff .south
      let c := d.sageCrc .c ^^^ errC.toNat
      let n := d.sageCrc .n ^^^ errN.toNat
      let z := d.sageCrc .s ^^^ errS.toNat
      let badC := c != d.getF F.SAGE_REFC_REF
      let badN := !skipN && n != d.getF F.SAGE_REFN_REF
      let badS := !skipS && z != d.getF F.SAGE_REFS_REF
      let d := d.setF F.SAGE_LASTC_CRC 0 c
      let d := if skipN then d else d.setF F.SAGE_LASTN_CRC 0 n
      let d := if skipS then d else d.setF F.SAGE_LASTS_CRC 0 z
      let d := d.incWrap F.SAGE_STAT_PASSES
      Dev.sageVerdict
        { d with sage := { d.sage with ended := some d.tsc, passed := true, equal := !(badC || badN || badS) } } badC badN badS
    else d

/-! ### Authorised requests (R434, R435, R441, R447, R454) -/

/-- Whether the authorised request in process carries a code and its moment has come. -/
def Dev.authDue (d : Dev) (code : Nat) : Option Sub :=
  match d.hfr.subs with
  | x :: _ => if d.hfr.waiting ∧ x.kind = 3 ∧ x.code = code ∧ d.passEnd then some x else none
  | [] => none

/-- Carries out the request of a code: what it does answers RESULT and the device after it (LOAD_HELD may have come since validation). -/
def State.auth (s : State) (code : Nat) (f : Dev → Sub → Nat × Dev) : Out := s.up fun d =>
  match d.authDue code with
  | none => d
  | some x =>
    if d.getB F.SYS_START_LOAD_HELD ∧ code ≠ 9 ∧ code ≠ 20 then d.subFinish 9 0
    else
      let r := f d x
      r.2.subFinish r.1 0

/-- Headframe changes what Sage covers on its own, and renews the references. -/
def Dev.sageRenew (d : Dev) : Dev := if d.getF F.SYS_TREL_TSC = 0 then d else d.sageCommit

/-- PTP_SYNC_RECEIVE: the step at first lock sets the TIME lock, which Sage covers (R391, R446). -/
def execPtpSyncReceive (p : Fin 4) (domain : Byte) (seq : BitVec 16) (mac : BitVec 68) (corr : BitVec 64) (origin : Option (BitVec 64))
    (s : State) : Out := s.up fun d =>
  let x := d.ptpSync p domain seq mac corr origin
  if x.getB F.HFR_LOCK_TIME = d.getB F.HFR_LOCK_TIME then x else x.sageRenew

/-- PTP_FOLLOW_UP_RECEIVE: as PTP_SYNC_RECEIVE (R391, R446). -/
def execPtpFollowUpReceive (p : Fin 4) (domain : Byte) (seq : BitVec 16) (origin corr : BitVec 64) (s : State) : Out := s.up fun d =>
  let x := d.ptpFollowUp p domain seq origin corr
  if x.getB F.HFR_LOCK_TIME = d.getB F.HFR_LOCK_TIME then x else x.sageRenew

/-- RESTEP: in SUSPECT, with a measurement of the last 2 s (R396). -/
def execRestep (s : State) : Out := s.auth 1 fun d x =>
  match d.net.servo.latest with
  | some (o, t) =>
    if d.calState = 4 ∧ d.tsc ≤ t + 2000000000 then (0, (d.stepCal (d.accLess o) d.calSeg.rate 2 1 x.req.src).incF F.CLK_CAL_STAT_RESTEPS) else (9, d)
  | none => (9, d)

/-- CAL_SET: the step at first lock by request (R435, R446). -/
def execCalSet (s : State) : Out := s.auth 2 fun d x =>
  if d.getB F.HFR_LOCK_TIME ∨ d.getB F.CLK_CAL_STAT_STEPPED ∨ d.getB F.PTP_STAT_SLAVE then (9, d)
  else
    let d := d.stepCal (x.arg 8 * 2 ^ 40) 0 3 0 x.req.src
    (0, ((d.setF F.CLK_CAL_STAT_STEPPED 0 1).setF F.HFR_LOCK_TIME 0 1).sageRenew)

/-- TESTOUT: only in COMMISSION (R447). -/
def execTestout (s : State) : Out := s.auth 3 fun d x =>
  if d.mode = .commission then (0, (d.updateGate (x.arg 1 == 1)).gateSettled) else (9, d)

/-- TLOCK_CLEAR: a table that passes CHECK gets a new CHECK; one that does not keeps its own (R434). -/
def execTlockClear (s : State) : Out := s.auth 4 fun d _ =>
  match d.nv.canary with
  | none => (0, d)
  | some t =>
    let fl := le 2 (unle ((t.drop 2).take 2) - (unle ((t.drop 2).take 2) &&& 2))
    let d := if canaryOk t then d.putTable 2 fl else { d with nv := { d.nv with canary := some (t.take 2 ++ fl ++ t.drop 4) } }
    (0, d.showCanary.updateCanary.sageRenew)

/-- LOGLOSS_CLEAR: while neither store has failed (R376, R434). -/
def execLoglossClear (s : State) : Out := s.auth 5 fun d _ =>
  if d.nearOk ∧ d.farOk then (0, { d with nv := { d.nv with logloss := false } }) else (9, d)

/-- Replaces a key slot. -/
def Dev.setKey (d : Dev) (k : Nat) (x : KeySlot) : Dev := { d with nv := { d.nv with keys := SMap.set d.nv.keys k x } }

/-- KEY_ENROL: only an unprogrammed slot that was never revoked (R431). -/
def execKeyEnrol (s : State) : Out := s.auth 6 fun d x =>
  let k := d.keySlot (x.arg 1)
  let pub := x.bytes 33 97
  if k.hash ≠ [] ∨ k.revoked then (9, d) else (0, d.setKey (x.arg 1) ⟨sha384 pub, false, pub⟩)

/-- KEY_REVOKE: neither the signing key's slot nor the last valid one (R431). -/
def execKeyRevoke (s : State) : Out := s.auth 7 fun d x =>
  let k := d.keySlot (x.arg 1)
  if k.valid ∧ (List.range 4).countP (fun i => (d.keySlot i).valid) = 1 then (10, d)
  else if x.field 16 1 = x.arg 1 then (9, d)
  else (0, d.setKey (x.arg 1) { k with revoked := true })

/-- ROLLBACK_RAISE: programs the next row (R432). -/
def execRollbackRaise (s : State) : Out := s.auth 8 fun d x =>
  let v := x.arg 8
  if v ≤ d.nv.rows.headD 0 ∨ ¬d.hfr.passed ∨ d.seam.design.rollback < v then (9, d)
  else if 128 ≤ d.nv.rows.length then (10, d)
  else (0, { d with nv := { d.nv with rows := v :: d.nv.rows } })

/-- IMAGE_PREF: the slot that the next BOOT tries first (R434). -/
def execImagePref (s : State) : Out := s.auth 9 fun d x => (0, { d with nv := { d.nv with pref := x.arg 1 } })

/-- REQ_COMMISSION: from PROTECT and DEGRADED (R454). -/
def execReqCommission (s : State) : Out := s.auth 16 fun d _ =>
  if d.mode = .protect ∨ d.mode = .degraded then (0, d.toMode .commission 0x0010) else (9, d)

/-- REQ_PROTECT: from COMMISSION, while the conditions of R454 hold. -/
def execReqProtect (s : State) : Out := s.auth 17 fun d _ =>
  if d.mode = .commission ∧ d.resumeOk then (0, d.toMode .protect 0x0011) else (9, d)

/-- REQ_RESUME: from DEGRADED, while the conditions of R454 hold. -/
def execReqResume (s : State) : Out := s.auth 18 fun d _ =>
  if d.mode = .degraded ∧ d.resumeOk then (0, d.toMode .protect 0x0012) else (9, d)

/-- REQ_SAFE: from COMMISSION, PROTECT and DEGRADED (R454). -/
def execReqSafe (s : State) : Out := s.auth 19 fun d _ =>
  if d.mode = .commission ∨ d.mode = .protect ∨ d.mode = .degraded then (0, d.enterSafe 0x0013) else (9, d)

/-- STARTMODE: what the next LOAD_DONE enters (R454). -/
def execStartmode (s : State) : Out := s.auth 21 fun d x => (0, { d with nv := { d.nv with startmode := x.arg 1 } })

end Sys2Proof.Machine
end

