-- ==== Sys2Proof/Machine/Load.lean ====
section
/-!
DEFINITION. Loading an image and leaving LOAD: the choice of the slot, the register settings, the restored state and the release
(R16, R24, R206, R210, R263 to R265, R312, R403, R428, R429, R456, R458).
-/
namespace Sys2Proof.Machine

/-! ### The power-fail snapshot as read at the start (R460, R472) -/

/-- The copy with the higher PCYC. -/
def Dev.snapCopy (d : Dev) : Option (Nat × Snap) :=
  match SMap.get? d.nv.snaps 0, SMap.get? d.nv.snaps 1 with
  | some a, some b => if a.pcyc < b.pcyc then some (1, b) else some (0, a)
  | some a, none => some (0, a)
  | none, some b => some (1, b)
  | none, none => none

/-- SYS_START.SNAP: 0 VALID, 1 ABSENT, 2 FAILED (R472). -/
def Dev.snapState (d : Dev) : Nat :=
  match d.snapCopy with
  | none => 1
  | some (_, s) => if !s.ok then 2 else if (s.pcyc + 1) % 2 ^ 24 = d.nv.pcyc then 0 else 1

/-- The snapshot that this power cycle restores from. -/
def Dev.snapshotOf (d : Dev) : Option Snap := if d.snapState = 0 then d.snapCopy.map fun p => p.2 else none

/-! ### Authentication (R428, R429) -/

/-- The pit sets of the FLT producers that a design needs, ANGSET, FRSET0 and FRSET1 (R138). -/
def Design.pitSets (D : Design) : Nat × Nat × Nat :=
  D.points.foldl (fun s p =>
    let pit := faceOf p.addr / 64
    let h := p.ix / 8
    if p.origin = 1 then (s.1 ||| 2 ^ (4 * (4 * h + D.domainOf (faceOf p.addr) / 3) + pit), s.2)
    else if p.origin = 4 then (if h = 0 then (s.1, s.2.1 ||| 2 ^ pit, s.2.2) else (s.1, s.2.1, s.2.2 ||| 2 ^ pit))
    else s) (0, 0, 0)

/-- The pin configurations of the I/O map (R207). -/
def Dev.loadPins (d : Dev) (io : List IoRec) : Dev :=
  io.foldl (fun d r => (Reg.desc .FIO_PCFG).flds.foldl (fun d f => d.setF f.fld r.ch (bits r.cfg f.fld.lo f.fld.len)) d) d

/-- Enables queue 63 of ports C and D for the LOGLOSS alarm; under PRP queue 63 of D is unused (R403). -/
def Dev.loadAlarm (d : Dev) : Dev :=
  (if d.pairMode 2 = 0 then [191, 255] else [191]).foldl (fun d i => d.setLq i { d.lqueue i with en := true }) d

/-- An image that has passed is loaded: register settings in ORDER, the pins, the pit sets, the Canary table, the groups (R138, R197,
R206, R207, R312). -/
def Dev.loadImage (d : Dev) (slot : Nat) (b : List Byte) : Dev :=
  let D := readDesign b
  let g0 := (definedGroups D.defined).headD 0
  let table := match d.tableAfter D with
    | some t => t
    | none => D.canary
  let d := (d.setF F.HFR_IMG_ACTIVE 0 slot).setF F.HFR_IMG_KEY 0 D.key
  let d := (d.applyRegs D.ordered).1
  let d := d.setSeam { d.seam with design := D, group0 := g0 }
  let d := (d.setF F.SEAM_GRP_STAT_ACT 0 g0).setF F.SEAM_GRP_STAT_DEFINED 0 D.defined
  let p := D.pitSets
  let d := ((d.setF F.FLT_PITS0_ANGSET 0 p.1).setF F.FLT_PITS1_FRSET0 0 p.2.1).setF F.FLT_PITS1_FRSET1 0 p.2.2
  let d := (d.loadPins D.io).loadAlarm
  let d := { d with nv := { d.nv with canary := some table }, hfr := { d.hfr with passed := true } }
  d.showCanary.updateCanary

/-- An image that has failed: its code is shown, and where a register setting was refused its write has set BUS_VALUE (R206, R428). -/
def Dev.imageFailed (d : Dev) (slot : Nat) (b : List Byte) (r : Nat × Nat × Nat) : Dev :=
  let d := d.setF (if slot = 0 then F.HFR_IMG_FAIL_A else F.HFR_IMG_FAIL_B) 0 r.1
  let d := if r.1 = 5 then (d.setF F.SEAM_LOADERR_CODE 0 r.2.1).setF F.SEAM_LOADERR_OFS 0 r.2.2 else d
  let d := if r.1 = 5 ∧ r.2.1 = 10 ∧ (d.applyRegs (readDesign b).ordered).1.getB F.TRB_STICKY0_BUS_VALUE then d.trouble F.TRB_STICKY0_BUS_VALUE else d
  if d.hfr.tried.length = 2 then (d.setF F.HFR_IMG_NONE 0 1).setF F.SYS_START_LOAD_HELD 0 1 else d

/-- Headframe waits in LOAD for an image or for its release. -/
def Dev.loading (d : Dev) : Bool := d.mode == .load && !d.hfr.held && d.getF F.SYS_TREL_TSC == 0

/-- IMAGE_AUTHENTICATED: the preferred slot is tried, and after it the other (R428, R429). -/
def execImageAuthenticated (s : State) : Out := s.up fun d =>
  if d.loading ∧ ¬d.hfr.passed ∧ d.hfr.tried.length < 2 then
    let slot := match d.hfr.tried with
      | [] => d.nv.pref % 2
      | x :: _ => 1 - x
    let b := SMap.getD d.nv.slots slot []
    let r := d.imageCode b
    let d := { d with hfr := { d.hfr with tried := d.hfr.tried ++ [slot] } }
    if r.1 = 0 then d.loadImage slot b else d.imageFailed slot b r
  else d

/-! ### Restored state (R263 to R265) -/

/-- A name path as one string of octets, its names joined by "/". -/
def joinPath : List (List Byte) → List Byte
  | [] => []
  | [x] => x
  | x :: xs => x ++ 0x2F :: joinPath xs

/-- PATHID of a node (R471). -/
def Design.pathId (D : Design) (i : Nat) : Nat := unle ((sha384 (joinPath (D.path (D.nodes.length + 1) i))).take 8)

/-- The cell nodes with restorable state: node, cell type. -/
def Design.restorables (D : Design) : List (Nat × Nat) :=
  (List.range D.nodes.length).filterMap fun i => match D.node i with
    | some n => if n.kind = 1 ∧ restorable n.cellType then some (i, n.cellType) else none
    | none => none

/-- The snapshot entry of a cell: by PATHID and type; cells that share a PATHID have none (R472). -/
def Dev.entryOf (d : Dev) (i ct : Nat) : Option (Snap × CellSt) :=
  match d.snapshotOf with
  | none => none
  | some s =>
    let D := d.seam.design
    let p := D.pathId i
    if D.restorables.countP (fun x => D.pathId x.1 == p) = 1 then (s.cells.find? fun e => e.2.path == p && e.2.ctype == ct).map fun e => (s, e.2.st)
    else none

/-- The elapsed time T in ns: the outage and the TSC of the release, or the keep-alive life where Thyme stopped (R263, R264). -/
def Dev.elapsedNs (d : Dev) : Nat :=
  if d.getB F.SYS_START_THYME_LOST then 604800000000000 else d.getF F.SYS_OUTAGE_MS * 1000000 + d.tsc

/-- Every cell starts: from its snapshot entry where there is one, otherwise from the image. -/
def Dev.restoreCells (d : Dev) : Dev :=
  d.seam.design.restorables.foldl (fun d x =>
    (d.copies x.1 x.2).foldl (fun d c =>
      d.setCell x.1 c.1 (match d.entryOf x.1 x.2 with
        | some (s, st) => d.cellRestore x.1 c.2 x.2 st s.tsc ((d.elapsedNs : Rat) / 1000000000)
        | none => d.cellInit x.1 c.2 x.2)) d) d

/-- Cell nodes with restored state, each once. -/
def Dev.fromSnap (d : Dev) : Nat := d.seam.design.restorables.countP fun x => (d.copies x.1 x.2).any fun c => (d.cell x.1 c.1).f 3

/-- The RESTORE record (R265). -/
def Dev.restoreRecord (d : Dev) : Dev :=
  let n := d.fromSnap
  d.record 0x0014 0x000 [(2, n), (2, if d.getB F.SYS_START_THYME_LOST then n else 0), (2, d.seam.design.restorables.length - n), (8, d.elapsedNs / 1000000)]

/-! ### Release (R210, R458) -/

/-- Applies the credit plan: the reserves, and of the skips that no other event starts those that it names (R16, R24). -/
def Dev.applyPlan (d : Dev) : Dev :=
  d.seam.design.plan.zipIdx.foldl (fun d w =>
    if w.2 = 31 then d
    else
      let d := d.setSkip w.2 { d.skip w.2 with resv := w.1 % 4096 }
      if w.1.testBit 12 ∧ w.2 ∉ [0, 1, 4, 5, 29, 30] then d.startSkip w.2 else d) d

/-- Each face starts at the first step of its domain after now. -/
def Dev.startFaces (d : Dev) : Dev :=
  d.seam.design.faces.foldl (fun d f =>
    let k := d.domNext f.domain
    d.setFace f.face { st := if d.halfOff (faceHalf f.face) then .offline else .run, first := k, next := k }) d

/-- Whether a half is offline. -/
def Dev.anyHalfOff (d : Dev) : Bool := d.halfOff .north || d.halfOff .south

/-- Headframe leaves LOAD (R458); the data link may start to train from now on (R406), Sage takes its references, and a PROTECT start with
a half offline goes on to DEGRADED (R477). -/
def Dev.release (d : Dev) : Dev :=
  let d := d.restoreCells.restoreRecord
  let d := d.setF F.HFR_LOCK_STRUCT 0 1
  let d := d.applyPlan
  let d := d.setF F.SYS_TREL_TSC 0 d.tsc
  let d := (d.sviStart.asyStart.startFaces).toMode (if d.nv.startmode = 1 then .protect else .commission) 0x0003
  let d := d.tlkApply.sageCommit
  let d := if d.trainReached then d.trainStart else d
  let d := (List.range 4).foldl (fun d p => portPick p false 64 d) d
  if d.anyHalfOff then (d.degradedCause 0x0024).gateSettled else d

/-- LOAD_DONE (R458). -/
def execLoadDone (s : State) : Out := s.up fun d => if d.loading ∧ d.hfr.passed then d.release else d

end Sys2Proof.Machine
end

