-- ==== Sys2Proof/Machine/Power.lean ====
section
/-!
DEFINITION. The supply, entry to BOOT, HOLD and OFF, the power-fail snapshot, Thyme and the tamper loop, the power halves, and the PPS
test point (R448, R449, R455, R457, R460, R463 to R478, R483).
-/
namespace Sys2Proof.Machine

/-! ### Entry to BOOT and OFF (R7, R363, R451, R455, R457) -/

/-- The part with everything volatile at its reset value: what outlives it is the non-volatile store, the field sides with their own
supply, the level of PERST#, and what has already left the part. -/
def Dev.volatileReset (d : Dev) (m : Mode) (nv : Nv) : Dev :=
  let kept : Dev :=
    { mode := m, free := d.free, out := d.out, completions := d.completions, field := d.field, nv := nv
      bad := d.bad.filter fun p => p.1 == 5 || p.1 == 6, pcie := { perst := d.pcie.perst } }
  ((kept.setF F.HFR_UID_UID 0 (d.getF F.HFR_UID_UID)).setF F.TRB_NANDWEAR_PE 0 (d.getF F.TRB_NANDWEAR_PE)).setF F.TRB_NANDWEAR_RATE 0
    (d.getF F.TRB_NANDWEAR_RATE)

/-- Entry to BOOT from OFF (0), or from HOLD with the supply back (1) or after RESTART (2); `base` is Thyme's count at this t0. -/
def Dev.bootEntry (d : Dev) (origin base : Nat) : Dev :=
  let nv := { d.farCut.nv with pcyc := (d.nv.pcyc + 1) % 2 ^ 24, thyme := { d.nv.thyme with base := base % 2 ^ 48, run := true } }
  let x := d.volatileReset .boot nv
  let x := { x with opsec0 := (d.nv.opsec + 1) % 2 ^ 32, hfr := { origin := origin } }
  x.tlyBoot.setFree F.HFR_NONCE_NONCE 0

/-- OFF: only Thyme runs, on the keep-alive store (R451). -/
def Dev.enterOff (d : Dev) : Dev := d.volatileReset .off { d.farCut.nv with thyme := { d.nv.thyme with base := d.thymeNow } }

/-- The outage in ns: from the latest entry to HOLD to t0 (R474). -/
def Dev.outageNs (d : Dev) : Nat := (d.thymeNow + 2 ^ 48 - d.nv.thyme.latched) % 2 ^ 48 * 1000000000 / 32768 - d.tsc

/-- The gains stored with the Canary table, which Headframe writes before the channels are released (AFE_GAINc). -/
def Dev.canaryGains (d : Dev) : Dev :=
  match d.canaryTable with
  | some t => (List.range 16).foldl (fun d c => d.setF F.AFE_GAIN_GAIN c (canaryGain t c)) d
  | none => d

/-- A seeded calendar: as though CAL had started from the snapshot's CAL plus the outage at TSC 0 (R67). -/
def Dev.seedCal (d : Dev) : Dev :=
  match d.snapshotOf with
  | some s =>
    if d.nv.thyme.valid ∧ s.calst ≠ 0 then
      { d with clk := { d.clk with cal := [⟨0, (s.cal + d.outageNs) % 2 ^ 64 * 2 ^ 40, 0, 1⟩] }, fr := { d.fr with next := none } }
    else d
  | none => d

/-- HEADFRAME_ROM_START: step 2 of R457.  `straps` are the levels of STRAP2, STRAP1 and STRAP0 (R406). -/
def execHeadframeRomStart (straps : BitVec 3) (s : State) : Out := s.up fun d =>
  if d.mode = .boot ∧ ¬d.hfr.rom ∧ ¬d.hfr.held then
    let lost := !d.nv.thyme.valid
    let old := if d.hfr.origin = 0 then 0 else 6
    let d := (d.setF F.DMA_LINK_STRAP 0 straps.toNat).seedCal
    let d := ((d.setB F.SYS_START_THYME_LOST 0 lost).setF F.SYS_START_SNAP 0 d.snapState).setF F.SYS_START_ORIGIN 0 d.hfr.origin
    let d := d.setF F.SYS_OUTAGE_MS 0 (if lost then 2 ^ 64 - 1 else d.outageNs / 1000000)
    let d := { d with hfr := { d.hfr with rom := true } }
    let d := if lost then d.trouble F.TRB_STICKY2_THYME_LOST else d
    let d := if d.nv.logloss then d.trouble F.TRB_STICKY2_LOGLOSS else d
    let d := (d.setF F.HFR_TAMPER_UNPWR 0 d.nv.thyme.opens).setF F.SYS_MODE_PREV 0 old
    let d := (d.record 0x0010 0x000 [(1, old), (1, 1), (2, 0x0001)]).setGate false
    let d := d.canaryGains.showCanary
    if d.trainReached then d.trainStart else d
  else d

/-- The TAMPER record of the openings counted while unpowered (R449). -/
def Dev.tamperRecord (d : Dev) : Dev :=
  let t := d.nv.thyme
  let cal (n : Nat) : Nat := match d.snapshotOf with
    | some s => (s.cal + (n + 2 ^ 48 - s.thyme) % 2 ^ 48 * 1000000000 / 32768) % 2 ^ 64
    | none => 0
  let r := if t.valid ∧ t.opens ≠ 0 then d.record 0x0071 0x001 [(2, t.opens), (8, cal t.first), (8, cal t.last), (1, 1)] else d
  { r with nv := { r.nv with thyme := { t with opens := 0 } } }

/-- BOOT_DONE: DRAM is initialised; the movers can run, skips 4, 5 and 30 run, and LOAD follows (R24, R424, R452, R457). -/
def execBootDone (s : State) : Out := s.up fun d =>
  if d.mode = .boot ∧ d.hfr.rom ∧ ¬d.hfr.held then
    let d := ((d.setPcie { d.pcie with dram := true }).startSkip 4).startSkip 5
    ((d.startSkip 30).tamperRecord).toMode .load 0x0002
  else d

/-! ### Thyme and the tamper loop (R448, R449, R474) -/

/-- THYME_STOP: the keep-alive store runs down: Thyme stops and clears VALID (R474). -/
def execThymeStop (s : State) : Out := s.run fun d =>
  { d with nv := { d.nv with thyme := { d.nv.thyme with base := d.thymeNow, run := false, valid := false } } }

/-- TAMPER_OPENING: two open samples after a closed one.  Powered, it is recorded and signalled at once; unpowered, Thyme counts it, at
`elapsed` of its counts since the part went off (R448, R449). -/
def execTamperOpening (elapsed : BitVec 48) (s : State) : Out := s.run fun d =>
  let t := d.nv.thyme
  if d.mode ≠ .off then
    let d := (d.setF F.HFR_TAMPER_OPEN_S 0 1).fire 20
    d.record 0x0071 0x001 [(2, 1), (8, d.cal), (8, d.cal), (1, 0)]
  else if t.run then
    let n := (t.base + elapsed.toNat) % 2 ^ 48
    { d with nv := { d.nv with thyme := { t with opens := min 65535 (t.opens + 1), first := if t.opens = 0 then n else t.first, last := n } } }
  else d

/-- KA_LOW: from 15 min after t0 on, the keep-alive voltage falls below 3.3 V (`low`) or is back (R478). -/
def execKaLow (low : Bool) (s : State) : Out := s.up fun d =>
  if 900000000000 ≤ d.tsc ∧ d.getB F.SYS_PWR_KA_LOW ≠ low then
    let d := d.setB F.SYS_PWR_KA_LOW 0 low
    if low then d.powerRecord 0x2A3 10 else d
  else d

/-! ### The snapshot (R455, R470, R471) -/

/-- The bytes of a snapshot entry. -/
def snapEntryLen (c : SnapCell) : Nat := 16 + (Config.stateLen c.ctype + 7) / 8 * 8

/-- The entries that fit in 256 KiB with the header, lower nodes first. -/
def snapFit : Nat → SMap SnapCell → SMap SnapCell
  | _, [] => []
  | room, c :: cs => if snapEntryLen c.2 ≤ room then c :: snapFit (room - snapEntryLen c.2) cs else []

/-- Completes the snapshot's CHECK once no face is still to contribute. -/
def Dev.snapCheck (d : Dev) : Dev :=
  match d.hfr.snap with
  | some (c, []) =>
    let x := SMap.getD d.nv.snaps c {}
    { d with
      nv := { d.nv with snaps := SMap.set d.nv.snaps c { x with cells := snapFit 262080 x.cells, ok := true } }
      hfr := { d.hfr with snap := none } }
  | _ => d

/-- Faces contribute to a snapshot no more. -/
def Dev.snapDrop (d : Dev) (out : Nat → Bool) : Dev :=
  match d.hfr.snap with
  | some (c, gs) => { d with hfr := { d.hfr with snap := some (c, gs.filter fun g => !out g) } }.snapCheck
  | none => d

/-- The restorable cells of a face at the end of a step: of a duplex cell, copy N's state where its face runs, otherwise copy S's. -/
def Dev.faceCells (d : Dev) (g : Nat) : List (Nat × SnapCell) :=
  let D := d.seam.design
  (D.cellsOn g).filterMap fun x =>
    match D.node x.1 with
    | some n =>
      let nRuns := ((D.cellFace x.1).map fun f => (d.face f).st == .run).getD false
      if restorable n.cellType ∧ (x.2 = 0 ∨ ¬nRuns) then some (x.1, ⟨D.pathId x.1, n.cellType, d.cell x.1 x.2⟩) else none
    | none => none

/-- A face's first step whose instant lies after the entry to HOLD contributes its cells. -/
def Dev.snapStep (d : Dev) (g : Nat) : Dev :=
  match d.hfr.snap with
  | some (c, gs) =>
    if gs.contains g ∧ 16 * d.hfr.holdAt < ((d.face g).lastT).getD 0 then
      let x := SMap.getD d.nv.snaps c {}
      let cells := (d.faceCells g).foldl (fun m e => SMap.set m e.1 e.2) x.cells
      { d with nv := { d.nv with snaps := SMap.set d.nv.snaps c { x with cells := cells } } }.snapDrop fun h => h == g
    else d
  | none => d

/-- The snapshot starts in the copy that does not hold the latest one. -/
def Dev.snapStart (d : Dev) : Dev :=
  let c := match d.snapCopy with
    | some (i, _) => 1 - i
    | none => 0
  let x : Snap :=
    { pcyc := d.nv.pcyc, calst := d.calState, tsc := d.tsc, cal := d.cal, thyme := d.thymeNow, opsec := d.opsecAt d.tsc }
  let gs := (d.seam.design.faces.map fun f => f.face).filter fun g => (d.face g).st == .run
  { d with nv := { d.nv with snaps := SMap.set d.nv.snaps c x }, hfr := { d.hfr with snap := some (c, gs) } }.snapCheck

/-- SNAP_FAIL: the snapshot is not complete 50 ms after the entry to HOLD (R478). -/
def execSnapFail (s : State) : Out := s.up fun d => if d.mode = .hold ∧ d.hfr.holdAt + 50000000 ≤ d.tsc then d.snapAbandon else d

/-! ### HOLD (R379, R455, R468 to R470) -/

/-- Tally takes what skip 29 holds. -/
def drainToTally : Nat → Dev → Dev
  | 0, d => d
  | n + 1, d => if (d.skip 29).queue = [] then d else drainToTally n ((d.recordArrival Dev.peekAt).creditReturn 29)

/-- Entry to HOLD with the actions of R470; the logs are closed after the records of the entry itself. -/
def Dev.enterHold (d : Dev) (cause : Nat) (restart : Bool) : Dev :=
  let old := d.mode
  let d := { d with hfr := { d.hfr with
    holdAt := d.tsc, restart := restart, snap := none, snapFailed := false, logsClosed := false, holdDone := false, holdFault := none } }
  let d := ((d.toMode .hold cause).powerRecord 0x2A0 3).fire 21
  let d := (d.linkLost 2).linkLost 3
  let d := { d with nv := { d.nv with thyme := { d.nv.thyme with latched := d.thymeNow, valid := d.nv.thyme.run } } }
  let d := d.storeOpsec
  let d := if old = .commission ∨ old = .protect ∨ old = .degraded then d.snapStart else d
  let d := (drainToTally 4096 d).closeLog
  { d with hfr := { d.hfr with logsClosed := true } }

/-- HOLD_ENTRY: V_HOLD has fallen to V_RES while the store feeds the module (R468). -/
def execHoldEntry (s : State) : Out := s.up fun d =>
  if d.getB F.SYS_PWR_RIDE ∧ (d.mode = .commission ∨ d.mode = .protect ∨ d.mode = .degraded) then d.enterHold 0x0040 false else d

/-- REQ_RESTART: enters HOLD for a restart (R454). -/
def execReqRestart (s : State) : Out := s.auth 20 fun d _ =>
  if d.mode = .hold then (9, d) else (0, d.enterHold 0x0014 true)

/-- SUPPLY_LOST: the supply is judged lost, above 19.5 V (`high`) or below 4.2 V, with the store at or below V_RES (`low`) or above it
(R465, R468, R469). -/
def execSupplyLost (high low : Bool) (s : State) : Out := s.up fun d =>
  if d.getB F.SYS_PWR_SUPPLY_OK then
    let d := (((d.setF F.SYS_PWR_SUPPLY_OK 0 0).setF F.SYS_PWR_RIDE 0 1).setF F.SYS_PWR_PF_S 0 1).setB F.SYS_PWR_OVERVOLT 0 high
    let d := d.setF F.SYS_PWR_HOLD_READY 0 0
    let d := if high then d.powerRecord 0x2A0 11 else d
    if d.mode = .hold then d
    else if (d.mode = .commission ∨ d.mode = .protect ∨ d.mode = .degraded) ∧ ¬low then (d.powerRecord 0x2A0 1).fire 21
    else d.enterHold 0x0040 false
  else d

/-- HOLD ends in BOOT (R455). -/
def Dev.holdEnd (d : Dev) : Dev := d.bootEntry (if d.hfr.restart then 2 else 1) d.thymeNow

/-- SUPPLY_VALID: V_IN has stayed in range for 10 ms.  From OFF the part enters BOOT, Thyme having counted `elapsed` meanwhile (R452,
R465, R469). -/
def execSupplyValid (elapsed : BitVec 48) (s : State) : Out := s.run fun d =>
  if d.mode = .off then d.bootEntry 0 (if d.nv.thyme.run then d.nv.thyme.base + elapsed.toNat else elapsed.toNat)
  else if d.getB F.SYS_PWR_SUPPLY_OK then d
  else
    let d := ((d.setF F.SYS_PWR_SUPPLY_OK 0 1).setF F.SYS_PWR_RIDE 0 0).setF F.SYS_PWR_OVERVOLT 0 0
    if d.mode = .hold then (if d.hfr.holdDone then d.holdEnd else d)
    else d.powerRecord 0x2A0 2

/-- HOLD_DONE: the snapshot and the closing of the logs are complete; with the supply valid, BOOT follows (R455, R470). -/
def execHoldDone (s : State) : Out := s.up fun d =>
  if d.mode = .hold ∧ ¬d.hfr.holdDone ∧ d.hfr.holdFault = none ∧ d.hfr.snap = none ∧ d.hfr.logsClosed then
    let d := { d.powerRecord 0x2A0 4 with hfr := { d.hfr with holdDone := true } }
    if d.getB F.SYS_PWR_SUPPLY_OK then d.holdEnd else d
  else d

/-- HOLD_FAULT_END: 200 ms after a fault of Headframe in HOLD, with the supply valid (R515). -/
def execHoldFaultEnd (s : State) : Out := s.up fun d =>
  match d.hfr.holdFault with
  | some t => if d.mode = .hold ∧ t + 200000000 ≤ d.tsc ∧ d.getB F.SYS_PWR_SUPPLY_OK then d.holdEnd else d
  | none => d

/-- HOLDUP_EXHAUSTED: V_HOLD has fallen to V_MIN (R468). -/
def execHoldupExhausted (s : State) : Out := s.up fun d => if d.mode = .hold ∧ ¬d.getB F.SYS_PWR_SUPPLY_OK then d.enterOff else d

/-- HOLDUP_CAP_MEASURE: C has been measured, in 0.01 mF (R467). -/
def execHoldupCapMeasure (cap : BitVec 16) (s : State) : Out := s.up fun d =>
  let d := d.setF F.SYS_HOLDUP_CAP 0 cap.toNat
  if cap.toNat < 1750 then
    (((d.setF F.SYS_PWR_HOLDUP_LOW 0 1).setF F.SYS_PWR_HOLD_READY 0 0).trouble F.TRB_STICKY2_HOLDUP).powerRecord 0x2A0 9
  else d.setF F.SYS_PWR_HOLDUP_LOW 0 0

/-- HOLDUP_CHARGED: the store holds 21.0 J (R468). -/
def execHoldupCharged (s : State) : Out := s.up fun d =>
  if d.getB F.SYS_PWR_HOLDUP_LOW ∨ ¬d.getB F.SYS_PWR_SUPPLY_OK then d else d.setF F.SYS_PWR_HOLD_READY 0 1

/-! ### Power halves (R11, R22, R476, R477, R523) -/

/-- A half's monitor. -/
def Dev.half (d : Dev) (h : Half) : HalfSt := SMap.getD d.halves h.num {}

/-- Replaces a half's monitor. -/
def Dev.setHalf (d : Dev) (h : Half) (x : HalfSt) : Dev := { d with halves := SMap.set d.halves h.num x }

/-- Sets whether a half is offline. -/
def Dev.setHalfOff (d : Dev) (h : Half) (off : Bool) : Dev :=
  match h with
  | .north => d.setB F.SYS_HALF_N_OFF 0 off
  | .south => d.setB F.SYS_HALF_S_OFF 0 off

/-- The source number of a half's monitor (R478). -/
def monitorOf (h : Half) : Nat := 0x2A1 + h.num

/-- The FLT producers of a half (R139). -/
def tapsOf (h : Half) : List Nat := (List.range 4).map (fun n => 0x060 + 4 * h.num + n) ++ [0x068 + h.num]

/-- The sources of records in a half: its converters, chains, faces and banks. -/
def recordSourcesOf (h : Half) : List Nat :=
  (h.channels.flatMap fun c => [0x020 + c, 0x050 + c]) ++ (tapsOf h) ++ (List.range 128).map (fun i => 0x100 + 128 * h.num + i) ++
    (List.range 2).map fun i => 0x220 + 2 * h.num + i

/-- The skips whose row names a half (R22). -/
def skipsOf (h : Half) : List Nat := (List.range 31).filter fun n => skipHalf n == some h

/-- The faces of a design in a half. -/
def Design.halfFaces (D : Design) (h : Half) : List FaceRec := D.faces.filter fun f => faceHalf f.face == h

/-- A Seam face waits no more for the lumps of a failed half (R523). -/
def Dev.awayHalf (d : Dev) (h : Half) : Dev :=
  let keys := (List.range 4).flatMap fun pit => (tapsOf h).map fun src => 4096 * pit + src
  d.setSeam { d.seam with away := keys.foldl (fun m k => SMap.set m k none) d.seam.away }

/-- A calibration of a failed half ends (R103). -/
def Dev.afeHalfLost (d : Dev) (h : Half) : Dev :=
  let run := d.afe.calRun.filter fun x => x.1 != h
  let e := { d with afe := { d.afe with calRun := run, calDue := d.afe.calDue.filter fun x => x != h } }
  if run = [] then e.setB F.AFE_STAT_CAL_BUSY 0 false else e

/-- The resources of a half stop (a HALTED face stays HALTED until the next entry to BOOT, R190), and the angle clocks that a channel of its is a reference of lose it (R11, R22, R77, R103, R283, R299, R383, R476). -/
def Dev.halfStops (d : Dev) (h : Half) : Dev :=
  let d := (skipsOf h).foldl (fun d n => d.skipOffline n) (d.setHalfOff h true)
  let d := (d.netHalfLost h).bankHalfLost h
  let d := (d.twuHalfLost h).awayHalf h
  let d := (d.seam.design.halfFaces h).foldl (fun d f =>
    if (d.face f.face).st = .run then d.setFace f.face { d.face f.face with st := .offline, restart := false } else d) d
  let d := (List.range 4).foldl (fun d n => d.refsOff n) d
  (d.afeHalfLost h).snapDrop fun g => faceHalf g == h

/-- HALF_LOST: a rail of a half leaves ±10 % (R476); the fourth failure within 60 min leaves it offline for good (R477). -/
def execHalfLost (h : Half) (s : State) : Out := s.up fun d =>
  if d.halfOff h then d
  else
    let d := (d.halfStops h).setHalf h { d.half h with failedAt := d.tsc, restarted := false }
    let d := ((d.incF F.SYS_HALF_LOSSES).trouble F.TRB_STICKY2_PWR_HALF).powerRecord (monitorOf h) 6 |>.fire 21
    let d := if 3 ≤ d.halfTries h then
        ((d.setF (if h = .north then F.SYS_HALF_N_GIVEUP else F.SYS_HALF_S_GIVEUP) 0 1).powerRecord (monitorOf h) 8).farea 5 0x000 h.num 0
      else d
    (d.degradedCause 0x0024).gateSettled

/-- Whether a half has been given up. -/
def Dev.halfGivenUp (d : Dev) (h : Half) : Bool := d.getB (if h = .north then F.SYS_HALF_N_GIVEUP else F.SYS_HALF_S_GIVEUP)

/-- The modes in which halves are restarted and readmitted (R477). -/
def halfModes (m : Mode) : Bool :=
  match m with
  | .boot => true
  | .load => true
  | .commission => true
  | .protect => true
  | .degraded => true
  | _ => false

/-- HALF_RESTART: 100 ms after a failure the half's converters are restarted (R477). -/
def execHalfRestart (h : Half) (s : State) : Out := s.up fun d =>
  if d.halfOff h ∧ halfModes d.mode ∧ ¬d.halfGivenUp h ∧ (d.half h).failedAt + 100000000 ≤ d.tsc then d.setHalf h { d.half h with restarted := true }
  else d

/-- A face of a readmitted half starts again: at the first step after now, as its surviving copies stand once they have come so far,
its other cells from the image (R196). -/
def Dev.faceBack (d : Dev) (f : FaceRec) : Dev :=
  if (d.face f.face).st ≠ .offline then d
  else
    let D := d.seam.design
    let duplex := (D.cellsOn f.face).any fun x => D.isDuplex x.1
    let d := (D.cellsOn f.face).foldl (fun d x => d.setCell x.1 x.2 (match D.node x.1 with
      | some n => d.cellInit x.1 f.face n.cellType
      | none => {})) d
    let d := d.setSeam { d.seam with points := d.seam.points.filter fun p => faceOf p.1 != f.face }
    let k := d.domNext f.domain
    let d := d.setFace f.face { d.face f.face with st := .run, first := k, next := k, lastT := none, restart := duplex }
    if duplex then (D.faces.map fun h => h.face).foldl (fun d h => d.takeFrom f.face h) d else d

/-- The first lump each producer of a readmitted half sends on a skip that has kept running carries GAP = 1 and LOST = 0 (R523). -/
def Dev.gapSources (d : Dev) (n : Nat) (srcs : List Nat) : Dev :=
  let s := d.skip n
  if s.st = .run then
    d.setSkip n { s with prods := srcs.foldl (fun m src => SMap.set m (prodKey src) (s.prod src).afterOutage) s.prods }
  else d

/-- The converters and chains of a readmitted half start afresh, with a calibration due (R105); pairs and the reference in use stay what they
are, so that the release marks no change of them. -/
def Dev.afeHalfBack (d : Dev) (h : Half) : Dev :=
  let d := { d with
    afe := { d.afe with calDue := d.afe.calDue.filter (fun x => x != h) ++ [h] }
    afeCh := d.afeCh.filter fun p => chHalf p.1 != h
    fltCh := d.fltCh.filter fun p => chHalf p.1 != h
    taps := (tapsOf h).foldl (fun m src => SMap.erase m (src - 0x060)) d.taps }
  h.channels.foldl (fun d c => d.setAfeChan c { paired := d.bitF F.AFE_PAIR_PAIR 0 (c / 2), refExt := decide (d.afe.refin = .inUse) }) d

/-- The resources of a half come back, reset (R22, R105, R196, R283, R477). -/
def Dev.halfReturns (d : Dev) (h : Half) : Dev :=
  let d := (skipsOf h).foldl (fun d n => d.skipRejoin n) (d.setHalfOff h false)
  let d := [6, 7, 8, 9].foldl (fun d n => d.gapSources n (tapsOf h)) d
  let d := d.gapSources 29 (recordSourcesOf h)
  let d := (d.netHalfBack h).bankHalfBack h
  let d := d.twuHalfBack h
  let d := (d.seam.design.halfFaces h).foldl Dev.faceBack d
  (d.afeHalfBack h).drainAll.countStalls fun src => srcHalf src == some h

/-- HALF_READMIT: every rail has stayed within ±5 % for 100 ms since the restart; at most three times in 60 min (R477). -/
def execHalfReadmit (h : Half) (s : State) : Out := s.up fun d =>
  if d.halfOff h ∧ halfModes d.mode ∧ ¬d.hfr.held ∧ ¬d.halfGivenUp h ∧ (d.half h).restarted ∧ (d.half h).failedAt + 200000000 ≤ d.tsc ∧ d.halfTries h < 3 then
    let x := d.half h
    let d := (d.halfReturns h).setHalf h { x with restarted := false, readmits := (d.tsc :: x.readmits).take 4 }
    (d.powerRecord (monitorOf h) 7).fire 21
  else d

/-! ### PPS_OUT (R483) -/

/-- Whether CAL has passed a whole second in this ns by its advance. -/
def Dev.secondPassed (d : Dev) : Bool :=
  let t := d.tsc - 1
  match d.clk.cal with
  | s :: old :: _ =>
    let before := if s.tsc = d.tsc then old else s
    (s.tsc != d.tsc || old.at d.tsc == s.acc) && decide (before.at t / 2 ^ 40 / 1000000000 < s.at d.tsc / 2 ^ 40 / 1000000000)
  | [s] => s.tsc != d.tsc && decide (s.at t / 2 ^ 40 / 1000000000 < s.at d.tsc / 2 ^ 40 / 1000000000)
  | [] => false

/-- PPS_OUT_RISE: CAL advances past a whole second in LOCKED or HOLDOVER: a pulse of 100 ms starts. -/
def execPpsOutRise (s : State) : Out := s.up fun d =>
  if (d.calState = 2 ∨ d.calState = 3) ∧ d.secondPassed then { d with pps := some (d.tsc + 100000000) } else d

/-- PPS_OUT_FALL: 100 ms after its rise the pulse ends. -/
def execPpsOutFall (s : State) : Out := s.up fun d =>
  match d.pps with
  | some t => if t ≤ d.tsc then { d with pps := none } else d
  | none => d

end Sys2Proof.Machine
end

