-- ==== Sys2Proof/Machine/Faults.lean ====
section
/-!
DEFINITION. The memory code, poisoned words, scrubbing, NAND refresh and the temperature limit (R506 to R513, R519, R520, R522).
-/
namespace Sys2Proof.Machine

/-! ### The memory code (R507) -/

/-- The 14 bits of g(x) below its leading one: g(x) = (x⁷ + x³ + 1)(x⁷ + x³ + x² + x + 1). -/
def bchPoly : Nat := 0x377

/-- The remainder of xⁿ divided by g(x). -/
def xRem : Nat → Nat
  | 0 => 1
  | n + 1 =>
    let v := 2 * xRem n
    if v < 16384 then v else (v - 16384) ^^^ bchPoly

/-- Where a bit of the 80 stands in the code polynomial: D at x¹⁴ to x⁷⁷, C at x⁰ to x¹³, T at x⁷⁸; P is in none. -/
def codePlace (i : Nat) : Option Nat :=
  if i < 64 then some (14 + i) else if i < 78 then some (i - 64) else if i = 79 then some 78 else none

/-- The syndrome of one bit: the remainder in [13:0] and the overall parity in [14]. -/
def bitSyndrome (i : Nat) : Nat :=
  16384 + (match codePlace i with
    | some n => xRem n
    | none => 0)

/-- The syndrome of a word in which the bits of `e` are in error: it depends on nothing else, as the code is linear. -/
def syndrome (e : Nat) : Nat := (List.range 80).foldl (fun s i => if e.testBit i then s ^^^ bitSyndrome i else s) 0

/-- What decoding makes of a word (R508). -/
inductive Decoded where
  /-- At most 2 bits are taken to be wrong: how many, and what still differs from what was written. -/
  | ok (bits residual : Nat)
  | uncorrectable
  deriving DecidableEq, Repr

/-- Decodes a word by its error pattern. -/
def decodeWord (e : Nat) : Decoded :=
  let s := syndrome e
  if s = 0 then .ok 0 e
  else
    let syn := (List.range 80).map fun i => (i, bitSyndrome i)
    match syn.find? fun p => p.2 == s with
    | some p => .ok 1 (e ^^^ 2 ^ p.1)
    | none =>
      match syn.findSome? fun p => (syn.find? fun q => p.1 < q.1 && (p.2 ^^^ q.2) == s).map fun q => (p.1, q.1) with
      | some (i, j) => .ok 2 (e ^^^ 2 ^ i ^^^ 2 ^ j)
      | none => .uncorrectable

/-! ### Poisoned words (R508, R510) -/

/-- The number of a word in its region, over the faces for regions 1 to 3. -/
def badIndex (r : Nat) (b : BadWord) : Nat := (if 1 ≤ r ∧ r ≤ 3 then 32768 * b.face.val else 0) + b.addr.toNat / 8

/-- A region's memory size in bytes, per face for regions 1 to 3; the side rings' size is not stated (R506). -/
def regionSize (r : Nat) : Nat :=
  if r = 0 then 2 ^ 33 else if r = 1 then 65536 else if r = 2 then 262144 else if r = 3 then 131072 else if r = 4 then 2097152
  else if r = 5 then 1048576 else 2 ^ 48

/-- Changes the data bits of a word in the memories whose bytes the model holds. -/
def Dev.changeData (d : Dev) (r a : Nat) (f : Nat → Nat) : Dev :=
  let put (m : Memory) : Memory := Memory.writeBytes m a (le 8 (f (unle (Memory.readBytes m a 8))))
  if r = 0 then { d with recMem := put d.recMem }
  else if r = 6 then { d with nv := { d.nv with near := put d.nv.near } }
  else d

/-- Replaces a point's slot, and what routes read of it. -/
def Dev.pokePoint (d : Dev) (g addr : Nat) (f : PtV → PtV) : Dev :=
  match d.seam.design.points.find? fun p => p.addr == addr with
  | none => d
  | some p =>
    let v := f (d.point p)
    let x := d.face g
    let hist := match x.hist with
      | h :: hs => { h with pts := SMap.set h.pts addr v } :: hs
      | [] => []
    (d.setSeam { d.seam with points := SMap.set d.seam.points addr v }).setFace g { x with hist := hist }

/-- Errors that decoding has left in a word change its data: a word of a point's slot holds its VALUE, or QUAL in [7:0] and STEP in
[63:32] (R176). -/
def Dev.corrupt (d : Dev) (r : Nat) (b : BadWord) (residual : Nat) : Dev :=
  let x := residual % 2 ^ 64
  let d := d.changeData r b.addr.toNat fun v => v ^^^ x
  if r = 1 then
    d.pokePoint b.face (4096 * b.face.val + b.addr.toNat / 16) fun v =>
      if b.addr.toNat % 16 < 8 then { v with val := v.val ^^^ x } else { v with qual := v.qual ^^^ x % 256, step := v.step ^^^ x / 2 ^ 32 }
  else d

/-- Whether an address lies in the near region of an enabled channel. -/
def Dev.inNearRegion (d : Dev) (a : Nat) : Bool :=
  (List.range 8).any fun c =>
    let x := d.tlyCh c
    x.en && decide (x.nbase * 65536 ≤ a ∧ a < (x.nbase + x.nsize) * 65536)

/-- What Headframe's next use of a poisoned word of its MRAM comes to (R313, R430, R472, R510). -/
def Dev.mramPoison (d : Dev) (w : Mram) : Dev :=
  match w with
  | .canary => ({ d with nv := { d.nv with canary := some [] } }.showCanary.updateCanary).trouble F.TRB_STICKY3_POISON
  | .snapshot c => { d with nv := { d.nv with snaps := match SMap.get? d.nv.snaps c with
      | some s => SMap.set d.nv.snaps c { s with ok := false }
      | none => d.nv.snaps } }
  | .key k => { d with nv := { d.nv with keys := match SMap.get? d.nv.keys k with
      | some x => SMap.set d.nv.keys k { x with pub := [] }
      | none => d.nv.keys } }
  | .farea x => { d with nv := { d.nv with fareaBad := d.nv.fareaBad ++ [x.val] } }
  | .other => d

/-- A word becomes poisoned: D = 0 and T = 1 (R508, R510). -/
def Dev.poison (d : Dev) (r : Nat) (b : BadWord) : Dev :=
  let d := { d with bad := SMap.set d.bad r (badIndex r b :: SMap.getD d.bad r []) }
  let d := d.changeData r b.addr.toNat fun _ => 0
  if r = 1 then d.pokePoint b.face (4096 * b.face.val + b.addr.toNat / 16) fun v => { v with val := 0, qual := 0x22 }
  else if r = 5 then d.mramPoison b.what
  else if r = 6 ∧ d.inNearRegion b.addr.toNat then d.nearFail true b.addr.toNat Dev.peekAt
  else d

/-- Shows an event of R509: the latest uncorrectable one, and while there is none the latest correction. -/
def Dev.memEvent (d : Dev) (r kind face addr : Nat) : Dev :=
  if d.getF F.TRB_MEMINFO_KIND = 3 ∧ kind ≠ 3 then d
  else
    let d := ((d.setF F.TRB_MEMINFO_REGION 0 r).setF F.TRB_MEMINFO_KIND 0 kind).setF F.TRB_MEMINFO_SCRUB 0 1
    ((d.setF F.TRB_MEMINFO_FACE 0 (if 1 ≤ r ∧ r ≤ 3 then face else 0)).setF F.TRB_MEMINFO_SRC 0 0).setF F.TRB_MEMLAST_ADDR 0 addr

/-- A scrubber reads a word with errors (R508, R509, R511). -/
def Dev.scrubWord (d : Dev) (r : Nat) (b : BadWord) : Dev :=
  let addr := b.addr.toNat
  if (SMap.getD d.bad r []).contains (badIndex r b) then d
  else
    match decodeWord b.err.toNat with
    | .ok n residual =>
      let d := if n = 0 then d else (d.incF F.TRB_MEMCNT_CORR r).memEvent r n b.face addr
      let d := if n = 2 then d.trouble F.TRB_STICKY3_MEM_CE else d
      if residual.testBit 79 then d.poison r b else if residual = 0 then d else d.corrupt r b residual
    | .uncorrectable =>
      let d := ((d.incF F.TRB_MEMCNT_UNCORR r).trouble F.TRB_STICKY3_MEM_UE).memEvent r 3 b.face addr
      (d.farea 2 0x000 (r + if 1 ≤ r ∧ r ≤ 3 then 256 * b.face.val else 0) addr).poison r b

/-- Whether the words of a pass are words of its region; NAND has a code of its own. -/
def scrubWf (r : Nat) (l : List BadWord) : Bool :=
  if r = 7 then l == [] else l.all fun b => b.addr.toNat % 8 == 0 && decide (b.addr.toNat < regionSize r)

/-- SCRUB_PASS_END: a pass over a region has ended; the words that it read with errors, in ascending order (R509, R511). -/
def execScrubPassEnd (r : Fin 8) (words : List BadWord) (s : State) : Out := s.upWf (scrubWf r words) fun d =>
  if d.scrubRuns r then
    let before := SMap.getD d.bad r []
    let d' := (words.foldl (fun d b => d.scrubWord r b) d).incWrap F.TRB_SCRUB_PASSES r
    let fixed := words.countP fun b => !(before.contains (badIndex r b)) && (match decodeWord b.err.toNat with
      | .ok n _ => n != 0
      | .uncorrectable => false)
    if 64 < fixed then d'.trouble F.TRB_STICKY3_MEM_CE else d'
  else d

/-- SCRUB_LATE: a pass has not ended within its period (R512). -/
def execScrubLate (r : Fin 8) (s : State) : Out := s.up fun d => if d.scrubRuns r then d.trouble F.TRB_STICKY3_SCRUB_LATE else d

/-! ### NAND (R513, R522) -/

/-- The records of the far store with a unit in a codeword are gone. -/
def Dev.farLose (d : Dev) (addr : Nat) : Dev :=
  (List.range 8).foldl (fun d c =>
    let x := d.tlyCh c
    let hit (u : Nat) : Bool := decide (0 < x.farUnits) && (x.fbase * 1048576 + u % x.farUnits * x.unit) / 1024 == addr / 1024
    if x.far.any fun r => (List.range r.2.2).any fun i => hit (r.2.1 + i) then
      d.setTlyCh c { x with far := x.far.filter fun r => !((List.range r.2.2).any fun i => hit (r.2.1 + i)) }
    else d) d

/-- A codeword of an image slot is lost: what reads there from now on is not stated. -/
def Dev.slotLose (d : Dev) (slot addr : Nat) : Dev :=
  let b := SMap.getD d.nv.slots slot []
  let o := addr / 1024 * 1024
  let junk := ((List.range 128).flatMap fun i => le 8 (Config.free (d.free + i)).toNat).take (b.length - o)
  { d with
    free := d.free + 128
    nv := { d.nv with slots := SMap.set d.nv.slots slot (b.take o ++ junk ++ b.drop (o + junk.length)) } }

/-- NAND_REFRESH: a block is rewritten: its worst codeword, at a byte address of the far store or of an image slot, needed `corr`
corrections (41 and more: beyond correction); the wear figures as the controller now has them (R509, R513, R522). -/
def execNandRefresh (slot : Option (Fin 2)) (addr : BitVec 32) (corr : Byte) (pe rate : BitVec 16) (s : State) : Out := s.up fun d =>
  let n := corr.toNat
  let a := addr.toNat
  let d := if n = 0 then d
    else if n ≤ 40 then (d.incF F.TRB_MEMCNT_CORR 7).memEvent 7 (min n 2) 0 a
    else
      let d := ((d.incF F.TRB_MEMCNT_UNCORR 7).trouble F.TRB_STICKY3_MEM_UE).memEvent 7 3 0 a
      match slot with
      | some i => (d.farea 2 0x000 7 a).slotLose i a
      | none => (d.farea 2 0x000 7 a).farLose a
  let d := if 32 < n ∧ n ≤ 40 then d.trouble F.TRB_STICKY3_MEM_CE else d
  let d := (d.setF F.TRB_NANDWEAR_PE 0 pe.toNat).setF F.TRB_NANDWEAR_RATE 0 rate.toNat
  if 24000 < pe.toNat ∨ 2000 < rate.toNat then d.trouble F.TRB_STICKY3_NAND_WEAR else d

/-! ### Tally's stores (R374, R375) -/

/-- NEAR_STORE_FAIL: a unit fails verification (1) or the scrub finds an uncorrectable word in an enabled region (2). -/
def execNearStoreFail (scrub : Bool) (addr : BitVec 64) (s : State) : Out := s.up fun d => d.nearFail scrub addr.toNat Dev.peekAt

/-- FAR_STORE_FAIL: no spare block is left (1), or an operation takes 500 ms (2). -/
def execFarStoreFail (timeout : Bool) (addr : BitVec 64) (s : State) : Out := s.up fun d => d.farFail timeout addr.toNat Dev.peekAt

/-! ### Temperature (R520) -/

/-- TEMP: a mean over 1 s of a temperature input lies above its limit. -/
def execTemp (s : State) : Out := s.up fun d => d.trouble F.TRB_STICKY2_TEMP

end Sys2Proof.Machine
end

