-- ==== Sys2Proof/Machine/Steps.lean ====
section
/-!
DEFINITION. The steps of faces as commands: the step with what other chapters hang on it (poisoned memory, the snapshot, the
Canary), overruns and halts, and the instants that start steps.
-/
namespace Sys2Proof.Machine

/-! ### Halting (R189, R190, R192) -/

/-- A step is aborted after a number of program cycles, and its face stops: the actions of R189 and R190, and its pit's safe
states (R192). -/
def Dev.haltFace (d : Dev) (g cycles : Nat) : Dev :=
  let f := d.face g
  let pit := g / 64
  let had := (SMap.getD d.seam.sched pit []).any fun x => x.face == g
  let d := d.setFace g { f with st := .halted }
  let d := (d.faceBit F.SEAM_HALT_HALT_LO F.SEAM_HALTH_HALT_HI g).setF F.SEAM_STAT_HALT 0 1
  let d := ((d.stepCycles g cycles).overrun g f.next cycles true).trouble F.TRB_STICKY1_SEAM_HALT
  let d := d.farea 4 0x000 g f.next
  let d := d.setSched pit ((SMap.getD d.seam.sched pit []).filter fun x => x.face != g)
  let d := if d.seam.design.drives g ∨ had then d.sendHalted g else d
  (d.snapDrop fun x => x == g).updateCanary

/-! ### A step -/

/-- Whether a region of the faces' memories holds a poisoned word of a face. -/
def Dev.faceBad (d : Dev) (r g : Nat) : Bool := (SMap.getD d.bad r []).any fun w => w / 32768 == g

/-- The writers of a face's points write them, which ends the poison of point memory (R510). -/
def Dev.pointsWritten (d : Dev) (g : Nat) : Dev :=
  { d with bad := SMap.put [] d.bad 1 ((SMap.getD d.bad 1 []).filter fun w => w / 32768 != g) }

/-- A face evaluates its next step, or is halted by a poisoned word of its program or its cell state (R510). -/
def Dev.evalStep (d : Dev) (g cycles : Nat) (req : List Sched) : Dev :=
  if d.faceBad 2 g || d.faceBad 3 g then (d.trouble F.TRB_STICKY3_POISON).haltFace g cycles
  else
    let d := if d.faceBad 1 g then (d.trouble F.TRB_STICKY3_POISON).pointsWritten g else d
    ((d.faceStep g cycles req).snapStep g).updateCanary

/-- FACE_STEP: every synchronous input of the face's next step has arrived; it takes a number of program cycles, less than four
times the budget, and its cells schedule transitions (R181, R189). -/
def execFaceStep (g : Fin 256) (cycles : Word) (req : List (Fin 64 × Bool × Fin 4 × BitVec 48)) (s : State) : Out := s.up fun d =>
  if d.stepDue g ∧ d.arrived g (d.face g).next ∧ cycles.toNat < 4 * d.faceBudget g then d.evalStep g cycles.toNat (schedOf g req) else d

/-- FACE_STEP_DEADLINE: the deadline passes with inputs still missing, which are substituted and counted (R181). -/
def execFaceStepDeadline (g : Fin 256) (cycles : Word) (req : List (Fin 64 × Bool × Fin 4 × BitVec 48)) (s : State) : Out := s.up fun d =>
  let k := (d.face g).next
  if d.stepDue g ∧ ¬d.arrived g k ∧ d.deadline g k ≤ 16 * d.tsc ∧ cycles.toNat < 4 * d.faceBudget g then
    (d.addF F.SEAM_FSTAT_MISS g (d.missCount g k)).evalStep g cycles.toNat (schedOf g req)
  else d

/-- FACE_HALT: a step reaches four times its budget (R190).  Inputs that its deadline found missing are counted (R181). -/
def execFaceHalt (g : Fin 256) (s : State) : Out := s.up fun d =>
  let k := (d.face g).next
  if d.stepDue g ∧ (d.arrived g k ∨ d.deadline g k ≤ 16 * d.tsc) then
    (d.addF F.SEAM_FSTAT_MISS g (d.missCount g k)).haltFace g (4 * d.faceBudget g)
  else d

/-- CELL_DELAY_EXPIRY: a delay of a cell has reached its end at the face's next step, whose evaluation lets it expire (R214). -/
def execCellDelayExpiry (g : Fin 256) (cycles : Word) (req : List (Fin 64 × Bool × Fin 4 × BitVec 48)) (s : State) : Out := s.up fun d =>
  let running := (d.seam.design.cellsOn g).any fun x => !(d.cell x.1 x.2).tim.isEmpty
  if d.stepDue g ∧ running ∧ d.arrived g (d.face g).next ∧ cycles.toNat < 4 * d.faceBudget g then d.evalStep g cycles.toNat (schedOf g req) else d

end Sys2Proof.Machine
end

