-- ==== Sys2Proof/Machine/Tick.lean ====
section
/-!
DEFINITION. The passing of one nanosecond: what the part does while no command waits (log entry 1).
-/
namespace Sys2Proof.Machine

/-- The instants that the tick just past was the first to reach: those of the angle clocks every 8 ns, those of the fixed rate as CAL
reaches them (R131, R132, R180). -/
def Dev.instants (d : Dev) : Dev :=
  let d := if d.tsc % 8 = 0 then (List.range 12).foldl (fun d dom => d.domAdvance dom) d else d
  d.frTick

/-- The passing of one nanosecond: the sequencers' tick where one is due at this TSC (R320), the TSC and the angle clocks (R62,
R73), the sample instants they pass (R131, R132, R166, R180), what the movers can deliver from then on (R416), and the retry timers of the field sides (R530). -/
def Dev.idle (d : Dev) : Dev :=
  if d.mode = .off then d
  else
    let d := d.asyTick
    ((d.tick.instants).sviTick.mvRefreshAll).fieldTick

end Sys2Proof.Machine
end

