-- ==== Sys2Proof/Machine/Rows.lean ====
section
/-!
DEFINITION. The rows that are register accesses, and the fabric's own rows: each access goes through the bus as every access
does (R524), so a window, a lock or a value check can turn it away.
-/
namespace Sys2Proof.Machine

/-! ### What the operands of access rows must be -/

/-- Whether an address lies in a region of its block (R28). -/
def inRegion (g : BusRegion) (a : Nat) : Bool := (regionOf a).any fun x => x.1 == g

/-- Whether a primary address is that of a status register. -/
def atStatus (a : Nat) : Bool := match mapped a with
  | some (.primary, r, _) => r.desc.cls == .status
  | _ => false

/-- Whether an access of at most 4 bytes lies in the half of a pair that starts at byte `h` of it (R43). -/
def atHalf (h a size : Nat) : Bool := match mapped a with
  | some (.primary, r, _) => r.desc.cls == .pair && a % 8 / 4 * 4 == h && decide (size ≤ 4)
  | _ => false

/-! ### Register accesses (R26 to R59) -/

/-- REGISTER_WRITE: a write to any address of the window (R524); `ring` is what a doorbell makes the part read. -/
def execRegisterWrite (req : Requester) (acc : Access) (data : Dword) (ring : Ring) (s : State) : Out := s.access req fun d =>
  d.busWrite req acc data.toNat ring

/-- REGISTER_READ: a read from any address of the window, with its answer (R524). -/
def execRegisterRead (req : Requester) (acc : Access) (s : State) : Out := s.access req fun d => d.busRead req acc

/-- DATA_SET_WRITE: a write through the SET alias (R37). -/
def execDataSetWrite (req : Requester) (acc : Access) (data : Dword) (ring : Ring) (s : State) : Out :=
  s.accessWf (inRegion .set acc.addr.toNat) req fun d => d.busWrite req acc data.toNat ring

/-- DATA_CLR_WRITE: a write through the CLR alias (R37). -/
def execDataClrWrite (req : Requester) (acc : Access) (data : Dword) (ring : Ring) (s : State) : Out :=
  s.accessWf (inRegion .clr acc.addr.toNat) req fun d => d.busWrite req acc data.toNat ring

/-- DATA_TGL_WRITE: a write through the TGL alias (R37). -/
def execDataTglWrite (req : Requester) (acc : Access) (data : Dword) (ring : Ring) (s : State) : Out :=
  s.accessWf (inRegion .tgl acc.addr.toNat) req fun d => d.busWrite req acc data.toNat ring

/-- STATUS_READ_CLEAR: a primary read of a status register (R39, R40). -/
def execStatusReadClear (req : Requester) (acc : Access) (s : State) : Out :=
  s.accessWf (atStatus acc.addr.toNat) req fun d => d.busRead req acc

/-- PAIR_LO_READ: a primary read of a pair's LO (R45). -/
def execPairLoRead (req : Requester) (acc : Access) (s : State) : Out :=
  s.accessWf (atHalf 0 acc.addr.toNat acc.size) req fun d => d.busRead req acc

/-- PAIR_HI_READ: a primary read of a pair's HI (R46). -/
def execPairHiRead (req : Requester) (acc : Access) (s : State) : Out :=
  s.accessWf (atHalf 4 acc.addr.toNat acc.size) req fun d => d.busRead req acc

/-- PAIR_LO_WRITE: a 32-bit write of a pair's LO (R48). -/
def execPairLoWrite (req : Requester) (addr : BitVec 22) (data : Word) (s : State) : Out :=
  s.accessWf (atHalf 0 addr.toNat 4 && addr.toNat % 4 == 0) req fun d => d.busWrite req ⟨addr, 4, false⟩ data.toNat

/-- PAIR_HI_WRITE: a 32-bit write of a pair's HI (R48). -/
def execPairHiWrite (req : Requester) (addr : BitVec 22) (data : Word) (s : State) : Out :=
  s.accessWf (atHalf 4 addr.toNat 4 && addr.toNat % 4 == 0) req fun d => d.busWrite req ⟨addr, 4, false⟩ data.toNat

/-- PAIR_64_WRITE: a 64-bit write of a pair (R48). -/
def execPair64Write (req : Requester) (addr : BitVec 22) (data : Dword) (s : State) : Out :=
  s.accessWf (atHalf 0 addr.toNat 4 && addr.toNat % 8 == 0) req fun d => d.busWrite req ⟨addr, 8, false⟩ data.toNat

/-! ### Writes with a row of their own -/

/-- CLK_SNAPSHOT: a write of CLK_SNAP_CTL; with SNAP it latches every clock for the requester (R86). -/
def execClkSnapshot (req : Requester) (data : Word) (s : State) : Out := s.access req fun d => d.writeReg req .CLK_SNAP_CTL 0 data.toNat

/-- ANGLE_CONVERSION: an angle time written to CLK_CONVA is converted (R87). -/
def execAngleConversion (req : Requester) (data : Dword) (s : State) : Out := s.access req fun d => d.busWrite req ⟨BitVec.ofNat 22 (Reg.CLK_CONVA.addrOf 0), 8, false⟩ data.toNat

/-- AUX_URGENT_REQUEST: a write of AUX_URG; with GO it asks for one input out of turn (R119). -/
def execAuxUrgentRequest (req : Requester) (data : Word) (s : State) : Out := s.access req fun d => d.writeReg req .AUX_URG 0 data.toNat

/-- FLT_COEF_COMMIT: a write of FLT_CWHI commits a coefficient (R141). -/
def execFltCoefCommit (req : Requester) (data : Word) (s : State) : Out := s.access req fun d => d.writeReg req .FLT_CWHI 0 data.toNat

/-- FLT_SWAP_REQUEST: a write of FLT_SWAPc; with GO it asks for a change of coefficient bank (R142). -/
def execFltSwapRequest (req : Requester) (c : Fin 16) (data : Word) (s : State) : Out := s.access req fun d => d.writeReg req .FLT_SWAP c data.toNat

/-- FLT_RESET_COMMAND: a write of FLT_RESET asks for synchronising resets (R147). -/
def execFltResetCommand (req : Requester) (data : Word) (s : State) : Out := s.access req fun d => d.writeReg req .FLT_RESET 0 data.toNat

/-- SVI_SUBSCRIPTION_COMMIT: a write of SVI_SUBCTLs commits a subscription (R172). -/
def execSviSubscriptionCommit (req : Requester) (i : Fin 128) (data : Word) (s : State) : Out := s.access req fun d => d.writeReg req .SVI_SUBCTL i data.toNat

/-- SVID_OCTET_WRITE: a write of SVI_SVIDWR stores two octets of a pending svID (R34). -/
def execSvidOctetWrite (req : Requester) (data : Word) (s : State) : Out := s.access req fun d => d.writeReg req .SVI_SVIDWR 0 data.toNat

/-- POINT_LATCH: a 64-bit write of SEAM_PADDR latches a point for the requester (R48). -/
def execPointLatch (req : Requester) (data : Dword) (s : State) : Out := s.access req fun d => d.busWrite req ⟨BitVec.ofNat 22 (Reg.SEAM_PADDR.addrOf 0), 8, false⟩ data.toNat

/-- FAR_ARRIVAL_SUBMIT: a write of TWU_FARGO; with GO it submits the far arrival (R276). -/
def execFarArrivalSubmit (req : Requester) (data : Word) (s : State) : Out := s.access req fun d => d.writeReg req .TWU_FARGO 0 data.toNat

/-- TWU_GROUP_COMMIT: a write of TWU_GCTLg commits a detector group (R283). -/
def execTwuGroupCommit (req : Requester) (g : Fin 4) (data : Word) (s : State) : Out := s.access req fun d => d.writeReg req .TWU_GCTL g data.toNat

/-- INTERROGATION_REQUEST: a write of FIO_INTG; with GO it asks a bank for its cause word (R303). -/
def execInterrogationRequest (req : Requester) (data : Word) (s : State) : Out := s.access req fun d => d.writeReg req .FIO_INTG 0 data.toNat

/-- FIO_CLEAR_COMMIT: a write of FIO_CLRMASK sends CLEAR to a bank (R294). -/
def execFioClearCommit (req : Requester) (data : Word) (s : State) : Out := s.access req fun d => d.writeReg req .FIO_CLRMASK 0 data.toNat

/-- SEQUENCER_RUN: a write of ASY_SQCTLq starts or stops a sequencer (R326). -/
def execSequencerRun (req : Requester) (q : Fin 8) (data : Word) (s : State) : Out := s.access req fun d => d.writeReg req .ASY_SQCTL q data.toNat

/-- SEQUENCER_RESTART: a write of ASY_SQCTLq; with RESTART the sequencer enters state 0 at the next tick (R326). -/
def execSequencerRestart (req : Requester) (q : Fin 8) (data : Word) (s : State) : Out := s.access req fun d => d.writeReg req .ASY_SQCTL q data.toNat

/-- ASY_RIDX_WRITE: a write of ASY_ARIDXa gives slots back (R332). -/
def execAsyRidxWrite (req : Requester) (a : Fin 8) (data : Word) (s : State) : Out := s.access req fun d => d.writeReg req .ASY_ARIDX a data.toNat

/-- AREA_RESTART: a write of ASY_ACTLa; with RESTART the area is armed anew (R339). -/
def execAreaRestart (req : Requester) (a : Fin 8) (data : Word) (s : State) : Out := s.access req fun d => d.writeReg req .ASY_ACTL a data.toNat

/-- AREA_COMMIT: a write of ASY_ACTLa commits a capture area (R333). -/
def execAreaCommit (req : Requester) (a : Fin 8) (data : Word) (s : State) : Out := s.access req fun d => d.writeReg req .ASY_ACTL a data.toNat

/-- SEQ_ITEM_COMMIT: a write of ASY_SQW3 commits an item of a sequencer program (R321). -/
def execSeqItemCommit (req : Requester) (data : Word) (s : State) : Out := s.access req fun d => d.writeReg req .ASY_SQW3 0 data.toNat

/-- MASK_TEST_COMMIT: a write of ASY_MKCTLm commits a mask test (R333). -/
def execMaskTestCommit (req : Requester) (m : Fin 8) (data : Word) (s : State) : Out := s.access req fun d => d.writeReg req .ASY_MKCTL m data.toNat

/-- ENVELOPE_LIMIT_COMMIT: a write of ASY_ENVHI commits a limit of an envelope (R338). -/
def execEnvelopeLimitCommit (req : Requester) (data : Word) (s : State) : Out := s.access req fun d => d.writeReg req .ASY_ENVHI 0 data.toNat

/-- TREND_CHANNEL_COMMIT: a write of ASY_TCTLn commits a trend channel (R341). -/
def execTrendChannelCommit (req : Requester) (n : Fin 32) (data : Word) (s : State) : Out := s.access req fun d => d.writeReg req .ASY_TCTL n data.toNat

/-- CHANNEL_FREEZE: a write of TLY_FRZc; with FREEZE = 1 the channel freezes (R370). -/
def execChannelFreeze (req : Requester) (c : Fin 8) (data : Word) (s : State) : Out := s.access req fun d => d.writeReg req .TLY_FRZ c data.toNat

/-- CHANNEL_UNFREEZE: a write of TLY_FRZc; a fall of FREEZE lets the side ring out (R371). -/
def execChannelUnfreeze (req : Requester) (c : Fin 8) (data : Word) (s : State) : Out := s.access req fun d => d.writeReg req .TLY_FRZ c data.toNat

/-- STRIG: a write of TLY_FRZc; with STRIG a snapshot is taken (R367). -/
def execStrig (req : Requester) (c : Fin 8) (data : Word) (s : State) : Out := s.access req fun d => d.writeReg req .TLY_FRZ c data.toNat

/-- TALLY_CHANNEL_COMMIT: a write of TLY_CHCTLc commits a channel and its regions (R352, R377). -/
def execTallyChannelCommit (req : Requester) (c : Fin 8) (data : Word) (s : State) : Out := s.access req fun d => d.writeReg req .TLY_CHCTL c data.toNat

/-- SNAPSHOT_LIST_COMMIT: a write of a TLY_SNHI commits an address of a snapshot list (R369). -/
def execSnapshotListCommit (req : Requester) (c : Fin 8) (i : Fin 16) (data : Word) (s : State) : Out := s.access req fun d => d.writeReg req .TLY_SNHI (16 * c.val + i.val) data.toNat

/-- LAUNCH_DOORBELL: a write of NET_LQTAIL posts launch descriptors (R398). -/
def execLaunchDoorbell (req : Requester) (i : Fin 256) (data : Word) (descs : List LqDesc) (s : State) : Out := s.access req fun d => d.writeReg req .NET_LQTAIL i data.toNat { descs := descs }

/-- LAUNCH_QUEUE_COMMIT: a write of NET_LQCFG commits a launch queue (R403). -/
def execLaunchQueueCommit (req : Requester) (data : Word) (s : State) : Out := s.access req fun d => d.writeReg req .NET_LQCFG 0 data.toNat

/-- MOVER_COMMIT: a write of DMA_MVCTLm commits a mover (R413). -/
def execMoverCommit (req : Requester) (m : Fin 8) (data : Word) (s : State) : Out := s.access req fun d => d.writeReg req .DMA_MVCTL m data.toNat

/-- MOVER_DOORBELL: a write of DMA_MVTAILm posts mover descriptors (R415). -/
def execMoverDoorbell (req : Requester) (m : Fin 8) (data : Word) (s : State) : Out := s.access req fun d => d.writeReg req .DMA_MVTAIL m data.toNat

/-- BLOCK_QUEUE_DOORBELL: a write of DMA_BQTAILm posts blocks (R413). -/
def execBlockQueueDoorbell (req : Requester) (m : Fin 8) (data : Word) (blocks : List Block) (s : State) : Out := s.access req fun d => d.writeReg req .DMA_BQTAIL m data.toNat { blocks := blocks }

/-- SUBMISSION: a write of SYS_MBXGO; with GO the requester's copy of SYS_MBX is submitted (R436, R437). -/
def execSubmission (req : Requester) (data : Word) (s : State) : Out := s.access req fun d => d.writeReg req .SYS_MBXGO 0 data.toNat

/-! ### The skips (R13 to R25) -/

/-- LUMP_SEND: a producer with power (R523) offers a lump (R14, R18, R19); a record waits in its producer's queue (R356). -/
def execLumpSend (skip : Fin 32) (src : BitVec 12) (pclass : Bool) (index : Option Nat) (len : Fin 9) (body : LumpBody) (s : State) : Out :=
  s.up fun d =>
    if d.srcOff src.toNat then d
    else match body with
    | .record r => if skip = 29 then d.requestRecord { r with src := src.toNat } else d.sendLump skip src.toNat pclass index len body
    | _ => d.sendLump skip src.toNat pclass index len body

/-- BULK_STALL_RETRY: a bulk producer tries the lump that it holds back again (R18). -/
def execBulkStallRetry (skip : Fin 32) (src : BitVec 12) (s : State) : Out := s.up fun d => d.retryLump skip src.toNat

/-- CREDIT_RETURN: a credit on its way reaches the producers (R13). -/
def execCreditReturn (skip : Fin 32) (s : State) : Out := s.up fun d => d.creditReturn skip

/-- RECORD_ARRIVAL: Tally takes the oldest record of skip 29 (R354). -/
def execRecordArrival (s : State) : Out := s.up fun d => d.recordArrival Dev.peekAt

/-- A sample lump reaches FLT; a new CIC output may renew a hold of the Canary (R314). -/
def Dev.fltTake (d : Dev) (c : Nat) (codes : List (BitVec 16)) : Dev :=
  let before := (d.chain c).next / 64
  let d := d.fltSamples c codes
  if before < (d.chain c).next / 64 then d.canaryOutput c else d

/-- What the consumer of a skip does with a lump that it has taken (R21, R23). -/
def Dev.consume (d : Dev) (n : Nat) (l : Lump) : Dev :=
  match l.body with
  | .rawHeader h =>
    if n < 2 then d.fltHeader h l.tag.gap
    else if n < 4 then d.twuHeader h l.tag.gap
    else if n < 6 then d.rawRing (.rawHeader { h with gap := h.gap || l.tag.gap })
    else d
  | .rawSamples c first codes =>
    if n < 2 then d.fltTake c codes
    else if n < 4 then d.twuSamples c first codes Dev.asyTwu
    else if n < 6 then d.rawRing l.body
    else d
  | .image on driven sched => if 18 ≤ n ∧ n < 22 then d.fioImage (n - 18) on.toNat driven.toNat sched else d
  | .points k domain entries => if 22 ≤ n ∧ n < 26 then d.asyPoints (n - 22) k domain entries else d
  | .store addr b => if n = 26 then (d.storeTake addr b).mvRefreshAll else d
  | .hostWrite addr b done => if n = 30 then d.hostTake l.tag.src addr b done else d
  | .svPart ofs f => if n = 27 ∨ n = 28 then d.svTakePart (n - 27) ofs l.tag.gap f else d
  | _ => if 6 ≤ n ∧ n < 18 then d.seamLump n l else d

/-- LUMP_RECEIVE: the consumer of a skip takes its oldest lump (R13, R21, R182); Tally takes records (R354). -/
def execLumpReceive (skip : Fin 32) (s : State) : Out := s.up fun d =>
  if skip = 29 then d.recordArrival Dev.peekAt
  else match d.takeLump skip with
    | (d, some l) => d.consume skip l
    | (d, none) => d

end Sys2Proof.Machine
end

