-- ==== Sys2Proof/WellFormed.lean ====
section
/-!
DEFINITION. Well-formed commands: what an operand must be that its type does not say.  An ill-formed command is none that
anything outside the part can make; its meaning faults.
-/
namespace Sys2Proof
open Sys2Proof.Machine

/-- Whether a command's operands fit together. -/
def Instr.wf : Instr → Bool
  | .dataSetWrite _ acc _ _ => inRegion .set acc.addr.toNat
  | .dataClrWrite _ acc _ _ => inRegion .clr acc.addr.toNat
  | .dataTglWrite _ acc _ _ => inRegion .tgl acc.addr.toNat
  | .statusReadClear _ acc => atStatus acc.addr.toNat
  | .pairLoRead _ acc => atHalf 0 acc.addr.toNat acc.size
  | .pairHiRead _ acc => atHalf 4 acc.addr.toNat acc.size
  | .pairLoWrite _ addr _ => atHalf 0 addr.toNat 4 && addr.toNat % 4 == 0
  | .pairHiWrite _ addr _ => atHalf 4 addr.toNat 4 && addr.toNat % 4 == 0
  | .pair64Write _ addr _ => atHalf 0 addr.toNat 4 && addr.toNat % 8 == 0
  | .rawBlockBoundary _ codes => codes.length == 1024
  | .bgcUpdate _ ofs gain skew => bgcWf ofs gain skew
  | .scrubPassEnd r words => scrubWf r words
  | .uplinkFrame _ pins => pins.length == 16
  | .registerWrite .. | .lumpSend .. | .bulkStallRetry .. | .lumpReceive .. | .creditReturn .. | .tcxoGate .. | .tcxoALost |
    .tcxoBLost | .clkSnapshot .. | .angleConversion .. | .timemark | .angFreewheel .. | .angQualifyFail .. | .angQualified ..
    | .angLocked .. | .selfCalibrationStart .. | .selfCalibrationEnd .. | .refinQualified .. | .refinQualifyTimeout |
    .refinRetry | .refinOutOfRange | .auxStart | .auxSlotDone .. | .auxGapEnd | .auxRefSettled | .auxRefTimeout |
    .auxUrgentRequest .. | .auxUrgentDone .. | .decimatedSample .. | .angleTapSample .. | .fixedRateInstant | .fltLumpSend ..
    | .fltCoefCommit .. | .fltSwapRequest .. | .fadeEnd .. | .fltResetCommand .. | .synchronisingReset .. | .fastSettleEnd ..
    | .svFrameReceive .. | .svSampleMissing .. | .svLumpSend .. | .sviSubscriptionCommit .. | .svidOctetWrite .. |
    .faceStep .. | .faceStepDeadline .. | .faceHalt .. | .duplexRestart .. | .groupSwitchRequest .. | .groupSwitchComplete |
    .pointLatch .. | .cellDelayExpiry .. | .energyBooking .. | .balanceIntervalClose .. | .balanceReportDelivery |
    .balanceJudge .. | .twEventClose .. | .farArrivalSubmit .. | .farArrivalExpire .. | .twuGroupCommit .. | .downlinkFrame ..
    | .downlinkReceive .. | .cmdCfg .. | .cmdInterrogate .. | .cmdClear .. | .timedTransition .. | .uplinkReceive .. |
    .fieldSideHold .. | .bankSilent .. | .inputFilterChange .. | .currentLimitLatch .. | .limitEnergyReset .. |
    .outputRetry .. | .eventCountReset .. | .readbackMismatch .. | .interrogationRequest .. | .interrogationSweepDone .. |
    .fieldSupplyWarning .. | .fieldInputFail .. | .fieldUvOff .. | .uvOffRelease .. | .fieldSideReset .. |
    .fieldSideResetRelease .. | .fieldOvertemp .. | .barrierStart | .canaryOperate .. | .canaryHoldExpire .. |
    .powTransitionFix .. | .fioClearCommit .. | .rawCrossingPresent .. | .sequencerTimerExpiry .. | .sequencerRun .. |
    .sequencerRestart .. | .segmentCaptureEnd .. | .asyRidxWrite .. | .areaRestart .. | .areaCommit .. | .seqItemCommit .. |
    .maskTestCommit .. | .envelopeLimitCommit .. | .trendIntervalEnd .. | .trendChannelCommit .. | .headPps |
    .ppsEdgeReceive .. | .probeSend | .probeReceive .. | .echoReceive .. | .adminReceive .. | .linkDown |
    .triggerFrameReceive .. | .recordArrival | .recordRelease | .channelFreeze .. | .channelUnfreeze .. | .strig .. |
    .nearStoreFail .. | .farStoreFail .. | .nearStoreOpen | .farStoreReady | .farPageProgram .. | .opsecStore |
    .tallyChannelCommit .. | .snapshotListCommit .. | .frameReceive .. | .portLinkLoss .. | .portLinkUp .. |
    .ptpSyncReceive .. | .ptpFollowUpReceive .. | .announceReceive .. | .announceTimeout .. | .syncTimeout |
    .pdelayReqReceive .. | .launchDoorbell .. | .frameLaunch .. | .frameTransmitDone .. | .hostFrameReadDone .. |
    .hostReadFault .. | .hostFrameLate .. | .launchQueueCommit .. | .endpointReset .. | .pcieLinkTrained .. | .bar2Read .. |
    .bar2Write | .msixMessage .. | .moverCommit .. | .moverDoorbell .. | .descriptorReadDone .. | .moverError .. |
    .bufferComplete .. | .bufferTimeout .. | .blockQueueDoorbell .. | .submission .. | .validationComplete | .settingsCommit |
    .restep | .calSet | .testout | .tlockClear | .loglossClear | .keyEnrol | .keyRevoke | .rollbackRaise | .imagePref |
    .reqCommission | .reqProtect | .reqResume | .reqSafe | .reqRestart | .startmode | .sageCompare .. | .tamperOpening .. |
    .supplyValid .. | .headframeRomStart .. | .bootDone | .imageAuthenticated | .loadDone | .supplyLost .. | .holdEntry |
    .snapFail | .holdDone | .holdupExhausted | .holdupCapMeasure .. | .holdupCharged | .kaLow .. | .thymeStop | .halfLost .. |
    .halfRestart .. | .halfReadmit .. | .scrubLate .. | .nandRefresh .. | .headframeFault .. | .headframeWatchdogExpiry .. |
    .headframeRestart | .temp | .registerRead .. | .currentLimitEntry .. | .currentLimitExit .. | .sequencerTick |
    .configurationWrite .. | .perstDeassertion | .sagePassStart | .holdFaultEnd | .ppsOutRise | .ppsOutFall |
    .pdelayReqSend .. | .pdelayRespReceive .. => true

end Sys2Proof
end

