-- ==== Sys2Proof/Machine/Dispatch.lean ====
section
/-! DEFINITION. The meaning of every command: one arm per constructor, each one call. -/
namespace Sys2Proof.Machine

def exec (i : Instr) (s : State) : Host.Outcome State Fault Refusal :=
  match i with
  | .registerWrite req acc data ring => Sys2Proof.Machine.execRegisterWrite req acc data ring s
  | .dataSetWrite req acc data ring => Sys2Proof.Machine.execDataSetWrite req acc data ring s
  | .dataClrWrite req acc data ring => Sys2Proof.Machine.execDataClrWrite req acc data ring s
  | .dataTglWrite req acc data ring => Sys2Proof.Machine.execDataTglWrite req acc data ring s
  | .statusReadClear req acc => Sys2Proof.Machine.execStatusReadClear req acc s
  | .pairLoRead req acc => Sys2Proof.Machine.execPairLoRead req acc s
  | .pairHiRead req acc => Sys2Proof.Machine.execPairHiRead req acc s
  | .pairLoWrite req addr data => Sys2Proof.Machine.execPairLoWrite req addr data s
  | .pairHiWrite req addr data => Sys2Proof.Machine.execPairHiWrite req addr data s
  | .pair64Write req addr data => Sys2Proof.Machine.execPair64Write req addr data s
  | .lumpSend skip src pclass index len body => Sys2Proof.Machine.execLumpSend skip src pclass index len body s
  | .bulkStallRetry skip src => Sys2Proof.Machine.execBulkStallRetry skip src s
  | .lumpReceive skip => Sys2Proof.Machine.execLumpReceive skip s
  | .creditReturn skip => Sys2Proof.Machine.execCreditReturn skip s
  | .tcxoGate diff => Sys2Proof.Machine.execTcxoGate diff s
  | .tcxoALost => Sys2Proof.Machine.execTcxoALost s
  | .tcxoBLost => Sys2Proof.Machine.execTcxoBLost s
  | .clkSnapshot req data => Sys2Proof.Machine.execClkSnapshot req data s
  | .angleConversion req data => Sys2Proof.Machine.execAngleConversion req data s
  | .timemark => Sys2Proof.Machine.execTimemark s
  | .angFreewheel n c => Sys2Proof.Machine.execAngFreewheel n c s
  | .angQualifyFail n => Sys2Proof.Machine.execAngQualifyFail n s
  | .angQualified n freq => Sys2Proof.Machine.execAngQualified n freq s
  | .angLocked n freq phase => Sys2Proof.Machine.execAngLocked n freq phase s
  | .rawBlockBoundary c codes => Sys2Proof.Machine.execRawBlockBoundary c codes s
  | .bgcUpdate c ofs gain skew => Sys2Proof.Machine.execBgcUpdate c ofs gain skew s
  | .selfCalibrationStart h => Sys2Proof.Machine.execSelfCalibrationStart h s
  | .selfCalibrationEnd h fail => Sys2Proof.Machine.execSelfCalibrationEnd h fail s
  | .refinQualified ratio => Sys2Proof.Machine.execRefinQualified ratio s
  | .refinQualifyTimeout => Sys2Proof.Machine.execRefinQualifyTimeout s
  | .refinRetry => Sys2Proof.Machine.execRefinRetry s
  | .refinOutOfRange => Sys2Proof.Machine.execRefinOutOfRange s
  | .auxStart => Sys2Proof.Machine.execAuxStart s
  | .auxSlotDone conv => Sys2Proof.Machine.execAuxSlotDone conv s
  | .auxGapEnd => Sys2Proof.Machine.execAuxGapEnd s
  | .auxRefSettled => Sys2Proof.Machine.execAuxRefSettled s
  | .auxRefTimeout => Sys2Proof.Machine.execAuxRefTimeout s
  | .auxUrgentRequest req data => Sys2Proof.Machine.execAuxUrgentRequest req data s
  | .auxUrgentDone conv => Sys2Proof.Machine.execAuxUrgentDone conv s
  | .decimatedSample c => Sys2Proof.Machine.execDecimatedSample c s
  | .angleTapSample c => Sys2Proof.Machine.execAngleTapSample c s
  | .fixedRateInstant => Sys2Proof.Machine.execFixedRateInstant s
  | .fltLumpSend h clock => Sys2Proof.Machine.execFltLumpSend h clock s
  | .fltCoefCommit req data => Sys2Proof.Machine.execFltCoefCommit req data s
  | .fltSwapRequest req c data => Sys2Proof.Machine.execFltSwapRequest req c data s
  | .fadeEnd c => Sys2Proof.Machine.execFadeEnd c s
  | .fltResetCommand req data => Sys2Proof.Machine.execFltResetCommand req data s
  | .synchronisingReset c => Sys2Proof.Machine.execSynchronisingReset c s
  | .fastSettleEnd c => Sys2Proof.Machine.execFastSettleEnd c s
  | .svFrameReceive portB => Sys2Proof.Machine.execSvFrameReceive portB s
  | .svSampleMissing k => Sys2Proof.Machine.execSvSampleMissing k s
  | .svLumpSend k => Sys2Proof.Machine.execSvLumpSend k s
  | .sviSubscriptionCommit req k data => Sys2Proof.Machine.execSviSubscriptionCommit req k data s
  | .svidOctetWrite req data => Sys2Proof.Machine.execSvidOctetWrite req data s
  | .faceStep g cycles req => Sys2Proof.Machine.execFaceStep g cycles req s
  | .faceStepDeadline g cycles req => Sys2Proof.Machine.execFaceStepDeadline g cycles req s
  | .faceHalt g => Sys2Proof.Machine.execFaceHalt g s
  | .duplexRestart g => Sys2Proof.Machine.execDuplexRestart g s
  | .groupSwitchRequest g selector => Sys2Proof.Machine.execGroupSwitchRequest g selector s
  | .groupSwitchComplete => Sys2Proof.Machine.execGroupSwitchComplete s
  | .pointLatch req data => Sys2Proof.Machine.execPointLatch req data s
  | .cellDelayExpiry g cycles req => Sys2Proof.Machine.execCellDelayExpiry g cycles req s
  | .energyBooking node => Sys2Proof.Machine.execEnergyBooking node s
  | .balanceIntervalClose node => Sys2Proof.Machine.execBalanceIntervalClose node s
  | .balanceReportDelivery => Sys2Proof.Machine.execBalanceReportDelivery s
  | .balanceJudge node => Sys2Proof.Machine.execBalanceJudge node s
  | .twEventClose g => Sys2Proof.Machine.execTwEventClose g s
  | .farArrivalSubmit req data => Sys2Proof.Machine.execFarArrivalSubmit req data s
  | .farArrivalExpire g => Sys2Proof.Machine.execFarArrivalExpire g s
  | .twuGroupCommit req g data => Sys2Proof.Machine.execTwuGroupCommit req g data s
  | .downlinkFrame n => Sys2Proof.Machine.execDownlinkFrame n s
  | .downlinkReceive n err => Sys2Proof.Machine.execDownlinkReceive n err s
  | .cmdCfg n => Sys2Proof.Machine.execCmdCfg n s
  | .cmdInterrogate n => Sys2Proof.Machine.execCmdInterrogate n s
  | .cmdClear n => Sys2Proof.Machine.execCmdClear n s
  | .timedTransition n => Sys2Proof.Machine.execTimedTransition n s
  | .uplinkReceive n err => Sys2Proof.Machine.execUplinkReceive n err s
  | .fieldSideHold n => Sys2Proof.Machine.execFieldSideHold n s
  | .bankSilent n => Sys2Proof.Machine.execBankSilent n s
  | .inputFilterChange n p => Sys2Proof.Machine.execInputFilterChange n p s
  | .currentLimitLatch n p => Sys2Proof.Machine.execCurrentLimitLatch n p s
  | .limitEnergyReset n p => Sys2Proof.Machine.execLimitEnergyReset n p s
  | .outputRetry n p => Sys2Proof.Machine.execOutputRetry n p s
  | .eventCountReset n p => Sys2Proof.Machine.execEventCountReset n p s
  | .readbackMismatch n p => Sys2Proof.Machine.execReadbackMismatch n p s
  | .interrogationRequest req data => Sys2Proof.Machine.execInterrogationRequest req data s
  | .interrogationSweepDone n vfld => Sys2Proof.Machine.execInterrogationSweepDone n vfld s
  | .fieldSupplyWarning n below => Sys2Proof.Machine.execFieldSupplyWarning n below s
  | .fieldInputFail n below => Sys2Proof.Machine.execFieldInputFail n below s
  | .fieldUvOff n => Sys2Proof.Machine.execFieldUvOff n s
  | .uvOffRelease n => Sys2Proof.Machine.execUvOffRelease n s
  | .fieldSideReset n => Sys2Proof.Machine.execFieldSideReset n s
  | .fieldSideResetRelease n => Sys2Proof.Machine.execFieldSideResetRelease n s
  | .fieldOvertemp n on => Sys2Proof.Machine.execFieldOvertemp n on s
  | .barrierStart => Sys2Proof.Machine.execBarrierStart s
  | .canaryOperate e => Sys2Proof.Machine.execCanaryOperate e s
  | .canaryHoldExpire e => Sys2Proof.Machine.execCanaryHoldExpire e s
  | .powTransitionFix c => Sys2Proof.Machine.execPowTransitionFix c s
  | .fioClearCommit req data => Sys2Proof.Machine.execFioClearCommit req data s
  | .rawCrossingPresent h n => Sys2Proof.Machine.execRawCrossingPresent h n s
  | .sequencerTimerExpiry q k => Sys2Proof.Machine.execSequencerTimerExpiry q k s
  | .sequencerRun req q data => Sys2Proof.Machine.execSequencerRun req q data s
  | .sequencerRestart req q data => Sys2Proof.Machine.execSequencerRestart req q data s
  | .segmentCaptureEnd a full => Sys2Proof.Machine.execSegmentCaptureEnd a full s
  | .asyRidxWrite req a data => Sys2Proof.Machine.execAsyRidxWrite req a data s
  | .areaRestart req a data => Sys2Proof.Machine.execAreaRestart req a data s
  | .areaCommit req a data => Sys2Proof.Machine.execAreaCommit req a data s
  | .seqItemCommit req data => Sys2Proof.Machine.execSeqItemCommit req data s
  | .maskTestCommit req m data => Sys2Proof.Machine.execMaskTestCommit req m data s
  | .envelopeLimitCommit req data => Sys2Proof.Machine.execEnvelopeLimitCommit req data s
  | .trendIntervalEnd full => Sys2Proof.Machine.execTrendIntervalEnd full s
  | .trendChannelCommit req n data => Sys2Proof.Machine.execTrendChannelCommit req n data s
  | .headPps => Sys2Proof.Machine.execHeadPps s
  | .ppsEdgeReceive drift => Sys2Proof.Machine.execPpsEdgeReceive drift s
  | .probeSend => Sys2Proof.Machine.execProbeSend s
  | .probeReceive f => Sys2Proof.Machine.execProbeReceive f s
  | .echoReceive f rt => Sys2Proof.Machine.execEchoReceive f rt s
  | .adminReceive f => Sys2Proof.Machine.execAdminReceive f s
  | .linkDown => Sys2Proof.Machine.execLinkDown s
  | .triggerFrameReceive portD f => Sys2Proof.Machine.execTriggerFrameReceive portD f s
  | .recordArrival => Sys2Proof.Machine.execRecordArrival s
  | .recordRelease => Sys2Proof.Machine.execRecordRelease s
  | .channelFreeze req c data => Sys2Proof.Machine.execChannelFreeze req c data s
  | .channelUnfreeze req c data => Sys2Proof.Machine.execChannelUnfreeze req c data s
  | .strig req c data => Sys2Proof.Machine.execStrig req c data s
  | .nearStoreFail scrub addr => Sys2Proof.Machine.execNearStoreFail scrub addr s
  | .farStoreFail timeout addr => Sys2Proof.Machine.execFarStoreFail timeout addr s
  | .nearStoreOpen => Sys2Proof.Machine.execNearStoreOpen s
  | .farStoreReady => Sys2Proof.Machine.execFarStoreReady s
  | .farPageProgram c => Sys2Proof.Machine.execFarPageProgram c s
  | .opsecStore => Sys2Proof.Machine.execOpsecStore s
  | .tallyChannelCommit req c data => Sys2Proof.Machine.execTallyChannelCommit req c data s
  | .snapshotListCommit req c k data => Sys2Proof.Machine.execSnapshotListCommit req c k data s
  | .frameReceive p f => Sys2Proof.Machine.execFrameReceive p f s
  | .portLinkLoss p => Sys2Proof.Machine.execPortLinkLoss p s
  | .portLinkUp p => Sys2Proof.Machine.execPortLinkUp p s
  | .ptpSyncReceive p domain seq mac corr origin => Sys2Proof.Machine.execPtpSyncReceive p domain seq mac corr origin s
  | .ptpFollowUpReceive p domain seq origin corr => Sys2Proof.Machine.execPtpFollowUpReceive p domain seq origin corr s
  | .announceReceive p a => Sys2Proof.Machine.execAnnounceReceive p a s
  | .announceTimeout p => Sys2Proof.Machine.execAnnounceTimeout p s
  | .syncTimeout => Sys2Proof.Machine.execSyncTimeout s
  | .pdelayReqReceive p domain seq rx tx => Sys2Proof.Machine.execPdelayReqReceive p domain seq rx tx s
  | .launchDoorbell req k data descs => Sys2Proof.Machine.execLaunchDoorbell req k data descs s
  | .frameLaunch p => Sys2Proof.Machine.execFrameLaunch p s
  | .frameTransmitDone p stamp => Sys2Proof.Machine.execFrameTransmitDone p stamp s
  | .hostFrameReadDone p q desc => Sys2Proof.Machine.execHostFrameReadDone p q desc s
  | .hostReadFault p q frame => Sys2Proof.Machine.execHostReadFault p q frame s
  | .hostFrameLate p q => Sys2Proof.Machine.execHostFrameLate p q s
  | .launchQueueCommit req data => Sys2Proof.Machine.execLaunchQueueCommit req data s
  | .endpointReset k => Sys2Proof.Machine.execEndpointReset k s
  | .pcieLinkTrained speed x2 => Sys2Proof.Machine.execPcieLinkTrained speed x2 s
  | .bar2Read offset len => Sys2Proof.Machine.execBar2Read offset len s
  | .bar2Write => Sys2Proof.Machine.execBar2Write s
  | .msixMessage v => Sys2Proof.Machine.execMsixMessage v s
  | .moverCommit req m data => Sys2Proof.Machine.execMoverCommit req m data s
  | .moverDoorbell req m data => Sys2Proof.Machine.execMoverDoorbell req m data s
  | .descriptorReadDone m x => Sys2Proof.Machine.execDescriptorReadDone m x s
  | .moverError m => Sys2Proof.Machine.execMoverError m s
  | .bufferComplete m => Sys2Proof.Machine.execBufferComplete m s
  | .bufferTimeout m items => Sys2Proof.Machine.execBufferTimeout m items s
  | .blockQueueDoorbell req m data blocks => Sys2Proof.Machine.execBlockQueueDoorbell req m data blocks s
  | .submission req data => Sys2Proof.Machine.execSubmission req data s
  | .validationComplete => Sys2Proof.Machine.execValidationComplete s
  | .settingsCommit => Sys2Proof.Machine.execSettingsCommit s
  | .restep => Sys2Proof.Machine.execRestep s
  | .calSet => Sys2Proof.Machine.execCalSet s
  | .testout => Sys2Proof.Machine.execTestout s
  | .tlockClear => Sys2Proof.Machine.execTlockClear s
  | .loglossClear => Sys2Proof.Machine.execLoglossClear s
  | .keyEnrol => Sys2Proof.Machine.execKeyEnrol s
  | .keyRevoke => Sys2Proof.Machine.execKeyRevoke s
  | .rollbackRaise => Sys2Proof.Machine.execRollbackRaise s
  | .imagePref => Sys2Proof.Machine.execImagePref s
  | .reqCommission => Sys2Proof.Machine.execReqCommission s
  | .reqProtect => Sys2Proof.Machine.execReqProtect s
  | .reqResume => Sys2Proof.Machine.execReqResume s
  | .reqSafe => Sys2Proof.Machine.execReqSafe s
  | .reqRestart => Sys2Proof.Machine.execReqRestart s
  | .startmode => Sys2Proof.Machine.execStartmode s
  | .sageCompare errC errN errS => Sys2Proof.Machine.execSageCompare errC errN errS s
  | .tamperOpening elapsed => Sys2Proof.Machine.execTamperOpening elapsed s
  | .supplyValid elapsed => Sys2Proof.Machine.execSupplyValid elapsed s
  | .headframeRomStart straps => Sys2Proof.Machine.execHeadframeRomStart straps s
  | .bootDone => Sys2Proof.Machine.execBootDone s
  | .imageAuthenticated => Sys2Proof.Machine.execImageAuthenticated s
  | .loadDone => Sys2Proof.Machine.execLoadDone s
  | .supplyLost high low => Sys2Proof.Machine.execSupplyLost high low s
  | .holdEntry => Sys2Proof.Machine.execHoldEntry s
  | .snapFail => Sys2Proof.Machine.execSnapFail s
  | .holdDone => Sys2Proof.Machine.execHoldDone s
  | .holdupExhausted => Sys2Proof.Machine.execHoldupExhausted s
  | .holdupCapMeasure cap => Sys2Proof.Machine.execHoldupCapMeasure cap s
  | .holdupCharged => Sys2Proof.Machine.execHoldupCharged s
  | .kaLow low => Sys2Proof.Machine.execKaLow low s
  | .thymeStop => Sys2Proof.Machine.execThymeStop s
  | .halfLost h => Sys2Proof.Machine.execHalfLost h s
  | .halfRestart h => Sys2Proof.Machine.execHalfRestart h s
  | .halfReadmit h => Sys2Proof.Machine.execHalfReadmit h s
  | .scrubPassEnd r words => Sys2Proof.Machine.execScrubPassEnd r words s
  | .scrubLate r => Sys2Proof.Machine.execScrubLate r s
  | .nandRefresh slot addr corr pe rate => Sys2Proof.Machine.execNandRefresh slot addr corr pe rate s
  | .headframeFault poison pc => Sys2Proof.Machine.execHeadframeFault poison pc s
  | .headframeWatchdogExpiry pc => Sys2Proof.Machine.execHeadframeWatchdogExpiry pc s
  | .headframeRestart => Sys2Proof.Machine.execHeadframeRestart s
  | .temp => Sys2Proof.Machine.execTemp s
  | .registerRead req acc => Sys2Proof.Machine.execRegisterRead req acc s
  | .uplinkFrame n pins => Sys2Proof.Machine.execUplinkFrame n pins s
  | .currentLimitEntry n p => Sys2Proof.Machine.execCurrentLimitEntry n p s
  | .currentLimitExit n p => Sys2Proof.Machine.execCurrentLimitExit n p s
  | .sequencerTick => Sys2Proof.Machine.execSequencerTick s
  | .configurationWrite msixEn fmask d3 => Sys2Proof.Machine.execConfigurationWrite msixEn fmask d3 s
  | .perstDeassertion => Sys2Proof.Machine.execPerstDeassertion s
  | .sagePassStart => Sys2Proof.Machine.execSagePassStart s
  | .holdFaultEnd => Sys2Proof.Machine.execHoldFaultEnd s
  | .ppsOutRise => Sys2Proof.Machine.execPpsOutRise s
  | .ppsOutFall => Sys2Proof.Machine.execPpsOutFall s
  | .pdelayReqSend p tx => Sys2Proof.Machine.execPdelayReqSend p tx s
  | .pdelayRespReceive p domain seq rx turnaround => Sys2Proof.Machine.execPdelayRespReceive p domain seq rx turnaround s

end Sys2Proof.Machine
end

