-- ==== Sys2Proof/Safety.lean ====
section
/-!
DEFINITION. What a safe run is, and the words that claims are stated in: a command that completes, a write that passes the checks of R524,
the conservation of a skip's credits, the canonical form of the memories, and what may never be undone.
-/
namespace Sys2Proof.Machine

/-- The command completes: its step answers a next state whose device is `d` and whose queue is untouched. -/
def Gives (c : Instr) (s : State) (d : Dev) : Prop := exec c s = .next { s with dev := d }

/-- The part is not in OFF, in which only Thyme runs (R451). -/
def Dev.On (d : Dev) : Prop := d.mode ≠ .off

/-- Every command that waits is well-formed, so that no step of the queue can stop. -/
def State.Safe (s : State) : Prop := ∀ c ∈ s.pending, c.wf = true

/-- The mask and the payload of a control write (R32). -/
def ctlMask (data : Word) : Nat := bits data.toNat 16 16
/-- The payload of a control write (R32). -/
def ctlPayload (data : Word) : Nat := data.toNat % 65536

/-- A 32-bit write of a control register passes the checks of R524 in a part that is on, from a requester that runs: the window (R427), the locks (R55), a mask
that selects a bit (R32), values in range (R35). -/
def Dev.Accepts (d : Dev) (req : Requester) (r : Reg) (i : Nat) (data : Word) : Prop :=
  d.On ∧ d.reqUp req = true ∧ d.mayWrite req r i = true ∧ (r.desc.flds.any fun f => d.locked f && selects f.fld (ctlMask data)) = false ∧
    ctlMask data ≠ 0 ∧ d.valuesOk r i (ctlMask data) (ctlPayload data) = true

/-- The device with the selected fields of a simple control register taken over (R32). -/
def Dev.stored (d : Dev) (r : Reg) (i : Nat) (data : Word) : Dev := d.storeMasked r i (ctlMask data) (ctlPayload data)

/-- The device with a composite committed: the holding copy takes the selected fields of its commit register, and is applied whole (R34). -/
def Dev.committed (d : Dev) (r : Reg) (i : Nat) (data : Word) : Dev :=
  (d.holdMasked r i (ctlMask data) (ctlPayload data)).applyHeld r i

/-- The 32-bit write of a register at its own address. -/
def regWrite (req : Requester) (r : Reg) (i : Nat) (data : Word) : Instr :=
  .registerWrite req ⟨BitVec.ofNat 22 (r.addrOf i), 4, false⟩ (data.setWidth 64) {}

/-- Control registers that are settings alone: no composite, no write strobe, and a write makes their block do nothing else. -/
def Reg.setting (r : Reg) : Bool :=
  r.desc.cls == .control && r.desc.commit.isNone && r.desc.flds.all (fun f => f.acc == .rw) &&
    !([Reg.SYS_MBXGO, .HFR_GATE, .CLK_SNAP_CTL, .ANG_OFS, .AFE_REF, .AFE_BGC, .AUX_CTL, .AUX_GAP, .AUX_URG, .FLT_RESET, .FLT_CTL, .FLT_CHCTL, .FLT_SWAP,
      .SVI_SVIDWR, .SEAM_GRP, .ASY_SQCTL, .ASY_ARIDX, .TLY_FRZ, .FIO_INTG, .FIO_CLRMASK, .TLK_CTL].contains r)

/-- A running skip gives out exactly its capacity: what the producers may still send, what is on its way back and what it holds
(R13, R14, R17). -/
def Dev.CreditsBalance (d : Dev) (n : Nat) : Prop :=
  (d.skip n).st = .run → (d.skip n).credits + (d.skip n).returning.length + (d.skip n).depth = skipCap n

/-- The canonical form of every memory of the part: addresses rising, no zero byte listed. -/
def Dev.memoriesOk (d : Dev) : Bool := Memory.wf d.recMem && Memory.wf d.nv.near && Memory.wf d.nv.far

/-- Nothing that R431 and R432 make permanent is undone from `d` to `e`: blown revocation fuses stay blown and the rollback counter
does not fall. -/
def Dev.PermanentKept (d e : Dev) : Prop :=
  (∀ k, (d.keySlot k).revoked = true → (e.keySlot k).revoked = true) ∧ d.nv.rows.headD 0 ≤ e.nv.rows.headD 0

/-- The stores that only the recorder, the movers' sources, Headframe and the supply write: record memory, the near and the far store,
key slots, rollback rows, the Canary table. -/
def Dev.StoresKept (d e : Dev) : Prop :=
  e.recMem = d.recMem ∧ e.nv.near = d.nv.near ∧ e.nv.far = d.nv.far ∧ e.nv.keys = d.nv.keys ∧ e.nv.rows = d.nv.rows ∧
    e.nv.canary = d.nv.canary

end Sys2Proof.Machine

namespace Sys2Proof

/-- The commands that act in OFF: the supply's return, Thyme and its tamper loop, and the field sides, which have their own supply
(R285, R451). -/
def Instr.actsInOff : Instr → Bool
  | .thymeStop .. | .tamperOpening .. | .supplyValid .. | .timedTransition .. | .fieldSideHold .. | .currentLimitEntry ..
    | .currentLimitExit .. | .currentLimitLatch .. | .limitEnergyReset .. | .outputRetry .. | .eventCountReset .. | .readbackMismatch ..
    | .interrogationSweepDone .. | .fieldSupplyWarning .. | .fieldInputFail .. | .fieldUvOff .. | .uvOffRelease .. | .fieldSideReset ..
    | .fieldSideResetRelease .. | .fieldOvertemp .. => true
  | _ => false

/-- The commands that can write the stores of `StoresKept`: every register access, the recorder's
events, what takes the captures' lumps, the requests that Headframe carries out, the supply and the scrubbers. -/
def Instr.touchesStores : Instr → Bool
  | .registerWrite .. | .dataSetWrite .. | .dataClrWrite .. | .dataTglWrite .. | .pairLoWrite .. | .pairHiWrite .. | .pair64Write ..
    | .lumpReceive .. | .clkSnapshot .. | .angleConversion .. | .auxUrgentRequest .. | .fltCoefCommit .. | .fltSwapRequest ..
    | .fltResetCommand .. | .sviSubscriptionCommit .. | .svidOctetWrite .. | .pointLatch .. | .farArrivalSubmit .. | .twuGroupCommit ..
    | .interrogationRequest .. | .fioClearCommit .. | .sequencerRun .. | .sequencerRestart .. | .asyRidxWrite ..
    | .areaRestart .. | .areaCommit .. | .seqItemCommit .. | .maskTestCommit .. | .envelopeLimitCommit ..
    | .trendChannelCommit .. | .recordArrival .. | .recordRelease .. | .channelFreeze .. | .channelUnfreeze .. | .strig ..
    | .nearStoreOpen .. | .nearStoreFail .. | .farStoreFail .. | .farStoreReady .. | .farPageProgram .. | .tallyChannelCommit ..
    | .snapshotListCommit .. | .launchDoorbell .. | .launchQueueCommit .. | .moverCommit .. | .moverDoorbell .. | .blockQueueDoorbell ..
    | .submission .. | .settingsCommit .. | .tlockClear .. | .keyEnrol .. | .keyRevoke .. | .rollbackRaise .. | .reqRestart ..
    | .supplyValid .. | .imageAuthenticated .. | .supplyLost .. | .holdEntry .. | .holdDone .. | .holdupExhausted .. | .scrubPassEnd ..
    | .holdFaultEnd .. => true
  | _ => false

end Sys2Proof
end

