-- ==== Sys2Proof/Certificates/Slice0/Obligations.lean ====
section
/-!
DEFINITION. The statements for the provers.  Each completion clause has the form `Gives c s d` or `there is e with Gives c s e and …`
(`Gives` of Safety.lean: `exec c s` answers the next state with device `d`), under hypotheses on the state and the operands alone.
-/
open Sys2Proof Sys2Proof.Machine

/-! ### The block as a whole -/

/-- A step takes the command at the front of the queue and answers what `exec` answers on the queue's rest. -/
def Obligations.StepRunsTheFrontCommand : Prop :=
  ∀ (c : Instr) (rest : List Instr) (d : Dev), step ⟨d, c :: rest⟩ = exec c ⟨d, rest⟩

/-- The model's choice (log entry 1): where no command waits, a nanosecond passes.  The queue stays empty; the TSC of a part that is on
counts one, modulo 2⁶⁴ (R62), and OFF changes nothing. -/
def Obligations.EmptyQueueLetsANanosecondPass : Prop :=
  ∀ d : Dev, ∃ e, step ⟨d, []⟩ = .next ⟨e, []⟩ ∧ (d.mode = .off → e = d) ∧ (d.On → e.mode ≠ .off ∧ e.tsc = (d.tsc + 1) % 2 ^ 64)

/-- Reset: BOOT at TSC 0, every field at its value of R7 (entries that give no value are log entry 5's), every skip unused with no credit and
nothing held (R24), every angle clock freewheeling since BOOT (R83), every read shadow and holding copy 0 and every fresh flag clear
(R44), no queue; the memories are canonical, with nothing listed in them (log entry 6). -/
def Obligations.ResetIsEntryToBoot : Prop :=
  State.reset.pending = [] ∧ State.reset.dev.mode = .boot ∧ State.reset.dev.tsc = 0 ∧
  (∀ (f : Fld) (i : Nat), State.reset.dev.getF f i = f.reset i) ∧
  (∀ n, (State.reset.dev.skip n).st = .unused ∧ (State.reset.dev.skip n).credits = 0 ∧ (State.reset.dev.skip n).depth = 0) ∧
  (∀ n, (State.reset.dev.angle n).st = .freewheel ∧ (State.reset.dev.angle n).freewheels = true) ∧
  (∀ k, SMap.getD State.reset.dev.shadow k 0 = 0 ∧ SMap.getD State.reset.dev.fresh k false = false ∧
    SMap.getD State.reset.dev.wrHold k 0 = 0) ∧
  State.reset.dev.memoriesOk = true ∧
  ∀ a, State.reset.dev.recMem.read a = 0 ∧ State.reset.dev.nv.near.read a = 0 ∧ State.reset.dev.nv.far.read a = 0

/-- Every step, of every command in every mode and of an empty queue, keeps the canonical form of record memory, the near store and the
far store. -/
def Obligations.EveryStepKeepsMemoriesCanonical : Prop :=
  ∀ s t : State, s.dev.memoriesOk = true → step s = .next t → t.dev.memoriesOk = true

/-- Whatever the part does, a blown revocation fuse stays blown and the rollback counter does not fall (R431, R432). -/
def Obligations.EveryStepKeepsRevocationsAndRollback : Prop :=
  ∀ s t : State, step s = .next t → s.dev.PermanentKept t.dev

/-- A command stops exactly when its operands are ill-formed, always with the same fault; none is refused, and each command that runs leaves the
queue behind it as it was. -/
def Obligations.CommandsStopExactlyWhenIllFormed : Prop :=
  ∀ (c : Instr) (s : State),
    (c.wf = true → ∃ t, exec c s = .next t ∧ t.pending = s.pending) ∧
    (c.wf = false → exec c s = .fault .illFormed)

/-- In OFF only Thyme runs (R451): apart from the return of the supply, a stop of Thyme, the tamper loop and the field sides, which
have their own supply (`Instr.actsInOff` names the rows), a command changes nothing. -/
def Obligations.OnlySupplyAndFieldSideActInOff : Prop :=
  ∀ (c : Instr) (s t : State), s.dev.mode = .off → exec c s = .next t → c.actsInOff = false → t = s

/-- The commands that are no register access, no request to Headframe and no event of the recorder, the movers' buffers, captures, the supply or the
scrubbers leave the stores alone: record memory, near and far store, keys, rollback rows, Canary table, and the TSC. -/
def Obligations.OtherCommandsLeaveTheStoresAlone : Prop :=
  ∀ (c : Instr) (s t : State), c.touchesStores = false → exec c s = .next t → s.dev.StoresKept t.dev ∧ t.dev.tsc = s.dev.tsc

/-! ### Registers (R26 to R59) -/

/-- R32 on the control registers that are settings alone: each selected bit takes the written bit, each other bit stays, and nothing else changes; a
write whose upper half is 0 changes nothing. -/
def Obligations.ControlWriteTakesTheSelectedBits : Prop :=
  ∀ (s : State) (req : Requester) (acc : Access) (r : Reg) (i : Nat) (data : Dword) (ring : Ring),
    accessShape acc = .ok → acc.size = 4 → mapped acc.addr.toNat = some (.primary, r, i) →
    (r.setting = true → s.dev.Accepts req r i (data.setWidth 32) →
      ∃ d, Gives (.registerWrite req acc data ring) s d ∧ d = { s.dev with regs := d.regs } ∧
        (∀ f ∈ r.desc.flds, ∀ k < f.fld.len, (d.getF f.fld i).testBit k =
          if data.getLsbD (16 + f.fld.lo + k) then data.getLsbD (f.fld.lo + k) else (s.dev.getF f.fld i).testBit k) ∧
        (∀ (g : Fld) (j : Nat), g.lo < 64 → g.reg ≠ r ∨ j ≠ i → d.getF g j = s.dev.getF g j)) ∧
    (r.desc.cls = .control → s.dev.On → s.dev.mayWrite req r i = true → data.toNat / 2 ^ 16 % 2 ^ 16 = 0 →
      Gives (.registerWrite req acc data ring) s s.dev)

/-- R34: a write of a register of a composite that is not its commit register changes the holding copy alone; every register reads as before. -/
def Obligations.CompositeWritesWaitForTheirCommit : Prop :=
  ∀ (s : State) (req : Requester) (acc : Access) (r c : Reg) (i : Nat) (data : Dword) (ring : Ring),
    accessShape acc = .ok → acc.size = 4 → mapped acc.addr.toNat = some (.primary, r, i) → r.desc.cls = .control →
    r.desc.commit = some c → c ≠ r → s.dev.Accepts req r i (data.setWidth 32) →
      ∃ d, Gives (.registerWrite req acc data ring) s d ∧ d = { s.dev with holding := d.holding } ∧
        (∀ f ∈ r.desc.flds, f.acc = .rw → ∀ k < f.fld.len, (d.held f.fld i).testBit k =
          if data.getLsbD (16 + f.fld.lo + k) then data.getLsbD (f.fld.lo + k) else (s.dev.held f.fld i).testBit k)

/-- R37: through the SET, CLR and TGL aliases a written 1 sets, clears or inverts a bit and a written 0 leaves it; through the primary
address a bit takes the written bit.  Fields that are not RW, and everything else, stay; a write of SEAM_HINw is noted with the steps that are to see it
(R183). -/
def Obligations.DataWritesSetClearAndToggle : Prop :=
  ∀ (s : State) (req : Requester) (acc : Access) (r : Reg) (i : Nat) (data : Dword) (ring : Ring) (g : BusRegion),
    accessShape acc = .ok → acc.size = 4 → mapped acc.addr.toNat = some (g, r, i) → g ≠ .peek → r.desc.cls = .data →
    r ≠ .NET_LQTAIL → r ≠ .DMA_MVTAIL → r ≠ .DMA_BQTAIL → s.dev.On → s.dev.reqUp req = true → s.dev.mayWrite req r i = true →
      ∃ d, Gives (match g with
          | .set => .dataSetWrite req acc data ring
          | .clr => .dataClrWrite req acc data ring
          | .tgl => .dataTglWrite req acc data ring
          | _ => .registerWrite req acc data ring) s d ∧
        d = { s.dev with regs := d.regs, seam := d.seam } ∧ (r ≠ .SEAM_HIN → d.seam = s.dev.seam) ∧
        (∀ f ∈ r.desc.flds, f.acc = .rw → ∀ k < f.fld.len,
          let old := (s.dev.getF f.fld (r.indexFor i req.slot)).testBit k
          let w := data.getLsbD (f.fld.lo + k)
          (d.getF f.fld (r.indexFor i req.slot)).testBit k =
            match g with
            | .set => old || w
            | .clr => old && !w
            | .tgl => old ^^ w
            | _ => w) ∧
        (∀ (h : Fld) (j : Nat), h.lo < 64 → (∀ f ∈ r.desc.flds, f.acc = .rw → h.reg ≠ r ∨ h.lo ≠ f.fld.lo ∨ j ≠ r.indexFor i req.slot) →
          d.getF h j = s.dev.getF h j)

/-- R39: a primary read of a whole status register answers its value, and each RC field then holds its clear value, 0, or the skip's depth in
SKIP_HWMn; every other field stays.  A read of any other whole register through the peek region changes nothing (R28). -/
def Obligations.StatusReadsAnswerThenClear : Prop :=
  ∀ (s : State) (req : Requester) (acc : Access) (r : Reg) (i : Nat),
    accessShape acc = .ok → acc.size = 4 → s.dev.On → s.dev.reqUp req = true →
    (mapped acc.addr.toNat = some (.primary, r, i) → r.desc.cls = .status → r.desc.perReq = false →
      ∃ d, Gives (.statusReadClear req acc) s d ∧
        d = { s.dev with
              regs := d.regs
              completions := s.dev.completions ++ [⟨req, BitVec.ofNat 64 (s.dev.regValue r i % 2 ^ 32), false⟩] } ∧
        (∀ f ∈ r.desc.flds, f.acc = .rcf ∨ f.acc = .rcv →
          d.getF f.fld i % 2 ^ f.fld.len = if r = .SKIP_HWM then (s.dev.skip i).depth % 2 ^ f.fld.len else 0) ∧
        (∀ (h : Fld) (j : Nat), h.lo < 64 →
          (∀ f ∈ r.desc.flds, f.acc = .rcf ∨ f.acc = .rcv → h.reg ≠ r ∨ h.lo ≠ f.fld.lo ∨ j ≠ i) → d.getF h j = s.dev.getF h j)) ∧
    (mapped acc.addr.toNat = some (.peek, r, i) → r.desc.cls ≠ .pair →
      Gives (.registerRead req acc) s
        { s.dev with
          completions := s.dev.completions ++
            [⟨req, BitVec.ofNat 64 (s.dev.regValue r (r.indexFor i req.slot) % 2 ^ 32), false⟩] })

/-- R45 and R46: a 32-bit read of LO answers the live LO and keeps the live HI for its requester; the requester's next read of HI answers that HI,
whatever has happened to the pair in between, without TEAR, and one that no read of LO came before sets TEAR. -/
def Obligations.PairReadsAreCoherent : Prop :=
  ∀ (s : State) (req : Requester) (lo hi : Access) (r : Reg) (i : Nat),
    accessShape lo = .ok → lo.size = 4 → mapped lo.addr.toNat = some (.primary, r, i) → lo.addr.toNat % 8 = 0 →
    accessShape hi = .ok → hi.size = 4 → mapped hi.addr.toNat = some (.primary, r, i) → hi.addr.toNat % 8 = 4 →
    r.desc.cls = .pair → s.dev.On → s.dev.reqUp req = true →
    let k := pairKey r i req.slot
    let v := s.dev.regValue r (r.indexFor i req.slot)
    Gives (.pairLoRead req lo) s
      { s.dev with
        shadow := SMap.set s.dev.shadow k (v / 2 ^ 32)
        fresh := SMap.set s.dev.fresh k true
        completions := s.dev.completions ++ [⟨req, BitVec.ofNat 64 (v % 2 ^ 32), false⟩] } ∧
    (∀ sh, SMap.getD s.dev.shadow k 0 = sh →
      ∃ d, Gives (.pairHiRead req hi) s d ∧ d.completions = s.dev.completions ++ [⟨req, BitVec.ofNat 64 (sh % 2 ^ 32), false⟩] ∧
        SMap.getD d.shadow k 0 = sh ∧ SMap.getD d.fresh k false = false ∧
        d = { s.dev with regs := d.regs, fresh := d.fresh, completions := d.completions } ∧
        (SMap.getD s.dev.fresh k false = true → d.regs = s.dev.regs) ∧
        (SMap.getD s.dev.fresh k false = false → d.regs = (s.dev.tear r i).regs))

/-- R48: a 32-bit write of LO goes to the requester's holding copy; a write of HI applies that copy and the written word in one step, and sets TEAR
where no write of LO came before; a 64-bit write applies both halves and leaves the holding copy.  Said of TWU_FARCAL, whose value is used by its
doorbell alone; CLK_CONVA and SEAM_PADDR have statements of their own. -/
def Obligations.PairWritesApplyBothHalves : Prop :=
  ∀ (s : State) (req : Requester) (addr : BitVec 22) (i : Nat) (data : Word) (both : Dword),
    mapped addr.toNat = some (.primary, .TWU_FARCAL, i) → s.dev.On → s.dev.reqUp req = true → s.dev.mayWrite req .TWU_FARCAL i = true →
    let k := pairKey .TWU_FARCAL i req.slot
    let ix := Reg.TWU_FARCAL.indexFor i req.slot
    (addr.toNat % 8 = 0 → Gives (.pairLoWrite req addr data) s
      { s.dev with wrHold := SMap.set s.dev.wrHold k data.toNat, wrFresh := SMap.set s.dev.wrFresh k true }) ∧
    (addr.toNat % 8 = 4 → ∃ d, Gives (.pairHiWrite req addr data) s d ∧
      d.getF F.TWU_FARCAL_CAL ix = (SMap.getD s.dev.wrHold k 0 + 2 ^ 32 * data.toNat) % 2 ^ F.TWU_FARCAL_CAL.len ∧
      SMap.getD d.wrFresh k false = false ∧ d = { s.dev with regs := d.regs, wrFresh := d.wrFresh } ∧
      (SMap.getD s.dev.wrFresh k false = false → d.bitF F.BLK_TEAR_TEAR 9 (Reg.TWU_FARCAL.desc.tear) = true)) ∧
    (addr.toNat % 8 = 0 → Gives (.pair64Write req addr both) s (s.dev.setF F.TWU_FARCAL_CAL ix (both.toNat % 2 ^ F.TWU_FARCAL_CAL.len)))

/-- R56: a write outside its requester's window is ignored whole; LOCK_VIOL is set, the violation counted, and no register but those of the
record's way to Tally changes. -/
def Obligations.WindowViolationsAreCountedAndIgnored : Prop :=
  ∀ (s : State) (req : Requester) (acc : Access) (r : Reg) (i : Nat) (data : Dword) (ring : Ring) (g : BusRegion),
    accessShape acc = .ok → acc.size = 4 → mapped acc.addr.toNat = some (g, r, i) → g ≠ .peek → s.dev.On →
    s.dev.reqUp req = true → s.dev.mayWrite req r i = false →
      ∃ d, Gives (.registerWrite req acc data ring) s d ∧ d.getB F.TRB_STICKY0_LOCK_VIOL = true ∧
        d.getF F.TRB_LOCK_CNT_CNT = min (s.dev.getF F.TRB_LOCK_CNT_CNT + 1) (2 ^ 32 - 1) ∧ d.mode = s.dev.mode ∧ d.holding = s.dev.holding ∧
        (∀ (f : Fld) (j : Nat), f.lo < 64 → f.reg ∉ [Reg.TRB_STICKY0, .TRB_LOCK_CNT, .DMA_PBA, .SKIP_HWM, .SKIP_STALL] →
          d.getF f j = s.dev.getF f j)

/-- R30: a write to the peek region changes nothing, sets no trouble bit and needs no window. -/
def Obligations.PeekWritesAreIgnored : Prop :=
  ∀ (s : State) (req : Requester) (acc : Access) (r : Reg) (i : Nat) (data : Dword) (ring : Ring),
    accessShape acc = .ok → mapped acc.addr.toNat = some (.peek, r, i) →
    (acc.size = 8 → r.desc.cls = .pair ∨ ∃ q j, mapped (acc.addr.toNat + 4) = some (.peek, q, j)) →
    Gives (.registerWrite req acc data ring) s s.dev

/-- The rows that are writes of one register are the 32-bit write of that register at its own address, and the pair rows the 64-bit write (R524). -/
def Obligations.RegisterRowsAreWritesOfTheirRegister : Prop :=
  ∀ (s : State) (req : Requester) (data : Word) (both : Dword),
    exec (.clkSnapshot req data) s = exec (regWrite req .CLK_SNAP_CTL 0 data) s ∧
    exec (.auxUrgentRequest req data) s = exec (regWrite req .AUX_URG 0 data) s ∧
    exec (.fltCoefCommit req data) s = exec (regWrite req .FLT_CWHI 0 data) s ∧
    exec (.fltResetCommand req data) s = exec (regWrite req .FLT_RESET 0 data) s ∧
    exec (.svidOctetWrite req data) s = exec (regWrite req .SVI_SVIDWR 0 data) s ∧
    exec (.farArrivalSubmit req data) s = exec (regWrite req .TWU_FARGO 0 data) s ∧
    exec (.interrogationRequest req data) s = exec (regWrite req .FIO_INTG 0 data) s ∧
    exec (.fioClearCommit req data) s = exec (regWrite req .FIO_CLRMASK 0 data) s ∧
    exec (.seqItemCommit req data) s = exec (regWrite req .ASY_SQW3 0 data) s ∧
    exec (.envelopeLimitCommit req data) s = exec (regWrite req .ASY_ENVHI 0 data) s ∧
    exec (.launchQueueCommit req data) s = exec (regWrite req .NET_LQCFG 0 data) s ∧
    exec (.submission req data) s = exec (regWrite req .SYS_MBXGO 0 data) s ∧
    (∀ c : Fin 16, exec (.fltSwapRequest req c data) s = exec (regWrite req .FLT_SWAP c data) s) ∧
    (∀ i : Fin 128, exec (.sviSubscriptionCommit req i data) s = exec (regWrite req .SVI_SUBCTL i data) s) ∧
    (∀ g : Fin 4, exec (.twuGroupCommit req g data) s = exec (regWrite req .TWU_GCTL g data) s) ∧
    (∀ q : Fin 8, exec (.sequencerRun req q data) s = exec (regWrite req .ASY_SQCTL q data) s ∧
      exec (.sequencerRestart req q data) s = exec (regWrite req .ASY_SQCTL q data) s ∧
      exec (.asyRidxWrite req q data) s = exec (regWrite req .ASY_ARIDX q data) s ∧
      exec (.areaRestart req q data) s = exec (regWrite req .ASY_ACTL q data) s ∧
      exec (.areaCommit req q data) s = exec (regWrite req .ASY_ACTL q data) s ∧
      exec (.maskTestCommit req q data) s = exec (regWrite req .ASY_MKCTL q data) s ∧
      exec (.channelFreeze req q data) s = exec (regWrite req .TLY_FRZ q data) s ∧
      exec (.channelUnfreeze req q data) s = exec (regWrite req .TLY_FRZ q data) s ∧
      exec (.strig req q data) s = exec (regWrite req .TLY_FRZ q data) s ∧
      exec (.tallyChannelCommit req q data) s = exec (regWrite req .TLY_CHCTL q data) s ∧
      exec (.moverCommit req q data) s = exec (regWrite req .DMA_MVCTL q data) s ∧
      exec (.moverDoorbell req q data) s = exec (regWrite req .DMA_MVTAIL q data) s) ∧
    (∀ n : Fin 32, exec (.trendChannelCommit req n data) s = exec (regWrite req .ASY_TCTL n data) s) ∧
    (∀ (c : Fin 8) (i : Fin 16), exec (.snapshotListCommit req c i data) s = exec (regWrite req .TLY_SNHI (16 * c.val + i.val) data) s) ∧
    exec (.angleConversion req both) s = exec (.registerWrite req ⟨BitVec.ofNat 22 (Reg.CLK_CONVA.addrOf 0), 8, false⟩ both {}) s ∧
    exec (.pointLatch req both) s = exec (.registerWrite req ⟨BitVec.ofNat 22 (Reg.SEAM_PADDR.addrOf 0), 8, false⟩ both {}) s

/-! ### Skips (R13 to R25) -/

/-- R13, R14, R15, R18: a lump that a producer with power sends and the skip admits takes one credit and joins the skip's end with its tag, a bulk lump only
where its turn comes before that of every lump held back.  No other skip changes, of the registers the high-water mark alone, and of the rest the turn
of the movers on skip 30 (R421). -/
def Obligations.AdmittedLumpsTakeOneCredit : Prop :=
  ∀ (s : State) (n : Fin 32) (src : BitVec 12) (p : Bool) (index : Option Nat) (len : Fin 9) (body : LumpBody),
    s.dev.On → s.dev.srcOff src.toNat = false → (s.dev.skip n).st = .run → (n = 29 → ∀ r, body ≠ .record r) →
    (if skipBulk n then (s.dev.skip n).admits n false = true ∧ ∀ l ∈ (s.dev.skip n).waiting, s.dev.before n src.toNat l.tag.src = true
      else (s.dev.skip n).admits n (p && skipProt n) = true) →
    let q := (s.dev.skip n).prod src.toNat
    ∃ d, Gives (.lumpSend n src p index len body) s d ∧
      (d.skip n).queue = (s.dev.skip n).queue ++
        [⟨⟨BitVec.ofNat 8 (index.getD q.seq), q.gap, (if skipBulk n then false else p) && skipProt n, if q.gap then q.lost else 0, len, src.toNat⟩, body, s.dev.tsc⟩] ∧
      (d.skip n).credits + 1 = (s.dev.skip n).credits ∧ (d.skip n).returning = (s.dev.skip n).returning ∧ (d.skip n).st = .run ∧
      (∀ m, m ≠ n.val → d.skip m = s.dev.skip m) ∧ d = { s.dev with skips := d.skips, regs := d.regs, pcie := d.pcie } ∧ (n ≠ 30 → d.pcie = s.dev.pcie) ∧
      (∀ (f : Fld) (j : Nat), f.lo < 64 → f.reg ≠ .SKIP_HWM ∨ j ≠ n.val → d.getF f j = s.dev.getF f j)

/-- R13, R15, R18: a bulk producer's retry sends the lump it holds back where no other's turn comes first; a returned credit reaches the producers; the
consumer's taking of the oldest lump puts its credit on its way, with at most four on it, and the consumer then acts on that lump. -/
def Obligations.RetryReceiveAndCreditReturnMoveOneLump : Prop :=
  ∀ (s : State) (n : Fin 32) (src : BitVec 12), n ≠ 29 → s.dev.On → (s.dev.skip n).st = .run →
    (∀ l, (s.dev.skip n).waiting.find? (fun x => x.tag.src = src.toNat) = some l → (s.dev.skip n).admits n false = true →
      (∀ x ∈ (s.dev.skip n).waiting, x.tag.src = src.toNat ∨ s.dev.before n src.toNat x.tag.src = true) →
      ∃ d, Gives (.bulkStallRetry n src) s d ∧ (d.skip n).waiting = (s.dev.skip n).waiting.erase l ∧
        (d.skip n).queue.map (fun x => x.body) = (s.dev.skip n).queue.map (fun x => x.body) ++ [l.body] ∧
        (d.skip n).credits + 1 = (s.dev.skip n).credits ∧ ∀ m, m ≠ n.val → d.skip m = s.dev.skip m) ∧
    (∀ c cs, (s.dev.skip n).returning = c :: cs →
      Gives (.creditReturn n) s (s.dev.setSkip n { s.dev.skip n with returning := cs, credits := (s.dev.skip n).credits + 1 })) ∧
    (∀ l q, (s.dev.skip n).queue = l :: q →
      let k := s.dev.skip n
      let r := k.returning ++ [l.tag.pclass]
      Gives (.lumpReceive n) s
        ((s.dev.setSkip n (if k.returning.length < 4 then { k with queue := q, returning := r }
          else { k with queue := q, returning := r.tail, credits := k.credits + 1 })).consume n l))

/-- A running skip keeps its balance of R13, R14 and R17 whatever its producers send, hold back, retry or lose and whatever credits return: credits,
credits on their way and lumps held make its capacity. -/
def Obligations.CreditsStayBalanced : Prop :=
  ∀ (s t : State) (c : Instr) (m : Nat),
    (∃ n src p index len body, c = .lumpSend n src p index len body) ∨ (∃ n src, c = .bulkStallRetry n src) ∨ (∃ n, c = .creditReturn n) →
    s.dev.CreditsBalance m → exec c s = .next t → t.dev.CreditsBalance m

/-- R19: a stream lump of a producer with power that finds no credit is dropped: the stall and drop counters count it, its bit of SKIP_EXH and the trouble
bit are set, the skip holds what it held, and the producer's next lump will carry GAP and the loss; after an outage the loss stays 0 (R22). -/
def Obligations.ExhaustedStreamSkipsDropAndReport : Prop :=
  ∀ (s : State) (n : Fin 32) (src : BitVec 12) (p : Bool) (index : Option Nat) (len : Fin 9) (body : LumpBody),
    s.dev.On → s.dev.srcOff src.toNat = false → n.val < 6 → (s.dev.skip n).st = .run → (s.dev.skip n).admits n false = false →
    ∃ d, Gives (.lumpSend n src p index len body) s d ∧
      d.getF F.SKIP_STALL_STALL n = min (s.dev.getF F.SKIP_STALL_STALL n + 1) (2 ^ F.SKIP_STALL_STALL.len - 1) ∧
      d.getF F.SKIP_DROP_DROP n = min (s.dev.getF F.SKIP_DROP_DROP n + 1) (2 ^ F.SKIP_DROP_DROP.len - 1) ∧
      d.bitF F.SKIP_EXH_EXH 0 n = true ∧ d.getB F.TRB_STICKY0_SKIP_STREAM = true ∧ d.mode = s.dev.mode ∧
      (d.skip n).queue = (s.dev.skip n).queue ∧ (d.skip n).credits = (s.dev.skip n).credits ∧
      ((d.skip n).prod src.toNat).gap = true ∧
      ((d.skip n).prod src.toNat).lost =
        if ((s.dev.skip n).prod src.toNat).back then 0 else min (((s.dev.skip n).prod src.toNat).lost + 1) 63

/-! ### Timebase, calendar and angle clocks (R62 to R88) -/

/-- R63: at the end of a 1 s gate the disagreement is placed in DIFF and judged while both oscillators run: the second gate in a row beyond 2 ppm, and each
further one, sets MISMATCH and the trouble bit; the second in a row within 2 ppm clears MISMATCH; each change of MISMATCH requests a record. -/
def Obligations.TcxoGatesSetAndClearMismatch : Prop :=
  ∀ (s : State) (diff : BitVec 16), s.dev.On → s.dev.clk.aStopped = false → s.dev.clk.bStopped = false →
    s.dev.tsc % 1000000000 = 0 → s.dev.clk.gate < s.dev.tsc →
    let d := { s.dev with clk := { s.dev.clk with gate := s.dev.tsc } }.setF F.CLK_TCXO_DIFF 0 diff.toNat
    let bad : Dev := { d with clk := { d.clk with badGates := d.clk.badGates + 1, goodGates := 0 } }
    let good : Dev := { d with clk := { d.clk with goodGates := d.clk.goodGates + 1, badGates := 0 } }
    let set := (bad.setF F.CLK_TCXO_MISMATCH 0 1).trouble F.TRB_STICKY0_TCXO_DIFF
    (2000 < diff.toInt.natAbs → s.dev.clk.badGates = 0 → Gives (.tcxoGate diff) s bad) ∧
    (2000 < diff.toInt.natAbs → 1 ≤ s.dev.clk.badGates → s.dev.getB F.CLK_TCXO_MISMATCH = true → Gives (.tcxoGate diff) s set) ∧
    (2000 < diff.toInt.natAbs → 1 ≤ s.dev.clk.badGates → s.dev.getB F.CLK_TCXO_MISMATCH = false →
      Gives (.tcxoGate diff) s (set.tcxoRecord 0)) ∧
    (diff.toInt.natAbs ≤ 2000 → s.dev.clk.goodGates = 0 ∨ s.dev.getB F.CLK_TCXO_MISMATCH = false → Gives (.tcxoGate diff) s good) ∧
    (diff.toInt.natAbs ≤ 2000 → 1 ≤ s.dev.clk.goodGates → s.dev.getB F.CLK_TCXO_MISMATCH = true →
      Gives (.tcxoGate diff) s ((good.setF F.CLK_TCXO_MISMATCH 0 0).tcxoRecord 1))

/-- R64: the loss of one oscillator while the other runs sets its flag and the trouble bit, requests a record, makes TCXO B the active one where A is lost, and
does nothing else; the loss of the second shows both as lost with BACKUP, enters the failure area, and takes every mode but HOLD and SAFE to SAFE with
cause 0x0032. -/
def Obligations.TcxoLossSwitchesThenEntersSafe : Prop :=
  ∀ s : State, s.dev.On →
    let a := ({ s.dev with clk := { s.dev.clk with aStopped := true } }.setF F.CLK_TCXO_A_LOST 0 1).trouble F.TRB_STICKY0_TCXO_LOST
    let b := ({ s.dev with clk := { s.dev.clk with bStopped := true } }.setF F.CLK_TCXO_B_LOST 0 1).trouble F.TRB_STICKY0_TCXO_LOST
    let backup (d : Dev) : Dev :=
      (((d.setF F.CLK_TCXO_A_LOST 0 1).setF F.CLK_TCXO_B_LOST 0 1).setF F.CLK_TCXO_BACKUP 0 1).farea 6 0x000 2 0
    (s.dev.clk.aStopped = false → s.dev.clk.bStopped = false →
      Gives .tcxoALost s ((a.tcxoRecord 2).setF F.CLK_TCXO_ACTIVE 0 1) ∧ Gives .tcxoBLost s (b.tcxoRecord 3)) ∧
    (s.dev.clk.aStopped = false → s.dev.clk.bStopped = true →
      (s.dev.mode = .hold ∨ s.dev.mode = .safe → Gives .tcxoALost s (backup (a.tcxoRecord 2))) ∧
      (s.dev.mode ≠ .hold → s.dev.mode ≠ .safe →
        ∃ d, Gives .tcxoALost s d ∧ d = (backup (a.tcxoRecord 2)).enterSafe 0x0032 ∧ d.mode = .safe)) ∧
    (s.dev.clk.aStopped = true → s.dev.clk.bStopped = false →
      (s.dev.mode = .hold ∨ s.dev.mode = .safe → Gives .tcxoBLost s (backup (b.tcxoRecord 3))) ∧
      (s.dev.mode ≠ .hold → s.dev.mode ≠ .safe →
        ∃ d, Gives .tcxoBLost s d ∧ d = (backup (b.tcxoRecord 3)).enterSafe 0x0032 ∧ d.mode = .safe))

/-- R86, R87, R88: CLK_SNAP_CTL.SNAP latches TSC, CAL and the four angle clocks and numbers the snapshot; an angle time written to CLK_CONVA is
converted in its requester's slot; every 10 s the TIMEMARK record holds CAL, RATE, the state of CAL, and time, frequency and state of each clock at one TSC. -/
def Obligations.SnapshotsConversionsAndTimemarks : Prop :=
  ∀ (s : State) (req : Requester) (data : Word) (x : Dword), s.dev.On →
    (s.dev.Accepts req .CLK_SNAP_CTL 0 data → data.getLsbD 0 = true → data.getLsbD 16 = true →
      ∃ d, Gives (.clkSnapshot req data) s d ∧ d = { s.dev with regs := d.regs } ∧
        d.getF F.CLK_SNAP_TSC_TSC = s.dev.tsc % 2 ^ 64 ∧ d.getF F.CLK_SNAP_CAL_CAL = s.dev.cal % 2 ^ 64 ∧
        (∀ n : Fin 4, d.getF F.CLK_SNAP_ANG_ANG n = (s.dev.angle n).time ∧ d.getF F.CLK_SNAP_ANG_STATE n = (s.dev.angle n).st.code ∧
          d.getB F.CLK_SNAP_ANG_ALIGNED n = (s.dev.angle n).aligned) ∧
        d.getF F.CLK_SNAP_SEQ_SEQ = (s.dev.getF F.CLK_SNAP_SEQ_SEQ + 1) % 2 ^ F.CLK_SNAP_SEQ_SEQ.len ∧
        d.getF F.CLK_SNAP_SEQ_SRC = req.src % 2 ^ F.CLK_SNAP_SEQ_SRC.len) ∧
    (s.dev.reqUp req = true → s.dev.mayWrite req .CLK_CONVA 0 = true →
      let clock := x.toNat / 2 ^ F.CLK_CONVA_CLOCK.lo % 2 ^ F.CLK_CONVA_CLOCK.len
      let r := (s.dev.angle clock).convert s.dev.tsc (x.toNat % 2 ^ F.CLK_CONVA_ANG.len)
      ∃ d, Gives (.angleConversion req x) s d ∧ d = { s.dev with regs := d.regs } ∧
        d.getF F.CLK_CONVT_TSC req.slot = r.1 % 2 ^ 64 ∧ d.getF F.CLK_CONV_STAT_KIND req.slot = r.2 % 2 ^ F.CLK_CONV_STAT_KIND.len) ∧
    (s.dev.tsc % 10000000000 = 0 → s.dev.clk.mark < s.dev.tsc →
      Gives .timemark s ({ s.dev with clk := { s.dev.clk with mark := s.dev.tsc } }.record 0x0002 0x016
        ([(8, s.dev.cal), (4, unsgn 32 s.dev.calSeg.rate), (1, s.dev.calState)] ++ (List.range 4).flatMap fun n =>
          [(6, (s.dev.angle n).time), (4, (s.dev.angle n).freq), (1, (s.dev.angle n).st.code + 8 * (s.dev.angle n).aligned.toNat)])))

/-- R74 to R80, R526: a bound clock qualifies for one cycle of its reference, acquires and locks in that order.  At lock it takes the reference's frequency
within 40 Hz to 70 Hz, and what lies between its angle and φ + OFS becomes the correction, of at most half a turn; each advance of a locked clock turns time and
correction together so that angle and correction stay at φ + OFS, slews at most 364/65536 of its step, and never runs back.  A failed condition sends
QUALIFY and ACQUIRE back to FREEWHEEL with the old cause; a cause of loss sends a clock to FREEWHEEL with that cause, LOCKED at the reference's average
with no correction and with LOSS. -/
def Obligations.AngleClocksQualifyAcquireLockAndFreewheel : Prop :=
  (∀ (s : State) (n : Fin 4), s.dev.On →
    let a := s.dev.angle n
    let goes (c : Instr) (b : Ang) : Prop := ∃ d, Gives c s d ∧ d.angle n = b ∧ d.mode = s.dev.mode ∧ ∀ m, m ≠ n.val → d.angle m = s.dev.angle m
    (a.st = .qualify ∨ a.st = .acquire → goes (.angQualifyFail n) { a with st := .freewheel }) ∧
    (∀ freq : Word, a.st = .qualify → inRange freq.toNat = true → 65536000000000 ≤ (s.dev.tsc - a.since) * freq.toNat →
      goes (.angQualified n freq) { a with st := .acquire }) ∧
    (∀ (freq : Word) (phase : BitVec 16), a.st = .acquire → inRange freq.toNat = true →
      ∃ corr : Int, corr.natAbs ≤ 32768 * angUnit ∧
        ((a.acc : Int) + corr) % (65536 * angUnit : Nat) = ((phase.toNat + s.dev.getF F.ANG_OFS_OFS n) * angUnit : Nat) % (65536 * angUnit : Nat) ∧
        goes (.angLocked n freq phase) { a with
          st := .locked
          freq := freq.toNat
          frac := 0
          corr := corr
          ref := phase.toNat * angUnit
          refCycles := []
          entryBoot := false }) ∧
    (∀ c : AngCause, s.dev.getB F.ANG_CTL_BIND n = true →
      (c = .low → s.dev.getF F.ANG_VNOM_LO_VNOM_LO n + 65536 * s.dev.getF F.ANG_VNOM_HI_VNOM_HI n ≠ 0) →
      (a.st = .locked →
        goes (.angFreewheel n c) { a with
          st := .freewheel
          cause := c.code
          freq := max 2621440 (min a.average 4587520)
          frac := 0
          rocof := 0
          corr := 0
          entry := a.acc
          entryBoot := false } ∧
        ∃ d, Gives (.angFreewheel n c) s d ∧ d.bitF F.ANG_STAT_LOSS n 0 = true ∧ (c = .range → d.getB F.ANG_STAT_RANGE n = true) ∧
          (c = .slip → d.getB F.ANG_STAT_SLIP n = true)) ∧
      (a.st ≠ .locked → c ≠ .slip → goes (.angFreewheel n c) { a with st := .freewheel, cause := c.code }))) ∧
  ∀ (a : Ang) (rate tsc : Nat), a.st = .locked →
    let b := a.advance rate tsc
    (b.acc : Int) + b.corr - b.ref = a.acc + a.corr - a.ref ∧ a.acc ≤ b.acc ∧
      (b.corr - a.corr).natAbs * 65536 ≤ 364 * (b.ref - a.ref) ∧ 2621440 ≤ b.freq ∧ b.freq ≤ 4587520

/-! ### Analogue front end and auxiliary converter (R89 to R120) -/

/-- R90, R93, R97 to R103: at a block boundary of a released channel that is not dark, its codes are corrected by the factors of the slices that took them,
which leave a code as it is where they are 0 and the internal reference is in use; clipping is flagged, the block joins the window of R94 and goes to the
channel's three skips, the index advances by 1024, and the boundary's changes are applied, a chain whose channel goes dark being reset (R147); a dark channel
sends nothing; at its release boundary a channel starts on the next multiple of 1024 samples of its rate. -/
def Obligations.RawBlocksAreSentAtEveryBoundary : Prop :=
  ∀ (s : State) (c : Fin 16) (codes : List (BitVec 16)), s.dev.On → codes.length = 1024 → s.dev.afeRuns c = true →
    let a := s.dev.afeChan c
    let next (d : Dev) (first : Nat) : Dev :=
      let e := (d.setAfeChan c { d.afeChan c with first := first }).markApply c
      if s.dev.getB F.AFE_CHSTAT_DARK c = false ∧ e.getB F.AFE_CHSTAT_DARK c = true then e.syncReset c 2 (e.afeChan c).first else e
    (a.released = true → s.dev.getB F.AFE_CHSTAT_DARK c = false →
      let out := s.dev.corrected c codes
      let d := if out.any (fun x => x == 0x8000 || x == 0x7FFF) then s.dev.setBit F.AFE_CLIP_CLIP 0 c else s.dev
      let d := d.windowBlock c out
      let d := if c.val < 8 then ((d.sendBlock c out 0).sendBlock c out 2).sendBlock c out 4
        else ((d.sendBlock c out 1).sendBlock c out 3).sendBlock c out 5
      Gives (.rawBlockBoundary c codes) s (next d (a.first + 1024)) ∧ out.length = 1024 ∧
        (a.refExt = false → (∀ i < 8, s.dev.sliceFactors c i = (0, 0, 0)) → out = codes)) ∧
    (a.released = true → s.dev.getB F.AFE_CHSTAT_DARK c = true → Gives (.rawBlockBoundary c codes) s (next s.dev (a.first + 1024))) ∧
    (a.released = false → a.relPend = true →
      Gives (.rawBlockBoundary c codes) s (next s.dev
        (if a.paired = true ∧ c.val % 2 = 0 then (s.dev.tsc + 25599) / 25600 * 1024 else (s.dev.tsc + 51199) / 51200 * 1024)))

/-- R94, R95: a background update that a full window's statistics call for waits for the channel's next block boundary; a quiet or clipped window freezes the
gain and skew factors and shows HOLD; the eighth small update in a row shows CONV, and a large one withdraws it. -/
def Obligations.BackgroundUpdatesWaitAndShowTheirState : Prop :=
  ∀ (s : State) (c : Fin 16) (w : BgcWin) (ofs gain skew : List Int), s.dev.On → bgcWf ofs gain skew = true →
    s.dev.afeRuns c = true → (s.dev.afeChan c).released = true → s.dev.getB F.AFE_CHSTAT_DARK c = false → s.dev.bitF F.AFE_BGC_EN 0 c = true →
    (s.dev.afeChan c).winDone = some w → ofs.length = (if s.dev.getB F.AFE_CHSTAT_RATE40 c then 8 else 4) →
    let held (l : List Int) : List Int := if w.hold then l.map (fun _ => 0) else l
    w.calls ofs.length ofs (held gain) = true →
    let small := (held gain).all (fun x => decide (x.natAbs ≤ 1))
    let n := if small then min ((s.dev.afeChan c).convRun + 1) 8 else 0
    ∃ d, Gives (.bgcUpdate c ofs gain skew) s d ∧ d = { s.dev with regs := d.regs, afeCh := d.afeCh } ∧
      d.bitF F.AFE_BGC_STAT_HOLD 0 c = w.hold ∧ d.converged.testBit c = decide (8 ≤ n) ∧
      d.afeChan c = { s.dev.afeChan c with
        convRun := n
        winDone := none
        pendOfs := ofs
        pendGain := held gain
        pendSkew := held skew } ∧
      ∀ k, k ≠ c.val → d.afeChan k = s.dev.afeChan k

/-- R103 to R105: self-calibration starts on both halves in BOOT and on a readmitted half when it is due, shows CAL_BUSY and unreleases the channels of its half;
the internal reference has settled 4 ms later at most.  When it ends CAL_DONE shows, a channel that failed runs on its factory factors with CAL_FB and its bit of
CAL_FAIL and the trouble bit set, and every channel of the half waits for its release boundary. -/
def Obligations.SelfCalibrationStartsAndEnds : Prop :=
  ∀ (s : State) (fail : BitVec 16) (h : Half), s.dev.On →
    let starts (x : Option Half) (l : List (Half × Bool)) (hs : List Half) : Prop :=
      ∃ d, Gives (.selfCalibrationStart x) s d ∧ d.afe.calRun = s.dev.afe.calRun ++ l ∧ d.getB F.AFE_STAT_CAL_BUSY = true ∧
        (∀ k ∈ hs, k ∉ d.afe.calDue ∧ ∀ c ∈ k.channels, (d.afeChan c).released = false ∧ (d.afeChan c).relPend = false) ∧
        ∃ t, d.afe.refFrom = some t ∧ (s.dev.afe.refFrom = none → t ≤ s.dev.tsc + 4000000) ∧ ∀ u, s.dev.afe.refFrom = some u → t = u
    let ends (x : Option Half) (l : List (Half × Bool)) (hs : List Half) : Prop :=
      ∃ d, Gives (.selfCalibrationEnd x fail) s d ∧ d.afe.calRun = l ∧ d.getB F.AFE_STAT_CAL_BUSY = decide (l ≠ []) ∧
        d.getB F.AFE_STAT_CAL_DONE = true ∧
        (∀ k ∈ hs, ∀ c ∈ k.channels, (d.afeChan c).relPend = true ∧ d.getB F.AFE_CHSTAT_CAL_FB c = fail.getLsbD c ∧
          d.bitF F.AFE_STAT_CAL_FAIL 0 c = fail.getLsbD c ∧ (fail.getLsbD c = true → d.getB F.TRB_STICKY1_AFE_CAL = true)) ∧
        ∀ k, k ∉ hs → ∀ c ∈ k.channels, d.afeChan c = s.dev.afeChan c
    (s.dev.mode = .boot → s.dev.getB F.AFE_STAT_CAL_DONE = false → s.dev.afe.calRun = [] → s.dev.halfOff .north = false →
      s.dev.halfOff .south = false → starts none [(.north, true), (.south, true)] [.north, .south]) ∧
    (h ∈ s.dev.afe.calDue → starts (some h) [(h, false)] [h]) ∧
    (s.dev.afe.calRun = [(.north, true), (.south, true)] → ends none [] [.north, .south]) ∧
    (s.dev.afe.calRun = [(h, false)] → ends (some h) [] [h]) ∧
    (∀ k, k ≠ h → s.dev.afe.calRun = [(h, false), (k, false)] → ends (some h) [(k, false)] [h])

/-- R107, R108: REFIN that qualifies is taken into use with its ratio recorded; one that does not qualify in time, or leaves its range in use, falls back to the
internal reference with the flag and the trouble bit; while REFSEL = 1 qualifying is tried again. -/
def Obligations.RefinQualifiesFallsBackAndRetries : Prop :=
  ∀ (s : State) (ratio : BitVec 16), s.dev.On →
    let fall : Dev :=
      (({ s.dev with afe := { s.dev.afe with fallbacks := s.dev.afe.fallbacks + 1, refin := .fallback } }.setB F.AFE_STAT_REF_FALLBACK 0 true).trouble
        F.TRB_STICKY1_AFE_REF).setB F.AFE_STAT_REF_SRC 0 false
    (s.dev.afe.refin = .qualifying → Gives (.refinQualified ratio) s
      (({ s.dev with afe := { s.dev.afe with refin := .inUse } }.setF F.AFE_REFIN_RATIO 0 ratio.toNat).setB F.AFE_STAT_REF_SRC 0 true)) ∧
    (s.dev.afe.refin = .qualifying → Gives .refinQualifyTimeout s fall) ∧
    (s.dev.afe.refin = .inUse → Gives .refinOutOfRange s fall) ∧
    (s.dev.afe.refin = .fallback → s.dev.getF F.AFE_REF_REFSEL = 1 →
      Gives .refinRetry s { s.dev with afe := { s.dev.afe with refin := .qualifying } })

/-- R115 to R120: the default sequence starts; a slot discards its first conversion, and the sum of the other 2^(AVG + 1), shifted, is shown with the pass number
and REF_OK as VALID; the next slot follows, and after the last one the gap; a gap's end starts the next pass; a settled reference lets a waiting pass begin and
one that does not settle sets the trouble bit; an urgent request is taken in the gap and its result shown when it is done, and one that comes elsewhere is
dropped and counted. -/
def Obligations.AuxSequencerRunsSlotsGapsAndUrgentRequests : Prop :=
  ∀ (s : State) (conv : List (BitVec 16)) (req : Requester) (data : Word), s.dev.On →
    let d := s.dev
    let sum := (conv.tail.map BitVec.toNat).sum
    let begins (c : Instr) : Prop :=
      ∃ e, Gives c s e ∧ e.aux.phase = .pass ∧ e.aux.slot = 0 ∧ e.aux.slots.length = d.getF F.AUX_CTL_LEN ∧
        e.aux.gap = d.getF F.AUX_GAP_GAP ∧ e.getB F.AUX_STAT_RUNNING = true ∧ e.getB F.AUX_STAT_IN_GAP = false
    let shows (e : Dev) (input shift : Nat) : Prop :=
      e.getF F.AUX_RES_VALUE input = sum / 2 ^ shift % 2 ^ F.AUX_RES_VALUE.len ∧
        e.getF F.AUX_RES_VALID input = d.getF F.AUX_STAT_REF_OK % 2 ^ F.AUX_RES_VALID.len ∧
        e.getF F.AUX_RES_PASS input = d.getF F.AUX_STAT_PASS % 2 ^ F.AUX_RES_PASS.len ∧ e = { d with regs := e.regs, aux := e.aux }
    (d.aux.phase = .off → d.getF F.AUX_CTL_RUN ≠ 0 → d.getF F.AUX_CTL_REFSEL = d.aux.refsel → d.getF F.AUX_CTL_LEN ≠ 0 → begins .auxStart) ∧
    (∀ input avg shift, d.aux.phase = .pass → d.aux.slots[d.aux.slot]? = some (input, avg, shift) → conv.length = 1 + 2 ^ (avg + 1) →
      (d.aux.slot + 1 < d.aux.slots.length → d.getF F.AUX_CTL_RUN ≠ 0 →
        ∃ e, Gives (.auxSlotDone conv) s e ∧ e.aux = { d.aux with slot := d.aux.slot + 1 } ∧ shows e input shift) ∧
      (d.aux.slot + 1 = d.aux.slots.length → d.aux.gap ≠ 0 →
        ∃ e, Gives (.auxSlotDone conv) s e ∧ e.aux = { d.aux with phase := .gap } ∧ shows e input shift ∧ e.getB F.AUX_STAT_IN_GAP = true ∧
          e.getF F.AUX_STAT_PASS = (d.getF F.AUX_STAT_PASS + 1) % 2 ^ F.AUX_STAT_PASS.len)) ∧
    (d.aux.phase = .gap → d.aux.urgent = none → d.getF F.AUX_CTL_RUN ≠ 0 → d.getF F.AUX_CTL_REFSEL = d.aux.refsel → d.getF F.AUX_CTL_LEN ≠ 0 →
      begins .auxGapEnd) ∧
    (d.aux.phase = .settling → d.getB F.AUX_STAT_REF_OK = false → d.getF F.AUX_CTL_RUN ≠ 0 → d.getF F.AUX_CTL_LEN ≠ 0 →
      begins .auxRefSettled ∧ ∃ e, Gives .auxRefSettled s e ∧ e.getB F.AUX_STAT_REF_OK = true) ∧
    (d.aux.phase = .settling → Gives .auxRefTimeout s (d.trouble F.TRB_STICKY1_AUX_REF)) ∧
    (d.Accepts req .AUX_URG 0 data → data.getLsbD F.AUX_URG_GO.lo = true → data.getLsbD (16 + F.AUX_URG_GO.lo) = true → d.aux.phase = .gap →
      d.aux.urgent = none → d.getB F.AUX_STAT_REF_OK = true →
      let x := d.stored .AUX_URG 0 data
      Gives (.auxUrgentRequest req data) s ((x.setAux { x.aux with
        urgent := some (x.getF F.AUX_URG_INPUT, x.getF F.AUX_URG_AVG, x.getF F.AUX_URG_SHIFT) }).setB F.AUX_STAT_URG_BUSY 0 true)) ∧
    (d.Accepts req .AUX_URG 0 data → data.getLsbD F.AUX_URG_GO.lo = true → data.getLsbD (16 + F.AUX_URG_GO.lo) = true → d.aux.phase ≠ .gap →
      Gives (.auxUrgentRequest req data) s ((d.stored .AUX_URG 0 data).incF F.AUX_URG_DROP_DROP)) ∧
    (∀ input avg shift, d.aux.urgent = some (input, avg, shift) → conv.length = 1 + 2 ^ (avg + 1) →
      ∃ e, Gives (.auxUrgentDone conv) s e ∧ e.aux = { d.aux with urgent := none } ∧ e.getB F.AUX_STAT_URG_BUSY = false ∧
        e.getF F.AUX_URG_RES_VALUE = sum / 2 ^ shift % 2 ^ F.AUX_URG_RES_VALUE.len ∧ e.getB F.AUX_URG_RES_VALID = true ∧
        e.getB F.AUX_URG_RES_DONE = true)

/-! ### Filter chain (R124 to R150) -/

/-- R124, R126, R129: with the CIC outputs of a group there, no mark or swap waiting and nothing settling, the next decimated sample of a running chain, the one that
ends with the code whose (k & 511) = 511, is the FIR's sum over the last 96 outputs on the active bank, scaled, rounded half up and clamped, less the
rounded DC estimate and clamped again; its index is shown. -/
def Obligations.DecimatedSamplesAreTheFirLessItsDcEstimate : Prop :=
  ∀ (s : State) (c : Fin 16), s.dev.On → s.dev.afeRuns c = true → s.dev.getB F.FLT_CHCTL_RUN c = true →
    let x := s.dev.chain c
    ∀ (first rest : List (Nat × Int × Nat)) (o : Nat × Int × Nat), x.cicQ = first ++ o :: rest → (∀ p ∈ first, p.1 % 8 ≠ 7) → o.1 % 8 = 7 →
    x.marks = [] → x.fade = none → x.settle = 0 → x.zero = 0 → s.dev.getF F.FLT_CHSTAT_BANK c = 0 →
    let j := o.1 / 8
    let g := o.2.2
    let line := (((first ++ [o]).map fun p => p.2.1).reverse ++ x.lineA).take 96
    let y := sat24 ((s.dev.firSum c 0 0 line + 2 ^ (29 + 2 * g)) / 2 ^ (30 + 2 * g))
    ∃ d, Gives (.decimatedSample c) s d ∧ (d.chain c).cicQ = rest ∧ (d.chain c).lineA = line ∧ (d.chain c).lineB = x.lineB ∧
      (∃ q, (d.chain c).dec.head? = some q ∧ q.j = j ∧ q.val = sat24 (y - (x.dc + 2 ^ 31) / 2 ^ 32) ∧ q.settling = false ∧ q.fading = false ∧
        q.test = s.dev.getB F.FLT_CHCTL_TEST c) ∧
      d.getF F.FLT_DECIDX_IDX c = j % 2 ^ F.FLT_DECIDX_IDX.len ∧ ∀ b, b ≠ c.val → d.chain b = s.dev.chain b

/-- R131, R132, R137, R138: an angle tap takes its clock's next instant, at the time noted when the angle first reached it; each nanosecond notes and counts a
fixed-rate instant that CAL has reached, and the tap takes the next one noted for each half that has channels on it; when every tap has taken a producer's oldest
instant and its support is there on every channel, its words go to each pit of the producer's set under the instant's index. -/
def Obligations.TapsNoteTheirInstantsAndSendThem : Prop :=
  ∀ (s : State) (c : Fin 16) (h : Half) (clock : Option (Fin 4)), s.dev.On →
    (let n := s.dev.getF F.FLT_CHCTL_CLK c
      let dom := 3 * n + min 2 (s.dev.getF F.FLT_CHCTL_N c)
      ∀ i, nextInst (s.dev.chain c).lastK (s.dev.instsOf dom) = some i → s.dev.angTap c = true →
        Gives (.angleTapSample c) s ((s.dev.setChain c { s.dev.chain c with lastK := some i.k }).queueTap
          (4 * (if c.val < 8 then 0 else 1) + n) ⟨at256 dom i.k, i.k, i.t16, i.freewheel, [c.val]⟩)) ∧
    (∀ i, s.dev.fr.next = some i → s.dev.fr.resync = false →
      let rate := frRate (s.dev.getF F.FLT_CTL_FR_RATE)
      let t := s.dev.calSeg.reach (frCal rate i.1 i.2)
      frCal rate i.1 i.2 ≤ s.dev.cal →
      (s.dev.frTick).fr = { s.dev.fr with
        last := some (i.1, i.2, t)
        next := some (if i.2 + 1 < rate then (i.1, i.2 + 1) else (i.1 + 1, 0))
        count := s.dev.fr.count + 1 } ∧
      (s.dev.frTick).instsOf 12 = (⟨s.dev.fr.count, t, false⟩ :: s.dev.instsOf 12).take 4096) ∧
    (∀ i, (s.dev.instsOf 12).find? (fun i => i.k == s.dev.fr.taken) = some i →
      ∃ d, Gives .fixedRateInstant s d ∧ d = { s.dev with fr := { s.dev.fr with taken := i.k + 1 }, taps := d.taps } ∧
        SMap.getD d.taps (8 + h.num) [] =
          if s.dev.halfOff h = false ∧ s.dev.mode ≠ .safe ∧ s.dev.frChans h ≠ [] then
            addInstant ⟨i.k, i.k, i.t16, false, s.dev.frChans h⟩ (SMap.getD s.dev.taps (8 + h.num) [])
          else SMap.getD s.dev.taps (8 + h.num) []) ∧
    (let p := match clock with
        | some n => 4 * h.num + n.val
        | none => 8 + h.num
      ∀ t ts ws, SMap.getD s.dev.taps p [] = t :: ts → s.dev.halfOff h = false → s.dev.mode ≠ .safe → s.dev.tapsTaken p h t = true →
        allSome (h.channels.map fun c => s.dev.tapWord p t c) = some ws →
        Gives (.fltLumpSend h clock) s ((s.dev.fltPits p).foldl (fun d pit =>
          d.sendLump (6 + pit) (0x060 + p) clock.isSome (some t.seq) 4 (.sampleWords t.k ws)) { s.dev with taps := SMap.set s.dev.taps p ts }))

/-- R141 to R149: a coefficient commit writes one coefficient of the addressed bank, or is refused with REJECT on a bank in use and writes none; a swap of
a stopped chain takes its bank at once and one of a running chain starts with the next sample whose last code is still to come; the end of a fade makes its
target active; a reset command asks for a reset at the channel's next block boundary, which clears the chain, counts, and settles for 17 samples; the end of
fast-settle is shown. -/
def Obligations.FilterCommandsSetBanksCoefficientsAndResets : Prop :=
  ∀ (s : State) (req : Requester) (c : Fin 16) (data : Word), s.dev.On →
    (s.dev.Accepts req .FLT_CWHI 0 data →
      let x := s.dev.committed .FLT_CWHI 0 data
      let ch := x.getF F.FLT_CWSEL_CH
      let bank := x.getF F.FLT_CWSEL_BANK
      (x.coefRefused ch bank = false →
        ∃ d, Gives (.fltCoefCommit req data) s d ∧ d = { x with coef := d.coef } ∧
          d.coefAt ch bank (x.getF F.FLT_CWSEL_TAP) = sgn 24 (x.getF F.FLT_CWLO_COEF_LO + 65536 * x.getF F.FLT_CWHI_COEF_HI)) ∧
      (x.coefRefused ch bank = true → Gives (.fltCoefCommit req data) s (s.dev.setBit F.FLT_STAT_REJECT 0 ch))) ∧
    (s.dev.Accepts req .FLT_SWAP c data → data.getLsbD F.FLT_SWAP_GO.lo = true → data.getLsbD (16 + F.FLT_SWAP_GO.lo) = true →
      let x := s.dev.stored .FLT_SWAP c data
      (s.dev.getB F.FLT_CHCTL_RUN c = false →
        ∃ d, Gives (.fltSwapRequest req c data) s d ∧ d = { s.dev with regs := d.regs, fltCh := d.fltCh } ∧
          d.getF F.FLT_CHSTAT_BANK c = x.getF F.FLT_SWAP_TARGET c % 2 ∧ d.getF F.FLT_CHSTAT_FADING c = 0 ∧ d.getF F.FLT_CHSTAT_PENDING c = 0 ∧
          d.chain c = { s.dev.chain c with fade := none, held := none }) ∧
      (s.dev.getB F.FLT_CHCTL_RUN c = true → s.dev.getB F.FLT_CHCTL_POL c = false → (s.dev.chain c).fade = none →
        x.getF F.FLT_SWAP_TARGET c ≠ s.dev.getF F.FLT_CHSTAT_BANK c →
        Gives (.fltSwapRequest req c data) s (x.setChain c { s.dev.chain c with
          fade := some { target := x.getF F.FLT_SWAP_TARGET c, len := x.getF F.FLT_SWAP_FADE c, start := (s.dev.chain c).next / 512 } }))) ∧
    (∀ f, (s.dev.chain c).fade = some f → 0 < f.len → f.m = 12 + f.len → (s.dev.chain c).held = none →
      ∃ d, Gives (.fadeEnd c) s d ∧ d.getF F.FLT_CHSTAT_BANK c = f.target % 2 ∧ d.getF F.FLT_CHSTAT_FADING c = 0 ∧
        d.chain c = { s.dev.chain c with fade := none }) ∧
    (s.dev.Accepts req .FLT_RESET 0 data → data.getLsbD c = true → data.getLsbD (16 + c.val) = true → (s.dev.afeChan c).released = true →
      ∃ d, Gives (.fltResetCommand req data) s d ∧
        (d.chain c).asked = (s.dev.chain c).asked ++
          [(5, if s.dev.getB F.AFE_CHSTAT_RATE40 c then (s.dev.tsc + 25599) / 25600 * 512 else (s.dev.tsc + 51199) / 51200 * 1024)] ∧
        d = { s.dev with fltCh := d.fltCh }) ∧
    (∀ cause b, s.dev.afeRuns c = true → (s.dev.chain c).due = some (cause, b) →
      ∃ d, Gives (.synchronisingReset c) s d ∧ (d.chain c).integ = [0, 0, 0, 0, 0] ∧ (d.chain c).comb = [0, 0, 0, 0, 0] ∧
        (d.chain c).marks = (s.dev.chain c).marks ++ [⟨b / 512, 17, true⟩] ∧ (d.chain c).held = none ∧ (d.chain c).due = none ∧
        (∀ f, (s.dev.chain c).fade = some f → f.running = true → (d.chain c).fade = none) ∧
        ((s.dev.chain c).fade = none → (s.dev.chain c).held = none → d.getF F.FLT_CHSTAT_BANK c = s.dev.getF F.FLT_CHSTAT_BANK c % 2) ∧
        d.getF F.FLT_CHSTAT_RESETS c = min (s.dev.getF F.FLT_CHSTAT_RESETS c + 1) (2 ^ F.FLT_CHSTAT_RESETS.len - 1) ∧
        d.getF F.FLT_CHSTAT_LAST_CAUSE c = cause % 2 ^ F.FLT_CHSTAT_LAST_CAUSE.len ∧ d.getF F.FLT_CHSTAT_SETTLE c = 17 ∧
        d.getF F.FLT_CHSTAT_FADING c = 0 ∧ d.getF F.FLT_CHSTAT_PENDING c = 0) ∧
    ((s.dev.chain c).fast = 0 → (s.dev.chain c).fastDue = false → s.dev.getB F.FLT_CHSTAT_FAST c = true →
      Gives (.fastSettleEnd c) s (s.dev.setB F.FLT_CHSTAT_FAST c false))

/-! ### Sampled values (R154 to R172) -/

/-- R154 to R165: SVI takes the oldest frame that a port has delivered to it.  A frame or an ASDU with a bad structure counts as malformed; an ASDU that matches no entry
counts as unmatched; one that matches a running entry whose revision, channels and simulation flag agree is converted (R159 to R161) and resolves its sample, with its port
shown as seen, where the sample was not resolved.  The first unresolved sample whose deadline has passed, or that every carrying port has passed, is filled by R164 and counted. -/
def Obligations.SampledValueFramesResolveSamples : Prop :=
  ∀ (s : State) (portB : Bool) (ts : Nat) (frame : Option SvFrame) (rest : List (Nat × Option SvFrame)), s.dev.On → s.dev.mode ≠ .safe →
    (SMap.getD s.dev.svIn portB.toNat [] = (ts, frame) :: rest →
      let d₀ : Dev := { s.dev with svIn := SMap.set s.dev.svIn portB.toNat rest }
      (frame = none → Gives (.svFrameReceive portB) s (d₀.incF F.SVI_UNMATCH_MALFORMED)) ∧
      ∀ f, frame = some f →
        (1 < f.tags ∨ f.asdus.length = 0 ∨ 8 < f.asdus.length → Gives (.svFrameReceive portB) s (d₀.incF F.SVI_UNMATCH_MALFORMED)) ∧
        (f.tags ≤ 1 → ∀ a, f.asdus = [a] → asduOk a = false → Gives (.svFrameReceive portB) s (d₀.incF F.SVI_UNMATCH_MALFORMED)) ∧
        (f.tags ≤ 1 → ∀ a, f.asdus = [a] → asduOk a = true → s.dev.svMatch f a = none →
          Gives (.svFrameReceive portB) s (d₀.incF F.SVI_UNMATCH_UNMATCHED)) ∧
        (f.tags ≤ 1 → ∀ a i idx, f.asdus = [a] → asduOk a = true → s.dev.svMatch f a = some i →
          (s.dev.getF F.SVI_SUBCTL_PORT i = 0 ∨ s.dev.getF F.SVI_SUBCTL_PORT i = if portB then 2 else 1) →
          svIndex (s.dev.subRate i) (s.dev.calAt ts) (a.smpCnt.getD 0) = some idx → s.dev.subRuns i = true →
          a.confRev = some (s.dev.getF F.SVI_SUBREVLO_REV i + 65536 * s.dev.getF F.SVI_SUBREVHI_REV i) →
          s.dev.getF F.SVI_SUBMAP_FIRST i + s.dev.getF F.SVI_SUBMAP_NCH i ≤ a.entries.length → f.sim = s.dev.getB F.SVI_SUBCTL_SIM i →
          (s.dev.sub i).sample idx = none →
          ∃ d, Gives (.svFrameReceive portB) s d ∧ d.svIn = d₀.svIn ∧
            (d.sub i).sample idx = some ⟨idx, true, 0, (s.dev.svConvert i f.sim a).1⟩ ∧ (d.sub i).got = true ∧
            (if portB then d.getB F.SVI_SUBSTAT_PORTB_SEEN i else d.getB F.SVI_SUBSTAT_PORTA_SEEN i) = true ∧
            d.getF F.SVI_SUBSTAT_SMPSYNCH i = a.smpSynch.getD 0 % 256 ∧ ∀ j, j ≠ i → d.sub j = s.dev.sub j)) ∧
    (SMap.getD s.dev.svIn portB.toNat [] = [] → Gives (.svFrameReceive portB) s s.dev) ∧
    (∀ i : Fin 128, s.dev.subRuns i = true →
      let x := s.dev.sub i
      (s.dev.svInstant (s.dev.subRate i) x.next + 160000 * s.dev.getF F.SVI_DL_DL ≤ 16 * s.dev.tsc ∨ s.dev.allPassed i x.next = true) →
      ∃ d, Gives (.svSampleMissing i) s d ∧ (d.sub i).sample x.next = some (x.fill x.next (s.dev.getF F.SVI_SUBMAP_NCH i)) ∧
        (x.fill x.next (s.dev.getF F.SVI_SUBMAP_NCH i)).received = false ∧ x.next < (d.sub i).next ∧
        d.getF F.SVI_SUBCNT_SUBST i = min (s.dev.getF F.SVI_SUBCNT_SUBST i + 1) (2 ^ F.SVI_SUBCNT_SUBST.len - 1))

/-- R34, R166 to R169, R172: the oldest angle instant whose four samples are resolved is interpolated, channel by channel, and sent to the mapped pits, one from before the
start as 0 and invalid; a commit that changes an entry once LOAD is over restarts it; SVI_SVIDWR puts the bits that its mask selects in two octets of the holding svID of the
selected entry and leaves the applied one. -/
def Obligations.SubscriptionsSendRestartAndTakeSvids : Prop :=
  ∀ (s : State) (i : Fin 128) (req : Requester) (data : Word), s.dev.On →
    (∀ t ts, (s.dev.sub i).insts = t :: ts → s.dev.subRuns i = true →
      let rate := s.dev.subRate i
      let nch := s.dev.getF F.SVI_SUBMAP_NCH i
      let sent (chans : List (Int × Nat)) : Prop := Gives (.svLumpSend i) s ((s.dev.subPits i).foldl (fun d p =>
        d.sendLump (10 + p) (0x080 + i) true (some t.seq) 4 (.sampleWords t.k (svWords chans))) (s.dev.setSub i { s.dev.sub i with insts := ts }))
      (t.t16 < 16 * (s.dev.sub i).startTsc → sent (List.replicate nch (0, 2 + 16 * t.freewheel.toNat))) ∧
      (16 * (s.dev.sub i).startTsc ≤ t.t16 → ∀ a b c e,
        let j := s.dev.svBefore rate t.t16
        (s.dev.sub i).support nch (j - 1) = some a → (s.dev.sub i).support nch j = some b → (s.dev.sub i).support nch (j + 1) = some c →
        (s.dev.sub i).support nch (j + 2) = some e →
        let t0 := s.dev.svInstant rate j
        let mu := 65536 * (t.t16 - t0) / max 1 (s.dev.svInstant rate (j + 1) - t0)
        let ch (m : SvSample) (k : Nat) : Int × Nat := (m.chans[k]?).getD (0, 2)
        sent ((List.range nch).map fun k => svInterp (ch a k) (ch b k) (ch c k) (ch e k) mu t.freewheel))) ∧
    (s.dev.Accepts req .SVI_SUBCTL i data → s.dev.mode ≠ .boot → s.dev.mode ≠ .load →
      let new := s.dev.committed .SVI_SUBCTL i data
      (new.svidApply i).subClash i = false → compositeChanged .SVI_SUBCTL i new s.dev = true →
      ∃ d, Gives (.sviSubscriptionCommit req i data) s d ∧ (d.sub i).hist = [] ∧ (d.sub i).start = svFirst (new.subRate i) s.dev.cal ∧
        (d.sub i).next = (d.sub i).start ∧ (d.sub i).count = 0 ∧ (d.sub i).got = false ∧
        (d.sub i).hold = [] ∧ (d.sub i).startTsc = s.dev.tsc ∧ d.getF F.SVI_SUBSTAT_STATE i = (new.getB F.SVI_SUBCTL_EN i).toNat ∧
        d.getF F.SVI_SUBSTAT_REASON i = 0) ∧
    (s.dev.Accepts req .SVI_SVIDWR 0 data →
      let k := s.dev.getF F.SVI_SVIDSEL_SUB
      let p := 2 * s.dev.getF F.SVI_SVIDSEL_PAIR
      let held (o : Nat) : Nat := SMap.getD (s.dev.sub k).hold o (SMap.getD (s.dev.sub k).svid o 0)
      ∃ d, Gives (.svidOctetWrite req data) s d ∧
        (∀ b < 16, (SMap.getD (d.sub k).hold p 0 + 256 * SMap.getD (d.sub k).hold (p + 1) 0).testBit b =
          if (ctlMask data).testBit b then (ctlPayload data).testBit b else (held p + 256 * held (p + 1)).testBit b) ∧
        (∀ o, o ≠ p → o ≠ p + 1 → SMap.getD (d.sub k).hold o 256 = SMap.getD (s.dev.sub k).hold o 256) ∧ (d.sub k).svid = (s.dev.sub k).svid ∧
        ∀ j, j ≠ k → d.sub j = s.dev.sub j)

/-! ### Seam (R173 to R210) -/

/-- R181, R187, R188, R189, R214: a face whose instant has come and whose inputs are there, or whose deadline has passed, evaluates its next step and no other: STEP shows it,
the face goes on to the one after, the missing inputs are counted, the cycles are measured, and a step above its budget is an overrun.  A delay's expiry is such a step. -/
def Obligations.FacesEvaluateTheirNextStep : Prop :=
  ∀ (s : State) (g : Fin 256) (cycles : Word) (req : List (Fin 64 × Bool × Fin 4 × BitVec 48)), s.dev.On →
    s.dev.stepDue g = true → cycles.toNat < 4 * s.dev.faceBudget g → s.dev.faceBad 2 g = false → s.dev.faceBad 3 g = false →
    let k := (s.dev.face g).next
    let done (d : Dev) : Prop := (d.face g).next = k + 1 ∧
      (d.face g).lastT = some ((s.dev.stepInstant (s.dev.seam.design.domainOf g) k).getD 0) ∧
      ((d.face g).hist.head?.map fun h => (h.k, h.done)) = some (k, s.dev.tsc) ∧
      d.getF F.SEAM_FSTEP_STEP g = k % 2 ^ F.SEAM_FSTEP_STEP.len ∧
      d.getF F.SEAM_FMAX_MAXCYC g = min (2 ^ 20 - 1) (max (s.dev.getF F.SEAM_FMAX_MAXCYC g) cycles.toNat) % 2 ^ F.SEAM_FMAX_MAXCYC.len ∧
      (s.dev.faceBudget g < cycles.toNat → d.getF F.SEAM_FSTAT_OVR g = 1 ∧ d.getB F.SYS_DEGR_OVERRUN = true ∧ d.mode ≠ .protect)
    (s.dev.arrived g k = true → ∃ d, Gives (.faceStep g cycles req) s d ∧ done d) ∧
    (s.dev.arrived g k = false → s.dev.deadline g k ≤ 16 * s.dev.tsc →
      ∃ d, Gives (.faceStepDeadline g cycles req) s d ∧ done d ∧
        d.getF F.SEAM_FSTAT_MISS g =
          min (s.dev.getF F.SEAM_FSTAT_MISS g + s.dev.missCount g k) (2 ^ F.SEAM_FSTAT_MISS.len - 1) % 2 ^ F.SEAM_FSTAT_MISS.len) ∧
    (s.dev.arrived g k = true →
      ((s.dev.seam.design.cellsOn g).any fun x => !(s.dev.cell x.1 x.2).tim.isEmpty) = true →
      ∃ d, Gives (.cellDelayExpiry g cycles req) s d ∧ done d)

/-- R189, R190, R196, R510: a step that reaches four times its budget halts its face, with the actions of an overrun, the inputs that its deadline found missing counted, an
entry in the failure area and the halt shown, and so does a step that meets a poisoned word of its program or its cells; a face of a readmitted half runs again once the
surviving copies have completed the step before its next one, and comparison waits four steps. -/
def Obligations.FacesHaltAndRestart : Prop :=
  ∀ (s : State) (g : Fin 256), s.dev.On →
    let k := (s.dev.face g).next
    let halted (d : Dev) : Prop := (d.face g).st = .halted ∧ d.getF F.SEAM_STAT_HALT = 1 ∧ d.getB F.TRB_STICKY1_SEAM_HALT = true ∧
        (if g.val % 64 < 32 then d.bitF F.SEAM_HALT_HALT_LO (g / 64) (g % 32) else d.bitF F.SEAM_HALTH_HALT_HI (g / 64) (g % 32)) = true ∧
        d.getB F.SYS_DEGR_OVERRUN = true ∧ (s.dev.mode = .protect → d.mode = .degraded) ∧ (s.dev.mode ≠ .protect → d.mode = s.dev.mode)
    (s.dev.stepDue g = true → s.dev.arrived g k = true ∨ s.dev.deadline g k ≤ 16 * s.dev.tsc →
      ∃ d, Gives (.faceHalt g) s d ∧ halted d ∧
        d.getF F.SEAM_FMAX_MAXCYC g = min (2 ^ 20 - 1) (max (s.dev.getF F.SEAM_FMAX_MAXCYC g) (4 * s.dev.faceBudget g)) % 2 ^ F.SEAM_FMAX_MAXCYC.len ∧
        d.getF F.SEAM_FSTAT_MISS g =
          min (s.dev.getF F.SEAM_FSTAT_MISS g + s.dev.missCount g k) (2 ^ F.SEAM_FSTAT_MISS.len - 1) % 2 ^ F.SEAM_FSTAT_MISS.len) ∧
    (∀ (cycles : Word) (req : List (Fin 64 × Bool × Fin 4 × BitVec 48)), s.dev.stepDue g = true → s.dev.arrived g k = true →
      cycles.toNat < 4 * s.dev.faceBudget g → (s.dev.faceBad 2 g = true ∨ s.dev.faceBad 3 g = true) →
      ∃ d, Gives (.faceStep g cycles req) s d ∧ halted d ∧ d.getB F.TRB_STICKY3_POISON = true) ∧
    ((s.dev.face g).restart = true → (s.dev.face g).st = .run → s.dev.survivorsDone g = true →
      let D := s.dev.seam.design
      let left := (D.facePoints g).foldl (fun m p => SMap.set m p.addr (s.dev.point p)) []
      ∃ d, Gives (.duplexRestart g) s d ∧ d = { s.dev with seam := d.seam } ∧
        d.face g = { s.dev.face g with restart := false, hist := (⟨k - 1, s.dev.tsc, left⟩ :: (s.dev.face g).hist).take 2048 } ∧
        d.seam.points = s.dev.seam.points ∧ d.seam.cells = s.dev.seam.cells ∧
        ∀ x ∈ D.cellsOn g, ∀ i, D.duplexLode (D.nodes.length + 1) x.1 = some i →
          SMap.getD (SMap.getD d.seam.dups i {}).resume (D.domainOf g) 0 = k + 4)

/-- R48, R197 to R199: a request for a defined group starts a switch with its k_c in every domain, waits where a switch runs, taking the place of one that waits (GRP_OVERRUN),
and is refused for an undefined one; a switch is complete when its k_c has passed everywhere: ACT shows the new group, the switches are counted, and a record tells it.  A point
address written to SEAM_PADDR latches the point's value, quality, type and step for its requester. -/
def Obligations.GroupSwitchesAndPointLatches : Prop :=
  ∀ (s : State) (g : Fin 8) (selector : Bool) (req : Requester) (x : Dword), s.dev.On →
    (s.dev.bitF F.SEAM_GRP_STAT_DEFINED 0 g = false → Gives (.groupSwitchRequest g selector) s (s.dev.flag F.SEAM_STAT_GRP_REFUSED 0 0 19)) ∧
    (s.dev.bitF F.SEAM_GRP_STAT_DEFINED 0 g = true → s.dev.seam.switching = false → s.dev.oldestNeeded = false →
      let old := (s.dev.seam.groups.head?.map fun w => w.new).getD s.dev.seam.group0
      Gives (.groupSwitchRequest g selector) s ((s.dev.setSeam { s.dev.seam with
        groups := ⟨old, g, selector.toNat, s.dev.tsc, s.dev.commitSteps⟩ :: s.dev.seam.groups.take (if 4 ≤ s.dev.seam.groups.length then 3 else 4)
        switching := true }).setF F.SEAM_GRP_STAT_SWITCHING 0 1)) ∧
    (s.dev.bitF F.SEAM_GRP_STAT_DEFINED 0 g = true → (s.dev.seam.switching = true ∨ s.dev.oldestNeeded = true) →
      let d₀ := if s.dev.seam.grpPend.isSome then s.dev.flag F.SEAM_STAT_GRP_OVERRUN 0 0 19 else s.dev
      Gives (.groupSwitchRequest g selector) s (((d₀.setSeam { s.dev.seam with grpPend := some (g.val, selector.toNat) }).setF
        F.SEAM_GRP_STAT_PENDING 0 1).setF F.SEAM_GRP_STAT_PEND_GRP 0 g)) ∧
    (∀ sw rest, s.dev.seam.groups = sw :: rest → s.dev.seam.switching = true → s.dev.groupPassed = true → s.dev.seam.grpPend = none →
      ∃ d, Gives .groupSwitchComplete s d ∧ d.seam.switching = false ∧ d.getF F.SEAM_GRP_STAT_SWITCHING = 0 ∧
        d.getF F.SEAM_GRP_STAT_ACT = sw.new % 2 ^ F.SEAM_GRP_STAT_ACT.len ∧
        d.getF F.SEAM_GRP_CNT_CNT = (s.dev.getF F.SEAM_GRP_CNT_CNT + 1) % 2 ^ F.SEAM_GRP_CNT_CNT.len) ∧
    (s.dev.reqUp req = true → s.dev.mayWrite req .SEAM_PADDR 0 = true →
      let a := x.toNat % 2 ^ F.SEAM_PADDR_ADDR.len
      let typ := ((s.dev.seam.design.points.find? fun p => p.addr == a).map fun p => p.typ).getD 0
      let v := SMap.getD s.dev.seam.points a (pointDefault typ)
      ∃ d, Gives (.pointLatch req x) s d ∧ d = { s.dev with regs := d.regs } ∧ d.getF F.SEAM_PVAL_VALUE req.slot = v.val % 2 ^ 64 ∧
        d.getF F.SEAM_PMETA_QUAL req.slot = v.qual % 2 ^ F.SEAM_PMETA_QUAL.len ∧
        d.getF F.SEAM_PMETA_TYPE req.slot = typ % 2 ^ F.SEAM_PMETA_TYPE.len ∧ d.getF F.SEAM_PSTEP_STEP req.slot = v.step % 2 ^ F.SEAM_PSTEP_STEP.len ∧
        d.getB F.SEAM_PMETA_HELD req.slot = ((s.dev.face (a / 4096)).st == .halted || (s.dev.face (a / 4096)).st == .offline))

/-- R254, R257 to R259: while the faces run, the end of a calendar second books an ENERGY cell's sums, the end of an interval closes it in a BALANCE cell, a report reaches its
cell once a step of the fixed domain has begun after its batch, and the oldest closed interval is judged once its reports are in or TDL has passed.  Stated of a cell of which
one copy runs. -/
def Obligations.EnergyAndBalanceCellsBookCloseAndJudge : Prop :=
  ∀ (s : State) (node : BitVec 20) (g : Nat), s.dev.On → s.dev.seamOn = true →
    let c := s.dev.cell node.toNat 0
    let set (i : Nat) : Rat := s.dev.setNow node.toNat g i
    (s.dev.liveCopies node.toNat 0x0060 = [(0, g)] → c.f 12 = true →
      Gives (.energyBooking node) s ((s.dev.setCell node.toNat 0 (energyBook c)).refreshOuts node.toNat 0 g (energyOuts (energyBook c)))) ∧
    (s.dev.liveCopies node.toNat 0x0061 = [(0, g)] →
      let b := s.dev.balanceBoundary (set 0).num.toNat
      c.c 0 < b → Gives (.balanceIntervalClose node) s (s.dev.setCell node.toNat 0 (balanceClose c b s.dev.tsc false))) ∧
    (∀ r rs, s.dev.seam.reports = r :: rs → r.node = node.toNat → r.step < s.dev.domNext 12 → s.dev.liveCopies node.toNat 0x0061 = [(0, g)] →
      let c' := balanceReport c r.slot r.start r.status (set 1).num.toNat r.energy
      Gives .balanceReportDelivery s
        (((s.dev.setSeam { s.dev.seam with reports := rs }).setCell node.toNat 0 c').refreshOuts node.toNat 0 g (balanceOuts c'))) ∧
    (∀ i is, s.dev.liveCopies node.toNat 0x0061 = [(0, g)] → c.ints = i :: is →
      (set 1).num.toNat ≤ i.reports.length ∨ i.closed + (set 4).num.toNat * 1000000000 ≤ s.dev.tsc →
      let r := balanceJudge c i (set 1).num.toNat (set 6).num.toNat (set 2) (set 3) (set 5)
      Gives (.balanceJudge node) s (((s.dev.setCell node.toNat 0 r.1).refreshOuts node.toNat 0 g (balanceOuts r.1)).record 0x0050 (0x100 + g)
        [(4, node.toNat), (8, i.start * 1000000000), (4, f32Of r.2.1), (4, f32Of r.2.2.1), (1, r.2.2.2.1.toNat), (1, r.2.2.2.2)]))

/-! ### Travelling waves (R266 to R283) -/

/-- R271, R275 to R278, R283: an event past its window closes, with its single-ended status shown; a far arrival submitted to a group without
double-ended location, or not matched within 100 ms, counts as unmatched, one that no event matches yet is held, and one that matches the event nearest
in time marks it and gives the double-ended result; a commit that keeps the group's conditions takes effect at once where no event is open and waits otherwise. -/
def Obligations.TravellingWaveEventsAndFarArrivals : Prop :=
  ∀ (s : State) (g : Fin 4) (req : Requester) (data : Word), s.dev.On →
    let x := s.dev.grp g
    (∀ e k, s.dev.twuOn = true → x.open_ = some e → x.next = some k → x.change = false →
      e.k0 + x.cfg.twin * (if (SMap.getD s.dev.twu.blk (x.cfg.chans.getD 0 0) (0, false)).2 then 40 else 20) + x.cfg.d ≤ k →
      ∃ d, Gives (.twEventClose g) s d ∧ (d.grp g).open_ = none ∧ ((d.grp g).closed.head?.map fun y => y.seq) = some e.seq ∧
        d.getF F.TWU_GSTAT_IN_EVENT g = 0 ∧
        (x.cfg.se = true → d.getF F.TWU_GSE_EVSEQ g = e.seq % 2 ^ F.TWU_GSE_EVSEQ.len ∧
          d.getF F.TWU_GSE_STATUS g = (if (x.cfg.reflection e).isSome then 1 else 3) ∧
          (x.cfg.reflection e = none → d.getF F.TWU_GSE_DIST g = 0)) ∧
        ∀ h, h ≠ g.val → d.grp h = s.dev.grp h) ∧
    (∀ tb locked t, s.dev.twuOn = true → x.far = some (tb, locked, t) → t + 100000000 ≤ s.dev.tsc →
      Gives (.farArrivalExpire g) s ((s.dev.setGrp g { x with far := none }).incF F.TWU_FARCNT_UNMATCHED)) ∧
    (s.dev.Accepts req .TWU_FARGO 0 data → s.dev.twuOn = true → data.getLsbD F.TWU_FARGO_GO.lo = true →
      data.getLsbD (16 + F.TWU_FARGO_GO.lo) = true →
      let w := s.dev.stored .TWU_FARGO 0 data
      let n := w.getF F.TWU_FARGO_GROUP
      let tb := 20 * w.getF F.TWU_FARCAL_CAL + w.getF F.TWU_FARGO_FRAC
      ((w.grp n).cfg.de = false → Gives (.farArrivalSubmit req data) s (w.incF F.TWU_FARCNT_UNMATCHED)) ∧
      ((w.grp n).cfg.de = true → (w.grp n).match_ tb = none → (w.grp n).far = none →
        Gives (.farArrivalSubmit req data) s (w.setGrp n { w.grp n with far := some (tb, w.getB F.TWU_FARGO_LOCKED, w.tsc) })) ∧
      (∀ e, (w.grp n).cfg.de = true → (w.grp n).match_ tb = some e → e.far = true →
        Gives (.farArrivalSubmit req data) s (w.incF F.TWU_FARCNT_DUP)) ∧
      (∀ e, (w.grp n).cfg.de = true → (w.grp n).match_ tb = some e → e.far = false →
        ∃ d, Gives (.farArrivalSubmit req data) s d ∧ d.grp n = (w.grp n).setFar e.seq ∧
          d.getF F.TWU_GDE_EVSEQ n = e.seq % 2 ^ F.TWU_GDE_EVSEQ.len ∧ d.bitF F.TWU_STAT_DE_DONE 0 n = true ∧
          (e.locked = false ∨ w.getB F.TWU_FARGO_LOCKED = false → d.getF F.TWU_GDE_STATUS n = 5 ∧ d.getF F.TWU_GDE_DIST n = 0))) ∧
    (s.dev.Accepts req .TWU_GCTL g data →
      let new := s.dev.committed .TWU_GCTL g data
      new.velBroken g = false → new.grpBroken g = false →
      ∃ d, Gives (.twuGroupCommit req g data) s d ∧ d = { s.dev with regs := d.regs, holding := d.holding, twu := d.twu } ∧
        (x.open_ = none → (d.grp g).cfg = new.grpCfg g ∧ (d.grp g).sig = [] ∧ (d.grp g).change = false) ∧
        (x.open_.isSome = true → d.grp g = { x with change := true }) ∧ ∀ h, h ≠ g.val → d.grp h = s.dev.grp h)

/-! ### Field input and output (R285 to R318) -/

/-- R294 to R300, R316 to R318: at its instant a bank sends the driver states of its outputs, its frame number, and CFG of the next pin or the oldest
waiting command; a good downlink frame is taken by a powered field side, a bad one is counted; the three commands do to the field side what they
name; a powered field side answers with readback of its outputs and the classes of its inputs; a good uplink frame is taken, a bad one counted;
three missed make the bank SILENT. -/
def Obligations.BarrierFramesCarryStatesAndCommands : Prop :=
  ∀ (s : State) (n : Fin 4) (err : BitVec 80) (pins : List (Int × Int)), s.dev.On →
    let b := s.dev.bank n
    let f := s.dev.fieldSide n
    (s.dev.bankRuns n = true → s.dev.tsc % 10000 = 2000 * n.val →
      let on := (List.range 16).foldl (fun v i => putBit v i (s.dev.driver (16 * n + i) && s.dev.pinCfg (16 * n + i) % 2 == 1)) 0
      let t := s.dev.dueTransition n
      let timed := (t.map fun x => (x.1.ch % 16) * 2 ^ 16 + x.1.state.toNat * 2 ^ 20 + 2 ^ 21 + x.2.1 * 2 ^ 22).getD 0
      let sent := (t.map fun x => putBit on (x.1.ch % 16) x.1.state).getD on
      let cmd := match b.cmds with
        | (1, _) :: _ => 2 ^ 35
        | (_, m) :: _ => 2 ^ 36 + m * 2 ^ 42
        | [] => b.cpin * 2 ^ 38 + s.dev.pinCfg (16 * n + b.cpin) * 2 ^ 42
      ∃ d, Gives (.downlinkFrame n) s d ∧
        d.bank n = { b with
          seq := (b.seq + 1) % 256
          cpin := if b.cmds = [] then (b.cpin + 1) % 16 else b.cpin
          cmds := b.cmds.drop 1
          down := some (barrierFrame (on + timed + b.seq * 2 ^ 27 + cmd))
          sent := sent } ∧
        d.getF F.FIO_DRV_DRV n = sent % 2 ^ F.FIO_DRV_DRV.len ∧ (t = none → d.fio.pows = s.dev.fio.pows) ∧
        ∀ p dly late, t = some (p, dly, late) → d.fio.pows = s.dev.fio.pows.erase p ∧
          d.getF F.FIO_SCHED_EXEC = min (s.dev.getF F.FIO_SCHED_EXEC + 1) (2 ^ F.FIO_SCHED_EXEC.len - 1) ∧
          (late = true → d.getF F.FIO_STAT_SCHED_LATE = 1)) ∧
    (∀ w, b.down = some w → f.powered = true →
      (∀ p, framePayload (w ^^^ err) = some p →
        Gives (.downlinkReceive n err) s ((s.dev.setBank n { b with down := none }).setField n (f.good p))) ∧
      (framePayload (w ^^^ err) = none →
        Gives (.downlinkReceive n err) s (((s.dev.setBank n { b with down := none }).setField n { f with lastGood := none }).incF F.FIO_CNT_CRC n)) ∧
      (∀ p, framePayload w = some p → f.held = false →
        (bits p 35 3 = 0 → ∃ d, Gives (.cmdCfg n) s d ∧ (d.fieldSide n).cfg = SMap.set f.cfg (bits p 38 4) (bits p 42 16)) ∧
        (bits p 35 3 = 1 → ∃ d, Gives (.cmdInterrogate n) s d ∧ (d.fieldSide n).sweep = true ∧ (d.fieldSide n).nib = none) ∧
        (bits p 35 3 = 2 → ∃ d, Gives (.cmdClear n) s d ∧
          ∀ q, q < 16 → (bits p 42 16).testBit q = true →
            (d.fieldSide n).latched.testBit q = false ∧ (d.fieldSide n).perm.testBit q = false ∧ SMap.getD (d.fieldSide n).events q 0 = 0 ∧
            (f.latched.testBit q = true → f.perm.testBit q = true → (d.fieldSide n).driver q = false)))) ∧
    (pins.length = 16 → f.powered = true →
      ∃ d payload, Gives (.uplinkFrame n pins) s d ∧ (d.bank n).up = some (barrierFrame payload) ∧
        ∀ (p : Fin 16) (mv ua : Int), pins[p.val]? = some (mv, ua) →
          (f.isOut p = false → SMap.getD (d.fieldSide n).cls p 0 = classify (SMap.getD f.cfg p 0) (SMap.getD f.cls p 0) mv ua) ∧
          (f.isOut p = true → 10000 < mv → (d.fieldSide n).rb.testBit p = true) ∧
          (f.isOut p = true → mv < 5000 → (d.fieldSide n).rb.testBit p = false) ∧
          payload.testBit p = if f.isOut p then (d.fieldSide n).rb.testBit p else SMap.getD (d.fieldSide n).cls p 0 == 1) ∧
    (∀ w, b.up = some w → s.dev.bankRuns n = true →
      (∀ p, framePayload (w ^^^ err) = some p →
        ∃ d, Gives (.uplinkReceive n err) s d ∧ (d.bank n).up = none ∧ (d.bank n).last = p ∧ (d.bank n).good = b.good + 1 ∧
          (d.bank n).silent = (b.silent && decide (b.good = 0))) ∧
      (framePayload (w ^^^ err) = none →
        Gives (.uplinkReceive n err) s
          (((s.dev.setBank n { b with up := none }).setBank n { b with up := none, good := 0 }).incF F.FIO_CNT_CRC n))) ∧
    (s.dev.bankRuns n = true → b.silent = false →
      ∃ d, Gives (.bankSilent n) s d ∧ (d.bank n).silent = true ∧ d.bitF F.FIO_STAT_SILENT 0 n = true ∧
        d.getF F.FIO_CNT_SILENCES n = min (s.dev.getF F.FIO_CNT_SILENCES n + 1) (2 ^ F.FIO_CNT_SILENCES.len - 1) ∧
        (s.dev.getB F.FIO_BSTAT_INTG_BUSY n = true → d.getB F.FIO_BSTAT_INTG_BUSY n = false ∧ d.getB F.FIO_BSTAT_INTG_FAIL n = true))

/-- R293, R294, R297, R299, R301, R303, R305: what each event of a field side makes of it.  It happens in every mode, OFF included, changes no other
field side and no mode, and while the logic side has power BANKn_FAULT tells the bank's state after it (R302). -/
def Obligations.FieldSidesFollowTheirEvents : Prop :=
  ∀ (s : State) (n : Fin 4) (p : Fin 16) (vfld : Byte) (b : Bool),
    let f := s.dev.fieldSide n
    let shows (c : Instr) (f' : Field) : Prop := ∃ d, Gives c s d ∧ d.fieldSide n = f' ∧ (∀ m, m ≠ n.val → d.fieldSide m = s.dev.fieldSide m) ∧
      d.mode = s.dev.mode ∧ d.fio = s.dev.fio ∧ (s.dev.On → d.bitF F.FIO_STAT_BANK_FAULT 0 n = d.bankFault n)
    (∀ q v, f.timed = some (q, v) →
      let off := f.latched &&& (0xFFFF - putBit f.drv q v) &&& (0xFFFF - f.perm)
      shows (.timedTransition n) { f with
        drv := putBit f.drv q v, timed := none, latched := f.latched - off, retry := f.retry.filter fun e => !(off.testBit e.1) }) ∧
    (f.powered = true → f.held = false → shows (.fieldSideHold n) { f with held := true, lastGood := none, silentS := true }) ∧
    (f.driver p = true → shows (.currentLimitEntry n p) { f with limit := f.limit ||| 2 ^ p.val, energy := f.energy ||| 2 ^ p.val }) ∧
    shows (.currentLimitExit n p) { f with limit := putBit f.limit p false } ∧
    (f.limit.testBit p = true → f.driver p = true →
      shows (.currentLimitLatch n p) { f with
        latched := f.latched ||| 2 ^ p.val
        events := SMap.set f.events p (SMap.getD f.events p 0 + 1)
        limit := putBit f.limit p false
        perm := if 3 ≤ SMap.getD f.events p 0 then f.perm ||| 2 ^ p.val else f.perm
        retry := if 3 ≤ SMap.getD f.events p 0 then f.retry else SMap.set f.retry p 0 }) ∧
    (f.limit.testBit p = false → shows (.limitEnergyReset n p) { f with energy := putBit f.energy p false }) ∧
    (f.latched.testBit p = true → f.perm.testBit p = false → f.drv.testBit p = true → f.held = false → f.uvOff = false →
      1000000000 ≤ SMap.getD f.retry p 0 →
      shows (.outputRetry n p) { f with latched := putBit f.latched p false, retry := SMap.erase f.retry p }) ∧
    (f.driver p = true → f.limit.testBit p = false → shows (.eventCountReset n p) { f with events := SMap.set f.events p 0 }) ∧
    (f.powered = true → f.isOut p = true → f.rb.testBit p ≠ f.driver p → f.latched.testBit p = false → f.uvOff = false →
      shows (.readbackMismatch n p) { f with mis := f.mis ||| 2 ^ p.val }) ∧
    (f.powered = true → f.sweep = true →
      shows (.interrogationSweepDone n vfld) { f with sweep := false, cause := f.causeWord vfld.toNat, nib := some 0 }) ∧
    shows (.fieldSupplyWarning n b) { f with uvw := b } ∧
    shows (.fieldInputFail n b) { f with inFail := b } ∧
    shows (.fieldUvOff n) { f with uvOff := true, uvoffS := true, limit := 0 } ∧
    (f.powered = true → shows (.uvOffRelease n) { f with uvOff := false }) ∧
    shows (.fieldSideReset n) {} ∧
    (f.powered = false → shows (.fieldSideResetRelease n) { ({} : Field) with powered := true }) ∧
    shows (.fieldOvertemp n b) { f with ot := b }

/-- R292, R294, R303, R308, R313, R314, R316: a request interrogates an idle bank and is refused to a busy one; CLEAR names the selected pins; the
barrier's start lets the frames begin and brings the Canary's arming up to date; an input whose class has stood for its FILT time takes it; an armed entry
with four outputs in a row above its threshold operates, and lets go when HOLD has passed; a transition due within 200 µs is given its frame. -/
def Obligations.BankCommandsInputsCanaryAndTransitions : Prop :=
  ∀ (s : State) (req : Requester) (data : Word) (n : Fin 4) (p : Fin 16) (c : Fin 64), s.dev.On →
    (s.dev.Accepts req .FIO_INTG 0 data → data.getLsbD F.FIO_INTG_GO.lo = true → data.getLsbD (16 + F.FIO_INTG_GO.lo) = true →
      let w := s.dev.stored .FIO_INTG 0 data
      let k := w.getF F.FIO_INTG_BANK
      (w.getB F.FIO_BSTAT_INTG_BUSY k = false → Gives (.interrogationRequest req data) s
        ((w.setBank k { w.bank k with cmds := (w.bank k).cmds ++ [(1, 0)], word := 0 }).setF F.FIO_BSTAT_INTG_BUSY k 1)) ∧
      (w.getB F.FIO_BSTAT_INTG_BUSY k = true → Gives (.interrogationRequest req data) s (w.setBit F.FIO_STAT_INTG_REJ 0 k))) ∧
    (s.dev.Accepts req .FIO_CLRMASK 0 data →
      let w := s.dev.committed .FIO_CLRMASK 0 data
      let k := w.getF F.FIO_CLRSEL_BANK
      ∃ d, Gives (.fioClearCommit req data) s d ∧
        d.bank k = { s.dev.bank k with cmds := (s.dev.bank k).cmds ++ [(0, ctlPayload data &&& ctlMask data)] } ∧
        (∀ m, m ≠ k → d.bank m = s.dev.bank m) ∧ d = { s.dev with regs := d.regs, holding := d.holding, fio := d.fio }) ∧
    (s.dev.fio.started = false →
      ∃ d, Gives .barrierStart s d ∧ d.fio.started = true ∧ d.getB F.FIO_CNY_ARMED = d.canaryWanted ∧ d.mode = s.dev.mode) ∧
    (∀ k t, (SMap.getD (s.dev.bank n).filt p {}).run = some (k, t) → s.dev.bankRuns n = true → k ≠ 2 →
      (SMap.getD (s.dev.bank n).filt p {}).state ≠ some k → t + filtTime (s.dev.pinCfg (16 * n + p) / 8 % 8) ≤ s.dev.tsc + 10000 →
      ∃ d, Gives (.inputFilterChange n p) s d ∧ (SMap.getD (d.bank n).filt p {}).state = some k ∧
        (∀ q, q ≠ p.val → SMap.getD (d.bank n).filt q {} = SMap.getD (s.dev.bank n).filt q {}) ∧
        (s.dev.pinCfg (16 * n + p) % 2 = 0 → (s.dev.bank n).silent = false → (s.dev.bank n).last.testBit 42 = false →
          SMap.get? d.seam.fieldIn (16 * n + p) = some ⟨k, 1, 0⟩)) ∧
    (∀ t, s.dev.canaryTable = some t →
      let x := canaryEntry t p
      let run := (s.dev.chain x.ch).canaryRun
      (x.en = true → s.dev.getB F.FIO_CNY_ARMED = true → SMap.get? s.dev.fio.canary p = none → run.length = 4 → (∀ y ∈ run, x.hit y = true) →
        s.dev.getB F.AFE_CHSTAT_DARK x.ch = false →
        ∃ d, Gives (.canaryOperate p) s d ∧ SMap.get? d.fio.canary p = some s.dev.tsc ∧ d.bitF F.FIO_CNY_OP 0 p = true ∧
          ∀ q, x.outmask.testBit q = true → d.driver q = true) ∧
      (∀ at0, SMap.get? s.dev.fio.canary p = some at0 → at0 + 1000000 * x.hold ≤ s.dev.tsc →
        Gives (.canaryHoldExpire p) s { s.dev with fio := { s.dev.fio with canary := SMap.erase s.dev.fio.canary p } })) ∧
    (∀ w, s.dev.fio.pows = [w] → w.ch = c.val → w.fixed = none →
      let r := (s.dev.angle w.clk).convert s.dev.tsc w.ai
      let tf := (r.1 + 500) / 1000 * 1000
      r.2 ≠ 2 → r.1 < s.dev.tsc + 200000 → Gives (.powTransitionFix c) s
        { s.dev with fio := { s.dev.fio with pows := [{ w with fixed := some (tf, frameFor (c.val / 16) tf, false) }] } })

/-! ### Assay (R320 to R342) -/

/-- R320, R321, R323, R325, R326: a rise of RUN enters state 0 and RESTART asks for it at the next tick; a tick takes each running sequencer's lowest enabled
transition, which counts and enters its target state, or counts its counters; it uses up what was presented.  A timer that has run out stays fired; an item is
committed whole; a half's comparators are given a range of samples once it is there.  The tick is stated of one running sequencer. -/
def Obligations.SequencersRunOnTicks : Prop :=
  ∀ (s : State) (q : Fin 8) (i : Fin 2) (h : Half) (n : BitVec 48) (req : Requester) (data : Word), s.dev.On →
    let st := s.dev.getF F.ASY_SQSTAT_STATE q
    (s.dev.Accepts req .ASY_SQCTL q data →
      let w := s.dev.stored .ASY_SQCTL q data
      let strobe := data.getLsbD F.ASY_SQCTL_RESTART.lo && data.getLsbD (16 + F.ASY_SQCTL_RESTART.lo)
      (s.dev.asyRuns = true → s.dev.getB F.ASY_SQCTL_RUN q = false → w.getB F.ASY_SQCTL_RUN q = true → strobe = false →
        ∃ d, Gives (.sequencerRun req q data) s d ∧ d.getB F.ASY_SQSTAT_RUNNING q = true ∧ d.getF F.ASY_SQSTAT_STATE q = 0 ∧
          (d.seqr q).cnt = [0, 0] ∧ (d.seqr q).start = s.dev.tickNext ∧ ∀ r, r ≠ q.val → d.seqr r = s.dev.seqr r) ∧
      (w.getB F.ASY_SQCTL_RUN q = false → Gives (.sequencerRun req q data) s (w.setB F.ASY_SQSTAT_RUNNING q false)) ∧
      (s.dev.asyRuns = true → s.dev.getB F.ASY_SQCTL_RUN q = true → w.getB F.ASY_SQCTL_RUN q = true → strobe = true →
        ∃ d, Gives (.sequencerRestart req q data) s d ∧ d.seqr q = { s.dev.seqr q with restart := true } ∧
          d.getF F.ASY_SQSTAT_STATE q = s.dev.getF F.ASY_SQSTAT_STATE q)) ∧
    (s.dev.asyRuns = true → s.dev.tsc % 50 = 0 → s.dev.asy.tickAt ≠ some s.dev.tsc → s.dev.getB F.ASY_SQSTAT_RUNNING q = true →
      (∀ r : Fin 8, r ≠ q → s.dev.getB F.ASY_SQSTAT_RUNNING r = false) →
      ∃ d, Gives .sequencerTick s d ∧ d.asy.pres = [] ∧ d.asy.before = s.dev.asy.pts ∧ d.asy.tickAt = some s.dev.tsc ∧
        ((s.dev.seqr q).restart = true → d.getF F.ASY_SQSTAT_STATE q = 0 ∧ (d.seqr q).restart = false) ∧
        (∀ t, (s.dev.seqr q).restart = false → s.dev.seqTransition q (s.dev.seqEvents q).1 = some t →
          d.getF F.ASY_SQSTAT_STATE q = bits (s.dev.seqItem q st (8 + t)) 10 4 % 2 ^ F.ASY_SQSTAT_STATE.len ∧
          d.getF F.ASY_SQSTAT_TRANS q = min (s.dev.getF F.ASY_SQSTAT_TRANS q + 1) (2 ^ F.ASY_SQSTAT_TRANS.len - 1) ∧
          (d.seqr q).cnt = [0, 0] ∧ (d.seqr q).start = s.dev.tsc) ∧
        ((s.dev.seqr q).restart = false → s.dev.seqTransition q (s.dev.seqEvents q).1 = none →
          d.getF F.ASY_SQSTAT_STATE q = st ∧ (d.seqr q).cnt = (s.dev.seqEvents q).2)) ∧
    (s.dev.asyRuns = true → s.dev.getB F.ASY_SQSTAT_RUNNING q = true →
      Gives (.sequencerTimerExpiry q i) s (s.dev.setSeqr q { s.dev.seqr q with fired := (s.dev.seqr q).fired.set i (s.dev.timerFired q st i) })) ∧
    (s.dev.Accepts req .ASY_SQW3 0 data →
      let new := s.dev.committed .ASY_SQW3 0 data
      let v := new.getF F.ASY_SQW0_W + 2 ^ 16 * new.getF F.ASY_SQW1_W + 2 ^ 32 * new.getF F.ASY_SQW2_W + 2 ^ 48 * new.getF F.ASY_SQW3_W
      itemBad (new.getF F.ASY_SQSEL_ITEM) v = false →
      ∃ d, Gives (.seqItemCommit req data) s d ∧
        d.seqItem (new.getF F.ASY_SQSEL_SEQ) (new.getF F.ASY_SQSEL_STATE) (new.getF F.ASY_SQSEL_ITEM) = v ∧
        d = { s.dev with regs := d.regs, holding := d.holding, asy := d.asy }) ∧
    (s.dev.asyRuns = true → SMap.getD s.dev.asy.range h.num 0 ≤ n.toNat → s.dev.halfOff h = false →
      (h.channels.all fun c => s.dev.rawReached c (if s.dev.getB F.AFE_CHSTAT_RATE40 c then 64 * n.toNat + 63 else 32 * n.toNat + 31)) = true →
      let d0 := s.dev.setAsy { s.dev.asy with range := SMap.set s.dev.asy.range h.num (n.toNat + 1) }
      ((∀ r, r < 16 → s.dev.getB F.ASY_RCMP_EN r = false) → Gives (.rawCrossingPresent h n) s d0) ∧
      (∀ r, r < 16 → s.dev.getB F.ASY_RCMP_EN r = true → h.channels.contains (s.dev.getF F.ASY_RCMP_CH r) = true →
        (∀ k, k < 16 → k ≠ r → s.dev.getB F.ASY_RCMP_EN k = false) → Gives (.rawCrossingPresent h n) s (d0.cmpRange r n.toNat)))

/-- R17, R328 to R339: a commit that starts or restarts an area arms it with the committed lengths, FULL where no slot is free; one that
takes RUN away idles it; returned slots arm a FULL area.  When a segment's last sample is here its header and data go to its slot through skip 26, WIDX counts it, SEG_DONE tells
it, and the area arms again, is idle or, where a mask test asked for it, STOPPED; one that the staging buffer cannot hold, or whose first sample has left the raw ring, is LOST: its
header alone goes.  A lump of skip 26 writes its octets into record memory at its address and nowhere else. -/
def Obligations.AreasArmAndKeepTheirSegments : Prop :=
  ∀ (s : State) (a : Fin 8) (req : Requester) (data : Word), s.dev.On → s.dev.asyRuns = true →
    let used (d : Dev) : Nat := (d.getF F.ASY_ASTAT_WIDX a + 8192 - d.getF F.ASY_ARIDX_RIDX a) % 8192
    let full (d : Dev) : Prop := d.getB F.ASY_ACTL_FULL a = false ∧ used d = d.getF F.ASY_ASEGS_SEGS a
    (s.dev.Accepts req .ASY_ACTL a data →
      let new := s.dev.committed .ASY_ACTL a data
      let strobe := data.getLsbD F.ASY_ACTL_RESTART.lo && data.getLsbD (16 + F.ASY_ACTL_RESTART.lo)
      (new.areaBroken a = false → (strobe = true ∨ s.dev.getB F.ASY_ACTL_RUN a = false ∧ (s.dev.area a).frozen = []) →
        new.getB F.ASY_ACTL_RUN a = true → (s.dev.area a).seg = none →
        ∃ d, Gives (.areaRestart req a data) s d ∧ Gives (.areaCommit req a data) s d ∧
          d.area a = { s.dev.area a with
            segno := 0
            fresh := true
            frozen := []
            len := new.areaLen a
            post := min (new.areaPost a) (new.areaLen a - 1)
            postReq := new.areaPost a } ∧
          (full new → d.getF F.ASY_ASTAT_STATE a = 3) ∧ (¬full new → d.getF F.ASY_ASTAT_STATE a = 1) ∧ d.recMem = s.dev.recMem) ∧
      (new.getB F.ASY_ACTL_RUN a = false → strobe = false → (s.dev.area a).seg = none →
        ∃ d, Gives (.areaCommit req a data) s d ∧ d.getF F.ASY_ASTAT_STATE a = 0 ∧ d.asy = s.dev.asy ∧ d.recMem = s.dev.recMem) ∧
      (new.areaBroken a = true → Gives (.areaCommit req a data) s (s.dev.trouble F.TRB_STICKY0_BUS_VALUE))) ∧
    (s.dev.Accepts req .ASY_ARIDX a data →
      let new := s.dev.stored .ASY_ARIDX a data
      ∃ d, Gives (.asyRidxWrite req a data) s d ∧ d.getF F.ASY_ARIDX_RIDX a = new.getF F.ASY_ARIDX_RIDX a ∧
        (s.dev.getF F.ASY_ASTAT_STATE a = 3 → s.dev.getB F.ASY_ACTL_FULL a = false → ¬full new → d.getF F.ASY_ASTAT_STATE a = 1) ∧
        (s.dev.getF F.ASY_ASTAT_STATE a ≠ 3 → d.getF F.ASY_ASTAT_STATE a = s.dev.getF F.ASY_ASTAT_STATE a ∧ d.asy = s.dev.asy)) ∧
    (∀ x noRoom, (s.dev.area a).seg = some x → s.dev.segReached a x = true →
      let lost := noRoom || s.dev.stagingFull (128 + s.dev.areaData a x.len) || decide (s.dev.sampleInst a x.first + 40000000000 < 20 * s.dev.tsc)
      let body := s.dev.segData a x
      let bytes := s.dev.segHeader a x body.2.1 body.2.2 lost ++ if lost then [] else body.1
      ∃ d, Gives (.segmentCaptureEnd a noRoom) s d ∧ d.skip 26 = (s.dev.store (s.dev.slotAt a (s.dev.segSlot a)) bytes).skip 26 ∧
        d.recMem = s.dev.recMem ∧ d.getF F.ASY_ASTAT_WIDX a = (s.dev.getF F.ASY_ASTAT_WIDX a + 1) % 2 ^ F.ASY_ASTAT_WIDX.len ∧
        (lost = false → d.bitF F.ASY_STAT_SEG_DONE 0 a = true) ∧
        (lost = true → d.bitF F.ASY_STAT_LOST 0 a = true ∧
          d.getF F.ASY_ACNT_LOST a = min (s.dev.getF F.ASY_ACNT_LOST a + 1) (2 ^ F.ASY_ACNT_LOST.len - 1)) ∧
        (d.area a).seg = none ∧ (d.area a).segno = (s.dev.area a).segno + 1 ∧
        (x.maskno = none → s.dev.getB F.ASY_ACTL_RUN a = false → d.getF F.ASY_ASTAT_STATE a = 0) ∧
        (x.maskno.isSome = true → d.getF F.ASY_ASTAT_STATE a = 4 ∧ d.bitF F.ASY_STAT_STOPPED 0 a = true ∧
          (d.area a).frozen = s.dev.segSlot a :: (s.dev.area a).frozen) ∧ ∀ b, b ≠ a.val → d.area b = s.dev.area b) ∧
    (∀ l rest adr b, (s.dev.skip 26).st = .run → (s.dev.skip 26).queue = l :: rest → l.body = .store adr b →
      ∃ d, Gives (.lumpReceive 26) s d ∧ (∀ (k : Nat) (hk : k < b.length), d.recMem.read (adr + k) = b[k]) ∧
        ∀ k, k < adr ∨ adr + b.length ≤ k → d.recMem.read k = s.dev.recMem.read k)

/-- R35, R338, R340 to R342: a committed mask test starts anew; a limit is committed to its place, or refused outside the cycle of its test; a committed trend channel waits for
the first boundary after now, or stops; the earliest ended interval's record of 48 B goes to its place in the trend ring through skip 26, or, where the staging buffer has no
room, is lost and counted, which the next record shows. -/
def Obligations.MaskTestsLimitsAndTrends : Prop :=
  ∀ (s : State) (m : Fin 8) (n : Fin 32) (req : Requester) (data : Word), s.dev.On →
    (s.dev.Accepts req .ASY_MKCTL m data → (s.dev.committed .ASY_MKCTL m data).maskBroken m = false →
      ∃ d, Gives (.maskTestCommit req m data) s d ∧ SMap.get? d.asy.masks m = none ∧ d.getF F.ASY_MKSTAT_HOLDOFF m = 0 ∧
        d = { s.dev with regs := d.regs, holding := d.holding, asy := d.asy }) ∧
    (s.dev.Accepts req .ASY_ENVHI 0 data →
      let new := s.dev.committed .ASY_ENVHI 0 data
      (new.envBroken = false → ∃ d, Gives (.envelopeLimitCommit req data) s d ∧
        d.limit (new.getF F.ASY_ENVSEL_MASK) (new.getF F.ASY_ENVSEL_UL) (new.getF F.ASY_ENVSEL_IDX) =
          f32 (new.getF F.ASY_ENVLO_LIM_LO + 65536 * new.getF F.ASY_ENVHI_LIM_HI) ∧
        d = { s.dev with regs := d.regs, holding := d.holding, asy := d.asy }) ∧
      (new.envBroken = true → Gives (.envelopeLimitCommit req data) s (s.dev.trouble F.TRB_STICKY0_BUS_VALUE))) ∧
    (s.dev.Accepts req .ASY_TCTL n data →
      let new := s.dev.committed .ASY_TCTL n data
      s.dev.asyRuns = true → new.trendBroken n = false →
      (new.getB F.ASY_TCTL_EN n = false →
        Gives (.trendChannelCommit req n data) s (new.setTrend n { s.dev.trend n with skip := none, cur := none })) ∧
      (∀ p, new.getB F.ASY_TCTL_EN n = true → new.trendPoint n = some p →
        let dom := s.dev.seam.design.domainOf (faceOf p)
        Gives (.trendChannelCommit req n data) s
          (new.setTrend n { skip := some (new.trendId n (s.dev.domNext dom - 1) s.dev.tsc dom), ended := (s.dev.trend n).ended }))) ∧
    (∀ c t iv, s.dev.trendDue = some (c, t, iv) →
      let x := s.dev.trend c
      let base := s.dev.getF F.ASY_TBASE_TBASE * 2 ^ 20
      let size := s.dev.getF F.ASY_TSIZE_TSIZE * 2 ^ 20
      let pos := 48 * s.dev.getF F.ASY_TWR_WRITTEN
      ∀ noRoom : Bool, (noRoom = true ∨ size = 0 ∨ s.dev.stagingFull 48 = true →
          ∃ d, Gives (.trendIntervalEnd noRoom) s d ∧ (d.trend c).lost = true ∧ (d.trend c).ended = x.ended.drop 1 ∧
            (d.trend c).seqno = (x.seqno + 1) % 2 ^ 32 ∧ d.recMem = s.dev.recMem ∧ d.skips = s.dev.skips ∧
            d.getF F.ASY_TCNT_LOST = min (s.dev.getF F.ASY_TCNT_LOST + 1) (2 ^ F.ASY_TCNT_LOST.len - 1)) ∧
        (noRoom = false → size ≠ 0 → s.dev.stagingFull 48 = false →
          ∃ d, Gives (.trendIntervalEnd noRoom) s d ∧ (d.trend c).ended = x.ended.drop 1 ∧ (d.trend c).lost = false ∧
            (d.trend c).seqno = (x.seqno + 1) % 2 ^ 32 ∧ d.recMem = s.dev.recMem ∧
            d.getF F.ASY_TWR_WRITTEN = (s.dev.getF F.ASY_TWR_WRITTEN + 1) % 2 ^ F.ASY_TWR_WRITTEN.len ∧
            d.skip 26 = (s.dev.storeRing base size pos (trendBytes c iv x.seqno x.lost)).skip 26))

/-! ### The trigger link (R343 to R347) -/

/-- R343 to R345: the head drives PPS at its whole seconds and sends ADMIN with the second count; a member's third edge from DOWN leads to MEASURE; 256 probes are sent and the first
echoes lead to no result before all have come; a good PROBE gives the position below its origin and is returned as ECHO after 400 ns; ADMIN gives CUM, HOP and S; a lost link is
DOWN with LOSS flagged and everything measured forgotten. -/
def Obligations.TriggerLinkMeasuresAndTimesItself : Prop :=
  ∀ (s : State) (drift rt : Word) (f : BitVec 80), s.dev.On → s.dev.linkRuns = true →
    let t := s.dev.tlk
    let st := s.dev.getF F.TLK_STAT_STATE
    (s.dev.isHead = true → s.dev.tsc % 1000000000 = 0 →
      Gives .headPps s { s.dev with out := s.dev.out ++ [.linkPps s.dev.tsc, .link true s.dev.tsc (barrierFrame (linkPayload 3 0
        (s.dev.getF F.TLK_STAT_POS) (t.hopDown % 2 ^ 24 + 2 ^ 24 * s.dev.getF F.TLK_CUM_CUM + 2 ^ 48 * (s.dev.tsc / 1000000000 % 256))))] }) ∧
    (s.dev.isHead = false → t.cum = none →
      ∃ d, Gives (.ppsEdgeReceive drift) s d ∧ d.tlk = { t with edges := t.edges + 1, edgeAt := s.dev.tsc, rate := drift.toInt } ∧
        d.out = s.dev.out ++ [.linkPps (s.dev.tsc + 6)] ∧
        d.getF F.TLK_STAT_STATE = (if st = 0 ∧ 2 ≤ t.edges ∧ s.dev.getB F.TLK_STAT_OVERLONG = false then 1 else st)) ∧
    (∀ sec cum, s.dev.isHead = false → t.second = some sec → t.cum = some cum →
      let o := 20000000000 * ((sec : Int) + 1) - (20 * (s.dev.tsc : Int) - cum)
      ∃ d, Gives (.ppsEdgeReceive drift) s d ∧ d.tlk.ofs = o ∧ d.tlk.second = some (sec + 1) ∧ d.tlk.agree = (o :: t.agree).take 3 ∧
        (st = 1 → d.getF F.TLK_STAT_STATE =
          if ((o :: t.agree).take 3).length = 3 ∧ (∀ x ∈ (o :: t.agree).take 3, ∀ y ∈ (o :: t.agree).take 3, x - y ≤ 40) then 2 else 1)) ∧
    (t.probes < 256 → Gives .probeSend s { s.dev with
      out := s.dev.out ++ [.link true s.dev.tsc (barrierFrame (linkPayload 1 0 (s.dev.getF F.TLK_STAT_POS) 0))]
      tlk := { t with probes := t.probes + 1 } }) ∧
    (∀ p, framePayload f = some p → bits p 0 2 = 1 → s.dev.isHead = false → bits p 5 3 ≠ 7 →
      ∃ d, Gives (.probeReceive f) s d ∧ d.getF F.TLK_STAT_POS = (bits p 5 3 + 1) % 2 ^ F.TLK_STAT_POS.len ∧
        d.getB F.TLK_STAT_OVERLONG = false ∧ d.tlk = { t with bad := 0, echoes := t.echoes + 1 } ∧
        d.out = s.dev.out ++ [.link false (s.dev.tsc + 400) (barrierFrame (linkPayload 2 0 (d.getF F.TLK_STAT_POS) 0))]) ∧
    (∀ p, framePayload f = some p → bits p 0 2 = 2 → t.trips.length < t.probes →
      (t.trips.length ≠ 255 → Gives (.echoReceive f rt) s { s.dev with tlk := { t with bad := 0, trips := rt.toNat :: t.trips } }) ∧
      (t.trips.length = 255 → ∃ d, Gives (.echoReceive f rt) s d ∧ d.tlk.trips = [] ∧ d.tlk.probes = 0 ∧
        d.tlk.hopDown = (((rt.toNat : Int) + (t.trips.map fun r => (r : Int)).sum - 256 * 8000) / 512).toNat)) ∧
    (∀ p, framePayload f = some p → bits p 0 2 = 3 → s.dev.isHead = false → bits p 5 3 ≠ 7 → st = 1 → 256 ≤ t.echoes → t.cum = none →
      let cum := bits p 32 24 + bits p 8 24 + 120
      ∃ d sec, Gives (.adminReceive f) s d ∧ d.tlk.cum = some cum ∧ d.getF F.TLK_HOP_HOP = bits p 8 24 % 2 ^ F.TLK_HOP_HOP.len ∧
        d.getF F.TLK_CUM_CUM = cum % 2 ^ F.TLK_CUM_CUM.len ∧ d.tlk.second = some sec ∧
        (t.second = none → sec % 256 = bits p 56 8) ∧
        d.tlk.ofs = 20000000000 * (sec : Int) - (20 * (t.edgeAt : Int) - cum)) ∧
    (s.dev.isHead = false → st = 2 →
      ∃ d, Gives .linkDown s d ∧ d.getF F.TLK_STAT_STATE = 0 ∧ d.bitF F.TLK_STAT_LOSS 0 0 = true ∧ d.tlk = {} ∧ d.getF F.TLK_HOP_HOP = 0 ∧
        d.getF F.TLK_CUM_CUM = 0)

/-- R346, R347: a good TRIGGER counts, goes on from the other port with its payload unchanged within 400 ns, and is presented with its line, its origin and, while the module is UP, the
instant that its sender's link time names.  A bad frame of any kind counts and does nothing else, but that the third in a row ends UP. -/
def Obligations.TriggerFramesAreRepeatedAndPresented : Prop :=
  ∀ (s : State) (portD : Bool) (f : BitVec 80), s.dev.On → s.dev.linkRuns = true →
    let st := s.dev.getF F.TLK_STAT_STATE
    (∀ p, framePayload f = some p → bits p 0 2 = 0 →
      ∃ d k inst, Gives (.triggerFrameReceive portD f) s d ∧ k ≤ 400 ∧
        d.getF F.TLK_CNT_RCVD = min (s.dev.getF F.TLK_CNT_RCVD + 1) (2 ^ F.TLK_CNT_RCVD.len - 1) ∧
        d.out = s.dev.out ++ [.link (!portD) (s.dev.tsc + k) (barrierFrame p)] ∧
        d.asy.pres = s.dev.asy.pres ++ [.link (bits p 2 3) inst (bits p 5 3) (st != 2)] ∧
        (st ≠ 2 → inst = 20 * s.dev.tickNext) ∧
        (∀ b : Nat, st = 2 → bits p 8 56 = unsgn 56 ((b : Int) + s.dev.linkOfs) →
          ((b : Int) - 20 * s.dev.tsc).natAbs < 2 ^ 55 → inst = b)) ∧
    (framePayload f = none →
      ∃ d, Gives (.triggerFrameReceive portD f) s d ∧
        d.getF F.TLK_STAT_BADFRM = min (s.dev.getF F.TLK_STAT_BADFRM + 1) (2 ^ F.TLK_STAT_BADFRM.len - 1) ∧
        d.asy = s.dev.asy ∧ d.out = s.dev.out ∧
        (s.dev.tlk.bad < 2 → d.getF F.TLK_STAT_STATE = st ∧ d.tlk = { s.dev.tlk with bad := s.dev.tlk.bad + 1 }) ∧
        (2 ≤ s.dev.tlk.bad → st = 2 → s.dev.isHead = false → d.getF F.TLK_STAT_STATE = 0))

/-! ### Tally (R352 to R380) -/

/-- R354, R357, R363, R370, R371: a record taken from skip 29 waits in the merge buffer; the first held one is released when it is 25 ms old, into every channel that accepts it and no
other: with the channel's next SEQ, into its near region where that store serves and nowhere else in it, or into the side ring of a frozen channel; a fall of FREEZE lets the side
ring out; OPSEC is stored every second. -/
def Obligations.RecordsMergeAndEnterTheirChannels : Prop :=
  ∀ (s : State) (c : Fin 8) (r : Record) (req : Requester) (data : Word), s.dev.On →
    let x := s.dev.tlyCh c
    let rel := s.dev.released r
    let us := unitsOf x.full x.seq rel false
    (∀ l q, (s.dev.skip 29).st = .run → (s.dev.skip 29).queue = l :: q → l.body = .record r → s.dev.tly.merge.length < 4096 →
      s.dev.tsc < r.tsc + 25000000 → (∀ k, k < 8 → s.dev.tlyAccepts k r = true → s.dev.bitF F.TLY_CHTRG_TRG k (r.typ / 16 % 16) = false) →
      ∃ d, Gives .recordArrival s d ∧ d.tly = { s.dev.tly with merge := s.dev.tly.merge ++ [r] } ∧ (d.skip 29).queue = q ∧
        d = { s.dev with skips := d.skips, tly := d.tly }) ∧
    (firstHeld s.dev.tly.merge = some r → r.tsc + 25000000 ≤ s.dev.tsc → s.dev.nearOk = true ∨ s.dev.farOk = true →
      ∃ d, Gives .recordRelease s d ∧ d.tly.merge = s.dev.tly.merge.erase r ∧ d.tly.lastRel = some (laterKey s.dev.tly.lastRel (recKey r)) ∧
        (s.dev.tlyAccepts c r = false → d.tlyCh c = x) ∧
        (s.dev.tlyAccepts c r = true → s.dev.getB F.TLY_FRZ_FREEZE c = true → x.side.length < 1024 →
          d.tlyCh c = { x with side := x.side ++ [rel] } ∧ d.getB F.TLY_CHSTAT_FROZEN c = true) ∧
        (s.dev.tlyAccepts c r = true → s.dev.getB F.TLY_FRZ_FREEZE c = false →
          (d.tlyCh c).seq = (x.seq + 1) % 2 ^ 32 ∧ (d.tlyCh c).side = x.side ∧
          (s.dev.nearOk = true → 0 < x.nearUnits → (d.tlyCh c).npos = x.npos + us.length ∧
            ((∀ k, k < 8 → k ≠ c.val → s.dev.tlyAccepts k r = false) →
              d.nv.near = writeUnits s.dev.nv.near (x.nbase * 65536) x.unit x.nearUnits x.npos us))) ∧
        ((∀ k, k < 8 → s.dev.tlyAccepts k r = false) → d.nv.near = s.dev.nv.near)) ∧
    (s.dev.tsc % 1000000000 = 0 → Gives .opsecStore s { s.dev with nv := { s.dev.nv with opsec := s.dev.opsecAt s.dev.tsc } }) ∧
    (s.dev.Accepts req .TLY_FRZ c data → (data.getLsbD F.TLY_FRZ_STRIG.lo && data.getLsbD (16 + F.TLY_FRZ_STRIG.lo)) = false →
      let w := s.dev.stored .TLY_FRZ c data
      (w.getB F.TLY_FRZ_FREEZE c = true → ∃ d, Gives (.channelFreeze req c data) s d ∧ d.getB F.TLY_FRZ_FREEZE c = true ∧
        d.getB F.TLY_CHSTAT_FROZEN c = true ∧ d.bitF F.TLY_STAT_FROZEN 0 c = true ∧ d = { s.dev with regs := d.regs }) ∧
      (s.dev.getB F.TLY_FRZ_FREEZE c = true → w.getB F.TLY_FRZ_FREEZE c = false → x.seq < 2 ^ 32 →
        ∃ d, Gives (.channelUnfreeze req c data) s d ∧ (d.tlyCh c).side = [] ∧ (d.tlyCh c).seq = (x.seq + x.side.length) % 2 ^ 32 ∧
          d.getB F.TLY_CHSTAT_FROZEN c = false ∧ ∀ k, k ≠ c.val → d.tlyCh k = s.dev.tlyCh k))

/-- R352, R367 to R369, R377, R378: STRIG takes a snapshot of the channel's list into the merge buffer, or, within 1 ms of the one before, counts it, a snapshot of the same cycle
becoming that of the lower trigger; a list commit raises the list's
generation; a commit that breaks the layout rules is refused, one that changes the layout formats the channel, with LOG_OPEN as SEQ 0 once the near store is
open, and one that does not leaves the channel as it is. -/
def Obligations.SnapshotsListsAndLayouts : Prop :=
  ∀ (s : State) (c : Fin 8) (i : Fin 16) (req : Requester) (data : Word), s.dev.On →
    let x := s.dev.tlyCh c
    (s.dev.Accepts req .TLY_FRZ c data → (data.getLsbD F.TLY_FRZ_STRIG.lo && data.getLsbD (16 + F.TLY_FRZ_STRIG.lo)) = true →
      (s.dev.stored .TLY_FRZ c data).getB F.TLY_FRZ_FREEZE c = s.dev.getB F.TLY_FRZ_FREEZE c →
      let key := (s.dev.tsc, req.src, s.dev.recOrder)
      ((∀ t, SMap.get? s.dev.tly.caps c = some t → t.1 + 1000000 ≤ s.dev.tsc) →
        ∃ d r, Gives (.strig req c data) s d ∧ d.tly.merge = s.dev.tly.merge ++ [r] ∧ r.typ = 0x0062 ∧ r.src = 0x2B0 + c.val ∧ r.tsc = s.dev.tsc ∧
          r.fields.take 3 = [(2, 0), (2, req.src), (8, s.dev.tsc)] ∧ SMap.get? d.tly.caps c = some (s.dev.tsc, key) ∧ d.nv = s.dev.nv) ∧
      (∀ t, SMap.get? s.dev.tly.caps c = some t → s.dev.tsc < t.1 + 1000000 →
        ∃ d, Gives (.strig req c data) s d ∧ d.nv = s.dev.nv ∧
          d.getF F.TLY_CHSTAT_SNAP_SKIP c = min (s.dev.getF F.TLY_CHSTAT_SNAP_SKIP c + 1) (2 ^ F.TLY_CHSTAT_SNAP_SKIP.len - 1) ∧
          (t.1 = s.dev.tsc → keyBelow key t.2 = true → SMap.get? d.tly.caps c = some (s.dev.tsc, key) ∧
            ∀ r ∈ d.tly.merge, r.typ = 0x0062 → r.src = 0x2B0 + c.val → r.tsc = s.dev.tsc →
              r.fields.take 3 = [(2, 0), (2, req.src), (8, s.dev.tsc)]) ∧
          (t.1 ≠ s.dev.tsc ∨ keyBelow key t.2 = false → d.tly = s.dev.tly))) ∧
    (s.dev.Accepts req .TLY_SNHI (16 * c.val + i.val) data →
      let new := s.dev.committed .TLY_SNHI (16 * c.val + i.val) data
      new.getF F.TLY_SNLO_ADDR_LO (16 * c.val + i.val) % 4 = 0 → new.getF F.TLY_SNHI_ADDR_HI (16 * c.val + i.val) ≤ 16 →
      Gives (.snapshotListCommit req c i data) s (new.setF F.TLY_GEN_LISTGEN c (s.dev.getF F.TLY_GEN_LISTGEN c + 1))) ∧
    (s.dev.Accepts req .TLY_CHCTL c data →
      let new := s.dev.committed .TLY_CHCTL c data
      let y : TlyCh :=
        { en := new.getB F.TLY_CHCTL_EN c
          full := new.getB F.TLY_CHCTL_CLASS c
          nbase := new.getF F.TLY_NREG_NBASE c
          nsize := new.getF F.TLY_NREG_NSIZE c
          fbase := new.getF F.TLY_FBASE_FBASE c
          fsize := new.getF F.TLY_FSIZE_FSIZE c
          gen := (x.gen + 1) % 65536
          side := x.side }
      let same := (x.en, x.full, x.nbase, x.nsize, x.fbase, x.fsize) = (y.en, y.full, y.nbase, y.nsize, y.fbase, y.fsize)
      (new.tlyBroken c = true → Gives (.tallyChannelCommit req c data) s (s.dev.trouble F.TRB_STICKY0_BUS_VALUE)) ∧
      (new.tlyBroken c = false → same → Gives (.tallyChannelCommit req c data) s new) ∧
      (new.tlyBroken c = false → ¬same → x.gen < 65536 →
        ∃ d, Gives (.tallyChannelCommit req c data) s d ∧ (∀ k, k ≠ c.val → d.tlyCh k = s.dev.tlyCh k) ∧
          (y.en = false ∨ s.dev.tly.opened = false → d.tlyCh c = y ∧ SMap.get? d.tly.pages c = none) ∧
          (y.en = true → s.dev.tly.opened = true → (d.tlyCh c).seq = 1 ∧ (d.tlyCh c).gen = y.gen)))

/-- R374 to R377, R380, R531: the near store opens once, with every side ring let out and skip 29 running; a store that fails shows its cause, serves no more and tells it by a STORE_FAIL
record, and with both failed LOGLOSS is latched; the far store, once ready, is told what its backlog lost; a far page that is full, or 250 ms old, is programmed, its units to their
places and the rest of it padded. -/
def Obligations.StoresOpenFailAndProgramTheirPages : Prop :=
  ∀ (s : State) (c : Fin 8) (how : Bool) (addr : BitVec 64), s.dev.On →
    (s.dev.tly.opened = false → (s.dev.skip 29).st = .unused →
      ∃ d, Gives .nearStoreOpen s d ∧ d.tly.opened = true ∧ (d.skip 29).st = .run ∧
        ((s.dev.tlyCh c).en = true → (d.tlyCh c).side = []) ∧ ((s.dev.tlyCh c).en = false → d.tlyCh c = s.dev.tlyCh c)) ∧
    (s.dev.nearOk = true →
      ∃ d r more, Gives (.nearStoreFail how addr) s d ∧ d.nearOk = false ∧ d.getF F.TLY_NEAR_CAUSE = 1 + how.toNat ∧
        d.getB F.TRB_STICKY2_TLY_NEAR = true ∧ d.tly.merge = s.dev.tly.merge ++ r :: more ∧ r.typ = 0x0065 ∧ r.src = 0x2B8 ∧ r.tsc = s.dev.tsc ∧
        r.fields = [(1, 1 + how.toNat), (8, addr.toNat)] ∧ (∀ x ∈ more, x.typ = 0x0062) ∧
        (s.dev.farOk = true → d.nv = s.dev.nv) ∧ (s.dev.farOk = false → d.nv.logloss = true ∧ d.getB F.TRB_STICKY2_LOGLOSS = true) ∧
        d.nv.near = s.dev.nv.near ∧ d.nv.far = s.dev.nv.far) ∧
    (s.dev.farOk = true →
      ∃ d r more, Gives (.farStoreFail how addr) s d ∧ d.farOk = false ∧ d.getF F.TLY_FAR_CAUSE = 1 + how.toNat ∧ d.getB F.TLY_STAT_FAR_READY = false ∧
        d.getB F.TRB_STICKY2_TLY_FAR = true ∧ d.tly.merge = s.dev.tly.merge ++ r :: more ∧ r.typ = 0x0065 ∧ r.src = 0x2B9 ∧ r.tsc = s.dev.tsc ∧
        r.fields = [(1, 1 + how.toNat), (8, addr.toNat)] ∧ (∀ x ∈ more, x.typ = 0x0062) ∧
        (s.dev.nearOk = true → d.nv = s.dev.nv) ∧ (s.dev.nearOk = false → d.nv.logloss = true ∧ d.getB F.TRB_STICKY2_LOGLOSS = true) ∧
        d.nv.near = s.dev.nv.near ∧ d.nv.far = s.dev.nv.far) ∧
    (s.dev.getB F.TLY_STAT_FAR_READY = false → s.dev.farOk = true →
      (s.dev.tly.farLost = 0 → Gives .farStoreReady s (s.dev.setF F.TLY_STAT_FAR_READY 0 1)) ∧
      (0 < s.dev.tly.farLost →
        ∃ d, Gives .farStoreReady s d ∧ d.getB F.TLY_STAT_FAR_READY = true ∧ d.tly.farLost = 0 ∧
          ((s.dev.tlyCh c).en = true → (d.tlyCh c).seq = ((s.dev.tlyCh c).seq + 1) % 2 ^ 32) ∧
          ((s.dev.tlyCh c).en = false → d.tlyCh c = s.dev.tlyCh c) ∧ d.nv.near = s.dev.nv.near)) ∧
    (∀ p u us, s.dev.getB F.TLY_STAT_FAR_READY = true → s.dev.farOk = true → s.dev.farPage c = some (p, u :: us) →
      let x := s.dev.tlyCh c
      let n := x.pageUnits
      let stop := (((u :: us).getLast?).map fun v => v.1 + 1).getD (p * n + n)
      let put (m : Memory) (i : Nat) (bytes : List Byte) : Memory := Memory.writeBytes m (x.fbase * 1048576 + i % x.farUnits * x.unit) bytes
      stop = p * n + n ∨ u.2.1 + 250000000 ≤ s.dev.tsc →
      ∃ d, Gives (.farPageProgram c) s d ∧
        d.nv.far = (List.range (p * n + n - stop)).foldl (fun m i => put m (stop + i) (List.replicate x.unit 0xFF))
          ((u :: us).foldl (fun m v => put m v.1 v.2.2) s.dev.nv.far) ∧
        SMap.getD d.tly.pages c [] = (SMap.getD s.dev.tly.pages c []).drop (us.length + 1) ∧ d.nv.near = s.dev.nv.near ∧
        (SMap.getD d.tly.pages c [] = [] → (d.tlyCh c).fpos = max x.fpos (p * n + n)))

/-! ### PCIe, MSI-X and the movers (R402 to R424) -/

/-- R402, R406 to R409, R412: PERST# released starts training where the straps allow it; a trained link shows its speed and width; the host's configuration is taken from 100 ms after the
start of training; a reset of the endpoint resets the DMA registers, stops the movers, tells its cause and sets the trouble bit; a BAR2 read answers with the bytes of the windows and a write is
discarded; a pending vector that may send its message does, once. -/
def Obligations.EndpointTrainsResetsAndSendsVectors : Prop :=
  ∀ (s : State) (speed : Fin 3) (x2 en mask d3 : Bool) (k : EpReset) (offset : BitVec 26) (len : Fin 513) (v : Fin 64), s.dev.On →
    (let d := s.dev.setPcie { s.dev.pcie with perst := false };
      Gives .perstDeassertion s (if d.trainReached = true ∧ d.epHeld = false then
        d.setPcie { d.pcie with start := some (d.pcie.start.getD d.tsc) } else d)) ∧
    (s.dev.pcie.start.isSome = true → s.dev.pcie.perst = false → speed.val + 1 ≤ s.dev.epSpeed →
      Gives (.pcieLinkTrained speed x2) s
        (((s.dev.setF F.DMA_LINK_UP 0 1).setF F.DMA_LINK_SPEED 0 (speed.val + 1)).setF F.DMA_LINK_WIDTH 0 (1 + x2.toNat))) ∧
    (∀ t, s.dev.pcie.start = some t → s.dev.getB F.DMA_LINK_UP = true → t + 100000000 ≤ s.dev.tsc →
      Gives (.configurationWrite en mask d3) s (s.dev.setPcie { s.dev.pcie with msixEn := en, fmask := mask, d3 := d3 })) ∧
    (k = .perst ∨ s.dev.getB F.DMA_LINK_UP = true →
      ∃ d, Gives (.endpointReset k) s d ∧ d.pcie.msixEn = false ∧ d.pcie.d3 = false ∧ d.getB F.TRB_STICKY0_HOST_LINK = true ∧
        (∀ m : Fin 8, (d.mover m).cur = none ∧ (d.mover m).part = none ∧ d.mvState m = 0 ∧ d.getF F.DMA_MVCTL_EN m = 0 ∧ d.mvHead m = 0) ∧
        (k = .perst → d.pcie.perst = true ∧ d.pcie.start = none ∧ d.getF F.DMA_STAT_PERST = 1 ∧ d.getF F.DMA_LINK_UP = 0) ∧
        (k = .dlDown → d.getF F.DMA_STAT_LINKDOWN = 1 ∧ d.getF F.DMA_LINK_UP = 0) ∧
        (k = .function → d.getF F.DMA_LINK_UP = 1) ∧ (d.skip 30).queue = [] ∧ (d.skip 30).waiting = [] ∧ d.recMem = s.dev.recMem ∧ d.nv = s.dev.nv) ∧
    (s.dev.getB F.DMA_LINK_UP = true →
      (∀ i, i < len.val → (s.dev.bar2At (offset.toNat + i)).isSome = true) →
      (∀ i r a, i < len.val → s.dev.bar2At (offset.toNat + i) = some (r, a) → s.dev.poisoned r a = false) →
      Gives (.bar2Read offset len) s { s.dev with out := s.dev.out ++
        [.bar2 offset.toNat ((List.range len.val).map fun i => s.dev.bar2Byte (offset.toNat + i)) false] }) ∧
    Gives .bar2Write s (s.dev.trouble F.TRB_STICKY0_BUS_UNMAP) ∧
    (s.dev.bitF F.DMA_PBA_PBA (v / 32) (v % 32) = true → s.dev.getB F.DMA_LINK_UP = true → s.dev.pcie.msixEn = true → s.dev.pcie.fmask = false →
      s.dev.pcie.d3 = false → s.dev.getB F.DMA_MXCTL_MASK v = false →
      (∀ t, SMap.get? s.dev.vecLast v = some t → t + 1000 * s.dev.getF F.DMA_VHOLD_HOLD v ≤ s.dev.tsc) →
      ∃ d, Gives (.msixMessage v) s d ∧ d.bitF F.DMA_PBA_PBA (v / 32) (v % 32) = false ∧ SMap.get? d.vecLast v = some s.dev.tsc ∧
        d.out = s.dev.out ++
          [.msix v (s.dev.getF F.DMA_MXAL_ADDR_LO v + 2 ^ 32 * s.dev.getF F.DMA_MXAH_ADDR_HI v) (s.dev.getF F.DMA_MXDAT_DATA v)] ∧
        d = { s.dev with regs := d.regs, vecLast := d.vecLast, out := d.out })

/-- R411, R413 to R422: a commit starts a mover, or stops it and leaves the descriptors that it owns to be handed back as ABORTED; a doorbell lets it read its descriptor again; a
descriptor of its own is taken, one that is not is counted and waited for, an empty or malformed one completes at once; a failed read stops the mover with its error shown; a
buffer of a BLOCK mover takes the next bytes of its block and completes with its length, and one of a TALLY mover whole records; posted blocks join the queue.  Data and
completions travel through skip 30: the host sees them as the lumps are taken, and the last one of a completion advances HEAD. -/
def Obligations.MoversTakeFillAndCompleteDescriptors : Prop :=
  ∀ (s : State) (m : Fin 8) (x : MvDesc) (req : Requester) (data : Word) (blocks : List Block), s.dev.On →
    let v := s.dev.mover m
    let desc := s.dev.mvDescAt m
    let ended (from_ d : Dev) (status part done tag : Nat) : Prop := d.mvHead m = s.dev.mvHead m ∧ d.out = s.dev.out ∧
      (d.mover m).cur = none ∧ (d.mover m).closing = true ∧
      d.skip 30 = ((from_.hostSend m (desc + 14) (packFields [(1, status), (1, part), (4, done), (4, tag), (8, s.dev.tsc)]) none).hostSend m (desc + 12)
        (le 2 (2 * x.irq.toNat)) (some { mover := m, status := status, irq := x.irq, ridx := none })).skip 30
    (s.dev.Accepts req .DMA_MVCTL m data →
      let new := s.dev.committed .DMA_MVCTL m data
      (new.mvBroken m s.dev = true → Gives (.moverCommit req m data) s (s.dev.trouble F.TRB_STICKY0_BUS_VALUE)) ∧
      (new.mvBroken m s.dev = false → s.dev.getB F.DMA_MVCTL_EN m = false → new.getB F.DMA_MVCTL_EN m = true →
        ∃ d, Gives (.moverCommit req m data) s d ∧ (d.mvState m = 1 ∨ d.mvState m = 2) ∧ (d.mover m).cur = none ∧ (d.mover m).part = none ∧
          (d.mover m).wait = false ∧ (d.mover m).closing = v.closing ∧ d.skips = s.dev.skips ∧ ∀ k, k ≠ m.val → d.mover k = s.dev.mover k) ∧
      (new.mvBroken m s.dev = false → s.dev.getB F.DMA_MVCTL_EN m = true → new.getB F.DMA_MVCTL_EN m = false → s.dev.mvState m ≠ 3 → v.cur = none →
        ∃ d, Gives (.moverCommit req m data) s d ∧ d.mvState m = 0 ∧ (d.mover m).abort = s.dev.mvPosted m - v.closing.toNat ∧ d.skips = s.dev.skips)) ∧
    (s.dev.reqUp req = true → s.dev.mayWrite req .DMA_MVTAIL m = true →
      ∃ d, Gives (.moverDoorbell req m data) s d ∧ d.getF F.DMA_MVTAIL_TAIL m = data.toNat % 2 ^ F.DMA_MVTAIL_TAIL.len ∧
        d.mover m = { v with wait := false } ∧ d.skips = s.dev.skips) ∧
    (s.dev.mvRuns = true → s.dev.mvPosted m ≠ 0 → v.cur = none → v.closing = false → v.wait = false →
      (s.dev.mvState m = 1 → v.abort = 0 →
        (x.own = false → Gives (.descriptorReadDone m x) s ((s.dev.incF F.DMA_MVCNT_NOTOWN m).setMover m { v with wait := true, abort := 0 })) ∧
        (x.own = true → x.len.toNat = 0 → ∃ d, Gives (.descriptorReadDone m x) s d ∧ ended s.dev d 1 0 0 0) ∧
        (x.own = true → x.len.toNat ≠ 0 → badLen x = true → ∃ d, Gives (.descriptorReadDone m x) s d ∧ ended s.dev d 8 0 0 0) ∧
        (x.own = true → x.len.toNat ≠ 0 → badLen x = false → s.dev.mvSmall m x.len.toNat = false →
          Gives (.descriptorReadDone m x) s (s.dev.setMover m { v with cur := some x })) ∧
        (x.own = true → x.len.toNat ≠ 0 → badLen x = false → s.dev.mvSmall m x.len.toNat = true →
          ∃ d, Gives (.descriptorReadDone m x) s d ∧ ended s.dev d 2 0 0 0) ∧
        (∃ d, Gives (.moverError m) s d ∧ d.mvState m = 3 ∧ d.bitF F.DMA_STAT_ERR 0 m = true ∧ d.getB F.TRB_STICKY0_DMA_FAULT = true ∧
          d.skips = s.dev.skips)) ∧
      (0 < v.abort → x.own = true → ∃ d, Gives (.descriptorReadDone m x) s d ∧ ended s.dev d 7 0 0 0 ∧ (d.mover m).abort = v.abort - 1)) ∧
    (s.dev.mvRuns = true → s.dev.mvState m = 1 → v.cur = some x → s.dev.mvReady m = true → s.dev.mvOutranked m = false →
      (∀ ix b, s.dev.mvKind m = 3 → v.blockAt = some (ix, false, b) → v.part = none → v.gap = false → b.poisoned = false → b.bytes.length ≤ x.len.toNat →
        ∃ d, Gives (.bufferComplete m) s d ∧ ended (s.dev.hostSend m x.addr.toNat b.bytes none) d 0 3 b.bytes.length b.num.toNat ∧
          (d.mover m).bpos = ix + 1) ∧
      (∀ it : MvItem, s.dev.mvKind m = 0 → s.dev.tallyItem (s.dev.mvIndex m) (s.dev.mvPos m) = some it → it.gap = false → it.poison = false →
        v.gap = false → it.bytes.length ≤ x.len.toNat →
        ∃ d, Gives (.bufferTimeout m 1) s d ∧ ended (s.dev.hostSend m x.addr.toNat it.bytes none) d 0 3 it.bytes.length it.tag ∧
          d.mvPos m = it.next % 2 ^ F.DMA_MVPOS_POS.len)) ∧
    (∀ l rest adr b, (s.dev.skip 30).st = .run → (s.dev.skip 30).queue = l :: rest →
      (l.body = .hostWrite adr b none → ∃ d, Gives (.lumpReceive 30) s d ∧ d.out = s.dev.out ++ [.hostWrite adr b] ∧ d.mov = s.dev.mov) ∧
      (∀ h, l.body = .hostWrite adr b (some h) → l.tag.src = 0x260 + m → h.mover = m → v.closing = true →
        ∃ d, Gives (.lumpReceive 30) s d ∧ d.out = s.dev.out ++ [.hostWrite adr b] ∧ (d.mover m).closing = false ∧
          d.mvHead m = (s.dev.mvHead m + 1) % s.dev.mvSize m % 2 ^ F.DMA_MVSTAT_HEAD.len ∧
          d.getF F.DMA_MVCNT_GAP m = (if h.status = 3 ∨ h.status = 5 then min (s.dev.getF F.DMA_MVCNT_GAP m + 1) (2 ^ F.DMA_MVCNT_GAP.len - 1)
            else s.dev.getF F.DMA_MVCNT_GAP m))) ∧
    (s.dev.reqUp req = true → s.dev.mayWrite req .DMA_BQTAIL m = true →
      let n := (data.toNat % 256 + 256 - s.dev.getF F.DMA_BQTAIL_TAIL m) % 256
      ∃ d, Gives (.blockQueueDoorbell req m data blocks) s d ∧ (d.mover m).posted = v.posted + min n blocks.length ∧
        (v.blocks.length + n ≤ 255 → (d.mover m).blocks = v.blocks ++ (blocks.take n).zipIdx.map fun b => (v.posted + b.2, b.1)))

/-! ### Network, PTP and launch queues (R381 to R403) -/

/-- R382 to R384, R387 to R391, R395: a frame with a bad FCS or a duplicate is counted and goes nowhere; another's goes to Gallery within the rate, or to SVI
through its skip; a lost link is
shown and forgets the port's masters; an Announce is taken and a silent master dropped; a Sync or its Follow_Up gives the offset measurement; three seconds without either hold the
calendar; peer delay messages are answered and measured. -/
def Obligations.PortsSortFramesAndMeasureTime : Prop :=
  ∀ (s : State) (p : Fin 4) (f : NetFrame) (a : Announce) (seq : BitVec 16) (rx tx : BitVec 68) (corr origin : BitVec 64), s.dev.On →
    let d := s.dev
    let dom : Byte := BitVec.ofNat 8 (d.getF F.PTP_CTL_DOMAIN)
    let x := d.ptpPort p
    let offset (t2 : Nat) (c : Int) : Nat := unsgn 64 ((d.cal16 t2 - (16 * (origin.toNat : Int) + c + d.getF F.PTP_PDLY_MLD p)) / 16)
    (d.portOn p = true → f.etype = 0x88F7 ∨ portServes d.mode p = true → f.fcsOk = false →
      Gives (.frameReceive p f) s (d.incF F.NET_PCNT_FCS p)) ∧
    (∀ q, d.portOn p = true → portServes d.mode p = true → f.fcsOk = true → f.seq = some q → d.pairMode p ≠ 0 →
      (d.duplicate p f.src.toNat q.toNat).2 = true →
      Gives (.frameReceive p f) s ((d.duplicate p f.src.toNat q.toNat).1.incF F.NET_PCNT_DUP p)) ∧
    (d.portOn p = true → portServes d.mode p = true → f.fcsOk = true → f.own = false → d.pairMode p = 0 →
      (f.etype ≠ 0x88F7 → f.etype ≠ 0x88BA ∨ 2 ≤ p.val →
        (if (d.netPort p).win = d.tsc / 1000000 then (d.netPort p).used else 0) + 8 * f.len.toNat ≤ 1000 * d.getF F.NET_RLIM_RATE p →
        ∃ e, Gives (.frameReceive p f) s e ∧ e.out = d.out ++ [.toGallery p f] ∧ e = { d with net := e.net, out := e.out }) ∧
      (f.etype = 0x88BA → p.val < 2 →
        Gives (.frameReceive p f) s (d.sendSv p d.tsc f))) ∧
    (d.bitF F.NET_STAT_LINK 0 p = true →
      ∃ e, Gives (.portLinkLoss p) s e ∧ e.bitF F.NET_STAT_LINK 0 p = false ∧ e.bitF F.NET_STAT_LINK_LOST 0 p = true ∧
        e.getB F.TRB_STICKY0_NET_LINK = true ∧ (e.ptpPort p).masters = [] ∧ ∀ q, q ≠ p.val → e.ptpPort q = d.ptpPort q) ∧
    (d.halfOff (portHalf p) = false → ∃ e, Gives (.portLinkUp p) s e ∧ e.bitF F.NET_STAT_LINK 0 p = true) ∧
    (d.portOn p = true → d.bitF F.PTP_CTL_EN 0 p = true → a.domain.toNat = d.getF F.PTP_CTL_DOMAIN →
      d.getB F.PTP_CTL_PROFILE = false ∨ a.inacc.isSome = true →
      ∃ e, Gives (.announceReceive p a) s e ∧ (e.ptpPort p).masters = x.masters.filter (fun m => m.ann.sender != a.sender) ++
        [⟨a, d.tsc, (x.masters.find? fun m => m.ann.sender == a.sender).map fun m => m.last⟩]) ∧
    (∃ e, Gives (.announceTimeout p) s e ∧ (e.ptpPort p).masters = x.masters.filter fun m => decide (d.tsc < m.last + 3000000000)) ∧
    (∀ t, d.net.servo.lastSync = some t → t + 3000000000 ≤ d.tsc → d.calState = 2 ∨ d.calState = 4 →
      ∃ e, Gives .syncTimeout s e ∧ e.calState = 3 ∧ e.cal = d.cal) ∧
    (d.portOn p = true → d.net.slave = some p.val → dom.toNat = d.getF F.PTP_CTL_DOMAIN →
      Gives (.ptpSyncReceive p dom seq rx corr none) s (d.setServo { d.net.servo with
        lastSync := some d.tsc
        wait := some ⟨seq.toNat, d.rxStamp p rx.toNat, corr.toInt / 4096, d.tsc⟩ }) ∧
      (∃ e, Gives (.ptpSyncReceive p dom seq rx corr (some origin)) s e ∧
        e.getF F.PTP_OFS_OFS = offset (d.rxStamp p rx.toNat) (corr.toInt / 4096)) ∧
      (∀ w, d.net.servo.wait = some w → w.seq = seq.toNat →
        ∃ e, Gives (.ptpFollowUpReceive p dom seq origin corr) s e ∧ e.net.servo.wait = none ∧
          e.getF F.PTP_OFS_OFS = offset w.t2 (w.corr + corr.toInt / 4096))) ∧
    (d.portOn p = true → d.bitF F.PTP_CTL_EN 0 p = true → dom.toNat = d.getF F.PTP_CTL_DOMAIN →
      Gives (.pdelayReqReceive p dom seq rx tx) s { d with out := d.out ++
        [Output.ptp p 1 seq.toNat (d.cal16 (d.rxStamp p rx.toNat)).toNat d.ptpVlan, Output.ptp p 2 seq.toNat (d.cal16 (txStamp p tx.toNat)).toNat d.ptpVlan] } ∧
      Gives (.pdelayReqSend p tx) s ({ d with out := d.out ++ [Output.ptp p 0 ((x.seq + 1) % 65536) 0 d.ptpVlan] }.setPtp p
        { x with seq := (x.seq + 1) % 65536, t1 := some (txStamp p tx.toNat) }) ∧
      (∀ t1, x.t1 = some t1 → x.seq = seq.toNat →
        ∃ e, Gives (.pdelayRespReceive p dom seq rx corr) s e ∧ (e.ptpPort p).t1 = none ∧
          e.getF F.PTP_PDLY_MLD p = min (((d.rxStamp p rx.toNat : Int) - t1 - corr.toInt) / 2).toNat (2 ^ 32 - 1)))

/-- R397 to R403: a commit configures the selected queue, empty, or is refused; a doorbell's untimed frame goes out at once on a free port; a held frame that falls due goes out, or shows
DELAYED behind another; a frame that has left completes its descriptor and HEAD advances; a host's descriptors and frames are read, or their failure shown. -/
def Obligations.LaunchQueuesPostSendAndComplete : Prop :=
  ∀ (s : State) (p : Fin 4) (q : Fin 64) (req : Requester) (data : Word) (k : LqDesc) (stamp : BitVec 68), s.dev.On →
    let d := s.dev
    let i := 64 * p.val + q.val
    let doorbell (ks : List LqDesc) : Instr := .launchDoorbell req ⟨64 * p.val + q.val, by omega⟩ data ks
    let x := d.lqueue i
    let head := (d.getF F.NET_LQSTAT_HEAD i + 1) % 2 ^ x.size % 2 ^ F.NET_LQSTAT_HEAD.len
    let put (ix ofs : Nat) (bs : List Byte) : Output :=
      if lqHost i then .hostWrite (x.descAddr ix + ofs) bs else .dramWrite (x.descAddr ix + ofs) bs
    let completed (e : LqEnt) (status tx : Nat) : List Output :=
      [put e.ix 16 (packFields [(4, tx), (1, status), (11, 0)]), put e.ix 10 (le 2 (2 * e.desc.timed.toNat))]
    (d.Accepts req .NET_LQCFG 0 data →
      let new := d.committed .NET_LQCFG 0 data
      let j := 64 * new.getF F.NET_LQSEL_PORT + new.getF F.NET_LQSEL_QUEUE
      (new.lqBroken req = true → Gives (.launchQueueCommit req data) s (d.trouble F.TRB_STICKY0_BUS_VALUE)) ∧
      (new.lqBroken req = false →
        ∃ e, Gives (.launchQueueCommit req data) s e ∧ (e.lqueue j).ents = [] ∧ (e.lqueue j).en = new.getB F.NET_LQCFG_EN ∧
          (e.lqueue j).base = new.getF F.NET_LQBA0_BA + 2 ^ 16 * new.getF F.NET_LQBA1_BA + 2 ^ 32 * new.getF F.NET_LQBA2_BA ∧
          e.getF F.NET_LQTAIL_TAIL j = 0 ∧ e.getF F.NET_LQSTAT_HEAD j = 0 ∧ ∀ m, m ≠ j → e.lqueue m = d.lqueue m)) ∧
    (d.reqUp req = true → d.mayWrite req .NET_LQTAIL i = true →
      (x.en = false → ∃ e, Gives (doorbell []) s e ∧ e.net = d.net ∧
        e.getF F.NET_LQTAIL_TAIL i = data.toNat % 2 ^ F.NET_LQTAIL_TAIL.len) ∧
      (x.en = true → lqHost i = false → x.next < 2 ^ x.size → data.toNat % 4096 = (x.next + 1) % 2 ^ x.size → 1 ≤ x.size → x.size ≤ 12 →
        k.timed = false → 60 ≤ k.len.toNat → k.len.toNat ≤ 1518 → d.portOn p = true → portServes d.mode p = true → d.mode ≠ .safe →
        d.pairMode p = 0 → (d.netPort p).busy = none → x.ents = [] → (∀ y ∈ d.net.lq, y.1 / 64 = p.val → y.2.ents = []) →
        ∃ e, Gives (doorbell [k]) s e ∧ e.out = d.out ++ [.frame p q.val x.next k.len.toNat (d.poisonIn 0 k.buf.toNat k.len.toNat)] ∧
          (e.netPort p).busy = some (i, false) ∧ (e.lqueue i).next = (x.next + 1) % 2 ^ x.size)) ∧
    (∀ e es, d.fronts p = [(i, e)] → x.ents = e :: es → e.st = 1 → d.ahead e ≤ 0 →
      ((d.netPort p).busy.isSome = true → Gives (.frameLaunch p) s (d.setLq i { x with ents := { e with status := 3 } :: es })) ∧
      ((d.netPort p).busy = none → portServes d.mode p = true → d.portOn p = true → d.pairMode p = 0 → lqHost i = false ∨ e.read = true →
        ∃ y, Gives (.frameLaunch p) s y ∧
          y.out = d.out ++ [.frame p q.val e.ix e.desc.len.toNat (!lqHost i && d.poisonIn 0 e.desc.buf.toNat e.desc.len.toNat)] ∧ (y.netPort p).busy = some (i, e.desc.timed) ∧
          (y.lqueue i).ents = { e with st := 3 } :: es)) ∧
    (∀ e timed, (d.netPort p).busy = some (i, timed) → x.ents = [e] → e.st = 3 →
      ∃ y more, Gives (.frameTransmitDone p stamp) s y ∧ (y.lqueue i).ents = [] ∧ y.getF F.NET_LQSTAT_HEAD i = head ∧
        y.out = d.out ++ completed e e.status (d.cal16 (txStamp p stamp.toNat) / 16 % 2 ^ 32).toNat ++ more) ∧
    (lqHost i = true → d.hostUp = true → x.en = true →
      (x.stopped = false → x.next ≠ d.getF F.NET_LQTAIL_TAIL i % 2 ^ x.size →
        ∃ y, Gives (.hostFrameReadDone p q (some k)) s y ∧ (y.lqueue i).next = (x.next + 1) % 2 ^ x.size) ∧
      (∀ e es, x.stopped = false → x.ents = e :: es → e.st ≠ 0 → (d.netPort p).busy.isSome = true →
        Gives (.hostFrameReadDone p q none) s (d.setLq i { x with ents := { e with read := true } :: es })) ∧
      (x.next ≠ d.getF F.NET_LQTAIL_TAIL i % 2 ^ x.size →
        Gives (.hostReadFault p q false) s ((d.trouble F.TRB_STICKY0_DMA_FAULT).setLq i { x with stopped := true })) ∧
      (∀ e, x.ents = [e] → e.read = false → e.st < 3 →
        ∃ y more, Gives (.hostReadFault p q true) s y ∧ (y.lqueue i).ents = [] ∧ y.getF F.NET_LQSTAT_HEAD i = head ∧
          y.getB F.TRB_STICKY0_DMA_FAULT = true ∧ y.out = d.out ++ completed e 9 0 ++ more) ∧
      (∀ e es, x.ents = e :: es → e.st = 1 → e.read = false → d.ahead e ≤ 20000 → x.latepol = false →
        Gives (.hostFrameLate p q) s (d.setLq i { x with ents := { e with st := 2, status := 1 } :: es })))

/-! ### Headframe: submissions, Sage and authorised requests (R430 to R447, R454) -/

/-- R436 to R444: GO submits the requester's mailbox, is refused with BUSY while its last one is not done, and completes at once while the cores are held; validation refuses a
submission with its RESULT, carries out reports, or leaves it WAITING; a batch that waits is committed at the end of an equal pass and the next pass follows; a pass starts at its
instant and each comparison counts a pass, and one that does not find a region equal tells it and degrades a part in PROTECT. -/
def Obligations.SubmissionsWaitForSageAndCommit : Prop :=
  ∀ (s : State) (req : Requester) (data errC errN errS : Word), s.dev.On →
    let d := s.dev
    let ended (e : Dev) (r : Requester) (result : Nat) : Prop :=
      e.getF F.HFR_RSTAT_STATE r.slot = 3 ∧ e.getF F.HFR_RSTAT_RESULT r.slot = result % 16 ∧ e.hfr.waiting = false
    (d.Accepts req .SYS_MBXGO 0 data → data.getLsbD F.SYS_MBXGO_GO.lo = true → data.getLsbD (16 + F.SYS_MBXGO_GO.lo) = true →
      (d.hfr.held = false → (d.hfr.subs.any fun x => x.req == req) = false →
        ∃ e, Gives (.submission req data) s e ∧ e.hfr = { d.hfr with subs := d.hfr.subs ++ [⟨req, d.mailbox req⟩] } ∧
          e.getF F.HFR_RSTAT_STATE req.slot = 1 ∧ e = { d with regs := e.regs, hfr := e.hfr }) ∧
      ((d.hfr.subs.any fun x => x.req == req) = true →
        ∃ e, Gives (.submission req data) s e ∧ e = { d with regs := e.regs } ∧ e.getB F.HFR_RSTAT_BUSY_REJ req.slot = true) ∧
      (d.hfr.held = true → (d.hfr.subs.any fun x => x.req == req) = false →
        ∃ e, Gives (.submission req data) s e ∧ e = { d with regs := e.regs } ∧ e.getF F.HFR_RSTAT_STATE req.slot = 3 ∧
          e.getF F.HFR_RSTAT_RESULT req.slot = 9)) ∧
    (∀ x xs, d.hfr.subs = x :: xs → d.hfr.waiting = false → d.hfr.held = false →
      ((d.validate x).1 ≠ 0 → ∃ e, Gives .validationComplete s e ∧ e.hfr.subs = xs ∧ ended e x.req (d.validate x).1) ∧
      ((d.validate x).1 = 0 → x.kind = 2 →
        ∃ e, Gives .validationComplete s e ∧ e.hfr.subs = xs ∧ ended e x.req 0 ∧ e.seam = (d.sendReports x).seam) ∧
      ((d.validate x).1 = 0 → x.kind ≠ 2 →
        ∃ e, Gives .validationComplete s e ∧ e.hfr = { d.hfr with waiting := true } ∧ e.getF F.HFR_RSTAT_STATE x.req.slot = 2 ∧
          e = { d with regs := e.regs, hfr := e.hfr })) ∧
    (∀ x xs, d.hfr.subs = x :: xs → d.hfr.waiting = true → x.kind = 1 → d.getB F.SAGE_STAT_RUN = true → d.sage.ended = some d.tsc →
      d.sage.equal = true → Gives .settingsCommit s ((d.commitBatch x).subFinish 0 0).sagePass) ∧
    (sageRuns d.mode = true → d.hfr.held = false → d.sage.start = none → d.swapPending = false →
      d.getB F.SAGE_STAT_RUN = true ∨ d.tsc % 8000000 = 0 →
      ∃ e, Gives .sagePassStart s e ∧ e.getB F.SAGE_STAT_RUN = true ∧ e.sage = { d.sage with start := some d.tsc } ∧
        e.getB F.SAGE_STAT_SKIP_N = d.halfOff .north ∧ e.getB F.SAGE_STAT_SKIP_S = d.halfOff .south ∧
        e = { d with regs := e.regs, sage := e.sage }) ∧
    (∀ t, d.sage.start = some t → d.getB F.SAGE_STAT_RUN = true → sageRuns d.mode = true → d.tsc % 8000000 = 0 → t + 5000000 ≤ d.tsc →
      let badC := (d.sageCrc .c ^^^ errC.toNat) != d.getF F.SAGE_REFC_REF
      let skipN := d.getB F.SAGE_STAT_SKIP_N || d.halfOff .north
      let skipS := d.getB F.SAGE_STAT_SKIP_S || d.halfOff .south
      let bad := badC || (!skipN && (d.sageCrc .n ^^^ errN.toNat) != d.getF F.SAGE_REFN_REF) ||
        (!skipS && (d.sageCrc .s ^^^ errS.toNat) != d.getF F.SAGE_REFS_REF)
      (bad = false → ∃ e, Gives (.sageCompare errC errN errS) s e ∧ e.mode = d.mode ∧ e.hfr = d.hfr ∧ e.sage.ended = some d.tsc ∧
        e.sage.passed = true ∧ e.sage.equal = true ∧ e.getF F.SAGE_STAT_PASSES = (d.getF F.SAGE_STAT_PASSES + 1) % 65536) ∧
      (bad = true → d.seam.design.policy = false ∨ (d.mode ≠ .protect ∧ d.mode ≠ .degraded) →
        ∃ e, Gives (.sageCompare errC errN errS) s e ∧ e.mode = (if d.mode = .protect then .degraded else d.mode) ∧
          e.getB F.TRB_STICKY1_SAGE = true ∧ e.getB F.SYS_DEGR_SAGE = true ∧ e.sage.equal = false ∧
          (badC = true → e.getB F.SAGE_STAT_MIS_C = true)))

/-- R396, R430 to R435, R446, R447, R454: a validated authorised request is carried out at the end of a pass: it has the effect of its code where its condition holds and answers RESULT 0, or
answers the RESULT of its refusal and changes nothing else; it is then done and its requester's mailbox free. -/
def Obligations.AuthorisedRequestsActAndAnswer : Prop :=
  ∀ (s : State) (x : Sub), s.dev.On → s.dev.getB F.SYS_START_LOAD_HELD = false →
    let d := s.dev
    let answers (c : Instr) (result : Nat) (p : Dev → Prop) : Prop := ∃ e, Gives c s e ∧ e.hfr.subs = d.hfr.subs.tail ∧ e.hfr.waiting = false ∧
      e.getF F.HFR_RSTAT_STATE x.req.slot = 3 ∧ e.getF F.HFR_RSTAT_RESULT x.req.slot = result ∧ p e
    let nvIs (nv : Nv) (e : Dev) : Prop := e.nv = nv ∧ e.mode = d.mode
    (d.authDue 1 = some x → ∀ o t, d.net.servo.latest = some (o, t) →
      (d.calState = 4 → d.tsc ≤ t + 2000000000 → answers .restep 0 fun e => e.calState = 2 ∧ e.cal = d.accLess o / 2 ^ 40) ∧
      (d.calState ≠ 4 → answers .restep 9 (nvIs d.nv))) ∧
    (d.authDue 2 = some x →
      (d.getB F.HFR_LOCK_TIME = false → d.getB F.CLK_CAL_STAT_STEPPED = false → d.getB F.PTP_STAT_SLAVE = false →
        answers .calSet 0 fun e => e.calState = 3 ∧ e.cal = x.arg 8 % 2 ^ 64 ∧ e.getB F.HFR_LOCK_TIME = true ∧ e.getB F.CLK_CAL_STAT_STEPPED = true) ∧
      (d.getB F.HFR_LOCK_TIME = true ∨ d.getB F.CLK_CAL_STAT_STEPPED = true ∨ d.getB F.PTP_STAT_SLAVE = true → answers .calSet 9 (nvIs d.nv))) ∧
    (d.authDue 3 = some x →
      (d.mode = .commission → answers .testout 0 fun e => e.getB F.HFR_GATE_TESTOUT = (x.arg 1 == 1) ∧
        e.getB F.HFR_GATE_OPEN = (x.arg 1 == 1) ∧ e.mode = .commission) ∧
      (d.mode ≠ .commission → answers .testout 9 (nvIs d.nv))) ∧
    (d.authDue 4 = some x → ∀ t, d.nv.canary = some t → canaryOk t = true → answers .tlockClear 0 fun e =>
      ∃ u, e.nv.canary = some u ∧ canaryFlag u 1 = false ∧ canaryFlag u 0 = canaryFlag t 0 ∧ ∀ k < 16, canaryEntry u k = canaryEntry t k) ∧
    (d.authDue 5 = some x →
      (d.nearOk = true → d.farOk = true → answers .loglossClear 0 (nvIs { d.nv with logloss := false })) ∧
      (d.nearOk = false ∨ d.farOk = false → answers .loglossClear 9 (nvIs d.nv))) ∧
    (d.authDue 6 = some x →
      let k := d.keySlot (x.arg 1)
      (k.hash = [] → k.revoked = false → answers .keyEnrol 0 (nvIs { d.nv with
        keys := SMap.set d.nv.keys (x.arg 1) ⟨sha384 (x.bytes 33 97), false, x.bytes 33 97⟩ })) ∧
      (k.hash ≠ [] ∨ k.revoked = true → answers .keyEnrol 9 (nvIs d.nv))) ∧
    (d.authDue 7 = some x →
      let k := d.keySlot (x.arg 1)
      let last := k.valid && (List.range 4).countP (fun i => (d.keySlot i).valid) == 1
      (last = true → answers .keyRevoke 10 (nvIs d.nv)) ∧
      (last = false → x.field 16 1 = x.arg 1 → answers .keyRevoke 9 (nvIs d.nv)) ∧
      (last = false → x.field 16 1 ≠ x.arg 1 → answers .keyRevoke 0 (nvIs { d.nv with
        keys := SMap.set d.nv.keys (x.arg 1) { k with revoked := true } }))) ∧
    (d.authDue 8 = some x →
      let v := x.arg 8
      (v ≤ d.nv.rows.headD 0 ∨ d.hfr.passed = false ∨ d.seam.design.rollback < v → answers .rollbackRaise 9 (nvIs d.nv)) ∧
      (d.nv.rows.headD 0 < v → d.hfr.passed = true → v ≤ d.seam.design.rollback →
        (d.nv.rows.length < 128 → answers .rollbackRaise 0 (nvIs { d.nv with rows := v :: d.nv.rows })) ∧
        (128 ≤ d.nv.rows.length → answers .rollbackRaise 10 (nvIs d.nv)))) ∧
    (d.authDue 9 = some x → answers .imagePref 0 (nvIs { d.nv with pref := x.arg 1 })) ∧
    (d.authDue 16 = some x →
      (d.mode = .protect ∨ d.mode = .degraded → answers .reqCommission 0 fun e => e.mode = .commission) ∧
      (d.mode ≠ .protect → d.mode ≠ .degraded → answers .reqCommission 9 (nvIs d.nv))) ∧
    (d.authDue 17 = some x →
      (d.mode = .commission → d.resumeOk = true → answers .reqProtect 0 fun e => e.mode = .protect ∧ e.getB F.HFR_GATE_OPEN = true) ∧
      (d.mode ≠ .commission ∨ d.resumeOk = false → answers .reqProtect 9 (nvIs d.nv))) ∧
    (d.authDue 18 = some x →
      (d.mode = .degraded → d.resumeOk = true → answers .reqResume 0 fun e => e.mode = .protect ∧ e.getB F.HFR_GATE_OPEN = true) ∧
      (d.mode ≠ .degraded ∨ d.resumeOk = false → answers .reqResume 9 (nvIs d.nv))) ∧
    (d.authDue 19 = some x →
      (d.mode = .commission ∨ d.mode = .protect ∨ d.mode = .degraded →
        answers .reqSafe 0 fun e => e.mode = .safe ∧ e.getB F.HFR_GATE_OPEN = false ∧ e.getF F.SYS_MODE_CAUSE = 0x0013) ∧
      (d.mode ≠ .commission → d.mode ≠ .protect → d.mode ≠ .degraded → answers .reqSafe 9 (nvIs d.nv))) ∧
    (d.authDue 20 = some x →
      (d.mode ≠ .hold → answers .reqRestart 0 fun e => e.mode = .hold ∧ e.hfr.restart = true ∧ e.hfr.holdAt = d.tsc ∧
        e.getF F.SYS_MODE_CAUSE = 0x0014) ∧
      (d.mode = .hold → answers .reqRestart 9 (nvIs d.nv))) ∧
    (d.authDue 21 = some x → answers .startmode 0 (nvIs { d.nv with startmode := x.arg 1 }))

/-! ### The supply, HOLD and Thyme (R448, R449, R455, R465 to R470, R474, R515) -/

/-- R448, R449, R455, R465 to R470, R474, R478, R515: what the supply, the hold-up store, the keep-alive store and the tamper loop do.  A lost supply is ridden through where the
store allows, and otherwise enters HOLD, as the store's fall to the reserve does; HOLD ends in BOOT once its work is done and the supply is valid, or in OFF with the store empty;
the measured capacitance, HOLD_READY and KA_LOW are shown; Thyme stops, and counts the openings of an unpowered module. -/
def Obligations.SupplyEventsRideHoldAndRestart : Prop :=
  ∀ (s : State) (elapsed : BitVec 48) (cap : BitVec 16) (high low : Bool),
    let d := s.dev
    let reports (e : Dev) : Prop := e = { d with regs := e.regs, skips := e.skips, recq := e.recq, recOrder := e.recOrder }
    let ok (e : Dev) : Bool := e.getB F.SYS_PWR_SUPPLY_OK
    let normal : Prop := d.mode = .commission ∨ d.mode = .protect ∨ d.mode = .degraded
    let boots (c : Instr) (origin : Nat) : Prop := ∃ e, Gives c s e ∧ e.mode = .boot ∧ e.tsc = 0 ∧ e.hfr = { origin := origin } ∧
      e.nv.pcyc = (d.nv.pcyc + 1) % 2 ^ 24 ∧ e.skips = [] ∧ e.seam = {} ∧ e.field = d.field ∧ ok e = true ∧ e.getB F.HFR_GATE_OPEN = false
    let holds (c : Instr) : Prop := ∃ e, Gives c s e ∧ e.mode = .hold ∧ e.hfr.holdAt = d.tsc ∧ e.hfr.restart = false ∧ e.hfr.logsClosed = true ∧
      e.getF F.SYS_MODE_CAUSE = 0x0040 ∧ e.getB F.HFR_GATE_OPEN = false ∧ e.getB F.SYS_PWR_RIDE = true ∧ e.tsc = d.tsc ∧ e.seam = d.seam ∧ e.field = d.field
    (d.mode = .off → boots (.supplyValid elapsed) 0) ∧
    (d.On → ok d = true → Gives (.supplyValid elapsed) s d) ∧
    (d.On → ok d = false → d.mode ≠ .hold → ∃ e, Gives (.supplyValid elapsed) s e ∧ reports e ∧ ok e = true ∧ e.getB F.SYS_PWR_RIDE = false ∧
      e.getB F.SYS_PWR_OVERVOLT = false) ∧
    (ok d = false → d.mode = .hold → d.hfr.holdDone = true → boots (.supplyValid elapsed) (if d.hfr.restart then 2 else 1)) ∧
    (normal → ok d = true → ∃ e, Gives (.supplyLost high false) s e ∧ reports e ∧ ok e = false ∧ e.getB F.SYS_PWR_RIDE = true ∧
      e.getB F.SYS_PWR_PF_S = true ∧ e.getB F.SYS_PWR_OVERVOLT = high ∧ e.getB F.SYS_PWR_HOLD_READY = false ∧ e.bitF F.DMA_PBA_PBA 0 21 = true) ∧
    (d.On → ok d = true → d.mode ≠ .hold → ¬normal ∨ low = true → holds (.supplyLost high low)) ∧
    (normal → d.getB F.SYS_PWR_RIDE = true → holds .holdEntry) ∧
    (d.mode = .hold → d.hfr.holdAt + 50000000 ≤ d.tsc →
      (d.hfr.snap = none → Gives .snapFail s d) ∧
      (∀ p, d.hfr.snap = some p → ∃ e, Gives .snapFail s e ∧ e.hfr = { d.hfr with snap := none, snapFailed := true } ∧
        e = { d with regs := e.regs, skips := e.skips, recq := e.recq, recOrder := e.recOrder, hfr := e.hfr })) ∧
    (d.mode = .hold → d.hfr.holdDone = false → d.hfr.holdFault = none → d.hfr.snap = none → d.hfr.logsClosed = true →
      (ok d = false → ∃ e, Gives .holdDone s e ∧ e.hfr = { d.hfr with holdDone := true } ∧
        e = { d with regs := e.regs, skips := e.skips, recq := e.recq, recOrder := e.recOrder, hfr := e.hfr }) ∧
      (ok d = true → boots .holdDone (if d.hfr.restart then 2 else 1))) ∧
    (∀ t, d.mode = .hold → d.hfr.holdFault = some t → t + 200000000 ≤ d.tsc → ok d = true →
      boots .holdFaultEnd (if d.hfr.restart then 2 else 1)) ∧
    (d.mode = .hold → ok d = false → ∃ e, Gives .holdupExhausted s e ∧ e.mode = .off ∧ e.field = d.field ∧
      e.nv = { d.farCut.nv with thyme := { d.nv.thyme with base := d.thymeNow } } ∧ e.skips = [] ∧ e.seam = {}) ∧
    (d.On → ∃ e, Gives (.holdupCapMeasure cap) s e ∧ reports e ∧ e.getF F.SYS_HOLDUP_CAP = cap.toNat ∧
      e.getB F.SYS_PWR_HOLDUP_LOW = decide (cap.toNat < 1750) ∧
      (cap.toNat < 1750 → e.getB F.SYS_PWR_HOLD_READY = false ∧ e.getB F.TRB_STICKY2_HOLDUP = true)) ∧
    (d.On → d.getB F.SYS_PWR_HOLDUP_LOW = false → ok d = true → Gives .holdupCharged s (d.setF F.SYS_PWR_HOLD_READY 0 1)) ∧
    (d.On → 900000000000 ≤ d.tsc → ∃ e, Gives (.kaLow low) s e ∧ reports e ∧ e.getB F.SYS_PWR_KA_LOW = low) ∧
    Gives .thymeStop s { d with nv := { d.nv with thyme := { d.nv.thyme with base := d.thymeNow, run := false, valid := false } } } ∧
    (d.On → ∃ e, Gives (.tamperOpening elapsed) s e ∧ reports e ∧ e.getB F.HFR_TAMPER_OPEN_S = true ∧ e.bitF F.DMA_PBA_PBA 0 20 = true) ∧
    (d.mode = .off → d.nv.thyme.run = true → d.nv.thyme.opens ≠ 0 → Gives (.tamperOpening elapsed) s { d with nv := { d.nv with
      thyme := { d.nv.thyme with opens := min 65535 (d.nv.thyme.opens + 1), last := (d.nv.thyme.base + elapsed.toNat) % 2 ^ 48 } } })

/-! ### Start, halves and faults of Headframe (R428, R429, R452, R457, R458, R476, R477, R483, R514 to R516) -/

/-- R428, R429, R452, R457, R458, R476, R477, R483, R514 to R516: the ROM starts once, BOOT goes on to LOAD, each image slot is tried once, and LOAD ends as the start mode says; a half is
lost, restarted and readmitted, at most three times in 60 min; a fault of Headframe holds its cores, ends its submissions and enters SAFE; they restart after 10 ms unless given up;
the PPS output rises with a whole second of a locked calendar and falls 100 ms later. -/
def Obligations.StartHalvesFaultsAndPpsFollowTheirEvents : Prop :=
  ∀ (s : State) (straps : BitVec 3) (h : Half) (poison : Bool) (pc : Dword), s.dev.On →
    let d := s.dev
    let x := d.half h
    let faulted (c : Instr) : Prop := ∃ e, Gives c s e ∧ e.hfr.held = true ∧ e.hfr.subs = [] ∧ e.hfr.faults.head? = some d.tsc ∧
      e.getB F.TRB_STICKY3_HFR_FAULT = true ∧ e.getB F.SAGE_STAT_RUN = false ∧ e.mode = (if d.mode = .hold then .hold else .safe) ∧
      (d.mode ≠ .hold → e.getF F.SYS_MODE_CAUSE = 0x0031) ∧ (d.mode ≠ .hold → d.mode ≠ .safe → e.getB F.HFR_GATE_OPEN = false)
    (d.mode = .boot → d.hfr.rom = false → d.hfr.held = false →
      ∃ e, Gives (.headframeRomStart straps) s e ∧ e.mode = .boot ∧ e.hfr = { d.hfr with rom := true } ∧ e.nv = d.nv ∧
        e.getF F.DMA_LINK_STRAP = straps.toNat ∧ e.getF F.SYS_START_ORIGIN = d.hfr.origin % 4 ∧ e.getB F.SYS_START_THYME_LOST = !d.nv.thyme.valid ∧
        e.getF F.SYS_MODE_PREV = (if d.hfr.origin = 0 then 0 else 6) ∧ e.getB F.HFR_GATE_OPEN = false) ∧
    (d.mode = .boot → d.hfr.rom = true → d.hfr.held = false →
      ∃ e, Gives .bootDone s e ∧ e.mode = .load ∧ e.getF F.SYS_MODE_CAUSE = 0x0002 ∧ e.getF F.SYS_MODE_PREV = 1 ∧ e.pcie.dram = true ∧
        (d.skips = [] → d.halfOff .north = false → (e.skip 4).st = .run ∧ (e.skip 4).credits = 1024) ∧
        (d.skips = [] → (e.skip 30).st = .run ∧ (e.skip 30).credits = 256)) ∧
    (d.loading = true → d.hfr.passed = false → ∀ tried, d.hfr.tried = tried → tried.length < 2 →
      let slot := match tried with
        | [] => d.nv.pref % 2
        | k :: _ => 1 - k
      let b := SMap.getD d.nv.slots slot []
      ∃ e, Gives .imageAuthenticated s e ∧ e.hfr.tried = tried ++ [slot] ∧ e.hfr.passed = decide ((d.imageCode b).1 = 0) ∧ e.mode = d.mode ∧
        ((d.imageCode b).1 = 0 → e.seam.design = readDesign b) ∧
        ((d.imageCode b).1 ≠ 0 → e.getF (if slot = 0 then F.HFR_IMG_FAIL_A else F.HFR_IMG_FAIL_B) = (d.imageCode b).1 % 8 ∧
          (tried.length = 1 → e.getB F.SYS_START_LOAD_HELD = true ∧ e.getB F.HFR_IMG_NONE = true))) ∧
    (d.loading = true → d.hfr.passed = true → d.tsc < 2 ^ 64 → d.anyHalfOff = false →
      ∃ e, Gives .loadDone s e ∧ e.mode = (if d.nv.startmode = 1 then .protect else .commission) ∧ e.getF F.SYS_MODE_CAUSE = 0x0003 ∧
        e.getF F.SYS_TREL_TSC = d.tsc ∧ e.getB F.HFR_LOCK_STRUCT = true ∧ (d.nv.startmode = 1 → e.getB F.HFR_GATE_OPEN = true)) ∧
    (d.halfOff h = true → Gives (.halfLost h) s d) ∧
    (d.halfOff h = false →
      ∃ e, Gives (.halfLost h) s e ∧ e.halfOff h = true ∧ (e.half h).failedAt = d.tsc ∧ (e.half h).readmits = x.readmits ∧
        e.getB F.TRB_STICKY2_PWR_HALF = true ∧ e.halfGivenUp h = (d.halfGivenUp h || decide (3 ≤ d.halfTries h)) ∧
        e.mode = (if d.mode = .protect then .degraded else d.mode) ∧
        ∀ n, skipHalf n = some h → (d.skip n).st ≠ .offline → (e.skip n).st = .offline ∧ (e.skip n).queue = [] ∧ (e.skip n).credits = 0) ∧
    (d.halfOff h = true → halfModes d.mode = true → d.halfGivenUp h = false → x.failedAt + 100000000 ≤ d.tsc →
      Gives (.halfRestart h) s (d.setHalf h { x with restarted := true })) ∧
    (d.halfOff h = true → halfModes d.mode = true → d.hfr.held = false → d.halfGivenUp h = false → x.restarted = true →
      x.failedAt + 200000000 ≤ d.tsc →
      (d.halfTries h < 3 → ∃ e, Gives (.halfReadmit h) s e ∧ e.halfOff h = false ∧ (e.half h).readmits = (d.tsc :: x.readmits).take 4 ∧ e.mode = d.mode ∧
        ∀ n, skipHalf n = some h → (d.skip n).st = .offline → (e.skip n).st = (d.skip n).was ∧
          ((d.skip n).was = .run → (e.skip n).credits = skipCap n)) ∧
      (3 ≤ d.halfTries h → Gives (.halfReadmit h) s d)) ∧
    ((d.calState = 2 ∨ d.calState = 3) → d.secondPassed = true → Gives .ppsOutRise s { d with pps := some (d.tsc + 100000000) }) ∧
    (d.calState ≠ 2 → d.calState ≠ 3 → Gives .ppsOutRise s d) ∧
    (∀ t, d.pps = some t → t ≤ d.tsc → Gives .ppsOutFall s { d with pps := none }) ∧
    (d.hfr.held = false → faulted (.headframeFault poison pc) ∧ faulted (.headframeWatchdogExpiry pc)) ∧
    (d.hfr.held = true → Gives (.headframeFault poison pc) s d ∧ Gives (.headframeWatchdogExpiry pc) s d) ∧
    (d.hfr.held = true → d.mode = .safe → d.hfr.faults.headD 0 + 10000000 ≤ d.tsc →
      (d.hfr.giveup = false → Gives .headframeRestart s { d with hfr := { d.hfr with held := false } }) ∧
      (d.hfr.giveup = true → Gives .headframeRestart s d))

/-! ### Memory scrubbing, NAND and temperature (R507 to R513, R519, R520) -/

/-- R507 to R513, R519, R520: a pass of a scrubber is counted; a word with one or two bits in error is corrected, shown and counted, and one beyond correction is poisoned, shown, counted
and told to the failure area; a pass that overruns its period, a NAND block's corrections and wear, and a temperature above its limit set their trouble bits. -/
def Obligations.ScrubbersNandAndTemperatureReport : Prop :=
  ∀ (s : State) (r : Fin 8) (w : BadWord) (slot : Option (Fin 2)) (addr : BitVec 32) (corr : Byte) (pe rate : BitVec 16), s.dev.On →
    let d := s.dev
    let n := corr.toNat
    let known : Bool := (SMap.getD d.bad r []).contains (badIndex r w)
    let shows (e : Dev) (kind : Nat) : Prop := e.getF F.TRB_MEMINFO_REGION = r ∧ e.getF F.TRB_MEMINFO_KIND = kind ∧ e.getF F.TRB_MEMLAST_ADDR = w.addr.toNat
    (d.scrubRuns r = false → Gives (.scrubPassEnd r []) s d ∧ Gives (.scrubLate r) s d) ∧
    (d.scrubRuns r = true →
      Gives (.scrubPassEnd r []) s (d.incWrap F.TRB_SCRUB_PASSES r) ∧
      (∃ e, Gives (.scrubLate r) s e ∧ e.getB F.TRB_STICKY3_SCRUB_LATE = true ∧ e = { d with regs := e.regs }) ∧
      (r.val ≠ 7 → w.addr.toNat % 8 = 0 → w.addr.toNat < regionSize r → known = false → d.getF F.TRB_MEMCNT_UNCORR r < 65535 →
        d.getF F.TRB_MEMCNT_CORR r < 65535 →
        (∀ k, k ≠ 0 → decodeWord w.err.toNat = .ok k 0 → d.getF F.TRB_MEMINFO_KIND ≠ 3 →
          ∃ e, Gives (.scrubPassEnd r [w]) s e ∧ shows e k ∧ e.getF F.TRB_MEMCNT_CORR r = d.getF F.TRB_MEMCNT_CORR r + 1 ∧
            (k = 2 → e.getB F.TRB_STICKY3_MEM_CE = true) ∧ e = { d with regs := e.regs }) ∧
        (decodeWord w.err.toNat = .uncorrectable →
          ∃ e, Gives (.scrubPassEnd r [w]) s e ∧ shows e 3 ∧ e.getF F.TRB_MEMCNT_UNCORR r = d.getF F.TRB_MEMCNT_UNCORR r + 1 ∧
            e.getB F.TRB_STICKY3_MEM_UE = true ∧ badIndex r w ∈ SMap.getD e.bad r [] ∧ e.mode = d.mode ∧
            (r.val = 0 → Memory.readBytes e.recMem w.addr.toNat 8 = List.replicate 8 0)))) ∧
    (∃ e, Gives (.nandRefresh slot addr corr pe rate) s e ∧ e.getF F.TRB_NANDWEAR_PE = pe.toNat ∧ e.getF F.TRB_NANDWEAR_RATE = rate.toNat ∧
      (24000 < pe.toNat ∨ 2000 < rate.toNat → e.getB F.TRB_STICKY3_NAND_WEAR = true) ∧
      (32 < n → n ≤ 40 → e.getB F.TRB_STICKY3_MEM_CE = true) ∧ (40 < n → e.getB F.TRB_STICKY3_MEM_UE = true) ∧
      (n ≤ 40 → e = { d with regs := e.regs }) ∧
      (d.getF F.TRB_MEMCNT_CORR 7 < 65535 → e.getF F.TRB_MEMCNT_CORR 7 = d.getF F.TRB_MEMCNT_CORR 7 + (if 0 < n ∧ n ≤ 40 then 1 else 0))) ∧
    (∃ e, Gives .temp s e ∧ e.getB F.TRB_STICKY2_TEMP = true ∧ e = { d with regs := e.regs })
end

