-- ==== Sys2Proof/Laws/Memory.lean ====
section
/-!
SUPPORT. Sparse maps and memories: a read after a write, what a write leaves alone, and that every memory operation keeps the
canonical form.
-/
namespace Sys2Proof.SMap
variable {α : Type}

theorem get?_set (m : SMap α) (a b : Nat) (v : α) : get? (set m a v) b = if b = a then some v else get? m b := by
  induction m with
  | nil => simp [set, get?]
  | cons p m ih =>
    obtain ⟨k, w⟩ := p
    simp only [set]
    split
    · simp only [get?]
    · split
      · subst_vars
        simp only [get?]
        split <;> simp_all
      · simp only [get?, ih]
        split <;> split <;> simp_all

@[simp] theorem get?_set_same (m : SMap α) (a : Nat) (v : α) : get? (set m a v) a = some v := by simp [get?_set]

theorem get?_set_of_ne (m : SMap α) {a b : Nat} (v : α) (h : b ≠ a) : get? (set m a v) b = get? m b := by simp [get?_set, h]

@[simp] theorem getD_set_same (m : SMap α) (a : Nat) (v d : α) : getD (set m a v) a d = v := by simp [getD]

theorem getD_set_of_ne (m : SMap α) {a b : Nat} (v d : α) (h : b ≠ a) : getD (set m a v) b d = getD m b d := by
  simp [getD, get?_set_of_ne m v h]

theorem get?_erase (m : SMap α) (a b : Nat) : get? (erase m a) b = if b = a then none else get? m b := by
  induction m with
  | nil => simp [erase, get?]
  | cons p m ih =>
    obtain ⟨k, w⟩ := p
    simp only [erase] at ih
    simp only [erase, List.filter_cons]
    split
    · simp only [get?, ih]
      split <;> split <;> simp_all
    · simp only [get?, ih]
      split <;> simp_all

/-- A key list rises, by its first key and its tail. -/
theorem rising_cons (p : Nat × α) (m : SMap α) : rising (p :: m) = true ↔ (∀ q ∈ m, p.1 < q.1) ∧ rising m = true := by
  induction m generalizing p with
  | nil => simp [rising]
  | cons q m ih =>
    simp only [rising, Bool.and_eq_true, decide_eq_true_eq, List.mem_cons, forall_eq_or_imp]
    constructor
    · rintro ⟨h, r⟩
      exact ⟨⟨h, fun x hx => h.trans (((ih q).1 r).1 x hx)⟩, r⟩
    · rintro ⟨⟨h, _⟩, r⟩
      exact ⟨h, r⟩

theorem mem_set (m : SMap α) (a : Nat) (v : α) (q : Nat × α) (h : q ∈ set m a v) : q = (a, v) ∨ q ∈ m := by
  induction m with
  | nil => simpa [set] using h
  | cons p m ih =>
    obtain ⟨k, w⟩ := p
    simp only [set] at h
    split at h
    · simpa using h
    · split at h
      · rcases List.mem_cons.1 h with h | h
        · exact .inl h
        · exact .inr (List.mem_cons_of_mem _ h)
      · rcases List.mem_cons.1 h with h | h
        · exact .inr (h ▸ List.mem_cons_self ..)
        · exact (ih h).imp_right (List.mem_cons_of_mem _)

theorem rising_set (m : SMap α) (a : Nat) (v : α) (h : rising m = true) : rising (set m a v) = true := by
  induction m with
  | nil => simp [set, rising]
  | cons p m ih =>
    obtain ⟨k, w⟩ := p
    obtain ⟨h1, h2⟩ := (rising_cons _ _).1 h
    simp only [set]
    split
    · next hlt =>
      refine (rising_cons _ _).2 ⟨?_, h⟩
      intro q hq
      rcases List.mem_cons.1 hq with rfl | hq
      · exact hlt
      · exact hlt.trans (h1 q hq)
    · split
      · next heq =>
        subst heq
        exact (rising_cons _ _).2 ⟨h1, h2⟩
      · next hlt hne =>
        refine (rising_cons _ _).2 ⟨?_, ih h2⟩
        intro q hq
        rcases mem_set _ _ _ _ hq with rfl | hq
        · have : k ≠ a := fun e => hne e.symm
          show k < a
          omega
        · exact h1 q hq

theorem rising_erase (m : SMap α) (a : Nat) (h : rising m = true) : rising (erase m a) = true := by
  induction m with
  | nil => simpa [erase] using h
  | cons p m ih =>
    obtain ⟨h1, h2⟩ := (rising_cons _ _).1 h
    have ih := ih h2
    simp only [erase] at ih ⊢
    simp only [List.filter_cons]
    split
    · exact (rising_cons _ _).2 ⟨fun q hq => h1 q (List.mem_filter.1 hq).1, ih⟩
    · exact ih

end Sys2Proof.SMap

namespace Sys2Proof.Machine
open Sys2Proof.SMap

theorem Memory.wf_write (m : Memory) (a : Nat) (v : Byte) (h : Memory.wf m = true) : Memory.wf (Memory.write m a v) = true := by
  simp only [Memory.wf, Bool.and_eq_true, List.all_eq_true] at h ⊢
  simp only [Memory.write, put]
  split
  · refine ⟨rising_erase _ _ h.1, fun q hq => h.2 q ?_⟩
    exact (List.mem_filter.1 hq).1
  · next hv =>
    refine ⟨rising_set _ _ _ h.1, fun q hq => ?_⟩
    rcases mem_set _ _ _ _ hq with rfl | hq
    · simpa using hv
    · exact h.2 q hq

theorem Memory.wf_writeBytes (bs : List Byte) (m : Memory) (a : Nat) (h : Memory.wf m = true) :
    Memory.wf (Memory.writeBytes m a bs) = true := by
  induction bs generalizing m a with
  | nil => exact h
  | cons b bs ih => exact ih _ _ (Memory.wf_write m a b h)

@[simp] theorem Memory.read_write_same (m : Memory) (a : Nat) (v : Byte) : (Memory.write m a v).read a = v := by
  simp only [Memory.read, Memory.write, put]
  split
  · next h => simp [getD, get?_erase, h]
  · simp

theorem Memory.read_write_of_ne (m : Memory) {a b : Nat} (v : Byte) (h : b ≠ a) : (Memory.write m a v).read b = m.read b := by
  simp only [Memory.read, Memory.write, put]
  split
  · simp [getD, get?_erase, h]
  · exact getD_set_of_ne m v 0 h

/-- A write of bytes changes no byte outside them. -/
theorem Memory.read_writeBytes_of_out (bs : List Byte) (m : Memory) (a b : Nat) (h : b < a ∨ a + bs.length ≤ b) :
    (Memory.writeBytes m a bs).read b = m.read b := by
  induction bs generalizing m a with
  | nil => rfl
  | cons c bs ih =>
    simp only [List.length_cons] at h
    simp only [Memory.writeBytes]
    rw [ih _ _ (by omega), Memory.read_write_of_ne m c (by omega)]

/-- Bytes read back where they were written. -/
theorem Memory.read_writeBytes_of_in (bs : List Byte) (m : Memory) (a i : Nat) (h : i < bs.length) :
    (Memory.writeBytes m a bs).read (a + i) = bs[i] := by
  induction bs generalizing m a i with
  | nil => simp at h
  | cons c bs ih =>
    simp only [Memory.writeBytes]
    cases i with
    | zero => rw [Nat.add_zero, Memory.read_writeBytes_of_out bs _ _ _ (by omega)]; simp
    | succ i =>
      have := ih (m.write a c) (a + 1) i (by simpa using h)
      rw [show a + (i + 1) = a + 1 + i by omega, this]
      simp

end Sys2Proof.Machine
end

