-- ==== Sys2Proof/Laws/Regs.lean ====
section
/-!
SUPPORT. Registers by field: a field read after it, or another one, was stored; the places of two fields never meet.
-/
namespace Sys2Proof.Machine

theorem Reg.ctorIdx_lt (r : Reg) : r.ctorIdx < 512 := by cases r <;> decide

theorem Reg.ctorIdx_inj {a b : Reg} (h : a.ctorIdx = b.ctorIdx) : a = b := by
  rw [← Reg.ofNat_ctorIdx a, ← Reg.ofNat_ctorIdx b]
  exact congrArg _ h

/-- Two fields of different places have different keys. -/
theorem Fld.key_inj {f g : Fld} {i j : Nat} (hf : f.lo < 64) (hg : g.lo < 64) (h : f.key i = g.key j) :
    f.reg = g.reg ∧ f.lo = g.lo ∧ i = j := by
  have a := Reg.ctorIdx_lt f.reg
  have b := Reg.ctorIdx_lt g.reg
  unfold Fld.key at h
  refine ⟨Reg.ctorIdx_inj ?_, ?_, ?_⟩ <;> omega

@[simp] theorem Dev.getF_setF_same (d : Dev) (f : Fld) (i v : Nat) : (d.setF f i v).getF f i = v % 2 ^ f.len := by
  simp [Dev.getF, Dev.setF]

theorem Dev.getF_setF_ne (d : Dev) {f g : Fld} {i j : Nat} (v : Nat) (h : g.key j ≠ f.key i) :
    (d.setF f i v).getF g j = d.getF g j := by
  simp [Dev.getF, Dev.setF, SMap.getD_set_of_ne _ _ _ h]

/-- A store in another register, bit place or index. -/
theorem Dev.getF_setF_other (d : Dev) {f g : Fld} {i j : Nat} (v : Nat) (hf : f.lo < 64) (hg : g.lo < 64)
    (h : g.reg ≠ f.reg ∨ g.lo ≠ f.lo ∨ j ≠ i) : (d.setF f i v).getF g j = d.getF g j :=
  Dev.getF_setF_ne d v fun e => by
    have := Fld.key_inj hg hf e
    tauto

theorem Dev.getF_regs (d e : Dev) (h : e.regs = d.regs) (f : Fld) (i : Nat) : e.getF f i = d.getF f i := by
  simp [Dev.getF, h]

@[simp] theorem Dev.setF_mode (d : Dev) (f : Fld) (i v : Nat) : (d.setF f i v).mode = d.mode := rfl
@[simp] theorem Dev.setF_tsc (d : Dev) (f : Fld) (i v : Nat) : (d.setF f i v).tsc = d.tsc := rfl

/-- Storing a field changes the register file alone. -/
theorem Dev.setF_eq (d : Dev) (f : Fld) (i v : Nat) : d.setF f i v = { d with regs := (d.setF f i v).regs } := rfl

end Sys2Proof.Machine
end

