-- ==== Sys2Proof/Laws/Report.lean ====
section
/-!
SUPPORT. What reporting may change: a record, a vector, a trouble bit and a flag write the registers they name, skip 29 and the
producers' queues, and nothing else.
-/
namespace Sys2Proof.Machine

/-- `e` differs from `d` in registers of a list, in the skips and in the producers' queues alone. -/
structure Dev.Touches (R : List Reg) (d e : Dev) : Prop where
  eq : e = { d with regs := e.regs, skips := e.skips, recq := e.recq, recOrder := e.recOrder }
  reg : ∀ (f : Fld) (i : Nat), f.reg ∉ R → f.lo < 64 → e.getF f i = d.getF f i

variable {R S : List Reg} {d x e : Dev}

theorem Dev.Touches.refl (R : List Reg) (d : Dev) : Dev.Touches R d d := ⟨rfl, fun _ _ _ _ => rfl⟩

theorem Dev.Touches.after (h : Dev.Touches R x e) (g : Dev.Touches R d x) : Dev.Touches R d e := by
  refine ⟨?_, fun f i hf hl => (h.reg f i hf hl).trans (g.reg f i hf hl)⟩
  have a := h.eq
  have b := g.eq
  rw [b] at a
  exact a

theorem Dev.Touches.mono (h : Dev.Touches R d e) (s : ∀ r ∈ R, r ∈ S) : Dev.Touches S d e :=
  ⟨h.eq, fun f i hf hl => h.reg f i (fun m => hf (s _ m)) hl⟩

/-- What one of these operations leaves alone, field by field. -/
theorem Dev.Touches.of {α : Type} (h : Dev.Touches R d e) (p : Dev → α)
    (hp : ∀ d r s q o, p { d with regs := r, skips := s, recq := q, recOrder := o } = p d) : p e = p d := by
  rw [h.eq]
  exact hp _ _ _ _ _

theorem Dev.Touches.mode (h : Dev.Touches R d e) : e.mode = d.mode := h.of (·.mode) fun _ _ _ _ _ => rfl
theorem Dev.Touches.tsc (h : Dev.Touches R d e) : e.tsc = d.tsc := h.of (·.tsc) fun _ _ _ _ _ => rfl
theorem Dev.Touches.nv (h : Dev.Touches R d e) : e.nv = d.nv := h.of (·.nv) fun _ _ _ _ _ => rfl
theorem Dev.Touches.getB (h : Dev.Touches R d e) (f : Fld) (i : Nat) (hf : f.reg ∉ R) (hl : f.lo < 64) : e.getB f i = d.getB f i := by
  simp only [Dev.getB, h.reg f i hf hl]
theorem Dev.Touches.bitF (h : Dev.Touches R d e) (f : Fld) (i k : Nat) (hf : f.reg ∉ R) (hl : f.lo < 64) : e.bitF f i k = d.bitF f i k := by
  simp only [Dev.bitF, h.reg f i hf hl]

theorem Dev.setF_touches (d : Dev) (f : Fld) (i v : Nat) (hr : f.reg ∈ R) (hl : f.lo < 64) : Dev.Touches R d (d.setF f i v) :=
  ⟨rfl, fun _ _ hg hl' => Dev.getF_setF_other d v hl hl' (.inl fun e => hg (e ▸ hr))⟩

theorem Dev.setSkip_touches (R : List Reg) (d : Dev) (n : Nat) (s : Skip) : Dev.Touches R d (d.setSkip n s) :=
  ⟨rfl, fun _ _ _ _ => rfl⟩

theorem Dev.recq_touches (R : List Reg) (d : Dev) (q : SMap RecQ) (o : Nat) : Dev.Touches R d { d with recq := q, recOrder := o } :=
  ⟨rfl, fun _ _ _ _ => rfl⟩

/-! ### Records -/

theorem Dev.push_touches (d : Dev) (n src : Nat) (p : Bool) (seq len : Nat) (body : LumpBody) :
    Dev.Touches [.SKIP_HWM, .SKIP_STALL] d (d.push n src p seq len body) :=
  (Dev.setF_touches _ _ _ _ (by decide) (by decide)).after (Dev.setSkip_touches _ d n _)

theorem Dev.pushRecord_touches (d : Dev) (r : Record) : Dev.Touches [.SKIP_HWM, .SKIP_STALL] d (d.pushRecord r) :=
  (Dev.push_touches _ _ _ _ _ _ _).after (Dev.setSkip_touches _ d 29 _)

theorem Dev.drainOne_touches (d : Dev) (src : Nat) : Dev.Touches [.SKIP_HWM, .SKIP_STALL] d (d.drainOne src) := by
  simp only [Dev.drainOne]
  split
  · exact .refl _ _
  · split
    · split <;> exact (Dev.pushRecord_touches _ _).after (Dev.recq_touches _ d _ d.recOrder)
    · exact .refl _ _

theorem Dev.drainQ_touches (n src : Nat) (d : Dev) : Dev.Touches [.SKIP_HWM, .SKIP_STALL] d (Dev.drainQ n src d) := by
  induction n generalizing d with
  | zero => exact .refl _ _
  | succ n ih => exact (ih _).after (Dev.drainOne_touches d src)

theorem Dev.requestRecord_touches (d : Dev) (r : Record) : Dev.Touches [.SKIP_HWM, .SKIP_STALL] d (d.requestRecord r) := by
  unfold Dev.requestRecord
  by_cases h : 16 ≤ (d.recQ r.src).items.length
  · simp only [h, if_true]
    exact Dev.recq_touches _ d _ _
  · simp only [h, if_false]
    generalize hx : Dev.drainQ 32 r.src _ = x
    have g : Dev.Touches [.SKIP_HWM, .SKIP_STALL] d x := by
      rw [← hx]
      exact (Dev.drainQ_touches _ _ _).after (Dev.recq_touches _ d _ _)
    split
    · split
      · exact (Dev.setF_touches _ _ _ _ (by decide) (by decide)).after g
      · exact g
    · exact g

theorem Dev.record_touches (d : Dev) (typ src : Nat) (fields : List (Nat × Nat)) :
    Dev.Touches [.SKIP_HWM, .SKIP_STALL] d (d.record typ src fields) := Dev.requestRecord_touches d _

/-! ### Vectors, trouble bits, flags -/

theorem Dev.fire_touches (d : Dev) (v : Nat) : Dev.Touches [.DMA_PBA] d (d.fire v) :=
  Dev.setF_touches _ _ _ _ (by decide) (by decide)

theorem Dev.trouble_touches (d : Dev) (f : Fld) (hl : f.lo < 64) : Dev.Touches [f.reg, .DMA_PBA] d (d.trouble f) := by
  unfold Dev.trouble
  split
  · exact .refl _ _
  · exact ((Dev.fire_touches _ 2).mono (by simp)).after (Dev.setF_touches _ _ _ _ (by simp) hl)

theorem Dev.flag_touches (d : Dev) (f : Fld) (i k v : Nat) (hl : f.lo < 64) : Dev.Touches [f.reg, .DMA_PBA] d (d.flag f i k v) := by
  unfold Dev.flag
  split
  · exact .refl _ _
  · exact ((Dev.fire_touches _ v).mono (by simp)).after (Dev.setF_touches _ _ _ _ (by simp) hl)

theorem Dev.addF_touches (d : Dev) (f : Fld) (i n : Nat) (hl : f.lo < 64) : Dev.Touches [f.reg] d (d.addF f i n) :=
  Dev.setF_touches _ _ _ _ (by simp) hl

theorem Dev.setB_touches (d : Dev) (f : Fld) (i : Nat) (b : Bool) (hl : f.lo < 64) : Dev.Touches [f.reg] d (d.setB f i b) :=
  Dev.setF_touches _ _ _ _ (by simp) hl

end Sys2Proof.Machine
end

