-- ==== Sys2Proof/Laws/Banks.lean ====
section
/-!
SUPPORT. The state of a bank as BANKn_FAULT tells it: what it depends on, and what bringing it up to date may change (R302).
-/
namespace Sys2Proof.Machine

/-- A bank's fault depends on no register but the pins' configuration and SYS_HALF. -/
theorem Dev.bankFault_touches {R : List Reg} {d e : Dev} (h : Dev.Touches R d e) (n : Nat) (h1 : Reg.FIO_PCFG ∉ R) (h2 : Reg.SYS_HALF ∉ R) :
   e.bankFault n = d.bankFault n := by
  have a : ∀ c, e.pinCfg c = d.pinCfg c := by
    intro c
    unfold Dev.pinCfg Dev.canaryTable
    rw [h.mode, h.nv]
    rw [h.reg F.FIO_PCFG_DIR c h1 (by decide), h.reg F.FIO_PCFG_TYPE c h1 (by decide), h.reg F.FIO_PCFG_WB c h1 (by decide), h.reg F.FIO_PCFG_FILT c h1 (by decide), h.reg F.FIO_PCFG_LOG c h1 (by decide)]
  have b : e.bank n = d.bank n := h.of (fun x => x.bank n) (fun _ _ _ _ _ => rfl)
  have c : e.fieldSide n = d.fieldSide n := h.of (fun x => x.fieldSide n) (fun _ _ _ _ _ => rfl)
  have g : ∀ k, e.halfOff k = d.halfOff k := by
    intro k; cases k
    · exact h.getB F.SYS_HALF_N_OFF 0 h2 (by decide)
    · exact h.getB F.SYS_HALF_S_OFF 0 h2 (by decide)
  unfold Dev.bankFault
  simp only [a, b, c, g]

/-- Bringing BANKn_FAULT up to date reports, and changes nothing else. -/
theorem Dev.updateBank_touches (d : Dev) (n : Nat) : Dev.Touches [.FIO_STAT, .DMA_PBA, .TRB_STICKY1, .SKIP_HWM, .SKIP_STALL] d (d.updateBank n) := by
  simp only [Dev.updateBank]
  split
  · exact .refl _ _
  · refine ((Dev.record_touches _ _ _ _).mono (by simp)).after ?_
    have := Dev.setF_touches (R := [.FIO_STAT, .DMA_PBA, .TRB_STICKY1, .SKIP_HWM, .SKIP_STALL]) d F.FIO_STAT_BANK_FAULT 0 (putBit (d.getF F.FIO_STAT_BANK_FAULT) n (d.bankFault n)) (by simp) (by decide)
    split
    · exact ((Dev.trouble_touches _ F.TRB_STICKY1_FIO_BANK (by decide)).mono (by simp)).after (((Dev.flag_touches _ F.FIO_STAT_BANK_FLT_S 0 n 14 (by decide)).mono (by simp)).after this)
    · exact this

end Sys2Proof.Machine
end

