-- ==== Sys2Proof/Laws/Bus.lean ====
section
/-!
SUPPORT. Register accesses: what a 32-bit write of a register at its own address comes to once it has passed the checks of R524, and where the
registers that have rows of their own stand.
-/
namespace Sys2Proof.Machine

theorem accessShape_word {a : Nat} (h : a < 2 ^ 22) (h4 : a % 4 = 0) : accessShape ⟨BitVec.ofNat 22 a, 4, false⟩ = .ok := by
  have : (BitVec.ofNat 22 a).toNat = a := by simp; omega
  simp [accessShape, this, h4]

/-- A 32-bit write of a control register that `Accepts` it is judged by the register alone. -/
theorem Dev.writeReg_control {d : Dev} {req : Requester} {r : Reg} {i : Nat} {data : Word} {ring : Ring}
    (hm : mapped (r.addrOf i) = some (.primary, r, i)) (ha : r.addrOf i < 2 ^ 22) (h4 : r.addrOf i % 4 = 0)
    (hc : r.desc.cls = .control) (h : d.Accepts req r i data) :
    d.writeReg req r i data.toNat ring = (d.controlWrite req r i (ctlMask data) (ctlPayload data)).1 := by
  have e : (BitVec.ofNat 22 (r.addrOf i)).toNat = r.addrOf i := by simp; omega
  have l : data.toNat % 2 ^ 32 = data.toNat := Nat.mod_eq_of_lt data.isLt
  obtain ⟨-, -, hw, hl, -, -⟩ := h
  unfold Dev.writeReg Dev.busWrite
  simp only [accessShape_word ha h4, e]
  rw [if_neg (by simp)]
  unfold Dev.writeWord
  simp only [hm, hc, hw, l]
  simp only [ctlMask] at hl
  simp [hl, ctlMask, ctlPayload]

/-- A write of a register outside every composite stores it and takes effect, unless another rule refuses it. -/
theorem Dev.controlWrite_simple {d : Dev} {req : Requester} {r : Reg} {i : Nat} {data : Word} (h : d.Accepts req r i data)
    (hr : r.desc.commit = none) (hn : (d.stored r i data).refusal d req r i (ctlPayload data &&& ctlMask data) = none) :
    (d.controlWrite req r i (ctlMask data) (ctlPayload data)).1 =
      (d.stored r i data).effect d req r i (ctlMask data) (ctlPayload data &&& ctlMask data) := by
  obtain ⟨-, -, -, -, h0, hv⟩ := h
  simp only [Dev.stored] at hn ⊢
  simp [Dev.controlWrite, h0, hv, hr, hn]

/-- A write of a composite's commit register applies the composite and takes effect, unless another rule refuses it. -/
theorem Dev.controlWrite_commit {d : Dev} {req : Requester} {r : Reg} {i : Nat} {data : Word} (h : d.Accepts req r i data)
    (hr : r.desc.commit = some r) (hn : (d.committed r i data).refusal d req r i (ctlPayload data &&& ctlMask data) = none) :
    (d.controlWrite req r i (ctlMask data) (ctlPayload data)).1 =
      (d.committed r i data).effect d req r i (ctlMask data) (ctlPayload data &&& ctlMask data) := by
  obtain ⟨-, -, -, -, h0, hv⟩ := h
  simp only [Dev.committed] at hn ⊢
  simp [Dev.controlWrite, h0, hv, hr, hn]

/-- A register of one word is where its row of the map says. -/
def Reg.Placed (r : Reg) (i : Nat) : Prop := mapped (r.addrOf i) = some (.primary, r, i) ∧ r.addrOf i < 2 ^ 22 ∧ r.addrOf i % 4 = 0

theorem Reg.placed_of (r : Reg) (i : Nat)
    (h : (mapped (r.addrOf i) == some (.primary, r, i) && decide (r.addrOf i < 2 ^ 22) && r.addrOf i % 4 == 0) = true) : r.Placed i := by
  simpa [Reg.Placed, and_assoc] using h

theorem placed_all (r : Reg) (n : Nat)
    (h : ((List.range n).all fun i => mapped (r.addrOf i) == some (.primary, r, i) && decide (r.addrOf i < 2 ^ 22) && r.addrOf i % 4 == 0) = true)
    (i : Nat) (hi : i < n) : r.Placed i := Reg.placed_of r i (List.all_eq_true.mp h i (List.mem_range.mpr hi))

theorem placed_single : ∀ r ∈ [Reg.CLK_SNAP_CTL, .CLK_CONVA, .AUX_URG, .FLT_CWHI, .FLT_RESET, .SVI_SVIDWR, .SEAM_PADDR, .TWU_FARGO, .FIO_INTG,
    .FIO_CLRMASK, .ASY_SQW3, .ASY_ENVHI, .NET_LQCFG, .SYS_MBXGO], r.Placed 0 := by
  intro r hr
  refine Reg.placed_of r 0 ?_
  revert r
  decide +kernel

theorem placed_fltSwap : ∀ i < 16, Reg.FLT_SWAP.Placed i := placed_all _ _ (by decide +kernel)
theorem placed_subctl : ∀ i < 128, Reg.SVI_SUBCTL.Placed i := placed_all _ _ (by decide +kernel)
theorem placed_gctl : ∀ i < 4, Reg.TWU_GCTL.Placed i := placed_all _ _ (by decide +kernel)
theorem placed_sqctl : ∀ i < 8, Reg.ASY_SQCTL.Placed i := placed_all _ _ (by decide +kernel)
theorem placed_aridx : ∀ i < 8, Reg.ASY_ARIDX.Placed i := placed_all _ _ (by decide +kernel)
theorem placed_actl : ∀ i < 8, Reg.ASY_ACTL.Placed i := placed_all _ _ (by decide +kernel)
theorem placed_mkctl : ∀ i < 8, Reg.ASY_MKCTL.Placed i := placed_all _ _ (by decide +kernel)
theorem placed_tctl : ∀ i < 32, Reg.ASY_TCTL.Placed i := placed_all _ _ (by decide +kernel)
theorem placed_frz : ∀ i < 8, Reg.TLY_FRZ.Placed i := placed_all _ _ (by decide +kernel)
theorem placed_chctl : ∀ i < 8, Reg.TLY_CHCTL.Placed i := placed_all _ _ (by decide +kernel)
theorem placed_snhi : ∀ i < 128, Reg.TLY_SNHI.Placed i := placed_all _ _ (by decide +kernel)
theorem placed_lqtail : ∀ i < 256, Reg.NET_LQTAIL.Placed i := placed_all _ _ (by decide +kernel)
theorem placed_mvctl : ∀ i < 8, Reg.DMA_MVCTL.Placed i := placed_all _ _ (by decide +kernel)
theorem placed_mvtail : ∀ i < 8, Reg.DMA_MVTAIL.Placed i := placed_all _ _ (by decide +kernel)
theorem placed_bqtail : ∀ i < 8, Reg.DMA_BQTAIL.Placed i := placed_all _ _ (by decide +kernel)

end Sys2Proof.Machine
end

