-- ==== Sys2Proof/Laws/Dispatch.lean ====
section
/-!
SUPPORT. What `exec` answers for each command: its meaning, one equation a constructor, so that no proof unfolds the dispatch.
-/
namespace Sys2Proof.Machine

@[simp] theorem exec_registerWrite (req : Requester) (acc : Access) (data : Dword) (ring : Ring) (s : State) :
    exec (.registerWrite req acc data ring) s = execRegisterWrite req acc data ring s := rfl
@[simp] theorem exec_dataSetWrite (req : Requester) (acc : Access) (data : Dword) (ring : Ring) (s : State) :
    exec (.dataSetWrite req acc data ring) s = execDataSetWrite req acc data ring s := rfl
@[simp] theorem exec_dataClrWrite (req : Requester) (acc : Access) (data : Dword) (ring : Ring) (s : State) :
    exec (.dataClrWrite req acc data ring) s = execDataClrWrite req acc data ring s := rfl
@[simp] theorem exec_dataTglWrite (req : Requester) (acc : Access) (data : Dword) (ring : Ring) (s : State) :
    exec (.dataTglWrite req acc data ring) s = execDataTglWrite req acc data ring s := rfl
@[simp] theorem exec_statusReadClear (req : Requester) (acc : Access) (s : State) :
    exec (.statusReadClear req acc) s = execStatusReadClear req acc s := rfl
@[simp] theorem exec_pairLoRead (req : Requester) (acc : Access) (s : State) :
    exec (.pairLoRead req acc) s = execPairLoRead req acc s := rfl
@[simp] theorem exec_pairHiRead (req : Requester) (acc : Access) (s : State) :
    exec (.pairHiRead req acc) s = execPairHiRead req acc s := rfl
@[simp] theorem exec_pairLoWrite (req : Requester) (addr : BitVec 22) (data : Word) (s : State) :
    exec (.pairLoWrite req addr data) s = execPairLoWrite req addr data s := rfl
@[simp] theorem exec_pairHiWrite (req : Requester) (addr : BitVec 22) (data : Word) (s : State) :
    exec (.pairHiWrite req addr data) s = execPairHiWrite req addr data s := rfl
@[simp] theorem exec_pair64Write (req : Requester) (addr : BitVec 22) (data : Dword) (s : State) :
    exec (.pair64Write req addr data) s = execPair64Write req addr data s := rfl
@[simp] theorem exec_lumpSend (skip : Fin 32) (src : BitVec 12) (pclass : Bool) (index : Option Nat) (len : Fin 9) (body : LumpBody) (s : State) :
    exec (.lumpSend skip src pclass index len body) s = execLumpSend skip src pclass index len body s := rfl
@[simp] theorem exec_bulkStallRetry (skip : Fin 32) (src : BitVec 12) (s : State) :
    exec (.bulkStallRetry skip src) s = execBulkStallRetry skip src s := rfl
@[simp] theorem exec_lumpReceive (skip : Fin 32) (s : State) : exec (.lumpReceive skip) s = execLumpReceive skip s := rfl
@[simp] theorem exec_creditReturn (skip : Fin 32) (s : State) : exec (.creditReturn skip) s = execCreditReturn skip s := rfl
@[simp] theorem exec_tcxoGate (diff : BitVec 16) (s : State) : exec (.tcxoGate diff) s = execTcxoGate diff s := rfl
@[simp] theorem exec_tcxoALost (s : State) : exec (.tcxoALost) s = execTcxoALost s := rfl
@[simp] theorem exec_tcxoBLost (s : State) : exec (.tcxoBLost) s = execTcxoBLost s := rfl
@[simp] theorem exec_clkSnapshot (req : Requester) (data : Word) (s : State) :
    exec (.clkSnapshot req data) s = execClkSnapshot req data s := rfl
@[simp] theorem exec_angleConversion (req : Requester) (data : Dword) (s : State) :
    exec (.angleConversion req data) s = execAngleConversion req data s := rfl
@[simp] theorem exec_timemark (s : State) : exec (.timemark) s = execTimemark s := rfl
@[simp] theorem exec_angFreewheel (n : Fin 4) (c : AngCause) (s : State) : exec (.angFreewheel n c) s = execAngFreewheel n c s := rfl
@[simp] theorem exec_angQualifyFail (n : Fin 4) (s : State) : exec (.angQualifyFail n) s = execAngQualifyFail n s := rfl
@[simp] theorem exec_angQualified (n : Fin 4) (freq : Word) (s : State) : exec (.angQualified n freq) s = execAngQualified n freq s := rfl
@[simp] theorem exec_angLocked (n : Fin 4) (freq : Word) (phase : BitVec 16) (s : State) :
    exec (.angLocked n freq phase) s = execAngLocked n freq phase s := rfl
@[simp] theorem exec_rawBlockBoundary (c : Fin 16) (codes : List (BitVec 16)) (s : State) :
    exec (.rawBlockBoundary c codes) s = execRawBlockBoundary c codes s := rfl
@[simp] theorem exec_bgcUpdate (c : Fin 16) (ofs : List Int) (gain : List Int) (skew : List Int) (s : State) :
    exec (.bgcUpdate c ofs gain skew) s = execBgcUpdate c ofs gain skew s := rfl
@[simp] theorem exec_selfCalibrationStart (h : Option Half) (s : State) :
    exec (.selfCalibrationStart h) s = execSelfCalibrationStart h s := rfl
@[simp] theorem exec_selfCalibrationEnd (h : Option Half) (fail : BitVec 16) (s : State) :
    exec (.selfCalibrationEnd h fail) s = execSelfCalibrationEnd h fail s := rfl
@[simp] theorem exec_refinQualified (ratio : BitVec 16) (s : State) : exec (.refinQualified ratio) s = execRefinQualified ratio s := rfl
@[simp] theorem exec_refinQualifyTimeout (s : State) : exec (.refinQualifyTimeout) s = execRefinQualifyTimeout s := rfl
@[simp] theorem exec_refinRetry (s : State) : exec (.refinRetry) s = execRefinRetry s := rfl
@[simp] theorem exec_refinOutOfRange (s : State) : exec (.refinOutOfRange) s = execRefinOutOfRange s := rfl
@[simp] theorem exec_auxStart (s : State) : exec (.auxStart) s = execAuxStart s := rfl
@[simp] theorem exec_auxSlotDone (conv : List (BitVec 16)) (s : State) : exec (.auxSlotDone conv) s = execAuxSlotDone conv s := rfl
@[simp] theorem exec_auxGapEnd (s : State) : exec (.auxGapEnd) s = execAuxGapEnd s := rfl
@[simp] theorem exec_auxRefSettled (s : State) : exec (.auxRefSettled) s = execAuxRefSettled s := rfl
@[simp] theorem exec_auxRefTimeout (s : State) : exec (.auxRefTimeout) s = execAuxRefTimeout s := rfl
@[simp] theorem exec_auxUrgentRequest (req : Requester) (data : Word) (s : State) :
    exec (.auxUrgentRequest req data) s = execAuxUrgentRequest req data s := rfl
@[simp] theorem exec_auxUrgentDone (conv : List (BitVec 16)) (s : State) : exec (.auxUrgentDone conv) s = execAuxUrgentDone conv s := rfl
@[simp] theorem exec_decimatedSample (c : Fin 16) (s : State) : exec (.decimatedSample c) s = execDecimatedSample c s := rfl
@[simp] theorem exec_angleTapSample (c : Fin 16) (s : State) : exec (.angleTapSample c) s = execAngleTapSample c s := rfl
@[simp] theorem exec_fixedRateInstant (s : State) : exec (.fixedRateInstant) s = execFixedRateInstant s := rfl
@[simp] theorem exec_fltLumpSend (h : Half) (clock : Option (Fin 4)) (s : State) :
    exec (.fltLumpSend h clock) s = execFltLumpSend h clock s := rfl
@[simp] theorem exec_fltCoefCommit (req : Requester) (data : Word) (s : State) :
    exec (.fltCoefCommit req data) s = execFltCoefCommit req data s := rfl
@[simp] theorem exec_fltSwapRequest (req : Requester) (c : Fin 16) (data : Word) (s : State) :
    exec (.fltSwapRequest req c data) s = execFltSwapRequest req c data s := rfl
@[simp] theorem exec_fadeEnd (c : Fin 16) (s : State) : exec (.fadeEnd c) s = execFadeEnd c s := rfl
@[simp] theorem exec_fltResetCommand (req : Requester) (data : Word) (s : State) :
    exec (.fltResetCommand req data) s = execFltResetCommand req data s := rfl
@[simp] theorem exec_synchronisingReset (c : Fin 16) (s : State) : exec (.synchronisingReset c) s = execSynchronisingReset c s := rfl
@[simp] theorem exec_fastSettleEnd (c : Fin 16) (s : State) : exec (.fastSettleEnd c) s = execFastSettleEnd c s := rfl
@[simp] theorem exec_svFrameReceive (portB : Bool) (s : State) : exec (.svFrameReceive portB) s = execSvFrameReceive portB s := rfl
@[simp] theorem exec_svSampleMissing (i : Fin 128) (s : State) : exec (.svSampleMissing i) s = execSvSampleMissing i s := rfl
@[simp] theorem exec_svLumpSend (i : Fin 128) (s : State) : exec (.svLumpSend i) s = execSvLumpSend i s := rfl
@[simp] theorem exec_sviSubscriptionCommit (req : Requester) (i : Fin 128) (data : Word) (s : State) :
    exec (.sviSubscriptionCommit req i data) s = execSviSubscriptionCommit req i data s := rfl
@[simp] theorem exec_svidOctetWrite (req : Requester) (data : Word) (s : State) :
    exec (.svidOctetWrite req data) s = execSvidOctetWrite req data s := rfl
@[simp] theorem exec_faceStep (g : Fin 256) (cycles : Word) (req : List (Fin 64 × Bool × Fin 4 × BitVec 48)) (s : State) :
    exec (.faceStep g cycles req) s = execFaceStep g cycles req s := rfl
@[simp] theorem exec_faceStepDeadline (g : Fin 256) (cycles : Word) (req : List (Fin 64 × Bool × Fin 4 × BitVec 48)) (s : State) :
    exec (.faceStepDeadline g cycles req) s = execFaceStepDeadline g cycles req s := rfl
@[simp] theorem exec_faceHalt (g : Fin 256) (s : State) : exec (.faceHalt g) s = execFaceHalt g s := rfl
@[simp] theorem exec_duplexRestart (g : Fin 256) (s : State) : exec (.duplexRestart g) s = execDuplexRestart g s := rfl
@[simp] theorem exec_groupSwitchRequest (g : Fin 8) (selector : Bool) (s : State) :
    exec (.groupSwitchRequest g selector) s = execGroupSwitchRequest g selector s := rfl
@[simp] theorem exec_groupSwitchComplete (s : State) : exec (.groupSwitchComplete) s = execGroupSwitchComplete s := rfl
@[simp] theorem exec_pointLatch (req : Requester) (data : Dword) (s : State) :
    exec (.pointLatch req data) s = execPointLatch req data s := rfl
@[simp] theorem exec_cellDelayExpiry (g : Fin 256) (cycles : Word) (req : List (Fin 64 × Bool × Fin 4 × BitVec 48)) (s : State) :
    exec (.cellDelayExpiry g cycles req) s = execCellDelayExpiry g cycles req s := rfl
@[simp] theorem exec_energyBooking (node : BitVec 20) (s : State) : exec (.energyBooking node) s = execEnergyBooking node s := rfl
@[simp] theorem exec_balanceIntervalClose (node : BitVec 20) (s : State) :
    exec (.balanceIntervalClose node) s = execBalanceIntervalClose node s := rfl
@[simp] theorem exec_balanceReportDelivery (s : State) : exec (.balanceReportDelivery) s = execBalanceReportDelivery s := rfl
@[simp] theorem exec_balanceJudge (node : BitVec 20) (s : State) : exec (.balanceJudge node) s = execBalanceJudge node s := rfl
@[simp] theorem exec_twEventClose (g : Fin 4) (s : State) : exec (.twEventClose g) s = execTwEventClose g s := rfl
@[simp] theorem exec_farArrivalSubmit (req : Requester) (data : Word) (s : State) :
    exec (.farArrivalSubmit req data) s = execFarArrivalSubmit req data s := rfl
@[simp] theorem exec_farArrivalExpire (g : Fin 4) (s : State) : exec (.farArrivalExpire g) s = execFarArrivalExpire g s := rfl
@[simp] theorem exec_twuGroupCommit (req : Requester) (g : Fin 4) (data : Word) (s : State) :
    exec (.twuGroupCommit req g data) s = execTwuGroupCommit req g data s := rfl
@[simp] theorem exec_downlinkFrame (n : Fin 4) (s : State) : exec (.downlinkFrame n) s = execDownlinkFrame n s := rfl
@[simp] theorem exec_downlinkReceive (n : Fin 4) (err : BitVec 80) (s : State) :
    exec (.downlinkReceive n err) s = execDownlinkReceive n err s := rfl
@[simp] theorem exec_cmdCfg (n : Fin 4) (s : State) : exec (.cmdCfg n) s = execCmdCfg n s := rfl
@[simp] theorem exec_cmdInterrogate (n : Fin 4) (s : State) : exec (.cmdInterrogate n) s = execCmdInterrogate n s := rfl
@[simp] theorem exec_cmdClear (n : Fin 4) (s : State) : exec (.cmdClear n) s = execCmdClear n s := rfl
@[simp] theorem exec_timedTransition (n : Fin 4) (s : State) : exec (.timedTransition n) s = execTimedTransition n s := rfl
@[simp] theorem exec_uplinkReceive (n : Fin 4) (err : BitVec 80) (s : State) :
    exec (.uplinkReceive n err) s = execUplinkReceive n err s := rfl
@[simp] theorem exec_fieldSideHold (n : Fin 4) (s : State) : exec (.fieldSideHold n) s = execFieldSideHold n s := rfl
@[simp] theorem exec_bankSilent (n : Fin 4) (s : State) : exec (.bankSilent n) s = execBankSilent n s := rfl
@[simp] theorem exec_inputFilterChange (n : Fin 4) (p : Fin 16) (s : State) :
    exec (.inputFilterChange n p) s = execInputFilterChange n p s := rfl
@[simp] theorem exec_currentLimitLatch (n : Fin 4) (p : Fin 16) (s : State) :
    exec (.currentLimitLatch n p) s = execCurrentLimitLatch n p s := rfl
@[simp] theorem exec_limitEnergyReset (n : Fin 4) (p : Fin 16) (s : State) :
    exec (.limitEnergyReset n p) s = execLimitEnergyReset n p s := rfl
@[simp] theorem exec_outputRetry (n : Fin 4) (p : Fin 16) (s : State) : exec (.outputRetry n p) s = execOutputRetry n p s := rfl
@[simp] theorem exec_eventCountReset (n : Fin 4) (p : Fin 16) (s : State) : exec (.eventCountReset n p) s = execEventCountReset n p s := rfl
@[simp] theorem exec_readbackMismatch (n : Fin 4) (p : Fin 16) (s : State) :
    exec (.readbackMismatch n p) s = execReadbackMismatch n p s := rfl
@[simp] theorem exec_interrogationRequest (req : Requester) (data : Word) (s : State) :
    exec (.interrogationRequest req data) s = execInterrogationRequest req data s := rfl
@[simp] theorem exec_interrogationSweepDone (n : Fin 4) (vfld : Byte) (s : State) :
    exec (.interrogationSweepDone n vfld) s = execInterrogationSweepDone n vfld s := rfl
@[simp] theorem exec_fieldSupplyWarning (n : Fin 4) (below : Bool) (s : State) :
    exec (.fieldSupplyWarning n below) s = execFieldSupplyWarning n below s := rfl
@[simp] theorem exec_fieldInputFail (n : Fin 4) (below : Bool) (s : State) :
    exec (.fieldInputFail n below) s = execFieldInputFail n below s := rfl
@[simp] theorem exec_fieldUvOff (n : Fin 4) (s : State) : exec (.fieldUvOff n) s = execFieldUvOff n s := rfl
@[simp] theorem exec_uvOffRelease (n : Fin 4) (s : State) : exec (.uvOffRelease n) s = execUvOffRelease n s := rfl
@[simp] theorem exec_fieldSideReset (n : Fin 4) (s : State) : exec (.fieldSideReset n) s = execFieldSideReset n s := rfl
@[simp] theorem exec_fieldSideResetRelease (n : Fin 4) (s : State) :
    exec (.fieldSideResetRelease n) s = execFieldSideResetRelease n s := rfl
@[simp] theorem exec_fieldOvertemp (n : Fin 4) (on : Bool) (s : State) : exec (.fieldOvertemp n on) s = execFieldOvertemp n on s := rfl
@[simp] theorem exec_barrierStart (s : State) : exec (.barrierStart) s = execBarrierStart s := rfl
@[simp] theorem exec_canaryOperate (e : Fin 16) (s : State) : exec (.canaryOperate e) s = execCanaryOperate e s := rfl
@[simp] theorem exec_canaryHoldExpire (e : Fin 16) (s : State) : exec (.canaryHoldExpire e) s = execCanaryHoldExpire e s := rfl
@[simp] theorem exec_powTransitionFix (c : Fin 64) (s : State) : exec (.powTransitionFix c) s = execPowTransitionFix c s := rfl
@[simp] theorem exec_fioClearCommit (req : Requester) (data : Word) (s : State) :
    exec (.fioClearCommit req data) s = execFioClearCommit req data s := rfl
@[simp] theorem exec_rawCrossingPresent (h : Half) (n : BitVec 48) (s : State) :
    exec (.rawCrossingPresent h n) s = execRawCrossingPresent h n s := rfl
@[simp] theorem exec_sequencerTimerExpiry (q : Fin 8) (i : Fin 2) (s : State) :
    exec (.sequencerTimerExpiry q i) s = execSequencerTimerExpiry q i s := rfl
@[simp] theorem exec_sequencerRun (req : Requester) (q : Fin 8) (data : Word) (s : State) :
    exec (.sequencerRun req q data) s = execSequencerRun req q data s := rfl
@[simp] theorem exec_sequencerRestart (req : Requester) (q : Fin 8) (data : Word) (s : State) :
    exec (.sequencerRestart req q data) s = execSequencerRestart req q data s := rfl
@[simp] theorem exec_segmentCaptureEnd (a : Fin 8) (full : Bool) (s : State) :
    exec (.segmentCaptureEnd a full) s = execSegmentCaptureEnd a full s := rfl
@[simp] theorem exec_asyRidxWrite (req : Requester) (a : Fin 8) (data : Word) (s : State) :
    exec (.asyRidxWrite req a data) s = execAsyRidxWrite req a data s := rfl
@[simp] theorem exec_areaRestart (req : Requester) (a : Fin 8) (data : Word) (s : State) :
    exec (.areaRestart req a data) s = execAreaRestart req a data s := rfl
@[simp] theorem exec_areaCommit (req : Requester) (a : Fin 8) (data : Word) (s : State) :
    exec (.areaCommit req a data) s = execAreaCommit req a data s := rfl
@[simp] theorem exec_seqItemCommit (req : Requester) (data : Word) (s : State) :
    exec (.seqItemCommit req data) s = execSeqItemCommit req data s := rfl
@[simp] theorem exec_maskTestCommit (req : Requester) (m : Fin 8) (data : Word) (s : State) :
    exec (.maskTestCommit req m data) s = execMaskTestCommit req m data s := rfl
@[simp] theorem exec_envelopeLimitCommit (req : Requester) (data : Word) (s : State) :
    exec (.envelopeLimitCommit req data) s = execEnvelopeLimitCommit req data s := rfl
@[simp] theorem exec_trendIntervalEnd (full : Bool) (s : State) : exec (.trendIntervalEnd full) s = execTrendIntervalEnd full s := rfl
@[simp] theorem exec_trendChannelCommit (req : Requester) (n : Fin 32) (data : Word) (s : State) :
    exec (.trendChannelCommit req n data) s = execTrendChannelCommit req n data s := rfl
@[simp] theorem exec_headPps (s : State) : exec (.headPps) s = execHeadPps s := rfl
@[simp] theorem exec_ppsEdgeReceive (drift : BitVec 32) (s : State) : exec (.ppsEdgeReceive drift) s = execPpsEdgeReceive drift s := rfl
@[simp] theorem exec_probeSend (s : State) : exec (.probeSend) s = execProbeSend s := rfl
@[simp] theorem exec_probeReceive (f : BitVec 80) (s : State) : exec (.probeReceive f) s = execProbeReceive f s := rfl
@[simp] theorem exec_echoReceive (f : BitVec 80) (rt : BitVec 32) (s : State) : exec (.echoReceive f rt) s = execEchoReceive f rt s := rfl
@[simp] theorem exec_adminReceive (f : BitVec 80) (s : State) : exec (.adminReceive f) s = execAdminReceive f s := rfl
@[simp] theorem exec_linkDown (s : State) : exec (.linkDown) s = execLinkDown s := rfl
@[simp] theorem exec_triggerFrameReceive (portD : Bool) (f : BitVec 80) (s : State) :
    exec (.triggerFrameReceive portD f) s = execTriggerFrameReceive portD f s := rfl
@[simp] theorem exec_recordArrival (s : State) : exec (.recordArrival) s = execRecordArrival s := rfl
@[simp] theorem exec_recordRelease (s : State) : exec (.recordRelease) s = execRecordRelease s := rfl
@[simp] theorem exec_channelFreeze (req : Requester) (c : Fin 8) (data : Word) (s : State) :
    exec (.channelFreeze req c data) s = execChannelFreeze req c data s := rfl
@[simp] theorem exec_channelUnfreeze (req : Requester) (c : Fin 8) (data : Word) (s : State) :
    exec (.channelUnfreeze req c data) s = execChannelUnfreeze req c data s := rfl
@[simp] theorem exec_strig (req : Requester) (c : Fin 8) (data : Word) (s : State) :
    exec (.strig req c data) s = execStrig req c data s := rfl
@[simp] theorem exec_nearStoreFail (scrub : Bool) (addr : BitVec 64) (s : State) :
    exec (.nearStoreFail scrub addr) s = execNearStoreFail scrub addr s := rfl
@[simp] theorem exec_farStoreFail (timeout : Bool) (addr : BitVec 64) (s : State) :
    exec (.farStoreFail timeout addr) s = execFarStoreFail timeout addr s := rfl
@[simp] theorem exec_nearStoreOpen (s : State) : exec (.nearStoreOpen) s = execNearStoreOpen s := rfl
@[simp] theorem exec_farStoreReady (s : State) : exec (.farStoreReady) s = execFarStoreReady s := rfl
@[simp] theorem exec_farPageProgram (c : Fin 8) (s : State) : exec (.farPageProgram c) s = execFarPageProgram c s := rfl
@[simp] theorem exec_opsecStore (s : State) : exec (.opsecStore) s = execOpsecStore s := rfl
@[simp] theorem exec_tallyChannelCommit (req : Requester) (c : Fin 8) (data : Word) (s : State) :
    exec (.tallyChannelCommit req c data) s = execTallyChannelCommit req c data s := rfl
@[simp] theorem exec_snapshotListCommit (req : Requester) (c : Fin 8) (i : Fin 16) (data : Word) (s : State) :
    exec (.snapshotListCommit req c i data) s = execSnapshotListCommit req c i data s := rfl
@[simp] theorem exec_frameReceive (p : Fin 4) (f : NetFrame) (s : State) : exec (.frameReceive p f) s = execFrameReceive p f s := rfl
@[simp] theorem exec_portLinkLoss (p : Fin 4) (s : State) : exec (.portLinkLoss p) s = execPortLinkLoss p s := rfl
@[simp] theorem exec_portLinkUp (p : Fin 4) (s : State) : exec (.portLinkUp p) s = execPortLinkUp p s := rfl
@[simp] theorem exec_ptpSyncReceive (p : Fin 4) (domain : Byte) (seq : BitVec 16) (mac : BitVec 68) (corr : BitVec 64) (origin : Option (BitVec 64)) (s : State) :
    exec (.ptpSyncReceive p domain seq mac corr origin) s = execPtpSyncReceive p domain seq mac corr origin s := rfl
@[simp] theorem exec_ptpFollowUpReceive (p : Fin 4) (domain : Byte) (seq : BitVec 16) (origin : BitVec 64) (corr : BitVec 64) (s : State) :
    exec (.ptpFollowUpReceive p domain seq origin corr) s = execPtpFollowUpReceive p domain seq origin corr s := rfl
@[simp] theorem exec_announceReceive (p : Fin 4) (a : Announce) (s : State) :
    exec (.announceReceive p a) s = execAnnounceReceive p a s := rfl
@[simp] theorem exec_announceTimeout (p : Fin 4) (s : State) : exec (.announceTimeout p) s = execAnnounceTimeout p s := rfl
@[simp] theorem exec_syncTimeout (s : State) : exec (.syncTimeout) s = execSyncTimeout s := rfl
@[simp] theorem exec_pdelayReqReceive (p : Fin 4) (domain : Byte) (seq : BitVec 16) (rx : BitVec 68) (tx : BitVec 68) (s : State) :
    exec (.pdelayReqReceive p domain seq rx tx) s = execPdelayReqReceive p domain seq rx tx s := rfl
@[simp] theorem exec_launchDoorbell (req : Requester) (i : Fin 256) (data : Word) (descs : List LqDesc) (s : State) :
    exec (.launchDoorbell req i data descs) s = execLaunchDoorbell req i data descs s := rfl
@[simp] theorem exec_frameLaunch (p : Fin 4) (s : State) : exec (.frameLaunch p) s = execFrameLaunch p s := rfl
@[simp] theorem exec_frameTransmitDone (p : Fin 4) (stamp : BitVec 68) (s : State) :
    exec (.frameTransmitDone p stamp) s = execFrameTransmitDone p stamp s := rfl
@[simp] theorem exec_hostFrameReadDone (p : Fin 4) (q : Fin 64) (desc : Option LqDesc) (s : State) :
    exec (.hostFrameReadDone p q desc) s = execHostFrameReadDone p q desc s := rfl
@[simp] theorem exec_hostReadFault (p : Fin 4) (q : Fin 64) (frame : Bool) (s : State) :
    exec (.hostReadFault p q frame) s = execHostReadFault p q frame s := rfl
@[simp] theorem exec_hostFrameLate (p : Fin 4) (q : Fin 64) (s : State) : exec (.hostFrameLate p q) s = execHostFrameLate p q s := rfl
@[simp] theorem exec_launchQueueCommit (req : Requester) (data : Word) (s : State) :
    exec (.launchQueueCommit req data) s = execLaunchQueueCommit req data s := rfl
@[simp] theorem exec_endpointReset (k : EpReset) (s : State) : exec (.endpointReset k) s = execEndpointReset k s := rfl
@[simp] theorem exec_pcieLinkTrained (speed : Fin 3) (x2 : Bool) (s : State) :
    exec (.pcieLinkTrained speed x2) s = execPcieLinkTrained speed x2 s := rfl
@[simp] theorem exec_bar2Read (offset : BitVec 26) (len : Fin 513) (s : State) :
    exec (.bar2Read offset len) s = execBar2Read offset len s := rfl
@[simp] theorem exec_bar2Write (s : State) : exec (.bar2Write) s = execBar2Write s := rfl
@[simp] theorem exec_msixMessage (v : Fin 64) (s : State) : exec (.msixMessage v) s = execMsixMessage v s := rfl
@[simp] theorem exec_moverCommit (req : Requester) (m : Fin 8) (data : Word) (s : State) :
    exec (.moverCommit req m data) s = execMoverCommit req m data s := rfl
@[simp] theorem exec_moverDoorbell (req : Requester) (m : Fin 8) (data : Word) (s : State) :
    exec (.moverDoorbell req m data) s = execMoverDoorbell req m data s := rfl
@[simp] theorem exec_descriptorReadDone (m : Fin 8) (x : MvDesc) (s : State) :
    exec (.descriptorReadDone m x) s = execDescriptorReadDone m x s := rfl
@[simp] theorem exec_moverError (m : Fin 8) (s : State) : exec (.moverError m) s = execMoverError m s := rfl
@[simp] theorem exec_bufferComplete (m : Fin 8) (s : State) : exec (.bufferComplete m) s = execBufferComplete m s := rfl
@[simp] theorem exec_bufferTimeout (m : Fin 8) (items : BitVec 19) (s : State) :
    exec (.bufferTimeout m items) s = execBufferTimeout m items s := rfl
@[simp] theorem exec_blockQueueDoorbell (req : Requester) (m : Fin 8) (data : Word) (blocks : List Block) (s : State) :
    exec (.blockQueueDoorbell req m data blocks) s = execBlockQueueDoorbell req m data blocks s := rfl
@[simp] theorem exec_submission (req : Requester) (data : Word) (s : State) :
    exec (.submission req data) s = execSubmission req data s := rfl
@[simp] theorem exec_validationComplete (s : State) : exec (.validationComplete) s = execValidationComplete s := rfl
@[simp] theorem exec_settingsCommit (s : State) : exec (.settingsCommit) s = execSettingsCommit s := rfl
@[simp] theorem exec_restep (s : State) : exec (.restep) s = execRestep s := rfl
@[simp] theorem exec_calSet (s : State) : exec (.calSet) s = execCalSet s := rfl
@[simp] theorem exec_testout (s : State) : exec (.testout) s = execTestout s := rfl
@[simp] theorem exec_tlockClear (s : State) : exec (.tlockClear) s = execTlockClear s := rfl
@[simp] theorem exec_loglossClear (s : State) : exec (.loglossClear) s = execLoglossClear s := rfl
@[simp] theorem exec_keyEnrol (s : State) : exec (.keyEnrol) s = execKeyEnrol s := rfl
@[simp] theorem exec_keyRevoke (s : State) : exec (.keyRevoke) s = execKeyRevoke s := rfl
@[simp] theorem exec_rollbackRaise (s : State) : exec (.rollbackRaise) s = execRollbackRaise s := rfl
@[simp] theorem exec_imagePref (s : State) : exec (.imagePref) s = execImagePref s := rfl
@[simp] theorem exec_reqCommission (s : State) : exec (.reqCommission) s = execReqCommission s := rfl
@[simp] theorem exec_reqProtect (s : State) : exec (.reqProtect) s = execReqProtect s := rfl
@[simp] theorem exec_reqResume (s : State) : exec (.reqResume) s = execReqResume s := rfl
@[simp] theorem exec_reqSafe (s : State) : exec (.reqSafe) s = execReqSafe s := rfl
@[simp] theorem exec_reqRestart (s : State) : exec (.reqRestart) s = execReqRestart s := rfl
@[simp] theorem exec_startmode (s : State) : exec (.startmode) s = execStartmode s := rfl
@[simp] theorem exec_sageCompare (errC : Word) (errN : Word) (errS : Word) (s : State) :
    exec (.sageCompare errC errN errS) s = execSageCompare errC errN errS s := rfl
@[simp] theorem exec_tamperOpening (elapsed : BitVec 48) (s : State) : exec (.tamperOpening elapsed) s = execTamperOpening elapsed s := rfl
@[simp] theorem exec_supplyValid (elapsed : BitVec 48) (s : State) : exec (.supplyValid elapsed) s = execSupplyValid elapsed s := rfl
@[simp] theorem exec_headframeRomStart (straps : BitVec 3) (s : State) :
    exec (.headframeRomStart straps) s = execHeadframeRomStart straps s := rfl
@[simp] theorem exec_bootDone (s : State) : exec (.bootDone) s = execBootDone s := rfl
@[simp] theorem exec_imageAuthenticated (s : State) : exec (.imageAuthenticated) s = execImageAuthenticated s := rfl
@[simp] theorem exec_loadDone (s : State) : exec (.loadDone) s = execLoadDone s := rfl
@[simp] theorem exec_supplyLost (high : Bool) (low : Bool) (s : State) : exec (.supplyLost high low) s = execSupplyLost high low s := rfl
@[simp] theorem exec_holdEntry (s : State) : exec (.holdEntry) s = execHoldEntry s := rfl
@[simp] theorem exec_snapFail (s : State) : exec (.snapFail) s = execSnapFail s := rfl
@[simp] theorem exec_holdDone (s : State) : exec (.holdDone) s = execHoldDone s := rfl
@[simp] theorem exec_holdupExhausted (s : State) : exec (.holdupExhausted) s = execHoldupExhausted s := rfl
@[simp] theorem exec_holdupCapMeasure (cap : BitVec 16) (s : State) : exec (.holdupCapMeasure cap) s = execHoldupCapMeasure cap s := rfl
@[simp] theorem exec_holdupCharged (s : State) : exec (.holdupCharged) s = execHoldupCharged s := rfl
@[simp] theorem exec_kaLow (low : Bool) (s : State) : exec (.kaLow low) s = execKaLow low s := rfl
@[simp] theorem exec_thymeStop (s : State) : exec (.thymeStop) s = execThymeStop s := rfl
@[simp] theorem exec_halfLost (h : Half) (s : State) : exec (.halfLost h) s = execHalfLost h s := rfl
@[simp] theorem exec_halfRestart (h : Half) (s : State) : exec (.halfRestart h) s = execHalfRestart h s := rfl
@[simp] theorem exec_halfReadmit (h : Half) (s : State) : exec (.halfReadmit h) s = execHalfReadmit h s := rfl
@[simp] theorem exec_scrubPassEnd (r : Fin 8) (words : List BadWord) (s : State) :
    exec (.scrubPassEnd r words) s = execScrubPassEnd r words s := rfl
@[simp] theorem exec_scrubLate (r : Fin 8) (s : State) : exec (.scrubLate r) s = execScrubLate r s := rfl
@[simp] theorem exec_nandRefresh (slot : Option (Fin 2)) (addr : BitVec 32) (corr : Byte) (pe : BitVec 16) (rate : BitVec 16) (s : State) :
    exec (.nandRefresh slot addr corr pe rate) s = execNandRefresh slot addr corr pe rate s := rfl
@[simp] theorem exec_headframeFault (poison : Bool) (pc : Dword) (s : State) :
    exec (.headframeFault poison pc) s = execHeadframeFault poison pc s := rfl
@[simp] theorem exec_headframeWatchdogExpiry (pc : Dword) (s : State) :
    exec (.headframeWatchdogExpiry pc) s = execHeadframeWatchdogExpiry pc s := rfl
@[simp] theorem exec_headframeRestart (s : State) : exec (.headframeRestart) s = execHeadframeRestart s := rfl
@[simp] theorem exec_temp (s : State) : exec (.temp) s = execTemp s := rfl
@[simp] theorem exec_registerRead (req : Requester) (acc : Access) (s : State) :
    exec (.registerRead req acc) s = execRegisterRead req acc s := rfl
@[simp] theorem exec_uplinkFrame (n : Fin 4) (pins : List (Int × Int)) (s : State) :
    exec (.uplinkFrame n pins) s = execUplinkFrame n pins s := rfl
@[simp] theorem exec_currentLimitEntry (n : Fin 4) (p : Fin 16) (s : State) :
    exec (.currentLimitEntry n p) s = execCurrentLimitEntry n p s := rfl
@[simp] theorem exec_currentLimitExit (n : Fin 4) (p : Fin 16) (s : State) :
    exec (.currentLimitExit n p) s = execCurrentLimitExit n p s := rfl
@[simp] theorem exec_sequencerTick (s : State) : exec (.sequencerTick) s = execSequencerTick s := rfl
@[simp] theorem exec_configurationWrite (msixEn : Bool) (fmask : Bool) (d3 : Bool) (s : State) :
    exec (.configurationWrite msixEn fmask d3) s = execConfigurationWrite msixEn fmask d3 s := rfl
@[simp] theorem exec_perstDeassertion (s : State) : exec (.perstDeassertion) s = execPerstDeassertion s := rfl
@[simp] theorem exec_sagePassStart (s : State) : exec (.sagePassStart) s = execSagePassStart s := rfl
@[simp] theorem exec_holdFaultEnd (s : State) : exec (.holdFaultEnd) s = execHoldFaultEnd s := rfl
@[simp] theorem exec_ppsOutRise (s : State) : exec (.ppsOutRise) s = execPpsOutRise s := rfl
@[simp] theorem exec_ppsOutFall (s : State) : exec (.ppsOutFall) s = execPpsOutFall s := rfl
@[simp] theorem exec_pdelayReqSend (p : Fin 4) (tx : BitVec 68) (s : State) : exec (.pdelayReqSend p tx) s = execPdelayReqSend p tx s := rfl
@[simp] theorem exec_pdelayRespReceive (p : Fin 4) (domain : Byte) (seq : BitVec 16) (rx : BitVec 68) (turnaround : BitVec 64) (s : State) :
    exec (.pdelayRespReceive p domain seq rx turnaround) s = execPdelayRespReceive p domain seq rx turnaround s := rfl

end Sys2Proof.Machine
end

