-- ==== Sys2Proof/Laws/Fields.lean ====
section
/-!
SUPPORT. The fields of one register stored one after another: each takes its own value, and everything else stays.
-/
namespace Sys2Proof.Machine

/-- Every row of the map: its fields are its own, lie in 64 bits and start at different bits; those of a status register lie in 32. -/
def Reg.rowOk (r : Reg) : Bool :=
  r.desc.flds.all (fun f => f.fld.reg == r && decide (f.fld.lo + f.fld.len ≤ 64)
    && decide (0 < f.fld.len) && (r.desc.cls == .pair || decide (f.fld.lo + f.fld.len ≤ 32))
    && (r.desc.cls != .control || decide (f.fld.lo + f.fld.len ≤ 16))) &&
  (r.desc.flds.map fun f => f.fld.lo).Nodup

theorem Reg.rowOk_all (r : Reg) : r.rowOk = true := by cases r <;> decide

theorem Reg.fld_reg {r : Reg} {f : FldDesc} (h : f ∈ r.desc.flds) : f.fld.reg = r := by
  have := r.rowOk_all
  simp only [Reg.rowOk, Bool.and_eq_true, List.all_eq_true] at this
  simpa using (this.1 f h).1.1.1.1

theorem Reg.fld_lo {r : Reg} {f : FldDesc} (h : f ∈ r.desc.flds) : f.fld.lo + f.fld.len ≤ 64 ∧ 0 < f.fld.len := by
  have := r.rowOk_all
  simp only [Reg.rowOk, Bool.and_eq_true, List.all_eq_true] at this
  have := this.1 f h
  simp only [decide_eq_true_eq] at this
  exact ⟨this.1.1.1.2, this.1.1.2⟩

theorem Reg.fld_word {r : Reg} {f : FldDesc} (hc : r.desc.cls ≠ .pair) (h : f ∈ r.desc.flds) : f.fld.lo + f.fld.len ≤ 32 := by
  have := r.rowOk_all
  simp only [Reg.rowOk, Bool.and_eq_true, List.all_eq_true] at this
  have := (this.1 f h).1.2
  simpa [hc] using this

theorem Reg.fld_half {r : Reg} {f : FldDesc} (hc : r.desc.cls = .control) (h : f ∈ r.desc.flds) : f.fld.lo + f.fld.len ≤ 16 := by
  have := r.rowOk_all
  simp only [Reg.rowOk, Bool.and_eq_true, List.all_eq_true] at this
  have := (this.1 f h).2
  simpa [hc] using this

theorem Reg.flds_nodup (r : Reg) : (r.desc.flds.map fun f => f.fld.lo).Nodup := by
  have := r.rowOk_all
  simp only [Reg.rowOk, Bool.and_eq_true, decide_eq_true_eq] at this
  exact this.2

/-- Fields stored in turn: those that `p` picks take the value that `v` finds for them. -/
def Dev.storeFlds (d : Dev) (l : List FldDesc) (i : Nat) (p : FldDesc → Bool) (v : FldDesc → Nat → Nat) : Dev :=
  l.foldl (fun d f => if p f then d.setF f.fld i (v f (d.getF f.fld i)) else d) d

theorem Dev.storeFlds_eq (d : Dev) (l : List FldDesc) (i : Nat) (p : FldDesc → Bool) (v : FldDesc → Nat → Nat) :
    d.storeFlds l i p v = { d with regs := (d.storeFlds l i p v).regs } := by
  induction l generalizing d with
  | nil => rfl
  | cons f l ih =>
    simp only [Dev.storeFlds, List.foldl_cons] at ih ⊢
    split
    · rw [ih]; rfl
    · exact ih d

theorem Dev.storeFlds_other (d : Dev) (l : List FldDesc) (i : Nat) (p : FldDesc → Bool) (v : FldDesc → Nat → Nat) (g : Fld) (j : Nat)
    (h : ∀ f ∈ l, p f = true → g.key j ≠ f.fld.key i) : (d.storeFlds l i p v).getF g j = d.getF g j := by
  induction l generalizing d with
  | nil => rfl
  | cons f l ih =>
    simp only [Dev.storeFlds, List.foldl_cons] at ih ⊢
    rw [ih _ fun f hf => h f (List.mem_cons_of_mem _ hf)]
    split
    · next hp => exact Dev.getF_setF_ne _ _ (h f List.mem_cons_self hp)
    · rfl

theorem Dev.storeFlds_at (d : Dev) (l : List FldDesc) (i : Nat) (p : FldDesc → Bool) (v : FldDesc → Nat → Nat) (f : FldDesc) (hf : f ∈ l)
    (hp : p f = true) (hn : (l.map fun f => f.fld.key i).Nodup) : (d.storeFlds l i p v).getF f.fld i = v f (d.getF f.fld i) % 2 ^ f.fld.len := by
  induction l generalizing d with
  | nil => cases hf
  | cons g l ih =>
    simp only [List.map_cons, List.nodup_cons, List.mem_map, not_exists, not_and] at hn
    simp only [Dev.storeFlds, List.foldl_cons] at ih ⊢
    rcases List.mem_cons.mp hf with e | e
    · subst e
      have := Dev.storeFlds_other (d.setF f.fld i (v f (d.getF f.fld i))) l i p v f.fld i fun x hx _ he => hn.1 x hx he.symm
      simp only [Dev.storeFlds] at this
      rw [if_pos hp, this, Dev.getF_setF_same]
    · rw [ih _ e hn.2]
      have hk : f.fld.key i ≠ g.fld.key i := hn.1 f e
      split
      · rw [Dev.getF_setF_ne _ _ hk]
      · rfl

/-- The fields of a register have different places. -/
theorem Reg.keys_nodup (r : Reg) (i : Nat) : (r.desc.flds.map fun f => f.fld.key i).Nodup := by
  have e : (r.desc.flds.map fun f => f.fld.key i) = (r.desc.flds.map fun f => f.fld.lo).map fun lo => r.ctorIdx + 512 * (lo + 64 * i) := by
    rw [List.map_map]
    refine List.map_congr_left fun f hf => ?_
    simp [Fld.key, Reg.fld_reg hf]
  rw [e]
  exact r.flds_nodup.map fun a b h => by omega

/-- A field of another register or index stays as it is. -/
theorem Dev.storeFlds_out (d : Dev) (r : Reg) (i : Nat) (p : FldDesc → Bool) (v : FldDesc → Nat → Nat) (g : Fld) (j : Nat) (hg : g.lo < 64)
    (h : ∀ f ∈ r.desc.flds, p f = true → g.reg ≠ r ∨ g.lo ≠ f.fld.lo ∨ j ≠ i) :
    (d.storeFlds r.desc.flds i p v).getF g j = d.getF g j := by
  refine Dev.storeFlds_other d _ i p v g j fun f hf hp e => ?_
  have hl := Reg.fld_lo hf
  have k := Fld.key_inj hg (by omega) e
  rw [Reg.fld_reg hf] at k
  have := h f hf hp
  tauto

/-- A field that is stored takes its value. -/
theorem Dev.storeFlds_in (d : Dev) (r : Reg) (i : Nat) (p : FldDesc → Bool) (v : FldDesc → Nat → Nat) (f : FldDesc) (hf : f ∈ r.desc.flds)
    (hp : p f = true) : (d.storeFlds r.desc.flds i p v).getF f.fld i = v f (d.getF f.fld i) % 2 ^ f.fld.len :=
  Dev.storeFlds_at d _ i p v f hf hp (r.keys_nodup i)

end Sys2Proof.Machine
end

