-- ==== Sys2Proof/Laws/Keeps.lean ====
section
/-!
SUPPORT. Three relations between a device before and after an operation, each stronger than the next, and their rules: what
most operations leave alone, what a change of mode leaves alone too, and what every step keeps.
-/
namespace Sys2Proof.Machine

/-- What stays the same: the time-stamp counter, record memory, both stores of Tally, the key slots, the anti-rollback rows
and the Canary table. -/
structure Dev.Stores (d e : Dev) : Prop where
  tsc : e.tsc = d.tsc
  recMem : e.recMem = d.recMem
  near : e.nv.near = d.nv.near
  far : e.nv.far = d.nv.far
  keys : e.nv.keys = d.nv.keys
  rows : e.nv.rows = d.nv.rows
  canary : e.nv.canary = d.nv.canary

/-- The same, and the mode stays, but that a cause of DEGRADED may take PROTECT there (R452). -/
structure Dev.Keeps (d e : Dev) : Prop where
  stores : Dev.Stores d e
  mode : e.mode = d.mode ∨ (d.mode = .protect ∧ e.mode = .degraded)

/-- The canonical form of the three memories. -/
structure Dev.MemOk (d : Dev) : Prop where
  recMem : Memory.wf d.recMem = true
  near : Memory.wf d.nv.near = true
  far : Memory.wf d.nv.far = true

/-- Whether a key slot's revocation fuse is blown (R430). -/
def Dev.revoked (d : Dev) (k : Nat) : Prop := ((SMap.get? d.nv.keys k).any fun x => x.revoked) = true

/-- What every step keeps: the memories' canonical form, each blown revocation fuse (R431), and the anti-rollback counter
does not fall (R432). -/
structure Dev.Sound (d e : Dev) : Prop where
  mem : d.MemOk → e.MemOk
  revoked : ∀ k, d.revoked k → e.revoked k
  rows : d.nv.rows.headD 0 ≤ e.nv.rows.headD 0

theorem Dev.Stores.refl (d : Dev) : Dev.Stores d d := ⟨rfl, rfl, rfl, rfl, rfl, rfl, rfl⟩

theorem Dev.Stores.after {d x y : Dev} (h : Dev.Stores x y) (g : Dev.Stores d x) : Dev.Stores d y :=
  ⟨h.tsc.trans g.tsc, h.recMem.trans g.recMem, h.near.trans g.near, h.far.trans g.far, h.keys.trans g.keys,
    h.rows.trans g.rows, h.canary.trans g.canary⟩

theorem Dev.Keeps.refl (d : Dev) : Dev.Keeps d d := ⟨.refl d, .inl rfl⟩

theorem Dev.Keeps.after {d x y : Dev} (h : Dev.Keeps x y) (g : Dev.Keeps d x) : Dev.Keeps d y := by
  refine ⟨h.stores.after g.stores, ?_⟩
  rcases h.mode with e | ⟨e, f⟩ <;> rcases g.mode with e' | ⟨e', f'⟩ <;> simp_all

theorem Dev.Sound.refl (d : Dev) : Dev.Sound d d := ⟨id, fun _ => id, le_refl _⟩

theorem Dev.Sound.after {d x y : Dev} (h : Dev.Sound x y) (g : Dev.Sound d x) : Dev.Sound d y :=
  ⟨fun m => h.mem (g.mem m), fun k r => h.revoked k (g.revoked k r), g.rows.trans h.rows⟩

theorem Dev.Stores.sound {d e : Dev} (h : Dev.Stores d e) : Dev.Sound d e := by
  refine ⟨fun m => ⟨?_, ?_, ?_⟩, fun k => ?_, ?_⟩
  · rw [h.recMem]; exact m.recMem
  · rw [h.near]; exact m.near
  · rw [h.far]; exact m.far
  · unfold Dev.revoked; rw [h.keys]; exact id
  · rw [h.rows]

theorem Dev.Stores.ite {d x y : Dev} {c : Prop} [Decidable c] (h : Dev.Stores d x) (g : Dev.Stores d y) : Dev.Stores d (if c then x else y) := by
  split
  · exact h
  · exact g

theorem Dev.Stores.fold {β : Type} {d : Dev} (g : Dev → β → Dev) (l : List β) (x : Dev) (hx : Dev.Stores d x) (h : ∀ d x, Dev.Stores d (g d x)) :
    Dev.Stores d (l.foldl g x) := by
  induction l generalizing x with
  | nil => exact hx
  | cons y l ih => exact ih _ ((h x y).after hx)

theorem Dev.Stores.foldp {β γ : Type} {d : Dev} (g : Dev × γ → β → Dev × γ) (l : List β) (x : Dev × γ) (hx : Dev.Stores d x.1)
    (h : ∀ a x, Dev.Stores a.1 (g a x).1) : Dev.Stores d (l.foldl g x).1 := by
  induction l generalizing x with
  | nil => exact hx
  | cons y l ih => exact ih _ ((h x y).after hx)

theorem Dev.Keeps.ite {d x y : Dev} {c : Prop} [Decidable c] (h : Dev.Keeps d x) (g : Dev.Keeps d y) : Dev.Keeps d (if c then x else y) := by
  split
  · exact h
  · exact g

theorem Dev.Keeps.fold {β : Type} {d : Dev} (g : Dev → β → Dev) (l : List β) (x : Dev) (hx : Dev.Keeps d x) (h : ∀ d x, Dev.Keeps d (g d x)) :
    Dev.Keeps d (l.foldl g x) := by
  induction l generalizing x with
  | nil => exact hx
  | cons y l ih => exact ih _ ((h x y).after hx)

theorem Dev.Keeps.foldp {β γ : Type} {d : Dev} (g : Dev × γ → β → Dev × γ) (l : List β) (x : Dev × γ) (hx : Dev.Keeps d x.1)
    (h : ∀ a x, Dev.Keeps a.1 (g a x).1) : Dev.Keeps d (l.foldl g x).1 := by
  induction l generalizing x with
  | nil => exact hx
  | cons y l ih => exact ih _ ((h x y).after hx)

theorem Dev.Sound.ite {d x y : Dev} {c : Prop} [Decidable c] (h : Dev.Sound d x) (g : Dev.Sound d y) : Dev.Sound d (if c then x else y) := by
  split
  · exact h
  · exact g

theorem Dev.Sound.fold {β : Type} {d : Dev} (g : Dev → β → Dev) (l : List β) (x : Dev) (hx : Dev.Sound d x) (h : ∀ d x, Dev.Sound d (g d x)) :
    Dev.Sound d (l.foldl g x) := by
  induction l generalizing x with
  | nil => exact hx
  | cons y l ih => exact ih _ ((h x y).after hx)

theorem Dev.Sound.foldp {β γ : Type} {d : Dev} (g : Dev × γ → β → Dev × γ) (l : List β) (x : Dev × γ) (hx : Dev.Sound d x.1)
    (h : ∀ a x, Dev.Sound a.1 (g a x).1) : Dev.Sound d (l.foldl g x).1 := by
  induction l generalizing x with
  | nil => exact hx
  | cons y l ih => exact ih _ ((h x y).after hx)

theorem Dev.Stores.mk_ {d x : Dev} {mode_ : Mode} {regs_ : SMap Nat} {holding_ : SMap Nat} {shadow_ : SMap Nat} {fresh_ : SMap Bool} {wrHold_ : SMap Nat} {wrFresh_ : SMap Bool} {completions_ : List Completion} {out_ : List Output} {free_ : Nat} {recOrder_ : Nat} {recq_ : SMap RecQ} {skips_ : SMap Skip} {vecLast_ : SMap Nat} {clk_ : Clk} {ang_ : SMap Ang} {afe_ : Afe} {afeCh_ : SMap AfeCh} {aux_ : Aux} {fltCh_ : SMap FltCh} {coef_ : SMap Int} {insts_ : SMap (List Inst)} {taps_ : SMap (List TapInst)} {fr_ : FrTap} {svi_ : SMap SvSub} {svPart_ : SMap Nat} {svIn_ : SMap (List (Nat × Option SvFrame))} {seam_ : Seam} {twu_ : Twu} {fio_ : Fio} {asy_ : Assay} {tlk_ : Tlk} {tly_ : Tally} {net_ : Net} {bad_ : SMap (List Nat)} {mov_ : SMap Mover} {pcie_ : Pcie} {field_ : SMap Field} {opsec0_ : Nat} {fareaCnt_ : SMap Nat} {hfr_ : Hfr} {sage_ : SageSt} {halves_ : SMap HalfSt} {lockQ_ : SMap (List Nat)} {lockSup_ : SMap Nat} {pps_ : Option Nat} {nv_ : Nv} (g : Dev.Stores d x) (h1 : nv_.near = x.nv.near) (h2 : nv_.far = x.nv.far) (h3 : nv_.keys = x.nv.keys) (h4 : nv_.rows = x.nv.rows) (h5 : nv_.canary = x.nv.canary) :
    Dev.Stores d (Dev.mk x.tsc mode_ regs_ holding_ shadow_ fresh_ wrHold_ wrFresh_ completions_ out_ free_ recOrder_ recq_ skips_ vecLast_ clk_ ang_ afe_ afeCh_ aux_ fltCh_ coef_ insts_ taps_ fr_ svi_ svPart_ svIn_ seam_ twu_ fio_ asy_ tlk_ tly_ net_ x.recMem bad_ mov_ pcie_ field_ opsec0_ fareaCnt_ hfr_ sage_ halves_ lockQ_ lockSup_ pps_ nv_) :=
  Dev.Stores.after (x := x) ⟨rfl, rfl, h1, h2, h3, h4, h5⟩ g

theorem Dev.Keeps.mk_ {d x : Dev} {regs_ : SMap Nat} {holding_ : SMap Nat} {shadow_ : SMap Nat} {fresh_ : SMap Bool} {wrHold_ : SMap Nat} {wrFresh_ : SMap Bool} {completions_ : List Completion} {out_ : List Output} {free_ : Nat} {recOrder_ : Nat} {recq_ : SMap RecQ} {skips_ : SMap Skip} {vecLast_ : SMap Nat} {clk_ : Clk} {ang_ : SMap Ang} {afe_ : Afe} {afeCh_ : SMap AfeCh} {aux_ : Aux} {fltCh_ : SMap FltCh} {coef_ : SMap Int} {insts_ : SMap (List Inst)} {taps_ : SMap (List TapInst)} {fr_ : FrTap} {svi_ : SMap SvSub} {svPart_ : SMap Nat} {svIn_ : SMap (List (Nat × Option SvFrame))} {seam_ : Seam} {twu_ : Twu} {fio_ : Fio} {asy_ : Assay} {tlk_ : Tlk} {tly_ : Tally} {net_ : Net} {bad_ : SMap (List Nat)} {mov_ : SMap Mover} {pcie_ : Pcie} {field_ : SMap Field} {opsec0_ : Nat} {fareaCnt_ : SMap Nat} {hfr_ : Hfr} {sage_ : SageSt} {halves_ : SMap HalfSt} {lockQ_ : SMap (List Nat)} {lockSup_ : SMap Nat} {pps_ : Option Nat} {nv_ : Nv} (g : Dev.Keeps d x) (h1 : nv_.near = x.nv.near) (h2 : nv_.far = x.nv.far) (h3 : nv_.keys = x.nv.keys) (h4 : nv_.rows = x.nv.rows) (h5 : nv_.canary = x.nv.canary) :
    Dev.Keeps d (Dev.mk x.tsc x.mode regs_ holding_ shadow_ fresh_ wrHold_ wrFresh_ completions_ out_ free_ recOrder_ recq_ skips_ vecLast_ clk_ ang_ afe_ afeCh_ aux_ fltCh_ coef_ insts_ taps_ fr_ svi_ svPart_ svIn_ seam_ twu_ fio_ asy_ tlk_ tly_ net_ x.recMem bad_ mov_ pcie_ field_ opsec0_ fareaCnt_ hfr_ sage_ halves_ lockQ_ lockSup_ pps_ nv_) :=
  Dev.Keeps.after (x := x) ⟨⟨rfl, rfl, h1, h2, h3, h4, h5⟩, .inl rfl⟩ g

theorem Dev.Sound.mk_ {d x : Dev} {tsc_ : Nat} {mode_ : Mode} {regs_ : SMap Nat} {holding_ : SMap Nat} {shadow_ : SMap Nat} {fresh_ : SMap Bool} {wrHold_ : SMap Nat} {wrFresh_ : SMap Bool} {completions_ : List Completion} {out_ : List Output} {free_ : Nat} {recOrder_ : Nat} {recq_ : SMap RecQ} {skips_ : SMap Skip} {vecLast_ : SMap Nat} {clk_ : Clk} {ang_ : SMap Ang} {afe_ : Afe} {afeCh_ : SMap AfeCh} {aux_ : Aux} {fltCh_ : SMap FltCh} {coef_ : SMap Int} {insts_ : SMap (List Inst)} {taps_ : SMap (List TapInst)} {fr_ : FrTap} {svi_ : SMap SvSub} {svPart_ : SMap Nat} {svIn_ : SMap (List (Nat × Option SvFrame))} {seam_ : Seam} {twu_ : Twu} {fio_ : Fio} {asy_ : Assay} {tlk_ : Tlk} {tly_ : Tally} {net_ : Net} {bad_ : SMap (List Nat)} {mov_ : SMap Mover} {pcie_ : Pcie} {field_ : SMap Field} {opsec0_ : Nat} {fareaCnt_ : SMap Nat} {hfr_ : Hfr} {sage_ : SageSt} {halves_ : SMap HalfSt} {lockQ_ : SMap (List Nat)} {lockSup_ : SMap Nat} {pps_ : Option Nat} {nv_ : Nv} (g : Dev.Sound d x) (h1 : nv_.near = x.nv.near) (h2 : nv_.far = x.nv.far) (h3 : nv_.keys = x.nv.keys) (h4 : nv_.rows = x.nv.rows) :
    Dev.Sound d (Dev.mk tsc_ mode_ regs_ holding_ shadow_ fresh_ wrHold_ wrFresh_ completions_ out_ free_ recOrder_ recq_ skips_ vecLast_ clk_ ang_ afe_ afeCh_ aux_ fltCh_ coef_ insts_ taps_ fr_ svi_ svPart_ svIn_ seam_ twu_ fio_ asy_ tlk_ tly_ net_ x.recMem bad_ mov_ pcie_ field_ opsec0_ fareaCnt_ hfr_ sage_ halves_ lockQ_ lockSup_ pps_ nv_) :=
  Dev.Sound.after (x := x) ⟨fun m => ⟨m.1, h1 ▸ m.2, h2 ▸ m.3⟩, fun _ r => by unfold Dev.revoked at *; rw [h3]; exact r, by rw [h4]⟩ g

theorem Dev.Keeps.sound {d e : Dev} (h : Dev.Keeps d e) : Dev.Sound d e := h.stores.sound

/-! New contents of a memory in canonical form. -/

theorem Dev.Sound.ofRecMem {d : Dev} {m : Memory} (h : Memory.wf d.recMem = true → Memory.wf m = true) : Dev.Sound d { d with recMem := m } :=
  ⟨fun x => ⟨h x.1, x.2, x.3⟩, fun _ r => r, le_refl _⟩

theorem Dev.Sound.ofNear {d : Dev} {m : Memory} (h : Memory.wf d.nv.near = true → Memory.wf m = true) :
    Dev.Sound d { d with nv := { d.nv with near := m } } :=
  ⟨fun x => ⟨x.1, h x.2, x.3⟩, fun _ r => r, le_refl _⟩

theorem Dev.Sound.ofFar {d : Dev} {m : Memory} (h : Memory.wf d.nv.far = true → Memory.wf m = true) :
    Dev.Sound d { d with nv := { d.nv with far := m } } :=
  ⟨fun x => ⟨x.1, x.2, h x.3⟩, fun _ r => r, le_refl _⟩

/-! Commands whose effect on the device is known carry it over to their outcome. -/

theorem State.run_keeps {s t : State} {f : Dev → Dev} (hf : ∀ d, Dev.Keeps d (f d)) (h : s.run f = .next t) : Dev.Keeps s.dev t.dev := by
  cases h
  exact hf _

theorem State.run_stores {s t : State} {f : Dev → Dev} (hf : ∀ d, Dev.Stores d (f d)) (h : s.run f = .next t) : Dev.Stores s.dev t.dev := by
  cases h
  exact hf _

theorem State.run_sound {s t : State} {f : Dev → Dev} (hf : ∀ d, Dev.Sound d (f d)) (h : s.run f = .next t) : Dev.Sound s.dev t.dev := by
  cases h
  exact hf _

theorem State.up_keeps {s t : State} {f : Dev → Dev} (hf : ∀ d, Dev.Keeps d (f d)) (h : s.up f = .next t) : Dev.Keeps s.dev t.dev :=
  State.run_keeps (fun d => .ite (.refl d) (hf d)) h

theorem State.up_stores {s t : State} {f : Dev → Dev} (hf : ∀ d, Dev.Stores d (f d)) (h : s.up f = .next t) : Dev.Stores s.dev t.dev :=
  State.run_stores (fun d => .ite (.refl d) (hf d)) h

theorem State.up_sound {s t : State} {f : Dev → Dev} (hf : ∀ d, Dev.Sound d (f d)) (h : s.up f = .next t) : Dev.Sound s.dev t.dev :=
  State.run_sound (fun d => .ite (.refl d) (hf d)) h

theorem State.upWf_keeps {s t : State} {ok : Bool} {f : Dev → Dev} (hf : ∀ d, Dev.Keeps d (f d)) (h : s.upWf ok f = .next t) :
    Dev.Keeps s.dev t.dev := by
  unfold State.upWf at h
  split at h
  · exact State.up_keeps hf h
  · cases h

theorem State.upWf_sound {s t : State} {ok : Bool} {f : Dev → Dev} (hf : ∀ d, Dev.Sound d (f d)) (h : s.upWf ok f = .next t) :
    Dev.Sound s.dev t.dev := by
  unfold State.upWf at h
  split at h
  · exact State.up_sound hf h
  · cases h

theorem State.access_keeps {s t : State} {req : Requester} {f : Dev → Dev} (hf : ∀ d, Dev.Keeps d (f d)) (h : s.access req f = .next t) :
    Dev.Keeps s.dev t.dev := State.up_keeps (fun d => .ite (hf d) (.refl d)) h

theorem State.access_sound {s t : State} {req : Requester} {f : Dev → Dev} (hf : ∀ d, Dev.Sound d (f d)) (h : s.access req f = .next t) :
    Dev.Sound s.dev t.dev := State.up_sound (fun d => .ite (hf d) (.refl d)) h

theorem State.accessWf_keeps {s t : State} {ok : Bool} {req : Requester} {f : Dev → Dev} (hf : ∀ d, Dev.Keeps d (f d))
    (h : s.accessWf ok req f = .next t) : Dev.Keeps s.dev t.dev := by
  unfold State.accessWf at h
  split at h
  · exact State.access_keeps hf h
  · cases h

theorem State.accessWf_sound {s t : State} {ok : Bool} {req : Requester} {f : Dev → Dev} (hf : ∀ d, Dev.Sound d (f d))
    (h : s.accessWf ok req f = .next t) : Dev.Sound s.dev t.dev := by
  unfold State.accessWf at h
  split at h
  · exact State.access_sound hf h
  · cases h

end Sys2Proof.Machine
end

