-- ==== Sys2Proof/Laws/KeepsOps.lean ====
section
/-! SUPPORT. What the operations of Machine/Ops.lean leave alone. -/
namespace Sys2Proof.Machine

theorem Dev.setF_keeps (d : Dev) (f : Fld) (i : Nat) (v : Nat) :
    Dev.Keeps d (Dev.setF d f i v) := by
  unfold Dev.setF
  repeat first | with_reducible exact Dev.Keeps.refl _ | fail_if_no_progress with_reducible refine Dev.Keeps.mk_ ?_ rfl rfl rfl rfl rfl

theorem Dev.setB_keeps (d : Dev) (f : Fld) (i : Nat) (b : Bool) :
    Dev.Keeps d (Dev.setB d f i b) := by
  unfold Dev.setB
  repeat first | with_reducible exact Dev.Keeps.refl _ | with_reducible refine (Dev.setF_keeps ..).after ?_

theorem Dev.addF_keeps (d : Dev) (f : Fld) (i : Nat) (n : Nat) :
    Dev.Keeps d (Dev.addF d f i n) := by
  unfold Dev.addF
  repeat first | with_reducible exact Dev.Keeps.refl _ | with_reducible refine (Dev.setF_keeps ..).after ?_

theorem Dev.incF_keeps (d : Dev) (f : Fld) (i : Nat) :
    Dev.Keeps d (Dev.incF d f i) := by
  unfold Dev.incF
  repeat first | with_reducible exact Dev.Keeps.refl _ | with_reducible refine (Dev.addF_keeps ..).after ?_

theorem Dev.incWrap_keeps (d : Dev) (f : Fld) (i : Nat) :
    Dev.Keeps d (Dev.incWrap d f i) := by
  unfold Dev.incWrap
  repeat first | with_reducible exact Dev.Keeps.refl _ | with_reducible refine (Dev.setF_keeps ..).after ?_

theorem Dev.setBit_keeps (d : Dev) (f : Fld) (i k : Nat) :
    Dev.Keeps d (Dev.setBit d f i k) := by
  unfold Dev.setBit
  repeat first | with_reducible exact Dev.Keeps.refl _ | with_reducible refine (Dev.setF_keeps ..).after ?_

theorem Dev.clrBit_keeps (d : Dev) (f : Fld) (i k : Nat) :
    Dev.Keeps d (Dev.clrBit d f i k) := by
  unfold Dev.clrBit
  repeat first | with_reducible exact Dev.Keeps.refl _ | with_reducible refine (Dev.setF_keeps ..).after ?_

theorem Dev.fire_keeps (d : Dev) (v : Nat) :
    Dev.Keeps d (Dev.fire d v) := by
  unfold Dev.fire
  repeat first | with_reducible exact Dev.Keeps.refl _ | with_reducible refine (Dev.setBit_keeps ..).after ?_

theorem Dev.trouble_keeps (d : Dev) (f : Fld) :
    Dev.Keeps d (Dev.trouble d f) := by
  unfold Dev.trouble
  repeat first
    | with_reducible exact Dev.Keeps.refl _ | with_reducible refine Dev.Keeps.ite ?_ ?_
    | with_reducible refine (Dev.setF_keeps ..).after ?_ | with_reducible refine (Dev.fire_keeps ..).after ?_

theorem Dev.flag_keeps (d : Dev) (f : Fld) (i k v : Nat) :
    Dev.Keeps d (Dev.flag d f i k v) := by
  unfold Dev.flag
  repeat first
    | with_reducible exact Dev.Keeps.refl _ | with_reducible refine Dev.Keeps.ite ?_ ?_
    | with_reducible refine (Dev.setBit_keeps ..).after ?_ | with_reducible refine (Dev.fire_keeps ..).after ?_

theorem Dev.draw_keeps (d : Dev) :
    Dev.Keeps d (Dev.draw d) := by
  unfold Dev.draw
  repeat first | with_reducible exact Dev.Keeps.refl _ | fail_if_no_progress with_reducible refine Dev.Keeps.mk_ ?_ rfl rfl rfl rfl rfl

theorem Dev.setFree_keeps (d : Dev) (f : Fld) (i : Nat) :
    Dev.Keeps d (Dev.setFree d f i) := by
  unfold Dev.setFree
  repeat first
    | with_reducible exact Dev.Keeps.refl _ | with_reducible refine (Dev.setF_keeps ..).after ?_
    | with_reducible refine (Dev.draw_keeps ..).after ?_

theorem Dev.setSkip_keeps (d : Dev) (n : Nat) (s : Skip) :
    Dev.Keeps d (Dev.setSkip d n s) := by
  unfold Dev.setSkip
  repeat first | with_reducible exact Dev.Keeps.refl _ | fail_if_no_progress with_reducible refine Dev.Keeps.mk_ ?_ rfl rfl rfl rfl rfl

theorem Dev.push_keeps (d : Dev) (n src : Nat) (pclass : Bool) (seq len : Nat) (body : LumpBody) :
    Dev.Keeps d (Dev.push d n src pclass seq len body) := by
  unfold Dev.push
  extract_lets a0 a1 a2 a3 a4 a5
  have h5 : Dev.Keeps d a5 := by
    unfold a5
    repeat first | with_reducible exact Dev.Keeps.refl _ | with_reducible refine (Dev.setSkip_keeps ..).after ?_
  clear_value a5
  repeat first | with_reducible assumption | with_reducible refine (Dev.setF_keeps ..).after ?_

theorem Dev.countProduced_keeps (d : Dev) (n src : Nat) :
    Dev.Keeps d (Dev.countProduced d n src) := by
  unfold Dev.countProduced
  extract_lets a0 a1
  repeat first | with_reducible exact Dev.Keeps.refl _ | with_reducible refine (Dev.setSkip_keeps ..).after ?_

theorem Dev.pushRecord_keeps (d : Dev) (r : Record) :
    Dev.Keeps d (Dev.pushRecord d r) := by
  unfold Dev.pushRecord
  extract_lets a0 a1
  have h1 : Dev.Keeps d a1 := by
    unfold a1
    repeat first | with_reducible exact Dev.Keeps.refl _ | with_reducible refine (Dev.countProduced_keeps ..).after ?_
  clear_value a1
  repeat first | with_reducible assumption | with_reducible refine (Dev.push_keeps ..).after ?_

theorem Dev.drainOne_keeps (d : Dev) (src : Nat) :
    Dev.Keeps d (Dev.drainOne d src) := by
  unfold Dev.drainOne
  extract_lets a0
  repeat first
    | with_reducible exact Dev.Keeps.refl _ | with_reducible refine Dev.Keeps.ite ?_ ?_
    | with_reducible refine (Dev.pushRecord_keeps ..).after ?_ | extract_lets | split
    | fail_if_no_progress with_reducible refine Dev.Keeps.mk_ ?_ rfl rfl rfl rfl rfl

theorem Dev.drainQ_keeps (n src : Nat) (d : Dev) :
    Dev.Keeps d (Dev.drainQ n src d) := by
  induction n generalizing d with
  | zero => exact .refl d
  | succ n ih =>
    unfold Dev.drainQ
    repeat first
      | with_reducible refine (ih ..).after ?_ | with_reducible exact Dev.Keeps.refl _
      | with_reducible refine (Dev.drainOne_keeps ..).after ?_

theorem Dev.drainRounds_keeps (n : Nat) (d : Dev) :
    Dev.Keeps d (Dev.drainRounds n d) := by
  induction n generalizing d with
  | zero => exact .refl d
  | succ n ih =>
    unfold Dev.drainRounds
    repeat first
      | with_reducible refine (ih ..).after ?_ | with_reducible exact Dev.Keeps.refl _
      | with_reducible refine (Dev.drainOne_keeps ..).after ?_ | with_reducible refine Dev.Keeps.fold _ _ _ ?_ (fun _ _ => ?_)

theorem Dev.drainAll_keeps (d : Dev) :
    Dev.Keeps d (Dev.drainAll d) := by
  unfold Dev.drainAll
  repeat first
    | with_reducible exact Dev.Keeps.refl _ | with_reducible refine Dev.Keeps.ite ?_ ?_
    | with_reducible refine (Dev.drainRounds_keeps ..).after ?_

theorem Dev.countStalls_keeps (d : Dev) (p : Nat → Bool) :
    Dev.Keeps d (Dev.countStalls d p) := by
  unfold Dev.countStalls
  extract_lets a0
  repeat first
    | with_reducible exact Dev.Keeps.refl _ | with_reducible refine Dev.Keeps.ite ?_ ?_
    | with_reducible refine (Dev.addF_keeps ..).after ?_

theorem Dev.requestRecord_keeps (d : Dev) (r : Record) :
    Dev.Keeps d (Dev.requestRecord d r) := by
  unfold Dev.requestRecord
  extract_lets a0 a1 a2
  have h2 : Dev.Keeps d a2 := by
    unfold a2
    repeat first | with_reducible exact Dev.Keeps.refl _ | fail_if_no_progress with_reducible refine Dev.Keeps.mk_ ?_ rfl rfl rfl rfl rfl
  clear_value a2
  repeat first
    | with_reducible assumption | with_reducible refine Dev.Keeps.ite ?_ ?_ | with_reducible refine (Dev.drainQ_keeps ..).after ?_
    | with_reducible refine (Dev.addF_keeps ..).after ?_ | extract_lets | split
    | fail_if_no_progress with_reducible refine Dev.Keeps.mk_ ?_ rfl rfl rfl rfl rfl

theorem Dev.record_keeps (d : Dev) (typ src : Nat) (fields : List (Nat × Nat)) :
    Dev.Keeps d (Dev.record d typ src fields) := by
  unfold Dev.record
  repeat first | with_reducible exact Dev.Keeps.refl _ | with_reducible refine (Dev.requestRecord_keeps ..).after ?_

theorem Dev.farea_keeps (d : Dev) (kind src arg0 arg1 : Nat) :
    Dev.Keeps d (Dev.farea d kind src arg0 arg1) := by
  unfold Dev.farea
  extract_lets a0
  repeat first
    | with_reducible exact Dev.Keeps.refl _ | with_reducible refine Dev.Keeps.ite ?_ ?_
    | with_reducible refine (Dev.trouble_keeps ..).after ?_ | extract_lets
    | fail_if_no_progress with_reducible refine Dev.Keeps.mk_ ?_ rfl rfl rfl rfl rfl

theorem Dev.unpoison_keeps (d : Dev) (r a n : Nat) :
    Dev.Keeps d (Dev.unpoison d r a n) := by
  unfold Dev.unpoison
  repeat first
    | with_reducible exact Dev.Keeps.refl _ | split
    | fail_if_no_progress with_reducible refine Dev.Keeps.mk_ ?_ rfl rfl rfl rfl rfl

theorem Dev.setGate_keeps (d : Dev) (testout : Bool) :
    Dev.Keeps d (Dev.setGate d testout) := by
  unfold Dev.setGate
  extract_lets a0 a1
  have h1 : Dev.Keeps d a1 := by
    unfold a1
    repeat first | with_reducible exact Dev.Keeps.refl _ | with_reducible refine (Dev.setB_keeps ..).after ?_
  clear_value a1
  repeat first | with_reducible assumption | with_reducible refine (Dev.record_keeps ..).after ?_

theorem Dev.updateGate_keeps (d : Dev) (testout : Bool) :
    Dev.Keeps d (Dev.updateGate d testout) := by
  unfold Dev.updateGate
  repeat first
    | with_reducible exact Dev.Keeps.refl _ | with_reducible refine Dev.Keeps.ite ?_ ?_
    | with_reducible refine (Dev.setGate_keeps ..).after ?_

/-- What a change of mode does besides setting the mode. -/
theorem Dev.changeMode_rest (d : Dev) (m : Mode) (cause : Nat) : Dev.Keeps { d with mode := m } (d.changeMode m cause) := by
  unfold Dev.changeMode
  extract_lets old a b c e f g
  have hb : Dev.Keeps { d with mode := m } b := (Dev.setF_keeps ..).after (Dev.setF_keeps ..)
  clear_value b
  have hc : Dev.Keeps { d with mode := m } c := (Dev.incF_keeps ..).after hb
  clear_value c
  have he : Dev.Keeps { d with mode := m } e := .ite ((Dev.incF_keeps ..).after hc) hc
  clear_value e
  exact (Dev.setGate_keeps ..).after ((Dev.fire_keeps ..).after ((Dev.record_keeps ..).after he))

theorem Dev.changeMode_stores (d : Dev) (m : Mode) (cause : Nat) : Dev.Stores d (d.changeMode m cause) :=
  (Dev.changeMode_rest d m cause).stores.after ⟨rfl, rfl, rfl, rfl, rfl, rfl, rfl⟩

theorem Dev.degradedCause_keeps (d : Dev) (cause : Nat) : Dev.Keeps d (d.degradedCause cause) := by
  unfold Dev.degradedCause
  split
  · next h =>
    exact (Dev.changeMode_rest ..).after ⟨⟨rfl, rfl, rfl, rfl, rfl, rfl, rfl⟩, .inr ⟨h, rfl⟩⟩
  · exact .refl d

theorem Dev.exhausted_keeps (d : Dev) (n src : Nat) :
    Dev.Keeps d (Dev.exhausted d n src) := by
  unfold Dev.exhausted
  extract_lets a0 a1 a2 a3 a4 a5 a6 a7 a8 a9
  have h2 : Dev.Keeps d a2 := by
    unfold a2
    repeat first | with_reducible exact Dev.Keeps.refl _ | with_reducible refine (Dev.incF_keeps ..).after ?_
  clear_value a2
  have h4 : Dev.Keeps d a4 := by
    unfold a4
    repeat first | with_reducible assumption | with_reducible refine (Dev.setBit_keeps ..).after ?_
  clear_value a4
  have h5 : Dev.Keeps d a5 := by
    unfold a5
    repeat first | with_reducible assumption | with_reducible refine (Dev.trouble_keeps ..).after ?_
  clear_value a5
  have h6 : Dev.Keeps d a6 := by
    unfold a6
    repeat first
      | with_reducible assumption | with_reducible refine Dev.Keeps.ite ?_ ?_
      | with_reducible refine (Dev.record_keeps ..).after ?_
  clear_value a6
  have h9 : Dev.Keeps d a9 := by
    unfold a9
    repeat first | with_reducible assumption | with_reducible refine (Dev.setSkip_keeps ..).after ?_
  clear_value a9
  repeat first
    | with_reducible assumption | with_reducible refine Dev.Keeps.ite ?_ ?_ | with_reducible refine (Dev.setB_keeps ..).after ?_
    | with_reducible refine (Dev.degradedCause_keeps ..).after ?_

theorem Dev.grant_keeps (d : Dev) (src : Nat) (l : LumpBody) :
    Dev.Keeps d (Dev.grant d src l) := by
  unfold Dev.grant
  repeat first
    | with_reducible exact Dev.Keeps.refl _ | with_reducible refine Dev.Keeps.ite ?_ ?_ | extract_lets | split
    | fail_if_no_progress with_reducible refine Dev.Keeps.mk_ ?_ rfl rfl rfl rfl rfl

theorem Dev.sendLump_keeps (d : Dev) (n src : Nat) (pclass : Bool) (index : Option Nat) (len : Nat) (body : LumpBody) :
    Dev.Keeps d (Dev.sendLump d n src pclass index len body) := by
  unfold Dev.sendLump
  repeat first
    | with_reducible exact Dev.Keeps.refl _ | with_reducible refine Dev.Keeps.ite ?_ ?_
    | with_reducible refine (Dev.countProduced_keeps ..).after ?_ | with_reducible refine (Dev.push_keeps ..).after ?_
    | with_reducible refine (Dev.grant_keeps ..).after ?_ | with_reducible refine (Dev.setSkip_keeps ..).after ?_
    | with_reducible refine (Dev.incF_keeps ..).after ?_ | with_reducible refine (Dev.exhausted_keeps ..).after ?_

theorem Dev.retryLump_keeps (d : Dev) (n src : Nat) :
    Dev.Keeps d (Dev.retryLump d n src) := by
  unfold Dev.retryLump
  repeat first
    | with_reducible exact Dev.Keeps.refl _ | with_reducible refine Dev.Keeps.ite ?_ ?_
    | with_reducible refine (Dev.drainAll_keeps ..).after ?_ | with_reducible refine (Dev.setSkip_keeps ..).after ?_
    | with_reducible refine (Dev.push_keeps ..).after ?_ | with_reducible refine (Dev.grant_keeps ..).after ?_ | extract_lets
    | split

theorem Dev.takeLump_keeps (d : Dev) (n : Nat) :
    Dev.Keeps d (Dev.takeLump d n).1 := by
  unfold Dev.takeLump
  extract_lets a0
  repeat first | with_reducible exact Dev.Keeps.refl _ | with_reducible refine (Dev.setSkip_keeps ..).after ?_ | extract_lets | split

theorem Dev.takeLump_keeps_eq (d : Dev) (n : Nat) {y : Dev} {z : Option Lump} (h : Dev.takeLump d n = (y, z)) : Dev.Keeps d y := by
  have := Dev.takeLump_keeps d n
  rw [h] at this
  exact this

theorem Dev.creditReturn_keeps (d : Dev) (n : Nat) :
    Dev.Keeps d (Dev.creditReturn d n) := by
  unfold Dev.creditReturn
  extract_lets a0
  repeat first
    | with_reducible exact Dev.Keeps.refl _ | with_reducible refine Dev.Keeps.ite ?_ ?_
    | with_reducible refine (Dev.setSkip_keeps ..).after ?_ | with_reducible refine (Dev.drainAll_keeps ..).after ?_

theorem Dev.startSkip_keeps (d : Dev) (n : Nat) :
    Dev.Keeps d (Dev.startSkip d n) := by
  unfold Dev.startSkip
  extract_lets a0
  repeat first
    | with_reducible exact Dev.Keeps.refl _ | with_reducible refine Dev.Keeps.ite ?_ ?_
    | with_reducible refine (Dev.setSkip_keeps ..).after ?_ | with_reducible refine (Dev.drainAll_keeps ..).after ?_
    | with_reducible refine (Dev.countStalls_keeps ..).after ?_

theorem Dev.skipOffline_keeps (d : Dev) (n : Nat) :
    Dev.Keeps d (Dev.skipOffline d n) := by
  unfold Dev.skipOffline
  extract_lets a0
  repeat first
    | with_reducible exact Dev.Keeps.refl _ | with_reducible refine Dev.Keeps.ite ?_ ?_
    | with_reducible refine (Dev.setSkip_keeps ..).after ?_

theorem Dev.skipRejoin_keeps (d : Dev) (n : Nat) :
    Dev.Keeps d (Dev.skipRejoin d n) := by
  unfold Dev.skipRejoin
  extract_lets a0
  repeat first
    | with_reducible exact Dev.Keeps.refl _ | with_reducible refine Dev.Keeps.ite ?_ ?_
    | with_reducible refine (Dev.setSkip_keeps ..).after ?_

theorem Dev.skipStop_keeps (d : Dev) (n : Nat) :
    Dev.Keeps d (Dev.skipStop d n) := by
  unfold Dev.skipStop
  repeat first | with_reducible exact Dev.Keeps.refl _ | with_reducible refine (Dev.setSkip_keeps ..).after ?_

theorem Dev.stopSkips_keeps (d : Dev) :
    Dev.Keeps d (Dev.stopSkips d) := by
  unfold Dev.stopSkips
  repeat first
    | with_reducible exact Dev.Keeps.refl _ | with_reducible refine Dev.Keeps.ite ?_ ?_
    | with_reducible refine (Dev.skipStop_keeps ..).after ?_ | with_reducible refine Dev.Keeps.fold _ _ _ ?_ (fun _ _ => ?_)

end Sys2Proof.Machine
end

