-- ==== Sys2Proof/Laws/KeepsClk.lean ====
section
/-! SUPPORT. What the operations of Machine/Clk.lean leave alone. -/
namespace Sys2Proof.Machine

theorem Dev.setAngle_keeps (d : Dev) (n : Nat) (a : Ang) :
    Dev.Keeps d (Dev.setAngle d n a) := by
  unfold Dev.setAngle
  repeat first | with_reducible exact Dev.Keeps.refl _ | fail_if_no_progress with_reducible refine Dev.Keeps.mk_ ?_ rfl rfl rfl rfl rfl

theorem Dev.angState_keeps (d : Dev) (n : Nat) (a : Ang) (old : AngSt) (cause : Nat) :
    Dev.Keeps d (Dev.angState d n a old cause) := by
  unfold Dev.angState
  repeat first
    | with_reducible exact Dev.Keeps.refl _ | with_reducible refine (Dev.setAngle_keeps ..).after ?_
    | with_reducible refine (Dev.record_keeps ..).after ?_

theorem Dev.angCause_keeps (d : Dev) (n cause : Nat) :
    Dev.Keeps d (Dev.angCause d n cause) := by
  unfold Dev.angCause
  extract_lets a0 a1
  have h1 : Dev.Keeps d a1 := by
    unfold a1
    repeat first
      | with_reducible exact Dev.Keeps.refl _ | with_reducible refine Dev.Keeps.ite ?_ ?_
      | with_reducible refine (Dev.setF_keeps ..).after ?_
  clear_value a1
  repeat first
    | with_reducible assumption | with_reducible refine Dev.Keeps.ite ?_ ?_ | with_reducible refine (Dev.setF_keeps ..).after ?_
    | with_reducible refine (Dev.flag_keeps ..).after ?_ | with_reducible refine (Dev.angState_keeps ..).after ?_ | split

theorem Dev.refInvalid_keeps (d : Dev) (n bits : Nat) :
    Dev.Keeps d (Dev.refInvalid d n bits) := by
  unfold Dev.refInvalid
  repeat first
    | with_reducible exact Dev.Keeps.refl _ | with_reducible refine Dev.Keeps.ite ?_ ?_
    | with_reducible refine (Dev.setAngle_keeps ..).after ?_ | with_reducible refine (Dev.angCause_keeps ..).after ?_

theorem Dev.angSample_keeps (d : Dev) (n bits : Nat) (valid : Bool) :
    Dev.Keeps d (Dev.angSample d n bits valid) := by
  unfold Dev.angSample
  repeat first
    | with_reducible exact Dev.Keeps.refl _ | with_reducible refine Dev.Keeps.ite ?_ ?_
    | with_reducible refine (Dev.refInvalid_keeps ..).after ?_ | with_reducible refine (Dev.draw_keeps ..).after ?_
    | with_reducible refine (Dev.angState_keeps ..).after ?_ | with_reducible refine (Dev.setAngle_keeps ..).after ?_

theorem Dev.angOfs_keeps (d : Dev) (n : Nat) (old : Nat) :
    Dev.Keeps d (Dev.angOfs d n old) := by
  unfold Dev.angOfs
  extract_lets a0
  repeat first
    | with_reducible exact Dev.Keeps.refl _ | with_reducible refine Dev.Keeps.ite ?_ ?_
    | with_reducible refine (Dev.setAngle_keeps ..).after ?_

theorem Dev.refsOff_keeps (d : Dev) (n : Nat) :
    Dev.Keeps d (Dev.refsOff d n) := by
  unfold Dev.refsOff
  repeat first
    | with_reducible exact Dev.Keeps.refl _ | with_reducible refine Dev.Keeps.ite ?_ ?_
    | with_reducible refine (Dev.refInvalid_keeps ..).after ?_ | with_reducible refine Dev.Keeps.fold _ _ _ ?_ (fun _ _ => ?_)

theorem Dev.angCommit_keeps (d : Dev) (n : Nat) (wasBound refChanged : Bool) :
    Dev.Keeps d (Dev.angCommit d n wasBound refChanged) := by
  unfold Dev.angCommit
  extract_lets a0 a1 a2 a3
  have h2 : Dev.Keeps d a2 := by
    unfold a2
    repeat first
      | with_reducible exact Dev.Keeps.refl _ | with_reducible refine Dev.Keeps.ite ?_ ?_
      | with_reducible refine (Dev.setAngle_keeps ..).after ?_
  clear_value a2
  repeat first
    | with_reducible assumption | with_reducible refine Dev.Keeps.ite ?_ ?_
    | with_reducible refine (Dev.setAngle_keeps ..).after ?_ | with_reducible refine (Dev.angCause_keeps ..).after ?_
    | with_reducible refine (Dev.refsOff_keeps ..).after ?_

theorem Dev.tick_sound (d : Dev) :
    Dev.Sound d (Dev.tick d) := by
  unfold Dev.tick
  repeat first
    | with_reducible exact Dev.Sound.refl _ | with_reducible refine Dev.Sound.ite ?_ ?_
    | with_reducible refine (Dev.draw_keeps ..).sound.after ?_ | with_reducible refine (Dev.setAngle_keeps ..).sound.after ?_
    | with_reducible refine Dev.Sound.fold _ _ _ ?_ (fun _ _ => ?_) | extract_lets
    | fail_if_no_progress with_reducible refine Dev.Sound.mk_ ?_ rfl rfl rfl rfl

theorem Dev.pushCal_keeps (d : Dev) (acc : Nat) (rate : Int) (state : Nat) :
    Dev.Keeps d (Dev.pushCal d acc rate state) := by
  unfold Dev.pushCal
  repeat first
    | with_reducible exact Dev.Keeps.refl _ | extract_lets
    | fail_if_no_progress with_reducible refine Dev.Keeps.mk_ ?_ rfl rfl rfl rfl rfl

theorem Dev.setRate_keeps (d : Dev) (rate : Int) :
    Dev.Keeps d (Dev.setRate d rate) := by
  unfold Dev.setRate
  repeat first | with_reducible exact Dev.Keeps.refl _ | with_reducible refine (Dev.pushCal_keeps ..).after ?_

theorem Dev.setCalState_keeps (d : Dev) (new : Nat) :
    Dev.Keeps d (Dev.setCalState d new) := by
  unfold Dev.setCalState
  extract_lets a0
  repeat first
    | with_reducible exact Dev.Keeps.refl _ | with_reducible refine Dev.Keeps.ite ?_ ?_
    | with_reducible refine (Dev.pushCal_keeps ..).after ?_ | with_reducible refine (Dev.record_keeps ..).after ?_
    | with_reducible refine (Dev.fire_keeps ..).after ?_

theorem Dev.tcxoRecord_keeps (d : Dev) (event : Nat) :
    Dev.Keeps d (Dev.tcxoRecord d event) := by
  unfold Dev.tcxoRecord
  repeat first | with_reducible exact Dev.Keeps.refl _ | with_reducible refine (Dev.record_keeps ..).after ?_

theorem execTcxoGate_keeps (diff : BitVec 16) {s t : State} (h : execTcxoGate diff s = .next t) :
    Dev.Keeps s.dev t.dev := by
  refine State.up_keeps (fun d => ?_) h
  repeat first
    | with_reducible exact Dev.Keeps.refl _ | with_reducible refine Dev.Keeps.ite ?_ ?_
    | with_reducible refine (Dev.setF_keeps ..).after ?_ | with_reducible refine (Dev.trouble_keeps ..).after ?_
    | with_reducible refine (Dev.tcxoRecord_keeps ..).after ?_ | extract_lets
    | fail_if_no_progress with_reducible refine Dev.Keeps.mk_ ?_ rfl rfl rfl rfl rfl

theorem Dev.snapshot_keeps (d : Dev) (req : Requester) :
    Dev.Keeps d (Dev.snapshot d req) := by
  unfold Dev.snapshot
  extract_lets a0 a1
  have h0 : Dev.Keeps d a0 := by
    unfold a0
    repeat first | with_reducible exact Dev.Keeps.refl _ | with_reducible refine (Dev.setF_keeps ..).after ?_
  clear_value a0
  have h1 : Dev.Keeps d a1 := by
    unfold a1
    repeat first
      | with_reducible assumption | with_reducible exact Dev.Keeps.refl _ | with_reducible refine (Dev.setF_keeps ..).after ?_
      | with_reducible refine Dev.Keeps.fold _ _ _ ?_ (fun _ _ => ?_)
  clear_value a1
  repeat first
    | with_reducible assumption | with_reducible refine (Dev.setF_keeps ..).after ?_
    | with_reducible refine (Dev.incWrap_keeps ..).after ?_

theorem Dev.convert_keeps (d : Dev) (req : Requester) :
    Dev.Keeps d (Dev.convert d req) := by
  unfold Dev.convert
  extract_lets a0 a1
  repeat first | with_reducible exact Dev.Keeps.refl _ | with_reducible refine (Dev.setF_keeps ..).after ?_

theorem execTimemark_keeps {s t : State} (h : execTimemark s = .next t) :
    Dev.Keeps s.dev t.dev := by
  refine State.up_keeps (fun d => ?_) h
  repeat first
    | with_reducible exact Dev.Keeps.refl _ | with_reducible refine Dev.Keeps.ite ?_ ?_
    | with_reducible refine (Dev.record_keeps ..).after ?_ | extract_lets
    | fail_if_no_progress with_reducible refine Dev.Keeps.mk_ ?_ rfl rfl rfl rfl rfl

theorem execAngFreewheel_keeps (n : Fin 4) (c : AngCause) {s t : State} (h : execAngFreewheel n c s = .next t) :
    Dev.Keeps s.dev t.dev := by
  refine State.up_keeps (fun d => ?_) h
  repeat first
    | with_reducible exact Dev.Keeps.refl _ | with_reducible refine Dev.Keeps.ite ?_ ?_
    | with_reducible refine (Dev.angCause_keeps ..).after ?_

theorem execAngQualifyFail_keeps (n : Fin 4) {s t : State} (h : execAngQualifyFail n s = .next t) :
    Dev.Keeps s.dev t.dev := by
  refine State.up_keeps (fun d => ?_) h
  extract_lets a0
  repeat first | with_reducible exact Dev.Keeps.refl _ | with_reducible refine (Dev.angState_keeps ..).after ?_ | split

theorem execAngQualified_keeps (n : Fin 4) (freq : Word) {s t : State} (h : execAngQualified n freq s = .next t) :
    Dev.Keeps s.dev t.dev := by
  refine State.up_keeps (fun d => ?_) h
  extract_lets a0
  repeat first
    | with_reducible exact Dev.Keeps.refl _ | with_reducible refine Dev.Keeps.ite ?_ ?_
    | with_reducible refine (Dev.angState_keeps ..).after ?_

theorem execAngLocked_keeps (n : Fin 4) (freq : Word) (phase : BitVec 16) {s t : State} (h : execAngLocked n freq phase s = .next t) :
    Dev.Keeps s.dev t.dev := by
  refine State.up_keeps (fun d => ?_) h
  extract_lets a0
  repeat first
    | with_reducible exact Dev.Keeps.refl _ | with_reducible refine Dev.Keeps.ite ?_ ?_
    | with_reducible refine (Dev.angState_keeps ..).after ?_

end Sys2Proof.Machine
end

