-- ==== Sys2Proof/Laws/KeepsAfe.lean ====
section
/-! SUPPORT. What the operations of Machine/Afe.lean leave alone. -/
namespace Sys2Proof.Machine

theorem Dev.setAfeChan_keeps (d : Dev) (c : Nat) (a : AfeCh) :
    Dev.Keeps d (Dev.setAfeChan d c a) := by
  unfold Dev.setAfeChan
  repeat first | with_reducible exact Dev.Keeps.refl _ | fail_if_no_progress with_reducible refine Dev.Keeps.mk_ ?_ rfl rfl rfl rfl rfl

theorem Dev.setFactor_keeps (d : Dev) (c : Nat) (partner : Bool) (place : Nat) (v : Nat) :
    Dev.Keeps d (Dev.setFactor d c partner place v) := by
  unfold Dev.setFactor
  repeat first
    | with_reducible exact Dev.Keeps.refl _ | with_reducible refine Dev.Keeps.ite ?_ ?_
    | with_reducible refine (Dev.setAfeChan_keeps ..).after ?_ | with_reducible refine (Dev.setF_keeps ..).after ?_ | extract_lets
    | split

theorem Dev.sendRaw_keeps (d : Dev) (c n first len : Nat) (body : LumpBody) :
    Dev.Keeps d (Dev.sendRaw d c n first len body) := by
  unfold Dev.sendRaw
  extract_lets a0
  have h0 : Dev.Keeps d a0 := by
    unfold a0
    repeat first | with_reducible exact Dev.Keeps.refl _ | with_reducible refine (Dev.sendLump_keeps ..).after ?_
  clear_value a0
  repeat first
    | with_reducible assumption | with_reducible refine Dev.Keeps.ite ?_ ?_
    | with_reducible refine (Dev.setAfeChan_keeps ..).after ?_

theorem Dev.sendSamples_keeps (d : Dev) (c n k first : Nat) (codes : List (BitVec 16)) :
    Dev.Keeps d (Dev.sendSamples d c n k first codes) := by
  induction k generalizing d first codes with
  | zero => exact .refl d
  | succ k ih =>
    unfold Dev.sendSamples
    exact (ih ..).after (Dev.sendRaw_keeps ..)

theorem Dev.sendBlock_keeps (d : Dev) (c : Nat) (codes : List (BitVec 16)) (n : Nat) :
    Dev.Keeps d (Dev.sendBlock d c codes n) := by
  unfold Dev.sendBlock
  repeat first
    | with_reducible exact Dev.Keeps.refl _ | with_reducible refine Dev.Keeps.ite ?_ ?_
    | with_reducible refine (Dev.setAfeChan_keeps ..).after ?_ | with_reducible refine (Dev.sendRaw_keeps ..).after ?_
    | with_reducible refine (Dev.sendSamples_keeps ..).after ?_

theorem Dev.applyFactors_keeps (os gs ks : List Int) (d : Dev) (c s : Nat) : Dev.Keeps d (Dev.applyFactors d c os gs ks s) := by
  induction os generalizing d gs ks s with
  | nil =>
    unfold Dev.applyFactors
    exact .refl d
  | cons o os ih =>
    unfold Dev.applyFactors
    split
    · next h =>
      cases h
      exact (ih ..).after ((Dev.setFactor_keeps ..).after ((Dev.setFactor_keeps ..).after (Dev.setFactor_keeps ..)))
    · exact .refl d

theorem Dev.markApply_keeps (d : Dev) (c : Nat) :
    Dev.Keeps d (Dev.markApply d c) := by
  unfold Dev.markApply
  extract_lets a0 a1 a2 a3 a4 a5 a6 a7 a8 a9 a10 a11 a12 a13 a14
  have h12 : Dev.Keeps d a12 := by
    unfold a12
    repeat first | with_reducible exact Dev.Keeps.refl _ | with_reducible refine (Dev.applyFactors_keeps ..).after ?_
  clear_value a12
  have h13 : Dev.Keeps d a13 := by
    unfold a13
    repeat first
      | with_reducible assumption | with_reducible refine Dev.Keeps.ite ?_ ?_ | with_reducible refine (Dev.setF_keeps ..).after ?_
  clear_value a13
  have h14 : Dev.Keeps d a14 := by
    unfold a14
    repeat first | with_reducible assumption | with_reducible refine (Dev.setB_keeps ..).after ?_
  clear_value a14
  repeat first | with_reducible assumption | with_reducible refine (Dev.setAfeChan_keeps ..).after ?_

theorem Dev.windowBlock_keeps (d : Dev) (c : Nat) (codes : List (BitVec 16)) :
    Dev.Keeps d (Dev.windowBlock d c codes) := by
  unfold Dev.windowBlock
  extract_lets a0 a1 a2
  repeat first | with_reducible exact Dev.Keeps.refl _ | with_reducible refine (Dev.setAfeChan_keeps ..).after ?_

theorem Dev.blockDone_keeps (d : Dev) (c : Nat) (codes : List (BitVec 16)) :
    Dev.Keeps d (Dev.blockDone d c codes) := by
  unfold Dev.blockDone
  extract_lets a0 a1
  have h1 : Dev.Keeps d a1 := by
    unfold a1
    repeat first
      | with_reducible exact Dev.Keeps.refl _ | with_reducible refine Dev.Keeps.ite ?_ ?_
      | with_reducible refine (Dev.setBit_keeps ..).after ?_
  clear_value a1
  repeat first
    | with_reducible assumption | with_reducible exact Dev.Keeps.refl _ | with_reducible refine (Dev.sendBlock_keeps ..).after ?_
    | with_reducible refine (Dev.windowBlock_keeps ..).after ?_ | with_reducible refine Dev.Keeps.fold _ _ _ ?_ (fun _ _ => ?_)

theorem Dev.rawBoundary_keeps (d : Dev) (c : Nat) (codes : List (BitVec 16)) :
    Dev.Keeps d (Dev.rawBoundary d c codes) := by
  unfold Dev.rawBoundary
  extract_lets a0
  repeat first
    | with_reducible exact Dev.Keeps.refl _ | with_reducible refine Dev.Keeps.ite ?_ ?_
    | with_reducible refine (Dev.blockDone_keeps ..).after ?_ | with_reducible refine (Dev.setAfeChan_keeps ..).after ?_
    | with_reducible refine (Dev.markApply_keeps ..).after ?_

theorem execBgcUpdate_keeps (c : Fin 16) (ofs gain skew : List Int) {s t : State} (h : execBgcUpdate c ofs gain skew s = .next t) :
    Dev.Keeps s.dev t.dev := by
  refine State.upWf_keeps (fun d => ?_) h
  repeat first
    | with_reducible exact Dev.Keeps.refl _ | with_reducible refine Dev.Keeps.ite ?_ ?_
    | with_reducible refine (Dev.setBit_keeps ..).after ?_ | with_reducible refine (Dev.clrBit_keeps ..).after ?_
    | with_reducible refine (Dev.setAfeChan_keeps ..).after ?_ | extract_lets | split

theorem Dev.bgcWritten_keeps (d : Dev) (old : Nat) :
    Dev.Keeps d (Dev.bgcWritten d old) := by
  unfold Dev.bgcWritten
  repeat first
    | with_reducible exact Dev.Keeps.refl _ | with_reducible refine Dev.Keeps.ite ?_ ?_
    | with_reducible refine (Dev.setAfeChan_keeps ..).after ?_ | with_reducible refine Dev.Keeps.fold _ _ _ ?_ (fun _ _ => ?_)

theorem execSelfCalibrationStart_keeps (h : Option Half) {s t : State} (h : execSelfCalibrationStart h s = .next t) :
    Dev.Keeps s.dev t.dev := by
  refine State.up_keeps (fun d => ?_) h
  extract_lets a0
  repeat first
    | with_reducible exact Dev.Keeps.refl _ | with_reducible refine Dev.Keeps.ite ?_ ?_
    | with_reducible refine (Dev.setAfeChan_keeps ..).after ?_ | with_reducible refine (Dev.setB_keeps ..).after ?_
    | with_reducible refine Dev.Keeps.fold _ _ _ ?_ (fun _ _ => ?_) | extract_lets
    | fail_if_no_progress with_reducible refine Dev.Keeps.mk_ ?_ rfl rfl rfl rfl rfl

theorem Dev.loadFactors_keeps (d : Dev) (c : Nat) (f : Dev → Nat → Dev × Nat) (hf : ∀ d i, Dev.Keeps d (f d i).1) :
    Dev.Keeps d (Dev.loadFactors d c f) := by
  unfold Dev.loadFactors
  extract_lets one x
  have ho : ∀ b d i, Dev.Keeps d (one b d i) := fun b d i => (Dev.setFactor_keeps ..).after (hf ..)
  have hx : Dev.Keeps d x := .fold _ _ _ (.refl d) fun _ _ => ho ..
  clear_value one x
  exact .ite (.fold _ _ _ hx fun _ _ => ho ..) hx

theorem Dev.loadMeasured_keeps (d : Dev) (c : Nat) : Dev.Keeps d (Dev.loadMeasured d c) :=
  (Dev.setB_keeps ..).after (Dev.loadFactors_keeps _ _ _ fun _ _ => Dev.draw_keeps ..)

theorem Dev.loadFactory_keeps (d : Dev) (c : Nat) : Dev.Keeps d (Dev.loadFactory d c) :=
  (Dev.trouble_keeps ..).after ((Dev.setBit_keeps ..).after ((Dev.setB_keeps ..).after (Dev.loadFactors_keeps _ _ _ fun _ _ => .refl _)))

theorem execSelfCalibrationEnd_keeps (h : Option Half) (fail : BitVec 16) {s t : State} (h : execSelfCalibrationEnd h fail s = .next t) :
    Dev.Keeps s.dev t.dev := by
  refine State.up_keeps (fun d => ?_) h
  extract_lets a0 a1
  repeat first
    | with_reducible exact Dev.Keeps.refl _ | with_reducible refine Dev.Keeps.ite ?_ ?_
    | with_reducible refine (Dev.loadFactory_keeps ..).after ?_ | with_reducible refine (Dev.loadMeasured_keeps ..).after ?_
    | with_reducible refine (Dev.clrBit_keeps ..).after ?_ | with_reducible refine (Dev.setAfeChan_keeps ..).after ?_
    | with_reducible refine (Dev.setB_keeps ..).after ?_ | with_reducible refine (Dev.startSkip_keeps ..).after ?_
    | with_reducible refine Dev.Keeps.fold _ _ _ ?_ (fun _ _ => ?_) | extract_lets
    | fail_if_no_progress with_reducible refine Dev.Keeps.mk_ ?_ rfl rfl rfl rfl rfl

theorem Dev.setRefin_keeps (d : Dev) (r : RefinSt) :
    Dev.Keeps d (Dev.setRefin d r) := by
  unfold Dev.setRefin
  repeat first
    | with_reducible exact Dev.Keeps.refl _ | extract_lets
    | fail_if_no_progress with_reducible refine Dev.Keeps.mk_ ?_ rfl rfl rfl rfl rfl

theorem Dev.refselWritten_keeps (d : Dev) (old : Nat) :
    Dev.Keeps d (Dev.refselWritten d old) := by
  unfold Dev.refselWritten
  extract_lets a0
  repeat first
    | with_reducible exact Dev.Keeps.refl _ | with_reducible refine Dev.Keeps.ite ?_ ?_
    | with_reducible refine (Dev.setRefin_keeps ..).after ?_ | with_reducible refine (Dev.setB_keeps ..).after ?_

theorem execRefinQualified_keeps (ratio : BitVec 16) {s t : State} (h : execRefinQualified ratio s = .next t) :
    Dev.Keeps s.dev t.dev := by
  refine State.up_keeps (fun d => ?_) h
  repeat first
    | with_reducible exact Dev.Keeps.refl _ | with_reducible refine Dev.Keeps.ite ?_ ?_
    | with_reducible refine (Dev.setRefin_keeps ..).after ?_ | with_reducible refine (Dev.setF_keeps ..).after ?_
    | with_reducible refine (Dev.setB_keeps ..).after ?_

theorem Dev.refFallback_keeps (d : Dev) :
    Dev.Keeps d (Dev.refFallback d) := by
  unfold Dev.refFallback
  extract_lets a0 a1
  have h1 : Dev.Keeps d a1 := by
    unfold a1
    repeat first | with_reducible exact Dev.Keeps.refl _ | fail_if_no_progress with_reducible refine Dev.Keeps.mk_ ?_ rfl rfl rfl rfl rfl
  clear_value a1
  repeat first
    | with_reducible assumption | with_reducible refine (Dev.setRefin_keeps ..).after ?_
    | with_reducible refine (Dev.setB_keeps ..).after ?_ | with_reducible refine (Dev.trouble_keeps ..).after ?_

theorem execRefinQualifyTimeout_keeps {s t : State} (h : execRefinQualifyTimeout s = .next t) :
    Dev.Keeps s.dev t.dev := by
  refine State.up_keeps (fun d => ?_) h
  repeat first
    | with_reducible exact Dev.Keeps.refl _ | with_reducible refine Dev.Keeps.ite ?_ ?_
    | with_reducible refine (Dev.refFallback_keeps ..).after ?_

theorem execRefinRetry_keeps {s t : State} (h : execRefinRetry s = .next t) :
    Dev.Keeps s.dev t.dev := by
  refine State.up_keeps (fun d => ?_) h
  repeat first
    | with_reducible exact Dev.Keeps.refl _ | with_reducible refine Dev.Keeps.ite ?_ ?_
    | with_reducible refine (Dev.setRefin_keeps ..).after ?_

theorem execRefinOutOfRange_keeps {s t : State} (h : execRefinOutOfRange s = .next t) :
    Dev.Keeps s.dev t.dev := by
  refine State.up_keeps (fun d => ?_) h
  repeat first
    | with_reducible exact Dev.Keeps.refl _ | with_reducible refine Dev.Keeps.ite ?_ ?_
    | with_reducible refine (Dev.refFallback_keeps ..).after ?_

theorem Dev.setAux_keeps (d : Dev) (a : Aux) :
    Dev.Keeps d (Dev.setAux d a) := by
  unfold Dev.setAux
  repeat first | with_reducible exact Dev.Keeps.refl _ | fail_if_no_progress with_reducible refine Dev.Keeps.mk_ ?_ rfl rfl rfl rfl rfl

theorem Dev.auxGap_keeps (d : Dev) :
    Dev.Keeps d (Dev.auxGap d) := by
  unfold Dev.auxGap
  extract_lets a0
  have h0 : Dev.Keeps d a0 := by
    unfold a0
    repeat first | with_reducible exact Dev.Keeps.refl _ | with_reducible refine (Dev.incWrap_keeps ..).after ?_
  clear_value a0
  repeat first
    | with_reducible assumption | with_reducible refine (Dev.setAux_keeps ..).after ?_
    | with_reducible refine (Dev.setB_keeps ..).after ?_

theorem Dev.auxStopped_keeps (d : Dev) :
    Dev.Keeps d (Dev.auxStopped d) := by
  unfold Dev.auxStopped
  repeat first
    | with_reducible exact Dev.Keeps.refl _ | with_reducible refine (Dev.setAux_keeps ..).after ?_
    | with_reducible refine (Dev.setB_keeps ..).after ?_

theorem Dev.auxRun_keeps (d : Dev) :
    Dev.Keeps d (Dev.auxRun d) := by
  unfold Dev.auxRun
  repeat first
    | with_reducible exact Dev.Keeps.refl _ | with_reducible refine Dev.Keeps.ite ?_ ?_
    | with_reducible refine (Dev.auxStopped_keeps ..).after ?_ | with_reducible refine (Dev.setAux_keeps ..).after ?_
    | with_reducible refine (Dev.auxGap_keeps ..).after ?_ | with_reducible refine (Dev.setB_keeps ..).after ?_

theorem Dev.auxPass_keeps (d : Dev) :
    Dev.Keeps d (Dev.auxPass d) := by
  unfold Dev.auxPass
  extract_lets a0
  repeat first
    | with_reducible exact Dev.Keeps.refl _ | with_reducible refine Dev.Keeps.ite ?_ ?_
    | with_reducible refine (Dev.auxStopped_keeps ..).after ?_ | with_reducible refine (Dev.auxRun_keeps ..).after ?_
    | with_reducible refine (Dev.setAux_keeps ..).after ?_ | with_reducible refine (Dev.setB_keeps ..).after ?_

theorem execAuxStart_keeps {s t : State} (h : execAuxStart s = .next t) :
    Dev.Keeps s.dev t.dev := by
  refine State.up_keeps (fun d => ?_) h
  repeat first
    | with_reducible exact Dev.Keeps.refl _ | with_reducible refine Dev.Keeps.ite ?_ ?_
    | with_reducible refine (Dev.auxPass_keeps ..).after ?_

theorem execAuxSlotDone_keeps (conv : List (BitVec 16)) {s t : State} (h : execAuxSlotDone conv s = .next t) :
    Dev.Keeps s.dev t.dev := by
  refine State.up_keeps (fun d => ?_) h
  repeat first
    | with_reducible exact Dev.Keeps.refl _ | with_reducible refine Dev.Keeps.ite ?_ ?_
    | with_reducible refine (Dev.setF_keeps ..).after ?_ | with_reducible refine (Dev.auxStopped_keeps ..).after ?_
    | with_reducible refine (Dev.setAux_keeps ..).after ?_ | with_reducible refine (Dev.incWrap_keeps ..).after ?_
    | with_reducible refine (Dev.auxPass_keeps ..).after ?_ | with_reducible refine (Dev.auxGap_keeps ..).after ?_ | extract_lets
    | split

theorem execAuxGapEnd_keeps {s t : State} (h : execAuxGapEnd s = .next t) :
    Dev.Keeps s.dev t.dev := by
  refine State.up_keeps (fun d => ?_) h
  repeat first
    | with_reducible exact Dev.Keeps.refl _ | with_reducible refine Dev.Keeps.ite ?_ ?_
    | with_reducible refine (Dev.auxPass_keeps ..).after ?_

theorem execAuxRefSettled_keeps {s t : State} (h : execAuxRefSettled s = .next t) :
    Dev.Keeps s.dev t.dev := by
  refine State.up_keeps (fun d => ?_) h
  repeat first
    | with_reducible exact Dev.Keeps.refl _ | with_reducible refine Dev.Keeps.ite ?_ ?_
    | with_reducible refine (Dev.setB_keeps ..).after ?_ | with_reducible refine (Dev.auxRun_keeps ..).after ?_

theorem execAuxRefTimeout_keeps {s t : State} (h : execAuxRefTimeout s = .next t) :
    Dev.Keeps s.dev t.dev := by
  refine State.up_keeps (fun d => ?_) h
  repeat first
    | with_reducible exact Dev.Keeps.refl _ | with_reducible refine Dev.Keeps.ite ?_ ?_
    | with_reducible refine (Dev.trouble_keeps ..).after ?_

theorem Dev.auxCtlWritten_keeps (d : Dev) :
    Dev.Keeps d (Dev.auxCtlWritten d) := by
  unfold Dev.auxCtlWritten
  repeat first
    | with_reducible exact Dev.Keeps.refl _ | with_reducible refine Dev.Keeps.ite ?_ ?_
    | with_reducible refine (Dev.auxPass_keeps ..).after ?_

theorem Dev.auxUrgent_keeps (d : Dev) :
    Dev.Keeps d (Dev.auxUrgent d) := by
  unfold Dev.auxUrgent
  repeat first
    | with_reducible exact Dev.Keeps.refl _ | with_reducible refine Dev.Keeps.ite ?_ ?_
    | with_reducible refine (Dev.setAux_keeps ..).after ?_ | with_reducible refine (Dev.setB_keeps ..).after ?_
    | with_reducible refine (Dev.incF_keeps ..).after ?_

theorem execAuxUrgentDone_keeps (conv : List (BitVec 16)) {s t : State} (h : execAuxUrgentDone conv s = .next t) :
    Dev.Keeps s.dev t.dev := by
  refine State.up_keeps (fun d => ?_) h
  repeat first
    | with_reducible exact Dev.Keeps.refl _ | with_reducible refine (Dev.setAux_keeps ..).after ?_
    | with_reducible refine (Dev.setB_keeps ..).after ?_ | with_reducible refine (Dev.setF_keeps ..).after ?_ | extract_lets
    | split

end Sys2Proof.Machine
end

