-- ==== Sys2Proof/Laws/KeepsFlt.lean ====
section
/-! SUPPORT. What the operations of Machine/Flt.lean leave alone. -/
namespace Sys2Proof.Machine

theorem Dev.setChain_keeps (d : Dev) (c : Nat) (x : FltCh) :
    Dev.Keeps d (Dev.setChain d c x) := by
  unfold Dev.setChain
  repeat first | with_reducible exact Dev.Keeps.refl _ | fail_if_no_progress with_reducible refine Dev.Keeps.mk_ ?_ rfl rfl rfl rfl rfl

theorem Dev.syncReset_keeps (d : Dev) (c cause b : Nat) :
    Dev.Keeps d (Dev.syncReset d c cause b) := by
  unfold Dev.syncReset
  extract_lets a0 a1 a2 a3 a4 a5 a6
  have h3 : Dev.Keeps d a3 := by
    unfold a3
    repeat first | with_reducible exact Dev.Keeps.refl _ | with_reducible refine (Dev.setChain_keeps ..).after ?_
  clear_value a3
  have h4 : Dev.Keeps d a4 := by
    unfold a4
    repeat first | with_reducible assumption | with_reducible refine (Dev.setF_keeps ..).after ?_
  clear_value a4
  have h5 : Dev.Keeps d a5 := by
    unfold a5
    repeat first | with_reducible assumption | with_reducible refine (Dev.setF_keeps ..).after ?_
  clear_value a5
  have h6 : Dev.Keeps d a6 := by
    unfold a6
    repeat first
      | with_reducible assumption | with_reducible refine (Dev.setF_keeps ..).after ?_
      | with_reducible refine (Dev.incF_keeps ..).after ?_
  clear_value a6
  repeat first | with_reducible assumption | with_reducible refine (Dev.record_keeps ..).after ?_

theorem Dev.runDueReset_keeps (d : Dev) (c : Nat) :
    Dev.Keeps d (Dev.runDueReset d c) := by
  unfold Dev.runDueReset
  repeat first | with_reducible exact Dev.Keeps.refl _ | with_reducible refine (Dev.syncReset_keeps ..).after ?_ | split

theorem Dev.askReset_keeps (d : Dev) (c cause : Nat) :
    Dev.Keeps d (Dev.askReset d c cause) := by
  unfold Dev.askReset
  extract_lets a0
  repeat first | with_reducible exact Dev.Keeps.refl _ | with_reducible refine (Dev.setChain_keeps ..).after ?_

theorem execSynchronisingReset_keeps (c : Fin 16) {s t : State} (h : execSynchronisingReset c s = .next t) :
    Dev.Keeps s.dev t.dev := by
  refine State.up_keeps (fun d => ?_) h
  repeat first
    | with_reducible exact Dev.Keeps.refl _ | with_reducible refine Dev.Keeps.ite ?_ ?_
    | with_reducible refine (Dev.runDueReset_keeps ..).after ?_

theorem Dev.fltHeader_keeps (d : Dev) (h : RawHeader) (lumpGap : Bool) :
    Dev.Keeps d (Dev.fltHeader d h lumpGap) := by
  unfold Dev.fltHeader
  extract_lets a0 a1 a2 a3 a4 a5 a6 a7 a8 a9 a10 a11 a12
  repeat first | with_reducible exact Dev.Keeps.refl _ | with_reducible refine (Dev.setChain_keeps ..).after ?_

theorem Dev.fltSamples_keeps (d : Dev) (c : Nat) (codes : List (BitVec 16)) :
    Dev.Keeps d (Dev.fltSamples d c codes) := by
  unfold Dev.fltSamples
  extract_lets a0 a1
  have h0 : Dev.Keeps d a0 := by
    unfold a0
    repeat first | with_reducible exact Dev.Keeps.refl _ | with_reducible refine (Dev.runDueReset_keeps ..).after ?_
  clear_value a0
  repeat first | with_reducible assumption | with_reducible refine (Dev.setChain_keeps ..).after ?_

theorem Dev.swapRequest_keeps (d : Dev) (c target len start : Nat) :
    Dev.Keeps d (Dev.swapRequest d c target len start) := by
  unfold Dev.swapRequest
  extract_lets a0 a1
  repeat first
    | with_reducible exact Dev.Keeps.refl _ | with_reducible refine Dev.Keeps.ite ?_ ?_
    | with_reducible refine (Dev.setChain_keeps ..).after ?_ | with_reducible refine (Dev.setF_keeps ..).after ?_
    | with_reducible refine (Dev.setBit_keeps ..).after ?_ | with_reducible refine (Dev.record_keeps ..).after ?_

theorem Dev.fadeEnd_keeps (d : Dev) (c : Nat) (f : Fade) :
    Dev.Keeps d (Dev.fadeEnd d c f) := by
  unfold Dev.fadeEnd
  extract_lets a0 a1 a2 a3
  have h1 : Dev.Keeps d a1 := by
    unfold a1
    repeat first | with_reducible exact Dev.Keeps.refl _ | with_reducible refine (Dev.setF_keeps ..).after ?_
  clear_value a1
  have h2 : Dev.Keeps d a2 := by
    unfold a2
    repeat first | with_reducible assumption | with_reducible refine (Dev.setF_keeps ..).after ?_
  clear_value a2
  have h3 : Dev.Keeps d a3 := by
    unfold a3
    repeat first | with_reducible assumption | with_reducible refine (Dev.setChain_keeps ..).after ?_
  clear_value a3
  repeat first | with_reducible assumption | with_reducible refine (Dev.swapRequest_keeps ..).after ?_ | split

theorem Dev.fadeDone_keeps (d : Dev) (c : Nat) :
    Dev.Keeps d (Dev.fadeDone d c) := by
  unfold Dev.fadeDone
  repeat first
    | with_reducible exact Dev.Keeps.refl _ | with_reducible refine Dev.Keeps.ite ?_ ?_
    | with_reducible refine (Dev.fadeEnd_keeps ..).after ?_ | split

theorem execFadeEnd_keeps (c : Fin 16) {s t : State} (h : execFadeEnd c s = .next t) :
    Dev.Keeps s.dev t.dev := by
  refine State.up_keeps (fun d => ?_) h
  repeat first | with_reducible exact Dev.Keeps.refl _ | with_reducible refine (Dev.fadeDone_keeps ..).after ?_

theorem Dev.swapStart_keeps (d : Dev) (c j : Nat) :
    Dev.Keeps d (Dev.swapStart d c j) := by
  unfold Dev.swapStart
  extract_lets a0
  repeat first
    | with_reducible exact Dev.Keeps.refl _ | with_reducible refine Dev.Keeps.ite ?_ ?_
    | with_reducible refine (Dev.setChain_keeps ..).after ?_ | with_reducible refine (Dev.setF_keeps ..).after ?_ | split

theorem Dev.decimate_keeps (d : Dev) (c : Nat) (outs rest : List (Nat × Int × Nat)) :
    Dev.Keeps d (Dev.decimate d c outs rest) := by
  unfold Dev.decimate
  extract_lets a0 a1 a2 a3 a4 a5 a6 a7 a8 a9 a10 a11 a12 a13 a14 a15 a16 a17 a18 a19 a20 a21 a22 a23 a24 a25 a26 a27 a28 a29
  have h28 : Dev.Keeps d a28 := by
    unfold a28
    repeat first
      | with_reducible exact Dev.Keeps.refl _ | with_reducible refine (Dev.setChain_keeps ..).after ?_
      | with_reducible refine (Dev.fadeDone_keeps ..).after ?_ | with_reducible refine (Dev.swapStart_keeps ..).after ?_
  clear_value a28
  have h29 : Dev.Keeps d a29 := by
    unfold a29
    repeat first
      | with_reducible assumption | with_reducible refine (Dev.setF_keeps ..).after ?_
      | with_reducible refine (Dev.setB_keeps ..).after ?_
  clear_value a29
  repeat first | with_reducible assumption | with_reducible refine Dev.Keeps.ite ?_ ?_ | with_reducible refine (Dev.setF_keeps ..).after ?_

theorem execDecimatedSample_keeps (c : Fin 16) {s t : State} (h : execDecimatedSample c s = .next t) :
    Dev.Keeps s.dev t.dev := by
  refine State.up_keeps (fun d => ?_) h
  repeat first
    | with_reducible exact Dev.Keeps.refl _ | with_reducible refine Dev.Keeps.ite ?_ ?_
    | with_reducible refine (Dev.decimate_keeps ..).after ?_ | with_reducible refine (Dev.angSample_keeps ..).after ?_
    | with_reducible refine Dev.Keeps.fold _ _ _ ?_ (fun _ _ => ?_) | extract_lets | split

theorem execFastSettleEnd_keeps (c : Fin 16) {s t : State} (h : execFastSettleEnd c s = .next t) :
    Dev.Keeps s.dev t.dev := by
  refine State.up_keeps (fun d => ?_) h
  extract_lets a0
  repeat first
    | with_reducible exact Dev.Keeps.refl _ | with_reducible refine Dev.Keeps.ite ?_ ?_
    | with_reducible refine (Dev.setB_keeps ..).after ?_

theorem Dev.pushInst_keeps (d : Dev) (dom : Nat) (i : Inst) :
    Dev.Keeps d (Dev.pushInst d dom i) := by
  unfold Dev.pushInst
  repeat first | with_reducible exact Dev.Keeps.refl _ | fail_if_no_progress with_reducible refine Dev.Keeps.mk_ ?_ rfl rfl rfl rfl rfl

theorem Dev.domAdvance_keeps (d : Dev) (dom : Nat) :
    Dev.Keeps d (Dev.domAdvance d dom) := by
  unfold Dev.domAdvance
  extract_lets a0 a1 a2
  repeat first
    | with_reducible exact Dev.Keeps.refl _ | with_reducible refine (Dev.pushInst_keeps ..).after ?_
    | with_reducible refine Dev.Keeps.fold _ _ _ ?_ (fun _ _ => ?_)

theorem Dev.queueTap_keeps (d : Dev) (p : Nat) (t : TapInst) :
    Dev.Keeps d (Dev.queueTap d p t) := by
  unfold Dev.queueTap
  repeat first | with_reducible exact Dev.Keeps.refl _ | fail_if_no_progress with_reducible refine Dev.Keeps.mk_ ?_ rfl rfl rfl rfl rfl

theorem execAngleTapSample_keeps (c : Fin 16) {s t : State} (h : execAngleTapSample c s = .next t) :
    Dev.Keeps s.dev t.dev := by
  refine State.up_keeps (fun d => ?_) h
  extract_lets a0
  repeat first
    | with_reducible exact Dev.Keeps.refl _ | with_reducible refine Dev.Keeps.ite ?_ ?_
    | with_reducible refine (Dev.setChain_keeps ..).after ?_ | with_reducible refine (Dev.queueTap_keeps ..).after ?_ | split

theorem Dev.frTick_keeps (d : Dev) :
    Dev.Keeps d (Dev.frTick d) := by
  unfold Dev.frTick
  extract_lets a0 a1 a2
  repeat first
    | with_reducible exact Dev.Keeps.refl _ | with_reducible refine Dev.Keeps.ite ?_ ?_
    | with_reducible refine (Dev.pushInst_keeps ..).after ?_ | with_reducible refine (Dev.record_keeps ..).after ?_ | extract_lets
    | fail_if_no_progress with_reducible refine Dev.Keeps.mk_ ?_ rfl rfl rfl rfl rfl

theorem Dev.frResync_keeps (d : Dev) :
    Dev.Keeps d (Dev.frResync d) := by
  unfold Dev.frResync
  repeat first
    | with_reducible exact Dev.Keeps.refl _ | with_reducible refine (Dev.setF_keeps ..).after ?_ | extract_lets
    | fail_if_no_progress with_reducible refine Dev.Keeps.mk_ ?_ rfl rfl rfl rfl rfl

theorem Dev.fixedRate_keeps (d : Dev) :
    Dev.Keeps d (Dev.fixedRate d) := by
  unfold Dev.fixedRate
  repeat first
    | with_reducible exact Dev.Keeps.refl _ | with_reducible refine Dev.Keeps.ite ?_ ?_
    | with_reducible refine (Dev.queueTap_keeps ..).after ?_ | with_reducible refine Dev.Keeps.fold _ _ _ ?_ (fun _ _ => ?_)
    | extract_lets | split | fail_if_no_progress with_reducible refine Dev.Keeps.mk_ ?_ rfl rfl rfl rfl rfl

theorem execFixedRateInstant_keeps {s t : State} (h : execFixedRateInstant s = .next t) :
    Dev.Keeps s.dev t.dev := by
  refine State.up_keeps (fun d => ?_) h
  repeat first | with_reducible exact Dev.Keeps.refl _ | with_reducible refine (Dev.fixedRate_keeps ..).after ?_

theorem execFltLumpSend_keeps (h : Half) (clock : Option (Fin 4)) {s t : State} (h : execFltLumpSend h clock s = .next t) :
    Dev.Keeps s.dev t.dev := by
  refine State.up_keeps (fun d => ?_) h
  extract_lets a0
  repeat first
    | with_reducible exact Dev.Keeps.refl _ | with_reducible refine Dev.Keeps.ite ?_ ?_
    | with_reducible refine (Dev.sendLump_keeps ..).after ?_ | with_reducible refine Dev.Keeps.fold _ _ _ ?_ (fun _ _ => ?_)
    | extract_lets | split | fail_if_no_progress with_reducible refine Dev.Keeps.mk_ ?_ rfl rfl rfl rfl rfl

theorem Dev.coefCommit_keeps (d : Dev) :
    Dev.Keeps d (Dev.coefCommit d) := by
  unfold Dev.coefCommit
  extract_lets a0 a1 a2
  repeat first | with_reducible exact Dev.Keeps.refl _ | fail_if_no_progress with_reducible refine Dev.Keeps.mk_ ?_ rfl rfl rfl rfl rfl

theorem Dev.chctlWritten_keeps (d : Dev) (c : Nat) (oldRun : Bool) :
    Dev.Keeps d (Dev.chctlWritten d c oldRun) := by
  unfold Dev.chctlWritten
  repeat first
    | with_reducible exact Dev.Keeps.refl _ | with_reducible refine Dev.Keeps.ite ?_ ?_
    | with_reducible refine (Dev.setChain_keeps ..).after ?_ | with_reducible refine (Dev.askReset_keeps ..).after ?_

theorem execRawBlockBoundary_keeps (c : Fin 16) (codes : List (BitVec 16)) {s t : State} (h : execRawBlockBoundary c codes s = .next t) :
    Dev.Keeps s.dev t.dev := by
  refine State.upWf_keeps (fun d => ?_) h
  repeat first
    | with_reducible exact Dev.Keeps.refl _ | with_reducible refine Dev.Keeps.ite ?_ ?_
    | with_reducible refine (Dev.rawBoundary_keeps ..).after ?_ | with_reducible refine (Dev.syncReset_keeps ..).after ?_

theorem Dev.fltResetWritten_keeps (d : Dev) (bits : Nat) :
    Dev.Keeps d (Dev.fltResetWritten d bits) := by
  unfold Dev.fltResetWritten
  repeat first
    | with_reducible exact Dev.Keeps.refl _ | with_reducible refine Dev.Keeps.ite ?_ ?_
    | with_reducible refine (Dev.askReset_keeps ..).after ?_ | with_reducible refine Dev.Keeps.fold _ _ _ ?_ (fun _ _ => ?_)

end Sys2Proof.Machine
end

