-- ==== Sys2Proof/Laws/KeepsSvi.lean ====
section
/-! SUPPORT. What the operations of Machine/Svi.lean leave alone. -/
namespace Sys2Proof.Machine

theorem Dev.setSub_keeps (d : Dev) (s : Nat) (x : SvSub) :
    Dev.Keeps d (Dev.setSub d s x) := by
  unfold Dev.setSub
  repeat first | with_reducible exact Dev.Keeps.refl _ | fail_if_no_progress with_reducible refine Dev.Keeps.mk_ ?_ rfl rfl rfl rfl rfl

theorem Dev.subState_keeps (d : Dev) (s new smpcnt : Nat) :
    Dev.Keeps d (Dev.subState d s new smpcnt) := by
  unfold Dev.subState
  extract_lets a0 a1
  have h1 : Dev.Keeps d a1 := by
    unfold a1
    repeat first | with_reducible exact Dev.Keeps.refl _ | with_reducible refine (Dev.setF_keeps ..).after ?_
  clear_value a1
  repeat first
    | with_reducible assumption | with_reducible refine Dev.Keeps.ite ?_ ?_ | with_reducible refine (Dev.flag_keeps ..).after ?_
    | with_reducible refine (Dev.record_keeps ..).after ?_

theorem Dev.subResolved_keeps (d : Dev) (s : Nat) (x : SvSample) :
    Dev.Keeps d (Dev.subResolved d s x) := by
  unfold Dev.subResolved
  extract_lets a0
  repeat first | with_reducible exact Dev.Keeps.refl _ | with_reducible refine (Dev.subState_keeps ..).after ?_

theorem Dev.subAdvance_keeps (s n : Nat) (d : Dev) :
    Dev.Keeps d (Dev.subAdvance s n d) := by
  induction n generalizing d with
  | zero => exact .refl d
  | succ n ih =>
    unfold Dev.subAdvance
    repeat first
      | with_reducible refine (ih ..).after ?_ | with_reducible exact Dev.Keeps.refl _ | with_reducible refine Dev.Keeps.ite ?_ ?_
      | with_reducible refine (Dev.setSub_keeps ..).after ?_ | with_reducible refine (Dev.sendLump_keeps ..).after ?_
      | with_reducible refine Dev.Keeps.fold _ _ _ ?_ (fun _ _ => ?_) | extract_lets | split

theorem Dev.svReference_keeps (d : Dev) (s : Nat) (chans : List (Int × Nat)) :
    Dev.Keeps d (Dev.svReference d s chans) := by
  unfold Dev.svReference
  repeat first
    | with_reducible exact Dev.Keeps.refl _ | with_reducible refine (Dev.angSample_keeps ..).after ?_
    | with_reducible refine Dev.Keeps.fold _ _ _ ?_ (fun _ _ => ?_)

theorem Dev.subResolve_keeps (d : Dev) (s : Nat) (m : SvSample) :
    Dev.Keeps d (Dev.subResolve d s m) := by
  unfold Dev.subResolve
  extract_lets a0 a1
  have h1 : Dev.Keeps d a1 := by
    unfold a1
    repeat first | with_reducible exact Dev.Keeps.refl _ | with_reducible refine (Dev.setSub_keeps ..).after ?_
  clear_value a1
  repeat first
    | with_reducible assumption | with_reducible refine (Dev.subAdvance_keeps ..).after ?_
    | with_reducible refine (Dev.subResolved_keeps ..).after ?_ | with_reducible refine (Dev.svReference_keeps ..).after ?_

theorem execSvSampleMissing_keeps (i : Fin 128) {s t : State} (h : execSvSampleMissing i s = .next t) :
    Dev.Keeps s.dev t.dev := by
  refine State.up_keeps (fun d => ?_) h
  extract_lets a0 a1 a2 a3
  repeat first
    | with_reducible exact Dev.Keeps.refl _ | with_reducible refine Dev.Keeps.ite ?_ ?_
    | with_reducible refine (Dev.incF_keeps ..).after ?_ | with_reducible refine (Dev.setF_keeps ..).after ?_
    | with_reducible refine (Dev.subResolve_keeps ..).after ?_

theorem Dev.svReason_keeps (d : Dev) (s : Nat) (causes : List Nat) :
    Dev.Keeps d (Dev.svReason d s causes) := by
  unfold Dev.svReason
  repeat first
    | with_reducible exact Dev.Keeps.refl _ | with_reducible refine (Dev.setF_keeps ..).after ?_
    | with_reducible refine (Dev.draw_keeps ..).after ?_ | split

theorem Dev.portSeen_keeps (d : Dev) (s : Nat) (portB : Bool) :
    Dev.Keeps d (Dev.portSeen d s portB) := by
  unfold Dev.portSeen
  repeat first
    | with_reducible exact Dev.Keeps.refl _ | with_reducible refine Dev.Keeps.ite ?_ ?_
    | with_reducible refine (Dev.setF_keeps ..).after ?_

theorem Dev.svAccept_keeps (d : Dev) (s idx : Nat) (portB : Bool) (f : SvFrame) (a : Asdu) :
    Dev.Keeps d (Dev.svAccept d s idx portB f a) := by
  unfold Dev.svAccept
  extract_lets a0 a1
  have h0 : Dev.Keeps d a0 := by
    unfold a0
    repeat first | with_reducible exact Dev.Keeps.refl _ | with_reducible refine (Dev.setSub_keeps ..).after ?_
  clear_value a0
  repeat first
    | with_reducible assumption | with_reducible refine Dev.Keeps.ite ?_ ?_ | with_reducible refine (Dev.setF_keeps ..).after ?_
    | with_reducible refine (Dev.portSeen_keeps ..).after ?_ | with_reducible refine (Dev.incF_keeps ..).after ?_
    | with_reducible refine (Dev.svReason_keeps ..).after ?_ | with_reducible refine (Dev.subResolve_keeps ..).after ?_
    | extract_lets | split

theorem Dev.svAsdu_keeps (d : Dev) (portB : Bool) (arrival : Nat) (f : SvFrame) (a : Asdu) :
    Dev.Keeps d (Dev.svAsdu d portB arrival f a) := by
  unfold Dev.svAsdu
  repeat first
    | with_reducible exact Dev.Keeps.refl _ | with_reducible refine Dev.Keeps.ite ?_ ?_
    | with_reducible refine (Dev.incF_keeps ..).after ?_ | with_reducible refine (Dev.svAccept_keeps ..).after ?_ | extract_lets
    | split

theorem Dev.svFrame_keeps (d : Dev) (portB : Bool) (ts : Nat) (f : SvFrame) :
    Dev.Keeps d (Dev.svFrame d portB ts f) := by
  unfold Dev.svFrame
  repeat first
    | with_reducible exact Dev.Keeps.refl _ | with_reducible refine Dev.Keeps.ite ?_ ?_
    | with_reducible refine (Dev.incF_keeps ..).after ?_ | with_reducible refine (Dev.svAsdu_keeps ..).after ?_
    | with_reducible refine Dev.Keeps.fold _ _ _ ?_ (fun _ _ => ?_)

theorem Dev.svTakePart_keeps (d : Dev) (port ofs : Nat) (gap : Bool) (frame : Option (Nat × Option SvFrame)) :
    Dev.Keeps d (Dev.svTakePart d port ofs gap frame) := by
  unfold Dev.svTakePart
  extract_lets a0 a1 a2
  have h2 : Dev.Keeps d a2 := by
    unfold a2
    repeat first
      | with_reducible exact Dev.Keeps.refl _ | split
      | fail_if_no_progress with_reducible refine Dev.Keeps.mk_ ?_ rfl rfl rfl rfl rfl
  clear_value a2
  repeat first
    | with_reducible assumption | split | fail_if_no_progress with_reducible refine Dev.Keeps.mk_ ?_ rfl rfl rfl rfl rfl
    | dsimp +zetaDelta only

theorem execSvFrameReceive_keeps (portB : Bool) {s t : State} (h : execSvFrameReceive portB s = .next t) :
    Dev.Keeps s.dev t.dev := by
  refine State.up_keeps (fun d => ?_) h
  repeat first
    | with_reducible exact Dev.Keeps.refl _ | with_reducible refine Dev.Keeps.ite ?_ ?_
    | with_reducible refine (Dev.svFrame_keeps ..).after ?_ | with_reducible refine (Dev.incF_keeps ..).after ?_ | extract_lets
    | split | fail_if_no_progress with_reducible refine Dev.Keeps.mk_ ?_ rfl rfl rfl rfl rfl

theorem execSvLumpSend_keeps (i : Fin 128) {s t : State} (h : execSvLumpSend i s = .next t) :
    Dev.Keeps s.dev t.dev := by
  refine State.up_keeps (fun d => ?_) h
  extract_lets a0
  repeat first
    | with_reducible exact Dev.Keeps.refl _ | with_reducible refine Dev.Keeps.ite ?_ ?_
    | with_reducible refine (Dev.setSub_keeps ..).after ?_ | with_reducible refine (Dev.sendLump_keeps ..).after ?_
    | with_reducible refine Dev.Keeps.fold _ _ _ ?_ (fun _ _ => ?_) | extract_lets | split

theorem Dev.subTick_keeps (d : Dev) (s : Nat) (x : SvSub) :
    Dev.Keeps d (Dev.subTick d s x) := by
  unfold Dev.subTick
  repeat first
    | with_reducible exact Dev.Keeps.refl _ | with_reducible refine Dev.Keeps.ite ?_ ?_
    | with_reducible refine (Dev.setSub_keeps ..).after ?_

theorem Dev.sviTick_keeps (d : Dev) :
    Dev.Keeps d (Dev.sviTick d) := by
  unfold Dev.sviTick
  repeat first
    | with_reducible exact Dev.Keeps.refl _ | with_reducible refine (Dev.subTick_keeps ..).after ?_
    | with_reducible refine Dev.Keeps.fold _ _ _ ?_ (fun _ _ => ?_)

theorem Dev.subStart_keeps (d : Dev) (s : Nat) :
    Dev.Keeps d (Dev.subStart d s) := by
  unfold Dev.subStart
  extract_lets a0 a1 a2 a3 a4
  have h3 : Dev.Keeps d a3 := by
    unfold a3
    repeat first | with_reducible exact Dev.Keeps.refl _ | with_reducible refine (Dev.setSub_keeps ..).after ?_
  clear_value a3
  have h4 : Dev.Keeps d a4 := by
    unfold a4
    repeat first | with_reducible assumption | with_reducible refine (Dev.subState_keeps ..).after ?_
  clear_value a4
  repeat first | with_reducible assumption | with_reducible refine (Dev.setF_keeps ..).after ?_

theorem Dev.sviStart_keeps (d : Dev) :
    Dev.Keeps d (Dev.sviStart d) := by
  unfold Dev.sviStart
  repeat first
    | with_reducible exact Dev.Keeps.refl _ | with_reducible refine (Dev.subStart_keeps ..).after ?_
    | with_reducible refine Dev.Keeps.fold _ _ _ ?_ (fun _ _ => ?_)

theorem Dev.sviStep_keeps (d : Dev) :
    Dev.Keeps d (Dev.sviStep d) := by
  unfold Dev.sviStep
  repeat first
    | with_reducible exact Dev.Keeps.refl _ | with_reducible refine Dev.Keeps.ite ?_ ?_
    | with_reducible refine (Dev.subStart_keeps ..).after ?_ | with_reducible refine Dev.Keeps.fold _ _ _ ?_ (fun _ _ => ?_)

theorem Dev.svidApply_keeps (d : Dev) (s : Nat) :
    Dev.Keeps d (Dev.svidApply d s) := by
  unfold Dev.svidApply
  extract_lets a0
  repeat first | with_reducible exact Dev.Keeps.refl _ | with_reducible refine (Dev.setSub_keeps ..).after ?_

theorem Dev.subCommitted_keeps (d : Dev) (s : Nat) (cadence : Bool) :
    Dev.Keeps d (Dev.subCommitted d s cadence) := by
  unfold Dev.subCommitted
  extract_lets a0 a1
  have h1 : Dev.Keeps d a1 := by
    unfold a1
    repeat first
      | with_reducible exact Dev.Keeps.refl _ | with_reducible refine Dev.Keeps.ite ?_ ?_
      | with_reducible refine (Dev.setSub_keeps ..).after ?_
  clear_value a1
  repeat first
    | with_reducible assumption | with_reducible refine Dev.Keeps.ite ?_ ?_
    | with_reducible refine (Dev.subStart_keeps ..).after ?_

theorem Dev.svidWritten_keeps (d : Dev) (mask : Nat) :
    Dev.Keeps d (Dev.svidWritten d mask) := by
  unfold Dev.svidWritten
  extract_lets a0 a1 a2 a3 a4
  repeat first
    | with_reducible exact Dev.Keeps.refl _ | with_reducible refine (Dev.setSub_keeps ..).after ?_
    | with_reducible refine (Dev.setF_keeps ..).after ?_

end Sys2Proof.Machine
end

