-- ==== Sys2Proof/Laws/KeepsSeam.lean ====
section
/-! SUPPORT. What the operations of Machine/Seam.lean leave alone. -/
namespace Sys2Proof.Machine

theorem Dev.setSeam_keeps (d : Dev) (x : Seam) :
    Dev.Keeps d (Dev.setSeam d x) := by
  unfold Dev.setSeam
  repeat first | with_reducible exact Dev.Keeps.refl _ | fail_if_no_progress with_reducible refine Dev.Keeps.mk_ ?_ rfl rfl rfl rfl rfl

theorem Dev.setFace_keeps (d : Dev) (g : Nat) (f : Face) :
    Dev.Keeps d (Dev.setFace d g f) := by
  unfold Dev.setFace
  repeat first | with_reducible exact Dev.Keeps.refl _ | with_reducible refine (Dev.setSeam_keeps ..).after ?_

theorem Dev.setCell_keeps (d : Dev) (i copy : Nat) (c : CellSt) :
    Dev.Keeps d (Dev.setCell d i copy c) := by
  unfold Dev.setCell
  repeat first | with_reducible exact Dev.Keeps.refl _ | with_reducible refine (Dev.setSeam_keeps ..).after ?_

theorem Dev.writePoint_keeps (d : Dev) (p : PointRec) (val qual k : Nat) :
    Dev.Keeps d (Dev.writePoint d p val qual k) := by
  unfold Dev.writePoint
  extract_lets a0
  repeat first | with_reducible exact Dev.Keeps.refl _ | with_reducible refine (Dev.setSeam_keeps ..).after ?_

theorem Dev.hinWritten_keeps (d : Dev) (ix old : Nat) :
    Dev.Keeps d (Dev.hinWritten d ix old) := by
  unfold Dev.hinWritten
  extract_lets a0
  repeat first
    | with_reducible exact Dev.Keeps.refl _ | with_reducible refine Dev.Keeps.ite ?_ ?_
    | with_reducible refine (Dev.setSeam_keeps ..).after ?_

theorem Dev.unpackPoint_keeps (d : Dev) (g k t16 : Nat) (p : PointRec) : Dev.Keeps d (d.unpackPoint g k t16 p) := by
  unfold Dev.unpackPoint
  extract_lets D old put
  have hp : ∀ i, Dev.Keeps d (put i) := by
    intro i
    unfold put
    repeat first | with_reducible exact Dev.writePoint_keeps .. | split
  clear_value put
  repeat first | with_reducible exact hp _ | with_reducible exact Dev.writePoint_keeps .. | with_reducible exact Dev.Keeps.refl d | split

theorem Dev.writeOuts_keeps (d : Dev) (i copy k : Nat) (n : NodeRec) (outs : Outs) :
    Dev.Keeps d (Dev.writeOuts d i copy k n outs) := by
  unfold Dev.writeOuts
  extract_lets a0 a1
  repeat first
    | with_reducible exact Dev.Keeps.refl _ | with_reducible refine (Dev.writePoint_keeps ..).after ?_
    | with_reducible refine Dev.Keeps.fold _ _ _ ?_ (fun _ _ => ?_) | extract_lets | split

theorem Dev.runCell_keeps (d : Dev) (dom k t16 dt : Nat) (x : Nat × Nat) :
    Dev.Keeps d (Dev.runCell d dom k t16 dt x) := by
  unfold Dev.runCell
  repeat first
    | with_reducible exact Dev.Keeps.refl _ | with_reducible refine (Dev.draw_keeps ..).after ?_
    | with_reducible refine (Dev.setCell_keeps ..).after ?_ | with_reducible refine (Dev.writeOuts_keeps ..).after ?_ | split

theorem Dev.faceBit_keeps (d : Dev) (lo hi : Fld) (g : Nat) :
    Dev.Keeps d (Dev.faceBit d lo hi g) := by
  unfold Dev.faceBit
  repeat first
    | with_reducible exact Dev.Keeps.refl _ | with_reducible refine Dev.Keeps.ite ?_ ?_
    | with_reducible refine (Dev.setBit_keeps ..).after ?_

theorem Dev.overrun_keeps (d : Dev) (g k cycles : Nat) (halted : Bool) :
    Dev.Keeps d (Dev.overrun d g k cycles halted) := by
  unfold Dev.overrun
  extract_lets a0 a1 a2
  have h0 : Dev.Keeps d a0 := by
    unfold a0
    repeat first
      | with_reducible exact Dev.Keeps.refl _ | with_reducible refine (Dev.faceBit_keeps ..).after ?_
      | with_reducible refine (Dev.setF_keeps ..).after ?_
  clear_value a0
  have h1 : Dev.Keeps d a1 := by
    unfold a1
    repeat first
      | with_reducible assumption | with_reducible refine (Dev.flag_keeps ..).after ?_
      | with_reducible refine (Dev.trouble_keeps ..).after ?_
  clear_value a1
  have h2 : Dev.Keeps d a2 := by
    unfold a2
    repeat first | with_reducible assumption | with_reducible refine (Dev.record_keeps ..).after ?_
  clear_value a2
  repeat first
    | with_reducible assumption | with_reducible refine (Dev.setB_keeps ..).after ?_
    | with_reducible refine (Dev.degradedCause_keeps ..).after ?_

theorem Dev.setSched_keeps (d : Dev) (pit : Nat) (l : List Sched) :
    Dev.Keeps d (Dev.setSched d pit l) := by
  unfold Dev.setSched
  repeat first | with_reducible exact Dev.Keeps.refl _ | with_reducible refine (Dev.setSeam_keeps ..).after ?_

theorem Dev.sendOn_keeps (d : Dev) (g on driven : Nat) (merge : Bool) :
    Dev.Keeps d (Dev.sendOn d g on driven merge) := by
  unfold Dev.sendOn
  extract_lets a0 a1 a2 a3 a4 a5
  have h3 : Dev.Keeps d a3 := by
    unfold a3
    repeat first | with_reducible exact Dev.Keeps.refl _ | with_reducible refine (Dev.setSched_keeps ..).after ?_
  clear_value a3
  repeat first
    | with_reducible assumption | with_reducible refine (Dev.setSeam_keeps ..).after ?_
    | with_reducible refine (Dev.setSkip_keeps ..).after ?_ | with_reducible refine (Dev.sendLump_keeps ..).after ?_ | split

theorem Dev.sendImage_keeps (d : Dev) (g : Nat) (atOnce : List (Nat × Bool)) :
    Dev.Keeps d (Dev.sendImage d g atOnce) := by
  unfold Dev.sendImage
  extract_lets a0
  repeat first | with_reducible exact Dev.Keeps.refl _ | with_reducible refine (Dev.sendOn_keeps ..).after ?_

theorem Dev.sendHalted_keeps (d : Dev) (g : Nat) :
    Dev.Keeps d (Dev.sendHalted d g) := by
  unfold Dev.sendHalted
  extract_lets a0 a1
  repeat first | with_reducible exact Dev.Keeps.refl _ | with_reducible refine (Dev.sendOn_keeps ..).after ?_

theorem Dev.schedule_keeps (d : Dev) (g : Nat) (req : List Sched) :
    Dev.Keeps d (Dev.schedule d g req).1 := by
  unfold Dev.schedule
  extract_lets a0
  repeat first
    | with_reducible exact Dev.Keeps.refl _ | with_reducible refine (Dev.setSched_keeps ..).after ?_
    | with_reducible refine (Dev.flag_keeps ..).after ?_ | with_reducible refine (Dev.record_keeps ..).after ?_
    | with_reducible refine Dev.Keeps.foldp _ _ _ ?_ (fun _ _ => ?_) | extract_lets | split

theorem Dev.schedule_keeps_eq (d : Dev) (g : Nat) (req : List Sched) {y : Dev} {z : List (Nat × Bool)} (h : Dev.schedule d g req = (y, z)) : Dev.Keeps d y := by
  have := Dev.schedule_keeps d g req
  rw [h] at this
  exact this

theorem Dev.sendPoints_keeps (d : Dev) (g dom k : Nat) :
    Dev.Keeps d (Dev.sendPoints d g dom k) := by
  unfold Dev.sendPoints
  extract_lets a0
  repeat first
    | with_reducible exact Dev.Keeps.refl _ | with_reducible refine (Dev.sendLump_keeps ..).after ?_
    | with_reducible refine Dev.Keeps.fold _ _ _ ?_ (fun _ _ => ?_)

theorem Dev.duplexStep_keeps (d : Dev) (g k i : Nat) :
    Dev.Keeps d (Dev.duplexStep d g k i) := by
  unfold Dev.duplexStep
  extract_lets a0 a1 a2 a3 a4 a5
  repeat first
    | with_reducible exact Dev.Keeps.refl _ | with_reducible refine Dev.Keeps.ite ?_ ?_
    | with_reducible refine (Dev.setSeam_keeps ..).after ?_ | with_reducible refine (Dev.incF_keeps ..).after ?_
    | with_reducible refine (Dev.setF_keeps ..).after ?_ | with_reducible refine (Dev.flag_keeps ..).after ?_
    | with_reducible refine (Dev.trouble_keeps ..).after ?_ | with_reducible refine (Dev.record_keeps ..).after ?_
    | with_reducible refine (Dev.setB_keeps ..).after ?_ | with_reducible refine (Dev.degradedCause_keeps ..).after ?_

theorem Dev.takeCopy_keeps (d : Dev) (x : Nat × Nat) :
    Dev.Keeps d (Dev.takeCopy d x) := by
  unfold Dev.takeCopy
  extract_lets a0
  repeat first
    | with_reducible exact Dev.Keeps.refl _ | with_reducible refine (Dev.setSeam_keeps ..).after ?_
    | with_reducible refine (Dev.setCell_keeps ..).after ?_ | with_reducible refine Dev.Keeps.fold _ _ _ ?_ (fun _ _ => ?_)
    | extract_lets | split

theorem Dev.takeFrom_keeps (d : Dev) (g h : Nat) :
    Dev.Keeps d (Dev.takeFrom d g h) := by
  unfold Dev.takeFrom
  repeat first
    | with_reducible exact Dev.Keeps.refl _ | with_reducible refine Dev.Keeps.ite ?_ ?_
    | with_reducible refine (Dev.takeCopy_keeps ..).after ?_ | with_reducible refine Dev.Keeps.fold _ _ _ ?_ (fun _ _ => ?_)

theorem Dev.handOver_keeps (d : Dev) (h : Nat) :
    Dev.Keeps d (Dev.handOver d h) := by
  unfold Dev.handOver
  repeat first
    | with_reducible exact Dev.Keeps.refl _ | with_reducible refine Dev.Keeps.ite ?_ ?_
    | with_reducible refine (Dev.takeFrom_keeps ..).after ?_ | with_reducible refine Dev.Keeps.fold _ _ _ ?_ (fun _ _ => ?_)

theorem Dev.groupRequest_keeps (d : Dev) (g cause : Nat) :
    Dev.Keeps d (Dev.groupRequest d g cause) := by
  unfold Dev.groupRequest
  repeat first
    | with_reducible exact Dev.Keeps.refl _ | with_reducible refine Dev.Keeps.ite ?_ ?_
    | with_reducible refine (Dev.flag_keeps ..).after ?_ | with_reducible refine (Dev.setSeam_keeps ..).after ?_
    | with_reducible refine (Dev.setF_keeps ..).after ?_

theorem Dev.groupPending_keeps (d : Dev) :
    Dev.Keeps d (Dev.groupPending d) := by
  unfold Dev.groupPending
  repeat first
    | with_reducible exact Dev.Keeps.refl _ | with_reducible refine Dev.Keeps.ite ?_ ?_
    | with_reducible refine (Dev.setSeam_keeps ..).after ?_ | with_reducible refine (Dev.setF_keeps ..).after ?_
    | with_reducible refine (Dev.groupRequest_keeps ..).after ?_ | extract_lets | split

theorem execGroupSwitchRequest_keeps (g : Fin 8) (selector : Bool) {s t : State} (h : execGroupSwitchRequest g selector s = .next t) :
    Dev.Keeps s.dev t.dev := by
  refine State.up_keeps (fun d => ?_) h
  repeat first | with_reducible exact Dev.Keeps.refl _ | with_reducible refine (Dev.groupRequest_keeps ..).after ?_

theorem execGroupSwitchComplete_keeps {s t : State} (h : execGroupSwitchComplete s = .next t) :
    Dev.Keeps s.dev t.dev := by
  refine State.up_keeps (fun d => ?_) h
  repeat first
    | with_reducible exact Dev.Keeps.refl _ | with_reducible refine Dev.Keeps.ite ?_ ?_
    | with_reducible refine (Dev.setSeam_keeps ..).after ?_ | with_reducible refine (Dev.setF_keeps ..).after ?_
    | with_reducible refine (Dev.incWrap_keeps ..).after ?_ | with_reducible refine (Dev.fire_keeps ..).after ?_
    | with_reducible refine (Dev.record_keeps ..).after ?_ | with_reducible refine (Dev.groupPending_keeps ..).after ?_
    | extract_lets | split

theorem Dev.stepCycles_keeps (d : Dev) (g cycles : Nat) :
    Dev.Keeps d (Dev.stepCycles d g cycles) := by
  unfold Dev.stepCycles
  repeat first | with_reducible exact Dev.Keeps.refl _ | with_reducible refine (Dev.setF_keeps ..).after ?_

theorem Dev.faceStep_keeps (d : Dev) (g cycles : Nat) (req : List Sched) :
    Dev.Keeps d (Dev.faceStep d g cycles req) := by
  unfold Dev.faceStep
  extract_lets a0 a1 a2 a3 a4 a5 a6 a7 a8 a9 a10 a11 a12 a13 a14 a15 a16 a17 a18 a19
  have h7 : Dev.Keeps d a7 := by
    unfold a7
    repeat first
      | with_reducible exact Dev.Keeps.refl _ | with_reducible refine (Dev.unpackPoint_keeps ..).after ?_
      | with_reducible refine Dev.Keeps.fold _ _ _ ?_ (fun _ _ => ?_)
  clear_value a7
  have h8 : Dev.Keeps d a8 := by
    unfold a8
    repeat first
      | with_reducible assumption | with_reducible exact Dev.Keeps.refl _ | with_reducible refine (Dev.runCell_keeps ..).after ?_
      | with_reducible refine Dev.Keeps.fold _ _ _ ?_ (fun _ _ => ?_)
  clear_value a8
  have h11 : Dev.Keeps d a11 := by
    unfold a11
    repeat first | with_reducible assumption | with_reducible refine (Dev.setFace_keeps ..).after ?_
  clear_value a11
  have h12 : Dev.Keeps d a12 := by
    unfold a12
    repeat first | with_reducible assumption | with_reducible refine (Dev.setF_keeps ..).after ?_
  clear_value a12
  have h13 : Dev.Keeps d a13 := by
    unfold a13
    repeat first | with_reducible assumption | with_reducible refine (Dev.stepCycles_keeps ..).after ?_
  clear_value a13
  have h14 : Dev.Keeps d a14 := by
    unfold a14
    repeat first
      | with_reducible assumption | with_reducible refine Dev.Keeps.ite ?_ ?_
      | with_reducible refine (Dev.overrun_keeps ..).after ?_
  clear_value a14
  have h16 : Dev.Keeps d a16 := by
    unfold a16
    repeat first
      | with_reducible assumption | with_reducible refine Dev.Keeps.ite ?_ ?_
      | with_reducible refine (Dev.schedule_keeps ..).after ?_ | with_reducible refine (Dev.sendImage_keeps ..).after ?_
  clear_value a16
  have h17 : Dev.Keeps d a17 := by
    unfold a17
    repeat first | with_reducible assumption | with_reducible refine (Dev.sendPoints_keeps ..).after ?_
  clear_value a17
  have h18 : Dev.Keeps d a18 := by
    unfold a18
    repeat first
      | with_reducible assumption | with_reducible exact Dev.Keeps.refl _
      | with_reducible refine (Dev.duplexStep_keeps ..).after ?_ | with_reducible refine (Dev.handOver_keeps ..).after ?_
      | with_reducible refine Dev.Keeps.fold _ _ _ ?_ (fun _ _ => ?_)
  clear_value a18
  have h19 : Dev.Keeps d a19 := by
    unfold a19
    repeat first
      | with_reducible assumption | with_reducible exact Dev.Keeps.refl _ | with_reducible refine Dev.Keeps.ite ?_ ?_
      | with_reducible refine (Dev.fire_keeps ..).after ?_ | with_reducible refine Dev.Keeps.fold _ _ _ ?_ (fun _ _ => ?_)
  clear_value a19
  repeat first | with_reducible assumption | with_reducible refine (Dev.groupPending_keeps ..).after ?_

theorem execDuplexRestart_keeps (g : Fin 256) {s t : State} (h : execDuplexRestart g s = .next t) :
    Dev.Keeps s.dev t.dev := by
  refine State.up_keeps (fun d => ?_) h
  extract_lets a0 a1
  repeat first
    | with_reducible exact Dev.Keeps.refl _ | with_reducible refine Dev.Keeps.ite ?_ ?_
    | with_reducible refine (Dev.setFace_keeps ..).after ?_ | with_reducible refine (Dev.setSeam_keeps ..).after ?_
    | with_reducible refine Dev.Keeps.fold _ _ _ ?_ (fun _ _ => ?_)

theorem Dev.pointLatch_keeps (d : Dev) (req : Requester) :
    Dev.Keeps d (Dev.pointLatch d req) := by
  unfold Dev.pointLatch
  extract_lets a0 a1 a2 a3 a4 a5
  have h4 : Dev.Keeps d a4 := by
    unfold a4
    repeat first | with_reducible exact Dev.Keeps.refl _ | with_reducible refine (Dev.setF_keeps ..).after ?_
  clear_value a4
  have h5 : Dev.Keeps d a5 := by
    unfold a5
    repeat first
      | with_reducible assumption | with_reducible refine (Dev.setF_keeps ..).after ?_
      | with_reducible refine (Dev.setB_keeps ..).after ?_
  clear_value a5
  repeat first | with_reducible assumption | with_reducible refine (Dev.setF_keeps ..).after ?_

theorem Dev.refreshOuts_keeps (d : Dev) (node copy g : Nat) (outs : Outs) :
    Dev.Keeps d (Dev.refreshOuts d node copy g outs) := by
  unfold Dev.refreshOuts
  repeat first | with_reducible exact Dev.Keeps.refl _ | with_reducible refine (Dev.writeOuts_keeps ..).after ?_ | split

theorem execEnergyBooking_keeps (node : BitVec 20) {s t : State} (h : execEnergyBooking node s = .next t) :
    Dev.Keeps s.dev t.dev := by
  refine State.up_keeps (fun d => ?_) h
  repeat first
    | with_reducible exact Dev.Keeps.refl _ | with_reducible refine Dev.Keeps.ite ?_ ?_
    | with_reducible refine (Dev.setCell_keeps ..).after ?_ | with_reducible refine (Dev.refreshOuts_keeps ..).after ?_
    | with_reducible refine Dev.Keeps.fold _ _ _ ?_ (fun _ _ => ?_)

theorem execBalanceIntervalClose_keeps (node : BitVec 20) {s t : State} (h : execBalanceIntervalClose node s = .next t) :
    Dev.Keeps s.dev t.dev := by
  refine State.up_keeps (fun d => ?_) h
  repeat first
    | with_reducible exact Dev.Keeps.refl _ | with_reducible refine Dev.Keeps.ite ?_ ?_
    | with_reducible refine (Dev.setCell_keeps ..).after ?_ | with_reducible refine Dev.Keeps.fold _ _ _ ?_ (fun _ _ => ?_)

theorem execBalanceReportDelivery_keeps {s t : State} (h : execBalanceReportDelivery s = .next t) :
    Dev.Keeps s.dev t.dev := by
  refine State.up_keeps (fun d => ?_) h
  repeat first
    | with_reducible exact Dev.Keeps.refl _ | with_reducible refine Dev.Keeps.ite ?_ ?_
    | with_reducible refine (Dev.setSeam_keeps ..).after ?_ | with_reducible refine (Dev.setCell_keeps ..).after ?_
    | with_reducible refine (Dev.refreshOuts_keeps ..).after ?_ | with_reducible refine Dev.Keeps.fold _ _ _ ?_ (fun _ _ => ?_)
    | extract_lets | split

theorem execBalanceJudge_keeps (node : BitVec 20) {s t : State} (h : execBalanceJudge node s = .next t) :
    Dev.Keeps s.dev t.dev := by
  refine State.up_keeps (fun d => ?_) h
  repeat first
    | with_reducible exact Dev.Keeps.refl _ | with_reducible refine Dev.Keeps.ite ?_ ?_
    | with_reducible refine (Dev.setCell_keeps ..).after ?_ | with_reducible refine (Dev.refreshOuts_keeps ..).after ?_
    | with_reducible refine (Dev.record_keeps ..).after ?_ | with_reducible refine Dev.Keeps.fold _ _ _ ?_ (fun _ _ => ?_)
    | extract_lets | split

theorem Dev.balanceStep_keeps (d : Dev) :
    Dev.Keeps d (Dev.balanceStep d) := by
  unfold Dev.balanceStep
  repeat first
    | with_reducible exact Dev.Keeps.refl _ | with_reducible refine (Dev.setCell_keeps ..).after ?_
    | with_reducible refine Dev.Keeps.fold _ _ _ ?_ (fun _ _ => ?_)

theorem Dev.waitAgain_keeps (d : Dev) (key : Nat) (t : Tag) (k : Nat) :
    Dev.Keeps d (Dev.waitAgain d key t k) := by
  unfold Dev.waitAgain
  repeat first
    | with_reducible exact Dev.Keeps.refl _ | with_reducible refine Dev.Keeps.ite ?_ ?_
    | with_reducible refine (Dev.setSeam_keeps ..).after ?_

theorem Dev.seamWords_keeps (d : Dev) (pit : Nat) (t : Tag) (native : Bool) (k arr : Nat) (w : List Word) :
    Dev.Keeps d (Dev.seamWords d pit t native k arr w) := by
  unfold Dev.seamWords
  extract_lets a0 a1
  have h1 : Dev.Keeps d a1 := by
    unfold a1
    repeat first | with_reducible exact Dev.Keeps.refl _ | with_reducible refine (Dev.waitAgain_keeps ..).after ?_
  clear_value a1
  repeat first
    | with_reducible assumption | with_reducible refine Dev.Keeps.ite ?_ ?_ | with_reducible refine (Dev.incF_keeps ..).after ?_
    | with_reducible refine (Dev.setSeam_keeps ..).after ?_

theorem Dev.seamTwu_keeps (d : Dev) (pit : Nat) (t : Tag) (kind g flags evseq arr arrCal value : Nat) :
    Dev.Keeps d (Dev.seamTwu d pit t kind g flags evseq arr arrCal value) := by
  unfold Dev.seamTwu
  extract_lets a0 a1
  repeat first
    | with_reducible exact Dev.Keeps.refl _ | with_reducible refine Dev.Keeps.ite ?_ ?_
    | with_reducible refine (Dev.setSeam_keeps ..).after ?_

theorem Dev.seamLump_keeps (d : Dev) (n : Nat) (l : Lump) :
    Dev.Keeps d (Dev.seamLump d n l) := by
  unfold Dev.seamLump
  extract_lets a0
  repeat first
    | with_reducible exact Dev.Keeps.refl _ | with_reducible refine (Dev.seamWords_keeps ..).after ?_
    | with_reducible refine (Dev.seamTwu_keeps ..).after ?_ | split

end Sys2Proof.Machine
end

