-- ==== Sys2Proof/Laws/KeepsTwu.lean ====
section
/-! SUPPORT. What the operations of Machine/Twu.lean leave alone. -/
namespace Sys2Proof.Machine

theorem Dev.setGrp_keeps (d : Dev) (g : Nat) (x : TwGrp) :
    Dev.Keeps d (Dev.setGrp d g x) := by
  unfold Dev.setGrp
  repeat first
    | with_reducible exact Dev.Keeps.refl _ | extract_lets
    | fail_if_no_progress with_reducible refine Dev.Keeps.mk_ ?_ rfl rfl rfl rfl rfl

theorem Dev.sendTwu_keeps (d : Dev) (g pits kind status value : Nat) (e : TwEv) :
    Dev.Keeps d (Dev.sendTwu d g pits kind status value e) := by
  unfold Dev.sendTwu
  repeat first
    | with_reducible exact Dev.Keeps.refl _ | with_reducible refine (Dev.sendLump_keeps ..).after ?_
    | with_reducible refine Dev.Keeps.fold _ _ _ ?_ (fun _ _ => ?_) | split

theorem Dev.doubleEnded_keeps (d : Dev) (g : Nat) (e : TwEv) (tb : Nat) (farLocked : Bool) :
    Dev.Keeps d (Dev.doubleEnded d g e tb farLocked) := by
  unfold Dev.doubleEnded
  extract_lets a0 a1 a2 a3 a4 a5 a6
  have h4 : Dev.Keeps d a4 := by
    unfold a4
    repeat first | with_reducible exact Dev.Keeps.refl _ | with_reducible refine (Dev.setF_keeps ..).after ?_
  clear_value a4
  have h5 : Dev.Keeps d a5 := by
    unfold a5
    repeat first | with_reducible assumption | with_reducible refine (Dev.flag_keeps ..).after ?_
  clear_value a5
  have h6 : Dev.Keeps d a6 := by
    unfold a6
    repeat first | with_reducible assumption | with_reducible refine (Dev.sendTwu_keeps ..).after ?_
  clear_value a6
  repeat first | with_reducible assumption | with_reducible refine (Dev.record_keeps ..).after ?_

theorem Dev.farMatch_keeps (d : Dev) (g tb : Nat) (farLocked : Bool) {y : Dev} (h : d.farMatch g tb farLocked = some y) : Dev.Keeps d y := by
  unfold Dev.farMatch at h
  split at h
  · cases h
  · split at h
    · cases h
      exact Dev.incF_keeps ..
    · cases h
      exact (Dev.doubleEnded_keeps ..).after (Dev.setGrp_keeps ..)

theorem Dev.farExpire_keeps (d : Dev) (g : Nat) :
    Dev.Keeps d (Dev.farExpire d g) := by
  unfold Dev.farExpire
  repeat first
    | with_reducible exact Dev.Keeps.refl _ | with_reducible refine Dev.Keeps.ite ?_ ?_
    | with_reducible refine (Dev.setGrp_keeps ..).after ?_ | with_reducible refine (Dev.incF_keeps ..).after ?_ | extract_lets
    | split

theorem Dev.farSubmit_keeps (d : Dev) : Dev.Keeps d d.farSubmit := by
  unfold Dev.farSubmit
  extract_lets g tb locked
  split
  · exact .refl d
  · split
    · exact Dev.incF_keeps ..
    · split
      · next h => exact Dev.farMatch_keeps _ _ _ _ h
      · exact (Dev.setGrp_keeps ..).after (.ite (Dev.incF_keeps ..) (.refl d))

theorem execFarArrivalExpire_keeps (g : Fin 4) {s t : State} (h : execFarArrivalExpire g s = .next t) :
    Dev.Keeps s.dev t.dev := by
  refine State.up_keeps (fun d => ?_) h
  repeat first
    | with_reducible exact Dev.Keeps.refl _ | with_reducible refine Dev.Keeps.ite ?_ ?_
    | with_reducible refine (Dev.farExpire_keeps ..).after ?_

theorem Dev.grpTake_keeps (d : Dev) (g : Nat) :
    Dev.Keeps d (Dev.grpTake d g) := by
  unfold Dev.grpTake
  extract_lets a0
  repeat first
    | with_reducible exact Dev.Keeps.refl _ | with_reducible refine Dev.Keeps.ite ?_ ?_
    | with_reducible refine (Dev.setGrp_keeps ..).after ?_ | with_reducible refine (Dev.setB_keeps ..).after ?_

theorem Dev.closeEvent_keeps (d : Dev) (g : Nat) (aborted : Bool) :
    Dev.Keeps d (Dev.closeEvent d g aborted) := by
  unfold Dev.closeEvent
  extract_lets a0
  repeat first
    | with_reducible exact Dev.Keeps.refl _ | with_reducible refine Dev.Keeps.ite ?_ ?_
    | with_reducible refine (Dev.setGrp_keeps ..).after ?_ | with_reducible refine (Dev.setF_keeps ..).after ?_
    | with_reducible refine (Dev.flag_keeps ..).after ?_ | with_reducible refine (Dev.sendTwu_keeps ..).after ?_
    | with_reducible refine (Dev.record_keeps ..).after ?_ | with_reducible refine (Dev.grpTake_keeps ..).after ?_ | split

theorem Dev.arrival_keeps (d : Dev) (g k0 : Nat) (a : TwArr) (signal : Dev → Nat → Nat → Dev)
    (hs : ∀ d a b, Dev.Keeps d (signal d a b)) : Dev.Keeps d (d.arrival g k0 a signal) := by
  unfold Dev.arrival
  extract_lets x blind clip
  have hc : ∀ d, Dev.Keeps d (clip d) := fun d => .ite (Dev.setF_keeps ..) (.refl d)
  clear_value clip
  split
  · exact .ite (.refl d) ((hs ..).after ((Dev.setGrp_keeps ..).after (hc d)))
  · rename_i t e d1 d2 d3 d4 d5 _ _
    have h5 : Dev.Keeps d d5 :=
      (Dev.farExpire_keeps ..).after ((hs ..).after ((Dev.sendTwu_keeps ..).after ((Dev.flag_keeps ..).after ((Dev.setF_keeps ..).after
        ((Dev.incF_keeps ..).after ((Dev.setF_keeps ..).after ((Dev.setGrp_keeps ..).after (hc d))))))))
    clear_value d5
    split
    · split
      · next h => exact (Dev.setGrp_keeps ..).after ((Dev.farMatch_keeps _ _ _ _ h).after h5)
      · exact h5
    · exact h5

theorem Dev.detect_keeps (d : Dev) (g k0 u : Nat) (signal : Dev → Nat → Nat → Dev) (hs : ∀ d a b, Dev.Keeps d (signal d a b)) :
    Dev.Keeps d (Dev.detect d g k0 u signal) := by
  unfold Dev.detect
  extract_lets a0 a1 a2
  repeat first
    | with_reducible exact Dev.Keeps.refl _ | with_reducible refine Dev.Keeps.ite ?_ ?_
    | with_reducible refine (Dev.arrival_keeps (hs := hs) ..).after ?_ | extract_lets | split

theorem Dev.grpSample_keeps (d : Dev) (g k u : Nat) (codes : Option (BitVec 16 × BitVec 16 × BitVec 16)) (signal : Dev → Nat → Nat → Dev) (hs : ∀ d a b, Dev.Keeps d (signal d a b)) :
    Dev.Keeps d (Dev.grpSample d g k u codes signal) := by
  unfold Dev.grpSample
  extract_lets a0 a1
  have h0 : Dev.Keeps d a0 := by
    unfold a0
    repeat first | with_reducible exact Dev.Keeps.refl _ | with_reducible refine (Dev.grpTake_keeps ..).after ?_
  clear_value a0
  repeat first
    | with_reducible assumption | with_reducible refine Dev.Keeps.ite ?_ ?_ | with_reducible refine (Dev.setGrp_keeps ..).after ?_
    | with_reducible refine (Dev.closeEvent_keeps ..).after ?_ | with_reducible refine (Dev.setF_keeps ..).after ?_
    | with_reducible refine (Dev.detect_keeps (hs := hs) ..).after ?_ | split

theorem Dev.grpRun_keeps (g : Nat) (signal : Dev → Nat → Nat → Dev) (hs : ∀ d a b, Dev.Keeps d (signal d a b)) (n : Nat) (d : Dev) :
    Dev.Keeps d (Dev.grpRun g signal n d) := by
  induction n generalizing d with
  | zero => exact .refl d
  | succ n ih =>
    unfold Dev.grpRun
    repeat first
      | with_reducible refine (ih ..).after ?_ | with_reducible exact Dev.Keeps.refl _ | with_reducible refine Dev.Keeps.ite ?_ ?_
      | with_reducible refine (Dev.grpSample_keeps (hs := hs) ..).after ?_ | extract_lets | split

theorem Dev.twuHeader_keeps (d : Dev) (h : RawHeader) (lumpGap : Bool) :
    Dev.Keeps d (Dev.twuHeader d h lumpGap) := by
  unfold Dev.twuHeader
  extract_lets a0
  repeat first
    | with_reducible exact Dev.Keeps.refl _ | with_reducible refine Dev.Keeps.ite ?_ ?_
    | with_reducible refine (Dev.setGrp_keeps ..).after ?_ | with_reducible refine (Dev.closeEvent_keeps ..).after ?_
    | with_reducible refine (Dev.setF_keeps ..).after ?_ | with_reducible refine Dev.Keeps.fold _ _ _ ?_ (fun _ _ => ?_)
    | extract_lets | fail_if_no_progress with_reducible refine Dev.Keeps.mk_ ?_ rfl rfl rfl rfl rfl

theorem Dev.twuSamples_keeps (d : Dev) (c first : Nat) (codes : List (BitVec 16)) (signal : Dev → Nat → Nat → Dev) (hs : ∀ d a b, Dev.Keeps d (signal d a b)) :
    Dev.Keeps d (Dev.twuSamples d c first codes signal) := by
  unfold Dev.twuSamples
  repeat first
    | with_reducible exact Dev.Keeps.refl _ | with_reducible refine Dev.Keeps.ite ?_ ?_
    | with_reducible refine (Dev.grpTake_keeps ..).after ?_ | with_reducible refine (Dev.grpRun_keeps (hs := hs) ..).after ?_
    | with_reducible refine Dev.Keeps.fold _ _ _ ?_ (fun _ _ => ?_) | extract_lets
    | fail_if_no_progress with_reducible refine Dev.Keeps.mk_ ?_ rfl rfl rfl rfl rfl

theorem execTwEventClose_keeps (g : Fin 4) {s t : State} (h : execTwEventClose g s = .next t) :
    Dev.Keeps s.dev t.dev := by
  refine State.up_keeps (fun d => ?_) h
  extract_lets a0
  repeat first
    | with_reducible exact Dev.Keeps.refl _ | with_reducible refine Dev.Keeps.ite ?_ ?_
    | with_reducible refine (Dev.closeEvent_keeps ..).after ?_ | split

theorem Dev.grpCommitted_keeps (d : Dev) (g : Nat) :
    Dev.Keeps d (Dev.grpCommitted d g) := by
  unfold Dev.grpCommitted
  repeat first
    | with_reducible exact Dev.Keeps.refl _ | with_reducible refine (Dev.setGrp_keeps ..).after ?_
    | with_reducible refine (Dev.grpTake_keeps ..).after ?_

theorem Dev.twuHalfLost_keeps (d : Dev) (h : Half) :
    Dev.Keeps d (Dev.twuHalfLost d h) := by
  unfold Dev.twuHalfLost
  repeat first
    | with_reducible exact Dev.Keeps.refl _ | with_reducible refine Dev.Keeps.ite ?_ ?_
    | with_reducible refine (Dev.closeEvent_keeps ..).after ?_ | with_reducible refine (Dev.setGrp_keeps ..).after ?_
    | with_reducible refine (Dev.setF_keeps ..).after ?_ | with_reducible refine Dev.Keeps.fold _ _ _ ?_ (fun _ _ => ?_)
    | extract_lets | fail_if_no_progress with_reducible refine Dev.Keeps.mk_ ?_ rfl rfl rfl rfl rfl

theorem Dev.twuHalfBack_keeps (d : Dev) (h : Half) :
    Dev.Keeps d (Dev.twuHalfBack d h) := by
  unfold Dev.twuHalfBack
  repeat first
    | with_reducible exact Dev.Keeps.refl _ | with_reducible refine Dev.Keeps.ite ?_ ?_
    | with_reducible refine (Dev.setF_keeps ..).after ?_ | with_reducible refine Dev.Keeps.fold _ _ _ ?_ (fun _ _ => ?_)

end Sys2Proof.Machine
end

