-- ==== Sys2Proof/Laws/KeepsFio.lean ====
section
/-! SUPPORT. What the operations of Machine/Fio.lean leave alone. -/
namespace Sys2Proof.Machine

theorem Dev.setBank_keeps (d : Dev) (n : Nat) (b : Bank) :
    Dev.Keeps d (Dev.setBank d n b) := by
  unfold Dev.setBank
  repeat first
    | with_reducible exact Dev.Keeps.refl _ | extract_lets
    | fail_if_no_progress with_reducible refine Dev.Keeps.mk_ ?_ rfl rfl rfl rfl rfl

theorem Dev.setField_keeps (d : Dev) (n : Nat) (f : Field) :
    Dev.Keeps d (Dev.setField d n f) := by
  unfold Dev.setField
  repeat first | with_reducible exact Dev.Keeps.refl _ | fail_if_no_progress with_reducible refine Dev.Keeps.mk_ ?_ rfl rfl rfl rfl rfl

theorem Dev.updateCanary_keeps (d : Dev) :
    Dev.Keeps d (Dev.updateCanary d) := by
  unfold Dev.updateCanary
  extract_lets a0
  repeat first
    | with_reducible exact Dev.Keeps.refl _ | with_reducible refine Dev.Keeps.ite ?_ ?_
    | with_reducible refine (Dev.setB_keeps ..).after ?_ | with_reducible refine (Dev.record_keeps ..).after ?_ | extract_lets
    | fail_if_no_progress with_reducible refine Dev.Keeps.mk_ ?_ rfl rfl rfl rfl rfl

theorem Dev.showCanary_keeps (d : Dev) :
    Dev.Keeps d (Dev.showCanary d) := by
  unfold Dev.showCanary
  extract_lets a0
  repeat first
    | with_reducible exact Dev.Keeps.refl _ | with_reducible refine Dev.Keeps.ite ?_ ?_
    | with_reducible refine (Dev.setB_keeps ..).after ?_ | with_reducible refine (Dev.trouble_keeps ..).after ?_ | extract_lets
    | split | dsimp +zetaDelta only

theorem Dev.canaryOutput_keeps (d : Dev) (c : Nat) :
    Dev.Keeps d (Dev.canaryOutput d c) := by
  unfold Dev.canaryOutput
  repeat first
    | with_reducible exact Dev.Keeps.refl _ | extract_lets | split
    | fail_if_no_progress with_reducible refine Dev.Keeps.mk_ ?_ rfl rfl rfl rfl rfl

theorem execCanaryOperate_keeps (e : Fin 16) {s t : State} (h : execCanaryOperate e s = .next t) :
    Dev.Keeps s.dev t.dev := by
  refine State.up_keeps (fun d => ?_) h
  repeat first
    | with_reducible exact Dev.Keeps.refl _ | with_reducible refine Dev.Keeps.ite ?_ ?_
    | with_reducible refine (Dev.flag_keeps ..).after ?_ | with_reducible refine (Dev.record_keeps ..).after ?_ | extract_lets
    | split | fail_if_no_progress with_reducible refine Dev.Keeps.mk_ ?_ rfl rfl rfl rfl rfl

theorem execCanaryHoldExpire_keeps (e : Fin 16) {s t : State} (h : execCanaryHoldExpire e s = .next t) :
    Dev.Keeps s.dev t.dev := by
  refine State.up_keeps (fun d => ?_) h
  repeat first
    | with_reducible exact Dev.Keeps.refl _ | with_reducible refine Dev.Keeps.ite ?_ ?_ | extract_lets | split
    | fail_if_no_progress with_reducible refine Dev.Keeps.mk_ ?_ rfl rfl rfl rfl rfl

theorem Dev.powDone_keeps (d : Dev) (p : Pow) (late : Bool) :
    Dev.Keeps d (Dev.powDone d p late) := by
  unfold Dev.powDone
  extract_lets a0 a1 a2 a3
  have h2 : Dev.Keeps d a2 := by
    unfold a2
    repeat first | with_reducible exact Dev.Keeps.refl _ | fail_if_no_progress with_reducible refine Dev.Keeps.mk_ ?_ rfl rfl rfl rfl rfl
  clear_value a2
  have h3 : Dev.Keeps d a3 := by
    unfold a3
    repeat first | with_reducible assumption | with_reducible refine (Dev.incF_keeps ..).after ?_
  clear_value a3
  repeat first
    | with_reducible assumption | with_reducible refine Dev.Keeps.ite ?_ ?_ | with_reducible refine (Dev.setF_keeps ..).after ?_
    | with_reducible refine (Dev.requestRecord_keeps ..).after ?_

theorem execDownlinkFrame_keeps (n : Fin 4) {s t : State} (h : execDownlinkFrame n s = .next t) :
    Dev.Keeps s.dev t.dev := by
  refine State.up_keeps (fun d => ?_) h
  repeat first
    | with_reducible exact Dev.Keeps.refl _ | with_reducible refine Dev.Keeps.ite ?_ ?_
    | with_reducible refine (Dev.setBank_keeps ..).after ?_ | with_reducible refine (Dev.setF_keeps ..).after ?_
    | with_reducible refine (Dev.powDone_keeps ..).after ?_ | extract_lets | split | dsimp +zetaDelta only

theorem Dev.fieldTick_sound (d : Dev) :
    Dev.Sound d (Dev.fieldTick d) := by
  unfold Dev.fieldTick
  repeat first | with_reducible exact Dev.Sound.refl _ | fail_if_no_progress with_reducible refine Dev.Sound.mk_ ?_ rfl rfl rfl rfl

theorem Dev.downlink_keeps (d : Dev) (n : Nat) (err : BitVec 80) :
    Dev.Keeps d (Dev.downlink d n err) := by
  unfold Dev.downlink
  repeat first
    | with_reducible exact Dev.Keeps.refl _ | with_reducible refine Dev.Keeps.ite ?_ ?_
    | with_reducible refine (Dev.setBank_keeps ..).after ?_ | with_reducible refine (Dev.setField_keeps ..).after ?_
    | with_reducible refine (Dev.incF_keeps ..).after ?_ | extract_lets | split

theorem execDownlinkReceive_keeps (n : Fin 4) (err : BitVec 80) {s t : State} (h : execDownlinkReceive n err s = .next t) :
    Dev.Keeps s.dev t.dev := by
  refine State.up_keeps (fun d => ?_) h
  repeat first | with_reducible exact Dev.Keeps.refl _ | with_reducible refine (Dev.downlink_keeps ..).after ?_

theorem execCmdCfg_keeps (n : Fin 4) {s t : State} (h : execCmdCfg n s = .next t) :
    Dev.Keeps s.dev t.dev := by
  refine State.up_keeps (fun d => ?_) h
  repeat first
    | with_reducible exact Dev.Keeps.refl _ | with_reducible refine Dev.Keeps.ite ?_ ?_
    | with_reducible refine (Dev.downlink_keeps ..).after ?_

theorem execCmdInterrogate_keeps (n : Fin 4) {s t : State} (h : execCmdInterrogate n s = .next t) :
    Dev.Keeps s.dev t.dev := by
  refine State.up_keeps (fun d => ?_) h
  repeat first
    | with_reducible exact Dev.Keeps.refl _ | with_reducible refine Dev.Keeps.ite ?_ ?_
    | with_reducible refine (Dev.downlink_keeps ..).after ?_

theorem execCmdClear_keeps (n : Fin 4) {s t : State} (h : execCmdClear n s = .next t) :
    Dev.Keeps s.dev t.dev := by
  refine State.up_keeps (fun d => ?_) h
  repeat first
    | with_reducible exact Dev.Keeps.refl _ | with_reducible refine Dev.Keeps.ite ?_ ?_
    | with_reducible refine (Dev.downlink_keeps ..).after ?_

theorem Dev.updateBank_keeps (d : Dev) (n : Nat) :
    Dev.Keeps d (Dev.updateBank d n) := by
  unfold Dev.updateBank
  extract_lets a0
  repeat first
    | with_reducible exact Dev.Keeps.refl _ | with_reducible refine Dev.Keeps.ite ?_ ?_
    | with_reducible refine (Dev.setF_keeps ..).after ?_ | with_reducible refine (Dev.flag_keeps ..).after ?_
    | with_reducible refine (Dev.trouble_keeps ..).after ?_ | with_reducible refine (Dev.record_keeps ..).after ?_

theorem State.atField_keeps {s t : State} {n : Nat} {f : Field → Field} (h : s.atField n f = .next t) : Dev.Keeps s.dev t.dev := by
  refine State.run_keeps (fun d => ?_) h
  extract_lets d1
  have h1 : Dev.Keeps d d1 := Dev.setField_keeps ..
  exact .ite h1 ((Dev.updateBank_keeps ..).after h1)

theorem execTimedTransition_keeps (n : Fin 4) {s t : State} (h : execTimedTransition n s = .next t) :
    Dev.Keeps s.dev t.dev := State.atField_keeps h

theorem execFieldSideHold_keeps (n : Fin 4) {s t : State} (h : execFieldSideHold n s = .next t) :
    Dev.Keeps s.dev t.dev := by
  exact State.atField_keeps h

theorem execCurrentLimitEntry_keeps (n : Fin 4) (p : Fin 16) {s t : State} (h : execCurrentLimitEntry n p s = .next t) :
    Dev.Keeps s.dev t.dev := by
  exact State.atField_keeps h

theorem execCurrentLimitExit_keeps (n : Fin 4) (p : Fin 16) {s t : State} (h : execCurrentLimitExit n p s = .next t) :
    Dev.Keeps s.dev t.dev := by
  exact State.atField_keeps h

theorem execCurrentLimitLatch_keeps (n : Fin 4) (p : Fin 16) {s t : State} (h : execCurrentLimitLatch n p s = .next t) :
    Dev.Keeps s.dev t.dev := by
  exact State.atField_keeps h

theorem execLimitEnergyReset_keeps (n : Fin 4) (p : Fin 16) {s t : State} (h : execLimitEnergyReset n p s = .next t) :
    Dev.Keeps s.dev t.dev := by
  exact State.atField_keeps h

theorem execOutputRetry_keeps (n : Fin 4) (p : Fin 16) {s t : State} (h : execOutputRetry n p s = .next t) :
    Dev.Keeps s.dev t.dev := by
  exact State.atField_keeps h

theorem execEventCountReset_keeps (n : Fin 4) (p : Fin 16) {s t : State} (h : execEventCountReset n p s = .next t) :
    Dev.Keeps s.dev t.dev := by
  exact State.atField_keeps h

theorem execReadbackMismatch_keeps (n : Fin 4) (p : Fin 16) {s t : State} (h : execReadbackMismatch n p s = .next t) :
    Dev.Keeps s.dev t.dev := by
  exact State.atField_keeps h

theorem execInterrogationSweepDone_keeps (n : Fin 4) (vfld : Byte) {s t : State} (h : execInterrogationSweepDone n vfld s = .next t) :
    Dev.Keeps s.dev t.dev := by
  exact State.atField_keeps h

theorem execFieldSupplyWarning_keeps (n : Fin 4) (below : Bool) {s t : State} (h : execFieldSupplyWarning n below s = .next t) :
    Dev.Keeps s.dev t.dev := by
  exact State.atField_keeps h

theorem execFieldInputFail_keeps (n : Fin 4) (below : Bool) {s t : State} (h : execFieldInputFail n below s = .next t) :
    Dev.Keeps s.dev t.dev := by
  exact State.atField_keeps h

theorem execFieldUvOff_keeps (n : Fin 4) {s t : State} (h : execFieldUvOff n s = .next t) :
    Dev.Keeps s.dev t.dev := by
  exact State.atField_keeps h

theorem execUvOffRelease_keeps (n : Fin 4) {s t : State} (h : execUvOffRelease n s = .next t) :
    Dev.Keeps s.dev t.dev := by
  exact State.atField_keeps h

theorem execFieldSideReset_keeps (n : Fin 4) {s t : State} (h : execFieldSideReset n s = .next t) :
    Dev.Keeps s.dev t.dev := by
  exact State.atField_keeps h

theorem execFieldSideResetRelease_keeps (n : Fin 4) {s t : State} (h : execFieldSideResetRelease n s = .next t) :
    Dev.Keeps s.dev t.dev := by
  exact State.atField_keeps h

theorem execFieldOvertemp_keeps (n : Fin 4) (on : Bool) {s t : State} (h : execFieldOvertemp n on s = .next t) :
    Dev.Keeps s.dev t.dev := by
  exact State.atField_keeps h

theorem execUplinkFrame_keeps (n : Fin 4) (pins : List (Int × Int)) {s t : State} (h : execUplinkFrame n pins s = .next t) :
    Dev.Keeps s.dev t.dev := by
  refine State.upWf_keeps (fun d => ?_) h
  repeat first
    | with_reducible exact Dev.Keeps.refl _ | with_reducible refine Dev.Keeps.ite ?_ ?_
    | with_reducible refine (Dev.draw_keeps ..).after ?_ | with_reducible refine (Dev.setField_keeps ..).after ?_
    | with_reducible refine (Dev.setBank_keeps ..).after ?_

theorem Dev.refreshInputs_keeps (d : Dev) (n : Nat) :
    Dev.Keeps d (Dev.refreshInputs d n) := by
  unfold Dev.refreshInputs
  extract_lets a0
  repeat first
    | with_reducible exact Dev.Keeps.refl _ | with_reducible refine Dev.Keeps.ite ?_ ?_
    | with_reducible refine (Dev.setSeam_keeps ..).after ?_ | with_reducible refine Dev.Keeps.fold _ _ _ ?_ (fun _ _ => ?_)
    | extract_lets | split | dsimp +zetaDelta only

theorem Dev.inputState_keeps (d : Dev) (n p st stamp : Nat) :
    Dev.Keeps d (Dev.inputState d n p st stamp) := by
  unfold Dev.inputState
  extract_lets a0 a1 a2 a3
  have h2 : Dev.Keeps d a2 := by
    unfold a2
    repeat first | with_reducible exact Dev.Keeps.refl _ | with_reducible refine (Dev.setBank_keeps ..).after ?_
  clear_value a2
  have h3 : Dev.Keeps d a3 := by
    unfold a3
    repeat first
      | with_reducible assumption | with_reducible refine Dev.Keeps.ite ?_ ?_
      | with_reducible refine (Dev.requestRecord_keeps ..).after ?_
  clear_value a3
  repeat first | with_reducible assumption | with_reducible refine (Dev.refreshInputs_keeps ..).after ?_

theorem Dev.uplink_keeps (d : Dev) (n payload : Nat) :
    Dev.Keeps d (Dev.uplink d n payload) := by
  unfold Dev.uplink
  extract_lets a0 a1 a2 a3 a4 a5 a6 a7 a8 a9 a10
  have h3 : Dev.Keeps d a3 := by
    unfold a3
    repeat first | with_reducible exact Dev.Keeps.refl _ | with_reducible refine (Dev.addF_keeps ..).after ?_
  clear_value a3
  have h7 : Dev.Keeps d a7 := by
    unfold a7
    repeat first | with_reducible assumption | with_reducible refine (Dev.setBank_keeps ..).after ?_
  clear_value a7
  have h8 : Dev.Keeps d a8 := by
    unfold a8
    repeat first
      | with_reducible assumption | with_reducible refine Dev.Keeps.ite ?_ ?_ | with_reducible refine (Dev.setF_keeps ..).after ?_
  clear_value a8
  have h9 : Dev.Keeps d a9 := by
    unfold a9
    repeat first
      | with_reducible assumption | with_reducible exact Dev.Keeps.refl _ | with_reducible refine Dev.Keeps.ite ?_ ?_
      | with_reducible refine (Dev.setBank_keeps ..).after ?_ | with_reducible refine (Dev.inputState_keeps ..).after ?_
      | with_reducible refine Dev.Keeps.fold _ _ _ ?_ (fun _ _ => ?_)
  clear_value a9
  repeat first
    | with_reducible assumption | with_reducible refine Dev.Keeps.ite ?_ ?_
    | with_reducible refine (Dev.setBank_keeps ..).after ?_ | with_reducible refine (Dev.setF_keeps ..).after ?_
    | with_reducible refine (Dev.refreshInputs_keeps ..).after ?_ | with_reducible refine (Dev.updateBank_keeps ..).after ?_

theorem execUplinkReceive_keeps (n : Fin 4) (err : BitVec 80) {s t : State} (h : execUplinkReceive n err s = .next t) :
    Dev.Keeps s.dev t.dev := by
  refine State.up_keeps (fun d => ?_) h
  repeat first
    | with_reducible exact Dev.Keeps.refl _ | with_reducible refine Dev.Keeps.ite ?_ ?_
    | with_reducible refine (Dev.setBank_keeps ..).after ?_ | with_reducible refine (Dev.uplink_keeps ..).after ?_
    | with_reducible refine (Dev.incF_keeps ..).after ?_ | extract_lets | split

theorem execInputFilterChange_keeps (n : Fin 4) (p : Fin 16) {s t : State} (h : execInputFilterChange n p s = .next t) :
    Dev.Keeps s.dev t.dev := by
  refine State.up_keeps (fun d => ?_) h
  extract_lets a0
  repeat first
    | with_reducible exact Dev.Keeps.refl _ | with_reducible refine Dev.Keeps.ite ?_ ?_
    | with_reducible refine (Dev.inputState_keeps ..).after ?_ | split

theorem Dev.intgCut_keeps (d : Dev) (n : Nat) :
    Dev.Keeps d (Dev.intgCut d n) := by
  unfold Dev.intgCut
  repeat first
    | with_reducible exact Dev.Keeps.refl _ | with_reducible refine Dev.Keeps.ite ?_ ?_
    | with_reducible refine (Dev.setF_keeps ..).after ?_

theorem execBankSilent_keeps (n : Fin 4) {s t : State} (h : execBankSilent n s = .next t) :
    Dev.Keeps s.dev t.dev := by
  refine State.up_keeps (fun d => ?_) h
  extract_lets a0
  repeat first
    | with_reducible exact Dev.Keeps.refl _ | with_reducible refine Dev.Keeps.ite ?_ ?_
    | with_reducible refine (Dev.setBank_keeps ..).after ?_ | with_reducible refine (Dev.setF_keeps ..).after ?_
    | with_reducible refine (Dev.incF_keeps ..).after ?_ | with_reducible refine (Dev.intgCut_keeps ..).after ?_
    | with_reducible refine (Dev.refreshInputs_keeps ..).after ?_ | with_reducible refine (Dev.updateBank_keeps ..).after ?_

theorem Dev.interrogate_keeps (d : Dev) (n : Nat) :
    Dev.Keeps d (Dev.interrogate d n) := by
  unfold Dev.interrogate
  repeat first
    | with_reducible exact Dev.Keeps.refl _ | with_reducible refine Dev.Keeps.ite ?_ ?_
    | with_reducible refine (Dev.setBit_keeps ..).after ?_ | with_reducible refine (Dev.setBank_keeps ..).after ?_
    | with_reducible refine (Dev.setF_keeps ..).after ?_

theorem Dev.fioClear_keeps (d : Dev) :
    Dev.Keeps d (Dev.fioClear d) := by
  unfold Dev.fioClear
  extract_lets a0 a1
  repeat first | with_reducible exact Dev.Keeps.refl _ | with_reducible refine (Dev.setBank_keeps ..).after ?_

theorem execBarrierStart_keeps {s t : State} (h : execBarrierStart s = .next t) :
    Dev.Keeps s.dev t.dev := by
  refine State.up_keeps (fun d => ?_) h
  repeat first
    | with_reducible exact Dev.Keeps.refl _ | with_reducible refine Dev.Keeps.ite ?_ ?_
    | with_reducible refine (Dev.updateCanary_keeps ..).after ?_ | extract_lets
    | fail_if_no_progress with_reducible refine Dev.Keeps.mk_ ?_ rfl rfl rfl rfl rfl

theorem Dev.acceptEntry_keeps (d : Dev) (e : Nat × Bool × Nat × Nat) :
    Dev.Keeps d (Dev.acceptEntry d e) := by
  unfold Dev.acceptEntry
  repeat first
    | with_reducible exact Dev.Keeps.refl _ | with_reducible refine Dev.Keeps.ite ?_ ?_
    | with_reducible refine (Dev.setF_keeps ..).after ?_ | with_reducible refine (Dev.record_keeps ..).after ?_ | extract_lets
    | fail_if_no_progress with_reducible refine Dev.Keeps.mk_ ?_ rfl rfl rfl rfl rfl

theorem Dev.fioImage_keeps (d : Dev) (pit : Nat) (on driven : Nat) (sched : List (Nat × Bool × Nat × Nat)) :
    Dev.Keeps d (Dev.fioImage d pit on driven sched) := by
  unfold Dev.fioImage
  repeat first
    | with_reducible exact Dev.Keeps.refl _ | with_reducible refine Dev.Keeps.ite ?_ ?_
    | with_reducible refine (Dev.acceptEntry_keeps ..).after ?_ | with_reducible refine Dev.Keeps.fold _ _ _ ?_ (fun _ _ => ?_)
    | extract_lets | fail_if_no_progress with_reducible refine Dev.Keeps.mk_ ?_ rfl rfl rfl rfl rfl

theorem execPowTransitionFix_keeps (c : Fin 64) {s t : State} (h : execPowTransitionFix c s = .next t) :
    Dev.Keeps s.dev t.dev := by
  refine State.up_keeps (fun d => ?_) h
  extract_lets a0 a1
  repeat first
    | with_reducible exact Dev.Keeps.refl _ | with_reducible refine Dev.Keeps.ite ?_ ?_ | extract_lets | split
    | fail_if_no_progress with_reducible refine Dev.Keeps.mk_ ?_ rfl rfl rfl rfl rfl | dsimp +zetaDelta only

theorem Dev.bankHalfLost_keeps (d : Dev) (h : Half) :
    Dev.Keeps d (Dev.bankHalfLost d h) := by
  unfold Dev.bankHalfLost
  repeat first
    | with_reducible exact Dev.Keeps.refl _ | with_reducible refine (Dev.setBank_keeps ..).after ?_
    | with_reducible refine (Dev.intgCut_keeps ..).after ?_ | with_reducible refine (Dev.setF_keeps ..).after ?_
    | with_reducible refine (Dev.updateBank_keeps ..).after ?_ | with_reducible refine Dev.Keeps.fold _ _ _ ?_ (fun _ _ => ?_)

theorem Dev.bankHalfBack_keeps (d : Dev) (h : Half) :
    Dev.Keeps d (Dev.bankHalfBack d h) := by
  unfold Dev.bankHalfBack
  repeat first
    | with_reducible exact Dev.Keeps.refl _ | with_reducible refine (Dev.setF_keeps ..).after ?_
    | with_reducible refine (Dev.updateBank_keeps ..).after ?_ | with_reducible refine Dev.Keeps.fold _ _ _ ?_ (fun _ _ => ?_)

end Sys2Proof.Machine
end

