-- ==== Sys2Proof/Laws/KeepsNet.lean ====
section
/-! SUPPORT. What the operations of Machine/Net.lean leave alone. -/
namespace Sys2Proof.Machine

theorem Dev.setNet_keeps (d : Dev) (x : Net) :
    Dev.Keeps d (Dev.setNet d x) := by
  unfold Dev.setNet
  repeat first | with_reducible exact Dev.Keeps.refl _ | fail_if_no_progress with_reducible refine Dev.Keeps.mk_ ?_ rfl rfl rfl rfl rfl

theorem Dev.setPort_keeps (d : Dev) (p : Nat) (x : NetPort) :
    Dev.Keeps d (Dev.setPort d p x) := by
  unfold Dev.setPort
  repeat first | with_reducible exact Dev.Keeps.refl _ | with_reducible refine (Dev.setNet_keeps ..).after ?_

theorem Dev.setLq_keeps (d : Dev) (i : Nat) (x : LQueue) :
    Dev.Keeps d (Dev.setLq d i x) := by
  unfold Dev.setLq
  repeat first | with_reducible exact Dev.Keeps.refl _ | with_reducible refine (Dev.setNet_keeps ..).after ?_

theorem Dev.setPtp_keeps (d : Dev) (p : Nat) (x : PtpPort) :
    Dev.Keeps d (Dev.setPtp d p x) := by
  unfold Dev.setPtp
  repeat first | with_reducible exact Dev.Keeps.refl _ | with_reducible refine (Dev.setNet_keeps ..).after ?_

theorem Dev.setServo_keeps (d : Dev) (x : Servo) :
    Dev.Keeps d (Dev.setServo d x) := by
  unfold Dev.setServo
  repeat first | with_reducible exact Dev.Keeps.refl _ | with_reducible refine (Dev.setNet_keeps ..).after ?_

theorem Dev.lqWrite_keeps (d : Dev) (i addr : Nat) (bs : List Byte) :
    Dev.Keeps d (Dev.lqWrite d i addr bs) := by
  unfold Dev.lqWrite
  repeat first
    | with_reducible exact Dev.Keeps.refl _ | split
    | fail_if_no_progress with_reducible refine Dev.Keeps.mk_ ?_ rfl rfl rfl rfl rfl

theorem lqAdvance_keeps (i n : Nat) (d : Dev) :
    Dev.Keeps d (lqAdvance i n d) := by
  induction n generalizing d with
  | zero => exact .refl d
  | succ n ih =>
    unfold lqAdvance
    repeat first
      | with_reducible refine (ih ..).after ?_ | with_reducible exact Dev.Keeps.refl _ | with_reducible refine Dev.Keeps.ite ?_ ?_
      | with_reducible refine (Dev.setLq_keeps ..).after ?_ | with_reducible refine (Dev.setF_keeps ..).after ?_ | extract_lets
      | split

theorem Dev.lqComplete_keeps (d : Dev) (i ix status tx : Nat) :
    Dev.Keeps d (Dev.lqComplete d i ix status tx) := by
  unfold Dev.lqComplete
  extract_lets a0
  repeat first
    | with_reducible exact Dev.Keeps.refl _ | with_reducible refine Dev.Keeps.ite ?_ ?_
    | with_reducible refine (Dev.lqWrite_keeps ..).after ?_ | with_reducible refine (Dev.incF_keeps ..).after ?_
    | with_reducible refine (lqAdvance_keeps ..).after ?_ | with_reducible refine (Dev.setLq_keeps ..).after ?_ | split

theorem Dev.setFront_keeps (d : Dev) (i : Nat) (f : LqEnt → LqEnt) :
    Dev.Keeps d (Dev.setFront d i f) := by
  unfold Dev.setFront
  extract_lets a0
  repeat first | with_reducible exact Dev.Keeps.refl _ | with_reducible refine (Dev.setLq_keeps ..).after ?_ | split

theorem lqEval_keeps (i n : Nat) (d : Dev) :
    Dev.Keeps d (lqEval i n d) := by
  induction n generalizing d with
  | zero => exact .refl d
  | succ n ih =>
    unfold lqEval
    repeat first
      | with_reducible refine (ih ..).after ?_ | with_reducible exact Dev.Keeps.refl _ | with_reducible refine Dev.Keeps.ite ?_ ?_
      | with_reducible refine (Dev.lqComplete_keeps ..).after ?_ | with_reducible refine (Dev.setFront_keeps ..).after ?_
      | extract_lets | split

theorem portPick_keeps (p : Nat) (after : Bool) (n : Nat) (d : Dev) :
    Dev.Keeps d (portPick p after n d) := by
  induction n generalizing d with
  | zero => exact .refl d
  | succ n ih =>
    unfold portPick
    repeat first
      | with_reducible refine (ih ..).after ?_ | with_reducible exact Dev.Keeps.refl _ | with_reducible refine Dev.Keeps.ite ?_ ?_
      | with_reducible refine (lqEval_keeps ..).after ?_ | with_reducible refine (Dev.lqComplete_keeps ..).after ?_
      | with_reducible refine (Dev.setFront_keeps ..).after ?_ | with_reducible refine (Dev.trouble_keeps ..).after ?_
      | with_reducible refine (Dev.setPort_keeps ..).after ?_ | extract_lets | split
      | fail_if_no_progress with_reducible refine Dev.Keeps.mk_ ?_ rfl rfl rfl rfl rfl

theorem Dev.lqRun_keeps (d : Dev) (i : Nat) :
    Dev.Keeps d (Dev.lqRun d i) := by
  unfold Dev.lqRun
  repeat first
    | with_reducible exact Dev.Keeps.refl _ | with_reducible refine (portPick_keeps ..).after ?_
    | with_reducible refine (lqEval_keeps ..).after ?_

theorem Dev.lqPost_keeps (d : Dev) (i : Nat) (descs : List LqDesc) :
    Dev.Keeps d (Dev.lqPost d i descs) := by
  unfold Dev.lqPost
  extract_lets a0
  repeat first
    | with_reducible exact Dev.Keeps.refl _ | with_reducible refine Dev.Keeps.ite ?_ ?_
    | with_reducible refine (Dev.setLq_keeps ..).after ?_ | with_reducible refine (Dev.lqRun_keeps ..).after ?_

theorem execFrameLaunch_keeps (p : Fin 4) {s t : State} (h : execFrameLaunch p s = .next t) :
    Dev.Keeps s.dev t.dev := by
  refine State.up_keeps (fun d => ?_) h
  extract_lets a0
  repeat first
    | with_reducible exact Dev.Keeps.refl _ | with_reducible refine Dev.Keeps.ite ?_ ?_
    | with_reducible refine (Dev.setFront_keeps ..).after ?_ | with_reducible refine (portPick_keeps ..).after ?_
    | with_reducible refine Dev.Keeps.fold _ _ _ ?_ (fun _ _ => ?_)

theorem execFrameTransmitDone_keeps (p : Fin 4) (stamp : BitVec 68) {s t : State} (h : execFrameTransmitDone p stamp s = .next t) :
    Dev.Keeps s.dev t.dev := by
  refine State.up_keeps (fun d => ?_) h
  repeat first
    | with_reducible exact Dev.Keeps.refl _ | with_reducible refine Dev.Keeps.ite ?_ ?_
    | with_reducible refine (Dev.setPort_keeps ..).after ?_ | with_reducible refine (lqEval_keeps ..).after ?_
    | with_reducible refine (Dev.lqComplete_keeps ..).after ?_ | with_reducible refine (portPick_keeps ..).after ?_ | extract_lets
    | split

theorem execHostFrameReadDone_keeps (p : Fin 4) (q : Fin 64) (desc : Option LqDesc) {s t : State} (h : execHostFrameReadDone p q desc s = .next t) :
    Dev.Keeps s.dev t.dev := by
  refine State.up_keeps (fun d => ?_) h
  extract_lets a0 a1
  repeat first
    | with_reducible exact Dev.Keeps.refl _ | with_reducible refine Dev.Keeps.ite ?_ ?_
    | with_reducible refine (Dev.setLq_keeps ..).after ?_ | with_reducible refine (Dev.lqComplete_keeps ..).after ?_
    | with_reducible refine (Dev.lqRun_keeps ..).after ?_ | with_reducible refine (Dev.setFront_keeps ..).after ?_ | extract_lets
    | split

theorem execHostReadFault_keeps (p : Fin 4) (q : Fin 64) (frame : Bool) {s t : State} (h : execHostReadFault p q frame s = .next t) :
    Dev.Keeps s.dev t.dev := by
  refine State.up_keeps (fun d => ?_) h
  extract_lets a0 a1
  repeat first
    | with_reducible exact Dev.Keeps.refl _ | with_reducible refine Dev.Keeps.ite ?_ ?_
    | with_reducible refine (Dev.trouble_keeps ..).after ?_ | with_reducible refine (Dev.lqComplete_keeps ..).after ?_
    | with_reducible refine (Dev.lqRun_keeps ..).after ?_ | with_reducible refine (Dev.setLq_keeps ..).after ?_ | extract_lets
    | split

theorem execHostFrameLate_keeps (p : Fin 4) (q : Fin 64) {s t : State} (h : execHostFrameLate p q s = .next t) :
    Dev.Keeps s.dev t.dev := by
  refine State.up_keeps (fun d => ?_) h
  extract_lets a0 a1
  repeat first
    | with_reducible exact Dev.Keeps.refl _ | with_reducible refine Dev.Keeps.ite ?_ ?_
    | with_reducible refine (Dev.lqComplete_keeps ..).after ?_ | with_reducible refine (Dev.lqRun_keeps ..).after ?_
    | with_reducible refine (Dev.setFront_keeps ..).after ?_ | split

theorem Dev.lqStepped_keeps (d : Dev) :
    Dev.Keeps d (Dev.lqStepped d) := by
  unfold Dev.lqStepped
  repeat first
    | with_reducible exact Dev.Keeps.refl _ | with_reducible refine Dev.Keeps.ite ?_ ?_
    | with_reducible refine (Dev.lqComplete_keeps ..).after ?_ | with_reducible refine (Dev.setLq_keeps ..).after ?_
    | with_reducible refine (Dev.lqRun_keeps ..).after ?_ | with_reducible refine Dev.Keeps.fold _ _ _ ?_ (fun _ _ => ?_)

theorem Dev.lqAbandon_keeps (d : Dev) :
    Dev.Keeps d (Dev.lqAbandon d) := by
  unfold Dev.lqAbandon
  repeat first
    | with_reducible exact Dev.Keeps.refl _ | with_reducible refine Dev.Keeps.ite ?_ ?_
    | with_reducible refine (Dev.setLq_keeps ..).after ?_ | with_reducible refine (Dev.setF_keeps ..).after ?_
    | with_reducible refine Dev.Keeps.fold _ _ _ ?_ (fun _ _ => ?_)

theorem Dev.lqCommitted_keeps (d : Dev) :
    Dev.Keeps d (Dev.lqCommitted d) := by
  unfold Dev.lqCommitted
  extract_lets a0 a1
  repeat first
    | with_reducible exact Dev.Keeps.refl _ | with_reducible refine (Dev.setLq_keeps ..).after ?_
    | with_reducible refine (Dev.setF_keeps ..).after ?_

theorem Dev.postAlarm_keeps (d : Dev) :
    Dev.Keeps d (Dev.postAlarm d) := by
  unfold Dev.postAlarm
  extract_lets a0
  have h0 : Dev.Keeps d a0 := by
    unfold a0
    repeat first | with_reducible exact Dev.Keeps.refl _ | fail_if_no_progress with_reducible refine Dev.Keeps.mk_ ?_ rfl rfl rfl rfl rfl
  clear_value a0
  repeat first
    | with_reducible assumption | with_reducible exact Dev.Keeps.refl _ | with_reducible refine Dev.Keeps.ite ?_ ?_
    | with_reducible refine (Dev.setLq_keeps ..).after ?_ | with_reducible refine (Dev.setF_keeps ..).after ?_
    | with_reducible refine (Dev.lqRun_keeps ..).after ?_ | with_reducible refine Dev.Keeps.fold _ _ _ ?_ (fun _ _ => ?_)

theorem Dev.duplicate_keeps (d : Dev) (p : Nat) (src seq : Nat) :
    Dev.Keeps d (Dev.duplicate d p src seq).1 := by
  unfold Dev.duplicate
  extract_lets a0 a1 a2 a3
  repeat first | with_reducible exact Dev.Keeps.refl _ | with_reducible refine (Dev.setNet_keeps ..).after ?_

theorem Dev.duplicate_keeps_eq (d : Dev) (p : Nat) (src seq : Nat) {y : Dev} {z : Bool} (h : Dev.duplicate d p src seq = (y, z)) : Dev.Keeps d y := by
  have := Dev.duplicate_keeps d p src seq
  rw [h] at this
  exact this

theorem Dev.toGallery_keeps (d : Dev) (p : Nat) (f : NetFrame) :
    Dev.Keeps d (Dev.toGallery d p f) := by
  unfold Dev.toGallery
  extract_lets a0 a1 a2 a3
  repeat first
    | with_reducible exact Dev.Keeps.refl _ | with_reducible refine Dev.Keeps.ite ?_ ?_
    | with_reducible refine (Dev.setPort_keeps ..).after ?_ | with_reducible refine (Dev.incF_keeps ..).after ?_ | extract_lets
    | fail_if_no_progress with_reducible refine Dev.Keeps.mk_ ?_ rfl rfl rfl rfl rfl

theorem Dev.sendSv_keeps (d : Dev) (p ts : Nat) (f : NetFrame) :
    Dev.Keeps d (Dev.sendSv d p ts f) := by
  unfold Dev.sendSv
  extract_lets a0
  repeat first
    | with_reducible exact Dev.Keeps.refl _ | with_reducible refine (Dev.sendLump_keeps ..).after ?_
    | with_reducible refine Dev.Keeps.fold _ _ _ ?_ (fun _ _ => ?_)

theorem execFrameReceive_keeps (p : Fin 4) (f : NetFrame) {s t : State} (h : execFrameReceive p f s = .next t) :
    Dev.Keeps s.dev t.dev := by
  refine State.up_keeps (fun d => ?_) h
  repeat first
    | with_reducible exact Dev.Keeps.refl _ | with_reducible refine Dev.Keeps.ite ?_ ?_
    | with_reducible refine (Dev.incF_keeps ..).after ?_ | with_reducible refine (Dev.duplicate_keeps ..).after ?_
    | with_reducible refine (Dev.draw_keeps ..).after ?_ | with_reducible refine (Dev.sendSv_keeps ..).after ?_
    | with_reducible refine (Dev.toGallery_keeps ..).after ?_ | extract_lets | split
    | fail_if_no_progress with_reducible refine Dev.Keeps.mk_ ?_ rfl rfl rfl rfl rfl

theorem Dev.holdover_keeps (d : Dev) :
    Dev.Keeps d (Dev.holdover d) := by
  unfold Dev.holdover
  repeat first
    | with_reducible exact Dev.Keeps.refl _ | with_reducible refine Dev.Keeps.ite ?_ ?_
    | with_reducible refine (Dev.setCalState_keeps ..).after ?_ | with_reducible refine (Dev.setServo_keeps ..).after ?_

theorem Dev.takeMaster_keeps (d : Dev) (a : Announce) :
    Dev.Keeps d (Dev.takeMaster d a) := by
  unfold Dev.takeMaster
  extract_lets a0 a1 a2 a3
  have h1 : Dev.Keeps d a1 := by
    unfold a1
    repeat first
      | with_reducible exact Dev.Keeps.refl _ | with_reducible refine Dev.Keeps.ite ?_ ?_
      | with_reducible refine (Dev.setF_keeps ..).after ?_ | with_reducible refine (Dev.setServo_keeps ..).after ?_
  clear_value a1
  have h2 : Dev.Keeps d a2 := by
    unfold a2
    repeat first
      | with_reducible assumption | with_reducible refine (Dev.setF_keeps ..).after ?_
      | with_reducible refine (Dev.setB_keeps ..).after ?_
  clear_value a2
  have h3 : Dev.Keeps d a3 := by
    unfold a3
    repeat first | with_reducible assumption | with_reducible refine (Dev.setB_keeps ..).after ?_
  clear_value a3
  repeat first | with_reducible assumption | with_reducible refine (Dev.setF_keeps ..).after ?_

theorem Dev.selectMaster_keeps (d : Dev) :
    Dev.Keeps d (Dev.selectMaster d) := by
  unfold Dev.selectMaster
  extract_lets a0 a1
  repeat first
    | with_reducible exact Dev.Keeps.refl _ | with_reducible refine Dev.Keeps.ite ?_ ?_
    | with_reducible refine (Dev.setNet_keeps ..).after ?_ | with_reducible refine (Dev.setF_keeps ..).after ?_
    | with_reducible refine (Dev.takeMaster_keeps ..).after ?_ | with_reducible refine (Dev.holdover_keeps ..).after ?_ | split
    | dsimp +zetaDelta only

theorem execAnnounceReceive_keeps (p : Fin 4) (a : Announce) {s t : State} (h : execAnnounceReceive p a s = .next t) :
    Dev.Keeps s.dev t.dev := by
  refine State.up_keeps (fun d => ?_) h
  repeat first
    | with_reducible exact Dev.Keeps.refl _ | with_reducible refine Dev.Keeps.ite ?_ ?_
    | with_reducible refine (Dev.setPtp_keeps ..).after ?_ | with_reducible refine (Dev.selectMaster_keeps ..).after ?_

theorem Dev.dropSilent_keeps (d : Dev) (p : Nat) :
    Dev.Keeps d (Dev.dropSilent d p) := by
  unfold Dev.dropSilent
  extract_lets a0
  repeat first | with_reducible exact Dev.Keeps.refl _ | with_reducible refine (Dev.setPtp_keeps ..).after ?_

theorem execAnnounceTimeout_keeps (p : Fin 4) {s t : State} (h : execAnnounceTimeout p s = .next t) :
    Dev.Keeps s.dev t.dev := by
  refine State.up_keeps (fun d => ?_) h
  repeat first
    | with_reducible exact Dev.Keeps.refl _ | with_reducible refine (Dev.dropSilent_keeps ..).after ?_
    | with_reducible refine (Dev.selectMaster_keeps ..).after ?_

theorem Dev.linkLost_keeps (d : Dev) (p : Nat) :
    Dev.Keeps d (Dev.linkLost d p) := by
  unfold Dev.linkLost
  repeat first
    | with_reducible exact Dev.Keeps.refl _ | with_reducible refine Dev.Keeps.ite ?_ ?_
    | with_reducible refine (Dev.clrBit_keeps ..).after ?_ | with_reducible refine (Dev.setBit_keeps ..).after ?_
    | with_reducible refine (Dev.trouble_keeps ..).after ?_ | with_reducible refine (Dev.setPtp_keeps ..).after ?_
    | with_reducible refine (Dev.selectMaster_keeps ..).after ?_

theorem execPortLinkLoss_keeps (p : Fin 4) {s t : State} (h : execPortLinkLoss p s = .next t) :
    Dev.Keeps s.dev t.dev := by
  refine State.up_keeps (fun d => ?_) h
  repeat first | with_reducible exact Dev.Keeps.refl _ | with_reducible refine (Dev.linkLost_keeps ..).after ?_

theorem execPortLinkUp_keeps (p : Fin 4) {s t : State} (h : execPortLinkUp p s = .next t) :
    Dev.Keeps s.dev t.dev := by
  refine State.up_keeps (fun d => ?_) h
  repeat first
    | with_reducible exact Dev.Keeps.refl _ | with_reducible refine Dev.Keeps.ite ?_ ?_
    | with_reducible refine (portPick_keeps ..).after ?_ | with_reducible refine (Dev.setBit_keeps ..).after ?_

theorem Dev.netHalfLost_keeps (d : Dev) (h : Half) :
    Dev.Keeps d (Dev.netHalfLost d h) := by
  unfold Dev.netHalfLost
  repeat first
    | with_reducible exact Dev.Keeps.refl _ | with_reducible refine (Dev.linkLost_keeps ..).after ?_
    | with_reducible refine (Dev.setBit_keeps ..).after ?_ | with_reducible refine Dev.Keeps.fold _ _ _ ?_ (fun _ _ => ?_)

theorem Dev.netHalfBack_keeps (d : Dev) (h : Half) :
    Dev.Keeps d (Dev.netHalfBack d h) := by
  unfold Dev.netHalfBack
  repeat first
    | with_reducible exact Dev.Keeps.refl _ | with_reducible refine (Dev.clrBit_keeps ..).after ?_
    | with_reducible refine Dev.Keeps.fold _ _ _ ?_ (fun _ _ => ?_)

theorem Dev.stepCal_keeps (d : Dev) (acc : Nat) (rate : Int) (state kind req : Nat) :
    Dev.Keeps d (Dev.stepCal d acc rate state kind req) := by
  unfold Dev.stepCal
  extract_lets a0 a1 a2 a3 a4 a5
  have h2 : Dev.Keeps d a2 := by
    unfold a2
    repeat first | with_reducible exact Dev.Keeps.refl _ | with_reducible refine (Dev.pushCal_keeps ..).after ?_
  clear_value a2
  have h3 : Dev.Keeps d a3 := by
    unfold a3
    repeat first | with_reducible assumption | with_reducible refine (Dev.record_keeps ..).after ?_
  clear_value a3
  have h4 : Dev.Keeps d a4 := by
    unfold a4
    repeat first
      | with_reducible assumption | with_reducible refine Dev.Keeps.ite ?_ ?_
      | with_reducible refine (Dev.record_keeps ..).after ?_ | with_reducible refine (Dev.fire_keeps ..).after ?_
  clear_value a4
  repeat first
    | with_reducible assumption | with_reducible refine (Dev.setServo_keeps ..).after ?_
    | with_reducible refine (Dev.frResync_keeps ..).after ?_ | with_reducible refine (Dev.sviStep_keeps ..).after ?_
    | with_reducible refine (Dev.balanceStep_keeps ..).after ?_ | with_reducible refine (Dev.lqStepped_keeps ..).after ?_

theorem Dev.servoApply_keeps (d : Dev) (o : Int) :
    Dev.Keeps d (Dev.servoApply d o) := by
  unfold Dev.servoApply
  extract_lets a0 a1 a2 a3 a4
  have h4 : Dev.Keeps d a4 := by
    unfold a4
    repeat first
      | with_reducible exact Dev.Keeps.refl _ | with_reducible refine Dev.Keeps.ite ?_ ?_
      | with_reducible refine (Dev.setServo_keeps ..).after ?_
  clear_value a4
  repeat first
    | with_reducible assumption | with_reducible refine (Dev.setRate_keeps ..).after ?_
    | with_reducible refine (Dev.setB_keeps ..).after ?_

theorem Dev.servoLocked_keeps (d : Dev) (o : Int) :
    Dev.Keeps d (Dev.servoLocked d o) := by
  unfold Dev.servoLocked
  extract_lets a0
  repeat first
    | with_reducible exact Dev.Keeps.refl _ | with_reducible refine Dev.Keeps.ite ?_ ?_
    | with_reducible refine (Dev.setServo_keeps ..).after ?_ | with_reducible refine (Dev.setCalState_keeps ..).after ?_
    | with_reducible refine (Dev.trouble_keeps ..).after ?_ | with_reducible refine (Dev.incF_keeps ..).after ?_
    | with_reducible refine (Dev.servoApply_keeps ..).after ?_

theorem Dev.measure_keeps (d : Dev) (o : Int) (syncAt : Nat) :
    Dev.Keeps d (Dev.measure d o syncAt) := by
  unfold Dev.measure
  extract_lets a0 a1
  repeat first
    | with_reducible exact Dev.Keeps.refl _ | with_reducible refine Dev.Keeps.ite ?_ ?_
    | with_reducible refine (Dev.setServo_keeps ..).after ?_ | with_reducible refine (Dev.stepCal_keeps ..).after ?_
    | with_reducible refine (Dev.setF_keeps ..).after ?_ | with_reducible refine (Dev.setCalState_keeps ..).after ?_
    | with_reducible refine (Dev.servoApply_keeps ..).after ?_ | with_reducible refine (Dev.servoLocked_keeps ..).after ?_

theorem Dev.offset_keeps (d : Dev) (p t2 syncAt : Nat) (origin : Nat) (corr : Int) (late : Bool) :
    Dev.Keeps d (Dev.offset d p t2 syncAt origin corr late) := by
  unfold Dev.offset
  extract_lets a0 a1 a2
  have h1 : Dev.Keeps d a1 := by
    unfold a1
    repeat first | with_reducible exact Dev.Keeps.refl _ | with_reducible refine (Dev.setF_keeps ..).after ?_
  clear_value a1
  repeat first
    | with_reducible assumption | with_reducible refine Dev.Keeps.ite ?_ ?_ | with_reducible refine (Dev.incF_keeps ..).after ?_
    | with_reducible refine (Dev.measure_keeps ..).after ?_

theorem Dev.ptpSync_keeps (d : Dev) (p : Fin 4) (domain : Byte) (seq : BitVec 16) (mac : BitVec 68) (corr : BitVec 64) (origin : Option (BitVec 64)) :
    Dev.Keeps d (Dev.ptpSync d p domain seq mac corr origin) := by
  unfold Dev.ptpSync
  repeat first
    | with_reducible exact Dev.Keeps.refl _ | with_reducible refine Dev.Keeps.ite ?_ ?_
    | with_reducible refine (Dev.setServo_keeps ..).after ?_ | with_reducible refine (Dev.offset_keeps ..).after ?_ | extract_lets
    | split

theorem Dev.ptpFollowUp_keeps (d : Dev) (p : Fin 4) (domain : Byte) (seq : BitVec 16) (origin : BitVec 64) (corr : BitVec 64) :
    Dev.Keeps d (Dev.ptpFollowUp d p domain seq origin corr) := by
  unfold Dev.ptpFollowUp
  repeat first
    | with_reducible exact Dev.Keeps.refl _ | with_reducible refine Dev.Keeps.ite ?_ ?_
    | with_reducible refine (Dev.setServo_keeps ..).after ?_ | with_reducible refine (Dev.offset_keeps ..).after ?_ | extract_lets
    | split

theorem execSyncTimeout_keeps {s t : State} (h : execSyncTimeout s = .next t) :
    Dev.Keeps s.dev t.dev := by
  refine State.up_keeps (fun d => ?_) h
  repeat first
    | with_reducible exact Dev.Keeps.refl _ | with_reducible refine Dev.Keeps.ite ?_ ?_
    | with_reducible refine (Dev.holdover_keeps ..).after ?_ | extract_lets | split

theorem execPdelayReqReceive_keeps (p : Fin 4) (domain : Byte) (seq : BitVec 16) (rx tx : BitVec 68) {s t : State} (h : execPdelayReqReceive p domain seq rx tx s = .next t) :
    Dev.Keeps s.dev t.dev := by
  refine State.up_keeps (fun d => ?_) h
  repeat first
    | with_reducible exact Dev.Keeps.refl _ | with_reducible refine Dev.Keeps.ite ?_ ?_ | extract_lets
    | fail_if_no_progress with_reducible refine Dev.Keeps.mk_ ?_ rfl rfl rfl rfl rfl

theorem execPdelayReqSend_keeps (p : Fin 4) (tx : BitVec 68) {s t : State} (h : execPdelayReqSend p tx s = .next t) :
    Dev.Keeps s.dev t.dev := by
  refine State.up_keeps (fun d => ?_) h
  repeat first
    | with_reducible exact Dev.Keeps.refl _ | with_reducible refine Dev.Keeps.ite ?_ ?_
    | with_reducible refine (Dev.setPtp_keeps ..).after ?_ | extract_lets
    | fail_if_no_progress with_reducible refine Dev.Keeps.mk_ ?_ rfl rfl rfl rfl rfl

theorem execPdelayRespReceive_keeps (p : Fin 4) (domain : Byte) (seq : BitVec 16) (rx : BitVec 68) (turnaround : BitVec 64) {s t : State} (h : execPdelayRespReceive p domain seq rx turnaround s = .next t) :
    Dev.Keeps s.dev t.dev := by
  refine State.up_keeps (fun d => ?_) h
  repeat first
    | with_reducible exact Dev.Keeps.refl _ | with_reducible refine Dev.Keeps.ite ?_ ?_
    | with_reducible refine (Dev.setF_keeps ..).after ?_ | with_reducible refine (Dev.setPtp_keeps ..).after ?_ | extract_lets
    | split

end Sys2Proof.Machine
end

