-- ==== Sys2Proof/Laws/KeepsAssay.lean ====
section
/-! SUPPORT. What the operations of Machine/Assay.lean leave alone. -/
namespace Sys2Proof.Machine

theorem Dev.setAsy_keeps (d : Dev) (x : Assay) :
    Dev.Keeps d (Dev.setAsy d x) := by
  unfold Dev.setAsy
  repeat first | with_reducible exact Dev.Keeps.refl _ | fail_if_no_progress with_reducible refine Dev.Keeps.mk_ ?_ rfl rfl rfl rfl rfl

theorem Dev.setSeqr_keeps (d : Dev) (q : Nat) (x : AsySeq) :
    Dev.Keeps d (Dev.setSeqr d q x) := by
  unfold Dev.setSeqr
  repeat first | with_reducible exact Dev.Keeps.refl _ | with_reducible refine (Dev.setAsy_keeps ..).after ?_

theorem Dev.setArea_keeps (d : Dev) (a : Nat) (x : AsyArea) :
    Dev.Keeps d (Dev.setArea d a x) := by
  unfold Dev.setArea
  repeat first | with_reducible exact Dev.Keeps.refl _ | with_reducible refine (Dev.setAsy_keeps ..).after ?_

theorem Dev.setTrend_keeps (d : Dev) (n : Nat) (x : Trend) :
    Dev.Keeps d (Dev.setTrend d n x) := by
  unfold Dev.setTrend
  repeat first | with_reducible exact Dev.Keeps.refl _ | with_reducible refine (Dev.setAsy_keeps ..).after ?_

theorem Dev.present_keeps (d : Dev) (p : Pres) :
    Dev.Keeps d (Dev.present d p) := by
  unfold Dev.present
  repeat first
    | with_reducible exact Dev.Keeps.refl _ | with_reducible refine Dev.Keeps.ite ?_ ?_
    | with_reducible refine (Dev.setAsy_keeps ..).after ?_

theorem Dev.areaState_keeps (d : Dev) (a st : Nat) :
    Dev.Keeps d (Dev.areaState d a st) := by
  unfold Dev.areaState
  repeat first | with_reducible exact Dev.Keeps.refl _ | with_reducible refine (Dev.setF_keeps ..).after ?_

theorem Dev.areaStop_keeps (d : Dev) (a maskno : Nat) :
    Dev.Keeps d (Dev.areaStop d a maskno) := by
  unfold Dev.areaStop
  repeat first
    | with_reducible exact Dev.Keeps.refl _ | with_reducible refine (Dev.areaState_keeps ..).after ?_
    | with_reducible refine (Dev.flag_keeps ..).after ?_ | with_reducible refine (Dev.record_keeps ..).after ?_

theorem Dev.arm_keeps (d : Dev) (a : Nat) :
    Dev.Keeps d (Dev.arm d a) := by
  unfold Dev.arm
  extract_lets a0 a1 a2 a3 a4
  have h3 : Dev.Keeps d a3 := by
    unfold a3
    repeat first | with_reducible exact Dev.Keeps.refl _ | with_reducible refine (Dev.setArea_keeps ..).after ?_
  clear_value a3
  repeat first
    | with_reducible assumption | with_reducible refine Dev.Keeps.ite ?_ ?_ | with_reducible refine (Dev.setB_keeps ..).after ?_
    | with_reducible refine (Dev.areaState_keeps ..).after ?_

theorem Dev.accept_keeps (d : Dev) (a inst prim smask psrc from_ flags : Nat) (maskno : Option Nat) :
    Dev.Keeps d (Dev.accept d a inst prim smask psrc from_ flags maskno) := by
  unfold Dev.accept
  extract_lets a0 a1
  repeat first
    | with_reducible exact Dev.Keeps.refl _ | with_reducible refine Dev.Keeps.ite ?_ ?_
    | with_reducible refine (Dev.setArea_keeps ..).after ?_ | with_reducible refine (Dev.areaState_keeps ..).after ?_
    | with_reducible refine (Dev.incF_keeps ..).after ?_ | split

theorem Dev.linkSend_keeps (d : Dev) (portD : Bool) (t payload : Nat) :
    Dev.Keeps d (Dev.linkSend d portD t payload) := by
  unfold Dev.linkSend
  repeat first | with_reducible exact Dev.Keeps.refl _ | fail_if_no_progress with_reducible refine Dev.Keeps.mk_ ?_ rfl rfl rfl rfl rfl

theorem Dev.linkOut_keeps (d : Dev) (line inst : Nat) :
    Dev.Keeps d (Dev.linkOut d line inst) := by
  unfold Dev.linkOut
  repeat first
    | with_reducible exact Dev.Keeps.refl _ | with_reducible refine Dev.Keeps.ite ?_ ?_
    | with_reducible refine (Dev.incF_keeps ..).after ?_ | with_reducible refine (Dev.linkSend_keeps ..).after ?_
    | with_reducible refine (Dev.present_keeps ..).after ?_

theorem Dev.seqEnter_keeps (d : Dev) (q st tick : Nat) :
    Dev.Keeps d (Dev.seqEnter d q st tick) := by
  unfold Dev.seqEnter
  repeat first
    | with_reducible exact Dev.Keeps.refl _ | with_reducible refine (Dev.setF_keeps ..).after ?_
    | with_reducible refine (Dev.setSeqr_keeps ..).after ?_

theorem Dev.seqTake_keeps (d : Dev) (q ev t : Nat) :
    Dev.Keeps d (Dev.seqTake d q ev t) := by
  unfold Dev.seqTake
  extract_lets a0 a1 a2 a3 a4 a5
  have h4 : Dev.Keeps d a4 := by
    unfold a4
    repeat first
      | with_reducible exact Dev.Keeps.refl _ | with_reducible refine Dev.Keeps.ite ?_ ?_
      | with_reducible refine (Dev.incF_keeps ..).after ?_ | with_reducible refine (Dev.accept_keeps ..).after ?_
  clear_value a4
  have h5 : Dev.Keeps d a5 := by
    unfold a5
    repeat first
      | with_reducible assumption | with_reducible refine Dev.Keeps.ite ?_ ?_
      | with_reducible refine (Dev.linkOut_keeps ..).after ?_
  clear_value a5
  repeat first
    | with_reducible assumption | with_reducible refine (Dev.incF_keeps ..).after ?_
    | with_reducible refine (Dev.seqEnter_keeps ..).after ?_

theorem Dev.seqPass_keeps (qs : List Nat) (d : Dev) : Dev.Keeps d (d.seqPass qs).1 := by
  induction qs generalizing d with
  | nil => exact .refl d
  | cons q qs ih =>
    unfold Dev.seqPass
    extract_lets e
    split
    · exact (ih _).after (Dev.seqTake_keeps ..)
    · exact ih d

theorem seqPasses_keeps (n : Nat) (qs : List Nat) (d : Dev) :
    Dev.Keeps d (seqPasses n qs d) := by
  induction n generalizing qs d with
  | zero => exact .refl d
  | succ n ih =>
    unfold seqPasses
    repeat first
      | with_reducible refine (ih ..).after ?_ | with_reducible exact Dev.Keeps.refl _ | with_reducible refine Dev.Keeps.ite ?_ ?_
      | with_reducible refine (Dev.seqPass_keeps ..).after ?_ | with_reducible refine (Dev.setSeqr_keeps ..).after ?_
      | with_reducible refine Dev.Keeps.fold _ _ _ ?_ (fun _ _ => ?_)

theorem Dev.maskStops_keeps (d : Dev) :
    Dev.Keeps d (Dev.maskStops d) := by
  unfold Dev.maskStops
  repeat first
    | with_reducible exact Dev.Keeps.refl _ | with_reducible refine Dev.Keeps.ite ?_ ?_
    | with_reducible refine (Dev.accept_keeps ..).after ?_ | with_reducible refine (Dev.setArea_keeps ..).after ?_
    | with_reducible refine Dev.Keeps.fold _ _ _ ?_ (fun _ _ => ?_) | extract_lets | split

theorem Dev.asyTick_keeps (d : Dev) :
    Dev.Keeps d (Dev.asyTick d) := by
  unfold Dev.asyTick
  repeat first
    | with_reducible exact Dev.Keeps.refl _ | with_reducible refine Dev.Keeps.ite ?_ ?_
    | with_reducible refine (Dev.seqEnter_keeps ..).after ?_ | with_reducible refine (seqPasses_keeps ..).after ?_
    | with_reducible refine (Dev.maskStops_keeps ..).after ?_ | with_reducible refine (Dev.setAsy_keeps ..).after ?_
    | with_reducible refine Dev.Keeps.fold _ _ _ ?_ (fun _ _ => ?_)

theorem execSequencerTick_keeps {s t : State} (h : execSequencerTick s = .next t) :
    Dev.Keeps s.dev t.dev := by
  refine State.up_keeps (fun d => ?_) h
  repeat first | with_reducible exact Dev.Keeps.refl _ | with_reducible refine (Dev.asyTick_keeps ..).after ?_

theorem execSequencerTimerExpiry_keeps (q : Fin 8) (i : Fin 2) {s t : State} (h : execSequencerTimerExpiry q i s = .next t) :
    Dev.Keeps s.dev t.dev := by
  refine State.up_keeps (fun d => ?_) h
  extract_lets a0
  repeat first
    | with_reducible exact Dev.Keeps.refl _ | with_reducible refine Dev.Keeps.ite ?_ ?_
    | with_reducible refine (Dev.setSeqr_keeps ..).after ?_

theorem Dev.sqctlWritten_keeps (d : Dev) (q : Nat) (oldRun restart : Bool) :
    Dev.Keeps d (Dev.sqctlWritten d q oldRun restart) := by
  unfold Dev.sqctlWritten
  extract_lets a0 a1 a2 a3
  have h2 : Dev.Keeps d a2 := by
    unfold a2
    repeat first | with_reducible exact Dev.Keeps.refl _ | with_reducible refine (Dev.setB_keeps ..).after ?_
  clear_value a2
  have h3 : Dev.Keeps d a3 := by
    unfold a3
    repeat first
      | with_reducible assumption | with_reducible refine Dev.Keeps.ite ?_ ?_
      | with_reducible refine (Dev.seqEnter_keeps ..).after ?_
  clear_value a3
  repeat first
    | with_reducible assumption | with_reducible refine Dev.Keeps.ite ?_ ?_
    | with_reducible refine (Dev.setSeqr_keeps ..).after ?_

theorem Dev.seqItemCommitted_keeps (d : Dev) :
    Dev.Keeps d (Dev.seqItemCommitted d) := by
  unfold Dev.seqItemCommitted
  extract_lets a0 a1
  repeat first | with_reducible exact Dev.Keeps.refl _ | with_reducible refine (Dev.setAsy_keeps ..).after ?_

theorem Dev.rawRing_keeps (d : Dev) (b : LumpBody) :
    Dev.Keeps d (Dev.rawRing d b) := by
  unfold Dev.rawRing
  repeat first | with_reducible exact Dev.Keeps.refl _ | with_reducible refine (Dev.setAsy_keeps ..).after ?_ | extract_lets | split

theorem Dev.cmpRange_keeps (d : Dev) (r n : Nat) :
    Dev.Keeps d (Dev.cmpRange d r n) := by
  unfold Dev.cmpRange
  extract_lets a0 a1 a2 a3 a4 a5 a6
  repeat first
    | with_reducible exact Dev.Keeps.refl _ | with_reducible refine (Dev.setAsy_keeps ..).after ?_
    | with_reducible refine (Dev.incF_keeps ..).after ?_ | with_reducible refine (Dev.addF_keeps ..).after ?_
    | with_reducible refine (Dev.present_keeps ..).after ?_ | split

theorem execRawCrossingPresent_keeps (h : Half) (n : BitVec 48) {s t : State} (h : execRawCrossingPresent h n s = .next t) :
    Dev.Keeps s.dev t.dev := by
  refine State.up_keeps (fun d => ?_) h
  extract_lets a0 a1
  repeat first
    | with_reducible exact Dev.Keeps.refl _ | with_reducible refine Dev.Keeps.ite ?_ ?_
    | with_reducible refine (Dev.setAsy_keeps ..).after ?_ | with_reducible refine (Dev.cmpRange_keeps ..).after ?_
    | with_reducible refine Dev.Keeps.fold _ _ _ ?_ (fun _ _ => ?_)

theorem Dev.store_keeps (d : Dev) (addr : Nat) (b : List Byte) :
    Dev.Keeps d (Dev.store d addr b) := by
  unfold Dev.store
  repeat first
    | with_reducible exact Dev.Keeps.refl _ | with_reducible refine (Dev.sendLump_keeps ..).after ?_
    | with_reducible refine Dev.Keeps.fold _ _ _ ?_ (fun _ _ => ?_)

theorem Dev.storeTake_sound (d : Dev) (addr : Nat) (b : List Byte) : Dev.Sound d (d.storeTake addr b) :=
  (Dev.unpoison_keeps ..).sound.after (.ofRecMem fun h => Memory.wf_writeBytes _ _ _ h)

theorem Dev.segEnd_keeps (d : Dev) (a : Nat) (s : AsySeg) (lost : Bool) :
    Dev.Keeps d (Dev.segEnd d a s lost) := by
  unfold Dev.segEnd
  extract_lets a0 a1 a2 a3 a4 a5 a6 a7 a8 a9 a10 a11
  have h6 : Dev.Keeps d a6 := by
    unfold a6
    repeat first | with_reducible exact Dev.Keeps.refl _ | with_reducible refine (Dev.store_keeps ..).after ?_
  clear_value a6
  have h8 : Dev.Keeps d a8 := by
    unfold a8
    repeat first | with_reducible assumption | with_reducible refine (Dev.incWrap_keeps ..).after ?_
  clear_value a8
  have h10 : Dev.Keeps d a10 := by
    unfold a10
    repeat first | with_reducible assumption | with_reducible refine (Dev.setArea_keeps ..).after ?_
  clear_value a10
  have h11 : Dev.Keeps d a11 := by
    unfold a11
    repeat first
      | with_reducible assumption | with_reducible refine Dev.Keeps.ite ?_ ?_ | with_reducible refine (Dev.incF_keeps ..).after ?_
      | with_reducible refine (Dev.flag_keeps ..).after ?_ | with_reducible refine (Dev.record_keeps ..).after ?_
  clear_value a11
  repeat first
    | with_reducible assumption | with_reducible refine Dev.Keeps.ite ?_ ?_
    | with_reducible refine (Dev.areaStop_keeps ..).after ?_ | with_reducible refine (Dev.arm_keeps ..).after ?_
    | with_reducible refine (Dev.areaState_keeps ..).after ?_ | split

theorem Dev.segmentCaptureEnd_keeps (d : Dev) (a : Fin 8) (full : Bool) :
    Dev.Keeps d (Dev.segmentCaptureEnd d a full) := by
  unfold Dev.segmentCaptureEnd
  repeat first
    | with_reducible exact Dev.Keeps.refl _ | with_reducible refine Dev.Keeps.ite ?_ ?_
    | with_reducible refine (Dev.segEnd_keeps ..).after ?_ | split

theorem Dev.ridxWritten_keeps (d : Dev) (a : Nat) :
    Dev.Keeps d (Dev.ridxWritten d a) := by
  unfold Dev.ridxWritten
  repeat first
    | with_reducible exact Dev.Keeps.refl _ | with_reducible refine Dev.Keeps.ite ?_ ?_
    | with_reducible refine (Dev.arm_keeps ..).after ?_

theorem Dev.areaCommitted_keeps (d : Dev) (a : Nat) (oldRun restart : Bool) :
    Dev.Keeps d (Dev.areaCommitted d a oldRun restart) := by
  unfold Dev.areaCommitted
  extract_lets a0 a1 a2
  repeat first
    | with_reducible exact Dev.Keeps.refl _ | with_reducible refine Dev.Keeps.ite ?_ ?_
    | with_reducible refine (Dev.setArea_keeps ..).after ?_ | with_reducible refine (Dev.areaState_keeps ..).after ?_
    | with_reducible refine (Dev.arm_keeps ..).after ?_

theorem Dev.maskStep_keeps (d : Dev) (m n k qual : Nat) (v : Rat) (inst : Nat) :
    Dev.Keeps d (Dev.maskStep d m n k qual v inst) := by
  unfold Dev.maskStep
  extract_lets a0 a1 a2 a3 a4 a5 a6 a7
  have h7 : Dev.Keeps d a7 := by
    unfold a7
    repeat first | with_reducible exact Dev.Keeps.refl _ | with_reducible refine (Dev.setAsy_keeps ..).after ?_
  clear_value a7
  repeat first
    | with_reducible assumption | with_reducible refine Dev.Keeps.ite ?_ ?_ | with_reducible refine (Dev.setB_keeps ..).after ?_
    | with_reducible refine (Dev.incF_keeps ..).after ?_ | with_reducible refine (Dev.flag_keeps ..).after ?_
    | with_reducible refine (Dev.record_keeps ..).after ?_ | with_reducible refine (Dev.present_keeps ..).after ?_

theorem Dev.maskCommitted_keeps (d : Dev) (m : Nat) :
    Dev.Keeps d (Dev.maskCommitted d m) := by
  unfold Dev.maskCommitted
  repeat first
    | with_reducible exact Dev.Keeps.refl _ | with_reducible refine (Dev.setAsy_keeps ..).after ?_
    | with_reducible refine (Dev.setF_keeps ..).after ?_

theorem Dev.envCommitted_keeps (d : Dev) :
    Dev.Keeps d (Dev.envCommitted d) := by
  unfold Dev.envCommitted
  extract_lets a0
  repeat first | with_reducible exact Dev.Keeps.refl _ | with_reducible refine (Dev.setAsy_keeps ..).after ?_

theorem Dev.trendStep_keeps (d : Dev) (n dom k t16 qual : Nat) (v : Rat) :
    Dev.Keeps d (Dev.trendStep d n dom k t16 qual v) := by
  unfold Dev.trendStep
  extract_lets a0 a1 a2 a3 a4 a5 a6 a7
  repeat first | with_reducible exact Dev.Keeps.refl _ | with_reducible refine (Dev.setTrend_keeps ..).after ?_

theorem Dev.storeRing_keeps (d : Dev) (base size pos : Nat) (b : List Byte) :
    Dev.Keeps d (Dev.storeRing d base size pos b) := by
  unfold Dev.storeRing
  extract_lets a0
  repeat first | with_reducible exact Dev.Keeps.refl _ | with_reducible refine (Dev.store_keeps ..).after ?_

theorem Dev.trendIntervalEnd_keeps (d : Dev) (full : Bool) :
    Dev.Keeps d (Dev.trendIntervalEnd d full) := by
  unfold Dev.trendIntervalEnd
  repeat first
    | with_reducible exact Dev.Keeps.refl _ | with_reducible refine Dev.Keeps.ite ?_ ?_
    | with_reducible refine (Dev.setTrend_keeps ..).after ?_ | with_reducible refine (Dev.incF_keeps ..).after ?_
    | with_reducible refine (Dev.storeRing_keeps ..).after ?_ | with_reducible refine (Dev.incWrap_keeps ..).after ?_
    | extract_lets | split

theorem Dev.trendStart_keeps (d : Dev) (n : Nat) :
    Dev.Keeps d (Dev.trendStart d n) := by
  unfold Dev.trendStart
  repeat first | with_reducible exact Dev.Keeps.refl _ | with_reducible refine (Dev.setTrend_keeps ..).after ?_ | extract_lets | split

theorem Dev.pointPresent_keeps (d : Dev) (dom k t16 addr qual val val2 : Nat) :
    Dev.Keeps d (Dev.pointPresent d dom k t16 addr qual val val2) := by
  unfold Dev.pointPresent
  extract_lets a0 a1 a2 a3 a4
  have h4 : Dev.Keeps d a4 := by
    unfold a4
    repeat first
      | with_reducible exact Dev.Keeps.refl _ | with_reducible refine (Dev.setAsy_keeps ..).after ?_
      | with_reducible refine (Dev.present_keeps ..).after ?_
  clear_value a4
  repeat first
    | with_reducible assumption | with_reducible exact Dev.Keeps.refl _ | with_reducible refine Dev.Keeps.ite ?_ ?_
    | with_reducible refine (Dev.maskStep_keeps ..).after ?_ | with_reducible refine (Dev.trendStep_keeps ..).after ?_
    | with_reducible refine Dev.Keeps.fold _ _ _ ?_ (fun _ _ => ?_)

theorem Dev.asyPoints_keeps (d : Dev) (pit k24 dom : Nat) (es : List (Nat × Nat × Nat)) :
    Dev.Keeps d (Dev.asyPoints d pit k24 dom es) := by
  unfold Dev.asyPoints
  repeat first
    | with_reducible exact Dev.Keeps.refl _ | with_reducible refine Dev.Keeps.ite ?_ ?_
    | with_reducible refine (Dev.setAsy_keeps ..).after ?_ | with_reducible refine (Dev.pointPresent_keeps ..).after ?_
    | with_reducible refine Dev.Keeps.fold _ _ _ ?_ (fun _ _ => ?_) | extract_lets | split

theorem Dev.asyTwu_keeps (d : Dev) (g arr : Nat) :
    Dev.Keeps d (Dev.asyTwu d g arr) := by
  unfold Dev.asyTwu
  repeat first | with_reducible exact Dev.Keeps.refl _ | with_reducible refine (Dev.present_keeps ..).after ?_

theorem Dev.asyStart_keeps (d : Dev) :
    Dev.Keeps d (Dev.asyStart d) := by
  unfold Dev.asyStart
  extract_lets a0 a1 a2
  have h1 : Dev.Keeps d a1 := by
    unfold a1
    repeat first | with_reducible exact Dev.Keeps.refl _ | with_reducible refine (Dev.setAsy_keeps ..).after ?_
  clear_value a1
  have h2 : Dev.Keeps d a2 := by
    unfold a2
    repeat first
      | with_reducible assumption | with_reducible exact Dev.Keeps.refl _ | with_reducible refine Dev.Keeps.ite ?_ ?_
      | with_reducible refine (Dev.setF_keeps ..).after ?_ | with_reducible refine (Dev.seqEnter_keeps ..).after ?_
      | with_reducible refine Dev.Keeps.fold _ _ _ ?_ (fun _ _ => ?_)
  clear_value a2
  repeat first
    | with_reducible assumption | with_reducible exact Dev.Keeps.refl _ | with_reducible refine Dev.Keeps.ite ?_ ?_
    | with_reducible refine (Dev.arm_keeps ..).after ?_ | with_reducible refine (Dev.trendStart_keeps ..).after ?_
    | with_reducible refine Dev.Keeps.fold _ _ _ ?_ (fun _ _ => ?_)

theorem Dev.asyStop_keeps (d : Dev) :
    Dev.Keeps d (Dev.asyStop d) := by
  unfold Dev.asyStop
  repeat first
    | with_reducible exact Dev.Keeps.refl _ | with_reducible refine (Dev.setF_keeps ..).after ?_
    | with_reducible refine (Dev.setAsy_keeps ..).after ?_ | with_reducible refine Dev.Keeps.fold _ _ _ ?_ (fun _ _ => ?_)

end Sys2Proof.Machine
end

