-- ==== Sys2Proof/Laws/KeepsTlk.lean ====
section
/-! SUPPORT. What the operations of Machine/Tlk.lean leave alone. -/
namespace Sys2Proof.Machine

theorem Dev.setTlk_keeps (d : Dev) (x : Tlk) :
    Dev.Keeps d (Dev.setTlk d x) := by
  unfold Dev.setTlk
  repeat first | with_reducible exact Dev.Keeps.refl _ | fail_if_no_progress with_reducible refine Dev.Keeps.mk_ ?_ rfl rfl rfl rfl rfl

theorem Dev.tlkState_keeps (d : Dev) (new : Nat) :
    Dev.Keeps d (Dev.tlkState d new) := by
  unfold Dev.tlkState
  extract_lets a0
  repeat first
    | with_reducible exact Dev.Keeps.refl _ | with_reducible refine Dev.Keeps.ite ?_ ?_
    | with_reducible refine (Dev.setF_keeps ..).after ?_ | with_reducible refine (Dev.record_keeps ..).after ?_

theorem Dev.tlkForget_keeps (d : Dev) :
    Dev.Keeps d (Dev.tlkForget d) := by
  unfold Dev.tlkForget
  repeat first
    | with_reducible exact Dev.Keeps.refl _ | with_reducible refine (Dev.setTlk_keeps ..).after ?_
    | with_reducible refine (Dev.setF_keeps ..).after ?_

theorem Dev.tlkLost_keeps (d : Dev) :
    Dev.Keeps d (Dev.tlkLost d) := by
  unfold Dev.tlkLost
  repeat first
    | with_reducible exact Dev.Keeps.refl _ | with_reducible refine Dev.Keeps.ite ?_ ?_
    | with_reducible refine (Dev.tlkState_keeps ..).after ?_ | with_reducible refine (Dev.flag_keeps ..).after ?_
    | with_reducible refine (Dev.tlkForget_keeps ..).after ?_

theorem Dev.tlkApply_keeps (d : Dev) :
    Dev.Keeps d (Dev.tlkApply d) := by
  unfold Dev.tlkApply
  repeat first
    | with_reducible exact Dev.Keeps.refl _ | with_reducible refine Dev.Keeps.ite ?_ ?_
    | with_reducible refine (Dev.setF_keeps ..).after ?_ | with_reducible refine (Dev.tlkForget_keeps ..).after ?_
    | with_reducible refine (Dev.tlkState_keeps ..).after ?_

theorem Dev.tlkCtlWritten_keeps (d : Dev) (changed : Bool) :
    Dev.Keeps d (Dev.tlkCtlWritten d changed) := by
  unfold Dev.tlkCtlWritten
  repeat first
    | with_reducible exact Dev.Keeps.refl _ | with_reducible refine Dev.Keeps.ite ?_ ?_
    | with_reducible refine (Dev.tlkForget_keeps ..).after ?_ | with_reducible refine (Dev.tlkState_keeps ..).after ?_
    | with_reducible refine (Dev.tlkApply_keeps ..).after ?_

theorem Dev.linkFrame_keeps (d : Dev) (f : BitVec 80) :
    Dev.Keeps d (Dev.linkFrame d f).1 := by
  unfold Dev.linkFrame
  repeat first
    | with_reducible exact Dev.Keeps.refl _ | with_reducible refine Dev.Keeps.ite ?_ ?_
    | with_reducible refine (Dev.setTlk_keeps ..).after ?_ | with_reducible refine (Dev.incF_keeps ..).after ?_
    | with_reducible refine (Dev.tlkLost_keeps ..).after ?_ | extract_lets | split

theorem Dev.linkFrame_keeps_eq (d : Dev) (f : BitVec 80) {y : Dev} {z : Option Nat} (h : Dev.linkFrame d f = (y, z)) : Dev.Keeps d y := by
  have := Dev.linkFrame_keeps d f
  rw [h] at this
  exact this

theorem Dev.sendAdmin_keeps (d : Dev) :
    Dev.Keeps d (Dev.sendAdmin d) := by
  unfold Dev.sendAdmin
  repeat first | with_reducible exact Dev.Keeps.refl _ | with_reducible refine (Dev.linkSend_keeps ..).after ?_

theorem execHeadPps_keeps {s t : State} (h : execHeadPps s = .next t) :
    Dev.Keeps s.dev t.dev := by
  refine State.up_keeps (fun d => ?_) h
  repeat first
    | with_reducible exact Dev.Keeps.refl _ | with_reducible refine Dev.Keeps.ite ?_ ?_
    | with_reducible refine (Dev.sendAdmin_keeps ..).after ?_ | extract_lets
    | fail_if_no_progress with_reducible refine Dev.Keeps.mk_ ?_ rfl rfl rfl rfl rfl

theorem execPpsEdgeReceive_keeps (drift : BitVec 32) {s t : State} (h : execPpsEdgeReceive drift s = .next t) :
    Dev.Keeps s.dev t.dev := by
  refine State.up_keeps (fun d => ?_) h
  repeat first
    | with_reducible exact Dev.Keeps.refl _ | with_reducible refine Dev.Keeps.ite ?_ ?_
    | with_reducible refine (Dev.setTlk_keeps ..).after ?_ | with_reducible refine (Dev.tlkState_keeps ..).after ?_ | extract_lets
    | split | fail_if_no_progress with_reducible refine Dev.Keeps.mk_ ?_ rfl rfl rfl rfl rfl

theorem execProbeSend_keeps {s t : State} (h : execProbeSend s = .next t) :
    Dev.Keeps s.dev t.dev := by
  refine State.up_keeps (fun d => ?_) h
  repeat first
    | with_reducible exact Dev.Keeps.refl _ | with_reducible refine Dev.Keeps.ite ?_ ?_
    | with_reducible refine (Dev.linkSend_keeps ..).after ?_ | with_reducible refine (Dev.setTlk_keeps ..).after ?_

theorem Dev.takePos_keeps (d : Dev) (origin : Nat) :
    Dev.Keeps d (Dev.takePos d origin) := by
  unfold Dev.takePos
  repeat first
    | with_reducible exact Dev.Keeps.refl _ | with_reducible refine Dev.Keeps.ite ?_ ?_
    | with_reducible refine (Dev.setF_keeps ..).after ?_ | with_reducible refine (Dev.tlkState_keeps ..).after ?_

theorem execProbeReceive_keeps (f : BitVec 80) {s t : State} (h : execProbeReceive f s = .next t) :
    Dev.Keeps s.dev t.dev := by
  refine State.up_keeps (fun d => ?_) h
  repeat first
    | with_reducible exact Dev.Keeps.refl _ | with_reducible refine Dev.Keeps.ite ?_ ?_
    | with_reducible refine (Dev.linkFrame_keeps_eq (h := by assumption) ..).after ?_
    | with_reducible refine (Dev.takePos_keeps ..).after ?_ | with_reducible refine (Dev.linkSend_keeps ..).after ?_
    | with_reducible refine (Dev.setTlk_keeps ..).after ?_ | extract_lets | split

theorem execEchoReceive_keeps (f : BitVec 80) (rt : BitVec 32) {s t : State} (h : execEchoReceive f rt s = .next t) :
    Dev.Keeps s.dev t.dev := by
  refine State.up_keeps (fun d => ?_) h
  repeat first
    | with_reducible exact Dev.Keeps.refl _ | with_reducible refine Dev.Keeps.ite ?_ ?_
    | with_reducible refine (Dev.linkFrame_keeps_eq (h := by assumption) ..).after ?_
    | with_reducible refine (Dev.setTlk_keeps ..).after ?_ | with_reducible refine (Dev.sendAdmin_keeps ..).after ?_
    | extract_lets | split

theorem Dev.resolveSecond_keeps (d : Dev) (low : Nat) :
    Dev.Keeps d (Dev.resolveSecond d low).1 := by
  unfold Dev.resolveSecond
  repeat first | with_reducible exact Dev.Keeps.refl _ | with_reducible refine (Dev.draw_keeps ..).after ?_ | split

theorem Dev.resolveSecond_keeps_eq (d : Dev) (low : Nat) {y : Dev} {z : Nat} (h : Dev.resolveSecond d low = (y, z)) : Dev.Keeps d y := by
  have := Dev.resolveSecond_keeps d low
  rw [h] at this
  exact this

theorem execAdminReceive_keeps (f : BitVec 80) {s t : State} (h : execAdminReceive f s = .next t) :
    Dev.Keeps s.dev t.dev := by
  refine State.up_keeps (fun d => ?_) h
  repeat first
    | with_reducible exact Dev.Keeps.refl _ | with_reducible refine Dev.Keeps.ite ?_ ?_
    | with_reducible refine (Dev.linkFrame_keeps_eq (h := by assumption) ..).after ?_
    | with_reducible refine (Dev.takePos_keeps ..).after ?_ | with_reducible refine (Dev.setF_keeps ..).after ?_
    | with_reducible refine (Dev.setTlk_keeps ..).after ?_ | with_reducible refine (Dev.resolveSecond_keeps ..).after ?_
    | with_reducible refine (Dev.sendAdmin_keeps ..).after ?_ | extract_lets | split

theorem execLinkDown_keeps {s t : State} (h : execLinkDown s = .next t) :
    Dev.Keeps s.dev t.dev := by
  refine State.up_keeps (fun d => ?_) h
  repeat first
    | with_reducible exact Dev.Keeps.refl _ | with_reducible refine Dev.Keeps.ite ?_ ?_
    | with_reducible refine (Dev.tlkLost_keeps ..).after ?_

theorem execTriggerFrameReceive_keeps (portD : Bool) (f : BitVec 80) {s t : State} (h : execTriggerFrameReceive portD f s = .next t) :
    Dev.Keeps s.dev t.dev := by
  refine State.up_keeps (fun d => ?_) h
  repeat first
    | with_reducible exact Dev.Keeps.refl _ | with_reducible refine Dev.Keeps.ite ?_ ?_
    | with_reducible refine (Dev.linkFrame_keeps_eq (h := by assumption) ..).after ?_
    | with_reducible refine (Dev.incF_keeps ..).after ?_ | with_reducible refine (Dev.linkSend_keeps ..).after ?_
    | with_reducible refine (Dev.draw_keeps ..).after ?_ | with_reducible refine (Dev.present_keeps ..).after ?_ | extract_lets
    | split

end Sys2Proof.Machine
end

