-- ==== Sys2Proof/Laws/KeepsTally.lean ====
section
/-! SUPPORT. What the operations of Machine/Tally.lean leave alone. -/
namespace Sys2Proof.Machine

theorem Dev.setTly_keeps (d : Dev) (x : Tally) :
    Dev.Keeps d (Dev.setTly d x) := by
  unfold Dev.setTly
  repeat first | with_reducible exact Dev.Keeps.refl _ | fail_if_no_progress with_reducible refine Dev.Keeps.mk_ ?_ rfl rfl rfl rfl rfl

theorem Dev.setTlyCh_keeps (d : Dev) (c : Nat) (x : TlyCh) :
    Dev.Keeps d (Dev.setTlyCh d c x) := by
  unfold Dev.setTlyCh
  repeat first
    | with_reducible exact Dev.Keeps.refl _ | extract_lets
    | fail_if_no_progress with_reducible refine Dev.Keeps.mk_ ?_ rfl rfl rfl rfl rfl

theorem wf_writeUnits (us : List (List Byte)) (m : Memory) (base size units pos : Nat) (h : Memory.wf m = true) :
    Memory.wf (writeUnits m base size units pos us) = true := by
  induction us generalizing m pos with
  | nil => exact h
  | cons u us ih => exact ih _ _ (Memory.wf_writeBytes _ _ _ h)

theorem Dev.tlyPut_sound (d : Dev) (c : Nat) (r : RelRec) (side toNear : Bool) : Dev.Sound d (d.tlyPut c r side toNear) := by
  unfold Dev.tlyPut
  extract_lets x us n y0 go y1 near farGo fits y2 nv1 d1 d2 d3 q
  have h1 : Dev.Sound d d1 := by
    refine .ofNear fun h => ?_
    unfold near
    split
    · exact wf_writeUnits _ _ _ _ _ _ h
    · exact h
  have h2 : Dev.Sound d d2 := .ite (.fold _ _ _ h1 fun _ _ => (Dev.unpoison_keeps ..).sound) h1
  have h3 : Dev.Sound d d3 := (Dev.setTlyCh_keeps ..).sound.after h2
  clear_value d3
  split
  · split
    · exact (Dev.setTly_keeps ..).sound.after h3
    · exact (Dev.setTly_keeps ..).sound.after h3
  · exact h3

theorem Dev.tlyDirect_sound (d : Dev) (c typ tsc : Nat) (src : Nat) (fields : List (Nat × Nat)) :
    Dev.Sound d (Dev.tlyDirect d c typ tsc src fields) := by
  unfold Dev.tlyDirect
  repeat first | with_reducible exact Dev.Sound.refl _ | with_reducible refine (Dev.tlyPut_sound ..).after ?_

theorem Dev.showSide_keeps (d : Dev) (c : Nat) :
    Dev.Keeps d (Dev.showSide d c) := by
  unfold Dev.showSide
  extract_lets a0 a1
  have h1 : Dev.Keeps d a1 := by
    unfold a1
    repeat first
      | with_reducible exact Dev.Keeps.refl _ | with_reducible refine (Dev.setB_keeps ..).after ?_
      | with_reducible refine (Dev.setF_keeps ..).after ?_
  clear_value a1
  repeat first
    | with_reducible assumption | with_reducible refine Dev.Keeps.ite ?_ ?_ | with_reducible refine (Dev.setBit_keeps ..).after ?_
    | with_reducible refine (Dev.clrBit_keeps ..).after ?_

theorem Dev.sideOut_sound (d : Dev) (c : Nat) :
    Dev.Sound d (Dev.sideOut d c) := by
  unfold Dev.sideOut
  extract_lets a0
  repeat first
    | with_reducible exact Dev.Sound.refl _ | with_reducible refine (Dev.tlyPut_sound ..).after ?_
    | with_reducible refine (Dev.setTlyCh_keeps ..).sound.after ?_ | with_reducible refine (Dev.showSide_keeps ..).sound.after ?_
    | with_reducible refine Dev.Sound.fold _ _ _ ?_ (fun _ _ => ?_)

theorem Dev.freezeBroken_sound (d : Dev) (c : Nat) (r : RelRec) :
    Dev.Sound d (Dev.freezeBroken d c r) := by
  unfold Dev.freezeBroken
  extract_lets a0 a1 a2 a3
  have h0 : Dev.Sound d a0 := by
    unfold a0
    repeat first
      | with_reducible exact Dev.Sound.refl _ | with_reducible refine (Dev.sideOut_sound ..).after ?_
      | with_reducible refine (Dev.tlyPut_sound ..).after ?_
  clear_value a0
  have h2 : Dev.Sound d a2 := by
    unfold a2
    repeat first | with_reducible assumption | with_reducible refine (Dev.tlyPut_sound ..).after ?_
  clear_value a2
  repeat first
    | with_reducible assumption | with_reducible refine (Dev.setF_keeps ..).sound.after ?_
    | with_reducible refine (Dev.setTlyCh_keeps ..).sound.after ?_ | with_reducible refine (Dev.flag_keeps ..).sound.after ?_
    | with_reducible refine (Dev.showSide_keeps ..).sound.after ?_

theorem Dev.tlyRelease_sound (d : Dev) (r : Record) :
    Dev.Sound d (Dev.tlyRelease d r) := by
  unfold Dev.tlyRelease
  repeat first
    | with_reducible exact Dev.Sound.refl _ | with_reducible refine Dev.Sound.ite ?_ ?_
    | with_reducible refine (Dev.incF_keeps ..).sound.after ?_ | with_reducible refine (Dev.freezeBroken_sound ..).after ?_
    | with_reducible refine (Dev.setTlyCh_keeps ..).sound.after ?_ | with_reducible refine (Dev.showSide_keeps ..).sound.after ?_
    | with_reducible refine (Dev.tlyPut_sound ..).after ?_ | with_reducible refine Dev.Sound.fold _ _ _ ?_ (fun _ _ => ?_)

theorem Dev.releaseFirst_sound (d : Dev) :
    Dev.Sound d (Dev.releaseFirst d) := by
  unfold Dev.releaseFirst
  repeat first
    | with_reducible exact Dev.Sound.refl _ | with_reducible refine (Dev.setTly_keeps ..).sound.after ?_
    | with_reducible refine (Dev.tlyRelease_sound ..).after ?_ | extract_lets | split

theorem Dev.recordRelease_sound (d : Dev) :
    Dev.Sound d (Dev.recordRelease d) := by
  unfold Dev.recordRelease
  repeat first
    | with_reducible exact Dev.Sound.refl _ | with_reducible refine Dev.Sound.ite ?_ ?_
    | with_reducible refine (Dev.releaseFirst_sound ..).after ?_ | split

theorem Dev.mergeIn_sound (d : Dev) (r : Record) :
    Dev.Sound d (Dev.mergeIn d r) := by
  unfold Dev.mergeIn
  extract_lets a0
  repeat first
    | with_reducible exact Dev.Sound.refl _ | with_reducible refine Dev.Sound.ite ?_ ?_
    | with_reducible refine (Dev.tlyRelease_sound ..).after ?_ | with_reducible refine (Dev.incF_keeps ..).sound.after ?_
    | with_reducible refine (Dev.flag_keeps ..).sound.after ?_ | with_reducible refine (Dev.setTly_keeps ..).sound.after ?_

theorem Dev.retrigger_keeps (d : Dev) (c typ src tsc : Nat) (key : Nat × Nat × Nat) :
    Dev.Keeps d (Dev.retrigger d c typ src tsc key) := by
  unfold Dev.retrigger
  extract_lets a0
  repeat first | with_reducible exact Dev.Keeps.refl _ | with_reducible refine (Dev.setTly_keeps ..).after ?_

theorem Dev.capture_sound (d : Dev) (c typ src tsc order : Nat) (peek : Dev → Nat → Nat) :
    Dev.Sound d (Dev.capture d c typ src tsc order peek) := by
  unfold Dev.capture
  extract_lets a0
  repeat first
    | with_reducible exact Dev.Sound.refl _ | with_reducible refine Dev.Sound.ite ?_ ?_
    | with_reducible refine (Dev.retrigger_keeps ..).sound.after ?_ | with_reducible refine (Dev.incF_keeps ..).sound.after ?_
    | with_reducible refine (Dev.setTly_keeps ..).sound.after ?_ | with_reducible refine (Dev.mergeIn_sound ..).after ?_
    | extract_lets | split | fail_if_no_progress with_reducible refine Dev.Sound.mk_ ?_ rfl rfl rfl rfl

theorem Dev.tlyTake_sound (d : Dev) (r : Record) (peek : Dev → Nat → Nat) :
    Dev.Sound d (Dev.tlyTake d r peek) := by
  unfold Dev.tlyTake
  extract_lets a0
  have h0 : Dev.Sound d a0 := by
    unfold a0
    repeat first | with_reducible exact Dev.Sound.refl _ | with_reducible refine (Dev.mergeIn_sound ..).after ?_
  clear_value a0
  repeat first
    | with_reducible assumption | with_reducible exact Dev.Sound.refl _ | with_reducible refine Dev.Sound.ite ?_ ?_
    | with_reducible refine (Dev.capture_sound ..).after ?_ | with_reducible refine Dev.Sound.fold _ _ _ ?_ (fun _ _ => ?_)

theorem Dev.recordArrival_sound (d : Dev) (peek : Dev → Nat → Nat) :
    Dev.Sound d (Dev.recordArrival d peek) := by
  unfold Dev.recordArrival
  repeat first
    | with_reducible exact Dev.Sound.refl _ | with_reducible refine Dev.Sound.ite ?_ ?_
    | with_reducible refine (Dev.takeLump_keeps_eq (h := by assumption) ..).sound.after ?_
    | with_reducible refine (Dev.tlyTake_sound ..).after ?_ | extract_lets | split

theorem Dev.frzWritten_sound (d : Dev) (c src : Nat) (was strig : Bool) (peek : Dev → Nat → Nat) :
    Dev.Sound d (Dev.frzWritten d c src was strig peek) := by
  unfold Dev.frzWritten
  extract_lets a0 a1
  have h1 : Dev.Sound d a1 := by
    unfold a1
    repeat first
      | with_reducible exact Dev.Sound.refl _ | with_reducible refine Dev.Sound.ite ?_ ?_
      | with_reducible refine (Dev.sideOut_sound ..).after ?_ | with_reducible refine (Dev.showSide_keeps ..).sound.after ?_
  clear_value a1
  repeat first
    | with_reducible assumption | with_reducible refine Dev.Sound.ite ?_ ?_
    | with_reducible refine (Dev.capture_sound ..).after ?_

theorem Dev.snapListCommitted_keeps (d : Dev) (c : Nat) :
    Dev.Keeps d (Dev.snapListCommitted d c) := by
  unfold Dev.snapListCommitted
  repeat first | with_reducible exact Dev.Keeps.refl _ | with_reducible refine (Dev.incWrap_keeps ..).after ?_

theorem Dev.logOpen_sound (d : Dev) (c : Nat) :
    Dev.Sound d (Dev.logOpen d c) := by
  unfold Dev.logOpen
  extract_lets a0
  repeat first | with_reducible exact Dev.Sound.refl _ | with_reducible refine (Dev.tlyDirect_sound ..).after ?_

theorem Dev.tlyCommitted_sound (d : Dev) (c : Nat) :
    Dev.Sound d (Dev.tlyCommitted d c) := by
  unfold Dev.tlyCommitted
  extract_lets a0 a1
  repeat first
    | with_reducible exact Dev.Sound.refl _ | with_reducible refine Dev.Sound.ite ?_ ?_
    | with_reducible refine (Dev.setTlyCh_keeps ..).sound.after ?_ | with_reducible refine (Dev.setTly_keeps ..).sound.after ?_
    | with_reducible refine (Dev.logOpen_sound ..).after ?_

theorem Dev.tlyBoot_keeps (d : Dev) :
    Dev.Keeps d (Dev.tlyBoot d) := by
  unfold Dev.tlyBoot
  repeat first
    | with_reducible exact Dev.Keeps.refl _ | with_reducible refine (Dev.setB_keeps ..).after ?_
    | with_reducible refine (Dev.setF_keeps ..).after ?_ | with_reducible refine Dev.Keeps.fold _ _ _ ?_ (fun _ _ => ?_)

theorem Dev.nearStoreOpen_sound (d : Dev) :
    Dev.Sound d (Dev.nearStoreOpen d) := by
  unfold Dev.nearStoreOpen
  repeat first
    | with_reducible exact Dev.Sound.refl _ | with_reducible refine Dev.Sound.ite ?_ ?_
    | with_reducible refine (Dev.setTly_keeps ..).sound.after ?_ | with_reducible refine (Dev.sideOut_sound ..).after ?_
    | with_reducible refine (Dev.logOpen_sound ..).after ?_ | with_reducible refine (Dev.startSkip_keeps ..).sound.after ?_
    | with_reducible refine Dev.Sound.fold _ _ _ ?_ (fun _ _ => ?_)

theorem execFarStoreReady_sound {s t : State} (h : execFarStoreReady s = .next t) :
    Dev.Sound s.dev t.dev := by
  refine State.up_sound (fun d => ?_) h
  repeat first
    | with_reducible exact Dev.Sound.refl _ | with_reducible refine Dev.Sound.ite ?_ ?_
    | with_reducible refine (Dev.setF_keeps ..).sound.after ?_ | with_reducible refine (Dev.tlyPut_sound ..).after ?_
    | with_reducible refine (Dev.setTly_keeps ..).sound.after ?_ | with_reducible refine Dev.Sound.fold _ _ _ ?_ (fun _ _ => ?_)

theorem Dev.programPage_sound (d : Dev) (c : Nat) : Dev.Sound d (d.programPage c) := by
  unfold Dev.programPage
  split
  · exact .refl d
  · extract_lets x size n last stop far1 far2 rest nv1 tly1 d1
    have hw : ∀ (m : Memory) (a : Nat) (b : List Byte), Memory.wf m = true → Memory.wf (Memory.writeBytes m a b) = true :=
      fun m a b h => Memory.wf_writeBytes b m a h
    have hf : ∀ {β : Type} (l : List β) (g : Memory → β → Memory) (m : Memory), (∀ m x, Memory.wf m = true → Memory.wf (g m x) = true) →
        Memory.wf m = true → Memory.wf (l.foldl g m) = true := by
      intro β l g m hg hm
      induction l generalizing m with
      | nil => exact hm
      | cons x l ih => exact ih _ (hg _ _ hm)
    have h1 : Dev.Sound d d1 :=
      (Dev.setTly_keeps ..).sound.after (.ofFar fun h => hf _ _ _ (fun _ _ => hw _ _ _) (hf _ _ _ (fun _ _ => hw _ _ _) h))
    clear_value d1
    split
    · exact (Dev.setTlyCh_keeps ..).sound.after h1
    · exact h1

theorem execFarPageProgram_sound (c : Fin 8) {s t : State} (h : execFarPageProgram c s = .next t) :
    Dev.Sound s.dev t.dev := by
  refine State.up_sound (fun d => ?_) h
  repeat first
    | with_reducible exact Dev.Sound.refl _ | with_reducible refine Dev.Sound.ite ?_ ?_
    | with_reducible refine (Dev.programPage_sound ..).after ?_ | extract_lets | split

theorem Dev.farCut_keeps (d : Dev) :
    Dev.Keeps d (Dev.farCut d) := by
  unfold Dev.farCut
  repeat first
    | with_reducible exact Dev.Keeps.refl _ | with_reducible refine (Dev.setTlyCh_keeps ..).after ?_
    | with_reducible refine Dev.Keeps.fold _ _ _ ?_ (fun _ _ => ?_) | extract_lets | split

theorem Dev.logLoss_keeps (d : Dev) :
    Dev.Keeps d (Dev.logLoss d) := by
  unfold Dev.logLoss
  repeat first
    | with_reducible exact Dev.Keeps.refl _ | with_reducible refine Dev.Keeps.ite ?_ ?_
    | with_reducible refine (Dev.farea_keeps ..).after ?_ | with_reducible refine (Dev.trouble_keeps ..).after ?_
    | with_reducible refine (Dev.fire_keeps ..).after ?_ | with_reducible refine (Dev.postAlarm_keeps ..).after ?_ | extract_lets
    | fail_if_no_progress with_reducible refine Dev.Keeps.mk_ ?_ rfl rfl rfl rfl rfl

theorem Dev.storeFail_sound (d : Dev) (src cause addr : Nat) (peek : Dev → Nat → Nat) :
    Dev.Sound d (Dev.storeFail d src cause addr peek) := by
  unfold Dev.storeFail
  repeat first
    | with_reducible exact Dev.Sound.refl _ | with_reducible refine (Dev.tlyTake_sound ..).after ?_ | extract_lets
    | fail_if_no_progress with_reducible refine Dev.Sound.mk_ ?_ rfl rfl rfl rfl

theorem Dev.nearFail_sound (d : Dev) (scrub : Bool) (addr : Nat) (peek : Dev → Nat → Nat) :
    Dev.Sound d (Dev.nearFail d scrub addr peek) := by
  unfold Dev.nearFail
  repeat first
    | with_reducible exact Dev.Sound.refl _ | with_reducible refine Dev.Sound.ite ?_ ?_
    | with_reducible refine (Dev.setF_keeps ..).sound.after ?_ | with_reducible refine (Dev.trouble_keeps ..).sound.after ?_
    | with_reducible refine (Dev.fire_keeps ..).sound.after ?_ | with_reducible refine (Dev.storeFail_sound ..).after ?_
    | with_reducible refine (Dev.logLoss_keeps ..).sound.after ?_

theorem Dev.farFail_sound (d : Dev) (timeout : Bool) (addr : Nat) (peek : Dev → Nat → Nat) :
    Dev.Sound d (Dev.farFail d timeout addr peek) := by
  unfold Dev.farFail
  repeat first
    | with_reducible exact Dev.Sound.refl _ | with_reducible refine Dev.Sound.ite ?_ ?_
    | with_reducible refine (Dev.setF_keeps ..).sound.after ?_ | with_reducible refine (Dev.trouble_keeps ..).sound.after ?_
    | with_reducible refine (Dev.fire_keeps ..).sound.after ?_ | with_reducible refine (Dev.storeFail_sound ..).after ?_
    | with_reducible refine (Dev.logLoss_keeps ..).sound.after ?_

theorem Dev.storeOpsec_keeps (d : Dev) :
    Dev.Keeps d (Dev.storeOpsec d) := by
  unfold Dev.storeOpsec
  repeat first
    | with_reducible exact Dev.Keeps.refl _ | extract_lets
    | fail_if_no_progress with_reducible refine Dev.Keeps.mk_ ?_ rfl rfl rfl rfl rfl

theorem execOpsecStore_keeps {s t : State} (h : execOpsecStore s = .next t) :
    Dev.Keeps s.dev t.dev := by
  refine State.up_keeps (fun d => ?_) h
  repeat first
    | with_reducible exact Dev.Keeps.refl _ | with_reducible refine Dev.Keeps.ite ?_ ?_
    | with_reducible refine (Dev.storeOpsec_keeps ..).after ?_

theorem releaseAll_sound (n : Nat) (d : Dev) :
    Dev.Sound d (releaseAll n d) := by
  induction n generalizing d with
  | zero => exact .refl d
  | succ n ih =>
    unfold releaseAll
    repeat first
      | with_reducible refine (ih ..).after ?_ | with_reducible exact Dev.Sound.refl _
      | with_reducible refine (Dev.releaseFirst_sound ..).after ?_

theorem programAll_sound (c n : Nat) (d : Dev) :
    Dev.Sound d (programAll c n d) := by
  induction n generalizing d with
  | zero => exact .refl d
  | succ n ih =>
    unfold programAll
    repeat first
      | with_reducible refine (ih ..).after ?_ | with_reducible exact Dev.Sound.refl _
      | with_reducible refine (Dev.programPage_sound ..).after ?_

theorem Dev.closeLog_sound (d : Dev) :
    Dev.Sound d (Dev.closeLog d) := by
  unfold Dev.closeLog
  repeat first
    | with_reducible exact Dev.Sound.refl _ | with_reducible refine Dev.Sound.ite ?_ ?_
    | with_reducible refine (releaseAll_sound ..).after ?_ | with_reducible refine (Dev.setF_keeps ..).sound.after ?_
    | with_reducible refine (Dev.sideOut_sound ..).after ?_ | with_reducible refine (Dev.tlyDirect_sound ..).after ?_
    | with_reducible refine (programAll_sound ..).after ?_ | with_reducible refine (Dev.setTly_keeps ..).sound.after ?_
    | with_reducible refine Dev.Sound.fold _ _ _ ?_ (fun _ _ => ?_)

end Sys2Proof.Machine
end

