-- ==== Sys2Proof/Laws/KeepsMovers.lean ====
section
/-! SUPPORT. What the operations of Machine/Movers.lean leave alone. -/
namespace Sys2Proof.Machine

theorem Dev.setPcie_keeps (d : Dev) (x : Pcie) :
    Dev.Keeps d (Dev.setPcie d x) := by
  unfold Dev.setPcie
  repeat first | with_reducible exact Dev.Keeps.refl _ | fail_if_no_progress with_reducible refine Dev.Keeps.mk_ ?_ rfl rfl rfl rfl rfl

theorem Dev.setMover_keeps (d : Dev) (m : Nat) (x : Mover) :
    Dev.Keeps d (Dev.setMover d m x) := by
  unfold Dev.setMover
  repeat first | with_reducible exact Dev.Keeps.refl _ | fail_if_no_progress with_reducible refine Dev.Keeps.mk_ ?_ rfl rfl rfl rfl rfl

theorem Dev.trainStart_keeps (d : Dev) :
    Dev.Keeps d (Dev.trainStart d) := by
  unfold Dev.trainStart
  repeat first
    | with_reducible exact Dev.Keeps.refl _ | with_reducible refine Dev.Keeps.ite ?_ ?_
    | with_reducible refine (Dev.setPcie_keeps ..).after ?_

theorem execPerstDeassertion_keeps {s t : State} (h : execPerstDeassertion s = .next t) :
    Dev.Keeps s.dev t.dev := by
  refine State.up_keeps (fun d => ?_) h
  extract_lets a0
  repeat first
    | with_reducible exact Dev.Keeps.refl _ | with_reducible refine Dev.Keeps.ite ?_ ?_
    | with_reducible refine (Dev.setPcie_keeps ..).after ?_ | with_reducible refine (Dev.trainStart_keeps ..).after ?_

theorem execPcieLinkTrained_keeps (speed : Fin 3) (x2 : Bool) {s t : State} (h : execPcieLinkTrained speed x2 s = .next t) :
    Dev.Keeps s.dev t.dev := by
  refine State.up_keeps (fun d => ?_) h
  repeat first
    | with_reducible exact Dev.Keeps.refl _ | with_reducible refine Dev.Keeps.ite ?_ ?_
    | with_reducible refine (Dev.setF_keeps ..).after ?_

theorem execConfigurationWrite_keeps (msixEn fmask d3 : Bool) {s t : State} (h : execConfigurationWrite msixEn fmask d3 s = .next t) :
    Dev.Keeps s.dev t.dev := by
  refine State.up_keeps (fun d => ?_) h
  repeat first
    | with_reducible exact Dev.Keeps.refl _ | with_reducible refine Dev.Keeps.ite ?_ ?_
    | with_reducible refine (Dev.setPcie_keeps ..).after ?_ | extract_lets | split

theorem execEndpointReset_keeps (k : EpReset) {s t : State} (h : execEndpointReset k s = .next t) :
    Dev.Keeps s.dev t.dev := by
  refine State.up_keeps (fun d => ?_) h
  repeat first
    | with_reducible exact Dev.Keeps.refl _ | with_reducible refine Dev.Keeps.ite ?_ ?_
    | with_reducible refine (Dev.setSkip_keeps ..).after ?_ | with_reducible refine (Dev.setPcie_keeps ..).after ?_
    | with_reducible refine (Dev.setF_keeps ..).after ?_ | with_reducible refine (Dev.lqAbandon_keeps ..).after ?_
    | with_reducible refine (Dev.trouble_keeps ..).after ?_ | extract_lets | split
    | fail_if_no_progress with_reducible refine Dev.Keeps.mk_ ?_ rfl rfl rfl rfl rfl

theorem execMsixMessage_keeps (v : Fin 64) {s t : State} (h : execMsixMessage v s = .next t) :
    Dev.Keeps s.dev t.dev := by
  refine State.up_keeps (fun d => ?_) h
  extract_lets a0 a1
  repeat first
    | with_reducible exact Dev.Keeps.refl _ | with_reducible refine Dev.Keeps.ite ?_ ?_
    | with_reducible refine (Dev.clrBit_keeps ..).after ?_ | extract_lets
    | fail_if_no_progress with_reducible refine Dev.Keeps.mk_ ?_ rfl rfl rfl rfl rfl

theorem execBar2Read_keeps (offset : BitVec 26) (len : Fin 513) {s t : State} (h : execBar2Read offset len s = .next t) :
    Dev.Keeps s.dev t.dev := by
  refine State.up_keeps (fun d => ?_) h
  repeat first
    | with_reducible exact Dev.Keeps.refl _ | with_reducible refine Dev.Keeps.ite ?_ ?_
    | with_reducible refine (Dev.trouble_keeps ..).after ?_ | extract_lets
    | fail_if_no_progress with_reducible refine Dev.Keeps.mk_ ?_ rfl rfl rfl rfl rfl

theorem execBar2Write_keeps {s t : State} (h : execBar2Write s = .next t) :
    Dev.Keeps s.dev t.dev := by
  refine State.up_keeps (fun d => ?_) h
  repeat first | with_reducible exact Dev.Keeps.refl _ | with_reducible refine (Dev.trouble_keeps ..).after ?_

theorem Dev.mvRefresh_keeps (d : Dev) (m : Nat) :
    Dev.Keeps d (Dev.mvRefresh d m) := by
  unfold Dev.mvRefresh
  repeat first
    | with_reducible exact Dev.Keeps.refl _ | with_reducible refine Dev.Keeps.ite ?_ ?_
    | with_reducible refine (Dev.setF_keeps ..).after ?_ | with_reducible refine (Dev.setBit_keeps ..).after ?_
    | with_reducible refine (Dev.incF_keeps ..).after ?_ | with_reducible refine (Dev.fire_keeps ..).after ?_

theorem Dev.mvRefreshAll_keeps (d : Dev) :
    Dev.Keeps d (Dev.mvRefreshAll d) := by
  unfold Dev.mvRefreshAll
  repeat first
    | with_reducible exact Dev.Keeps.refl _ | with_reducible refine (Dev.mvRefresh_keeps ..).after ?_
    | with_reducible refine Dev.Keeps.fold _ _ _ ?_ (fun _ _ => ?_)

theorem Dev.hostSend_keeps (d : Dev) (m addr : Nat) (b : List Byte) (done : Option MvDone) :
    Dev.Keeps d (Dev.hostSend d m addr b done) := by
  unfold Dev.hostSend
  repeat first
    | with_reducible exact Dev.Keeps.refl _ | with_reducible refine (Dev.sendLump_keeps ..).after ?_
    | with_reducible refine Dev.Keeps.fold _ _ _ ?_ (fun _ _ => ?_)

theorem Dev.mvComplete_keeps (d : Dev) (m status part done tag : Nat) (irq : Bool) (ridx : Option (Nat × Nat)) :
    Dev.Keeps d (Dev.mvComplete d m status part done tag irq ridx) := by
  unfold Dev.mvComplete
  extract_lets a0 a1 a2
  have h2 : Dev.Keeps d a2 := by
    unfold a2
    repeat first | with_reducible exact Dev.Keeps.refl _ | with_reducible refine (Dev.setMover_keeps ..).after ?_
  clear_value a2
  repeat first | with_reducible assumption | with_reducible refine (Dev.hostSend_keeps ..).after ?_

theorem Dev.mvHanded_keeps (d : Dev) (x : MvDone) :
    Dev.Keeps d (Dev.mvHanded d x) := by
  unfold Dev.mvHanded
  extract_lets a0
  repeat first
    | with_reducible exact Dev.Keeps.refl _ | with_reducible refine Dev.Keeps.ite ?_ ?_
    | with_reducible refine (Dev.setMover_keeps ..).after ?_ | with_reducible refine (Dev.setF_keeps ..).after ?_
    | with_reducible refine (Dev.incF_keeps ..).after ?_ | with_reducible refine (Dev.ridxWritten_keeps ..).after ?_
    | with_reducible refine (Dev.fire_keeps ..).after ?_ | with_reducible refine (Dev.mvRefreshAll_keeps ..).after ?_
    | extract_lets | split | dsimp +zetaDelta only

theorem Dev.hostTake_keeps (d : Dev) (src addr : Nat) (b : List Byte) (done : Option MvDone) :
    Dev.Keeps d (Dev.hostTake d src addr b done) := by
  unfold Dev.hostTake
  extract_lets a0
  have h0 : Dev.Keeps d a0 := by
    unfold a0
    repeat first | with_reducible exact Dev.Keeps.refl _ | fail_if_no_progress with_reducible refine Dev.Keeps.mk_ ?_ rfl rfl rfl rfl rfl
  clear_value a0
  repeat first
    | with_reducible assumption | with_reducible refine Dev.Keeps.ite ?_ ?_
    | with_reducible refine (Dev.mvHanded_keeps ..).after ?_ | split

theorem execDescriptorReadDone_keeps (m : Fin 8) (x : MvDesc) {s t : State} (h : execDescriptorReadDone m x s = .next t) :
    Dev.Keeps s.dev t.dev := by
  refine State.up_keeps (fun d => ?_) h
  extract_lets a0 a1
  repeat first
    | with_reducible exact Dev.Keeps.refl _ | with_reducible refine Dev.Keeps.ite ?_ ?_
    | with_reducible refine (Dev.incF_keeps ..).after ?_ | with_reducible refine (Dev.setMover_keeps ..).after ?_
    | with_reducible refine (Dev.mvComplete_keeps ..).after ?_

theorem execMoverError_keeps (m : Fin 8) {s t : State} (h : execMoverError m s = .next t) :
    Dev.Keeps s.dev t.dev := by
  refine State.up_keeps (fun d => ?_) h
  extract_lets a0 a1
  repeat first
    | with_reducible exact Dev.Keeps.refl _ | with_reducible refine Dev.Keeps.ite ?_ ?_
    | with_reducible refine (Dev.setMover_keeps ..).after ?_ | with_reducible refine (Dev.setF_keeps ..).after ?_
    | with_reducible refine (Dev.setBit_keeps ..).after ?_ | with_reducible refine (Dev.trouble_keeps ..).after ?_
    | with_reducible refine (Dev.fire_keeps ..).after ?_

theorem Dev.mvData_keeps (d : Dev) (m : Nat) (x : MvDesc) (bytes : List Byte) (poison : Bool) :
    Dev.Keeps d (Dev.mvData d m x bytes poison) := by
  unfold Dev.mvData
  extract_lets a0
  have h0 : Dev.Keeps d a0 := by
    unfold a0
    repeat first | with_reducible exact Dev.Keeps.refl _ | with_reducible refine (Dev.hostSend_keeps ..).after ?_
  clear_value a0
  repeat first
    | with_reducible assumption | with_reducible refine Dev.Keeps.ite ?_ ?_
    | with_reducible refine (Dev.trouble_keeps ..).after ?_

theorem Dev.mvWhole_keeps (d : Dev) (m n : Nat) (x : MvDesc) :
    Dev.Keeps d (Dev.mvWhole d m n x) := by
  unfold Dev.mvWhole
  extract_lets a0 a1
  repeat first
    | with_reducible exact Dev.Keeps.refl _ | with_reducible refine Dev.Keeps.ite ?_ ?_
    | with_reducible refine (Dev.mvData_keeps ..).after ?_ | with_reducible refine (Dev.setMover_keeps ..).after ?_
    | with_reducible refine (Dev.setF_keeps ..).after ?_ | with_reducible refine (Dev.mvComplete_keeps ..).after ?_ | split

theorem Dev.mvSegment_keeps (d : Dev) (m p : Nat) (part : MvPart) (x : MvDesc) :
    Dev.Keeps d (Dev.mvSegment d m p part x) := by
  unfold Dev.mvSegment
  extract_lets a0 a1 a2 a3 a4 a5 a6 a7 a8 a9 a10 a11 a12
  have h8 : Dev.Keeps d a8 := by
    unfold a8
    repeat first | with_reducible exact Dev.Keeps.refl _ | with_reducible refine (Dev.mvData_keeps ..).after ?_
  clear_value a8
  have h9 : Dev.Keeps d a9 := by
    unfold a9
    repeat first | with_reducible assumption | with_reducible refine (Dev.setMover_keeps ..).after ?_
  clear_value a9
  have h10 : Dev.Keeps d a10 := by
    unfold a10
    repeat first
      | with_reducible assumption | with_reducible refine Dev.Keeps.ite ?_ ?_ | with_reducible refine (Dev.setF_keeps ..).after ?_
  clear_value a10
  repeat first | with_reducible assumption | with_reducible refine (Dev.mvComplete_keeps ..).after ?_

theorem Dev.mvBlock_keeps (d : Dev) (m ix : Nat) (b : Block) (part : MvPart) (x : MvDesc) :
    Dev.Keeps d (Dev.mvBlock d m ix b part x) := by
  unfold Dev.mvBlock
  extract_lets a0 a1 a2 a3 a4 a5
  have h4 : Dev.Keeps d a4 := by
    unfold a4
    repeat first
      | with_reducible exact Dev.Keeps.refl _ | with_reducible refine (Dev.mvData_keeps ..).after ?_
      | with_reducible refine (Dev.setMover_keeps ..).after ?_
  clear_value a4
  have h5 : Dev.Keeps d a5 := by
    unfold a5
    repeat first | with_reducible assumption | with_reducible refine (Dev.setF_keeps ..).after ?_
  clear_value a5
  repeat first | with_reducible assumption | with_reducible refine (Dev.mvComplete_keeps ..).after ?_

theorem Dev.mvFill_keeps (d : Dev) (m n : Nat) (x : MvDesc) :
    Dev.Keeps d (Dev.mvFill d m n x) := by
  unfold Dev.mvFill
  extract_lets a0
  repeat first
    | with_reducible exact Dev.Keeps.refl _ | with_reducible refine (Dev.mvWhole_keeps ..).after ?_
    | with_reducible refine (Dev.mvSegment_keeps ..).after ?_ | with_reducible refine (Dev.setMover_keeps ..).after ?_
    | with_reducible refine (Dev.setF_keeps ..).after ?_ | with_reducible refine (Dev.mvBlock_keeps ..).after ?_ | split

theorem Dev.mvBuffer_keeps (d : Dev) (m n : Nat) :
    Dev.Keeps d (Dev.mvBuffer d m n) := by
  unfold Dev.mvBuffer
  repeat first
    | with_reducible exact Dev.Keeps.refl _ | with_reducible refine Dev.Keeps.ite ?_ ?_
    | with_reducible refine (Dev.mvFill_keeps ..).after ?_ | with_reducible refine (Dev.mvRefreshAll_keeps ..).after ?_ | split

theorem execBufferComplete_keeps (m : Fin 8) {s t : State} (h : execBufferComplete m s = .next t) :
    Dev.Keeps s.dev t.dev := by
  refine State.up_keeps (fun d => ?_) h
  repeat first | with_reducible exact Dev.Keeps.refl _ | with_reducible refine (Dev.mvBuffer_keeps ..).after ?_

theorem execBufferTimeout_keeps (m : Fin 8) (items : BitVec 19) {s t : State} (h : execBufferTimeout m items s = .next t) :
    Dev.Keeps s.dev t.dev := by
  refine State.up_keeps (fun d => ?_) h
  repeat first
    | with_reducible exact Dev.Keeps.refl _ | with_reducible refine Dev.Keeps.ite ?_ ?_
    | with_reducible refine (Dev.mvBuffer_keeps ..).after ?_

theorem Dev.mvFirst_keeps (d : Dev) (m : Nat) :
    Dev.Keeps d (Dev.mvFirst d m) := by
  unfold Dev.mvFirst
  extract_lets a0 a1 a2 a3
  repeat first
    | with_reducible exact Dev.Keeps.refl _ | with_reducible refine (Dev.setF_keeps ..).after ?_
    | with_reducible refine (Dev.setMover_keeps ..).after ?_ | split

theorem Dev.mvCommitted_keeps (d : Dev) (m : Nat) (wasEn : Bool) :
    Dev.Keeps d (Dev.mvCommitted d m wasEn) := by
  unfold Dev.mvCommitted
  extract_lets a0 a1
  repeat first
    | with_reducible exact Dev.Keeps.refl _ | with_reducible refine Dev.Keeps.ite ?_ ?_
    | with_reducible refine (Dev.setMover_keeps ..).after ?_ | with_reducible refine (Dev.setF_keeps ..).after ?_
    | with_reducible refine (Dev.mvFirst_keeps ..).after ?_ | with_reducible refine (Dev.mvRefresh_keeps ..).after ?_
    | with_reducible refine (Dev.mvComplete_keeps ..).after ?_ | extract_lets | split | dsimp +zetaDelta only

theorem Dev.mvDoorbell_keeps (d : Dev) (m : Nat) :
    Dev.Keeps d (Dev.mvDoorbell d m) := by
  unfold Dev.mvDoorbell
  repeat first
    | with_reducible exact Dev.Keeps.refl _ | with_reducible refine (Dev.setMover_keeps ..).after ?_
    | with_reducible refine (Dev.mvRefresh_keeps ..).after ?_

theorem Dev.bqDoorbell_keeps (d : Dev) (m was : Nat) (blocks : List Block) :
    Dev.Keeps d (Dev.bqDoorbell d m was blocks) := by
  unfold Dev.bqDoorbell
  extract_lets a0 a1 a2 a3 a4 a5
  have h5 : Dev.Keeps d a5 := by
    unfold a5
    repeat first | with_reducible exact Dev.Keeps.refl _ | with_reducible refine (Dev.setMover_keeps ..).after ?_
  clear_value a5
  repeat first
    | with_reducible assumption | with_reducible refine Dev.Keeps.ite ?_ ?_ | with_reducible refine (Dev.setF_keeps ..).after ?_
    | with_reducible refine (Dev.mvRefresh_keeps ..).after ?_

theorem Dev.mvFormatted_keeps (d : Dev) (c : Nat) :
    Dev.Keeps d (Dev.mvFormatted d c) := by
  unfold Dev.mvFormatted
  repeat first
    | with_reducible exact Dev.Keeps.refl _ | with_reducible refine Dev.Keeps.ite ?_ ?_
    | with_reducible refine (Dev.setMover_keeps ..).after ?_ | with_reducible refine (Dev.setF_keeps ..).after ?_
    | with_reducible refine Dev.Keeps.fold _ _ _ ?_ (fun _ _ => ?_)

theorem execRecordRelease_sound {s t : State} (h : execRecordRelease s = .next t) :
    Dev.Sound s.dev t.dev := by
  refine State.up_sound (fun d => ?_) h
  repeat first
    | with_reducible exact Dev.Sound.refl _ | with_reducible refine (Dev.recordRelease_sound ..).after ?_
    | with_reducible refine (Dev.mvRefreshAll_keeps ..).sound.after ?_

theorem execNearStoreOpen_sound {s t : State} (h : execNearStoreOpen s = .next t) :
    Dev.Sound s.dev t.dev := by
  refine State.up_sound (fun d => ?_) h
  repeat first
    | with_reducible exact Dev.Sound.refl _ | with_reducible refine (Dev.nearStoreOpen_sound ..).after ?_
    | with_reducible refine (Dev.mvRefreshAll_keeps ..).sound.after ?_

theorem execSegmentCaptureEnd_keeps (a : Fin 8) (full : Bool) {s t : State} (h : execSegmentCaptureEnd a full s = .next t) :
    Dev.Keeps s.dev t.dev := by
  refine State.up_keeps (fun d => ?_) h
  repeat first
    | with_reducible exact Dev.Keeps.refl _ | with_reducible refine (Dev.segmentCaptureEnd_keeps ..).after ?_
    | with_reducible refine (Dev.mvRefreshAll_keeps ..).after ?_

theorem execTrendIntervalEnd_keeps (full : Bool) {s t : State} (h : execTrendIntervalEnd full s = .next t) :
    Dev.Keeps s.dev t.dev := by
  refine State.up_keeps (fun d => ?_) h
  repeat first
    | with_reducible exact Dev.Keeps.refl _ | with_reducible refine (Dev.trendIntervalEnd_keeps ..).after ?_
    | with_reducible refine (Dev.mvRefreshAll_keeps ..).after ?_

end Sys2Proof.Machine
end

