-- ==== Sys2Proof/Laws/KeepsBus.lean ====
section
/-! SUPPORT. What the operations of Machine/Bus.lean leave alone. -/
namespace Sys2Proof.Machine

theorem Dev.lockViolation_keeps (d : Dev) (req : Requester) (a word : Nat) :
    Dev.Keeps d (Dev.lockViolation d req a word) := by
  unfold Dev.lockViolation
  extract_lets a0 a1 a2
  have h0 : Dev.Keeps d a0 := by
    unfold a0
    repeat first
      | with_reducible exact Dev.Keeps.refl _ | with_reducible refine (Dev.trouble_keeps ..).after ?_
      | with_reducible refine (Dev.incF_keeps ..).after ?_
  clear_value a0
  repeat first
    | with_reducible assumption | with_reducible refine Dev.Keeps.ite ?_ ?_ | with_reducible refine (Dev.record_keeps ..).after ?_
    | extract_lets | fail_if_no_progress with_reducible refine Dev.Keeps.mk_ ?_ rfl rfl rfl rfl rfl

theorem Dev.subDone_keeps (d : Dev) (req : Requester) (result index : Nat) :
    Dev.Keeps d (Dev.subDone d req result index) := by
  unfold Dev.subDone
  extract_lets a0
  have h0 : Dev.Keeps d a0 := by
    unfold a0
    repeat first | with_reducible exact Dev.Keeps.refl _ | with_reducible refine (Dev.setF_keeps ..).after ?_
  clear_value a0
  repeat first
    | with_reducible assumption | with_reducible refine (Dev.setF_keeps ..).after ?_
    | with_reducible refine (Dev.fire_keeps ..).after ?_

theorem Dev.submit_keeps (d : Dev) (req : Requester) :
    Dev.Keeps d (Dev.submit d req) := by
  unfold Dev.submit
  repeat first
    | with_reducible exact Dev.Keeps.refl _ | with_reducible refine Dev.Keeps.ite ?_ ?_
    | with_reducible refine (Dev.setB_keeps ..).after ?_ | with_reducible refine (Dev.fire_keeps ..).after ?_
    | with_reducible refine (Dev.setF_keeps ..).after ?_ | with_reducible refine (Dev.subDone_keeps ..).after ?_ | extract_lets
    | fail_if_no_progress with_reducible refine Dev.Keeps.mk_ ?_ rfl rfl rfl rfl rfl

theorem Dev.storeMasked_keeps (d : Dev) (r : Reg) (i mask payload : Nat) :
    Dev.Keeps d (Dev.storeMasked d r i mask payload) := by
  unfold Dev.storeMasked
  repeat first
    | with_reducible exact Dev.Keeps.refl _ | with_reducible refine Dev.Keeps.ite ?_ ?_
    | with_reducible refine (Dev.setF_keeps ..).after ?_ | with_reducible refine Dev.Keeps.fold _ _ _ ?_ (fun _ _ => ?_)

theorem Dev.holdMasked_keeps (d : Dev) (r : Reg) (i mask payload : Nat) :
    Dev.Keeps d (Dev.holdMasked d r i mask payload) := by
  unfold Dev.holdMasked
  repeat first
    | with_reducible exact Dev.Keeps.refl _ | with_reducible refine Dev.Keeps.ite ?_ ?_
    | with_reducible refine Dev.Keeps.fold _ _ _ ?_ (fun _ _ => ?_) | extract_lets
    | fail_if_no_progress with_reducible refine Dev.Keeps.mk_ ?_ rfl rfl rfl rfl rfl

theorem Dev.applyHeld_keeps (d : Dev) (c : Reg) (i : Nat) :
    Dev.Keeps d (Dev.applyHeld d c i) := by
  unfold Dev.applyHeld
  repeat first
    | with_reducible exact Dev.Keeps.refl _ | with_reducible refine Dev.Keeps.ite ?_ ?_
    | with_reducible refine (Dev.setF_keeps ..).after ?_ | with_reducible refine Dev.Keeps.fold _ _ _ ?_ (fun _ _ => ?_)
    | extract_lets | fail_if_no_progress with_reducible refine Dev.Keeps.mk_ ?_ rfl rfl rfl rfl rfl

/-- A refusal leaves the state before the write or the one after it, but for what shows the refusal. -/
theorem Dev.refusal_keeps {base d old : Dev} (hd : Dev.Keeps base d) (ho : Dev.Keeps base old) {req : Requester} {r : Reg} {i ws : Nat}
    {y : Dev} (h : d.refusal old req r i ws = some y) : Dev.Keeps base y := by
  unfold Dev.refusal at h
  extract_lets value at h
  have hv : ∀ b z, value b = some z → Dev.Keeps base z := by
    intro b z e
    unfold value at e
    split at e
    · cases e
      exact (Dev.trouble_keeps ..).after ho
    · cases e
  clear_value value
  split at h <;> try exact hv _ _ h
  · split at h
    · cases h
      exact (Dev.setBit_keeps ..).after ho
    · cases h
  · split at h
    · cases h
      exact (Dev.setBit_keeps ..).after hd
    · cases h
  · cases h

theorem Dev.effect_sound (d old : Dev) (req : Requester) (r : Reg) (i mask ws : Nat) :
    Dev.Sound d (Dev.effect d old req r i mask ws) := by
  unfold Dev.effect
  repeat first
    | with_reducible exact Dev.Sound.refl _ | with_reducible refine Dev.Sound.ite ?_ ?_
    | with_reducible refine (Dev.submit_keeps ..).sound.after ?_ | with_reducible refine (Dev.record_keeps ..).sound.after ?_
    | with_reducible refine (Dev.snapshot_keeps ..).sound.after ?_ | with_reducible refine (Dev.angCommit_keeps ..).sound.after ?_
    | with_reducible refine (Dev.angOfs_keeps ..).sound.after ?_
    | with_reducible refine (Dev.refselWritten_keeps ..).sound.after ?_
    | with_reducible refine (Dev.bgcWritten_keeps ..).sound.after ?_
    | with_reducible refine (Dev.auxCtlWritten_keeps ..).sound.after ?_
    | with_reducible refine (Dev.auxUrgent_keeps ..).sound.after ?_
    | with_reducible refine (Dev.fltResetWritten_keeps ..).sound.after ?_
    | with_reducible refine (Dev.chctlWritten_keeps ..).sound.after ?_
    | with_reducible refine (Dev.swapRequest_keeps ..).sound.after ?_
    | with_reducible refine (Dev.coefCommit_keeps ..).sound.after ?_
    | with_reducible refine (Dev.svidApply_keeps ..).sound.after ?_
    | with_reducible refine (Dev.subCommitted_keeps ..).sound.after ?_
    | with_reducible refine (Dev.svidWritten_keeps ..).sound.after ?_
    | with_reducible refine (Dev.groupRequest_keeps ..).sound.after ?_
    | with_reducible refine (Dev.grpCommitted_keeps ..).sound.after ?_
    | with_reducible refine (Dev.farSubmit_keeps ..).sound.after ?_
    | with_reducible refine (Dev.seqItemCommitted_keeps ..).sound.after ?_
    | with_reducible refine (Dev.sqctlWritten_keeps ..).sound.after ?_
    | with_reducible refine (Dev.areaCommitted_keeps ..).sound.after ?_
    | with_reducible refine (Dev.mvRefreshAll_keeps ..).sound.after ?_
    | with_reducible refine (Dev.ridxWritten_keeps ..).sound.after ?_
    | with_reducible refine (Dev.maskCommitted_keeps ..).sound.after ?_
    | with_reducible refine (Dev.envCommitted_keeps ..).sound.after ?_
    | with_reducible refine (Dev.trendStart_keeps ..).sound.after ?_
    | with_reducible refine (Dev.setTrend_keeps ..).sound.after ?_ | with_reducible refine (Dev.tlyCommitted_sound ..).after ?_
    | with_reducible refine (Dev.mvFormatted_keeps ..).sound.after ?_ | with_reducible refine (Dev.frzWritten_sound ..).after ?_
    | with_reducible refine (Dev.snapListCommitted_keeps ..).sound.after ?_
    | with_reducible refine (Dev.interrogate_keeps ..).sound.after ?_ | with_reducible refine (Dev.setF_keeps ..).sound.after ?_
    | with_reducible refine (Dev.fioClear_keeps ..).sound.after ?_
    | with_reducible refine (Dev.lqCommitted_keeps ..).sound.after ?_
    | with_reducible refine (Dev.mvCommitted_keeps ..).sound.after ?_
    | with_reducible refine (Dev.tlkCtlWritten_keeps ..).sound.after ?_ | extract_lets | split
    | fail_if_no_progress with_reducible refine Dev.Sound.mk_ ?_ rfl rfl rfl rfl

theorem Dev.controlWrite_sound (d : Dev) (req : Requester) (r : Reg) (i mask payload : Nat) :
    Dev.Sound d (d.controlWrite req r i mask payload).1 := by
  unfold Dev.controlWrite
  extract_lets ws a b
  have ha : Dev.Keeps d a := (Dev.applyHeld_keeps ..).after (Dev.holdMasked_keeps ..)
  have hb : Dev.Keeps d b := Dev.storeMasked_keeps ..
  clear_value a b
  split
  · exact .refl d
  · split
    · exact (Dev.trouble_keeps ..).sound
    · split
      · split
        · next h => exact (Dev.refusal_keeps ha (.refl d) h).sound
        · exact (Dev.effect_sound ..).after ha.sound
      · split
        · exact (Dev.holdMasked_keeps ..).sound
        · split
          · next h => exact (Dev.refusal_keeps hb (.refl d) h).sound
          · exact (Dev.effect_sound ..).after hb.sound

theorem Dev.dataEffect_keeps (d old : Dev) (r : Reg) (i : Nat) (ring : Ring) :
    Dev.Keeps d (Dev.dataEffect d old r i ring) := by
  unfold Dev.dataEffect
  repeat first
    | with_reducible exact Dev.Keeps.refl _ | with_reducible refine (Dev.hinWritten_keeps ..).after ?_
    | with_reducible refine (Dev.lqPost_keeps ..).after ?_ | with_reducible refine (Dev.mvDoorbell_keeps ..).after ?_
    | with_reducible refine (Dev.bqDoorbell_keeps ..).after ?_ | split

theorem Dev.dataWrite_keeps (d : Dev) (req : Requester) (g : BusRegion) (r : Reg) (i ofs size v : Nat) (ring : Ring) :
    Dev.Keeps d (Dev.dataWrite d req g r i ofs size v ring) := by
  unfold Dev.dataWrite
  extract_lets a0 a1 a2
  repeat first
    | with_reducible exact Dev.Keeps.refl _ | with_reducible refine Dev.Keeps.ite ?_ ?_
    | with_reducible refine (Dev.setF_keeps ..).after ?_ | with_reducible refine (Dev.dataEffect_keeps ..).after ?_
    | with_reducible refine Dev.Keeps.fold _ _ _ ?_ (fun _ _ => ?_)

theorem Dev.tear_keeps (d : Dev) (r : Reg) (i : Nat) :
    Dev.Keeps d (Dev.tear d r i) := by
  unfold Dev.tear
  repeat first | with_reducible exact Dev.Keeps.refl _ | with_reducible refine (Dev.setBit_keeps ..).after ?_

theorem Dev.pairApply_keeps (d : Dev) (req : Requester) (r : Reg) (i v : Nat) :
    Dev.Keeps d (Dev.pairApply d req r i v) := by
  unfold Dev.pairApply
  extract_lets a0 a1
  have h1 : Dev.Keeps d a1 := by
    unfold a1
    repeat first
      | with_reducible exact Dev.Keeps.refl _ | with_reducible refine Dev.Keeps.ite ?_ ?_
      | with_reducible refine (Dev.setF_keeps ..).after ?_ | with_reducible refine Dev.Keeps.fold _ _ _ ?_ (fun _ _ => ?_)
  clear_value a1
  repeat first
    | with_reducible assumption | with_reducible refine (Dev.convert_keeps ..).after ?_
    | with_reducible refine (Dev.pointLatch_keeps ..).after ?_ | split

theorem Dev.pairWrite_keeps (d : Dev) (req : Requester) (r : Reg) (i : Nat) (hi : Bool) (v : Nat) :
    Dev.Keeps d (Dev.pairWrite d req r i hi v) := by
  unfold Dev.pairWrite
  extract_lets a0
  repeat first
    | with_reducible exact Dev.Keeps.refl _ | with_reducible refine Dev.Keeps.ite ?_ ?_
    | with_reducible refine (Dev.tear_keeps ..).after ?_ | with_reducible refine (Dev.pairApply_keeps ..).after ?_ | extract_lets
    | fail_if_no_progress with_reducible refine Dev.Keeps.mk_ ?_ rfl rfl rfl rfl rfl

theorem Dev.pairRead_keeps (d : Dev) (req : Requester) (r : Reg) (i ofs size : Nat) :
    Dev.Keeps d (Dev.pairRead d req r i ofs size).1 := by
  unfold Dev.pairRead
  extract_lets a0 a1
  repeat first
    | with_reducible exact Dev.Keeps.refl _ | with_reducible refine Dev.Keeps.ite ?_ ?_
    | with_reducible refine (Dev.tear_keeps ..).after ?_ | extract_lets | split
    | fail_if_no_progress with_reducible refine Dev.Keeps.mk_ ?_ rfl rfl rfl rfl rfl

theorem Dev.pairRead_keeps_eq (d : Dev) (req : Requester) (r : Reg) (i ofs size : Nat) {y : Dev} {z : Nat} (h : Dev.pairRead d req r i ofs size = (y, z)) : Dev.Keeps d y := by
  have := Dev.pairRead_keeps d req r i ofs size
  rw [h] at this
  exact this

theorem Dev.readClear_keeps (d : Dev) (r : Reg) (i ofs size : Nat) :
    Dev.Keeps d (Dev.readClear d r i ofs size) := by
  unfold Dev.readClear
  repeat first
    | with_reducible exact Dev.Keeps.refl _ | with_reducible refine Dev.Keeps.ite ?_ ?_
    | with_reducible refine (Dev.setF_keeps ..).after ?_ | with_reducible refine Dev.Keeps.fold _ _ _ ?_ (fun _ _ => ?_)
    | extract_lets | split

theorem Dev.writeWord_sound (d : Dev) (req : Requester) (a size v : Nat) (ring : Ring) :
    Dev.Sound d (Dev.writeWord d req a size v ring) := by
  unfold Dev.writeWord
  repeat first
    | with_reducible exact Dev.Sound.refl _ | with_reducible refine Dev.Sound.ite ?_ ?_
    | with_reducible refine (Dev.trouble_keeps ..).sound.after ?_
    | with_reducible refine (Dev.lockViolation_keeps ..).sound.after ?_
    | with_reducible refine (Dev.controlWrite_sound ..).after ?_ | with_reducible refine (Dev.dataWrite_keeps ..).sound.after ?_
    | with_reducible refine (Dev.pairApply_keeps ..).sound.after ?_
    | with_reducible refine (Dev.pairWrite_keeps ..).sound.after ?_ | extract_lets | split

theorem Dev.busWrite_sound (d : Dev) (req : Requester) (x : Access) (data : Nat) (ring : Ring) :
    Dev.Sound d (Dev.busWrite d req x data ring) := by
  unfold Dev.busWrite
  extract_lets a0
  repeat first
    | with_reducible exact Dev.Sound.refl _ | with_reducible refine Dev.Sound.ite ?_ ?_
    | with_reducible refine (Dev.trouble_keeps ..).sound.after ?_ | with_reducible refine (Dev.writeWord_sound ..).after ?_
    | split

theorem Dev.readWord_keeps (d : Dev) (req : Requester) (a size : Nat) :
    Dev.Keeps d (Dev.readWord d req a size).1 := by
  unfold Dev.readWord
  repeat first
    | with_reducible exact Dev.Keeps.refl _ | with_reducible refine (Dev.trouble_keeps ..).after ?_
    | with_reducible refine (Dev.pairRead_keeps ..).after ?_ | with_reducible refine (Dev.readClear_keeps ..).after ?_
    | extract_lets | split

theorem Dev.readWord_keeps_eq (d : Dev) (req : Requester) (a size : Nat) {y : Dev} {z : Nat} (h : Dev.readWord d req a size = (y, z)) : Dev.Keeps d y := by
  have := Dev.readWord_keeps d req a size
  rw [h] at this
  exact this

theorem Dev.answer_keeps (d : Dev) (req : Requester) (v : Nat) (abort : Bool) :
    Dev.Keeps d (Dev.answer d req v abort) := by
  unfold Dev.answer
  repeat first | with_reducible exact Dev.Keeps.refl _ | fail_if_no_progress with_reducible refine Dev.Keeps.mk_ ?_ rfl rfl rfl rfl rfl

theorem Dev.busRead_keeps (d : Dev) (req : Requester) (x : Access) :
    Dev.Keeps d (Dev.busRead d req x) := by
  unfold Dev.busRead
  extract_lets a0
  repeat first
    | with_reducible exact Dev.Keeps.refl _ | with_reducible refine Dev.Keeps.ite ?_ ?_
    | with_reducible refine (Dev.trouble_keeps ..).after ?_ | with_reducible refine (Dev.answer_keeps ..).after ?_
    | with_reducible refine (Dev.readWord_keeps ..).after ?_ | split

theorem Dev.writeReg_sound (d : Dev) (req : Requester) (r : Reg) (i : Nat) (data : Nat) (ring : Ring) :
    Dev.Sound d (Dev.writeReg d req r i data ring) := by
  unfold Dev.writeReg
  repeat first | with_reducible exact Dev.Sound.refl _ | with_reducible refine (Dev.busWrite_sound ..).after ?_

end Sys2Proof.Machine
end

