-- ==== Sys2Proof/Laws/KeepsImage.lean ====
section
/-! SUPPORT. What the operations of Machine/Image.lean leave alone. -/
namespace Sys2Proof.Machine

theorem Dev.applyReg_sound (d : Dev) (r : RegRec) :
    Dev.Sound d (Dev.applyReg d r).1 := by
  unfold Dev.applyReg
  repeat first | with_reducible exact Dev.Sound.refl _ | with_reducible refine (Dev.controlWrite_sound ..).after ?_ | split

theorem Dev.applyReg_sound_eq (d : Dev) (r : RegRec) {y : Dev} {z : Bool} (h : Dev.applyReg d r = (y, z)) : Dev.Sound d y := by
  have := Dev.applyReg_sound d r
  rw [h] at this
  exact this

theorem Dev.applyRegs_sound (xs : List (RegRec × Nat)) (d : Dev) : Dev.Sound d (Dev.applyRegs xs d).1 := by
  induction xs generalizing d with
  | nil => exact .refl d
  | cons x xs ih =>
    unfold Dev.applyRegs
    extract_lets r
    split
    · exact Dev.applyReg_sound ..
    · exact (ih _).after (Dev.applyReg_sound ..)

end Sys2Proof.Machine
end

