-- ==== Sys2Proof/Laws/KeepsSage.lean ====
section
/-! SUPPORT. What the operations of Machine/Sage.lean leave alone. -/
namespace Sys2Proof.Machine

theorem Dev.sageCommit_keeps (d : Dev) :
    Dev.Keeps d (Dev.sageCommit d) := by
  unfold Dev.sageCommit
  extract_lets a0
  repeat first | with_reducible exact Dev.Keeps.refl _ | with_reducible refine (Dev.setF_keeps ..).after ?_

theorem Dev.sageStop_keeps (d : Dev) :
    Dev.Keeps d (Dev.sageStop d) := by
  unfold Dev.sageStop
  repeat first
    | with_reducible exact Dev.Keeps.refl _ | with_reducible refine (Dev.setF_keeps ..).after ?_ | extract_lets
    | fail_if_no_progress with_reducible refine Dev.Keeps.mk_ ?_ rfl rfl rfl rfl rfl

theorem Dev.sagePass_keeps (d : Dev) :
    Dev.Keeps d (Dev.sagePass d) := by
  unfold Dev.sagePass
  repeat first
    | with_reducible exact Dev.Keeps.refl _ | with_reducible refine Dev.Keeps.ite ?_ ?_
    | with_reducible refine (Dev.setB_keeps ..).after ?_ | extract_lets
    | fail_if_no_progress with_reducible refine Dev.Keeps.mk_ ?_ rfl rfl rfl rfl rfl

theorem execSagePassStart_keeps {s t : State} (h : execSagePassStart s = .next t) :
    Dev.Keeps s.dev t.dev := by
  refine State.up_keeps (fun d => ?_) h
  repeat first
    | with_reducible exact Dev.Keeps.refl _ | with_reducible refine Dev.Keeps.ite ?_ ?_
    | with_reducible refine (Dev.sagePass_keeps ..).after ?_ | with_reducible refine (Dev.setF_keeps ..).after ?_

end Sys2Proof.Machine
end

