-- ==== Sys2Proof/Laws/KeepsModes.lean ====
section
/-! SUPPORT. What the operations of Machine/Modes.lean leave alone. -/
namespace Sys2Proof.Machine

theorem Dev.gateSettled_keeps (d : Dev) :
    Dev.Keeps d (Dev.gateSettled d) := by
  unfold Dev.gateSettled
  repeat first
    | with_reducible exact Dev.Keeps.refl _ | with_reducible refine Dev.Keeps.ite ?_ ?_
    | with_reducible refine (Dev.updateCanary_keeps ..).after ?_ | extract_lets
    | fail_if_no_progress with_reducible refine Dev.Keeps.mk_ ?_ rfl rfl rfl rfl rfl

theorem Dev.toMode_stores (d : Dev) (m : Mode) (cause : Nat) :
    Dev.Stores d (Dev.toMode d m cause) := by
  unfold Dev.toMode
  repeat first
    | with_reducible exact Dev.Stores.refl _ | with_reducible refine (Dev.changeMode_stores ..).after ?_
    | with_reducible refine (Dev.gateSettled_keeps ..).stores.after ?_

theorem Dev.subFinish_keeps (d : Dev) (result index : Nat) :
    Dev.Keeps d (Dev.subFinish d result index) := by
  unfold Dev.subFinish
  repeat first
    | with_reducible exact Dev.Keeps.refl _ | with_reducible refine Dev.Keeps.ite ?_ ?_
    | with_reducible refine (Dev.subDone_keeps ..).after ?_ | with_reducible refine (Dev.setFree_keeps ..).after ?_ | extract_lets
    | split | fail_if_no_progress with_reducible refine Dev.Keeps.mk_ ?_ rfl rfl rfl rfl rfl

theorem Dev.refuseWaiting_keeps (d : Dev) :
    Dev.Keeps d (Dev.refuseWaiting d) := by
  unfold Dev.refuseWaiting
  repeat first
    | with_reducible exact Dev.Keeps.refl _ | with_reducible refine Dev.Keeps.ite ?_ ?_
    | with_reducible refine (Dev.subFinish_keeps ..).after ?_ | split

theorem Dev.enterSafe_stores (d : Dev) (cause : Nat) :
    Dev.Stores d (Dev.enterSafe d cause) := by
  unfold Dev.enterSafe
  repeat first
    | with_reducible exact Dev.Stores.refl _ | with_reducible refine Dev.Stores.ite ?_ ?_
    | with_reducible refine (Dev.toMode_stores ..).after ?_ | with_reducible refine (Dev.stopSkips_keeps ..).stores.after ?_
    | with_reducible refine (Dev.sageStop_keeps ..).stores.after ?_
    | with_reducible refine (Dev.refuseWaiting_keeps ..).stores.after ?_
    | with_reducible refine (Dev.asyStop_keeps ..).stores.after ?_ | with_reducible refine (Dev.tlkApply_keeps ..).stores.after ?_
    | extract_lets | fail_if_no_progress with_reducible refine Dev.Stores.mk_ ?_ rfl rfl rfl rfl rfl

theorem Dev.timebaseBackup_stores (d : Dev) :
    Dev.Stores d (Dev.timebaseBackup d) := by
  unfold Dev.timebaseBackup
  extract_lets a0 a1
  have h0 : Dev.Stores d a0 := by
    unfold a0
    repeat first | with_reducible exact Dev.Stores.refl _ | with_reducible refine (Dev.setF_keeps ..).stores.after ?_
  clear_value a0
  have h1 : Dev.Stores d a1 := by
    unfold a1
    repeat first | with_reducible assumption | with_reducible refine (Dev.farea_keeps ..).stores.after ?_
  clear_value a1
  repeat first | with_reducible assumption | with_reducible refine (Dev.enterSafe_stores ..).after ?_ | split

theorem execTcxoALost_stores {s t : State} (h : execTcxoALost s = .next t) :
    Dev.Stores s.dev t.dev := by
  refine State.up_stores (fun d => ?_) h
  repeat first
    | with_reducible exact Dev.Stores.refl _ | with_reducible refine Dev.Stores.ite ?_ ?_
    | with_reducible refine (Dev.setF_keeps ..).stores.after ?_ | with_reducible refine (Dev.trouble_keeps ..).stores.after ?_
    | with_reducible refine (Dev.tcxoRecord_keeps ..).stores.after ?_
    | with_reducible refine (Dev.timebaseBackup_stores ..).after ?_ | extract_lets
    | fail_if_no_progress with_reducible refine Dev.Stores.mk_ ?_ rfl rfl rfl rfl rfl

theorem execTcxoBLost_stores {s t : State} (h : execTcxoBLost s = .next t) :
    Dev.Stores s.dev t.dev := by
  refine State.up_stores (fun d => ?_) h
  repeat first
    | with_reducible exact Dev.Stores.refl _ | with_reducible refine Dev.Stores.ite ?_ ?_
    | with_reducible refine (Dev.setF_keeps ..).stores.after ?_ | with_reducible refine (Dev.trouble_keeps ..).stores.after ?_
    | with_reducible refine (Dev.tcxoRecord_keeps ..).stores.after ?_
    | with_reducible refine (Dev.timebaseBackup_stores ..).after ?_ | extract_lets
    | fail_if_no_progress with_reducible refine Dev.Stores.mk_ ?_ rfl rfl rfl rfl rfl

theorem Dev.powerRecord_keeps (d : Dev) (src event : Nat) :
    Dev.Keeps d (Dev.powerRecord d src event) := by
  unfold Dev.powerRecord
  repeat first | with_reducible exact Dev.Keeps.refl _ | with_reducible refine (Dev.record_keeps ..).after ?_

theorem Dev.subsAborted_keeps (n : Nat) (d : Dev) :
    Dev.Keeps d (Dev.subsAborted n d) := by
  induction n generalizing d with
  | zero => exact .refl d
  | succ n ih =>
    unfold Dev.subsAborted
    repeat first
      | with_reducible refine (ih ..).after ?_ | with_reducible exact Dev.Keeps.refl _
      | with_reducible refine (Dev.subFinish_keeps ..).after ?_

theorem Dev.snapAbandon_keeps (d : Dev) :
    Dev.Keeps d (Dev.snapAbandon d) := by
  unfold Dev.snapAbandon
  repeat first
    | with_reducible exact Dev.Keeps.refl _ | with_reducible refine (Dev.powerRecord_keeps ..).after ?_ | extract_lets | split
    | fail_if_no_progress with_reducible refine Dev.Keeps.mk_ ?_ rfl rfl rfl rfl rfl

theorem Dev.headframeFault_stores (d : Dev) (kind pc : Nat) : Dev.Stores d (d.headframeFault kind pc) := by
  unfold Dev.headframeFault
  split
  · exact .refl d
  · extract_lets old recent giveup hfr d1 d2 d3 d4 hfr'
    clear_value recent giveup
    have h1 : Dev.Keeps d d1 := ⟨⟨rfl, rfl, rfl, rfl, rfl, rfl, rfl⟩, .inl rfl⟩
    have h3 : Dev.Keeps d d3 := (Dev.farea_keeps ..).after ((Dev.trouble_keeps ..).after ((Dev.sageStop_keeps ..).after
      ((Dev.subsAborted_keeps ..).after h1)))
    have h4 : Dev.Keeps d d4 := .ite ((Dev.trouble_keeps ..).after h3) h3
    clear_value d4 d3 old
    split
    · exact h4.stores
    · exact ((Dev.snapAbandon_keeps ..).after (.mk_ h4 rfl rfl rfl rfl rfl)).stores
    · exact ((Dev.fire_keeps ..).after ((Dev.record_keeps ..).after ((Dev.setF_keeps ..).after h4))).stores
    · exact (Dev.enterSafe_stores ..).after h4.stores

theorem execHeadframeFault_stores (poison : Bool) (pc : Dword) {s t : State} (h : execHeadframeFault poison pc s = .next t) :
    Dev.Stores s.dev t.dev := by
  refine State.up_stores (fun d => ?_) h
  repeat first | with_reducible exact Dev.Stores.refl _ | with_reducible refine (Dev.headframeFault_stores ..).after ?_

theorem execHeadframeWatchdogExpiry_stores (pc : Dword) {s t : State} (h : execHeadframeWatchdogExpiry pc s = .next t) :
    Dev.Stores s.dev t.dev := by
  refine State.up_stores (fun d => ?_) h
  repeat first | with_reducible exact Dev.Stores.refl _ | with_reducible refine (Dev.headframeFault_stores ..).after ?_

theorem execHeadframeRestart_keeps {s t : State} (h : execHeadframeRestart s = .next t) :
    Dev.Keeps s.dev t.dev := by
  refine State.up_keeps (fun d => ?_) h
  repeat first
    | with_reducible exact Dev.Keeps.refl _ | with_reducible refine Dev.Keeps.ite ?_ ?_ | extract_lets
    | fail_if_no_progress with_reducible refine Dev.Keeps.mk_ ?_ rfl rfl rfl rfl rfl

end Sys2Proof.Machine
end

