-- ==== Sys2Proof/Laws/KeepsHfr.lean ====
section
/-! SUPPORT. What the operations of Machine/Hfr.lean leave alone. -/
namespace Sys2Proof.Machine

theorem Dev.putSetting_keeps (d : Dev) (ix g w : Nat) :
    Dev.Keeps d (Dev.putSetting d ix g w) := by
  unfold Dev.putSetting
  extract_lets a0
  repeat first | with_reducible exact Dev.Keeps.refl _ | with_reducible refine (Dev.setSeam_keeps ..).after ?_

theorem Dev.sendReports_keeps (d : Dev) (s : Sub) :
    Dev.Keeps d (Dev.sendReports d s) := by
  unfold Dev.sendReports
  extract_lets a0
  repeat first | with_reducible exact Dev.Keeps.refl _ | with_reducible refine (Dev.setSeam_keeps ..).after ?_

theorem execValidationComplete_keeps {s t : State} (h : execValidationComplete s = .next t) :
    Dev.Keeps s.dev t.dev := by
  refine State.up_keeps (fun d => ?_) h
  repeat first
    | with_reducible exact Dev.Keeps.refl _ | with_reducible refine Dev.Keeps.ite ?_ ?_
    | with_reducible refine (Dev.subFinish_keeps ..).after ?_ | with_reducible refine (Dev.sendReports_keeps ..).after ?_
    | with_reducible refine (Dev.setF_keeps ..).after ?_ | with_reducible refine (Dev.fire_keeps ..).after ?_ | extract_lets
    | split | fail_if_no_progress with_reducible refine Dev.Keeps.mk_ ?_ rfl rfl rfl rfl rfl

theorem Dev.commitReg_sound (d : Dev) (s : Sub) (o : Nat) :
    Dev.Sound d (Dev.commitReg d s o) := by
  unfold Dev.commitReg
  repeat first | with_reducible exact Dev.Sound.refl _ | with_reducible refine (Dev.applyReg_sound ..).after ?_

theorem Dev.commitCell_keeps (d : Dev) (s : Sub) (o : Nat) :
    Dev.Keeps d (Dev.commitCell d s o) := by
  unfold Dev.commitCell
  extract_lets a0 a1
  repeat first
    | with_reducible exact Dev.Keeps.refl _ | with_reducible refine (Dev.setSeam_keeps ..).after ?_
    | with_reducible refine (Dev.putSetting_keeps ..).after ?_ | with_reducible refine Dev.Keeps.fold _ _ _ ?_ (fun _ _ => ?_)

theorem Dev.putTable_sound (d : Dev) (pos : Nat) (bs : List Byte) : Dev.Sound d (d.putTable pos bs) := by
  unfold Dev.putTable
  split
  · exact .refl d
  · exact .mk_ (.refl d) rfl rfl rfl rfl

theorem Dev.commitKind_sound (d : Dev) (s : Sub) (kind : Nat) (f : Dev → Nat → Dev) (hf : ∀ d o, Dev.Sound d (f d o)) :
    Dev.Sound d (d.commitKind s kind f) :=
  .fold _ _ _ (.refl d) fun _ _ => .ite (hf ..) (.refl _)

theorem Dev.commitBatch_sound (d : Dev) (s : Sub) : Dev.Sound d (d.commitBatch s) := by
  unfold Dev.commitBatch
  extract_lets d1 d2 d3 d4 d5
  have h1 : Dev.Sound d d1 := Dev.commitKind_sound _ _ _ _ fun _ _ => Dev.commitReg_sound ..
  have h2 : Dev.Sound d d2 := (Dev.commitKind_sound _ _ _ _ fun _ _ => (Dev.commitCell_keeps ..).sound).after h1
  have h3 : Dev.Sound d d3 := (Dev.commitKind_sound _ _ _ _ fun _ _ => Dev.putTable_sound ..).after h2
  have h4 : Dev.Sound d d4 := (Dev.updateCanary_keeps ..).sound.after ((Dev.showCanary_keeps ..).sound.after h3)
  have h5 : Dev.Sound d d5 := (Dev.commitKind_sound _ _ _ _ fun _ _ => (Dev.groupRequest_keeps ..).sound).after h4
  exact (Dev.sageCommit_keeps ..).sound.after h5

theorem execSettingsCommit_sound {s t : State} (h : execSettingsCommit s = .next t) :
    Dev.Sound s.dev t.dev := by
  refine State.up_sound (fun d => ?_) h
  repeat first
    | with_reducible exact Dev.Sound.refl _ | with_reducible refine Dev.Sound.ite ?_ ?_
    | with_reducible refine (Dev.commitBatch_sound ..).after ?_ | with_reducible refine (Dev.subFinish_keeps ..).sound.after ?_
    | with_reducible refine (Dev.sagePass_keeps ..).sound.after ?_ | extract_lets | split

theorem Dev.sageVerdict_stores (d : Dev) (badC badN badS : Bool) :
    Dev.Stores d (Dev.sageVerdict d badC badN badS) := by
  unfold Dev.sageVerdict
  repeat first
    | with_reducible exact Dev.Stores.refl _ | with_reducible refine Dev.Stores.ite ?_ ?_
    | with_reducible refine (Dev.setF_keeps ..).stores.after ?_ | with_reducible refine (Dev.trouble_keeps ..).stores.after ?_
    | with_reducible refine (Dev.subFinish_keeps ..).stores.after ?_ | with_reducible refine (Dev.farea_keeps ..).stores.after ?_
    | with_reducible refine (Dev.enterSafe_stores ..).after ?_
    | with_reducible refine (Dev.degradedCause_keeps ..).stores.after ?_
    | with_reducible refine (Dev.sagePass_keeps ..).stores.after ?_ | extract_lets | split

theorem execSageCompare_stores (errC errN errS : Word) {s t : State} (h : execSageCompare errC errN errS s = .next t) :
    Dev.Stores s.dev t.dev := by
  refine State.up_stores (fun d => ?_) h
  repeat first
    | with_reducible exact Dev.Stores.refl _ | with_reducible refine Dev.Stores.ite ?_ ?_
    | with_reducible refine (Dev.setF_keeps ..).stores.after ?_ | with_reducible refine (Dev.incWrap_keeps ..).stores.after ?_
    | with_reducible refine (Dev.sageVerdict_stores ..).after ?_ | extract_lets | split
    | fail_if_no_progress with_reducible refine Dev.Stores.mk_ ?_ rfl rfl rfl rfl rfl

theorem State.auth_keeps {s t : State} {code : Nat} {f : Dev → Sub → Nat × Dev} (hf : ∀ d x, Dev.Keeps d (f d x).2) (h : s.auth code f = .next t) :
    Dev.Keeps s.dev t.dev := by
  refine State.up_keeps (fun d => ?_) h
  split
  · exact .refl d
  · split
    · exact (Dev.subFinish_keeps ..)
    · exact (Dev.subFinish_keeps ..).after (hf _ _)

theorem State.auth_stores {s t : State} {code : Nat} {f : Dev → Sub → Nat × Dev} (hf : ∀ d x, Dev.Stores d (f d x).2) (h : s.auth code f = .next t) :
    Dev.Stores s.dev t.dev := by
  refine State.up_stores (fun d => ?_) h
  split
  · exact .refl d
  · split
    · exact (Dev.subFinish_keeps ..).stores
    · exact (Dev.subFinish_keeps ..).stores.after (hf _ _)

theorem State.auth_sound {s t : State} {code : Nat} {f : Dev → Sub → Nat × Dev} (hf : ∀ d x, Dev.Sound d (f d x).2) (h : s.auth code f = .next t) :
    Dev.Sound s.dev t.dev := by
  refine State.up_sound (fun d => ?_) h
  split
  · exact .refl d
  · split
    · exact (Dev.subFinish_keeps ..).sound
    · exact (Dev.subFinish_keeps ..).sound.after (hf _ _)

theorem Dev.sageRenew_keeps (d : Dev) : Dev.Keeps d d.sageRenew := .ite (.refl d) (Dev.sageCommit_keeps ..)

theorem execPtpSyncReceive_keeps (p : Fin 4) (domain : Byte) (seq : BitVec 16) (mac : BitVec 68) (corr : BitVec 64) (origin : Option (BitVec 64)) {s t : State} (h : execPtpSyncReceive p domain seq mac corr origin s = .next t) :
    Dev.Keeps s.dev t.dev := by
  refine State.up_keeps (fun d => ?_) h
  extract_lets a0
  have h0 : Dev.Keeps d a0 := by
    unfold a0
    repeat first | with_reducible exact Dev.Keeps.refl _ | with_reducible refine (Dev.ptpSync_keeps ..).after ?_
  clear_value a0
  repeat first
    | with_reducible assumption | with_reducible refine Dev.Keeps.ite ?_ ?_
    | with_reducible refine (Dev.sageRenew_keeps ..).after ?_

theorem execPtpFollowUpReceive_keeps (p : Fin 4) (domain : Byte) (seq : BitVec 16) (origin corr : BitVec 64) {s t : State} (h : execPtpFollowUpReceive p domain seq origin corr s = .next t) :
    Dev.Keeps s.dev t.dev := by
  refine State.up_keeps (fun d => ?_) h
  extract_lets a0
  have h0 : Dev.Keeps d a0 := by
    unfold a0
    repeat first | with_reducible exact Dev.Keeps.refl _ | with_reducible refine (Dev.ptpFollowUp_keeps ..).after ?_
  clear_value a0
  repeat first
    | with_reducible assumption | with_reducible refine Dev.Keeps.ite ?_ ?_
    | with_reducible refine (Dev.sageRenew_keeps ..).after ?_

theorem execRestep_keeps {s t : State} (h : execRestep s = .next t) :
    Dev.Keeps s.dev t.dev := by
  refine State.auth_keeps (fun d x => ?_) h
  repeat first
    | with_reducible exact Dev.Keeps.refl _ | with_reducible refine (Dev.stepCal_keeps ..).after ?_
    | with_reducible refine (Dev.incF_keeps ..).after ?_ | extract_lets | split

theorem execCalSet_keeps {s t : State} (h : execCalSet s = .next t) :
    Dev.Keeps s.dev t.dev := by
  refine State.auth_keeps (fun d x => ?_) h
  repeat first
    | with_reducible exact Dev.Keeps.refl _ | with_reducible refine (Dev.stepCal_keeps ..).after ?_
    | with_reducible refine (Dev.setF_keeps ..).after ?_ | with_reducible refine (Dev.sageRenew_keeps ..).after ?_ | extract_lets
    | split

theorem execTestout_keeps {s t : State} (h : execTestout s = .next t) :
    Dev.Keeps s.dev t.dev := by
  refine State.auth_keeps (fun d x => ?_) h
  repeat first
    | with_reducible exact Dev.Keeps.refl _ | with_reducible refine (Dev.updateGate_keeps ..).after ?_
    | with_reducible refine (Dev.gateSettled_keeps ..).after ?_ | extract_lets | split

theorem execTlockClear_sound {s t : State} (h : execTlockClear s = .next t) :
    Dev.Sound s.dev t.dev := by
  refine State.auth_sound (fun d x => ?_) h
  repeat first
    | with_reducible exact Dev.Sound.refl _ | with_reducible refine Dev.Sound.ite ?_ ?_
    | with_reducible refine (Dev.putTable_sound ..).after ?_ | with_reducible refine (Dev.showCanary_keeps ..).sound.after ?_
    | with_reducible refine (Dev.updateCanary_keeps ..).sound.after ?_
    | with_reducible refine (Dev.sageRenew_keeps ..).sound.after ?_ | extract_lets | split
    | fail_if_no_progress with_reducible refine Dev.Sound.mk_ ?_ rfl rfl rfl rfl

theorem execLoglossClear_keeps {s t : State} (h : execLoglossClear s = .next t) :
    Dev.Keeps s.dev t.dev := by
  refine State.auth_keeps (fun d x => ?_) h
  repeat first
    | with_reducible exact Dev.Keeps.refl _ | extract_lets | split
    | fail_if_no_progress with_reducible refine Dev.Keeps.mk_ ?_ rfl rfl rfl rfl rfl

theorem Dev.setKey_sound (d : Dev) (k : Nat) (x : KeySlot) (h : (d.keySlot k).revoked = true → x.revoked = true) :
    Dev.Sound d (d.setKey k x) := by
  refine ⟨fun m => ⟨m.1, m.2, m.3⟩, fun j hj => ?_, le_refl _⟩
  unfold Dev.revoked Dev.setKey at *
  simp only [SMap.get?_set]
  split
  · next e =>
    subst e
    refine h ?_
    unfold Dev.keySlot SMap.getD
    cases e : SMap.get? d.nv.keys j with
    | none => rw [e] at hj; cases hj
    | some y => rw [e] at hj; exact hj
  · exact hj

theorem execKeyEnrol_sound {s t : State} (h : execKeyEnrol s = .next t) : Dev.Sound s.dev t.dev := by
  refine State.auth_sound (fun d x => ?_) h
  extract_lets k pub
  split
  · exact .refl d
  · next hk =>
    refine Dev.setKey_sound _ _ _ fun hr => ?_
    exact absurd (.inr hr) hk

theorem execKeyRevoke_sound {s t : State} (h : execKeyRevoke s = .next t) : Dev.Sound s.dev t.dev := by
  refine State.auth_sound (fun d x => ?_) h
  extract_lets k
  split
  · exact .refl d
  · split
    · exact .refl d
    · exact Dev.setKey_sound _ _ _ fun _ => rfl

theorem execRollbackRaise_sound {s t : State} (h : execRollbackRaise s = .next t) : Dev.Sound s.dev t.dev := by
  refine State.auth_sound (fun d x => ?_) h
  extract_lets v
  split
  · exact .refl d
  · next hv =>
    split
    · exact .refl d
    · refine ⟨fun m => ⟨m.1, m.2, m.3⟩, fun _ r => r, ?_⟩
      have : ¬v ≤ d.nv.rows.headD 0 := fun e => hv (.inl e)
      simpa using Nat.le_of_lt (Nat.lt_of_not_le this)

theorem execImagePref_keeps {s t : State} (h : execImagePref s = .next t) :
    Dev.Keeps s.dev t.dev := by
  refine State.auth_keeps (fun d x => ?_) h
  repeat first
    | with_reducible exact Dev.Keeps.refl _ | extract_lets
    | fail_if_no_progress with_reducible refine Dev.Keeps.mk_ ?_ rfl rfl rfl rfl rfl

theorem execReqCommission_stores {s t : State} (h : execReqCommission s = .next t) :
    Dev.Stores s.dev t.dev := by
  refine State.auth_stores (fun d x => ?_) h
  repeat first | with_reducible exact Dev.Stores.refl _ | with_reducible refine (Dev.toMode_stores ..).after ?_ | extract_lets | split

theorem execReqProtect_stores {s t : State} (h : execReqProtect s = .next t) :
    Dev.Stores s.dev t.dev := by
  refine State.auth_stores (fun d x => ?_) h
  repeat first | with_reducible exact Dev.Stores.refl _ | with_reducible refine (Dev.toMode_stores ..).after ?_ | extract_lets | split

theorem execReqResume_stores {s t : State} (h : execReqResume s = .next t) :
    Dev.Stores s.dev t.dev := by
  refine State.auth_stores (fun d x => ?_) h
  repeat first | with_reducible exact Dev.Stores.refl _ | with_reducible refine (Dev.toMode_stores ..).after ?_ | extract_lets | split

theorem execReqSafe_stores {s t : State} (h : execReqSafe s = .next t) :
    Dev.Stores s.dev t.dev := by
  refine State.auth_stores (fun d x => ?_) h
  repeat first | with_reducible exact Dev.Stores.refl _ | with_reducible refine (Dev.enterSafe_stores ..).after ?_ | extract_lets | split

theorem execStartmode_keeps {s t : State} (h : execStartmode s = .next t) :
    Dev.Keeps s.dev t.dev := by
  refine State.auth_keeps (fun d x => ?_) h
  repeat first
    | with_reducible exact Dev.Keeps.refl _ | extract_lets
    | fail_if_no_progress with_reducible refine Dev.Keeps.mk_ ?_ rfl rfl rfl rfl rfl

end Sys2Proof.Machine
end

