-- ==== Sys2Proof/Laws/KeepsLoad.lean ====
section
/-! SUPPORT. What the operations of Machine/Load.lean leave alone. -/
namespace Sys2Proof.Machine

theorem Dev.loadPins_keeps (d : Dev) (io : List IoRec) :
    Dev.Keeps d (Dev.loadPins d io) := by
  unfold Dev.loadPins
  repeat first
    | with_reducible exact Dev.Keeps.refl _ | with_reducible refine (Dev.setF_keeps ..).after ?_
    | with_reducible refine Dev.Keeps.fold _ _ _ ?_ (fun _ _ => ?_)

theorem Dev.loadAlarm_keeps (d : Dev) :
    Dev.Keeps d (Dev.loadAlarm d) := by
  unfold Dev.loadAlarm
  repeat first
    | with_reducible exact Dev.Keeps.refl _ | with_reducible refine (Dev.setLq_keeps ..).after ?_
    | with_reducible refine Dev.Keeps.fold _ _ _ ?_ (fun _ _ => ?_)

theorem Dev.loadImage_sound (d : Dev) (slot : Nat) (b : List Byte) :
    Dev.Sound d (Dev.loadImage d slot b) := by
  unfold Dev.loadImage
  extract_lets a0 a1 a2 a3 a4 a5 a6 a7 a8 a9 a10
  have h3 : Dev.Sound d a3 := by
    unfold a3
    repeat first | with_reducible exact Dev.Sound.refl _ | with_reducible refine (Dev.setF_keeps ..).sound.after ?_
  clear_value a3
  have h4 : Dev.Sound d a4 := by
    unfold a4
    repeat first | with_reducible assumption | with_reducible refine (Dev.applyRegs_sound ..).after ?_
  clear_value a4
  have h6 : Dev.Sound d a6 := by
    unfold a6
    repeat first | with_reducible assumption | with_reducible refine (Dev.setSeam_keeps ..).sound.after ?_
  clear_value a6
  have h9 : Dev.Sound d a9 := by
    unfold a9
    repeat first | with_reducible assumption | with_reducible refine (Dev.setF_keeps ..).sound.after ?_
  clear_value a9
  have h10 : Dev.Sound d a10 := by
    unfold a10
    repeat first
      | with_reducible assumption | with_reducible refine (Dev.loadPins_keeps ..).sound.after ?_
      | with_reducible refine (Dev.loadAlarm_keeps ..).sound.after ?_
  clear_value a10
  repeat first
    | with_reducible assumption | with_reducible refine (Dev.showCanary_keeps ..).sound.after ?_
    | with_reducible refine (Dev.updateCanary_keeps ..).sound.after ?_ | extract_lets
    | fail_if_no_progress with_reducible refine Dev.Sound.mk_ ?_ rfl rfl rfl rfl

theorem Dev.imageFailed_sound (d : Dev) (slot : Nat) (b : List Byte) (r : Nat × Nat × Nat) :
    Dev.Sound d (Dev.imageFailed d slot b r) := by
  unfold Dev.imageFailed
  extract_lets a0 a1 a2
  have h0 : Dev.Sound d a0 := by
    unfold a0
    repeat first | with_reducible exact Dev.Sound.refl _ | with_reducible refine (Dev.setF_keeps ..).sound.after ?_
  clear_value a0
  have h1 : Dev.Sound d a1 := by
    unfold a1
    repeat first
      | with_reducible assumption | with_reducible refine Dev.Sound.ite ?_ ?_
      | with_reducible refine (Dev.setF_keeps ..).sound.after ?_
  clear_value a1
  have h2 : Dev.Sound d a2 := by
    unfold a2
    repeat first
      | with_reducible assumption | with_reducible refine Dev.Sound.ite ?_ ?_
      | with_reducible refine (Dev.trouble_keeps ..).sound.after ?_
  clear_value a2
  repeat first
    | with_reducible assumption | with_reducible refine Dev.Sound.ite ?_ ?_
    | with_reducible refine (Dev.setF_keeps ..).sound.after ?_

theorem execImageAuthenticated_sound {s t : State} (h : execImageAuthenticated s = .next t) :
    Dev.Sound s.dev t.dev := by
  refine State.up_sound (fun d => ?_) h
  repeat first
    | with_reducible exact Dev.Sound.refl _ | with_reducible refine Dev.Sound.ite ?_ ?_
    | with_reducible refine (Dev.loadImage_sound ..).after ?_ | with_reducible refine (Dev.imageFailed_sound ..).after ?_
    | extract_lets | split | fail_if_no_progress with_reducible refine Dev.Sound.mk_ ?_ rfl rfl rfl rfl

theorem Dev.restoreCells_keeps (d : Dev) :
    Dev.Keeps d (Dev.restoreCells d) := by
  unfold Dev.restoreCells
  repeat first
    | with_reducible exact Dev.Keeps.refl _ | with_reducible refine (Dev.setCell_keeps ..).after ?_
    | with_reducible refine Dev.Keeps.fold _ _ _ ?_ (fun _ _ => ?_)

theorem Dev.restoreRecord_keeps (d : Dev) :
    Dev.Keeps d (Dev.restoreRecord d) := by
  unfold Dev.restoreRecord
  extract_lets a0
  repeat first | with_reducible exact Dev.Keeps.refl _ | with_reducible refine (Dev.record_keeps ..).after ?_

theorem Dev.applyPlan_keeps (d : Dev) :
    Dev.Keeps d (Dev.applyPlan d) := by
  unfold Dev.applyPlan
  repeat first
    | with_reducible exact Dev.Keeps.refl _ | with_reducible refine Dev.Keeps.ite ?_ ?_
    | with_reducible refine (Dev.setSkip_keeps ..).after ?_ | with_reducible refine (Dev.startSkip_keeps ..).after ?_
    | with_reducible refine Dev.Keeps.fold _ _ _ ?_ (fun _ _ => ?_)

theorem Dev.startFaces_keeps (d : Dev) :
    Dev.Keeps d (Dev.startFaces d) := by
  unfold Dev.startFaces
  repeat first
    | with_reducible exact Dev.Keeps.refl _ | with_reducible refine (Dev.setFace_keeps ..).after ?_
    | with_reducible refine Dev.Keeps.fold _ _ _ ?_ (fun _ _ => ?_)

theorem Dev.release_stores (d : Dev) :
    Dev.Stores d (Dev.release d) := by
  unfold Dev.release
  extract_lets a0 a1 a2 a3 a4 a5 a6 a7
  have h0 : Dev.Stores d a0 := by
    unfold a0
    repeat first
      | with_reducible exact Dev.Stores.refl _ | with_reducible refine (Dev.restoreCells_keeps ..).stores.after ?_
      | with_reducible refine (Dev.restoreRecord_keeps ..).stores.after ?_
  clear_value a0
  have h1 : Dev.Stores d a1 := by
    unfold a1
    repeat first | with_reducible assumption | with_reducible refine (Dev.setF_keeps ..).stores.after ?_
  clear_value a1
  have h2 : Dev.Stores d a2 := by
    unfold a2
    repeat first | with_reducible assumption | with_reducible refine (Dev.applyPlan_keeps ..).stores.after ?_
  clear_value a2
  have h3 : Dev.Stores d a3 := by
    unfold a3
    repeat first | with_reducible assumption | with_reducible refine (Dev.setF_keeps ..).stores.after ?_
  clear_value a3
  have h4 : Dev.Stores d a4 := by
    unfold a4
    repeat first
      | with_reducible assumption | with_reducible refine (Dev.sviStart_keeps ..).stores.after ?_
      | with_reducible refine (Dev.asyStart_keeps ..).stores.after ?_
      | with_reducible refine (Dev.startFaces_keeps ..).stores.after ?_ | with_reducible refine (Dev.toMode_stores ..).after ?_
  clear_value a4
  have h5 : Dev.Stores d a5 := by
    unfold a5
    repeat first
      | with_reducible assumption | with_reducible refine (Dev.tlkApply_keeps ..).stores.after ?_
      | with_reducible refine (Dev.sageCommit_keeps ..).stores.after ?_
  clear_value a5
  have h6 : Dev.Stores d a6 := by
    unfold a6
    repeat first
      | with_reducible assumption | with_reducible refine Dev.Stores.ite ?_ ?_
      | with_reducible refine (Dev.trainStart_keeps ..).stores.after ?_
  clear_value a6
  have h7 : Dev.Stores d a7 := by
    unfold a7
    repeat first
      | with_reducible assumption | with_reducible exact Dev.Stores.refl _
      | with_reducible refine (portPick_keeps ..).stores.after ?_ | with_reducible refine Dev.Stores.fold _ _ _ ?_ (fun _ _ => ?_)
  clear_value a7
  repeat first
    | with_reducible assumption | with_reducible refine Dev.Stores.ite ?_ ?_
    | with_reducible refine (Dev.degradedCause_keeps ..).stores.after ?_
    | with_reducible refine (Dev.gateSettled_keeps ..).stores.after ?_

theorem execLoadDone_stores {s t : State} (h : execLoadDone s = .next t) :
    Dev.Stores s.dev t.dev := by
  refine State.up_stores (fun d => ?_) h
  repeat first
    | with_reducible exact Dev.Stores.refl _ | with_reducible refine Dev.Stores.ite ?_ ?_
    | with_reducible refine (Dev.release_stores ..).after ?_

end Sys2Proof.Machine
end

