-- ==== Sys2Proof/Laws/KeepsPower.lean ====
section
/-! SUPPORT. What the operations of Machine/Power.lean leave alone. -/
namespace Sys2Proof.Machine

theorem Dev.volatileReset_stores (d : Dev) (m : Mode) (nv : Nv) : (d.volatileReset m nv).recMem = [] ∧ (d.volatileReset m nv).nv = nv :=
  ⟨rfl, rfl⟩

/-- A power cycle keeps what is sound, where the non-volatile store stays as it is in what matters. -/
theorem Dev.volatileReset_sound (d : Dev) (m : Mode) (nv : Nv) (h1 : nv.near = d.nv.near) (h2 : nv.far = d.nv.far) (h3 : nv.keys = d.nv.keys)
    (h4 : nv.rows = d.nv.rows) : Dev.Sound d (d.volatileReset m nv) := by
  obtain ⟨e, f⟩ := Dev.volatileReset_stores d m nv
  refine ⟨fun x => ⟨?_, ?_, ?_⟩, fun k => ?_, ?_⟩
  · rw [e]; rfl
  · rw [f, h1]; exact x.near
  · rw [f, h2]; exact x.far
  · unfold Dev.revoked; rw [f, h3]; exact id
  · rw [f, h4]

theorem Dev.bootEntry_sound (d : Dev) (origin base : Nat) : Dev.Sound d (d.bootEntry origin base) := by
  unfold Dev.bootEntry
  have hc := (Dev.farCut_keeps d).stores
  generalize d.farCut = e at hc ⊢
  extract_lets nv0 thyme nv x y
  have hx : Dev.Sound d x := Dev.volatileReset_sound d .boot nv hc.near hc.far hc.keys hc.rows
  clear_value x
  exact (Dev.setFree_keeps ..).sound.after ((Dev.tlyBoot_keeps ..).sound.after (.mk_ hx rfl rfl rfl rfl))

theorem Dev.enterOff_sound (d : Dev) : Dev.Sound d d.enterOff := by
  have hc := (Dev.farCut_keeps d).stores
  unfold Dev.enterOff
  generalize d.farCut = e at hc ⊢
  exact Dev.volatileReset_sound d .off _ hc.near hc.far hc.keys hc.rows

theorem Dev.canaryGains_keeps (d : Dev) :
    Dev.Keeps d (Dev.canaryGains d) := by
  unfold Dev.canaryGains
  repeat first
    | with_reducible exact Dev.Keeps.refl _ | with_reducible refine (Dev.setF_keeps ..).after ?_
    | with_reducible refine Dev.Keeps.fold _ _ _ ?_ (fun _ _ => ?_) | split

theorem Dev.seedCal_keeps (d : Dev) :
    Dev.Keeps d (Dev.seedCal d) := by
  unfold Dev.seedCal
  repeat first
    | with_reducible exact Dev.Keeps.refl _ | with_reducible refine Dev.Keeps.ite ?_ ?_ | extract_lets | split
    | fail_if_no_progress with_reducible refine Dev.Keeps.mk_ ?_ rfl rfl rfl rfl rfl

theorem execHeadframeRomStart_keeps (straps : BitVec 3) {s t : State} (h : execHeadframeRomStart straps s = .next t) :
    Dev.Keeps s.dev t.dev := by
  refine State.up_keeps (fun d => ?_) h
  repeat first
    | with_reducible exact Dev.Keeps.refl _ | with_reducible refine Dev.Keeps.ite ?_ ?_
    | with_reducible refine (Dev.setF_keeps ..).after ?_ | with_reducible refine (Dev.seedCal_keeps ..).after ?_
    | with_reducible refine (Dev.setB_keeps ..).after ?_ | with_reducible refine (Dev.trouble_keeps ..).after ?_
    | with_reducible refine (Dev.record_keeps ..).after ?_ | with_reducible refine (Dev.setGate_keeps ..).after ?_
    | with_reducible refine (Dev.canaryGains_keeps ..).after ?_ | with_reducible refine (Dev.showCanary_keeps ..).after ?_
    | with_reducible refine (Dev.trainStart_keeps ..).after ?_ | extract_lets | split
    | fail_if_no_progress with_reducible refine Dev.Keeps.mk_ ?_ rfl rfl rfl rfl rfl

theorem Dev.tamperRecord_keeps (d : Dev) :
    Dev.Keeps d (Dev.tamperRecord d) := by
  unfold Dev.tamperRecord
  extract_lets a0 a1 a2
  have h2 : Dev.Keeps d a2 := by
    unfold a2
    repeat first
      | with_reducible exact Dev.Keeps.refl _ | with_reducible refine Dev.Keeps.ite ?_ ?_
      | with_reducible refine (Dev.record_keeps ..).after ?_
  clear_value a2
  repeat first | with_reducible assumption | fail_if_no_progress with_reducible refine Dev.Keeps.mk_ ?_ rfl rfl rfl rfl rfl

theorem execBootDone_stores {s t : State} (h : execBootDone s = .next t) :
    Dev.Stores s.dev t.dev := by
  refine State.up_stores (fun d => ?_) h
  repeat first
    | with_reducible exact Dev.Stores.refl _ | with_reducible refine Dev.Stores.ite ?_ ?_
    | with_reducible refine (Dev.setPcie_keeps ..).stores.after ?_
    | with_reducible refine (Dev.startSkip_keeps ..).stores.after ?_
    | with_reducible refine (Dev.tamperRecord_keeps ..).stores.after ?_ | with_reducible refine (Dev.toMode_stores ..).after ?_

theorem execThymeStop_keeps {s t : State} (h : execThymeStop s = .next t) :
    Dev.Keeps s.dev t.dev := by
  refine State.run_keeps (fun d => ?_) h
  repeat first
    | with_reducible exact Dev.Keeps.refl _ | extract_lets
    | fail_if_no_progress with_reducible refine Dev.Keeps.mk_ ?_ rfl rfl rfl rfl rfl

theorem execTamperOpening_keeps (elapsed : BitVec 48) {s t : State} (h : execTamperOpening elapsed s = .next t) :
    Dev.Keeps s.dev t.dev := by
  refine State.run_keeps (fun d => ?_) h
  extract_lets a0
  repeat first
    | with_reducible exact Dev.Keeps.refl _ | with_reducible refine Dev.Keeps.ite ?_ ?_
    | with_reducible refine (Dev.setF_keeps ..).after ?_ | with_reducible refine (Dev.fire_keeps ..).after ?_
    | with_reducible refine (Dev.record_keeps ..).after ?_ | extract_lets | split
    | fail_if_no_progress with_reducible refine Dev.Keeps.mk_ ?_ rfl rfl rfl rfl rfl

theorem execKaLow_keeps (low : Bool) {s t : State} (h : execKaLow low s = .next t) :
    Dev.Keeps s.dev t.dev := by
  refine State.up_keeps (fun d => ?_) h
  repeat first
    | with_reducible exact Dev.Keeps.refl _ | with_reducible refine Dev.Keeps.ite ?_ ?_
    | with_reducible refine (Dev.setB_keeps ..).after ?_ | with_reducible refine (Dev.powerRecord_keeps ..).after ?_

theorem Dev.snapCheck_keeps (d : Dev) :
    Dev.Keeps d (Dev.snapCheck d) := by
  unfold Dev.snapCheck
  repeat first
    | with_reducible exact Dev.Keeps.refl _ | extract_lets | split
    | fail_if_no_progress with_reducible refine Dev.Keeps.mk_ ?_ rfl rfl rfl rfl rfl

theorem Dev.snapDrop_keeps (d : Dev) (out : Nat → Bool) :
    Dev.Keeps d (Dev.snapDrop d out) := by
  unfold Dev.snapDrop
  repeat first
    | with_reducible exact Dev.Keeps.refl _ | with_reducible refine (Dev.snapCheck_keeps ..).after ?_ | extract_lets | split
    | fail_if_no_progress with_reducible refine Dev.Keeps.mk_ ?_ rfl rfl rfl rfl rfl

theorem Dev.snapStep_keeps (d : Dev) (g : Nat) :
    Dev.Keeps d (Dev.snapStep d g) := by
  unfold Dev.snapStep
  repeat first
    | with_reducible exact Dev.Keeps.refl _ | with_reducible refine Dev.Keeps.ite ?_ ?_
    | with_reducible refine (Dev.snapDrop_keeps ..).after ?_ | extract_lets | split
    | fail_if_no_progress with_reducible refine Dev.Keeps.mk_ ?_ rfl rfl rfl rfl rfl

theorem Dev.snapStart_keeps (d : Dev) :
    Dev.Keeps d (Dev.snapStart d) := by
  unfold Dev.snapStart
  extract_lets a0 a1 a2
  repeat first
    | with_reducible exact Dev.Keeps.refl _ | with_reducible refine (Dev.snapCheck_keeps ..).after ?_ | extract_lets
    | fail_if_no_progress with_reducible refine Dev.Keeps.mk_ ?_ rfl rfl rfl rfl rfl

theorem execSnapFail_keeps {s t : State} (h : execSnapFail s = .next t) :
    Dev.Keeps s.dev t.dev := by
  refine State.up_keeps (fun d => ?_) h
  repeat first
    | with_reducible exact Dev.Keeps.refl _ | with_reducible refine Dev.Keeps.ite ?_ ?_
    | with_reducible refine (Dev.snapAbandon_keeps ..).after ?_

theorem drainToTally_sound (n : Nat) (d : Dev) :
    Dev.Sound d (drainToTally n d) := by
  induction n generalizing d with
  | zero => exact .refl d
  | succ n ih =>
    unfold drainToTally
    repeat first
      | with_reducible refine (ih ..).after ?_ | with_reducible exact Dev.Sound.refl _ | with_reducible refine Dev.Sound.ite ?_ ?_
      | with_reducible refine (Dev.recordArrival_sound ..).after ?_
      | with_reducible refine (Dev.creditReturn_keeps ..).sound.after ?_

theorem Dev.enterHold_sound (d : Dev) (cause : Nat) (restart : Bool) :
    Dev.Sound d (Dev.enterHold d cause restart) := by
  unfold Dev.enterHold
  extract_lets a0 a1 a2 a3 a4 a5 a6 a7
  have h2 : Dev.Sound d a2 := by
    unfold a2
    repeat first | with_reducible exact Dev.Sound.refl _ | fail_if_no_progress with_reducible refine Dev.Sound.mk_ ?_ rfl rfl rfl rfl
  clear_value a2
  have h3 : Dev.Sound d a3 := by
    unfold a3
    repeat first
      | with_reducible assumption | with_reducible refine (Dev.toMode_stores ..).sound.after ?_
      | with_reducible refine (Dev.powerRecord_keeps ..).sound.after ?_ | with_reducible refine (Dev.fire_keeps ..).sound.after ?_
  clear_value a3
  have h4 : Dev.Sound d a4 := by
    unfold a4
    repeat first | with_reducible assumption | with_reducible refine (Dev.linkLost_keeps ..).sound.after ?_
  clear_value a4
  have h7 : Dev.Sound d a7 := by
    unfold a7
    repeat first | with_reducible assumption | fail_if_no_progress with_reducible refine Dev.Sound.mk_ ?_ rfl rfl rfl rfl
  clear_value a7
  repeat first
    | with_reducible assumption | with_reducible refine Dev.Sound.ite ?_ ?_
    | with_reducible refine (Dev.storeOpsec_keeps ..).sound.after ?_
    | with_reducible refine (Dev.snapStart_keeps ..).sound.after ?_ | with_reducible refine (drainToTally_sound ..).after ?_
    | with_reducible refine (Dev.closeLog_sound ..).after ?_
    | fail_if_no_progress with_reducible refine Dev.Sound.mk_ ?_ rfl rfl rfl rfl

theorem execHoldEntry_sound {s t : State} (h : execHoldEntry s = .next t) :
    Dev.Sound s.dev t.dev := by
  refine State.up_sound (fun d => ?_) h
  repeat first
    | with_reducible exact Dev.Sound.refl _ | with_reducible refine Dev.Sound.ite ?_ ?_
    | with_reducible refine (Dev.enterHold_sound ..).after ?_

theorem execReqRestart_sound {s t : State} (h : execReqRestart s = .next t) :
    Dev.Sound s.dev t.dev := by
  refine State.auth_sound (fun d x => ?_) h
  repeat first | with_reducible exact Dev.Sound.refl _ | with_reducible refine (Dev.enterHold_sound ..).after ?_ | extract_lets | split

theorem execSupplyLost_sound (high low : Bool) {s t : State} (h : execSupplyLost high low s = .next t) :
    Dev.Sound s.dev t.dev := by
  refine State.up_sound (fun d => ?_) h
  repeat first
    | with_reducible exact Dev.Sound.refl _ | with_reducible refine Dev.Sound.ite ?_ ?_
    | with_reducible refine (Dev.setF_keeps ..).sound.after ?_ | with_reducible refine (Dev.setB_keeps ..).sound.after ?_
    | with_reducible refine (Dev.powerRecord_keeps ..).sound.after ?_ | with_reducible refine (Dev.fire_keeps ..).sound.after ?_
    | with_reducible refine (Dev.enterHold_sound ..).after ?_

theorem Dev.holdEnd_sound (d : Dev) :
    Dev.Sound d (Dev.holdEnd d) := by
  unfold Dev.holdEnd
  repeat first | with_reducible exact Dev.Sound.refl _ | with_reducible refine (Dev.bootEntry_sound ..).after ?_

theorem execSupplyValid_sound (elapsed : BitVec 48) {s t : State} (h : execSupplyValid elapsed s = .next t) :
    Dev.Sound s.dev t.dev := by
  refine State.run_sound (fun d => ?_) h
  repeat first
    | with_reducible exact Dev.Sound.refl _ | with_reducible refine Dev.Sound.ite ?_ ?_
    | with_reducible refine (Dev.bootEntry_sound ..).after ?_ | with_reducible refine (Dev.setF_keeps ..).sound.after ?_
    | with_reducible refine (Dev.holdEnd_sound ..).after ?_ | with_reducible refine (Dev.powerRecord_keeps ..).sound.after ?_

theorem execHoldDone_sound {s t : State} (h : execHoldDone s = .next t) :
    Dev.Sound s.dev t.dev := by
  refine State.up_sound (fun d => ?_) h
  repeat first
    | with_reducible exact Dev.Sound.refl _ | with_reducible refine Dev.Sound.ite ?_ ?_
    | with_reducible refine (Dev.powerRecord_keeps ..).sound.after ?_ | with_reducible refine (Dev.holdEnd_sound ..).after ?_
    | extract_lets | fail_if_no_progress with_reducible refine Dev.Sound.mk_ ?_ rfl rfl rfl rfl

theorem execHoldFaultEnd_sound {s t : State} (h : execHoldFaultEnd s = .next t) :
    Dev.Sound s.dev t.dev := by
  refine State.up_sound (fun d => ?_) h
  repeat first
    | with_reducible exact Dev.Sound.refl _ | with_reducible refine Dev.Sound.ite ?_ ?_
    | with_reducible refine (Dev.holdEnd_sound ..).after ?_ | extract_lets | split

theorem execHoldupExhausted_sound {s t : State} (h : execHoldupExhausted s = .next t) :
    Dev.Sound s.dev t.dev := by
  refine State.up_sound (fun d => ?_) h
  repeat first
    | with_reducible exact Dev.Sound.refl _ | with_reducible refine Dev.Sound.ite ?_ ?_
    | with_reducible refine (Dev.enterOff_sound ..).after ?_

theorem execHoldupCapMeasure_keeps (cap : BitVec 16) {s t : State} (h : execHoldupCapMeasure cap s = .next t) :
    Dev.Keeps s.dev t.dev := by
  refine State.up_keeps (fun d => ?_) h
  extract_lets a0
  have h0 : Dev.Keeps d a0 := by
    unfold a0
    repeat first | with_reducible exact Dev.Keeps.refl _ | with_reducible refine (Dev.setF_keeps ..).after ?_
  clear_value a0
  repeat first
    | with_reducible assumption | with_reducible refine Dev.Keeps.ite ?_ ?_ | with_reducible refine (Dev.setF_keeps ..).after ?_
    | with_reducible refine (Dev.trouble_keeps ..).after ?_ | with_reducible refine (Dev.powerRecord_keeps ..).after ?_

theorem execHoldupCharged_keeps {s t : State} (h : execHoldupCharged s = .next t) :
    Dev.Keeps s.dev t.dev := by
  refine State.up_keeps (fun d => ?_) h
  repeat first
    | with_reducible exact Dev.Keeps.refl _ | with_reducible refine Dev.Keeps.ite ?_ ?_
    | with_reducible refine (Dev.setF_keeps ..).after ?_

theorem Dev.setHalf_keeps (d : Dev) (h : Half) (x : HalfSt) :
    Dev.Keeps d (Dev.setHalf d h x) := by
  unfold Dev.setHalf
  repeat first | with_reducible exact Dev.Keeps.refl _ | fail_if_no_progress with_reducible refine Dev.Keeps.mk_ ?_ rfl rfl rfl rfl rfl

theorem Dev.setHalfOff_keeps (d : Dev) (h : Half) (off : Bool) :
    Dev.Keeps d (Dev.setHalfOff d h off) := by
  unfold Dev.setHalfOff
  repeat first | with_reducible exact Dev.Keeps.refl _ | with_reducible refine (Dev.setB_keeps ..).after ?_ | split

theorem Dev.awayHalf_keeps (d : Dev) (h : Half) :
    Dev.Keeps d (Dev.awayHalf d h) := by
  unfold Dev.awayHalf
  extract_lets a0
  repeat first | with_reducible exact Dev.Keeps.refl _ | with_reducible refine (Dev.setSeam_keeps ..).after ?_

theorem Dev.afeHalfLost_keeps (d : Dev) (h : Half) :
    Dev.Keeps d (Dev.afeHalfLost d h) := by
  unfold Dev.afeHalfLost
  extract_lets a0 a1
  repeat first
    | with_reducible exact Dev.Keeps.refl _ | with_reducible refine Dev.Keeps.ite ?_ ?_
    | with_reducible refine (Dev.setB_keeps ..).after ?_ | extract_lets
    | fail_if_no_progress with_reducible refine Dev.Keeps.mk_ ?_ rfl rfl rfl rfl rfl

theorem Dev.halfStops_keeps (d : Dev) (h : Half) :
    Dev.Keeps d (Dev.halfStops d h) := by
  unfold Dev.halfStops
  extract_lets a0 a1 a2 a3 a4
  have h0 : Dev.Keeps d a0 := by
    unfold a0
    repeat first
      | with_reducible exact Dev.Keeps.refl _ | with_reducible refine (Dev.skipOffline_keeps ..).after ?_
      | with_reducible refine (Dev.setHalfOff_keeps ..).after ?_ | with_reducible refine Dev.Keeps.fold _ _ _ ?_ (fun _ _ => ?_)
  clear_value a0
  have h1 : Dev.Keeps d a1 := by
    unfold a1
    repeat first
      | with_reducible assumption | with_reducible refine (Dev.netHalfLost_keeps ..).after ?_
      | with_reducible refine (Dev.bankHalfLost_keeps ..).after ?_
  clear_value a1
  have h2 : Dev.Keeps d a2 := by
    unfold a2
    repeat first
      | with_reducible assumption | with_reducible refine (Dev.twuHalfLost_keeps ..).after ?_
      | with_reducible refine (Dev.awayHalf_keeps ..).after ?_
  clear_value a2
  have h3 : Dev.Keeps d a3 := by
    unfold a3
    repeat first
      | with_reducible assumption | with_reducible exact Dev.Keeps.refl _ | with_reducible refine Dev.Keeps.ite ?_ ?_
      | with_reducible refine (Dev.setFace_keeps ..).after ?_ | with_reducible refine Dev.Keeps.fold _ _ _ ?_ (fun _ _ => ?_)
  clear_value a3
  have h4 : Dev.Keeps d a4 := by
    unfold a4
    repeat first
      | with_reducible assumption | with_reducible exact Dev.Keeps.refl _ | with_reducible refine (Dev.refsOff_keeps ..).after ?_
      | with_reducible refine Dev.Keeps.fold _ _ _ ?_ (fun _ _ => ?_)
  clear_value a4
  repeat first
    | with_reducible assumption | with_reducible refine (Dev.afeHalfLost_keeps ..).after ?_
    | with_reducible refine (Dev.snapDrop_keeps ..).after ?_

theorem execHalfLost_keeps (h : Half) {s t : State} (h : execHalfLost h s = .next t) :
    Dev.Keeps s.dev t.dev := by
  refine State.up_keeps (fun d => ?_) h
  repeat first
    | with_reducible exact Dev.Keeps.refl _ | with_reducible refine Dev.Keeps.ite ?_ ?_
    | with_reducible refine (Dev.halfStops_keeps ..).after ?_ | with_reducible refine (Dev.setHalf_keeps ..).after ?_
    | with_reducible refine (Dev.incF_keeps ..).after ?_ | with_reducible refine (Dev.trouble_keeps ..).after ?_
    | with_reducible refine (Dev.powerRecord_keeps ..).after ?_ | with_reducible refine (Dev.fire_keeps ..).after ?_
    | with_reducible refine (Dev.setF_keeps ..).after ?_ | with_reducible refine (Dev.farea_keeps ..).after ?_
    | with_reducible refine (Dev.degradedCause_keeps ..).after ?_ | with_reducible refine (Dev.gateSettled_keeps ..).after ?_

theorem execHalfRestart_keeps (h : Half) {s t : State} (h : execHalfRestart h s = .next t) :
    Dev.Keeps s.dev t.dev := by
  refine State.up_keeps (fun d => ?_) h
  repeat first
    | with_reducible exact Dev.Keeps.refl _ | with_reducible refine Dev.Keeps.ite ?_ ?_
    | with_reducible refine (Dev.setHalf_keeps ..).after ?_

theorem Dev.faceBack_keeps (d : Dev) (f : FaceRec) :
    Dev.Keeps d (Dev.faceBack d f) := by
  unfold Dev.faceBack
  repeat first
    | with_reducible exact Dev.Keeps.refl _ | with_reducible refine Dev.Keeps.ite ?_ ?_
    | with_reducible refine (Dev.setCell_keeps ..).after ?_ | with_reducible refine (Dev.setSeam_keeps ..).after ?_
    | with_reducible refine (Dev.setFace_keeps ..).after ?_ | with_reducible refine (Dev.takeFrom_keeps ..).after ?_
    | with_reducible refine Dev.Keeps.fold _ _ _ ?_ (fun _ _ => ?_)

theorem Dev.gapSources_keeps (d : Dev) (n : Nat) (srcs : List Nat) :
    Dev.Keeps d (Dev.gapSources d n srcs) := by
  unfold Dev.gapSources
  extract_lets a0
  repeat first
    | with_reducible exact Dev.Keeps.refl _ | with_reducible refine Dev.Keeps.ite ?_ ?_
    | with_reducible refine (Dev.setSkip_keeps ..).after ?_

theorem Dev.afeHalfBack_keeps (d : Dev) (h : Half) :
    Dev.Keeps d (Dev.afeHalfBack d h) := by
  unfold Dev.afeHalfBack
  extract_lets a0
  repeat first
    | with_reducible exact Dev.Keeps.refl _ | with_reducible refine (Dev.setAfeChan_keeps ..).after ?_
    | with_reducible refine Dev.Keeps.fold _ _ _ ?_ (fun _ _ => ?_) | extract_lets
    | fail_if_no_progress with_reducible refine Dev.Keeps.mk_ ?_ rfl rfl rfl rfl rfl

theorem Dev.halfReturns_keeps (d : Dev) (h : Half) :
    Dev.Keeps d (Dev.halfReturns d h) := by
  unfold Dev.halfReturns
  extract_lets a0 a1 a2 a3 a4 a5
  have h0 : Dev.Keeps d a0 := by
    unfold a0
    repeat first
      | with_reducible exact Dev.Keeps.refl _ | with_reducible refine (Dev.skipRejoin_keeps ..).after ?_
      | with_reducible refine (Dev.setHalfOff_keeps ..).after ?_ | with_reducible refine Dev.Keeps.fold _ _ _ ?_ (fun _ _ => ?_)
  clear_value a0
  have h1 : Dev.Keeps d a1 := by
    unfold a1
    repeat first
      | with_reducible assumption | with_reducible exact Dev.Keeps.refl _
      | with_reducible refine (Dev.gapSources_keeps ..).after ?_ | with_reducible refine Dev.Keeps.fold _ _ _ ?_ (fun _ _ => ?_)
  clear_value a1
  have h2 : Dev.Keeps d a2 := by
    unfold a2
    repeat first | with_reducible assumption | with_reducible refine (Dev.gapSources_keeps ..).after ?_
  clear_value a2
  have h3 : Dev.Keeps d a3 := by
    unfold a3
    repeat first
      | with_reducible assumption | with_reducible refine (Dev.netHalfBack_keeps ..).after ?_
      | with_reducible refine (Dev.bankHalfBack_keeps ..).after ?_
  clear_value a3
  have h4 : Dev.Keeps d a4 := by
    unfold a4
    repeat first | with_reducible assumption | with_reducible refine (Dev.twuHalfBack_keeps ..).after ?_
  clear_value a4
  have h5 : Dev.Keeps d a5 := by
    unfold a5
    repeat first
      | with_reducible assumption | with_reducible exact Dev.Keeps.refl _ | with_reducible refine (Dev.faceBack_keeps ..).after ?_
      | with_reducible refine Dev.Keeps.fold _ _ _ ?_ (fun _ _ => ?_)
  clear_value a5
  repeat first
    | with_reducible assumption | with_reducible refine (Dev.afeHalfBack_keeps ..).after ?_
    | with_reducible refine (Dev.drainAll_keeps ..).after ?_ | with_reducible refine (Dev.countStalls_keeps ..).after ?_

theorem execHalfReadmit_keeps (h : Half) {s t : State} (h : execHalfReadmit h s = .next t) :
    Dev.Keeps s.dev t.dev := by
  refine State.up_keeps (fun d => ?_) h
  repeat first
    | with_reducible exact Dev.Keeps.refl _ | with_reducible refine Dev.Keeps.ite ?_ ?_
    | with_reducible refine (Dev.halfReturns_keeps ..).after ?_ | with_reducible refine (Dev.setHalf_keeps ..).after ?_
    | with_reducible refine (Dev.powerRecord_keeps ..).after ?_ | with_reducible refine (Dev.fire_keeps ..).after ?_

theorem execPpsOutRise_keeps {s t : State} (h : execPpsOutRise s = .next t) :
    Dev.Keeps s.dev t.dev := by
  refine State.up_keeps (fun d => ?_) h
  repeat first
    | with_reducible exact Dev.Keeps.refl _ | with_reducible refine Dev.Keeps.ite ?_ ?_ | extract_lets
    | fail_if_no_progress with_reducible refine Dev.Keeps.mk_ ?_ rfl rfl rfl rfl rfl

theorem execPpsOutFall_keeps {s t : State} (h : execPpsOutFall s = .next t) :
    Dev.Keeps s.dev t.dev := by
  refine State.up_keeps (fun d => ?_) h
  repeat first
    | with_reducible exact Dev.Keeps.refl _ | with_reducible refine Dev.Keeps.ite ?_ ?_ | extract_lets | split
    | fail_if_no_progress with_reducible refine Dev.Keeps.mk_ ?_ rfl rfl rfl rfl rfl

end Sys2Proof.Machine
end

