-- ==== Sys2Proof/Laws/KeepsFaults.lean ====
section
/-! SUPPORT. What the operations of Machine/Faults.lean leave alone. -/
namespace Sys2Proof.Machine

theorem Dev.changeData_sound (d : Dev) (r a : Nat) (f : Nat → Nat) : Dev.Sound d (d.changeData r a f) := by
  unfold Dev.changeData
  extract_lets put
  have hp : ∀ m, Memory.wf m = true → Memory.wf (put m) = true := fun m h => Memory.wf_writeBytes _ _ _ h
  clear_value put
  split
  · exact .ofRecMem (hp _)
  · split
    · exact .ofNear (hp _)
    · exact .refl d

theorem Dev.pokePoint_keeps (d : Dev) (g addr : Nat) (f : PtV → PtV) :
    Dev.Keeps d (Dev.pokePoint d g addr f) := by
  unfold Dev.pokePoint
  repeat first
    | with_reducible exact Dev.Keeps.refl _ | with_reducible refine (Dev.setSeam_keeps ..).after ?_
    | with_reducible refine (Dev.setFace_keeps ..).after ?_ | extract_lets | split

theorem Dev.corrupt_sound (d : Dev) (r : Nat) (b : BadWord) (residual : Nat) :
    Dev.Sound d (Dev.corrupt d r b residual) := by
  unfold Dev.corrupt
  extract_lets a0 a1
  have h1 : Dev.Sound d a1 := by
    unfold a1
    repeat first | with_reducible exact Dev.Sound.refl _ | with_reducible refine (Dev.changeData_sound ..).after ?_
  clear_value a1
  repeat first
    | with_reducible assumption | with_reducible refine Dev.Sound.ite ?_ ?_
    | with_reducible refine (Dev.pokePoint_keeps ..).sound.after ?_

theorem Dev.mramPoison_sound (d : Dev) (w : Mram) : Dev.Sound d (d.mramPoison w) := by
  unfold Dev.mramPoison
  split
  · exact ((Dev.trouble_keeps ..).after ((Dev.updateCanary_keeps ..).after (Dev.showCanary_keeps ..))).sound.after
      (.mk_ (.refl d) rfl rfl rfl rfl)
  · exact .mk_ (.refl d) rfl rfl rfl rfl
  · next k =>
    refine ⟨fun m => ⟨m.1, m.2, m.3⟩, fun j hj => ?_, le_refl _⟩
    unfold Dev.revoked at *
    dsimp only
    split
    · next x e =>
      rw [SMap.get?_set]
      split
      · next e' =>
        subst e'
        rw [e] at hj
        exact hj
      · exact hj
    · exact hj
  · exact .mk_ (.refl d) rfl rfl rfl rfl
  · exact .refl d

theorem Dev.poison_sound (d : Dev) (r : Nat) (b : BadWord) :
    Dev.Sound d (Dev.poison d r b) := by
  unfold Dev.poison
  extract_lets a0 a1
  repeat first
    | with_reducible exact Dev.Sound.refl _ | with_reducible refine Dev.Sound.ite ?_ ?_
    | with_reducible refine (Dev.changeData_sound ..).after ?_ | with_reducible refine (Dev.pokePoint_keeps ..).sound.after ?_
    | with_reducible refine (Dev.mramPoison_sound ..).after ?_ | with_reducible refine (Dev.nearFail_sound ..).after ?_
    | extract_lets | fail_if_no_progress with_reducible refine Dev.Sound.mk_ ?_ rfl rfl rfl rfl

theorem Dev.memEvent_keeps (d : Dev) (r kind face addr : Nat) :
    Dev.Keeps d (Dev.memEvent d r kind face addr) := by
  unfold Dev.memEvent
  repeat first
    | with_reducible exact Dev.Keeps.refl _ | with_reducible refine Dev.Keeps.ite ?_ ?_
    | with_reducible refine (Dev.setF_keeps ..).after ?_

theorem Dev.scrubWord_sound (d : Dev) (r : Nat) (b : BadWord) :
    Dev.Sound d (Dev.scrubWord d r b) := by
  unfold Dev.scrubWord
  extract_lets a0
  repeat first
    | with_reducible exact Dev.Sound.refl _ | with_reducible refine Dev.Sound.ite ?_ ?_
    | with_reducible refine (Dev.incF_keeps ..).sound.after ?_ | with_reducible refine (Dev.memEvent_keeps ..).sound.after ?_
    | with_reducible refine (Dev.trouble_keeps ..).sound.after ?_ | with_reducible refine (Dev.poison_sound ..).after ?_
    | with_reducible refine (Dev.corrupt_sound ..).after ?_ | with_reducible refine (Dev.farea_keeps ..).sound.after ?_
    | extract_lets | split

theorem execScrubPassEnd_sound (r : Fin 8) (words : List BadWord) {s t : State} (h : execScrubPassEnd r words s = .next t) :
    Dev.Sound s.dev t.dev := by
  refine State.upWf_sound (fun d => ?_) h
  repeat first
    | with_reducible exact Dev.Sound.refl _ | with_reducible refine Dev.Sound.ite ?_ ?_
    | with_reducible refine (Dev.scrubWord_sound ..).after ?_ | with_reducible refine (Dev.incWrap_keeps ..).sound.after ?_
    | with_reducible refine (Dev.trouble_keeps ..).sound.after ?_ | with_reducible refine Dev.Sound.fold _ _ _ ?_ (fun _ _ => ?_)

theorem execScrubLate_keeps (r : Fin 8) {s t : State} (h : execScrubLate r s = .next t) :
    Dev.Keeps s.dev t.dev := by
  refine State.up_keeps (fun d => ?_) h
  repeat first
    | with_reducible exact Dev.Keeps.refl _ | with_reducible refine Dev.Keeps.ite ?_ ?_
    | with_reducible refine (Dev.trouble_keeps ..).after ?_

theorem Dev.farLose_keeps (d : Dev) (addr : Nat) :
    Dev.Keeps d (Dev.farLose d addr) := by
  unfold Dev.farLose
  repeat first
    | with_reducible exact Dev.Keeps.refl _ | with_reducible refine Dev.Keeps.ite ?_ ?_
    | with_reducible refine (Dev.setTlyCh_keeps ..).after ?_ | with_reducible refine Dev.Keeps.fold _ _ _ ?_ (fun _ _ => ?_)

theorem Dev.slotLose_keeps (d : Dev) (slot addr : Nat) :
    Dev.Keeps d (Dev.slotLose d slot addr) := by
  unfold Dev.slotLose
  extract_lets a0 a1 a2
  repeat first | with_reducible exact Dev.Keeps.refl _ | fail_if_no_progress with_reducible refine Dev.Keeps.mk_ ?_ rfl rfl rfl rfl rfl

theorem execNandRefresh_keeps (slot : Option (Fin 2)) (addr : BitVec 32) (corr : Byte) (pe rate : BitVec 16) {s t : State} (h : execNandRefresh slot addr corr pe rate s = .next t) :
    Dev.Keeps s.dev t.dev := by
  refine State.up_keeps (fun d => ?_) h
  extract_lets a0 a1 a2 a3 a4
  have h2 : Dev.Keeps d a2 := by
    unfold a2
    repeat first
      | with_reducible exact Dev.Keeps.refl _ | with_reducible refine (Dev.incF_keeps ..).after ?_
      | with_reducible refine (Dev.memEvent_keeps ..).after ?_ | with_reducible refine (Dev.trouble_keeps ..).after ?_
  clear_value a2
  have h3 : Dev.Keeps d a3 := by
    unfold a3
    repeat first
      | with_reducible assumption | with_reducible exact Dev.Keeps.refl _ | with_reducible refine Dev.Keeps.ite ?_ ?_
      | with_reducible refine (Dev.incF_keeps ..).after ?_ | with_reducible refine (Dev.memEvent_keeps ..).after ?_
      | with_reducible refine (Dev.farea_keeps ..).after ?_ | with_reducible refine (Dev.slotLose_keeps ..).after ?_
      | with_reducible refine (Dev.farLose_keeps ..).after ?_ | extract_lets | split
  clear_value a3
  have h4 : Dev.Keeps d a4 := by
    unfold a4
    repeat first
      | with_reducible assumption | with_reducible refine Dev.Keeps.ite ?_ ?_
      | with_reducible refine (Dev.trouble_keeps ..).after ?_
  clear_value a4
  repeat first
    | with_reducible assumption | with_reducible refine Dev.Keeps.ite ?_ ?_
    | with_reducible refine (Dev.trouble_keeps ..).after ?_ | with_reducible refine (Dev.setF_keeps ..).after ?_

theorem execNearStoreFail_sound (scrub : Bool) (addr : BitVec 64) {s t : State} (h : execNearStoreFail scrub addr s = .next t) :
    Dev.Sound s.dev t.dev := by
  refine State.up_sound (fun d => ?_) h
  repeat first | with_reducible exact Dev.Sound.refl _ | with_reducible refine (Dev.nearFail_sound ..).after ?_

theorem execFarStoreFail_sound (timeout : Bool) (addr : BitVec 64) {s t : State} (h : execFarStoreFail timeout addr s = .next t) :
    Dev.Sound s.dev t.dev := by
  refine State.up_sound (fun d => ?_) h
  repeat first | with_reducible exact Dev.Sound.refl _ | with_reducible refine (Dev.farFail_sound ..).after ?_

theorem execTemp_keeps {s t : State} (h : execTemp s = .next t) :
    Dev.Keeps s.dev t.dev := by
  refine State.up_keeps (fun d => ?_) h
  repeat first | with_reducible exact Dev.Keeps.refl _ | with_reducible refine (Dev.trouble_keeps ..).after ?_

end Sys2Proof.Machine
end

