-- ==== Sys2Proof/Laws/KeepsSteps.lean ====
section
/-! SUPPORT. What the operations of Machine/Steps.lean leave alone. -/
namespace Sys2Proof.Machine

theorem Dev.haltFace_keeps (d : Dev) (g cycles : Nat) :
    Dev.Keeps d (Dev.haltFace d g cycles) := by
  unfold Dev.haltFace
  extract_lets a0 a1 a2 a3 a4 a5 a6 a7 a8
  have h3 : Dev.Keeps d a3 := by
    unfold a3
    repeat first | with_reducible exact Dev.Keeps.refl _ | with_reducible refine (Dev.setFace_keeps ..).after ?_
  clear_value a3
  have h4 : Dev.Keeps d a4 := by
    unfold a4
    repeat first
      | with_reducible assumption | with_reducible refine (Dev.faceBit_keeps ..).after ?_
      | with_reducible refine (Dev.setF_keeps ..).after ?_
  clear_value a4
  have h5 : Dev.Keeps d a5 := by
    unfold a5
    repeat first
      | with_reducible assumption | with_reducible refine (Dev.stepCycles_keeps ..).after ?_
      | with_reducible refine (Dev.overrun_keeps ..).after ?_ | with_reducible refine (Dev.trouble_keeps ..).after ?_
  clear_value a5
  have h6 : Dev.Keeps d a6 := by
    unfold a6
    repeat first | with_reducible assumption | with_reducible refine (Dev.farea_keeps ..).after ?_
  clear_value a6
  have h7 : Dev.Keeps d a7 := by
    unfold a7
    repeat first | with_reducible assumption | with_reducible refine (Dev.setSched_keeps ..).after ?_
  clear_value a7
  have h8 : Dev.Keeps d a8 := by
    unfold a8
    repeat first
      | with_reducible assumption | with_reducible refine Dev.Keeps.ite ?_ ?_
      | with_reducible refine (Dev.sendHalted_keeps ..).after ?_
  clear_value a8
  repeat first
    | with_reducible assumption | with_reducible refine (Dev.snapDrop_keeps ..).after ?_
    | with_reducible refine (Dev.updateCanary_keeps ..).after ?_

theorem Dev.pointsWritten_keeps (d : Dev) (g : Nat) :
    Dev.Keeps d (Dev.pointsWritten d g) := by
  unfold Dev.pointsWritten
  repeat first | with_reducible exact Dev.Keeps.refl _ | fail_if_no_progress with_reducible refine Dev.Keeps.mk_ ?_ rfl rfl rfl rfl rfl

theorem Dev.evalStep_keeps (d : Dev) (g cycles : Nat) (req : List Sched) :
    Dev.Keeps d (Dev.evalStep d g cycles req) := by
  unfold Dev.evalStep
  repeat first
    | with_reducible exact Dev.Keeps.refl _ | with_reducible refine Dev.Keeps.ite ?_ ?_
    | with_reducible refine (Dev.trouble_keeps ..).after ?_ | with_reducible refine (Dev.haltFace_keeps ..).after ?_
    | with_reducible refine (Dev.pointsWritten_keeps ..).after ?_ | with_reducible refine (Dev.faceStep_keeps ..).after ?_
    | with_reducible refine (Dev.snapStep_keeps ..).after ?_ | with_reducible refine (Dev.updateCanary_keeps ..).after ?_

theorem execFaceStep_keeps (g : Fin 256) (cycles : Word) (req : List (Fin 64 × Bool × Fin 4 × BitVec 48)) {s t : State} (h : execFaceStep g cycles req s = .next t) :
    Dev.Keeps s.dev t.dev := by
  refine State.up_keeps (fun d => ?_) h
  repeat first
    | with_reducible exact Dev.Keeps.refl _ | with_reducible refine Dev.Keeps.ite ?_ ?_
    | with_reducible refine (Dev.evalStep_keeps ..).after ?_

theorem execFaceStepDeadline_keeps (g : Fin 256) (cycles : Word) (req : List (Fin 64 × Bool × Fin 4 × BitVec 48)) {s t : State} (h : execFaceStepDeadline g cycles req s = .next t) :
    Dev.Keeps s.dev t.dev := by
  refine State.up_keeps (fun d => ?_) h
  extract_lets a0
  repeat first
    | with_reducible exact Dev.Keeps.refl _ | with_reducible refine Dev.Keeps.ite ?_ ?_
    | with_reducible refine (Dev.addF_keeps ..).after ?_ | with_reducible refine (Dev.evalStep_keeps ..).after ?_

theorem execFaceHalt_keeps (g : Fin 256) {s t : State} (h : execFaceHalt g s = .next t) :
    Dev.Keeps s.dev t.dev := by
  refine State.up_keeps (fun d => ?_) h
  extract_lets a0
  repeat first
    | with_reducible exact Dev.Keeps.refl _ | with_reducible refine Dev.Keeps.ite ?_ ?_
    | with_reducible refine (Dev.addF_keeps ..).after ?_ | with_reducible refine (Dev.haltFace_keeps ..).after ?_

theorem execCellDelayExpiry_keeps (g : Fin 256) (cycles : Word) (req : List (Fin 64 × Bool × Fin 4 × BitVec 48)) {s t : State} (h : execCellDelayExpiry g cycles req s = .next t) :
    Dev.Keeps s.dev t.dev := by
  refine State.up_keeps (fun d => ?_) h
  extract_lets a0
  repeat first
    | with_reducible exact Dev.Keeps.refl _ | with_reducible refine Dev.Keeps.ite ?_ ?_
    | with_reducible refine (Dev.evalStep_keeps ..).after ?_

end Sys2Proof.Machine
end

