-- ==== Sys2Proof/Laws/KeepsTick.lean ====
section
/-! SUPPORT. What the operations of Machine/Tick.lean leave alone. -/
namespace Sys2Proof.Machine

theorem Dev.instants_keeps (d : Dev) :
    Dev.Keeps d (Dev.instants d) := by
  unfold Dev.instants
  extract_lets a0
  have h0 : Dev.Keeps d a0 := by
    unfold a0
    repeat first
      | with_reducible exact Dev.Keeps.refl _ | with_reducible refine Dev.Keeps.ite ?_ ?_
      | with_reducible refine (Dev.domAdvance_keeps ..).after ?_ | with_reducible refine Dev.Keeps.fold _ _ _ ?_ (fun _ _ => ?_)
  clear_value a0
  repeat first | with_reducible assumption | with_reducible refine (Dev.frTick_keeps ..).after ?_

theorem Dev.idle_sound (d : Dev) :
    Dev.Sound d (Dev.idle d) := by
  unfold Dev.idle
  repeat first
    | with_reducible exact Dev.Sound.refl _ | with_reducible refine Dev.Sound.ite ?_ ?_
    | with_reducible refine (Dev.asyTick_keeps ..).sound.after ?_ | with_reducible refine (Dev.tick_sound ..).after ?_
    | with_reducible refine (Dev.instants_keeps ..).sound.after ?_ | with_reducible refine (Dev.sviTick_keeps ..).sound.after ?_
    | with_reducible refine (Dev.mvRefreshAll_keeps ..).sound.after ?_ | with_reducible refine (Dev.fieldTick_sound ..).after ?_

end Sys2Proof.Machine
end

