-- ==== Sys2Proof/Laws/KeepsRows.lean ====
section
/-! SUPPORT. What the operations of Machine/Rows.lean leave alone. -/
namespace Sys2Proof.Machine

theorem execRegisterWrite_sound (req : Requester) (acc : Access) (data : Dword) (ring : Ring) {s t : State} (h : execRegisterWrite req acc data ring s = .next t) :
    Dev.Sound s.dev t.dev := by
  refine State.access_sound (fun d => ?_) h
  repeat first | with_reducible exact Dev.Sound.refl _ | with_reducible refine (Dev.busWrite_sound ..).after ?_

theorem execRegisterRead_keeps (req : Requester) (acc : Access) {s t : State} (h : execRegisterRead req acc s = .next t) :
    Dev.Keeps s.dev t.dev := by
  refine State.access_keeps (fun d => ?_) h
  repeat first | with_reducible exact Dev.Keeps.refl _ | with_reducible refine (Dev.busRead_keeps ..).after ?_

theorem execDataSetWrite_sound (req : Requester) (acc : Access) (data : Dword) (ring : Ring) {s t : State} (h : execDataSetWrite req acc data ring s = .next t) :
    Dev.Sound s.dev t.dev := by
  refine State.accessWf_sound (fun d => ?_) h
  repeat first | with_reducible exact Dev.Sound.refl _ | with_reducible refine (Dev.busWrite_sound ..).after ?_

theorem execDataClrWrite_sound (req : Requester) (acc : Access) (data : Dword) (ring : Ring) {s t : State} (h : execDataClrWrite req acc data ring s = .next t) :
    Dev.Sound s.dev t.dev := by
  refine State.accessWf_sound (fun d => ?_) h
  repeat first | with_reducible exact Dev.Sound.refl _ | with_reducible refine (Dev.busWrite_sound ..).after ?_

theorem execDataTglWrite_sound (req : Requester) (acc : Access) (data : Dword) (ring : Ring) {s t : State} (h : execDataTglWrite req acc data ring s = .next t) :
    Dev.Sound s.dev t.dev := by
  refine State.accessWf_sound (fun d => ?_) h
  repeat first | with_reducible exact Dev.Sound.refl _ | with_reducible refine (Dev.busWrite_sound ..).after ?_

theorem execStatusReadClear_keeps (req : Requester) (acc : Access) {s t : State} (h : execStatusReadClear req acc s = .next t) :
    Dev.Keeps s.dev t.dev := by
  refine State.accessWf_keeps (fun d => ?_) h
  repeat first | with_reducible exact Dev.Keeps.refl _ | with_reducible refine (Dev.busRead_keeps ..).after ?_

theorem execPairLoRead_keeps (req : Requester) (acc : Access) {s t : State} (h : execPairLoRead req acc s = .next t) :
    Dev.Keeps s.dev t.dev := by
  refine State.accessWf_keeps (fun d => ?_) h
  repeat first | with_reducible exact Dev.Keeps.refl _ | with_reducible refine (Dev.busRead_keeps ..).after ?_

theorem execPairHiRead_keeps (req : Requester) (acc : Access) {s t : State} (h : execPairHiRead req acc s = .next t) :
    Dev.Keeps s.dev t.dev := by
  refine State.accessWf_keeps (fun d => ?_) h
  repeat first | with_reducible exact Dev.Keeps.refl _ | with_reducible refine (Dev.busRead_keeps ..).after ?_

theorem execPairLoWrite_sound (req : Requester) (addr : BitVec 22) (data : Word) {s t : State} (h : execPairLoWrite req addr data s = .next t) :
    Dev.Sound s.dev t.dev := by
  refine State.accessWf_sound (fun d => ?_) h
  repeat first | with_reducible exact Dev.Sound.refl _ | with_reducible refine (Dev.busWrite_sound ..).after ?_

theorem execPairHiWrite_sound (req : Requester) (addr : BitVec 22) (data : Word) {s t : State} (h : execPairHiWrite req addr data s = .next t) :
    Dev.Sound s.dev t.dev := by
  refine State.accessWf_sound (fun d => ?_) h
  repeat first | with_reducible exact Dev.Sound.refl _ | with_reducible refine (Dev.busWrite_sound ..).after ?_

theorem execPair64Write_sound (req : Requester) (addr : BitVec 22) (data : Dword) {s t : State} (h : execPair64Write req addr data s = .next t) :
    Dev.Sound s.dev t.dev := by
  refine State.accessWf_sound (fun d => ?_) h
  repeat first | with_reducible exact Dev.Sound.refl _ | with_reducible refine (Dev.busWrite_sound ..).after ?_

theorem execClkSnapshot_sound (req : Requester) (data : Word) {s t : State} (h : execClkSnapshot req data s = .next t) :
    Dev.Sound s.dev t.dev := by
  refine State.access_sound (fun d => ?_) h
  repeat first | with_reducible exact Dev.Sound.refl _ | with_reducible refine (Dev.writeReg_sound ..).after ?_

theorem execAngleConversion_sound (req : Requester) (data : Dword) {s t : State} (h : execAngleConversion req data s = .next t) :
    Dev.Sound s.dev t.dev := by
  refine State.access_sound (fun d => ?_) h
  repeat first | with_reducible exact Dev.Sound.refl _ | with_reducible refine (Dev.busWrite_sound ..).after ?_

theorem execAuxUrgentRequest_sound (req : Requester) (data : Word) {s t : State} (h : execAuxUrgentRequest req data s = .next t) :
    Dev.Sound s.dev t.dev := by
  refine State.access_sound (fun d => ?_) h
  repeat first | with_reducible exact Dev.Sound.refl _ | with_reducible refine (Dev.writeReg_sound ..).after ?_

theorem execFltCoefCommit_sound (req : Requester) (data : Word) {s t : State} (h : execFltCoefCommit req data s = .next t) :
    Dev.Sound s.dev t.dev := by
  refine State.access_sound (fun d => ?_) h
  repeat first | with_reducible exact Dev.Sound.refl _ | with_reducible refine (Dev.writeReg_sound ..).after ?_

theorem execFltSwapRequest_sound (req : Requester) (c : Fin 16) (data : Word) {s t : State} (h : execFltSwapRequest req c data s = .next t) :
    Dev.Sound s.dev t.dev := by
  refine State.access_sound (fun d => ?_) h
  repeat first | with_reducible exact Dev.Sound.refl _ | with_reducible refine (Dev.writeReg_sound ..).after ?_

theorem execFltResetCommand_sound (req : Requester) (data : Word) {s t : State} (h : execFltResetCommand req data s = .next t) :
    Dev.Sound s.dev t.dev := by
  refine State.access_sound (fun d => ?_) h
  repeat first | with_reducible exact Dev.Sound.refl _ | with_reducible refine (Dev.writeReg_sound ..).after ?_

theorem execSviSubscriptionCommit_sound (req : Requester) (i : Fin 128) (data : Word) {s t : State} (h : execSviSubscriptionCommit req i data s = .next t) :
    Dev.Sound s.dev t.dev := by
  refine State.access_sound (fun d => ?_) h
  repeat first | with_reducible exact Dev.Sound.refl _ | with_reducible refine (Dev.writeReg_sound ..).after ?_

theorem execSvidOctetWrite_sound (req : Requester) (data : Word) {s t : State} (h : execSvidOctetWrite req data s = .next t) :
    Dev.Sound s.dev t.dev := by
  refine State.access_sound (fun d => ?_) h
  repeat first | with_reducible exact Dev.Sound.refl _ | with_reducible refine (Dev.writeReg_sound ..).after ?_

theorem execPointLatch_sound (req : Requester) (data : Dword) {s t : State} (h : execPointLatch req data s = .next t) :
    Dev.Sound s.dev t.dev := by
  refine State.access_sound (fun d => ?_) h
  repeat first | with_reducible exact Dev.Sound.refl _ | with_reducible refine (Dev.busWrite_sound ..).after ?_

theorem execFarArrivalSubmit_sound (req : Requester) (data : Word) {s t : State} (h : execFarArrivalSubmit req data s = .next t) :
    Dev.Sound s.dev t.dev := by
  refine State.access_sound (fun d => ?_) h
  repeat first | with_reducible exact Dev.Sound.refl _ | with_reducible refine (Dev.writeReg_sound ..).after ?_

theorem execTwuGroupCommit_sound (req : Requester) (g : Fin 4) (data : Word) {s t : State} (h : execTwuGroupCommit req g data s = .next t) :
    Dev.Sound s.dev t.dev := by
  refine State.access_sound (fun d => ?_) h
  repeat first | with_reducible exact Dev.Sound.refl _ | with_reducible refine (Dev.writeReg_sound ..).after ?_

theorem execInterrogationRequest_sound (req : Requester) (data : Word) {s t : State} (h : execInterrogationRequest req data s = .next t) :
    Dev.Sound s.dev t.dev := by
  refine State.access_sound (fun d => ?_) h
  repeat first | with_reducible exact Dev.Sound.refl _ | with_reducible refine (Dev.writeReg_sound ..).after ?_

theorem execFioClearCommit_sound (req : Requester) (data : Word) {s t : State} (h : execFioClearCommit req data s = .next t) :
    Dev.Sound s.dev t.dev := by
  refine State.access_sound (fun d => ?_) h
  repeat first | with_reducible exact Dev.Sound.refl _ | with_reducible refine (Dev.writeReg_sound ..).after ?_

theorem execSequencerRun_sound (req : Requester) (q : Fin 8) (data : Word) {s t : State} (h : execSequencerRun req q data s = .next t) :
    Dev.Sound s.dev t.dev := by
  refine State.access_sound (fun d => ?_) h
  repeat first | with_reducible exact Dev.Sound.refl _ | with_reducible refine (Dev.writeReg_sound ..).after ?_

theorem execSequencerRestart_sound (req : Requester) (q : Fin 8) (data : Word) {s t : State} (h : execSequencerRestart req q data s = .next t) :
    Dev.Sound s.dev t.dev := by
  refine State.access_sound (fun d => ?_) h
  repeat first | with_reducible exact Dev.Sound.refl _ | with_reducible refine (Dev.writeReg_sound ..).after ?_

theorem execAsyRidxWrite_sound (req : Requester) (a : Fin 8) (data : Word) {s t : State} (h : execAsyRidxWrite req a data s = .next t) :
    Dev.Sound s.dev t.dev := by
  refine State.access_sound (fun d => ?_) h
  repeat first | with_reducible exact Dev.Sound.refl _ | with_reducible refine (Dev.writeReg_sound ..).after ?_

theorem execAreaRestart_sound (req : Requester) (a : Fin 8) (data : Word) {s t : State} (h : execAreaRestart req a data s = .next t) :
    Dev.Sound s.dev t.dev := by
  refine State.access_sound (fun d => ?_) h
  repeat first | with_reducible exact Dev.Sound.refl _ | with_reducible refine (Dev.writeReg_sound ..).after ?_

theorem execAreaCommit_sound (req : Requester) (a : Fin 8) (data : Word) {s t : State} (h : execAreaCommit req a data s = .next t) :
    Dev.Sound s.dev t.dev := by
  refine State.access_sound (fun d => ?_) h
  repeat first | with_reducible exact Dev.Sound.refl _ | with_reducible refine (Dev.writeReg_sound ..).after ?_

theorem execSeqItemCommit_sound (req : Requester) (data : Word) {s t : State} (h : execSeqItemCommit req data s = .next t) :
    Dev.Sound s.dev t.dev := by
  refine State.access_sound (fun d => ?_) h
  repeat first | with_reducible exact Dev.Sound.refl _ | with_reducible refine (Dev.writeReg_sound ..).after ?_

theorem execMaskTestCommit_sound (req : Requester) (m : Fin 8) (data : Word) {s t : State} (h : execMaskTestCommit req m data s = .next t) :
    Dev.Sound s.dev t.dev := by
  refine State.access_sound (fun d => ?_) h
  repeat first | with_reducible exact Dev.Sound.refl _ | with_reducible refine (Dev.writeReg_sound ..).after ?_

theorem execEnvelopeLimitCommit_sound (req : Requester) (data : Word) {s t : State} (h : execEnvelopeLimitCommit req data s = .next t) :
    Dev.Sound s.dev t.dev := by
  refine State.access_sound (fun d => ?_) h
  repeat first | with_reducible exact Dev.Sound.refl _ | with_reducible refine (Dev.writeReg_sound ..).after ?_

theorem execTrendChannelCommit_sound (req : Requester) (n : Fin 32) (data : Word) {s t : State} (h : execTrendChannelCommit req n data s = .next t) :
    Dev.Sound s.dev t.dev := by
  refine State.access_sound (fun d => ?_) h
  repeat first | with_reducible exact Dev.Sound.refl _ | with_reducible refine (Dev.writeReg_sound ..).after ?_

theorem execChannelFreeze_sound (req : Requester) (c : Fin 8) (data : Word) {s t : State} (h : execChannelFreeze req c data s = .next t) :
    Dev.Sound s.dev t.dev := by
  refine State.access_sound (fun d => ?_) h
  repeat first | with_reducible exact Dev.Sound.refl _ | with_reducible refine (Dev.writeReg_sound ..).after ?_

theorem execChannelUnfreeze_sound (req : Requester) (c : Fin 8) (data : Word) {s t : State} (h : execChannelUnfreeze req c data s = .next t) :
    Dev.Sound s.dev t.dev := by
  refine State.access_sound (fun d => ?_) h
  repeat first | with_reducible exact Dev.Sound.refl _ | with_reducible refine (Dev.writeReg_sound ..).after ?_

theorem execStrig_sound (req : Requester) (c : Fin 8) (data : Word) {s t : State} (h : execStrig req c data s = .next t) :
    Dev.Sound s.dev t.dev := by
  refine State.access_sound (fun d => ?_) h
  repeat first | with_reducible exact Dev.Sound.refl _ | with_reducible refine (Dev.writeReg_sound ..).after ?_

theorem execTallyChannelCommit_sound (req : Requester) (c : Fin 8) (data : Word) {s t : State} (h : execTallyChannelCommit req c data s = .next t) :
    Dev.Sound s.dev t.dev := by
  refine State.access_sound (fun d => ?_) h
  repeat first | with_reducible exact Dev.Sound.refl _ | with_reducible refine (Dev.writeReg_sound ..).after ?_

theorem execSnapshotListCommit_sound (req : Requester) (c : Fin 8) (i : Fin 16) (data : Word) {s t : State} (h : execSnapshotListCommit req c i data s = .next t) :
    Dev.Sound s.dev t.dev := by
  refine State.access_sound (fun d => ?_) h
  repeat first | with_reducible exact Dev.Sound.refl _ | with_reducible refine (Dev.writeReg_sound ..).after ?_

theorem execLaunchDoorbell_sound (req : Requester) (i : Fin 256) (data : Word) (descs : List LqDesc) {s t : State} (h : execLaunchDoorbell req i data descs s = .next t) :
    Dev.Sound s.dev t.dev := by
  refine State.access_sound (fun d => ?_) h
  repeat first | with_reducible exact Dev.Sound.refl _ | with_reducible refine (Dev.writeReg_sound ..).after ?_

theorem execLaunchQueueCommit_sound (req : Requester) (data : Word) {s t : State} (h : execLaunchQueueCommit req data s = .next t) :
    Dev.Sound s.dev t.dev := by
  refine State.access_sound (fun d => ?_) h
  repeat first | with_reducible exact Dev.Sound.refl _ | with_reducible refine (Dev.writeReg_sound ..).after ?_

theorem execMoverCommit_sound (req : Requester) (m : Fin 8) (data : Word) {s t : State} (h : execMoverCommit req m data s = .next t) :
    Dev.Sound s.dev t.dev := by
  refine State.access_sound (fun d => ?_) h
  repeat first | with_reducible exact Dev.Sound.refl _ | with_reducible refine (Dev.writeReg_sound ..).after ?_

theorem execMoverDoorbell_sound (req : Requester) (m : Fin 8) (data : Word) {s t : State} (h : execMoverDoorbell req m data s = .next t) :
    Dev.Sound s.dev t.dev := by
  refine State.access_sound (fun d => ?_) h
  repeat first | with_reducible exact Dev.Sound.refl _ | with_reducible refine (Dev.writeReg_sound ..).after ?_

theorem execBlockQueueDoorbell_sound (req : Requester) (m : Fin 8) (data : Word) (blocks : List Block) {s t : State} (h : execBlockQueueDoorbell req m data blocks s = .next t) :
    Dev.Sound s.dev t.dev := by
  refine State.access_sound (fun d => ?_) h
  repeat first | with_reducible exact Dev.Sound.refl _ | with_reducible refine (Dev.writeReg_sound ..).after ?_

theorem execSubmission_sound (req : Requester) (data : Word) {s t : State} (h : execSubmission req data s = .next t) :
    Dev.Sound s.dev t.dev := by
  refine State.access_sound (fun d => ?_) h
  repeat first | with_reducible exact Dev.Sound.refl _ | with_reducible refine (Dev.writeReg_sound ..).after ?_

theorem execLumpSend_keeps (skip : Fin 32) (src : BitVec 12) (pclass : Bool) (index : Option Nat) (len : Fin 9) (body : LumpBody) {s t : State} (h : execLumpSend skip src pclass index len body s = .next t) :
    Dev.Keeps s.dev t.dev := by
  refine State.up_keeps (fun d => ?_) h
  repeat first
    | with_reducible exact Dev.Keeps.refl _ | with_reducible refine Dev.Keeps.ite ?_ ?_
    | with_reducible refine (Dev.requestRecord_keeps ..).after ?_ | with_reducible refine (Dev.sendLump_keeps ..).after ?_
    | extract_lets | split

theorem execBulkStallRetry_keeps (skip : Fin 32) (src : BitVec 12) {s t : State} (h : execBulkStallRetry skip src s = .next t) :
    Dev.Keeps s.dev t.dev := by
  refine State.up_keeps (fun d => ?_) h
  repeat first | with_reducible exact Dev.Keeps.refl _ | with_reducible refine (Dev.retryLump_keeps ..).after ?_

theorem execCreditReturn_keeps (skip : Fin 32) {s t : State} (h : execCreditReturn skip s = .next t) :
    Dev.Keeps s.dev t.dev := by
  refine State.up_keeps (fun d => ?_) h
  repeat first | with_reducible exact Dev.Keeps.refl _ | with_reducible refine (Dev.creditReturn_keeps ..).after ?_

theorem execRecordArrival_sound {s t : State} (h : execRecordArrival s = .next t) :
    Dev.Sound s.dev t.dev := by
  refine State.up_sound (fun d => ?_) h
  repeat first | with_reducible exact Dev.Sound.refl _ | with_reducible refine (Dev.recordArrival_sound ..).after ?_

theorem Dev.fltTake_keeps (d : Dev) (c : Nat) (codes : List (BitVec 16)) :
    Dev.Keeps d (Dev.fltTake d c codes) := by
  unfold Dev.fltTake
  extract_lets a0 a1
  have h1 : Dev.Keeps d a1 := by
    unfold a1
    repeat first | with_reducible exact Dev.Keeps.refl _ | with_reducible refine (Dev.fltSamples_keeps ..).after ?_
  clear_value a1
  repeat first
    | with_reducible assumption | with_reducible refine Dev.Keeps.ite ?_ ?_
    | with_reducible refine (Dev.canaryOutput_keeps ..).after ?_

theorem Dev.consume_sound (d : Dev) (n : Nat) (l : Lump) :
    Dev.Sound d (Dev.consume d n l) := by
  unfold Dev.consume
  repeat first
    | with_reducible exact Dev.Sound.refl _ | with_reducible refine Dev.Sound.ite ?_ ?_
    | with_reducible refine (Dev.fltHeader_keeps ..).sound.after ?_
    | with_reducible refine (Dev.twuHeader_keeps ..).sound.after ?_ | with_reducible refine (Dev.rawRing_keeps ..).sound.after ?_
    | with_reducible refine (Dev.fltTake_keeps ..).sound.after ?_
    | with_reducible refine (Dev.twuSamples_keeps (hs := Dev.asyTwu_keeps) ..).sound.after ?_
    | with_reducible refine (Dev.fioImage_keeps ..).sound.after ?_ | with_reducible refine (Dev.asyPoints_keeps ..).sound.after ?_
    | with_reducible refine (Dev.mvRefreshAll_keeps ..).sound.after ?_
    | with_reducible refine (Dev.storeTake_sound ..).after ?_ | with_reducible refine (Dev.hostTake_keeps ..).sound.after ?_
    | with_reducible refine (Dev.svTakePart_keeps ..).sound.after ?_
    | with_reducible refine (Dev.seamLump_keeps ..).sound.after ?_ | split

theorem execLumpReceive_sound (skip : Fin 32) {s t : State} (h : execLumpReceive skip s = .next t) :
    Dev.Sound s.dev t.dev := by
  refine State.up_sound (fun d => ?_) h
  repeat first
    | with_reducible exact Dev.Sound.refl _ | with_reducible refine Dev.Sound.ite ?_ ?_
    | with_reducible refine (Dev.recordArrival_sound ..).after ?_
    | with_reducible refine (Dev.takeLump_keeps_eq (h := by assumption) ..).sound.after ?_
    | with_reducible refine (Dev.consume_sound ..).after ?_ | extract_lets | split

end Sys2Proof.Machine
end

