-- ==== Sys2Proof/Laws/PerInstr.lean ====
section
/-!
SUPPORT. Facts about commands as syntax, one lemma for each constructor.
-/
namespace Sys2Proof.Laws.Shape

/-- A command that acts in OFF has no operands that could be ill-formed: neither the supply nor a field side can make the block stop. -/
def Statement (i : Instr) : Prop := i.actsInOff = true → i.wf = true

theorem registerWrite (req : Requester) (acc : Access) (data : Dword) (ring : Ring) : Statement (.registerWrite req acc data ring) := fun h => nomatch h
theorem dataSetWrite (req : Requester) (acc : Access) (data : Dword) (ring : Ring) : Statement (.dataSetWrite req acc data ring) := fun h => nomatch h
theorem dataClrWrite (req : Requester) (acc : Access) (data : Dword) (ring : Ring) : Statement (.dataClrWrite req acc data ring) := fun h => nomatch h
theorem dataTglWrite (req : Requester) (acc : Access) (data : Dword) (ring : Ring) : Statement (.dataTglWrite req acc data ring) := fun h => nomatch h
theorem statusReadClear (req : Requester) (acc : Access) : Statement (.statusReadClear req acc) := fun h => nomatch h
theorem pairLoRead (req : Requester) (acc : Access) : Statement (.pairLoRead req acc) := fun h => nomatch h
theorem pairHiRead (req : Requester) (acc : Access) : Statement (.pairHiRead req acc) := fun h => nomatch h
theorem pairLoWrite (req : Requester) (addr : BitVec 22) (data : Word) : Statement (.pairLoWrite req addr data) := fun h => nomatch h
theorem pairHiWrite (req : Requester) (addr : BitVec 22) (data : Word) : Statement (.pairHiWrite req addr data) := fun h => nomatch h
theorem pair64Write (req : Requester) (addr : BitVec 22) (data : Dword) : Statement (.pair64Write req addr data) := fun h => nomatch h
theorem lumpSend (skip : Fin 32) (src : BitVec 12) (pclass : Bool) (index : Option Nat) (len : Fin 9) (body : LumpBody) : Statement (.lumpSend skip src pclass index len body) := fun h => nomatch h
theorem bulkStallRetry (skip : Fin 32) (src : BitVec 12) : Statement (.bulkStallRetry skip src) := fun h => nomatch h
theorem lumpReceive (skip : Fin 32) : Statement (.lumpReceive skip) := fun h => nomatch h
theorem creditReturn (skip : Fin 32) : Statement (.creditReturn skip) := fun h => nomatch h
theorem tcxoGate (diff : BitVec 16) : Statement (.tcxoGate diff) := fun h => nomatch h
theorem tcxoALost : Statement (.tcxoALost) := fun h => nomatch h
theorem tcxoBLost : Statement (.tcxoBLost) := fun h => nomatch h
theorem clkSnapshot (req : Requester) (data : Word) : Statement (.clkSnapshot req data) := fun h => nomatch h
theorem angleConversion (req : Requester) (data : Dword) : Statement (.angleConversion req data) := fun h => nomatch h
theorem timemark : Statement (.timemark) := fun h => nomatch h
theorem angFreewheel (n : Fin 4) (c : AngCause) : Statement (.angFreewheel n c) := fun h => nomatch h
theorem angQualifyFail (n : Fin 4) : Statement (.angQualifyFail n) := fun h => nomatch h
theorem angQualified (n : Fin 4) (freq : Word) : Statement (.angQualified n freq) := fun h => nomatch h
theorem angLocked (n : Fin 4) (freq : Word) (phase : BitVec 16) : Statement (.angLocked n freq phase) := fun h => nomatch h
theorem rawBlockBoundary (c : Fin 16) (codes : List (BitVec 16)) : Statement (.rawBlockBoundary c codes) := fun h => nomatch h
theorem bgcUpdate (c : Fin 16) (ofs : List Int) (gain : List Int) (skew : List Int) : Statement (.bgcUpdate c ofs gain skew) := fun h => nomatch h
theorem selfCalibrationStart (h : Option Half) : Statement (.selfCalibrationStart h) := fun h => nomatch h
theorem selfCalibrationEnd (h : Option Half) (fail : BitVec 16) : Statement (.selfCalibrationEnd h fail) := fun h => nomatch h
theorem refinQualified (ratio : BitVec 16) : Statement (.refinQualified ratio) := fun h => nomatch h
theorem refinQualifyTimeout : Statement (.refinQualifyTimeout) := fun h => nomatch h
theorem refinRetry : Statement (.refinRetry) := fun h => nomatch h
theorem refinOutOfRange : Statement (.refinOutOfRange) := fun h => nomatch h
theorem auxStart : Statement (.auxStart) := fun h => nomatch h
theorem auxSlotDone (conv : List (BitVec 16)) : Statement (.auxSlotDone conv) := fun h => nomatch h
theorem auxGapEnd : Statement (.auxGapEnd) := fun h => nomatch h
theorem auxRefSettled : Statement (.auxRefSettled) := fun h => nomatch h
theorem auxRefTimeout : Statement (.auxRefTimeout) := fun h => nomatch h
theorem auxUrgentRequest (req : Requester) (data : Word) : Statement (.auxUrgentRequest req data) := fun h => nomatch h
theorem auxUrgentDone (conv : List (BitVec 16)) : Statement (.auxUrgentDone conv) := fun h => nomatch h
theorem decimatedSample (c : Fin 16) : Statement (.decimatedSample c) := fun h => nomatch h
theorem angleTapSample (c : Fin 16) : Statement (.angleTapSample c) := fun h => nomatch h
theorem fixedRateInstant : Statement (.fixedRateInstant) := fun h => nomatch h
theorem fltLumpSend (h : Half) (clock : Option (Fin 4)) : Statement (.fltLumpSend h clock) := fun h => nomatch h
theorem fltCoefCommit (req : Requester) (data : Word) : Statement (.fltCoefCommit req data) := fun h => nomatch h
theorem fltSwapRequest (req : Requester) (c : Fin 16) (data : Word) : Statement (.fltSwapRequest req c data) := fun h => nomatch h
theorem fadeEnd (c : Fin 16) : Statement (.fadeEnd c) := fun h => nomatch h
theorem fltResetCommand (req : Requester) (data : Word) : Statement (.fltResetCommand req data) := fun h => nomatch h
theorem synchronisingReset (c : Fin 16) : Statement (.synchronisingReset c) := fun h => nomatch h
theorem fastSettleEnd (c : Fin 16) : Statement (.fastSettleEnd c) := fun h => nomatch h
theorem svFrameReceive (portB : Bool) : Statement (.svFrameReceive portB) := fun h => nomatch h
theorem svSampleMissing (i : Fin 128) : Statement (.svSampleMissing i) := fun h => nomatch h
theorem svLumpSend (i : Fin 128) : Statement (.svLumpSend i) := fun h => nomatch h
theorem sviSubscriptionCommit (req : Requester) (i : Fin 128) (data : Word) : Statement (.sviSubscriptionCommit req i data) := fun h => nomatch h
theorem svidOctetWrite (req : Requester) (data : Word) : Statement (.svidOctetWrite req data) := fun h => nomatch h
theorem faceStep (g : Fin 256) (cycles : Word) (req : List (Fin 64 × Bool × Fin 4 × BitVec 48)) : Statement (.faceStep g cycles req) := fun h => nomatch h
theorem faceStepDeadline (g : Fin 256) (cycles : Word) (req : List (Fin 64 × Bool × Fin 4 × BitVec 48)) : Statement (.faceStepDeadline g cycles req) := fun h => nomatch h
theorem faceHalt (g : Fin 256) : Statement (.faceHalt g) := fun h => nomatch h
theorem duplexRestart (g : Fin 256) : Statement (.duplexRestart g) := fun h => nomatch h
theorem groupSwitchRequest (g : Fin 8) (selector : Bool) : Statement (.groupSwitchRequest g selector) := fun h => nomatch h
theorem groupSwitchComplete : Statement (.groupSwitchComplete) := fun h => nomatch h
theorem pointLatch (req : Requester) (data : Dword) : Statement (.pointLatch req data) := fun h => nomatch h
theorem cellDelayExpiry (g : Fin 256) (cycles : Word) (req : List (Fin 64 × Bool × Fin 4 × BitVec 48)) : Statement (.cellDelayExpiry g cycles req) := fun h => nomatch h
theorem energyBooking (node : BitVec 20) : Statement (.energyBooking node) := fun h => nomatch h
theorem balanceIntervalClose (node : BitVec 20) : Statement (.balanceIntervalClose node) := fun h => nomatch h
theorem balanceReportDelivery : Statement (.balanceReportDelivery) := fun h => nomatch h
theorem balanceJudge (node : BitVec 20) : Statement (.balanceJudge node) := fun h => nomatch h
theorem twEventClose (g : Fin 4) : Statement (.twEventClose g) := fun h => nomatch h
theorem farArrivalSubmit (req : Requester) (data : Word) : Statement (.farArrivalSubmit req data) := fun h => nomatch h
theorem farArrivalExpire (g : Fin 4) : Statement (.farArrivalExpire g) := fun h => nomatch h
theorem twuGroupCommit (req : Requester) (g : Fin 4) (data : Word) : Statement (.twuGroupCommit req g data) := fun h => nomatch h
theorem downlinkFrame (n : Fin 4) : Statement (.downlinkFrame n) := fun h => nomatch h
theorem downlinkReceive (n : Fin 4) (err : BitVec 80) : Statement (.downlinkReceive n err) := fun h => nomatch h
theorem cmdCfg (n : Fin 4) : Statement (.cmdCfg n) := fun h => nomatch h
theorem cmdInterrogate (n : Fin 4) : Statement (.cmdInterrogate n) := fun h => nomatch h
theorem cmdClear (n : Fin 4) : Statement (.cmdClear n) := fun h => nomatch h
theorem timedTransition (n : Fin 4) : Statement (.timedTransition n) := fun _ => rfl
theorem uplinkReceive (n : Fin 4) (err : BitVec 80) : Statement (.uplinkReceive n err) := fun h => nomatch h
theorem fieldSideHold (n : Fin 4) : Statement (.fieldSideHold n) := fun _ => rfl
theorem bankSilent (n : Fin 4) : Statement (.bankSilent n) := fun h => nomatch h
theorem inputFilterChange (n : Fin 4) (p : Fin 16) : Statement (.inputFilterChange n p) := fun h => nomatch h
theorem currentLimitLatch (n : Fin 4) (p : Fin 16) : Statement (.currentLimitLatch n p) := fun _ => rfl
theorem limitEnergyReset (n : Fin 4) (p : Fin 16) : Statement (.limitEnergyReset n p) := fun _ => rfl
theorem outputRetry (n : Fin 4) (p : Fin 16) : Statement (.outputRetry n p) := fun _ => rfl
theorem eventCountReset (n : Fin 4) (p : Fin 16) : Statement (.eventCountReset n p) := fun _ => rfl
theorem readbackMismatch (n : Fin 4) (p : Fin 16) : Statement (.readbackMismatch n p) := fun _ => rfl
theorem interrogationRequest (req : Requester) (data : Word) : Statement (.interrogationRequest req data) := fun h => nomatch h
theorem interrogationSweepDone (n : Fin 4) (vfld : Byte) : Statement (.interrogationSweepDone n vfld) := fun _ => rfl
theorem fieldSupplyWarning (n : Fin 4) (below : Bool) : Statement (.fieldSupplyWarning n below) := fun _ => rfl
theorem fieldInputFail (n : Fin 4) (below : Bool) : Statement (.fieldInputFail n below) := fun _ => rfl
theorem fieldUvOff (n : Fin 4) : Statement (.fieldUvOff n) := fun _ => rfl
theorem uvOffRelease (n : Fin 4) : Statement (.uvOffRelease n) := fun _ => rfl
theorem fieldSideReset (n : Fin 4) : Statement (.fieldSideReset n) := fun _ => rfl
theorem fieldSideResetRelease (n : Fin 4) : Statement (.fieldSideResetRelease n) := fun _ => rfl
theorem fieldOvertemp (n : Fin 4) (on : Bool) : Statement (.fieldOvertemp n on) := fun _ => rfl
theorem barrierStart : Statement (.barrierStart) := fun h => nomatch h
theorem canaryOperate (e : Fin 16) : Statement (.canaryOperate e) := fun h => nomatch h
theorem canaryHoldExpire (e : Fin 16) : Statement (.canaryHoldExpire e) := fun h => nomatch h
theorem powTransitionFix (c : Fin 64) : Statement (.powTransitionFix c) := fun h => nomatch h
theorem fioClearCommit (req : Requester) (data : Word) : Statement (.fioClearCommit req data) := fun h => nomatch h
theorem rawCrossingPresent (h : Half) (n : BitVec 48) : Statement (.rawCrossingPresent h n) := fun h => nomatch h
theorem sequencerTimerExpiry (q : Fin 8) (i : Fin 2) : Statement (.sequencerTimerExpiry q i) := fun h => nomatch h
theorem sequencerRun (req : Requester) (q : Fin 8) (data : Word) : Statement (.sequencerRun req q data) := fun h => nomatch h
theorem sequencerRestart (req : Requester) (q : Fin 8) (data : Word) : Statement (.sequencerRestart req q data) := fun h => nomatch h
theorem segmentCaptureEnd (a : Fin 8) (full : Bool) : Statement (.segmentCaptureEnd a full) := fun h => nomatch h
theorem asyRidxWrite (req : Requester) (a : Fin 8) (data : Word) : Statement (.asyRidxWrite req a data) := fun h => nomatch h
theorem areaRestart (req : Requester) (a : Fin 8) (data : Word) : Statement (.areaRestart req a data) := fun h => nomatch h
theorem areaCommit (req : Requester) (a : Fin 8) (data : Word) : Statement (.areaCommit req a data) := fun h => nomatch h
theorem seqItemCommit (req : Requester) (data : Word) : Statement (.seqItemCommit req data) := fun h => nomatch h
theorem maskTestCommit (req : Requester) (m : Fin 8) (data : Word) : Statement (.maskTestCommit req m data) := fun h => nomatch h
theorem envelopeLimitCommit (req : Requester) (data : Word) : Statement (.envelopeLimitCommit req data) := fun h => nomatch h
theorem trendIntervalEnd (full : Bool) : Statement (.trendIntervalEnd full) := fun h => nomatch h
theorem trendChannelCommit (req : Requester) (n : Fin 32) (data : Word) : Statement (.trendChannelCommit req n data) := fun h => nomatch h
theorem headPps : Statement (.headPps) := fun h => nomatch h
theorem ppsEdgeReceive (drift : BitVec 32) : Statement (.ppsEdgeReceive drift) := fun h => nomatch h
theorem probeSend : Statement (.probeSend) := fun h => nomatch h
theorem probeReceive (f : BitVec 80) : Statement (.probeReceive f) := fun h => nomatch h
theorem echoReceive (f : BitVec 80) (rt : BitVec 32) : Statement (.echoReceive f rt) := fun h => nomatch h
theorem adminReceive (f : BitVec 80) : Statement (.adminReceive f) := fun h => nomatch h
theorem linkDown : Statement (.linkDown) := fun h => nomatch h
theorem triggerFrameReceive (portD : Bool) (f : BitVec 80) : Statement (.triggerFrameReceive portD f) := fun h => nomatch h
theorem recordArrival : Statement (.recordArrival) := fun h => nomatch h
theorem recordRelease : Statement (.recordRelease) := fun h => nomatch h
theorem channelFreeze (req : Requester) (c : Fin 8) (data : Word) : Statement (.channelFreeze req c data) := fun h => nomatch h
theorem channelUnfreeze (req : Requester) (c : Fin 8) (data : Word) : Statement (.channelUnfreeze req c data) := fun h => nomatch h
theorem strig (req : Requester) (c : Fin 8) (data : Word) : Statement (.strig req c data) := fun h => nomatch h
theorem nearStoreFail (scrub : Bool) (addr : BitVec 64) : Statement (.nearStoreFail scrub addr) := fun h => nomatch h
theorem farStoreFail (timeout : Bool) (addr : BitVec 64) : Statement (.farStoreFail timeout addr) := fun h => nomatch h
theorem nearStoreOpen : Statement (.nearStoreOpen) := fun h => nomatch h
theorem farStoreReady : Statement (.farStoreReady) := fun h => nomatch h
theorem farPageProgram (c : Fin 8) : Statement (.farPageProgram c) := fun h => nomatch h
theorem opsecStore : Statement (.opsecStore) := fun h => nomatch h
theorem tallyChannelCommit (req : Requester) (c : Fin 8) (data : Word) : Statement (.tallyChannelCommit req c data) := fun h => nomatch h
theorem snapshotListCommit (req : Requester) (c : Fin 8) (i : Fin 16) (data : Word) : Statement (.snapshotListCommit req c i data) := fun h => nomatch h
theorem frameReceive (p : Fin 4) (f : NetFrame) : Statement (.frameReceive p f) := fun h => nomatch h
theorem portLinkLoss (p : Fin 4) : Statement (.portLinkLoss p) := fun h => nomatch h
theorem portLinkUp (p : Fin 4) : Statement (.portLinkUp p) := fun h => nomatch h
theorem ptpSyncReceive (p : Fin 4) (domain : Byte) (seq : BitVec 16) (mac : BitVec 68) (corr : BitVec 64) (origin : Option (BitVec 64)) : Statement (.ptpSyncReceive p domain seq mac corr origin) := fun h => nomatch h
theorem ptpFollowUpReceive (p : Fin 4) (domain : Byte) (seq : BitVec 16) (origin : BitVec 64) (corr : BitVec 64) : Statement (.ptpFollowUpReceive p domain seq origin corr) := fun h => nomatch h
theorem announceReceive (p : Fin 4) (a : Announce) : Statement (.announceReceive p a) := fun h => nomatch h
theorem announceTimeout (p : Fin 4) : Statement (.announceTimeout p) := fun h => nomatch h
theorem syncTimeout : Statement (.syncTimeout) := fun h => nomatch h
theorem pdelayReqReceive (p : Fin 4) (domain : Byte) (seq : BitVec 16) (rx : BitVec 68) (tx : BitVec 68) : Statement (.pdelayReqReceive p domain seq rx tx) := fun h => nomatch h
theorem launchDoorbell (req : Requester) (i : Fin 256) (data : Word) (descs : List LqDesc) : Statement (.launchDoorbell req i data descs) := fun h => nomatch h
theorem frameLaunch (p : Fin 4) : Statement (.frameLaunch p) := fun h => nomatch h
theorem frameTransmitDone (p : Fin 4) (stamp : BitVec 68) : Statement (.frameTransmitDone p stamp) := fun h => nomatch h
theorem hostFrameReadDone (p : Fin 4) (q : Fin 64) (desc : Option LqDesc) : Statement (.hostFrameReadDone p q desc) := fun h => nomatch h
theorem hostReadFault (p : Fin 4) (q : Fin 64) (frame : Bool) : Statement (.hostReadFault p q frame) := fun h => nomatch h
theorem hostFrameLate (p : Fin 4) (q : Fin 64) : Statement (.hostFrameLate p q) := fun h => nomatch h
theorem launchQueueCommit (req : Requester) (data : Word) : Statement (.launchQueueCommit req data) := fun h => nomatch h
theorem endpointReset (k : EpReset) : Statement (.endpointReset k) := fun h => nomatch h
theorem pcieLinkTrained (speed : Fin 3) (x2 : Bool) : Statement (.pcieLinkTrained speed x2) := fun h => nomatch h
theorem bar2Read (offset : BitVec 26) (len : Fin 513) : Statement (.bar2Read offset len) := fun h => nomatch h
theorem bar2Write : Statement (.bar2Write) := fun h => nomatch h
theorem msixMessage (v : Fin 64) : Statement (.msixMessage v) := fun h => nomatch h
theorem moverCommit (req : Requester) (m : Fin 8) (data : Word) : Statement (.moverCommit req m data) := fun h => nomatch h
theorem moverDoorbell (req : Requester) (m : Fin 8) (data : Word) : Statement (.moverDoorbell req m data) := fun h => nomatch h
theorem descriptorReadDone (m : Fin 8) (x : MvDesc) : Statement (.descriptorReadDone m x) := fun h => nomatch h
theorem moverError (m : Fin 8) : Statement (.moverError m) := fun h => nomatch h
theorem bufferComplete (m : Fin 8) : Statement (.bufferComplete m) := fun h => nomatch h
theorem bufferTimeout (m : Fin 8) (items : BitVec 19) : Statement (.bufferTimeout m items) := fun h => nomatch h
theorem blockQueueDoorbell (req : Requester) (m : Fin 8) (data : Word) (blocks : List Block) : Statement (.blockQueueDoorbell req m data blocks) := fun h => nomatch h
theorem submission (req : Requester) (data : Word) : Statement (.submission req data) := fun h => nomatch h
theorem validationComplete : Statement (.validationComplete) := fun h => nomatch h
theorem settingsCommit : Statement (.settingsCommit) := fun h => nomatch h
theorem restep : Statement (.restep) := fun h => nomatch h
theorem calSet : Statement (.calSet) := fun h => nomatch h
theorem testout : Statement (.testout) := fun h => nomatch h
theorem tlockClear : Statement (.tlockClear) := fun h => nomatch h
theorem loglossClear : Statement (.loglossClear) := fun h => nomatch h
theorem keyEnrol : Statement (.keyEnrol) := fun h => nomatch h
theorem keyRevoke : Statement (.keyRevoke) := fun h => nomatch h
theorem rollbackRaise : Statement (.rollbackRaise) := fun h => nomatch h
theorem imagePref : Statement (.imagePref) := fun h => nomatch h
theorem reqCommission : Statement (.reqCommission) := fun h => nomatch h
theorem reqProtect : Statement (.reqProtect) := fun h => nomatch h
theorem reqResume : Statement (.reqResume) := fun h => nomatch h
theorem reqSafe : Statement (.reqSafe) := fun h => nomatch h
theorem reqRestart : Statement (.reqRestart) := fun h => nomatch h
theorem startmode : Statement (.startmode) := fun h => nomatch h
theorem sageCompare (errC : Word) (errN : Word) (errS : Word) : Statement (.sageCompare errC errN errS) := fun h => nomatch h
theorem tamperOpening (elapsed : BitVec 48) : Statement (.tamperOpening elapsed) := fun _ => rfl
theorem supplyValid (elapsed : BitVec 48) : Statement (.supplyValid elapsed) := fun _ => rfl
theorem headframeRomStart (straps : BitVec 3) : Statement (.headframeRomStart straps) := fun h => nomatch h
theorem bootDone : Statement (.bootDone) := fun h => nomatch h
theorem imageAuthenticated : Statement (.imageAuthenticated) := fun h => nomatch h
theorem loadDone : Statement (.loadDone) := fun h => nomatch h
theorem supplyLost (high : Bool) (low : Bool) : Statement (.supplyLost high low) := fun h => nomatch h
theorem holdEntry : Statement (.holdEntry) := fun h => nomatch h
theorem snapFail : Statement (.snapFail) := fun h => nomatch h
theorem holdDone : Statement (.holdDone) := fun h => nomatch h
theorem holdupExhausted : Statement (.holdupExhausted) := fun h => nomatch h
theorem holdupCapMeasure (cap : BitVec 16) : Statement (.holdupCapMeasure cap) := fun h => nomatch h
theorem holdupCharged : Statement (.holdupCharged) := fun h => nomatch h
theorem kaLow (low : Bool) : Statement (.kaLow low) := fun h => nomatch h
theorem thymeStop : Statement (.thymeStop) := fun _ => rfl
theorem halfLost (h : Half) : Statement (.halfLost h) := fun h => nomatch h
theorem halfRestart (h : Half) : Statement (.halfRestart h) := fun h => nomatch h
theorem halfReadmit (h : Half) : Statement (.halfReadmit h) := fun h => nomatch h
theorem scrubPassEnd (r : Fin 8) (words : List BadWord) : Statement (.scrubPassEnd r words) := fun h => nomatch h
theorem scrubLate (r : Fin 8) : Statement (.scrubLate r) := fun h => nomatch h
theorem nandRefresh (slot : Option (Fin 2)) (addr : BitVec 32) (corr : Byte) (pe : BitVec 16) (rate : BitVec 16) : Statement (.nandRefresh slot addr corr pe rate) := fun h => nomatch h
theorem headframeFault (poison : Bool) (pc : Dword) : Statement (.headframeFault poison pc) := fun h => nomatch h
theorem headframeWatchdogExpiry (pc : Dword) : Statement (.headframeWatchdogExpiry pc) := fun h => nomatch h
theorem headframeRestart : Statement (.headframeRestart) := fun h => nomatch h
theorem temp : Statement (.temp) := fun h => nomatch h
theorem registerRead (req : Requester) (acc : Access) : Statement (.registerRead req acc) := fun h => nomatch h
theorem uplinkFrame (n : Fin 4) (pins : List (Int × Int)) : Statement (.uplinkFrame n pins) := fun h => nomatch h
theorem currentLimitEntry (n : Fin 4) (p : Fin 16) : Statement (.currentLimitEntry n p) := fun _ => rfl
theorem currentLimitExit (n : Fin 4) (p : Fin 16) : Statement (.currentLimitExit n p) := fun _ => rfl
theorem sequencerTick : Statement (.sequencerTick) := fun h => nomatch h
theorem configurationWrite (msixEn : Bool) (fmask : Bool) (d3 : Bool) : Statement (.configurationWrite msixEn fmask d3) := fun h => nomatch h
theorem perstDeassertion : Statement (.perstDeassertion) := fun h => nomatch h
theorem sagePassStart : Statement (.sagePassStart) := fun h => nomatch h
theorem holdFaultEnd : Statement (.holdFaultEnd) := fun h => nomatch h
theorem ppsOutRise : Statement (.ppsOutRise) := fun h => nomatch h
theorem ppsOutFall : Statement (.ppsOutFall) := fun h => nomatch h
theorem pdelayReqSend (p : Fin 4) (tx : BitVec 68) : Statement (.pdelayReqSend p tx) := fun h => nomatch h
theorem pdelayRespReceive (p : Fin 4) (domain : Byte) (seq : BitVec 16) (rx : BitVec 68) (turnaround : BitVec 64) : Statement (.pdelayRespReceive p domain seq rx turnaround) := fun h => nomatch h

end Sys2Proof.Laws.Shape
end

