-- ==== Sys2Proof/Laws/State.lean ====
section
/-!
SUPPORT. What each update of one part of the device leaves: every other part, and of its own part what another place holds.
-/
namespace Sys2Proof.Machine

/-! ### `Dev.setF` writes `regs` alone -/

@[simp] theorem Dev.setF_holding (d : Dev) (f : Fld) (i v : Nat) : (d.setF f i v).holding = d.holding := rfl
@[simp] theorem Dev.setF_shadow (d : Dev) (f : Fld) (i v : Nat) : (d.setF f i v).shadow = d.shadow := rfl
@[simp] theorem Dev.setF_fresh (d : Dev) (f : Fld) (i v : Nat) : (d.setF f i v).fresh = d.fresh := rfl
@[simp] theorem Dev.setF_wrHold (d : Dev) (f : Fld) (i v : Nat) : (d.setF f i v).wrHold = d.wrHold := rfl
@[simp] theorem Dev.setF_wrFresh (d : Dev) (f : Fld) (i v : Nat) : (d.setF f i v).wrFresh = d.wrFresh := rfl
@[simp] theorem Dev.setF_completions (d : Dev) (f : Fld) (i v : Nat) : (d.setF f i v).completions = d.completions := rfl
@[simp] theorem Dev.setF_out (d : Dev) (f : Fld) (i v : Nat) : (d.setF f i v).out = d.out := rfl
@[simp] theorem Dev.setF_free (d : Dev) (f : Fld) (i v : Nat) : (d.setF f i v).free = d.free := rfl
@[simp] theorem Dev.setF_recOrder (d : Dev) (f : Fld) (i v : Nat) : (d.setF f i v).recOrder = d.recOrder := rfl
@[simp] theorem Dev.setF_recq (d : Dev) (f : Fld) (i v : Nat) : (d.setF f i v).recq = d.recq := rfl
@[simp] theorem Dev.setF_skips (d : Dev) (f : Fld) (i v : Nat) : (d.setF f i v).skips = d.skips := rfl
@[simp] theorem Dev.setF_vecLast (d : Dev) (f : Fld) (i v : Nat) : (d.setF f i v).vecLast = d.vecLast := rfl
@[simp] theorem Dev.setF_clk (d : Dev) (f : Fld) (i v : Nat) : (d.setF f i v).clk = d.clk := rfl
@[simp] theorem Dev.setF_ang (d : Dev) (f : Fld) (i v : Nat) : (d.setF f i v).ang = d.ang := rfl
@[simp] theorem Dev.setF_afe (d : Dev) (f : Fld) (i v : Nat) : (d.setF f i v).afe = d.afe := rfl
@[simp] theorem Dev.setF_afeCh (d : Dev) (f : Fld) (i v : Nat) : (d.setF f i v).afeCh = d.afeCh := rfl
@[simp] theorem Dev.setF_aux (d : Dev) (f : Fld) (i v : Nat) : (d.setF f i v).aux = d.aux := rfl
@[simp] theorem Dev.setF_fltCh (d : Dev) (f : Fld) (i v : Nat) : (d.setF f i v).fltCh = d.fltCh := rfl
@[simp] theorem Dev.setF_coef (d : Dev) (f : Fld) (i v : Nat) : (d.setF f i v).coef = d.coef := rfl
@[simp] theorem Dev.setF_taps (d : Dev) (f : Fld) (i v : Nat) : (d.setF f i v).taps = d.taps := rfl
@[simp] theorem Dev.setF_insts (d : Dev) (f : Fld) (i v : Nat) : (d.setF f i v).insts = d.insts := rfl
@[simp] theorem Dev.setF_svPart (d : Dev) (f : Fld) (i v : Nat) : (d.setF f i v).svPart = d.svPart := rfl
@[simp] theorem Dev.setF_svIn (d : Dev) (f : Fld) (i v : Nat) : (d.setF f i v).svIn = d.svIn := rfl
@[simp] theorem Dev.setF_fr (d : Dev) (f : Fld) (i v : Nat) : (d.setF f i v).fr = d.fr := rfl
@[simp] theorem Dev.setF_svi (d : Dev) (f : Fld) (i v : Nat) : (d.setF f i v).svi = d.svi := rfl
@[simp] theorem Dev.setF_seam (d : Dev) (f : Fld) (i v : Nat) : (d.setF f i v).seam = d.seam := rfl
@[simp] theorem Dev.setF_twu (d : Dev) (f : Fld) (i v : Nat) : (d.setF f i v).twu = d.twu := rfl
@[simp] theorem Dev.setF_fio (d : Dev) (f : Fld) (i v : Nat) : (d.setF f i v).fio = d.fio := rfl
@[simp] theorem Dev.setF_asy (d : Dev) (f : Fld) (i v : Nat) : (d.setF f i v).asy = d.asy := rfl
@[simp] theorem Dev.setF_tlk (d : Dev) (f : Fld) (i v : Nat) : (d.setF f i v).tlk = d.tlk := rfl
@[simp] theorem Dev.setF_tly (d : Dev) (f : Fld) (i v : Nat) : (d.setF f i v).tly = d.tly := rfl
@[simp] theorem Dev.setF_net (d : Dev) (f : Fld) (i v : Nat) : (d.setF f i v).net = d.net := rfl
@[simp] theorem Dev.setF_recMem (d : Dev) (f : Fld) (i v : Nat) : (d.setF f i v).recMem = d.recMem := rfl
@[simp] theorem Dev.setF_bad (d : Dev) (f : Fld) (i v : Nat) : (d.setF f i v).bad = d.bad := rfl
@[simp] theorem Dev.setF_mov (d : Dev) (f : Fld) (i v : Nat) : (d.setF f i v).mov = d.mov := rfl
@[simp] theorem Dev.setF_pcie (d : Dev) (f : Fld) (i v : Nat) : (d.setF f i v).pcie = d.pcie := rfl
@[simp] theorem Dev.setF_field (d : Dev) (f : Fld) (i v : Nat) : (d.setF f i v).field = d.field := rfl
@[simp] theorem Dev.setF_opsec0 (d : Dev) (f : Fld) (i v : Nat) : (d.setF f i v).opsec0 = d.opsec0 := rfl
@[simp] theorem Dev.setF_fareaCnt (d : Dev) (f : Fld) (i v : Nat) : (d.setF f i v).fareaCnt = d.fareaCnt := rfl
@[simp] theorem Dev.setF_hfr (d : Dev) (f : Fld) (i v : Nat) : (d.setF f i v).hfr = d.hfr := rfl
@[simp] theorem Dev.setF_sage (d : Dev) (f : Fld) (i v : Nat) : (d.setF f i v).sage = d.sage := rfl
@[simp] theorem Dev.setF_halves (d : Dev) (f : Fld) (i v : Nat) : (d.setF f i v).halves = d.halves := rfl
@[simp] theorem Dev.setF_lockQ (d : Dev) (f : Fld) (i v : Nat) : (d.setF f i v).lockQ = d.lockQ := rfl
@[simp] theorem Dev.setF_lockSup (d : Dev) (f : Fld) (i v : Nat) : (d.setF f i v).lockSup = d.lockSup := rfl
@[simp] theorem Dev.setF_pps (d : Dev) (f : Fld) (i v : Nat) : (d.setF f i v).pps = d.pps := rfl
@[simp] theorem Dev.setF_nv (d : Dev) (f : Fld) (i v : Nat) : (d.setF f i v).nv = d.nv := rfl

/-! ### `Dev.setSkip` writes `skips` alone -/

@[simp] theorem Dev.setSkip_tsc (d : Dev) (n : Nat) (x : Skip) : (d.setSkip n x).tsc = d.tsc := rfl
@[simp] theorem Dev.setSkip_mode (d : Dev) (n : Nat) (x : Skip) : (d.setSkip n x).mode = d.mode := rfl
@[simp] theorem Dev.setSkip_regs (d : Dev) (n : Nat) (x : Skip) : (d.setSkip n x).regs = d.regs := rfl
@[simp] theorem Dev.setSkip_holding (d : Dev) (n : Nat) (x : Skip) : (d.setSkip n x).holding = d.holding := rfl
@[simp] theorem Dev.setSkip_shadow (d : Dev) (n : Nat) (x : Skip) : (d.setSkip n x).shadow = d.shadow := rfl
@[simp] theorem Dev.setSkip_fresh (d : Dev) (n : Nat) (x : Skip) : (d.setSkip n x).fresh = d.fresh := rfl
@[simp] theorem Dev.setSkip_wrHold (d : Dev) (n : Nat) (x : Skip) : (d.setSkip n x).wrHold = d.wrHold := rfl
@[simp] theorem Dev.setSkip_wrFresh (d : Dev) (n : Nat) (x : Skip) : (d.setSkip n x).wrFresh = d.wrFresh := rfl
@[simp] theorem Dev.setSkip_completions (d : Dev) (n : Nat) (x : Skip) : (d.setSkip n x).completions = d.completions := rfl
@[simp] theorem Dev.setSkip_out (d : Dev) (n : Nat) (x : Skip) : (d.setSkip n x).out = d.out := rfl
@[simp] theorem Dev.setSkip_free (d : Dev) (n : Nat) (x : Skip) : (d.setSkip n x).free = d.free := rfl
@[simp] theorem Dev.setSkip_recOrder (d : Dev) (n : Nat) (x : Skip) : (d.setSkip n x).recOrder = d.recOrder := rfl
@[simp] theorem Dev.setSkip_recq (d : Dev) (n : Nat) (x : Skip) : (d.setSkip n x).recq = d.recq := rfl
@[simp] theorem Dev.setSkip_vecLast (d : Dev) (n : Nat) (x : Skip) : (d.setSkip n x).vecLast = d.vecLast := rfl
@[simp] theorem Dev.setSkip_clk (d : Dev) (n : Nat) (x : Skip) : (d.setSkip n x).clk = d.clk := rfl
@[simp] theorem Dev.setSkip_ang (d : Dev) (n : Nat) (x : Skip) : (d.setSkip n x).ang = d.ang := rfl
@[simp] theorem Dev.setSkip_afe (d : Dev) (n : Nat) (x : Skip) : (d.setSkip n x).afe = d.afe := rfl
@[simp] theorem Dev.setSkip_afeCh (d : Dev) (n : Nat) (x : Skip) : (d.setSkip n x).afeCh = d.afeCh := rfl
@[simp] theorem Dev.setSkip_aux (d : Dev) (n : Nat) (x : Skip) : (d.setSkip n x).aux = d.aux := rfl
@[simp] theorem Dev.setSkip_fltCh (d : Dev) (n : Nat) (x : Skip) : (d.setSkip n x).fltCh = d.fltCh := rfl
@[simp] theorem Dev.setSkip_coef (d : Dev) (n : Nat) (x : Skip) : (d.setSkip n x).coef = d.coef := rfl
@[simp] theorem Dev.setSkip_taps (d : Dev) (n : Nat) (x : Skip) : (d.setSkip n x).taps = d.taps := rfl
@[simp] theorem Dev.setSkip_insts (d : Dev) (n : Nat) (x : Skip) : (d.setSkip n x).insts = d.insts := rfl
@[simp] theorem Dev.setSkip_svPart (d : Dev) (n : Nat) (x : Skip) : (d.setSkip n x).svPart = d.svPart := rfl
@[simp] theorem Dev.setSkip_svIn (d : Dev) (n : Nat) (x : Skip) : (d.setSkip n x).svIn = d.svIn := rfl
@[simp] theorem Dev.setSkip_fr (d : Dev) (n : Nat) (x : Skip) : (d.setSkip n x).fr = d.fr := rfl
@[simp] theorem Dev.setSkip_svi (d : Dev) (n : Nat) (x : Skip) : (d.setSkip n x).svi = d.svi := rfl
@[simp] theorem Dev.setSkip_seam (d : Dev) (n : Nat) (x : Skip) : (d.setSkip n x).seam = d.seam := rfl
@[simp] theorem Dev.setSkip_twu (d : Dev) (n : Nat) (x : Skip) : (d.setSkip n x).twu = d.twu := rfl
@[simp] theorem Dev.setSkip_fio (d : Dev) (n : Nat) (x : Skip) : (d.setSkip n x).fio = d.fio := rfl
@[simp] theorem Dev.setSkip_asy (d : Dev) (n : Nat) (x : Skip) : (d.setSkip n x).asy = d.asy := rfl
@[simp] theorem Dev.setSkip_tlk (d : Dev) (n : Nat) (x : Skip) : (d.setSkip n x).tlk = d.tlk := rfl
@[simp] theorem Dev.setSkip_tly (d : Dev) (n : Nat) (x : Skip) : (d.setSkip n x).tly = d.tly := rfl
@[simp] theorem Dev.setSkip_net (d : Dev) (n : Nat) (x : Skip) : (d.setSkip n x).net = d.net := rfl
@[simp] theorem Dev.setSkip_recMem (d : Dev) (n : Nat) (x : Skip) : (d.setSkip n x).recMem = d.recMem := rfl
@[simp] theorem Dev.setSkip_bad (d : Dev) (n : Nat) (x : Skip) : (d.setSkip n x).bad = d.bad := rfl
@[simp] theorem Dev.setSkip_mov (d : Dev) (n : Nat) (x : Skip) : (d.setSkip n x).mov = d.mov := rfl
@[simp] theorem Dev.setSkip_pcie (d : Dev) (n : Nat) (x : Skip) : (d.setSkip n x).pcie = d.pcie := rfl
@[simp] theorem Dev.setSkip_field (d : Dev) (n : Nat) (x : Skip) : (d.setSkip n x).field = d.field := rfl
@[simp] theorem Dev.setSkip_opsec0 (d : Dev) (n : Nat) (x : Skip) : (d.setSkip n x).opsec0 = d.opsec0 := rfl
@[simp] theorem Dev.setSkip_fareaCnt (d : Dev) (n : Nat) (x : Skip) : (d.setSkip n x).fareaCnt = d.fareaCnt := rfl
@[simp] theorem Dev.setSkip_hfr (d : Dev) (n : Nat) (x : Skip) : (d.setSkip n x).hfr = d.hfr := rfl
@[simp] theorem Dev.setSkip_sage (d : Dev) (n : Nat) (x : Skip) : (d.setSkip n x).sage = d.sage := rfl
@[simp] theorem Dev.setSkip_halves (d : Dev) (n : Nat) (x : Skip) : (d.setSkip n x).halves = d.halves := rfl
@[simp] theorem Dev.setSkip_lockQ (d : Dev) (n : Nat) (x : Skip) : (d.setSkip n x).lockQ = d.lockQ := rfl
@[simp] theorem Dev.setSkip_lockSup (d : Dev) (n : Nat) (x : Skip) : (d.setSkip n x).lockSup = d.lockSup := rfl
@[simp] theorem Dev.setSkip_pps (d : Dev) (n : Nat) (x : Skip) : (d.setSkip n x).pps = d.pps := rfl
@[simp] theorem Dev.setSkip_nv (d : Dev) (n : Nat) (x : Skip) : (d.setSkip n x).nv = d.nv := rfl

/-! ### `Dev.setAngle` writes `ang` alone -/

@[simp] theorem Dev.setAngle_tsc (d : Dev) (n : Nat) (x : Ang) : (d.setAngle n x).tsc = d.tsc := rfl
@[simp] theorem Dev.setAngle_mode (d : Dev) (n : Nat) (x : Ang) : (d.setAngle n x).mode = d.mode := rfl
@[simp] theorem Dev.setAngle_regs (d : Dev) (n : Nat) (x : Ang) : (d.setAngle n x).regs = d.regs := rfl
@[simp] theorem Dev.setAngle_holding (d : Dev) (n : Nat) (x : Ang) : (d.setAngle n x).holding = d.holding := rfl
@[simp] theorem Dev.setAngle_shadow (d : Dev) (n : Nat) (x : Ang) : (d.setAngle n x).shadow = d.shadow := rfl
@[simp] theorem Dev.setAngle_fresh (d : Dev) (n : Nat) (x : Ang) : (d.setAngle n x).fresh = d.fresh := rfl
@[simp] theorem Dev.setAngle_wrHold (d : Dev) (n : Nat) (x : Ang) : (d.setAngle n x).wrHold = d.wrHold := rfl
@[simp] theorem Dev.setAngle_wrFresh (d : Dev) (n : Nat) (x : Ang) : (d.setAngle n x).wrFresh = d.wrFresh := rfl
@[simp] theorem Dev.setAngle_completions (d : Dev) (n : Nat) (x : Ang) : (d.setAngle n x).completions = d.completions := rfl
@[simp] theorem Dev.setAngle_out (d : Dev) (n : Nat) (x : Ang) : (d.setAngle n x).out = d.out := rfl
@[simp] theorem Dev.setAngle_free (d : Dev) (n : Nat) (x : Ang) : (d.setAngle n x).free = d.free := rfl
@[simp] theorem Dev.setAngle_recOrder (d : Dev) (n : Nat) (x : Ang) : (d.setAngle n x).recOrder = d.recOrder := rfl
@[simp] theorem Dev.setAngle_recq (d : Dev) (n : Nat) (x : Ang) : (d.setAngle n x).recq = d.recq := rfl
@[simp] theorem Dev.setAngle_skips (d : Dev) (n : Nat) (x : Ang) : (d.setAngle n x).skips = d.skips := rfl
@[simp] theorem Dev.setAngle_vecLast (d : Dev) (n : Nat) (x : Ang) : (d.setAngle n x).vecLast = d.vecLast := rfl
@[simp] theorem Dev.setAngle_clk (d : Dev) (n : Nat) (x : Ang) : (d.setAngle n x).clk = d.clk := rfl
@[simp] theorem Dev.setAngle_afe (d : Dev) (n : Nat) (x : Ang) : (d.setAngle n x).afe = d.afe := rfl
@[simp] theorem Dev.setAngle_afeCh (d : Dev) (n : Nat) (x : Ang) : (d.setAngle n x).afeCh = d.afeCh := rfl
@[simp] theorem Dev.setAngle_aux (d : Dev) (n : Nat) (x : Ang) : (d.setAngle n x).aux = d.aux := rfl
@[simp] theorem Dev.setAngle_fltCh (d : Dev) (n : Nat) (x : Ang) : (d.setAngle n x).fltCh = d.fltCh := rfl
@[simp] theorem Dev.setAngle_coef (d : Dev) (n : Nat) (x : Ang) : (d.setAngle n x).coef = d.coef := rfl
@[simp] theorem Dev.setAngle_taps (d : Dev) (n : Nat) (x : Ang) : (d.setAngle n x).taps = d.taps := rfl
@[simp] theorem Dev.setAngle_insts (d : Dev) (n : Nat) (x : Ang) : (d.setAngle n x).insts = d.insts := rfl
@[simp] theorem Dev.setAngle_svPart (d : Dev) (n : Nat) (x : Ang) : (d.setAngle n x).svPart = d.svPart := rfl
@[simp] theorem Dev.setAngle_svIn (d : Dev) (n : Nat) (x : Ang) : (d.setAngle n x).svIn = d.svIn := rfl
@[simp] theorem Dev.setAngle_fr (d : Dev) (n : Nat) (x : Ang) : (d.setAngle n x).fr = d.fr := rfl
@[simp] theorem Dev.setAngle_svi (d : Dev) (n : Nat) (x : Ang) : (d.setAngle n x).svi = d.svi := rfl
@[simp] theorem Dev.setAngle_seam (d : Dev) (n : Nat) (x : Ang) : (d.setAngle n x).seam = d.seam := rfl
@[simp] theorem Dev.setAngle_twu (d : Dev) (n : Nat) (x : Ang) : (d.setAngle n x).twu = d.twu := rfl
@[simp] theorem Dev.setAngle_fio (d : Dev) (n : Nat) (x : Ang) : (d.setAngle n x).fio = d.fio := rfl
@[simp] theorem Dev.setAngle_asy (d : Dev) (n : Nat) (x : Ang) : (d.setAngle n x).asy = d.asy := rfl
@[simp] theorem Dev.setAngle_tlk (d : Dev) (n : Nat) (x : Ang) : (d.setAngle n x).tlk = d.tlk := rfl
@[simp] theorem Dev.setAngle_tly (d : Dev) (n : Nat) (x : Ang) : (d.setAngle n x).tly = d.tly := rfl
@[simp] theorem Dev.setAngle_net (d : Dev) (n : Nat) (x : Ang) : (d.setAngle n x).net = d.net := rfl
@[simp] theorem Dev.setAngle_recMem (d : Dev) (n : Nat) (x : Ang) : (d.setAngle n x).recMem = d.recMem := rfl
@[simp] theorem Dev.setAngle_bad (d : Dev) (n : Nat) (x : Ang) : (d.setAngle n x).bad = d.bad := rfl
@[simp] theorem Dev.setAngle_mov (d : Dev) (n : Nat) (x : Ang) : (d.setAngle n x).mov = d.mov := rfl
@[simp] theorem Dev.setAngle_pcie (d : Dev) (n : Nat) (x : Ang) : (d.setAngle n x).pcie = d.pcie := rfl
@[simp] theorem Dev.setAngle_field (d : Dev) (n : Nat) (x : Ang) : (d.setAngle n x).field = d.field := rfl
@[simp] theorem Dev.setAngle_opsec0 (d : Dev) (n : Nat) (x : Ang) : (d.setAngle n x).opsec0 = d.opsec0 := rfl
@[simp] theorem Dev.setAngle_fareaCnt (d : Dev) (n : Nat) (x : Ang) : (d.setAngle n x).fareaCnt = d.fareaCnt := rfl
@[simp] theorem Dev.setAngle_hfr (d : Dev) (n : Nat) (x : Ang) : (d.setAngle n x).hfr = d.hfr := rfl
@[simp] theorem Dev.setAngle_sage (d : Dev) (n : Nat) (x : Ang) : (d.setAngle n x).sage = d.sage := rfl
@[simp] theorem Dev.setAngle_halves (d : Dev) (n : Nat) (x : Ang) : (d.setAngle n x).halves = d.halves := rfl
@[simp] theorem Dev.setAngle_lockQ (d : Dev) (n : Nat) (x : Ang) : (d.setAngle n x).lockQ = d.lockQ := rfl
@[simp] theorem Dev.setAngle_lockSup (d : Dev) (n : Nat) (x : Ang) : (d.setAngle n x).lockSup = d.lockSup := rfl
@[simp] theorem Dev.setAngle_pps (d : Dev) (n : Nat) (x : Ang) : (d.setAngle n x).pps = d.pps := rfl
@[simp] theorem Dev.setAngle_nv (d : Dev) (n : Nat) (x : Ang) : (d.setAngle n x).nv = d.nv := rfl

/-! ### `Dev.setAfeChan` writes `afeCh` alone -/

@[simp] theorem Dev.setAfeChan_tsc (d : Dev) (c : Nat) (x : AfeCh) : (d.setAfeChan c x).tsc = d.tsc := rfl
@[simp] theorem Dev.setAfeChan_mode (d : Dev) (c : Nat) (x : AfeCh) : (d.setAfeChan c x).mode = d.mode := rfl
@[simp] theorem Dev.setAfeChan_regs (d : Dev) (c : Nat) (x : AfeCh) : (d.setAfeChan c x).regs = d.regs := rfl
@[simp] theorem Dev.setAfeChan_holding (d : Dev) (c : Nat) (x : AfeCh) : (d.setAfeChan c x).holding = d.holding := rfl
@[simp] theorem Dev.setAfeChan_shadow (d : Dev) (c : Nat) (x : AfeCh) : (d.setAfeChan c x).shadow = d.shadow := rfl
@[simp] theorem Dev.setAfeChan_fresh (d : Dev) (c : Nat) (x : AfeCh) : (d.setAfeChan c x).fresh = d.fresh := rfl
@[simp] theorem Dev.setAfeChan_wrHold (d : Dev) (c : Nat) (x : AfeCh) : (d.setAfeChan c x).wrHold = d.wrHold := rfl
@[simp] theorem Dev.setAfeChan_wrFresh (d : Dev) (c : Nat) (x : AfeCh) : (d.setAfeChan c x).wrFresh = d.wrFresh := rfl
@[simp] theorem Dev.setAfeChan_completions (d : Dev) (c : Nat) (x : AfeCh) : (d.setAfeChan c x).completions = d.completions := rfl
@[simp] theorem Dev.setAfeChan_out (d : Dev) (c : Nat) (x : AfeCh) : (d.setAfeChan c x).out = d.out := rfl
@[simp] theorem Dev.setAfeChan_free (d : Dev) (c : Nat) (x : AfeCh) : (d.setAfeChan c x).free = d.free := rfl
@[simp] theorem Dev.setAfeChan_recOrder (d : Dev) (c : Nat) (x : AfeCh) : (d.setAfeChan c x).recOrder = d.recOrder := rfl
@[simp] theorem Dev.setAfeChan_recq (d : Dev) (c : Nat) (x : AfeCh) : (d.setAfeChan c x).recq = d.recq := rfl
@[simp] theorem Dev.setAfeChan_skips (d : Dev) (c : Nat) (x : AfeCh) : (d.setAfeChan c x).skips = d.skips := rfl
@[simp] theorem Dev.setAfeChan_vecLast (d : Dev) (c : Nat) (x : AfeCh) : (d.setAfeChan c x).vecLast = d.vecLast := rfl
@[simp] theorem Dev.setAfeChan_clk (d : Dev) (c : Nat) (x : AfeCh) : (d.setAfeChan c x).clk = d.clk := rfl
@[simp] theorem Dev.setAfeChan_ang (d : Dev) (c : Nat) (x : AfeCh) : (d.setAfeChan c x).ang = d.ang := rfl
@[simp] theorem Dev.setAfeChan_afe (d : Dev) (c : Nat) (x : AfeCh) : (d.setAfeChan c x).afe = d.afe := rfl
@[simp] theorem Dev.setAfeChan_aux (d : Dev) (c : Nat) (x : AfeCh) : (d.setAfeChan c x).aux = d.aux := rfl
@[simp] theorem Dev.setAfeChan_fltCh (d : Dev) (c : Nat) (x : AfeCh) : (d.setAfeChan c x).fltCh = d.fltCh := rfl
@[simp] theorem Dev.setAfeChan_coef (d : Dev) (c : Nat) (x : AfeCh) : (d.setAfeChan c x).coef = d.coef := rfl
@[simp] theorem Dev.setAfeChan_taps (d : Dev) (c : Nat) (x : AfeCh) : (d.setAfeChan c x).taps = d.taps := rfl
@[simp] theorem Dev.setAfeChan_insts (d : Dev) (c : Nat) (x : AfeCh) : (d.setAfeChan c x).insts = d.insts := rfl
@[simp] theorem Dev.setAfeChan_svPart (d : Dev) (c : Nat) (x : AfeCh) : (d.setAfeChan c x).svPart = d.svPart := rfl
@[simp] theorem Dev.setAfeChan_svIn (d : Dev) (c : Nat) (x : AfeCh) : (d.setAfeChan c x).svIn = d.svIn := rfl
@[simp] theorem Dev.setAfeChan_fr (d : Dev) (c : Nat) (x : AfeCh) : (d.setAfeChan c x).fr = d.fr := rfl
@[simp] theorem Dev.setAfeChan_svi (d : Dev) (c : Nat) (x : AfeCh) : (d.setAfeChan c x).svi = d.svi := rfl
@[simp] theorem Dev.setAfeChan_seam (d : Dev) (c : Nat) (x : AfeCh) : (d.setAfeChan c x).seam = d.seam := rfl
@[simp] theorem Dev.setAfeChan_twu (d : Dev) (c : Nat) (x : AfeCh) : (d.setAfeChan c x).twu = d.twu := rfl
@[simp] theorem Dev.setAfeChan_fio (d : Dev) (c : Nat) (x : AfeCh) : (d.setAfeChan c x).fio = d.fio := rfl
@[simp] theorem Dev.setAfeChan_asy (d : Dev) (c : Nat) (x : AfeCh) : (d.setAfeChan c x).asy = d.asy := rfl
@[simp] theorem Dev.setAfeChan_tlk (d : Dev) (c : Nat) (x : AfeCh) : (d.setAfeChan c x).tlk = d.tlk := rfl
@[simp] theorem Dev.setAfeChan_tly (d : Dev) (c : Nat) (x : AfeCh) : (d.setAfeChan c x).tly = d.tly := rfl
@[simp] theorem Dev.setAfeChan_net (d : Dev) (c : Nat) (x : AfeCh) : (d.setAfeChan c x).net = d.net := rfl
@[simp] theorem Dev.setAfeChan_recMem (d : Dev) (c : Nat) (x : AfeCh) : (d.setAfeChan c x).recMem = d.recMem := rfl
@[simp] theorem Dev.setAfeChan_bad (d : Dev) (c : Nat) (x : AfeCh) : (d.setAfeChan c x).bad = d.bad := rfl
@[simp] theorem Dev.setAfeChan_mov (d : Dev) (c : Nat) (x : AfeCh) : (d.setAfeChan c x).mov = d.mov := rfl
@[simp] theorem Dev.setAfeChan_pcie (d : Dev) (c : Nat) (x : AfeCh) : (d.setAfeChan c x).pcie = d.pcie := rfl
@[simp] theorem Dev.setAfeChan_field (d : Dev) (c : Nat) (x : AfeCh) : (d.setAfeChan c x).field = d.field := rfl
@[simp] theorem Dev.setAfeChan_opsec0 (d : Dev) (c : Nat) (x : AfeCh) : (d.setAfeChan c x).opsec0 = d.opsec0 := rfl
@[simp] theorem Dev.setAfeChan_fareaCnt (d : Dev) (c : Nat) (x : AfeCh) : (d.setAfeChan c x).fareaCnt = d.fareaCnt := rfl
@[simp] theorem Dev.setAfeChan_hfr (d : Dev) (c : Nat) (x : AfeCh) : (d.setAfeChan c x).hfr = d.hfr := rfl
@[simp] theorem Dev.setAfeChan_sage (d : Dev) (c : Nat) (x : AfeCh) : (d.setAfeChan c x).sage = d.sage := rfl
@[simp] theorem Dev.setAfeChan_halves (d : Dev) (c : Nat) (x : AfeCh) : (d.setAfeChan c x).halves = d.halves := rfl
@[simp] theorem Dev.setAfeChan_lockQ (d : Dev) (c : Nat) (x : AfeCh) : (d.setAfeChan c x).lockQ = d.lockQ := rfl
@[simp] theorem Dev.setAfeChan_lockSup (d : Dev) (c : Nat) (x : AfeCh) : (d.setAfeChan c x).lockSup = d.lockSup := rfl
@[simp] theorem Dev.setAfeChan_pps (d : Dev) (c : Nat) (x : AfeCh) : (d.setAfeChan c x).pps = d.pps := rfl
@[simp] theorem Dev.setAfeChan_nv (d : Dev) (c : Nat) (x : AfeCh) : (d.setAfeChan c x).nv = d.nv := rfl

/-! ### `Dev.setAux` writes `aux` alone -/

@[simp] theorem Dev.setAux_tsc (d : Dev) (x : Aux) : (d.setAux x).tsc = d.tsc := rfl
@[simp] theorem Dev.setAux_mode (d : Dev) (x : Aux) : (d.setAux x).mode = d.mode := rfl
@[simp] theorem Dev.setAux_regs (d : Dev) (x : Aux) : (d.setAux x).regs = d.regs := rfl
@[simp] theorem Dev.setAux_holding (d : Dev) (x : Aux) : (d.setAux x).holding = d.holding := rfl
@[simp] theorem Dev.setAux_shadow (d : Dev) (x : Aux) : (d.setAux x).shadow = d.shadow := rfl
@[simp] theorem Dev.setAux_fresh (d : Dev) (x : Aux) : (d.setAux x).fresh = d.fresh := rfl
@[simp] theorem Dev.setAux_wrHold (d : Dev) (x : Aux) : (d.setAux x).wrHold = d.wrHold := rfl
@[simp] theorem Dev.setAux_wrFresh (d : Dev) (x : Aux) : (d.setAux x).wrFresh = d.wrFresh := rfl
@[simp] theorem Dev.setAux_completions (d : Dev) (x : Aux) : (d.setAux x).completions = d.completions := rfl
@[simp] theorem Dev.setAux_out (d : Dev) (x : Aux) : (d.setAux x).out = d.out := rfl
@[simp] theorem Dev.setAux_free (d : Dev) (x : Aux) : (d.setAux x).free = d.free := rfl
@[simp] theorem Dev.setAux_recOrder (d : Dev) (x : Aux) : (d.setAux x).recOrder = d.recOrder := rfl
@[simp] theorem Dev.setAux_recq (d : Dev) (x : Aux) : (d.setAux x).recq = d.recq := rfl
@[simp] theorem Dev.setAux_skips (d : Dev) (x : Aux) : (d.setAux x).skips = d.skips := rfl
@[simp] theorem Dev.setAux_vecLast (d : Dev) (x : Aux) : (d.setAux x).vecLast = d.vecLast := rfl
@[simp] theorem Dev.setAux_clk (d : Dev) (x : Aux) : (d.setAux x).clk = d.clk := rfl
@[simp] theorem Dev.setAux_ang (d : Dev) (x : Aux) : (d.setAux x).ang = d.ang := rfl
@[simp] theorem Dev.setAux_afe (d : Dev) (x : Aux) : (d.setAux x).afe = d.afe := rfl
@[simp] theorem Dev.setAux_afeCh (d : Dev) (x : Aux) : (d.setAux x).afeCh = d.afeCh := rfl
@[simp] theorem Dev.setAux_fltCh (d : Dev) (x : Aux) : (d.setAux x).fltCh = d.fltCh := rfl
@[simp] theorem Dev.setAux_coef (d : Dev) (x : Aux) : (d.setAux x).coef = d.coef := rfl
@[simp] theorem Dev.setAux_taps (d : Dev) (x : Aux) : (d.setAux x).taps = d.taps := rfl
@[simp] theorem Dev.setAux_insts (d : Dev) (x : Aux) : (d.setAux x).insts = d.insts := rfl
@[simp] theorem Dev.setAux_svPart (d : Dev) (x : Aux) : (d.setAux x).svPart = d.svPart := rfl
@[simp] theorem Dev.setAux_svIn (d : Dev) (x : Aux) : (d.setAux x).svIn = d.svIn := rfl
@[simp] theorem Dev.setAux_fr (d : Dev) (x : Aux) : (d.setAux x).fr = d.fr := rfl
@[simp] theorem Dev.setAux_svi (d : Dev) (x : Aux) : (d.setAux x).svi = d.svi := rfl
@[simp] theorem Dev.setAux_seam (d : Dev) (x : Aux) : (d.setAux x).seam = d.seam := rfl
@[simp] theorem Dev.setAux_twu (d : Dev) (x : Aux) : (d.setAux x).twu = d.twu := rfl
@[simp] theorem Dev.setAux_fio (d : Dev) (x : Aux) : (d.setAux x).fio = d.fio := rfl
@[simp] theorem Dev.setAux_asy (d : Dev) (x : Aux) : (d.setAux x).asy = d.asy := rfl
@[simp] theorem Dev.setAux_tlk (d : Dev) (x : Aux) : (d.setAux x).tlk = d.tlk := rfl
@[simp] theorem Dev.setAux_tly (d : Dev) (x : Aux) : (d.setAux x).tly = d.tly := rfl
@[simp] theorem Dev.setAux_net (d : Dev) (x : Aux) : (d.setAux x).net = d.net := rfl
@[simp] theorem Dev.setAux_recMem (d : Dev) (x : Aux) : (d.setAux x).recMem = d.recMem := rfl
@[simp] theorem Dev.setAux_bad (d : Dev) (x : Aux) : (d.setAux x).bad = d.bad := rfl
@[simp] theorem Dev.setAux_mov (d : Dev) (x : Aux) : (d.setAux x).mov = d.mov := rfl
@[simp] theorem Dev.setAux_pcie (d : Dev) (x : Aux) : (d.setAux x).pcie = d.pcie := rfl
@[simp] theorem Dev.setAux_field (d : Dev) (x : Aux) : (d.setAux x).field = d.field := rfl
@[simp] theorem Dev.setAux_opsec0 (d : Dev) (x : Aux) : (d.setAux x).opsec0 = d.opsec0 := rfl
@[simp] theorem Dev.setAux_fareaCnt (d : Dev) (x : Aux) : (d.setAux x).fareaCnt = d.fareaCnt := rfl
@[simp] theorem Dev.setAux_hfr (d : Dev) (x : Aux) : (d.setAux x).hfr = d.hfr := rfl
@[simp] theorem Dev.setAux_sage (d : Dev) (x : Aux) : (d.setAux x).sage = d.sage := rfl
@[simp] theorem Dev.setAux_halves (d : Dev) (x : Aux) : (d.setAux x).halves = d.halves := rfl
@[simp] theorem Dev.setAux_lockQ (d : Dev) (x : Aux) : (d.setAux x).lockQ = d.lockQ := rfl
@[simp] theorem Dev.setAux_lockSup (d : Dev) (x : Aux) : (d.setAux x).lockSup = d.lockSup := rfl
@[simp] theorem Dev.setAux_pps (d : Dev) (x : Aux) : (d.setAux x).pps = d.pps := rfl
@[simp] theorem Dev.setAux_nv (d : Dev) (x : Aux) : (d.setAux x).nv = d.nv := rfl

/-! ### `Dev.setChain` writes `fltCh` alone -/

@[simp] theorem Dev.setChain_tsc (d : Dev) (c : Nat) (x : FltCh) : (d.setChain c x).tsc = d.tsc := rfl
@[simp] theorem Dev.setChain_mode (d : Dev) (c : Nat) (x : FltCh) : (d.setChain c x).mode = d.mode := rfl
@[simp] theorem Dev.setChain_regs (d : Dev) (c : Nat) (x : FltCh) : (d.setChain c x).regs = d.regs := rfl
@[simp] theorem Dev.setChain_holding (d : Dev) (c : Nat) (x : FltCh) : (d.setChain c x).holding = d.holding := rfl
@[simp] theorem Dev.setChain_shadow (d : Dev) (c : Nat) (x : FltCh) : (d.setChain c x).shadow = d.shadow := rfl
@[simp] theorem Dev.setChain_fresh (d : Dev) (c : Nat) (x : FltCh) : (d.setChain c x).fresh = d.fresh := rfl
@[simp] theorem Dev.setChain_wrHold (d : Dev) (c : Nat) (x : FltCh) : (d.setChain c x).wrHold = d.wrHold := rfl
@[simp] theorem Dev.setChain_wrFresh (d : Dev) (c : Nat) (x : FltCh) : (d.setChain c x).wrFresh = d.wrFresh := rfl
@[simp] theorem Dev.setChain_completions (d : Dev) (c : Nat) (x : FltCh) : (d.setChain c x).completions = d.completions := rfl
@[simp] theorem Dev.setChain_out (d : Dev) (c : Nat) (x : FltCh) : (d.setChain c x).out = d.out := rfl
@[simp] theorem Dev.setChain_free (d : Dev) (c : Nat) (x : FltCh) : (d.setChain c x).free = d.free := rfl
@[simp] theorem Dev.setChain_recOrder (d : Dev) (c : Nat) (x : FltCh) : (d.setChain c x).recOrder = d.recOrder := rfl
@[simp] theorem Dev.setChain_recq (d : Dev) (c : Nat) (x : FltCh) : (d.setChain c x).recq = d.recq := rfl
@[simp] theorem Dev.setChain_skips (d : Dev) (c : Nat) (x : FltCh) : (d.setChain c x).skips = d.skips := rfl
@[simp] theorem Dev.setChain_vecLast (d : Dev) (c : Nat) (x : FltCh) : (d.setChain c x).vecLast = d.vecLast := rfl
@[simp] theorem Dev.setChain_clk (d : Dev) (c : Nat) (x : FltCh) : (d.setChain c x).clk = d.clk := rfl
@[simp] theorem Dev.setChain_ang (d : Dev) (c : Nat) (x : FltCh) : (d.setChain c x).ang = d.ang := rfl
@[simp] theorem Dev.setChain_afe (d : Dev) (c : Nat) (x : FltCh) : (d.setChain c x).afe = d.afe := rfl
@[simp] theorem Dev.setChain_afeCh (d : Dev) (c : Nat) (x : FltCh) : (d.setChain c x).afeCh = d.afeCh := rfl
@[simp] theorem Dev.setChain_aux (d : Dev) (c : Nat) (x : FltCh) : (d.setChain c x).aux = d.aux := rfl
@[simp] theorem Dev.setChain_coef (d : Dev) (c : Nat) (x : FltCh) : (d.setChain c x).coef = d.coef := rfl
@[simp] theorem Dev.setChain_taps (d : Dev) (c : Nat) (x : FltCh) : (d.setChain c x).taps = d.taps := rfl
@[simp] theorem Dev.setChain_insts (d : Dev) (c : Nat) (x : FltCh) : (d.setChain c x).insts = d.insts := rfl
@[simp] theorem Dev.setChain_svPart (d : Dev) (c : Nat) (x : FltCh) : (d.setChain c x).svPart = d.svPart := rfl
@[simp] theorem Dev.setChain_svIn (d : Dev) (c : Nat) (x : FltCh) : (d.setChain c x).svIn = d.svIn := rfl
@[simp] theorem Dev.setChain_fr (d : Dev) (c : Nat) (x : FltCh) : (d.setChain c x).fr = d.fr := rfl
@[simp] theorem Dev.setChain_svi (d : Dev) (c : Nat) (x : FltCh) : (d.setChain c x).svi = d.svi := rfl
@[simp] theorem Dev.setChain_seam (d : Dev) (c : Nat) (x : FltCh) : (d.setChain c x).seam = d.seam := rfl
@[simp] theorem Dev.setChain_twu (d : Dev) (c : Nat) (x : FltCh) : (d.setChain c x).twu = d.twu := rfl
@[simp] theorem Dev.setChain_fio (d : Dev) (c : Nat) (x : FltCh) : (d.setChain c x).fio = d.fio := rfl
@[simp] theorem Dev.setChain_asy (d : Dev) (c : Nat) (x : FltCh) : (d.setChain c x).asy = d.asy := rfl
@[simp] theorem Dev.setChain_tlk (d : Dev) (c : Nat) (x : FltCh) : (d.setChain c x).tlk = d.tlk := rfl
@[simp] theorem Dev.setChain_tly (d : Dev) (c : Nat) (x : FltCh) : (d.setChain c x).tly = d.tly := rfl
@[simp] theorem Dev.setChain_net (d : Dev) (c : Nat) (x : FltCh) : (d.setChain c x).net = d.net := rfl
@[simp] theorem Dev.setChain_recMem (d : Dev) (c : Nat) (x : FltCh) : (d.setChain c x).recMem = d.recMem := rfl
@[simp] theorem Dev.setChain_bad (d : Dev) (c : Nat) (x : FltCh) : (d.setChain c x).bad = d.bad := rfl
@[simp] theorem Dev.setChain_mov (d : Dev) (c : Nat) (x : FltCh) : (d.setChain c x).mov = d.mov := rfl
@[simp] theorem Dev.setChain_pcie (d : Dev) (c : Nat) (x : FltCh) : (d.setChain c x).pcie = d.pcie := rfl
@[simp] theorem Dev.setChain_field (d : Dev) (c : Nat) (x : FltCh) : (d.setChain c x).field = d.field := rfl
@[simp] theorem Dev.setChain_opsec0 (d : Dev) (c : Nat) (x : FltCh) : (d.setChain c x).opsec0 = d.opsec0 := rfl
@[simp] theorem Dev.setChain_fareaCnt (d : Dev) (c : Nat) (x : FltCh) : (d.setChain c x).fareaCnt = d.fareaCnt := rfl
@[simp] theorem Dev.setChain_hfr (d : Dev) (c : Nat) (x : FltCh) : (d.setChain c x).hfr = d.hfr := rfl
@[simp] theorem Dev.setChain_sage (d : Dev) (c : Nat) (x : FltCh) : (d.setChain c x).sage = d.sage := rfl
@[simp] theorem Dev.setChain_halves (d : Dev) (c : Nat) (x : FltCh) : (d.setChain c x).halves = d.halves := rfl
@[simp] theorem Dev.setChain_lockQ (d : Dev) (c : Nat) (x : FltCh) : (d.setChain c x).lockQ = d.lockQ := rfl
@[simp] theorem Dev.setChain_lockSup (d : Dev) (c : Nat) (x : FltCh) : (d.setChain c x).lockSup = d.lockSup := rfl
@[simp] theorem Dev.setChain_pps (d : Dev) (c : Nat) (x : FltCh) : (d.setChain c x).pps = d.pps := rfl
@[simp] theorem Dev.setChain_nv (d : Dev) (c : Nat) (x : FltCh) : (d.setChain c x).nv = d.nv := rfl

/-! ### `Dev.setSub` writes `svi` alone -/

@[simp] theorem Dev.setSub_tsc (d : Dev) (i : Nat) (x : SvSub) : (d.setSub i x).tsc = d.tsc := rfl
@[simp] theorem Dev.setSub_mode (d : Dev) (i : Nat) (x : SvSub) : (d.setSub i x).mode = d.mode := rfl
@[simp] theorem Dev.setSub_regs (d : Dev) (i : Nat) (x : SvSub) : (d.setSub i x).regs = d.regs := rfl
@[simp] theorem Dev.setSub_holding (d : Dev) (i : Nat) (x : SvSub) : (d.setSub i x).holding = d.holding := rfl
@[simp] theorem Dev.setSub_shadow (d : Dev) (i : Nat) (x : SvSub) : (d.setSub i x).shadow = d.shadow := rfl
@[simp] theorem Dev.setSub_fresh (d : Dev) (i : Nat) (x : SvSub) : (d.setSub i x).fresh = d.fresh := rfl
@[simp] theorem Dev.setSub_wrHold (d : Dev) (i : Nat) (x : SvSub) : (d.setSub i x).wrHold = d.wrHold := rfl
@[simp] theorem Dev.setSub_wrFresh (d : Dev) (i : Nat) (x : SvSub) : (d.setSub i x).wrFresh = d.wrFresh := rfl
@[simp] theorem Dev.setSub_completions (d : Dev) (i : Nat) (x : SvSub) : (d.setSub i x).completions = d.completions := rfl
@[simp] theorem Dev.setSub_out (d : Dev) (i : Nat) (x : SvSub) : (d.setSub i x).out = d.out := rfl
@[simp] theorem Dev.setSub_free (d : Dev) (i : Nat) (x : SvSub) : (d.setSub i x).free = d.free := rfl
@[simp] theorem Dev.setSub_recOrder (d : Dev) (i : Nat) (x : SvSub) : (d.setSub i x).recOrder = d.recOrder := rfl
@[simp] theorem Dev.setSub_recq (d : Dev) (i : Nat) (x : SvSub) : (d.setSub i x).recq = d.recq := rfl
@[simp] theorem Dev.setSub_skips (d : Dev) (i : Nat) (x : SvSub) : (d.setSub i x).skips = d.skips := rfl
@[simp] theorem Dev.setSub_vecLast (d : Dev) (i : Nat) (x : SvSub) : (d.setSub i x).vecLast = d.vecLast := rfl
@[simp] theorem Dev.setSub_clk (d : Dev) (i : Nat) (x : SvSub) : (d.setSub i x).clk = d.clk := rfl
@[simp] theorem Dev.setSub_ang (d : Dev) (i : Nat) (x : SvSub) : (d.setSub i x).ang = d.ang := rfl
@[simp] theorem Dev.setSub_afe (d : Dev) (i : Nat) (x : SvSub) : (d.setSub i x).afe = d.afe := rfl
@[simp] theorem Dev.setSub_afeCh (d : Dev) (i : Nat) (x : SvSub) : (d.setSub i x).afeCh = d.afeCh := rfl
@[simp] theorem Dev.setSub_aux (d : Dev) (i : Nat) (x : SvSub) : (d.setSub i x).aux = d.aux := rfl
@[simp] theorem Dev.setSub_fltCh (d : Dev) (i : Nat) (x : SvSub) : (d.setSub i x).fltCh = d.fltCh := rfl
@[simp] theorem Dev.setSub_coef (d : Dev) (i : Nat) (x : SvSub) : (d.setSub i x).coef = d.coef := rfl
@[simp] theorem Dev.setSub_taps (d : Dev) (i : Nat) (x : SvSub) : (d.setSub i x).taps = d.taps := rfl
@[simp] theorem Dev.setSub_insts (d : Dev) (i : Nat) (x : SvSub) : (d.setSub i x).insts = d.insts := rfl
@[simp] theorem Dev.setSub_svPart (d : Dev) (i : Nat) (x : SvSub) : (d.setSub i x).svPart = d.svPart := rfl
@[simp] theorem Dev.setSub_svIn (d : Dev) (i : Nat) (x : SvSub) : (d.setSub i x).svIn = d.svIn := rfl
@[simp] theorem Dev.setSub_fr (d : Dev) (i : Nat) (x : SvSub) : (d.setSub i x).fr = d.fr := rfl
@[simp] theorem Dev.setSub_seam (d : Dev) (i : Nat) (x : SvSub) : (d.setSub i x).seam = d.seam := rfl
@[simp] theorem Dev.setSub_twu (d : Dev) (i : Nat) (x : SvSub) : (d.setSub i x).twu = d.twu := rfl
@[simp] theorem Dev.setSub_fio (d : Dev) (i : Nat) (x : SvSub) : (d.setSub i x).fio = d.fio := rfl
@[simp] theorem Dev.setSub_asy (d : Dev) (i : Nat) (x : SvSub) : (d.setSub i x).asy = d.asy := rfl
@[simp] theorem Dev.setSub_tlk (d : Dev) (i : Nat) (x : SvSub) : (d.setSub i x).tlk = d.tlk := rfl
@[simp] theorem Dev.setSub_tly (d : Dev) (i : Nat) (x : SvSub) : (d.setSub i x).tly = d.tly := rfl
@[simp] theorem Dev.setSub_net (d : Dev) (i : Nat) (x : SvSub) : (d.setSub i x).net = d.net := rfl
@[simp] theorem Dev.setSub_recMem (d : Dev) (i : Nat) (x : SvSub) : (d.setSub i x).recMem = d.recMem := rfl
@[simp] theorem Dev.setSub_bad (d : Dev) (i : Nat) (x : SvSub) : (d.setSub i x).bad = d.bad := rfl
@[simp] theorem Dev.setSub_mov (d : Dev) (i : Nat) (x : SvSub) : (d.setSub i x).mov = d.mov := rfl
@[simp] theorem Dev.setSub_pcie (d : Dev) (i : Nat) (x : SvSub) : (d.setSub i x).pcie = d.pcie := rfl
@[simp] theorem Dev.setSub_field (d : Dev) (i : Nat) (x : SvSub) : (d.setSub i x).field = d.field := rfl
@[simp] theorem Dev.setSub_opsec0 (d : Dev) (i : Nat) (x : SvSub) : (d.setSub i x).opsec0 = d.opsec0 := rfl
@[simp] theorem Dev.setSub_fareaCnt (d : Dev) (i : Nat) (x : SvSub) : (d.setSub i x).fareaCnt = d.fareaCnt := rfl
@[simp] theorem Dev.setSub_hfr (d : Dev) (i : Nat) (x : SvSub) : (d.setSub i x).hfr = d.hfr := rfl
@[simp] theorem Dev.setSub_sage (d : Dev) (i : Nat) (x : SvSub) : (d.setSub i x).sage = d.sage := rfl
@[simp] theorem Dev.setSub_halves (d : Dev) (i : Nat) (x : SvSub) : (d.setSub i x).halves = d.halves := rfl
@[simp] theorem Dev.setSub_lockQ (d : Dev) (i : Nat) (x : SvSub) : (d.setSub i x).lockQ = d.lockQ := rfl
@[simp] theorem Dev.setSub_lockSup (d : Dev) (i : Nat) (x : SvSub) : (d.setSub i x).lockSup = d.lockSup := rfl
@[simp] theorem Dev.setSub_pps (d : Dev) (i : Nat) (x : SvSub) : (d.setSub i x).pps = d.pps := rfl
@[simp] theorem Dev.setSub_nv (d : Dev) (i : Nat) (x : SvSub) : (d.setSub i x).nv = d.nv := rfl

/-! ### `Dev.setSeam` writes `seam` alone -/

@[simp] theorem Dev.setSeam_tsc (d : Dev) (x : Seam) : (d.setSeam x).tsc = d.tsc := rfl
@[simp] theorem Dev.setSeam_mode (d : Dev) (x : Seam) : (d.setSeam x).mode = d.mode := rfl
@[simp] theorem Dev.setSeam_regs (d : Dev) (x : Seam) : (d.setSeam x).regs = d.regs := rfl
@[simp] theorem Dev.setSeam_holding (d : Dev) (x : Seam) : (d.setSeam x).holding = d.holding := rfl
@[simp] theorem Dev.setSeam_shadow (d : Dev) (x : Seam) : (d.setSeam x).shadow = d.shadow := rfl
@[simp] theorem Dev.setSeam_fresh (d : Dev) (x : Seam) : (d.setSeam x).fresh = d.fresh := rfl
@[simp] theorem Dev.setSeam_wrHold (d : Dev) (x : Seam) : (d.setSeam x).wrHold = d.wrHold := rfl
@[simp] theorem Dev.setSeam_wrFresh (d : Dev) (x : Seam) : (d.setSeam x).wrFresh = d.wrFresh := rfl
@[simp] theorem Dev.setSeam_completions (d : Dev) (x : Seam) : (d.setSeam x).completions = d.completions := rfl
@[simp] theorem Dev.setSeam_out (d : Dev) (x : Seam) : (d.setSeam x).out = d.out := rfl
@[simp] theorem Dev.setSeam_free (d : Dev) (x : Seam) : (d.setSeam x).free = d.free := rfl
@[simp] theorem Dev.setSeam_recOrder (d : Dev) (x : Seam) : (d.setSeam x).recOrder = d.recOrder := rfl
@[simp] theorem Dev.setSeam_recq (d : Dev) (x : Seam) : (d.setSeam x).recq = d.recq := rfl
@[simp] theorem Dev.setSeam_skips (d : Dev) (x : Seam) : (d.setSeam x).skips = d.skips := rfl
@[simp] theorem Dev.setSeam_vecLast (d : Dev) (x : Seam) : (d.setSeam x).vecLast = d.vecLast := rfl
@[simp] theorem Dev.setSeam_clk (d : Dev) (x : Seam) : (d.setSeam x).clk = d.clk := rfl
@[simp] theorem Dev.setSeam_ang (d : Dev) (x : Seam) : (d.setSeam x).ang = d.ang := rfl
@[simp] theorem Dev.setSeam_afe (d : Dev) (x : Seam) : (d.setSeam x).afe = d.afe := rfl
@[simp] theorem Dev.setSeam_afeCh (d : Dev) (x : Seam) : (d.setSeam x).afeCh = d.afeCh := rfl
@[simp] theorem Dev.setSeam_aux (d : Dev) (x : Seam) : (d.setSeam x).aux = d.aux := rfl
@[simp] theorem Dev.setSeam_fltCh (d : Dev) (x : Seam) : (d.setSeam x).fltCh = d.fltCh := rfl
@[simp] theorem Dev.setSeam_coef (d : Dev) (x : Seam) : (d.setSeam x).coef = d.coef := rfl
@[simp] theorem Dev.setSeam_taps (d : Dev) (x : Seam) : (d.setSeam x).taps = d.taps := rfl
@[simp] theorem Dev.setSeam_insts (d : Dev) (x : Seam) : (d.setSeam x).insts = d.insts := rfl
@[simp] theorem Dev.setSeam_svPart (d : Dev) (x : Seam) : (d.setSeam x).svPart = d.svPart := rfl
@[simp] theorem Dev.setSeam_svIn (d : Dev) (x : Seam) : (d.setSeam x).svIn = d.svIn := rfl
@[simp] theorem Dev.setSeam_fr (d : Dev) (x : Seam) : (d.setSeam x).fr = d.fr := rfl
@[simp] theorem Dev.setSeam_svi (d : Dev) (x : Seam) : (d.setSeam x).svi = d.svi := rfl
@[simp] theorem Dev.setSeam_twu (d : Dev) (x : Seam) : (d.setSeam x).twu = d.twu := rfl
@[simp] theorem Dev.setSeam_fio (d : Dev) (x : Seam) : (d.setSeam x).fio = d.fio := rfl
@[simp] theorem Dev.setSeam_asy (d : Dev) (x : Seam) : (d.setSeam x).asy = d.asy := rfl
@[simp] theorem Dev.setSeam_tlk (d : Dev) (x : Seam) : (d.setSeam x).tlk = d.tlk := rfl
@[simp] theorem Dev.setSeam_tly (d : Dev) (x : Seam) : (d.setSeam x).tly = d.tly := rfl
@[simp] theorem Dev.setSeam_net (d : Dev) (x : Seam) : (d.setSeam x).net = d.net := rfl
@[simp] theorem Dev.setSeam_recMem (d : Dev) (x : Seam) : (d.setSeam x).recMem = d.recMem := rfl
@[simp] theorem Dev.setSeam_bad (d : Dev) (x : Seam) : (d.setSeam x).bad = d.bad := rfl
@[simp] theorem Dev.setSeam_mov (d : Dev) (x : Seam) : (d.setSeam x).mov = d.mov := rfl
@[simp] theorem Dev.setSeam_pcie (d : Dev) (x : Seam) : (d.setSeam x).pcie = d.pcie := rfl
@[simp] theorem Dev.setSeam_field (d : Dev) (x : Seam) : (d.setSeam x).field = d.field := rfl
@[simp] theorem Dev.setSeam_opsec0 (d : Dev) (x : Seam) : (d.setSeam x).opsec0 = d.opsec0 := rfl
@[simp] theorem Dev.setSeam_fareaCnt (d : Dev) (x : Seam) : (d.setSeam x).fareaCnt = d.fareaCnt := rfl
@[simp] theorem Dev.setSeam_hfr (d : Dev) (x : Seam) : (d.setSeam x).hfr = d.hfr := rfl
@[simp] theorem Dev.setSeam_sage (d : Dev) (x : Seam) : (d.setSeam x).sage = d.sage := rfl
@[simp] theorem Dev.setSeam_halves (d : Dev) (x : Seam) : (d.setSeam x).halves = d.halves := rfl
@[simp] theorem Dev.setSeam_lockQ (d : Dev) (x : Seam) : (d.setSeam x).lockQ = d.lockQ := rfl
@[simp] theorem Dev.setSeam_lockSup (d : Dev) (x : Seam) : (d.setSeam x).lockSup = d.lockSup := rfl
@[simp] theorem Dev.setSeam_pps (d : Dev) (x : Seam) : (d.setSeam x).pps = d.pps := rfl
@[simp] theorem Dev.setSeam_nv (d : Dev) (x : Seam) : (d.setSeam x).nv = d.nv := rfl

/-! ### `Dev.setGrp` writes `twu` alone -/

@[simp] theorem Dev.setGrp_tsc (d : Dev) (g : Nat) (x : TwGrp) : (d.setGrp g x).tsc = d.tsc := rfl
@[simp] theorem Dev.setGrp_mode (d : Dev) (g : Nat) (x : TwGrp) : (d.setGrp g x).mode = d.mode := rfl
@[simp] theorem Dev.setGrp_regs (d : Dev) (g : Nat) (x : TwGrp) : (d.setGrp g x).regs = d.regs := rfl
@[simp] theorem Dev.setGrp_holding (d : Dev) (g : Nat) (x : TwGrp) : (d.setGrp g x).holding = d.holding := rfl
@[simp] theorem Dev.setGrp_shadow (d : Dev) (g : Nat) (x : TwGrp) : (d.setGrp g x).shadow = d.shadow := rfl
@[simp] theorem Dev.setGrp_fresh (d : Dev) (g : Nat) (x : TwGrp) : (d.setGrp g x).fresh = d.fresh := rfl
@[simp] theorem Dev.setGrp_wrHold (d : Dev) (g : Nat) (x : TwGrp) : (d.setGrp g x).wrHold = d.wrHold := rfl
@[simp] theorem Dev.setGrp_wrFresh (d : Dev) (g : Nat) (x : TwGrp) : (d.setGrp g x).wrFresh = d.wrFresh := rfl
@[simp] theorem Dev.setGrp_completions (d : Dev) (g : Nat) (x : TwGrp) : (d.setGrp g x).completions = d.completions := rfl
@[simp] theorem Dev.setGrp_out (d : Dev) (g : Nat) (x : TwGrp) : (d.setGrp g x).out = d.out := rfl
@[simp] theorem Dev.setGrp_free (d : Dev) (g : Nat) (x : TwGrp) : (d.setGrp g x).free = d.free := rfl
@[simp] theorem Dev.setGrp_recOrder (d : Dev) (g : Nat) (x : TwGrp) : (d.setGrp g x).recOrder = d.recOrder := rfl
@[simp] theorem Dev.setGrp_recq (d : Dev) (g : Nat) (x : TwGrp) : (d.setGrp g x).recq = d.recq := rfl
@[simp] theorem Dev.setGrp_skips (d : Dev) (g : Nat) (x : TwGrp) : (d.setGrp g x).skips = d.skips := rfl
@[simp] theorem Dev.setGrp_vecLast (d : Dev) (g : Nat) (x : TwGrp) : (d.setGrp g x).vecLast = d.vecLast := rfl
@[simp] theorem Dev.setGrp_clk (d : Dev) (g : Nat) (x : TwGrp) : (d.setGrp g x).clk = d.clk := rfl
@[simp] theorem Dev.setGrp_ang (d : Dev) (g : Nat) (x : TwGrp) : (d.setGrp g x).ang = d.ang := rfl
@[simp] theorem Dev.setGrp_afe (d : Dev) (g : Nat) (x : TwGrp) : (d.setGrp g x).afe = d.afe := rfl
@[simp] theorem Dev.setGrp_afeCh (d : Dev) (g : Nat) (x : TwGrp) : (d.setGrp g x).afeCh = d.afeCh := rfl
@[simp] theorem Dev.setGrp_aux (d : Dev) (g : Nat) (x : TwGrp) : (d.setGrp g x).aux = d.aux := rfl
@[simp] theorem Dev.setGrp_fltCh (d : Dev) (g : Nat) (x : TwGrp) : (d.setGrp g x).fltCh = d.fltCh := rfl
@[simp] theorem Dev.setGrp_coef (d : Dev) (g : Nat) (x : TwGrp) : (d.setGrp g x).coef = d.coef := rfl
@[simp] theorem Dev.setGrp_taps (d : Dev) (g : Nat) (x : TwGrp) : (d.setGrp g x).taps = d.taps := rfl
@[simp] theorem Dev.setGrp_insts (d : Dev) (g : Nat) (x : TwGrp) : (d.setGrp g x).insts = d.insts := rfl
@[simp] theorem Dev.setGrp_svPart (d : Dev) (g : Nat) (x : TwGrp) : (d.setGrp g x).svPart = d.svPart := rfl
@[simp] theorem Dev.setGrp_svIn (d : Dev) (g : Nat) (x : TwGrp) : (d.setGrp g x).svIn = d.svIn := rfl
@[simp] theorem Dev.setGrp_fr (d : Dev) (g : Nat) (x : TwGrp) : (d.setGrp g x).fr = d.fr := rfl
@[simp] theorem Dev.setGrp_svi (d : Dev) (g : Nat) (x : TwGrp) : (d.setGrp g x).svi = d.svi := rfl
@[simp] theorem Dev.setGrp_seam (d : Dev) (g : Nat) (x : TwGrp) : (d.setGrp g x).seam = d.seam := rfl
@[simp] theorem Dev.setGrp_fio (d : Dev) (g : Nat) (x : TwGrp) : (d.setGrp g x).fio = d.fio := rfl
@[simp] theorem Dev.setGrp_asy (d : Dev) (g : Nat) (x : TwGrp) : (d.setGrp g x).asy = d.asy := rfl
@[simp] theorem Dev.setGrp_tlk (d : Dev) (g : Nat) (x : TwGrp) : (d.setGrp g x).tlk = d.tlk := rfl
@[simp] theorem Dev.setGrp_tly (d : Dev) (g : Nat) (x : TwGrp) : (d.setGrp g x).tly = d.tly := rfl
@[simp] theorem Dev.setGrp_net (d : Dev) (g : Nat) (x : TwGrp) : (d.setGrp g x).net = d.net := rfl
@[simp] theorem Dev.setGrp_recMem (d : Dev) (g : Nat) (x : TwGrp) : (d.setGrp g x).recMem = d.recMem := rfl
@[simp] theorem Dev.setGrp_bad (d : Dev) (g : Nat) (x : TwGrp) : (d.setGrp g x).bad = d.bad := rfl
@[simp] theorem Dev.setGrp_mov (d : Dev) (g : Nat) (x : TwGrp) : (d.setGrp g x).mov = d.mov := rfl
@[simp] theorem Dev.setGrp_pcie (d : Dev) (g : Nat) (x : TwGrp) : (d.setGrp g x).pcie = d.pcie := rfl
@[simp] theorem Dev.setGrp_field (d : Dev) (g : Nat) (x : TwGrp) : (d.setGrp g x).field = d.field := rfl
@[simp] theorem Dev.setGrp_opsec0 (d : Dev) (g : Nat) (x : TwGrp) : (d.setGrp g x).opsec0 = d.opsec0 := rfl
@[simp] theorem Dev.setGrp_fareaCnt (d : Dev) (g : Nat) (x : TwGrp) : (d.setGrp g x).fareaCnt = d.fareaCnt := rfl
@[simp] theorem Dev.setGrp_hfr (d : Dev) (g : Nat) (x : TwGrp) : (d.setGrp g x).hfr = d.hfr := rfl
@[simp] theorem Dev.setGrp_sage (d : Dev) (g : Nat) (x : TwGrp) : (d.setGrp g x).sage = d.sage := rfl
@[simp] theorem Dev.setGrp_halves (d : Dev) (g : Nat) (x : TwGrp) : (d.setGrp g x).halves = d.halves := rfl
@[simp] theorem Dev.setGrp_lockQ (d : Dev) (g : Nat) (x : TwGrp) : (d.setGrp g x).lockQ = d.lockQ := rfl
@[simp] theorem Dev.setGrp_lockSup (d : Dev) (g : Nat) (x : TwGrp) : (d.setGrp g x).lockSup = d.lockSup := rfl
@[simp] theorem Dev.setGrp_pps (d : Dev) (g : Nat) (x : TwGrp) : (d.setGrp g x).pps = d.pps := rfl
@[simp] theorem Dev.setGrp_nv (d : Dev) (g : Nat) (x : TwGrp) : (d.setGrp g x).nv = d.nv := rfl

/-! ### `Dev.setBank` writes `fio` alone -/

@[simp] theorem Dev.setBank_tsc (d : Dev) (n : Nat) (x : Bank) : (d.setBank n x).tsc = d.tsc := rfl
@[simp] theorem Dev.setBank_mode (d : Dev) (n : Nat) (x : Bank) : (d.setBank n x).mode = d.mode := rfl
@[simp] theorem Dev.setBank_regs (d : Dev) (n : Nat) (x : Bank) : (d.setBank n x).regs = d.regs := rfl
@[simp] theorem Dev.setBank_holding (d : Dev) (n : Nat) (x : Bank) : (d.setBank n x).holding = d.holding := rfl
@[simp] theorem Dev.setBank_shadow (d : Dev) (n : Nat) (x : Bank) : (d.setBank n x).shadow = d.shadow := rfl
@[simp] theorem Dev.setBank_fresh (d : Dev) (n : Nat) (x : Bank) : (d.setBank n x).fresh = d.fresh := rfl
@[simp] theorem Dev.setBank_wrHold (d : Dev) (n : Nat) (x : Bank) : (d.setBank n x).wrHold = d.wrHold := rfl
@[simp] theorem Dev.setBank_wrFresh (d : Dev) (n : Nat) (x : Bank) : (d.setBank n x).wrFresh = d.wrFresh := rfl
@[simp] theorem Dev.setBank_completions (d : Dev) (n : Nat) (x : Bank) : (d.setBank n x).completions = d.completions := rfl
@[simp] theorem Dev.setBank_out (d : Dev) (n : Nat) (x : Bank) : (d.setBank n x).out = d.out := rfl
@[simp] theorem Dev.setBank_free (d : Dev) (n : Nat) (x : Bank) : (d.setBank n x).free = d.free := rfl
@[simp] theorem Dev.setBank_recOrder (d : Dev) (n : Nat) (x : Bank) : (d.setBank n x).recOrder = d.recOrder := rfl
@[simp] theorem Dev.setBank_recq (d : Dev) (n : Nat) (x : Bank) : (d.setBank n x).recq = d.recq := rfl
@[simp] theorem Dev.setBank_skips (d : Dev) (n : Nat) (x : Bank) : (d.setBank n x).skips = d.skips := rfl
@[simp] theorem Dev.setBank_vecLast (d : Dev) (n : Nat) (x : Bank) : (d.setBank n x).vecLast = d.vecLast := rfl
@[simp] theorem Dev.setBank_clk (d : Dev) (n : Nat) (x : Bank) : (d.setBank n x).clk = d.clk := rfl
@[simp] theorem Dev.setBank_ang (d : Dev) (n : Nat) (x : Bank) : (d.setBank n x).ang = d.ang := rfl
@[simp] theorem Dev.setBank_afe (d : Dev) (n : Nat) (x : Bank) : (d.setBank n x).afe = d.afe := rfl
@[simp] theorem Dev.setBank_afeCh (d : Dev) (n : Nat) (x : Bank) : (d.setBank n x).afeCh = d.afeCh := rfl
@[simp] theorem Dev.setBank_aux (d : Dev) (n : Nat) (x : Bank) : (d.setBank n x).aux = d.aux := rfl
@[simp] theorem Dev.setBank_fltCh (d : Dev) (n : Nat) (x : Bank) : (d.setBank n x).fltCh = d.fltCh := rfl
@[simp] theorem Dev.setBank_coef (d : Dev) (n : Nat) (x : Bank) : (d.setBank n x).coef = d.coef := rfl
@[simp] theorem Dev.setBank_taps (d : Dev) (n : Nat) (x : Bank) : (d.setBank n x).taps = d.taps := rfl
@[simp] theorem Dev.setBank_insts (d : Dev) (n : Nat) (x : Bank) : (d.setBank n x).insts = d.insts := rfl
@[simp] theorem Dev.setBank_svPart (d : Dev) (n : Nat) (x : Bank) : (d.setBank n x).svPart = d.svPart := rfl
@[simp] theorem Dev.setBank_svIn (d : Dev) (n : Nat) (x : Bank) : (d.setBank n x).svIn = d.svIn := rfl
@[simp] theorem Dev.setBank_fr (d : Dev) (n : Nat) (x : Bank) : (d.setBank n x).fr = d.fr := rfl
@[simp] theorem Dev.setBank_svi (d : Dev) (n : Nat) (x : Bank) : (d.setBank n x).svi = d.svi := rfl
@[simp] theorem Dev.setBank_seam (d : Dev) (n : Nat) (x : Bank) : (d.setBank n x).seam = d.seam := rfl
@[simp] theorem Dev.setBank_twu (d : Dev) (n : Nat) (x : Bank) : (d.setBank n x).twu = d.twu := rfl
@[simp] theorem Dev.setBank_asy (d : Dev) (n : Nat) (x : Bank) : (d.setBank n x).asy = d.asy := rfl
@[simp] theorem Dev.setBank_tlk (d : Dev) (n : Nat) (x : Bank) : (d.setBank n x).tlk = d.tlk := rfl
@[simp] theorem Dev.setBank_tly (d : Dev) (n : Nat) (x : Bank) : (d.setBank n x).tly = d.tly := rfl
@[simp] theorem Dev.setBank_net (d : Dev) (n : Nat) (x : Bank) : (d.setBank n x).net = d.net := rfl
@[simp] theorem Dev.setBank_recMem (d : Dev) (n : Nat) (x : Bank) : (d.setBank n x).recMem = d.recMem := rfl
@[simp] theorem Dev.setBank_bad (d : Dev) (n : Nat) (x : Bank) : (d.setBank n x).bad = d.bad := rfl
@[simp] theorem Dev.setBank_mov (d : Dev) (n : Nat) (x : Bank) : (d.setBank n x).mov = d.mov := rfl
@[simp] theorem Dev.setBank_pcie (d : Dev) (n : Nat) (x : Bank) : (d.setBank n x).pcie = d.pcie := rfl
@[simp] theorem Dev.setBank_field (d : Dev) (n : Nat) (x : Bank) : (d.setBank n x).field = d.field := rfl
@[simp] theorem Dev.setBank_opsec0 (d : Dev) (n : Nat) (x : Bank) : (d.setBank n x).opsec0 = d.opsec0 := rfl
@[simp] theorem Dev.setBank_fareaCnt (d : Dev) (n : Nat) (x : Bank) : (d.setBank n x).fareaCnt = d.fareaCnt := rfl
@[simp] theorem Dev.setBank_hfr (d : Dev) (n : Nat) (x : Bank) : (d.setBank n x).hfr = d.hfr := rfl
@[simp] theorem Dev.setBank_sage (d : Dev) (n : Nat) (x : Bank) : (d.setBank n x).sage = d.sage := rfl
@[simp] theorem Dev.setBank_halves (d : Dev) (n : Nat) (x : Bank) : (d.setBank n x).halves = d.halves := rfl
@[simp] theorem Dev.setBank_lockQ (d : Dev) (n : Nat) (x : Bank) : (d.setBank n x).lockQ = d.lockQ := rfl
@[simp] theorem Dev.setBank_lockSup (d : Dev) (n : Nat) (x : Bank) : (d.setBank n x).lockSup = d.lockSup := rfl
@[simp] theorem Dev.setBank_pps (d : Dev) (n : Nat) (x : Bank) : (d.setBank n x).pps = d.pps := rfl
@[simp] theorem Dev.setBank_nv (d : Dev) (n : Nat) (x : Bank) : (d.setBank n x).nv = d.nv := rfl

/-! ### `Dev.setField` writes `field` alone -/

@[simp] theorem Dev.setField_tsc (d : Dev) (n : Nat) (x : Field) : (d.setField n x).tsc = d.tsc := rfl
@[simp] theorem Dev.setField_mode (d : Dev) (n : Nat) (x : Field) : (d.setField n x).mode = d.mode := rfl
@[simp] theorem Dev.setField_regs (d : Dev) (n : Nat) (x : Field) : (d.setField n x).regs = d.regs := rfl
@[simp] theorem Dev.setField_holding (d : Dev) (n : Nat) (x : Field) : (d.setField n x).holding = d.holding := rfl
@[simp] theorem Dev.setField_shadow (d : Dev) (n : Nat) (x : Field) : (d.setField n x).shadow = d.shadow := rfl
@[simp] theorem Dev.setField_fresh (d : Dev) (n : Nat) (x : Field) : (d.setField n x).fresh = d.fresh := rfl
@[simp] theorem Dev.setField_wrHold (d : Dev) (n : Nat) (x : Field) : (d.setField n x).wrHold = d.wrHold := rfl
@[simp] theorem Dev.setField_wrFresh (d : Dev) (n : Nat) (x : Field) : (d.setField n x).wrFresh = d.wrFresh := rfl
@[simp] theorem Dev.setField_completions (d : Dev) (n : Nat) (x : Field) : (d.setField n x).completions = d.completions := rfl
@[simp] theorem Dev.setField_out (d : Dev) (n : Nat) (x : Field) : (d.setField n x).out = d.out := rfl
@[simp] theorem Dev.setField_free (d : Dev) (n : Nat) (x : Field) : (d.setField n x).free = d.free := rfl
@[simp] theorem Dev.setField_recOrder (d : Dev) (n : Nat) (x : Field) : (d.setField n x).recOrder = d.recOrder := rfl
@[simp] theorem Dev.setField_recq (d : Dev) (n : Nat) (x : Field) : (d.setField n x).recq = d.recq := rfl
@[simp] theorem Dev.setField_skips (d : Dev) (n : Nat) (x : Field) : (d.setField n x).skips = d.skips := rfl
@[simp] theorem Dev.setField_vecLast (d : Dev) (n : Nat) (x : Field) : (d.setField n x).vecLast = d.vecLast := rfl
@[simp] theorem Dev.setField_clk (d : Dev) (n : Nat) (x : Field) : (d.setField n x).clk = d.clk := rfl
@[simp] theorem Dev.setField_ang (d : Dev) (n : Nat) (x : Field) : (d.setField n x).ang = d.ang := rfl
@[simp] theorem Dev.setField_afe (d : Dev) (n : Nat) (x : Field) : (d.setField n x).afe = d.afe := rfl
@[simp] theorem Dev.setField_afeCh (d : Dev) (n : Nat) (x : Field) : (d.setField n x).afeCh = d.afeCh := rfl
@[simp] theorem Dev.setField_aux (d : Dev) (n : Nat) (x : Field) : (d.setField n x).aux = d.aux := rfl
@[simp] theorem Dev.setField_fltCh (d : Dev) (n : Nat) (x : Field) : (d.setField n x).fltCh = d.fltCh := rfl
@[simp] theorem Dev.setField_coef (d : Dev) (n : Nat) (x : Field) : (d.setField n x).coef = d.coef := rfl
@[simp] theorem Dev.setField_taps (d : Dev) (n : Nat) (x : Field) : (d.setField n x).taps = d.taps := rfl
@[simp] theorem Dev.setField_insts (d : Dev) (n : Nat) (x : Field) : (d.setField n x).insts = d.insts := rfl
@[simp] theorem Dev.setField_svPart (d : Dev) (n : Nat) (x : Field) : (d.setField n x).svPart = d.svPart := rfl
@[simp] theorem Dev.setField_svIn (d : Dev) (n : Nat) (x : Field) : (d.setField n x).svIn = d.svIn := rfl
@[simp] theorem Dev.setField_fr (d : Dev) (n : Nat) (x : Field) : (d.setField n x).fr = d.fr := rfl
@[simp] theorem Dev.setField_svi (d : Dev) (n : Nat) (x : Field) : (d.setField n x).svi = d.svi := rfl
@[simp] theorem Dev.setField_seam (d : Dev) (n : Nat) (x : Field) : (d.setField n x).seam = d.seam := rfl
@[simp] theorem Dev.setField_twu (d : Dev) (n : Nat) (x : Field) : (d.setField n x).twu = d.twu := rfl
@[simp] theorem Dev.setField_fio (d : Dev) (n : Nat) (x : Field) : (d.setField n x).fio = d.fio := rfl
@[simp] theorem Dev.setField_asy (d : Dev) (n : Nat) (x : Field) : (d.setField n x).asy = d.asy := rfl
@[simp] theorem Dev.setField_tlk (d : Dev) (n : Nat) (x : Field) : (d.setField n x).tlk = d.tlk := rfl
@[simp] theorem Dev.setField_tly (d : Dev) (n : Nat) (x : Field) : (d.setField n x).tly = d.tly := rfl
@[simp] theorem Dev.setField_net (d : Dev) (n : Nat) (x : Field) : (d.setField n x).net = d.net := rfl
@[simp] theorem Dev.setField_recMem (d : Dev) (n : Nat) (x : Field) : (d.setField n x).recMem = d.recMem := rfl
@[simp] theorem Dev.setField_bad (d : Dev) (n : Nat) (x : Field) : (d.setField n x).bad = d.bad := rfl
@[simp] theorem Dev.setField_mov (d : Dev) (n : Nat) (x : Field) : (d.setField n x).mov = d.mov := rfl
@[simp] theorem Dev.setField_pcie (d : Dev) (n : Nat) (x : Field) : (d.setField n x).pcie = d.pcie := rfl
@[simp] theorem Dev.setField_opsec0 (d : Dev) (n : Nat) (x : Field) : (d.setField n x).opsec0 = d.opsec0 := rfl
@[simp] theorem Dev.setField_fareaCnt (d : Dev) (n : Nat) (x : Field) : (d.setField n x).fareaCnt = d.fareaCnt := rfl
@[simp] theorem Dev.setField_hfr (d : Dev) (n : Nat) (x : Field) : (d.setField n x).hfr = d.hfr := rfl
@[simp] theorem Dev.setField_sage (d : Dev) (n : Nat) (x : Field) : (d.setField n x).sage = d.sage := rfl
@[simp] theorem Dev.setField_halves (d : Dev) (n : Nat) (x : Field) : (d.setField n x).halves = d.halves := rfl
@[simp] theorem Dev.setField_lockQ (d : Dev) (n : Nat) (x : Field) : (d.setField n x).lockQ = d.lockQ := rfl
@[simp] theorem Dev.setField_lockSup (d : Dev) (n : Nat) (x : Field) : (d.setField n x).lockSup = d.lockSup := rfl
@[simp] theorem Dev.setField_pps (d : Dev) (n : Nat) (x : Field) : (d.setField n x).pps = d.pps := rfl
@[simp] theorem Dev.setField_nv (d : Dev) (n : Nat) (x : Field) : (d.setField n x).nv = d.nv := rfl

/-! ### `Dev.setAsy` writes `asy` alone -/

@[simp] theorem Dev.setAsy_tsc (d : Dev) (x : Assay) : (d.setAsy x).tsc = d.tsc := rfl
@[simp] theorem Dev.setAsy_mode (d : Dev) (x : Assay) : (d.setAsy x).mode = d.mode := rfl
@[simp] theorem Dev.setAsy_regs (d : Dev) (x : Assay) : (d.setAsy x).regs = d.regs := rfl
@[simp] theorem Dev.setAsy_holding (d : Dev) (x : Assay) : (d.setAsy x).holding = d.holding := rfl
@[simp] theorem Dev.setAsy_shadow (d : Dev) (x : Assay) : (d.setAsy x).shadow = d.shadow := rfl
@[simp] theorem Dev.setAsy_fresh (d : Dev) (x : Assay) : (d.setAsy x).fresh = d.fresh := rfl
@[simp] theorem Dev.setAsy_wrHold (d : Dev) (x : Assay) : (d.setAsy x).wrHold = d.wrHold := rfl
@[simp] theorem Dev.setAsy_wrFresh (d : Dev) (x : Assay) : (d.setAsy x).wrFresh = d.wrFresh := rfl
@[simp] theorem Dev.setAsy_completions (d : Dev) (x : Assay) : (d.setAsy x).completions = d.completions := rfl
@[simp] theorem Dev.setAsy_out (d : Dev) (x : Assay) : (d.setAsy x).out = d.out := rfl
@[simp] theorem Dev.setAsy_free (d : Dev) (x : Assay) : (d.setAsy x).free = d.free := rfl
@[simp] theorem Dev.setAsy_recOrder (d : Dev) (x : Assay) : (d.setAsy x).recOrder = d.recOrder := rfl
@[simp] theorem Dev.setAsy_recq (d : Dev) (x : Assay) : (d.setAsy x).recq = d.recq := rfl
@[simp] theorem Dev.setAsy_skips (d : Dev) (x : Assay) : (d.setAsy x).skips = d.skips := rfl
@[simp] theorem Dev.setAsy_vecLast (d : Dev) (x : Assay) : (d.setAsy x).vecLast = d.vecLast := rfl
@[simp] theorem Dev.setAsy_clk (d : Dev) (x : Assay) : (d.setAsy x).clk = d.clk := rfl
@[simp] theorem Dev.setAsy_ang (d : Dev) (x : Assay) : (d.setAsy x).ang = d.ang := rfl
@[simp] theorem Dev.setAsy_afe (d : Dev) (x : Assay) : (d.setAsy x).afe = d.afe := rfl
@[simp] theorem Dev.setAsy_afeCh (d : Dev) (x : Assay) : (d.setAsy x).afeCh = d.afeCh := rfl
@[simp] theorem Dev.setAsy_aux (d : Dev) (x : Assay) : (d.setAsy x).aux = d.aux := rfl
@[simp] theorem Dev.setAsy_fltCh (d : Dev) (x : Assay) : (d.setAsy x).fltCh = d.fltCh := rfl
@[simp] theorem Dev.setAsy_coef (d : Dev) (x : Assay) : (d.setAsy x).coef = d.coef := rfl
@[simp] theorem Dev.setAsy_taps (d : Dev) (x : Assay) : (d.setAsy x).taps = d.taps := rfl
@[simp] theorem Dev.setAsy_insts (d : Dev) (x : Assay) : (d.setAsy x).insts = d.insts := rfl
@[simp] theorem Dev.setAsy_svPart (d : Dev) (x : Assay) : (d.setAsy x).svPart = d.svPart := rfl
@[simp] theorem Dev.setAsy_svIn (d : Dev) (x : Assay) : (d.setAsy x).svIn = d.svIn := rfl
@[simp] theorem Dev.setAsy_fr (d : Dev) (x : Assay) : (d.setAsy x).fr = d.fr := rfl
@[simp] theorem Dev.setAsy_svi (d : Dev) (x : Assay) : (d.setAsy x).svi = d.svi := rfl
@[simp] theorem Dev.setAsy_seam (d : Dev) (x : Assay) : (d.setAsy x).seam = d.seam := rfl
@[simp] theorem Dev.setAsy_twu (d : Dev) (x : Assay) : (d.setAsy x).twu = d.twu := rfl
@[simp] theorem Dev.setAsy_fio (d : Dev) (x : Assay) : (d.setAsy x).fio = d.fio := rfl
@[simp] theorem Dev.setAsy_tlk (d : Dev) (x : Assay) : (d.setAsy x).tlk = d.tlk := rfl
@[simp] theorem Dev.setAsy_tly (d : Dev) (x : Assay) : (d.setAsy x).tly = d.tly := rfl
@[simp] theorem Dev.setAsy_net (d : Dev) (x : Assay) : (d.setAsy x).net = d.net := rfl
@[simp] theorem Dev.setAsy_recMem (d : Dev) (x : Assay) : (d.setAsy x).recMem = d.recMem := rfl
@[simp] theorem Dev.setAsy_bad (d : Dev) (x : Assay) : (d.setAsy x).bad = d.bad := rfl
@[simp] theorem Dev.setAsy_mov (d : Dev) (x : Assay) : (d.setAsy x).mov = d.mov := rfl
@[simp] theorem Dev.setAsy_pcie (d : Dev) (x : Assay) : (d.setAsy x).pcie = d.pcie := rfl
@[simp] theorem Dev.setAsy_field (d : Dev) (x : Assay) : (d.setAsy x).field = d.field := rfl
@[simp] theorem Dev.setAsy_opsec0 (d : Dev) (x : Assay) : (d.setAsy x).opsec0 = d.opsec0 := rfl
@[simp] theorem Dev.setAsy_fareaCnt (d : Dev) (x : Assay) : (d.setAsy x).fareaCnt = d.fareaCnt := rfl
@[simp] theorem Dev.setAsy_hfr (d : Dev) (x : Assay) : (d.setAsy x).hfr = d.hfr := rfl
@[simp] theorem Dev.setAsy_sage (d : Dev) (x : Assay) : (d.setAsy x).sage = d.sage := rfl
@[simp] theorem Dev.setAsy_halves (d : Dev) (x : Assay) : (d.setAsy x).halves = d.halves := rfl
@[simp] theorem Dev.setAsy_lockQ (d : Dev) (x : Assay) : (d.setAsy x).lockQ = d.lockQ := rfl
@[simp] theorem Dev.setAsy_lockSup (d : Dev) (x : Assay) : (d.setAsy x).lockSup = d.lockSup := rfl
@[simp] theorem Dev.setAsy_pps (d : Dev) (x : Assay) : (d.setAsy x).pps = d.pps := rfl
@[simp] theorem Dev.setAsy_nv (d : Dev) (x : Assay) : (d.setAsy x).nv = d.nv := rfl

/-! ### `Dev.setTlk` writes `tlk` alone -/

@[simp] theorem Dev.setTlk_tsc (d : Dev) (x : Tlk) : (d.setTlk x).tsc = d.tsc := rfl
@[simp] theorem Dev.setTlk_mode (d : Dev) (x : Tlk) : (d.setTlk x).mode = d.mode := rfl
@[simp] theorem Dev.setTlk_regs (d : Dev) (x : Tlk) : (d.setTlk x).regs = d.regs := rfl
@[simp] theorem Dev.setTlk_holding (d : Dev) (x : Tlk) : (d.setTlk x).holding = d.holding := rfl
@[simp] theorem Dev.setTlk_shadow (d : Dev) (x : Tlk) : (d.setTlk x).shadow = d.shadow := rfl
@[simp] theorem Dev.setTlk_fresh (d : Dev) (x : Tlk) : (d.setTlk x).fresh = d.fresh := rfl
@[simp] theorem Dev.setTlk_wrHold (d : Dev) (x : Tlk) : (d.setTlk x).wrHold = d.wrHold := rfl
@[simp] theorem Dev.setTlk_wrFresh (d : Dev) (x : Tlk) : (d.setTlk x).wrFresh = d.wrFresh := rfl
@[simp] theorem Dev.setTlk_completions (d : Dev) (x : Tlk) : (d.setTlk x).completions = d.completions := rfl
@[simp] theorem Dev.setTlk_out (d : Dev) (x : Tlk) : (d.setTlk x).out = d.out := rfl
@[simp] theorem Dev.setTlk_free (d : Dev) (x : Tlk) : (d.setTlk x).free = d.free := rfl
@[simp] theorem Dev.setTlk_recOrder (d : Dev) (x : Tlk) : (d.setTlk x).recOrder = d.recOrder := rfl
@[simp] theorem Dev.setTlk_recq (d : Dev) (x : Tlk) : (d.setTlk x).recq = d.recq := rfl
@[simp] theorem Dev.setTlk_skips (d : Dev) (x : Tlk) : (d.setTlk x).skips = d.skips := rfl
@[simp] theorem Dev.setTlk_vecLast (d : Dev) (x : Tlk) : (d.setTlk x).vecLast = d.vecLast := rfl
@[simp] theorem Dev.setTlk_clk (d : Dev) (x : Tlk) : (d.setTlk x).clk = d.clk := rfl
@[simp] theorem Dev.setTlk_ang (d : Dev) (x : Tlk) : (d.setTlk x).ang = d.ang := rfl
@[simp] theorem Dev.setTlk_afe (d : Dev) (x : Tlk) : (d.setTlk x).afe = d.afe := rfl
@[simp] theorem Dev.setTlk_afeCh (d : Dev) (x : Tlk) : (d.setTlk x).afeCh = d.afeCh := rfl
@[simp] theorem Dev.setTlk_aux (d : Dev) (x : Tlk) : (d.setTlk x).aux = d.aux := rfl
@[simp] theorem Dev.setTlk_fltCh (d : Dev) (x : Tlk) : (d.setTlk x).fltCh = d.fltCh := rfl
@[simp] theorem Dev.setTlk_coef (d : Dev) (x : Tlk) : (d.setTlk x).coef = d.coef := rfl
@[simp] theorem Dev.setTlk_taps (d : Dev) (x : Tlk) : (d.setTlk x).taps = d.taps := rfl
@[simp] theorem Dev.setTlk_insts (d : Dev) (x : Tlk) : (d.setTlk x).insts = d.insts := rfl
@[simp] theorem Dev.setTlk_svPart (d : Dev) (x : Tlk) : (d.setTlk x).svPart = d.svPart := rfl
@[simp] theorem Dev.setTlk_svIn (d : Dev) (x : Tlk) : (d.setTlk x).svIn = d.svIn := rfl
@[simp] theorem Dev.setTlk_fr (d : Dev) (x : Tlk) : (d.setTlk x).fr = d.fr := rfl
@[simp] theorem Dev.setTlk_svi (d : Dev) (x : Tlk) : (d.setTlk x).svi = d.svi := rfl
@[simp] theorem Dev.setTlk_seam (d : Dev) (x : Tlk) : (d.setTlk x).seam = d.seam := rfl
@[simp] theorem Dev.setTlk_twu (d : Dev) (x : Tlk) : (d.setTlk x).twu = d.twu := rfl
@[simp] theorem Dev.setTlk_fio (d : Dev) (x : Tlk) : (d.setTlk x).fio = d.fio := rfl
@[simp] theorem Dev.setTlk_asy (d : Dev) (x : Tlk) : (d.setTlk x).asy = d.asy := rfl
@[simp] theorem Dev.setTlk_tly (d : Dev) (x : Tlk) : (d.setTlk x).tly = d.tly := rfl
@[simp] theorem Dev.setTlk_net (d : Dev) (x : Tlk) : (d.setTlk x).net = d.net := rfl
@[simp] theorem Dev.setTlk_recMem (d : Dev) (x : Tlk) : (d.setTlk x).recMem = d.recMem := rfl
@[simp] theorem Dev.setTlk_bad (d : Dev) (x : Tlk) : (d.setTlk x).bad = d.bad := rfl
@[simp] theorem Dev.setTlk_mov (d : Dev) (x : Tlk) : (d.setTlk x).mov = d.mov := rfl
@[simp] theorem Dev.setTlk_pcie (d : Dev) (x : Tlk) : (d.setTlk x).pcie = d.pcie := rfl
@[simp] theorem Dev.setTlk_field (d : Dev) (x : Tlk) : (d.setTlk x).field = d.field := rfl
@[simp] theorem Dev.setTlk_opsec0 (d : Dev) (x : Tlk) : (d.setTlk x).opsec0 = d.opsec0 := rfl
@[simp] theorem Dev.setTlk_fareaCnt (d : Dev) (x : Tlk) : (d.setTlk x).fareaCnt = d.fareaCnt := rfl
@[simp] theorem Dev.setTlk_hfr (d : Dev) (x : Tlk) : (d.setTlk x).hfr = d.hfr := rfl
@[simp] theorem Dev.setTlk_sage (d : Dev) (x : Tlk) : (d.setTlk x).sage = d.sage := rfl
@[simp] theorem Dev.setTlk_halves (d : Dev) (x : Tlk) : (d.setTlk x).halves = d.halves := rfl
@[simp] theorem Dev.setTlk_lockQ (d : Dev) (x : Tlk) : (d.setTlk x).lockQ = d.lockQ := rfl
@[simp] theorem Dev.setTlk_lockSup (d : Dev) (x : Tlk) : (d.setTlk x).lockSup = d.lockSup := rfl
@[simp] theorem Dev.setTlk_pps (d : Dev) (x : Tlk) : (d.setTlk x).pps = d.pps := rfl
@[simp] theorem Dev.setTlk_nv (d : Dev) (x : Tlk) : (d.setTlk x).nv = d.nv := rfl

/-! ### `Dev.setTly` writes `tly` alone -/

@[simp] theorem Dev.setTly_tsc (d : Dev) (x : Tally) : (d.setTly x).tsc = d.tsc := rfl
@[simp] theorem Dev.setTly_mode (d : Dev) (x : Tally) : (d.setTly x).mode = d.mode := rfl
@[simp] theorem Dev.setTly_regs (d : Dev) (x : Tally) : (d.setTly x).regs = d.regs := rfl
@[simp] theorem Dev.setTly_holding (d : Dev) (x : Tally) : (d.setTly x).holding = d.holding := rfl
@[simp] theorem Dev.setTly_shadow (d : Dev) (x : Tally) : (d.setTly x).shadow = d.shadow := rfl
@[simp] theorem Dev.setTly_fresh (d : Dev) (x : Tally) : (d.setTly x).fresh = d.fresh := rfl
@[simp] theorem Dev.setTly_wrHold (d : Dev) (x : Tally) : (d.setTly x).wrHold = d.wrHold := rfl
@[simp] theorem Dev.setTly_wrFresh (d : Dev) (x : Tally) : (d.setTly x).wrFresh = d.wrFresh := rfl
@[simp] theorem Dev.setTly_completions (d : Dev) (x : Tally) : (d.setTly x).completions = d.completions := rfl
@[simp] theorem Dev.setTly_out (d : Dev) (x : Tally) : (d.setTly x).out = d.out := rfl
@[simp] theorem Dev.setTly_free (d : Dev) (x : Tally) : (d.setTly x).free = d.free := rfl
@[simp] theorem Dev.setTly_recOrder (d : Dev) (x : Tally) : (d.setTly x).recOrder = d.recOrder := rfl
@[simp] theorem Dev.setTly_recq (d : Dev) (x : Tally) : (d.setTly x).recq = d.recq := rfl
@[simp] theorem Dev.setTly_skips (d : Dev) (x : Tally) : (d.setTly x).skips = d.skips := rfl
@[simp] theorem Dev.setTly_vecLast (d : Dev) (x : Tally) : (d.setTly x).vecLast = d.vecLast := rfl
@[simp] theorem Dev.setTly_clk (d : Dev) (x : Tally) : (d.setTly x).clk = d.clk := rfl
@[simp] theorem Dev.setTly_ang (d : Dev) (x : Tally) : (d.setTly x).ang = d.ang := rfl
@[simp] theorem Dev.setTly_afe (d : Dev) (x : Tally) : (d.setTly x).afe = d.afe := rfl
@[simp] theorem Dev.setTly_afeCh (d : Dev) (x : Tally) : (d.setTly x).afeCh = d.afeCh := rfl
@[simp] theorem Dev.setTly_aux (d : Dev) (x : Tally) : (d.setTly x).aux = d.aux := rfl
@[simp] theorem Dev.setTly_fltCh (d : Dev) (x : Tally) : (d.setTly x).fltCh = d.fltCh := rfl
@[simp] theorem Dev.setTly_coef (d : Dev) (x : Tally) : (d.setTly x).coef = d.coef := rfl
@[simp] theorem Dev.setTly_taps (d : Dev) (x : Tally) : (d.setTly x).taps = d.taps := rfl
@[simp] theorem Dev.setTly_insts (d : Dev) (x : Tally) : (d.setTly x).insts = d.insts := rfl
@[simp] theorem Dev.setTly_svPart (d : Dev) (x : Tally) : (d.setTly x).svPart = d.svPart := rfl
@[simp] theorem Dev.setTly_svIn (d : Dev) (x : Tally) : (d.setTly x).svIn = d.svIn := rfl
@[simp] theorem Dev.setTly_fr (d : Dev) (x : Tally) : (d.setTly x).fr = d.fr := rfl
@[simp] theorem Dev.setTly_svi (d : Dev) (x : Tally) : (d.setTly x).svi = d.svi := rfl
@[simp] theorem Dev.setTly_seam (d : Dev) (x : Tally) : (d.setTly x).seam = d.seam := rfl
@[simp] theorem Dev.setTly_twu (d : Dev) (x : Tally) : (d.setTly x).twu = d.twu := rfl
@[simp] theorem Dev.setTly_fio (d : Dev) (x : Tally) : (d.setTly x).fio = d.fio := rfl
@[simp] theorem Dev.setTly_asy (d : Dev) (x : Tally) : (d.setTly x).asy = d.asy := rfl
@[simp] theorem Dev.setTly_tlk (d : Dev) (x : Tally) : (d.setTly x).tlk = d.tlk := rfl
@[simp] theorem Dev.setTly_net (d : Dev) (x : Tally) : (d.setTly x).net = d.net := rfl
@[simp] theorem Dev.setTly_recMem (d : Dev) (x : Tally) : (d.setTly x).recMem = d.recMem := rfl
@[simp] theorem Dev.setTly_bad (d : Dev) (x : Tally) : (d.setTly x).bad = d.bad := rfl
@[simp] theorem Dev.setTly_mov (d : Dev) (x : Tally) : (d.setTly x).mov = d.mov := rfl
@[simp] theorem Dev.setTly_pcie (d : Dev) (x : Tally) : (d.setTly x).pcie = d.pcie := rfl
@[simp] theorem Dev.setTly_field (d : Dev) (x : Tally) : (d.setTly x).field = d.field := rfl
@[simp] theorem Dev.setTly_opsec0 (d : Dev) (x : Tally) : (d.setTly x).opsec0 = d.opsec0 := rfl
@[simp] theorem Dev.setTly_fareaCnt (d : Dev) (x : Tally) : (d.setTly x).fareaCnt = d.fareaCnt := rfl
@[simp] theorem Dev.setTly_hfr (d : Dev) (x : Tally) : (d.setTly x).hfr = d.hfr := rfl
@[simp] theorem Dev.setTly_sage (d : Dev) (x : Tally) : (d.setTly x).sage = d.sage := rfl
@[simp] theorem Dev.setTly_halves (d : Dev) (x : Tally) : (d.setTly x).halves = d.halves := rfl
@[simp] theorem Dev.setTly_lockQ (d : Dev) (x : Tally) : (d.setTly x).lockQ = d.lockQ := rfl
@[simp] theorem Dev.setTly_lockSup (d : Dev) (x : Tally) : (d.setTly x).lockSup = d.lockSup := rfl
@[simp] theorem Dev.setTly_pps (d : Dev) (x : Tally) : (d.setTly x).pps = d.pps := rfl
@[simp] theorem Dev.setTly_nv (d : Dev) (x : Tally) : (d.setTly x).nv = d.nv := rfl

/-! ### `Dev.setTlyCh` writes `nv` alone -/

@[simp] theorem Dev.setTlyCh_tsc (d : Dev) (c : Nat) (x : TlyCh) : (d.setTlyCh c x).tsc = d.tsc := rfl
@[simp] theorem Dev.setTlyCh_mode (d : Dev) (c : Nat) (x : TlyCh) : (d.setTlyCh c x).mode = d.mode := rfl
@[simp] theorem Dev.setTlyCh_regs (d : Dev) (c : Nat) (x : TlyCh) : (d.setTlyCh c x).regs = d.regs := rfl
@[simp] theorem Dev.setTlyCh_holding (d : Dev) (c : Nat) (x : TlyCh) : (d.setTlyCh c x).holding = d.holding := rfl
@[simp] theorem Dev.setTlyCh_shadow (d : Dev) (c : Nat) (x : TlyCh) : (d.setTlyCh c x).shadow = d.shadow := rfl
@[simp] theorem Dev.setTlyCh_fresh (d : Dev) (c : Nat) (x : TlyCh) : (d.setTlyCh c x).fresh = d.fresh := rfl
@[simp] theorem Dev.setTlyCh_wrHold (d : Dev) (c : Nat) (x : TlyCh) : (d.setTlyCh c x).wrHold = d.wrHold := rfl
@[simp] theorem Dev.setTlyCh_wrFresh (d : Dev) (c : Nat) (x : TlyCh) : (d.setTlyCh c x).wrFresh = d.wrFresh := rfl
@[simp] theorem Dev.setTlyCh_completions (d : Dev) (c : Nat) (x : TlyCh) : (d.setTlyCh c x).completions = d.completions := rfl
@[simp] theorem Dev.setTlyCh_out (d : Dev) (c : Nat) (x : TlyCh) : (d.setTlyCh c x).out = d.out := rfl
@[simp] theorem Dev.setTlyCh_free (d : Dev) (c : Nat) (x : TlyCh) : (d.setTlyCh c x).free = d.free := rfl
@[simp] theorem Dev.setTlyCh_recOrder (d : Dev) (c : Nat) (x : TlyCh) : (d.setTlyCh c x).recOrder = d.recOrder := rfl
@[simp] theorem Dev.setTlyCh_recq (d : Dev) (c : Nat) (x : TlyCh) : (d.setTlyCh c x).recq = d.recq := rfl
@[simp] theorem Dev.setTlyCh_skips (d : Dev) (c : Nat) (x : TlyCh) : (d.setTlyCh c x).skips = d.skips := rfl
@[simp] theorem Dev.setTlyCh_vecLast (d : Dev) (c : Nat) (x : TlyCh) : (d.setTlyCh c x).vecLast = d.vecLast := rfl
@[simp] theorem Dev.setTlyCh_clk (d : Dev) (c : Nat) (x : TlyCh) : (d.setTlyCh c x).clk = d.clk := rfl
@[simp] theorem Dev.setTlyCh_ang (d : Dev) (c : Nat) (x : TlyCh) : (d.setTlyCh c x).ang = d.ang := rfl
@[simp] theorem Dev.setTlyCh_afe (d : Dev) (c : Nat) (x : TlyCh) : (d.setTlyCh c x).afe = d.afe := rfl
@[simp] theorem Dev.setTlyCh_afeCh (d : Dev) (c : Nat) (x : TlyCh) : (d.setTlyCh c x).afeCh = d.afeCh := rfl
@[simp] theorem Dev.setTlyCh_aux (d : Dev) (c : Nat) (x : TlyCh) : (d.setTlyCh c x).aux = d.aux := rfl
@[simp] theorem Dev.setTlyCh_fltCh (d : Dev) (c : Nat) (x : TlyCh) : (d.setTlyCh c x).fltCh = d.fltCh := rfl
@[simp] theorem Dev.setTlyCh_coef (d : Dev) (c : Nat) (x : TlyCh) : (d.setTlyCh c x).coef = d.coef := rfl
@[simp] theorem Dev.setTlyCh_taps (d : Dev) (c : Nat) (x : TlyCh) : (d.setTlyCh c x).taps = d.taps := rfl
@[simp] theorem Dev.setTlyCh_insts (d : Dev) (c : Nat) (x : TlyCh) : (d.setTlyCh c x).insts = d.insts := rfl
@[simp] theorem Dev.setTlyCh_svPart (d : Dev) (c : Nat) (x : TlyCh) : (d.setTlyCh c x).svPart = d.svPart := rfl
@[simp] theorem Dev.setTlyCh_svIn (d : Dev) (c : Nat) (x : TlyCh) : (d.setTlyCh c x).svIn = d.svIn := rfl
@[simp] theorem Dev.setTlyCh_fr (d : Dev) (c : Nat) (x : TlyCh) : (d.setTlyCh c x).fr = d.fr := rfl
@[simp] theorem Dev.setTlyCh_svi (d : Dev) (c : Nat) (x : TlyCh) : (d.setTlyCh c x).svi = d.svi := rfl
@[simp] theorem Dev.setTlyCh_seam (d : Dev) (c : Nat) (x : TlyCh) : (d.setTlyCh c x).seam = d.seam := rfl
@[simp] theorem Dev.setTlyCh_twu (d : Dev) (c : Nat) (x : TlyCh) : (d.setTlyCh c x).twu = d.twu := rfl
@[simp] theorem Dev.setTlyCh_fio (d : Dev) (c : Nat) (x : TlyCh) : (d.setTlyCh c x).fio = d.fio := rfl
@[simp] theorem Dev.setTlyCh_asy (d : Dev) (c : Nat) (x : TlyCh) : (d.setTlyCh c x).asy = d.asy := rfl
@[simp] theorem Dev.setTlyCh_tlk (d : Dev) (c : Nat) (x : TlyCh) : (d.setTlyCh c x).tlk = d.tlk := rfl
@[simp] theorem Dev.setTlyCh_tly (d : Dev) (c : Nat) (x : TlyCh) : (d.setTlyCh c x).tly = d.tly := rfl
@[simp] theorem Dev.setTlyCh_net (d : Dev) (c : Nat) (x : TlyCh) : (d.setTlyCh c x).net = d.net := rfl
@[simp] theorem Dev.setTlyCh_recMem (d : Dev) (c : Nat) (x : TlyCh) : (d.setTlyCh c x).recMem = d.recMem := rfl
@[simp] theorem Dev.setTlyCh_bad (d : Dev) (c : Nat) (x : TlyCh) : (d.setTlyCh c x).bad = d.bad := rfl
@[simp] theorem Dev.setTlyCh_mov (d : Dev) (c : Nat) (x : TlyCh) : (d.setTlyCh c x).mov = d.mov := rfl
@[simp] theorem Dev.setTlyCh_pcie (d : Dev) (c : Nat) (x : TlyCh) : (d.setTlyCh c x).pcie = d.pcie := rfl
@[simp] theorem Dev.setTlyCh_field (d : Dev) (c : Nat) (x : TlyCh) : (d.setTlyCh c x).field = d.field := rfl
@[simp] theorem Dev.setTlyCh_opsec0 (d : Dev) (c : Nat) (x : TlyCh) : (d.setTlyCh c x).opsec0 = d.opsec0 := rfl
@[simp] theorem Dev.setTlyCh_fareaCnt (d : Dev) (c : Nat) (x : TlyCh) : (d.setTlyCh c x).fareaCnt = d.fareaCnt := rfl
@[simp] theorem Dev.setTlyCh_hfr (d : Dev) (c : Nat) (x : TlyCh) : (d.setTlyCh c x).hfr = d.hfr := rfl
@[simp] theorem Dev.setTlyCh_sage (d : Dev) (c : Nat) (x : TlyCh) : (d.setTlyCh c x).sage = d.sage := rfl
@[simp] theorem Dev.setTlyCh_halves (d : Dev) (c : Nat) (x : TlyCh) : (d.setTlyCh c x).halves = d.halves := rfl
@[simp] theorem Dev.setTlyCh_lockQ (d : Dev) (c : Nat) (x : TlyCh) : (d.setTlyCh c x).lockQ = d.lockQ := rfl
@[simp] theorem Dev.setTlyCh_lockSup (d : Dev) (c : Nat) (x : TlyCh) : (d.setTlyCh c x).lockSup = d.lockSup := rfl
@[simp] theorem Dev.setTlyCh_pps (d : Dev) (c : Nat) (x : TlyCh) : (d.setTlyCh c x).pps = d.pps := rfl

/-! ### `Dev.setNet` writes `net` alone -/

@[simp] theorem Dev.setNet_tsc (d : Dev) (x : Net) : (d.setNet x).tsc = d.tsc := rfl
@[simp] theorem Dev.setNet_mode (d : Dev) (x : Net) : (d.setNet x).mode = d.mode := rfl
@[simp] theorem Dev.setNet_regs (d : Dev) (x : Net) : (d.setNet x).regs = d.regs := rfl
@[simp] theorem Dev.setNet_holding (d : Dev) (x : Net) : (d.setNet x).holding = d.holding := rfl
@[simp] theorem Dev.setNet_shadow (d : Dev) (x : Net) : (d.setNet x).shadow = d.shadow := rfl
@[simp] theorem Dev.setNet_fresh (d : Dev) (x : Net) : (d.setNet x).fresh = d.fresh := rfl
@[simp] theorem Dev.setNet_wrHold (d : Dev) (x : Net) : (d.setNet x).wrHold = d.wrHold := rfl
@[simp] theorem Dev.setNet_wrFresh (d : Dev) (x : Net) : (d.setNet x).wrFresh = d.wrFresh := rfl
@[simp] theorem Dev.setNet_completions (d : Dev) (x : Net) : (d.setNet x).completions = d.completions := rfl
@[simp] theorem Dev.setNet_out (d : Dev) (x : Net) : (d.setNet x).out = d.out := rfl
@[simp] theorem Dev.setNet_free (d : Dev) (x : Net) : (d.setNet x).free = d.free := rfl
@[simp] theorem Dev.setNet_recOrder (d : Dev) (x : Net) : (d.setNet x).recOrder = d.recOrder := rfl
@[simp] theorem Dev.setNet_recq (d : Dev) (x : Net) : (d.setNet x).recq = d.recq := rfl
@[simp] theorem Dev.setNet_skips (d : Dev) (x : Net) : (d.setNet x).skips = d.skips := rfl
@[simp] theorem Dev.setNet_vecLast (d : Dev) (x : Net) : (d.setNet x).vecLast = d.vecLast := rfl
@[simp] theorem Dev.setNet_clk (d : Dev) (x : Net) : (d.setNet x).clk = d.clk := rfl
@[simp] theorem Dev.setNet_ang (d : Dev) (x : Net) : (d.setNet x).ang = d.ang := rfl
@[simp] theorem Dev.setNet_afe (d : Dev) (x : Net) : (d.setNet x).afe = d.afe := rfl
@[simp] theorem Dev.setNet_afeCh (d : Dev) (x : Net) : (d.setNet x).afeCh = d.afeCh := rfl
@[simp] theorem Dev.setNet_aux (d : Dev) (x : Net) : (d.setNet x).aux = d.aux := rfl
@[simp] theorem Dev.setNet_fltCh (d : Dev) (x : Net) : (d.setNet x).fltCh = d.fltCh := rfl
@[simp] theorem Dev.setNet_coef (d : Dev) (x : Net) : (d.setNet x).coef = d.coef := rfl
@[simp] theorem Dev.setNet_taps (d : Dev) (x : Net) : (d.setNet x).taps = d.taps := rfl
@[simp] theorem Dev.setNet_insts (d : Dev) (x : Net) : (d.setNet x).insts = d.insts := rfl
@[simp] theorem Dev.setNet_svPart (d : Dev) (x : Net) : (d.setNet x).svPart = d.svPart := rfl
@[simp] theorem Dev.setNet_svIn (d : Dev) (x : Net) : (d.setNet x).svIn = d.svIn := rfl
@[simp] theorem Dev.setNet_fr (d : Dev) (x : Net) : (d.setNet x).fr = d.fr := rfl
@[simp] theorem Dev.setNet_svi (d : Dev) (x : Net) : (d.setNet x).svi = d.svi := rfl
@[simp] theorem Dev.setNet_seam (d : Dev) (x : Net) : (d.setNet x).seam = d.seam := rfl
@[simp] theorem Dev.setNet_twu (d : Dev) (x : Net) : (d.setNet x).twu = d.twu := rfl
@[simp] theorem Dev.setNet_fio (d : Dev) (x : Net) : (d.setNet x).fio = d.fio := rfl
@[simp] theorem Dev.setNet_asy (d : Dev) (x : Net) : (d.setNet x).asy = d.asy := rfl
@[simp] theorem Dev.setNet_tlk (d : Dev) (x : Net) : (d.setNet x).tlk = d.tlk := rfl
@[simp] theorem Dev.setNet_tly (d : Dev) (x : Net) : (d.setNet x).tly = d.tly := rfl
@[simp] theorem Dev.setNet_recMem (d : Dev) (x : Net) : (d.setNet x).recMem = d.recMem := rfl
@[simp] theorem Dev.setNet_bad (d : Dev) (x : Net) : (d.setNet x).bad = d.bad := rfl
@[simp] theorem Dev.setNet_mov (d : Dev) (x : Net) : (d.setNet x).mov = d.mov := rfl
@[simp] theorem Dev.setNet_pcie (d : Dev) (x : Net) : (d.setNet x).pcie = d.pcie := rfl
@[simp] theorem Dev.setNet_field (d : Dev) (x : Net) : (d.setNet x).field = d.field := rfl
@[simp] theorem Dev.setNet_opsec0 (d : Dev) (x : Net) : (d.setNet x).opsec0 = d.opsec0 := rfl
@[simp] theorem Dev.setNet_fareaCnt (d : Dev) (x : Net) : (d.setNet x).fareaCnt = d.fareaCnt := rfl
@[simp] theorem Dev.setNet_hfr (d : Dev) (x : Net) : (d.setNet x).hfr = d.hfr := rfl
@[simp] theorem Dev.setNet_sage (d : Dev) (x : Net) : (d.setNet x).sage = d.sage := rfl
@[simp] theorem Dev.setNet_halves (d : Dev) (x : Net) : (d.setNet x).halves = d.halves := rfl
@[simp] theorem Dev.setNet_lockQ (d : Dev) (x : Net) : (d.setNet x).lockQ = d.lockQ := rfl
@[simp] theorem Dev.setNet_lockSup (d : Dev) (x : Net) : (d.setNet x).lockSup = d.lockSup := rfl
@[simp] theorem Dev.setNet_pps (d : Dev) (x : Net) : (d.setNet x).pps = d.pps := rfl
@[simp] theorem Dev.setNet_nv (d : Dev) (x : Net) : (d.setNet x).nv = d.nv := rfl

/-! ### `Dev.setMover` writes `mov` alone -/

@[simp] theorem Dev.setMover_tsc (d : Dev) (m : Nat) (x : Mover) : (d.setMover m x).tsc = d.tsc := rfl
@[simp] theorem Dev.setMover_mode (d : Dev) (m : Nat) (x : Mover) : (d.setMover m x).mode = d.mode := rfl
@[simp] theorem Dev.setMover_regs (d : Dev) (m : Nat) (x : Mover) : (d.setMover m x).regs = d.regs := rfl
@[simp] theorem Dev.setMover_holding (d : Dev) (m : Nat) (x : Mover) : (d.setMover m x).holding = d.holding := rfl
@[simp] theorem Dev.setMover_shadow (d : Dev) (m : Nat) (x : Mover) : (d.setMover m x).shadow = d.shadow := rfl
@[simp] theorem Dev.setMover_fresh (d : Dev) (m : Nat) (x : Mover) : (d.setMover m x).fresh = d.fresh := rfl
@[simp] theorem Dev.setMover_wrHold (d : Dev) (m : Nat) (x : Mover) : (d.setMover m x).wrHold = d.wrHold := rfl
@[simp] theorem Dev.setMover_wrFresh (d : Dev) (m : Nat) (x : Mover) : (d.setMover m x).wrFresh = d.wrFresh := rfl
@[simp] theorem Dev.setMover_completions (d : Dev) (m : Nat) (x : Mover) : (d.setMover m x).completions = d.completions := rfl
@[simp] theorem Dev.setMover_out (d : Dev) (m : Nat) (x : Mover) : (d.setMover m x).out = d.out := rfl
@[simp] theorem Dev.setMover_free (d : Dev) (m : Nat) (x : Mover) : (d.setMover m x).free = d.free := rfl
@[simp] theorem Dev.setMover_recOrder (d : Dev) (m : Nat) (x : Mover) : (d.setMover m x).recOrder = d.recOrder := rfl
@[simp] theorem Dev.setMover_recq (d : Dev) (m : Nat) (x : Mover) : (d.setMover m x).recq = d.recq := rfl
@[simp] theorem Dev.setMover_skips (d : Dev) (m : Nat) (x : Mover) : (d.setMover m x).skips = d.skips := rfl
@[simp] theorem Dev.setMover_vecLast (d : Dev) (m : Nat) (x : Mover) : (d.setMover m x).vecLast = d.vecLast := rfl
@[simp] theorem Dev.setMover_clk (d : Dev) (m : Nat) (x : Mover) : (d.setMover m x).clk = d.clk := rfl
@[simp] theorem Dev.setMover_ang (d : Dev) (m : Nat) (x : Mover) : (d.setMover m x).ang = d.ang := rfl
@[simp] theorem Dev.setMover_afe (d : Dev) (m : Nat) (x : Mover) : (d.setMover m x).afe = d.afe := rfl
@[simp] theorem Dev.setMover_afeCh (d : Dev) (m : Nat) (x : Mover) : (d.setMover m x).afeCh = d.afeCh := rfl
@[simp] theorem Dev.setMover_aux (d : Dev) (m : Nat) (x : Mover) : (d.setMover m x).aux = d.aux := rfl
@[simp] theorem Dev.setMover_fltCh (d : Dev) (m : Nat) (x : Mover) : (d.setMover m x).fltCh = d.fltCh := rfl
@[simp] theorem Dev.setMover_coef (d : Dev) (m : Nat) (x : Mover) : (d.setMover m x).coef = d.coef := rfl
@[simp] theorem Dev.setMover_taps (d : Dev) (m : Nat) (x : Mover) : (d.setMover m x).taps = d.taps := rfl
@[simp] theorem Dev.setMover_insts (d : Dev) (m : Nat) (x : Mover) : (d.setMover m x).insts = d.insts := rfl
@[simp] theorem Dev.setMover_svPart (d : Dev) (m : Nat) (x : Mover) : (d.setMover m x).svPart = d.svPart := rfl
@[simp] theorem Dev.setMover_svIn (d : Dev) (m : Nat) (x : Mover) : (d.setMover m x).svIn = d.svIn := rfl
@[simp] theorem Dev.setMover_fr (d : Dev) (m : Nat) (x : Mover) : (d.setMover m x).fr = d.fr := rfl
@[simp] theorem Dev.setMover_svi (d : Dev) (m : Nat) (x : Mover) : (d.setMover m x).svi = d.svi := rfl
@[simp] theorem Dev.setMover_seam (d : Dev) (m : Nat) (x : Mover) : (d.setMover m x).seam = d.seam := rfl
@[simp] theorem Dev.setMover_twu (d : Dev) (m : Nat) (x : Mover) : (d.setMover m x).twu = d.twu := rfl
@[simp] theorem Dev.setMover_fio (d : Dev) (m : Nat) (x : Mover) : (d.setMover m x).fio = d.fio := rfl
@[simp] theorem Dev.setMover_asy (d : Dev) (m : Nat) (x : Mover) : (d.setMover m x).asy = d.asy := rfl
@[simp] theorem Dev.setMover_tlk (d : Dev) (m : Nat) (x : Mover) : (d.setMover m x).tlk = d.tlk := rfl
@[simp] theorem Dev.setMover_tly (d : Dev) (m : Nat) (x : Mover) : (d.setMover m x).tly = d.tly := rfl
@[simp] theorem Dev.setMover_net (d : Dev) (m : Nat) (x : Mover) : (d.setMover m x).net = d.net := rfl
@[simp] theorem Dev.setMover_recMem (d : Dev) (m : Nat) (x : Mover) : (d.setMover m x).recMem = d.recMem := rfl
@[simp] theorem Dev.setMover_bad (d : Dev) (m : Nat) (x : Mover) : (d.setMover m x).bad = d.bad := rfl
@[simp] theorem Dev.setMover_pcie (d : Dev) (m : Nat) (x : Mover) : (d.setMover m x).pcie = d.pcie := rfl
@[simp] theorem Dev.setMover_field (d : Dev) (m : Nat) (x : Mover) : (d.setMover m x).field = d.field := rfl
@[simp] theorem Dev.setMover_opsec0 (d : Dev) (m : Nat) (x : Mover) : (d.setMover m x).opsec0 = d.opsec0 := rfl
@[simp] theorem Dev.setMover_fareaCnt (d : Dev) (m : Nat) (x : Mover) : (d.setMover m x).fareaCnt = d.fareaCnt := rfl
@[simp] theorem Dev.setMover_hfr (d : Dev) (m : Nat) (x : Mover) : (d.setMover m x).hfr = d.hfr := rfl
@[simp] theorem Dev.setMover_sage (d : Dev) (m : Nat) (x : Mover) : (d.setMover m x).sage = d.sage := rfl
@[simp] theorem Dev.setMover_halves (d : Dev) (m : Nat) (x : Mover) : (d.setMover m x).halves = d.halves := rfl
@[simp] theorem Dev.setMover_lockQ (d : Dev) (m : Nat) (x : Mover) : (d.setMover m x).lockQ = d.lockQ := rfl
@[simp] theorem Dev.setMover_lockSup (d : Dev) (m : Nat) (x : Mover) : (d.setMover m x).lockSup = d.lockSup := rfl
@[simp] theorem Dev.setMover_pps (d : Dev) (m : Nat) (x : Mover) : (d.setMover m x).pps = d.pps := rfl
@[simp] theorem Dev.setMover_nv (d : Dev) (m : Nat) (x : Mover) : (d.setMover m x).nv = d.nv := rfl

/-! ### `Dev.setPcie` writes `pcie` alone -/

@[simp] theorem Dev.setPcie_tsc (d : Dev) (x : Pcie) : (d.setPcie x).tsc = d.tsc := rfl
@[simp] theorem Dev.setPcie_mode (d : Dev) (x : Pcie) : (d.setPcie x).mode = d.mode := rfl
@[simp] theorem Dev.setPcie_regs (d : Dev) (x : Pcie) : (d.setPcie x).regs = d.regs := rfl
@[simp] theorem Dev.setPcie_holding (d : Dev) (x : Pcie) : (d.setPcie x).holding = d.holding := rfl
@[simp] theorem Dev.setPcie_shadow (d : Dev) (x : Pcie) : (d.setPcie x).shadow = d.shadow := rfl
@[simp] theorem Dev.setPcie_fresh (d : Dev) (x : Pcie) : (d.setPcie x).fresh = d.fresh := rfl
@[simp] theorem Dev.setPcie_wrHold (d : Dev) (x : Pcie) : (d.setPcie x).wrHold = d.wrHold := rfl
@[simp] theorem Dev.setPcie_wrFresh (d : Dev) (x : Pcie) : (d.setPcie x).wrFresh = d.wrFresh := rfl
@[simp] theorem Dev.setPcie_completions (d : Dev) (x : Pcie) : (d.setPcie x).completions = d.completions := rfl
@[simp] theorem Dev.setPcie_out (d : Dev) (x : Pcie) : (d.setPcie x).out = d.out := rfl
@[simp] theorem Dev.setPcie_free (d : Dev) (x : Pcie) : (d.setPcie x).free = d.free := rfl
@[simp] theorem Dev.setPcie_recOrder (d : Dev) (x : Pcie) : (d.setPcie x).recOrder = d.recOrder := rfl
@[simp] theorem Dev.setPcie_recq (d : Dev) (x : Pcie) : (d.setPcie x).recq = d.recq := rfl
@[simp] theorem Dev.setPcie_skips (d : Dev) (x : Pcie) : (d.setPcie x).skips = d.skips := rfl
@[simp] theorem Dev.setPcie_vecLast (d : Dev) (x : Pcie) : (d.setPcie x).vecLast = d.vecLast := rfl
@[simp] theorem Dev.setPcie_clk (d : Dev) (x : Pcie) : (d.setPcie x).clk = d.clk := rfl
@[simp] theorem Dev.setPcie_ang (d : Dev) (x : Pcie) : (d.setPcie x).ang = d.ang := rfl
@[simp] theorem Dev.setPcie_afe (d : Dev) (x : Pcie) : (d.setPcie x).afe = d.afe := rfl
@[simp] theorem Dev.setPcie_afeCh (d : Dev) (x : Pcie) : (d.setPcie x).afeCh = d.afeCh := rfl
@[simp] theorem Dev.setPcie_aux (d : Dev) (x : Pcie) : (d.setPcie x).aux = d.aux := rfl
@[simp] theorem Dev.setPcie_fltCh (d : Dev) (x : Pcie) : (d.setPcie x).fltCh = d.fltCh := rfl
@[simp] theorem Dev.setPcie_coef (d : Dev) (x : Pcie) : (d.setPcie x).coef = d.coef := rfl
@[simp] theorem Dev.setPcie_taps (d : Dev) (x : Pcie) : (d.setPcie x).taps = d.taps := rfl
@[simp] theorem Dev.setPcie_insts (d : Dev) (x : Pcie) : (d.setPcie x).insts = d.insts := rfl
@[simp] theorem Dev.setPcie_svPart (d : Dev) (x : Pcie) : (d.setPcie x).svPart = d.svPart := rfl
@[simp] theorem Dev.setPcie_svIn (d : Dev) (x : Pcie) : (d.setPcie x).svIn = d.svIn := rfl
@[simp] theorem Dev.setPcie_fr (d : Dev) (x : Pcie) : (d.setPcie x).fr = d.fr := rfl
@[simp] theorem Dev.setPcie_svi (d : Dev) (x : Pcie) : (d.setPcie x).svi = d.svi := rfl
@[simp] theorem Dev.setPcie_seam (d : Dev) (x : Pcie) : (d.setPcie x).seam = d.seam := rfl
@[simp] theorem Dev.setPcie_twu (d : Dev) (x : Pcie) : (d.setPcie x).twu = d.twu := rfl
@[simp] theorem Dev.setPcie_fio (d : Dev) (x : Pcie) : (d.setPcie x).fio = d.fio := rfl
@[simp] theorem Dev.setPcie_asy (d : Dev) (x : Pcie) : (d.setPcie x).asy = d.asy := rfl
@[simp] theorem Dev.setPcie_tlk (d : Dev) (x : Pcie) : (d.setPcie x).tlk = d.tlk := rfl
@[simp] theorem Dev.setPcie_tly (d : Dev) (x : Pcie) : (d.setPcie x).tly = d.tly := rfl
@[simp] theorem Dev.setPcie_net (d : Dev) (x : Pcie) : (d.setPcie x).net = d.net := rfl
@[simp] theorem Dev.setPcie_recMem (d : Dev) (x : Pcie) : (d.setPcie x).recMem = d.recMem := rfl
@[simp] theorem Dev.setPcie_bad (d : Dev) (x : Pcie) : (d.setPcie x).bad = d.bad := rfl
@[simp] theorem Dev.setPcie_mov (d : Dev) (x : Pcie) : (d.setPcie x).mov = d.mov := rfl
@[simp] theorem Dev.setPcie_field (d : Dev) (x : Pcie) : (d.setPcie x).field = d.field := rfl
@[simp] theorem Dev.setPcie_opsec0 (d : Dev) (x : Pcie) : (d.setPcie x).opsec0 = d.opsec0 := rfl
@[simp] theorem Dev.setPcie_fareaCnt (d : Dev) (x : Pcie) : (d.setPcie x).fareaCnt = d.fareaCnt := rfl
@[simp] theorem Dev.setPcie_hfr (d : Dev) (x : Pcie) : (d.setPcie x).hfr = d.hfr := rfl
@[simp] theorem Dev.setPcie_sage (d : Dev) (x : Pcie) : (d.setPcie x).sage = d.sage := rfl
@[simp] theorem Dev.setPcie_halves (d : Dev) (x : Pcie) : (d.setPcie x).halves = d.halves := rfl
@[simp] theorem Dev.setPcie_lockQ (d : Dev) (x : Pcie) : (d.setPcie x).lockQ = d.lockQ := rfl
@[simp] theorem Dev.setPcie_lockSup (d : Dev) (x : Pcie) : (d.setPcie x).lockSup = d.lockSup := rfl
@[simp] theorem Dev.setPcie_pps (d : Dev) (x : Pcie) : (d.setPcie x).pps = d.pps := rfl
@[simp] theorem Dev.setPcie_nv (d : Dev) (x : Pcie) : (d.setPcie x).nv = d.nv := rfl

/-! ### `Dev.setHalf` writes `halves` alone -/

@[simp] theorem Dev.setHalf_tsc (d : Dev) (h : Half) (x : HalfSt) : (d.setHalf h x).tsc = d.tsc := rfl
@[simp] theorem Dev.setHalf_mode (d : Dev) (h : Half) (x : HalfSt) : (d.setHalf h x).mode = d.mode := rfl
@[simp] theorem Dev.setHalf_regs (d : Dev) (h : Half) (x : HalfSt) : (d.setHalf h x).regs = d.regs := rfl
@[simp] theorem Dev.setHalf_holding (d : Dev) (h : Half) (x : HalfSt) : (d.setHalf h x).holding = d.holding := rfl
@[simp] theorem Dev.setHalf_shadow (d : Dev) (h : Half) (x : HalfSt) : (d.setHalf h x).shadow = d.shadow := rfl
@[simp] theorem Dev.setHalf_fresh (d : Dev) (h : Half) (x : HalfSt) : (d.setHalf h x).fresh = d.fresh := rfl
@[simp] theorem Dev.setHalf_wrHold (d : Dev) (h : Half) (x : HalfSt) : (d.setHalf h x).wrHold = d.wrHold := rfl
@[simp] theorem Dev.setHalf_wrFresh (d : Dev) (h : Half) (x : HalfSt) : (d.setHalf h x).wrFresh = d.wrFresh := rfl
@[simp] theorem Dev.setHalf_completions (d : Dev) (h : Half) (x : HalfSt) : (d.setHalf h x).completions = d.completions := rfl
@[simp] theorem Dev.setHalf_out (d : Dev) (h : Half) (x : HalfSt) : (d.setHalf h x).out = d.out := rfl
@[simp] theorem Dev.setHalf_free (d : Dev) (h : Half) (x : HalfSt) : (d.setHalf h x).free = d.free := rfl
@[simp] theorem Dev.setHalf_recOrder (d : Dev) (h : Half) (x : HalfSt) : (d.setHalf h x).recOrder = d.recOrder := rfl
@[simp] theorem Dev.setHalf_recq (d : Dev) (h : Half) (x : HalfSt) : (d.setHalf h x).recq = d.recq := rfl
@[simp] theorem Dev.setHalf_skips (d : Dev) (h : Half) (x : HalfSt) : (d.setHalf h x).skips = d.skips := rfl
@[simp] theorem Dev.setHalf_vecLast (d : Dev) (h : Half) (x : HalfSt) : (d.setHalf h x).vecLast = d.vecLast := rfl
@[simp] theorem Dev.setHalf_clk (d : Dev) (h : Half) (x : HalfSt) : (d.setHalf h x).clk = d.clk := rfl
@[simp] theorem Dev.setHalf_ang (d : Dev) (h : Half) (x : HalfSt) : (d.setHalf h x).ang = d.ang := rfl
@[simp] theorem Dev.setHalf_afe (d : Dev) (h : Half) (x : HalfSt) : (d.setHalf h x).afe = d.afe := rfl
@[simp] theorem Dev.setHalf_afeCh (d : Dev) (h : Half) (x : HalfSt) : (d.setHalf h x).afeCh = d.afeCh := rfl
@[simp] theorem Dev.setHalf_aux (d : Dev) (h : Half) (x : HalfSt) : (d.setHalf h x).aux = d.aux := rfl
@[simp] theorem Dev.setHalf_fltCh (d : Dev) (h : Half) (x : HalfSt) : (d.setHalf h x).fltCh = d.fltCh := rfl
@[simp] theorem Dev.setHalf_coef (d : Dev) (h : Half) (x : HalfSt) : (d.setHalf h x).coef = d.coef := rfl
@[simp] theorem Dev.setHalf_taps (d : Dev) (h : Half) (x : HalfSt) : (d.setHalf h x).taps = d.taps := rfl
@[simp] theorem Dev.setHalf_insts (d : Dev) (h : Half) (x : HalfSt) : (d.setHalf h x).insts = d.insts := rfl
@[simp] theorem Dev.setHalf_svPart (d : Dev) (h : Half) (x : HalfSt) : (d.setHalf h x).svPart = d.svPart := rfl
@[simp] theorem Dev.setHalf_svIn (d : Dev) (h : Half) (x : HalfSt) : (d.setHalf h x).svIn = d.svIn := rfl
@[simp] theorem Dev.setHalf_fr (d : Dev) (h : Half) (x : HalfSt) : (d.setHalf h x).fr = d.fr := rfl
@[simp] theorem Dev.setHalf_svi (d : Dev) (h : Half) (x : HalfSt) : (d.setHalf h x).svi = d.svi := rfl
@[simp] theorem Dev.setHalf_seam (d : Dev) (h : Half) (x : HalfSt) : (d.setHalf h x).seam = d.seam := rfl
@[simp] theorem Dev.setHalf_twu (d : Dev) (h : Half) (x : HalfSt) : (d.setHalf h x).twu = d.twu := rfl
@[simp] theorem Dev.setHalf_fio (d : Dev) (h : Half) (x : HalfSt) : (d.setHalf h x).fio = d.fio := rfl
@[simp] theorem Dev.setHalf_asy (d : Dev) (h : Half) (x : HalfSt) : (d.setHalf h x).asy = d.asy := rfl
@[simp] theorem Dev.setHalf_tlk (d : Dev) (h : Half) (x : HalfSt) : (d.setHalf h x).tlk = d.tlk := rfl
@[simp] theorem Dev.setHalf_tly (d : Dev) (h : Half) (x : HalfSt) : (d.setHalf h x).tly = d.tly := rfl
@[simp] theorem Dev.setHalf_net (d : Dev) (h : Half) (x : HalfSt) : (d.setHalf h x).net = d.net := rfl
@[simp] theorem Dev.setHalf_recMem (d : Dev) (h : Half) (x : HalfSt) : (d.setHalf h x).recMem = d.recMem := rfl
@[simp] theorem Dev.setHalf_bad (d : Dev) (h : Half) (x : HalfSt) : (d.setHalf h x).bad = d.bad := rfl
@[simp] theorem Dev.setHalf_mov (d : Dev) (h : Half) (x : HalfSt) : (d.setHalf h x).mov = d.mov := rfl
@[simp] theorem Dev.setHalf_pcie (d : Dev) (h : Half) (x : HalfSt) : (d.setHalf h x).pcie = d.pcie := rfl
@[simp] theorem Dev.setHalf_field (d : Dev) (h : Half) (x : HalfSt) : (d.setHalf h x).field = d.field := rfl
@[simp] theorem Dev.setHalf_opsec0 (d : Dev) (h : Half) (x : HalfSt) : (d.setHalf h x).opsec0 = d.opsec0 := rfl
@[simp] theorem Dev.setHalf_fareaCnt (d : Dev) (h : Half) (x : HalfSt) : (d.setHalf h x).fareaCnt = d.fareaCnt := rfl
@[simp] theorem Dev.setHalf_hfr (d : Dev) (h : Half) (x : HalfSt) : (d.setHalf h x).hfr = d.hfr := rfl
@[simp] theorem Dev.setHalf_sage (d : Dev) (h : Half) (x : HalfSt) : (d.setHalf h x).sage = d.sage := rfl
@[simp] theorem Dev.setHalf_lockQ (d : Dev) (h : Half) (x : HalfSt) : (d.setHalf h x).lockQ = d.lockQ := rfl
@[simp] theorem Dev.setHalf_lockSup (d : Dev) (h : Half) (x : HalfSt) : (d.setHalf h x).lockSup = d.lockSup := rfl
@[simp] theorem Dev.setHalf_pps (d : Dev) (h : Half) (x : HalfSt) : (d.setHalf h x).pps = d.pps := rfl
@[simp] theorem Dev.setHalf_nv (d : Dev) (h : Half) (x : HalfSt) : (d.setHalf h x).nv = d.nv := rfl

/-! ### What an update puts there -/

@[simp] theorem Dev.setAux_aux (d : Dev) (x : Aux) : (d.setAux x).aux = x := rfl
@[simp] theorem Dev.setSeam_seam (d : Dev) (x : Seam) : (d.setSeam x).seam = x := rfl
@[simp] theorem Dev.setAsy_asy (d : Dev) (x : Assay) : (d.setAsy x).asy = x := rfl
@[simp] theorem Dev.setTlk_tlk (d : Dev) (x : Tlk) : (d.setTlk x).tlk = x := rfl
@[simp] theorem Dev.setTly_tly (d : Dev) (x : Tally) : (d.setTly x).tly = x := rfl
@[simp] theorem Dev.setNet_net (d : Dev) (x : Net) : (d.setNet x).net = x := rfl
@[simp] theorem Dev.setPcie_pcie (d : Dev) (x : Pcie) : (d.setPcie x).pcie = x := rfl

@[simp] theorem Dev.skip_setSkip (d : Dev) (n : Nat) (x : Skip) : (d.setSkip n x).skip n = x := SMap.getD_set_same _ _ _ _
theorem Dev.skip_setSkip_of_ne (d : Dev) {n j : Nat} (x : Skip) (h : j ≠ n) : (d.setSkip n x).skip j = d.skip j := SMap.getD_set_of_ne _ _ _ h
@[simp] theorem Dev.angle_setAngle (d : Dev) (n : Nat) (x : Ang) : (d.setAngle n x).angle n = x := SMap.getD_set_same _ _ _ _
theorem Dev.angle_setAngle_of_ne (d : Dev) {n j : Nat} (x : Ang) (h : j ≠ n) : (d.setAngle n x).angle j = d.angle j := SMap.getD_set_of_ne _ _ _ h
@[simp] theorem Dev.afeChan_setAfeChan (d : Dev) (c : Nat) (x : AfeCh) : (d.setAfeChan c x).afeChan c = x := SMap.getD_set_same _ _ _ _
theorem Dev.afeChan_setAfeChan_of_ne (d : Dev) {c j : Nat} (x : AfeCh) (h : j ≠ c) : (d.setAfeChan c x).afeChan j = d.afeChan j := SMap.getD_set_of_ne _ _ _ h
@[simp] theorem Dev.chain_setChain (d : Dev) (c : Nat) (x : FltCh) : (d.setChain c x).chain c = x := SMap.getD_set_same _ _ _ _
theorem Dev.chain_setChain_of_ne (d : Dev) {c j : Nat} (x : FltCh) (h : j ≠ c) : (d.setChain c x).chain j = d.chain j := SMap.getD_set_of_ne _ _ _ h
@[simp] theorem Dev.sub_setSub (d : Dev) (i : Nat) (x : SvSub) : (d.setSub i x).sub i = x := SMap.getD_set_same _ _ _ _
theorem Dev.sub_setSub_of_ne (d : Dev) {i j : Nat} (x : SvSub) (h : j ≠ i) : (d.setSub i x).sub j = d.sub j := SMap.getD_set_of_ne _ _ _ h
@[simp] theorem Dev.grp_setGrp (d : Dev) (g : Nat) (x : TwGrp) : (d.setGrp g x).grp g = x := SMap.getD_set_same _ _ _ _
theorem Dev.grp_setGrp_of_ne (d : Dev) {g j : Nat} (x : TwGrp) (h : j ≠ g) : (d.setGrp g x).grp j = d.grp j := SMap.getD_set_of_ne _ _ _ h
@[simp] theorem Dev.bank_setBank (d : Dev) (n : Nat) (x : Bank) : (d.setBank n x).bank n = x := SMap.getD_set_same _ _ _ _
theorem Dev.bank_setBank_of_ne (d : Dev) {n j : Nat} (x : Bank) (h : j ≠ n) : (d.setBank n x).bank j = d.bank j := SMap.getD_set_of_ne _ _ _ h
@[simp] theorem Dev.fieldSide_setField (d : Dev) (n : Nat) (x : Field) : (d.setField n x).fieldSide n = x := SMap.getD_set_same _ _ _ _
theorem Dev.fieldSide_setField_of_ne (d : Dev) {n j : Nat} (x : Field) (h : j ≠ n) : (d.setField n x).fieldSide j = d.fieldSide j := SMap.getD_set_of_ne _ _ _ h
@[simp] theorem Dev.tlyCh_setTlyCh (d : Dev) (c : Nat) (x : TlyCh) : (d.setTlyCh c x).tlyCh c = x := SMap.getD_set_same _ _ _ _
theorem Dev.tlyCh_setTlyCh_of_ne (d : Dev) {c j : Nat} (x : TlyCh) (h : j ≠ c) : (d.setTlyCh c x).tlyCh j = d.tlyCh j := SMap.getD_set_of_ne _ _ _ h
@[simp] theorem Dev.mover_setMover (d : Dev) (m : Nat) (x : Mover) : (d.setMover m x).mover m = x := SMap.getD_set_same _ _ _ _
theorem Dev.mover_setMover_of_ne (d : Dev) {m j : Nat} (x : Mover) (h : j ≠ m) : (d.setMover m x).mover j = d.mover j := SMap.getD_set_of_ne _ _ _ h

/-! ### What reads of one part do not see -/

@[simp] theorem Dev.setF_skip (d : Dev) (f : Fld) (i v : Nat) (n : Nat) : (d.setF f i v).skip n = d.skip n := rfl
@[simp] theorem Dev.setF_angle (d : Dev) (f : Fld) (i v : Nat) (n : Nat) : (d.setF f i v).angle n = d.angle n := rfl
@[simp] theorem Dev.setF_afeChan (d : Dev) (f : Fld) (i v : Nat) (n : Nat) : (d.setF f i v).afeChan n = d.afeChan n := rfl
@[simp] theorem Dev.setF_chain (d : Dev) (f : Fld) (i v : Nat) (n : Nat) : (d.setF f i v).chain n = d.chain n := rfl
@[simp] theorem Dev.setF_sub (d : Dev) (f : Fld) (i v : Nat) (n : Nat) : (d.setF f i v).sub n = d.sub n := rfl
@[simp] theorem Dev.setF_grp (d : Dev) (f : Fld) (i v : Nat) (n : Nat) : (d.setF f i v).grp n = d.grp n := rfl
@[simp] theorem Dev.setF_bank (d : Dev) (f : Fld) (i v : Nat) (n : Nat) : (d.setF f i v).bank n = d.bank n := rfl
@[simp] theorem Dev.setF_fieldSide (d : Dev) (f : Fld) (i v : Nat) (n : Nat) : (d.setF f i v).fieldSide n = d.fieldSide n := rfl
@[simp] theorem Dev.setF_tlyCh (d : Dev) (f : Fld) (i v : Nat) (n : Nat) : (d.setF f i v).tlyCh n = d.tlyCh n := rfl
@[simp] theorem Dev.setF_mover (d : Dev) (f : Fld) (i v : Nat) (n : Nat) : (d.setF f i v).mover n = d.mover n := rfl
@[simp] theorem Dev.setF_half (d : Dev) (f : Fld) (i v : Nat) (h : Half) : (d.setF f i v).half h = d.half h := rfl
@[simp] theorem Dev.setF_calSeg (d : Dev) (f : Fld) (i v : Nat) : (d.setF f i v).calSeg = d.calSeg := rfl
@[simp] theorem Dev.setF_cal (d : Dev) (f : Fld) (i v : Nat) : (d.setF f i v).cal = d.cal := rfl
@[simp] theorem Dev.setF_calState (d : Dev) (f : Fld) (i v : Nat) : (d.setF f i v).calState = d.calState := rfl

/-! ### Field updates by `Dev.setF` -/

theorem Dev.setB_eq (d : Dev) (f : Fld) (i : Nat) (b : Bool) : d.setB f i b = d.setF f i b.toNat := rfl
theorem Dev.incF_eq (d : Dev) (f : Fld) (i : Nat) : d.incF f i = d.setF f i (min (d.getF f i + 1) (2 ^ f.len - 1)) := rfl
theorem Dev.incWrap_eq (d : Dev) (f : Fld) (i : Nat) : d.incWrap f i = d.setF f i (d.getF f i + 1) := rfl
theorem Dev.setBit_eq (d : Dev) (f : Fld) (i k : Nat) : d.setBit f i k = d.setF f i (d.getF f i ||| 2 ^ k) := rfl
theorem Dev.fire_eq (d : Dev) (v : Nat) : d.fire v = d.setBit F.DMA_PBA_PBA (v / 32) (v % 32) := rfl

/-! ### Running a command -/

/-- In every mode but OFF a command has its effect. -/
theorem State.up_on (s : State) (f : Dev → Dev) (h : s.dev.On) : s.up f = .next { s with dev := f s.dev } := by
  have hd : ¬s.dev.mode = .off := h
  simp [State.up, State.run, hd]

/-- In OFF it has none. -/
theorem State.up_off (s : State) (f : Dev → Dev) (h : s.dev.mode = .off) : s.up f = .next s := by simp [State.up, State.run, h]

theorem State.upWf_ok (s : State) (f : Dev → Dev) {ok : Bool} (h : ok = true) : s.upWf ok f = s.up f := if_pos h

theorem State.upWf_bad (s : State) (f : Dev → Dev) {ok : Bool} (h : ok = false) : s.upWf ok f = .fault .illFormed := if_neg (by simp [h])

end Sys2Proof.Machine
end

