-- ==== Sys2Proof/Laws/Words.lean ====
section
/-!
SUPPORT. Whole-word accesses bit by bit: masked writes, holding copies and reads that clear.
-/
namespace Sys2Proof.Machine

/-- A bit of a cut-out field. -/
theorem bits_testBit (v lo len k : Nat) (h : k < len) : (bits v lo len).testBit k = v.testBit (lo + k) := by
  simp [bits, Nat.testBit_mod_two_pow, Nat.testBit_div_two_pow, h, Nat.add_comm]

/-- A bit of a field under a masked write (R32). -/
theorem masked_testBit (f : Fld) (old mask payload k : Nat) (h : k < f.len) :
    (masked f old mask payload % 2 ^ f.len).testBit k = if mask.testBit (f.lo + k) then payload.testBit (f.lo + k) else old.testBit k := by
  have e : 2 ^ f.len - 1 - bits mask f.lo f.len = (2 ^ f.len - 1) - (bits mask f.lo f.len) := rfl
  have hb : bits mask f.lo f.len < 2 ^ f.len := Nat.mod_lt _ (by positivity)
  simp only [masked, Nat.testBit_mod_two_pow, h, decide_true, Bool.true_and, Nat.testBit_or, Nat.testBit_and, bits_testBit _ _ _ _ h]
  have : (2 ^ f.len - 1 - bits mask f.lo f.len).testBit k = !(mask.testBit (f.lo + k)) := by
    rw [show 2 ^ f.len - 1 - bits mask f.lo f.len = 2 ^ f.len - (bits mask f.lo f.len + 1) by omega]
    rw [Nat.testBit_two_pow_sub_succ hb, bits_testBit _ _ _ _ h]
    simp [h]
  rw [this]
  cases mask.testBit (f.lo + k) <;> simp

/-- A masked write as a store into every writable field. -/
theorem Dev.storeMasked_eq (d : Dev) (r : Reg) (i m p : Nat) :
    d.storeMasked r i m p = d.storeFlds r.desc.flds i (fun f => f.acc == .rw) (fun f v => masked f.fld v m p) := by
  simp [Dev.storeMasked, Dev.storeFlds]

/-- The mask of a control write, bit by bit. -/
theorem ctlMask_testBit (data : Dword) (n : Nat) (h : n < 16) : (ctlMask (data.setWidth 32)).testBit n = data.getLsbD (16 + n) := by
  simp only [ctlMask, bits_testBit _ _ _ _ h, BitVec.getLsbD, BitVec.toNat_setWidth, Nat.testBit_mod_two_pow]
  simp; omega

/-- The payload of a control write, bit by bit. -/
theorem ctlPayload_testBit (data : Dword) (n : Nat) (h : n < 16) : (ctlPayload (data.setWidth 32)).testBit n = data.getLsbD n := by
  simp only [ctlPayload, show (65536:Nat) = 2^16 by rfl, Nat.testBit_mod_two_pow, BitVec.getLsbD, BitVec.toNat_setWidth]
  simp [h]; omega

/-- An aligned 32-bit write is one word's write. -/
theorem Dev.busWrite_word (s : State) (req : Requester) (acc : Access) (data : Dword) (ring : Ring)
    (h1 : accessShape acc = .ok) (h2 : acc.size = 4) :
    s.dev.busWrite req acc data.toNat ring = s.dev.writeWord req acc.addr.toNat 4 (data.toNat % 2^32) ring := by
  unfold Dev.busWrite
  simp [h1, h2]

/-- Storing in the holding copy changes nothing else. -/
theorem Dev.holdFlds_holding (d : Dev) (l : List FldDesc) (i : Nat) (v : FldDesc → Nat → Nat) :
    (l.foldl (fun d f => if f.acc = .rw then { d with holding := SMap.set d.holding (f.fld.key i) (v f (d.held f.fld i)) } else d) d) =
     { d with holding := (l.foldl (fun d f => if f.acc = .rw then { d with holding := SMap.set d.holding (f.fld.key i) (v f (d.held f.fld i)) } else d) d).holding } := by
  induction l generalizing d with
  | nil => rfl
  | cons f l ih =>
    simp only [List.foldl_cons]
    split
    · rw [ih]
    · exact ih d

/-- A field that is not stored keeps its held value. -/
theorem Dev.holdFlds_other (d : Dev) (l : List FldDesc) (i : Nat) (v : FldDesc → Nat → Nat) (g : Fld) (h : ∀ f ∈ l, g.key i ≠ f.fld.key i) :
    (l.foldl (fun d f => if f.acc = .rw then { d with holding := SMap.set d.holding (f.fld.key i) (v f (d.held f.fld i)) } else d) d).held g i = d.held g i := by
  induction l generalizing d with
  | nil => rfl
  | cons f l ih =>
    simp only [List.foldl_cons]
    rw [ih _ fun f hf => h f (List.mem_cons_of_mem _ hf)]
    split
    · simp [Dev.held, Dev.getF, SMap.getD_set_of_ne _ _ _ (h f List.mem_cons_self)]
    · rfl

/-- A stored field holds what was stored. -/
theorem Dev.holdFlds_at (d : Dev) (l : List FldDesc) (i : Nat) (v : FldDesc → Nat → Nat) (f : FldDesc) (hf : f ∈ l) (hp : f.acc = .rw)
    (hn : (l.map fun f => f.fld.key i).Nodup) :
    (l.foldl (fun d f => if f.acc = .rw then { d with holding := SMap.set d.holding (f.fld.key i) (v f (d.held f.fld i)) } else d) d).held f.fld i = v f (d.held f.fld i) := by
  induction l generalizing d with
  | nil => cases hf
  | cons g l ih =>
    simp only [List.map_cons, List.nodup_cons, List.mem_map, not_exists, not_and] at hn
    simp only [List.foldl_cons]
    rcases List.mem_cons.mp hf with e | e
    · subst e
      rw [if_pos hp, Dev.holdFlds_other _ l i v f.fld fun x hx he => hn.1 x hx he.symm]
      simp [Dev.held]
    · rw [ih _ e hn.2]
      have hk : f.fld.key i ≠ g.fld.key i := hn.1 f e
      split
      · simp [Dev.held, Dev.getF, SMap.getD_set_of_ne _ _ _ hk]
      · rfl

/-- An aligned 32-bit read is one word's read. -/
theorem Dev.busRead_word (s : State) (req : Requester) (acc : Access) (h1 : accessShape acc = .ok) (h2 : acc.size = 4) :
    s.dev.busRead req acc = (s.dev.readWord req acc.addr.toNat 4).1.answer req (s.dev.readWord req acc.addr.toNat 4).2 false := by
  unfold Dev.busRead
  simp [h1, h2]

/-- A 32-bit access of the right shape is aligned. -/
theorem accessShape_aligned (acc : Access) (h1 : accessShape acc = .ok) (h2 : acc.size = 4) : acc.addr.toNat % 4 = 0 := by
  unfold accessShape at h1
  simp [h2] at h1
  split at h1
  · cases h1
  · simpa using h1

/-- A whole read's clearing, field by field (R39). -/
theorem Dev.readClear_word (d : Dev) (r : Reg) (i : Nat) : d.readClear r i 0 4 =
    r.desc.flds.foldl (fun d f => if (f.acc == .rcf || (f.acc == .rcv && decide ((f.fld.lo + f.fld.len - 1) / 8 < 4))) then
      d.setF f.fld i (if f.acc = .rcf then d.getF f.fld i - (d.getF f.fld i &&& (2^32-1) / 2 ^ f.fld.lo) else if r = .SKIP_HWM then (d.skip i).depth else 0) else d) d := by
  unfold Dev.readClear
  congr 1
  funext d f
  cases f.acc <;> simp

/-- A whole read's clearing as a store into the RC fields (R39). -/
theorem Dev.readClear_storeFlds (d : Dev) (r : Reg) (i : Nat) : d.readClear r i 0 4 =
    d.storeFlds r.desc.flds i (fun f => f.acc == .rcf || (f.acc == .rcv && decide ((f.fld.lo + f.fld.len - 1) / 8 < 4)))
     (fun f v => if f.acc = .rcf then v - (v &&& (2^32-1) / 2 ^ f.fld.lo) else if r = .SKIP_HWM then (d.skip i).depth else 0) := by
  rw [Dev.readClear_word, Dev.storeFlds]
  have : ∀ (l : List FldDesc) (e : Dev), e.skip i = d.skip i → 
    l.foldl (fun d f => if (f.acc == .rcf || (f.acc == .rcv && decide ((f.fld.lo + f.fld.len - 1) / 8 < 4))) then
      d.setF f.fld i (if f.acc = .rcf then d.getF f.fld i - (d.getF f.fld i &&& (2^32-1) / 2 ^ f.fld.lo) else if r = .SKIP_HWM then (d.skip i).depth else 0) else d) e
    = l.foldl (fun e f => if (f.acc == .rcf || (f.acc == .rcv && decide ((f.fld.lo + f.fld.len - 1) / 8 < 4))) then
      e.setF f.fld i (if f.acc = .rcf then e.getF f.fld i - (e.getF f.fld i &&& (2^32-1) / 2 ^ f.fld.lo) else if r = .SKIP_HWM then (d.skip i).depth else 0) else e) e := by
    intro l
    induction l with
    | nil => intros; rfl
    | cons f l ih =>
      intro e he
      simp only [List.foldl_cons, he]
      apply ih
      split
      · exact he
      · exact he
  exact this _ _ rfl

end Sys2Proof.Machine
end

