-- ==== Sys2Proof/Tests/Slice0.lean ====
section
/-!
SUPPORT. Tests of single commands on small devices, and for every statement a witness: a device and operands that meet a clause's
hypotheses, with what the command then gives.  Expected values come from the spec's rules and tables, worked out by hand.
-/
namespace Sys2Proof.Tests
open Sys2Proof Sys2Proof.Machine
set_option Elab.async false

/-- The device after a command, on an empty queue. -/
def after (c : Instr) (d : Dev) : Dev :=
  match exec c ⟨d, []⟩ with
  | .next t => t.dev
  | _ => d

/-- Whether a command stops on a device as ill-formed. -/
def stops (c : Instr) (d : Dev := {}) : Bool :=
  match exec c ⟨d, []⟩ with
  | .fault .illFormed => true
  | _ => false

/-- A device with register fields set. -/
def withF (d : Dev) (l : List (Fld × Nat × Nat)) : Dev := l.foldl (fun d x => d.setF x.1 x.2.1 x.2.2) d

/-- A device in a mode. -/
def inMode (m : Mode) (d : Dev := {}) : Dev := { d with mode := m }

/-- `Dev.Accepts` as a truth value. -/
def accepts (d : Dev) (req : Requester) (r : Reg) (i : Nat) (data : Word) : Bool :=
  decide (d.mode ≠ .off) && d.reqUp req && d.mayWrite req r i && !(r.desc.flds.any fun f => d.locked f && selects f.fld (ctlMask data)) &&
    decide (ctlMask data ≠ 0) && d.valuesOk r i (ctlMask data) (ctlPayload data)

/-- A 32-bit access. -/
def word32 (a : Nat) : Access := ⟨BitVec.ofNat 22 a, 4, false⟩

/-- A running skip with all its credits. -/
def runSkip (n : Nat) (d : Dev := {}) : Dev := d.setSkip n { st := .run, credits := skipCap n }

/-- The word of a masked write that sets the named fields of a register. -/
def setWord (l : List (Fld × Nat)) : Word :=
  BitVec.ofNat 32 ((l.map fun x => (2 ^ x.1.len - 1) * 2 ^ x.1.lo * 65536 + x.2 * 2 ^ x.1.lo).sum)

/-! ### Ill-formed operands: one command for each check of `Instr.wf` -/

theorem test_data_set_write_refuses_primary : stops (.dataSetWrite .headframe (word32 0x100000) 1 {}) = true := by decide +kernel
theorem test_data_clr_write_refuses_primary : stops (.dataClrWrite .headframe (word32 0x100000) 1 {}) = true := by decide +kernel
theorem test_data_tgl_write_refuses_primary : stops (.dataTglWrite .headframe (word32 0x100000) 1 {}) = true := by decide +kernel
theorem test_status_read_clear_refuses_peek : stops (.statusReadClear .host (word32 ((Reg.TRB_STICKY0).addrOf 0 + 0x2000))) = true := by decide +kernel
theorem test_pair_lo_read_refuses_hi : stops (.pairLoRead .host (word32 ((Reg.CLK_SNAP_TSC).addrOf 0 + 4))) = true := by decide +kernel
theorem test_pair_hi_read_refuses_lo : stops (.pairHiRead .host (word32 ((Reg.CLK_SNAP_TSC).addrOf 0))) = true := by decide +kernel
theorem test_pair_lo_write_refuses_hi : stops (.pairLoWrite .headframe (BitVec.ofNat 22 ((Reg.TWU_FARCAL).addrOf 0 + 4)) 0) = true := by decide +kernel
theorem test_pair_hi_write_refuses_lo : stops (.pairHiWrite .headframe (BitVec.ofNat 22 ((Reg.TWU_FARCAL).addrOf 0)) 0) = true := by decide +kernel
theorem test_pair_64_write_refuses_hi : stops (.pair64Write .headframe (BitVec.ofNat 22 ((Reg.TWU_FARCAL).addrOf 0 + 4)) 0) = true := by decide +kernel
theorem test_raw_block_boundary_refuses_short_block : stops (.rawBlockBoundary 0 []) = true := by decide +kernel
theorem test_bgc_update_refuses_no_factors : stops (.bgcUpdate 0 [] [] []) = true := by decide +kernel
theorem test_scrub_pass_end_refuses_odd_address : stops (.scrubPassEnd 0 [⟨4, 0, 1, .other⟩]) = true := by decide +kernel
theorem test_scrub_pass_end_refuses_nand_words : stops (.scrubPassEnd 7 [⟨0, 0, 1, .other⟩]) = true := by decide +kernel
theorem test_uplink_frame_refuses_few_pins : stops (.uplinkFrame 0 []) = true := by decide +kernel

/-! ### The block as a whole -/

theorem test_empty_queue_counts_one : ({ tsc := 6 } : Dev).idle.tsc = 7 ∧ (inMode .off { tsc := 6 }).idle.tsc = 6 := by decide +kernel
theorem witness_steps_of_canonical_memories : (({} : Dev).memoriesOk = true) ∧ (after .opsecStore {}).memoriesOk = true := by decide +kernel
theorem witness_permanent : (({ nv := { rows := [3], keys := [(0, ⟨[1], true, []⟩)] } } : Dev).keySlot 0).revoked = true ∧
    ((after .rollbackRaise { nv := { rows := [3], keys := [(0, ⟨[1], true, []⟩)] } }).keySlot 0).revoked = true := by decide +kernel
theorem witness_off_changes_nothing : Instr.timemark.actsInOff = false ∧ exec .timemark ⟨inMode .off, []⟩ = .next ⟨inMode .off, []⟩ := ⟨rfl, rfl⟩
theorem witness_stores_left_alone : Instr.timemark.touchesStores = false ∧ (after .timemark {}).recMem = [] := by decide +kernel

/-! ### Register accesses -/

theorem witness_control_write : let d : Dev := {}
    let a := word32 (Reg.NET_RLIM.addrOf 0)
    accessShape a = .ok ∧ mapped a.addr.toNat = some (.primary, .NET_RLIM, 0) ∧ Reg.NET_RLIM.setting = true ∧
      accepts d .headframe .NET_RLIM 0 0x00FF1255 = true ∧
      (after (.registerWrite .headframe a 0x00FF1255 {}) d).getF F.NET_RLIM_RATE 0 % 256 = 0x55 := by decide +kernel

theorem witness_control_write_empty_mask : let a := word32 (Reg.NET_RLIM.addrOf 0)
    ({} : Dev).mayWrite .headframe .NET_RLIM 0 = true ∧ (0x00001255 / 2 ^ 16 % 2 ^ 16 = 0) ∧ after (.registerWrite .headframe a 0x00001255 {}) {} = {} := by
  decide +kernel

theorem witness_composite_write : let a := word32 (Reg.ASY_MKPLO.addrOf 3)
    mapped a.addr.toNat = some (.primary, .ASY_MKPLO, 3) ∧ Reg.ASY_MKPLO.desc.commit = some .ASY_MKCTL ∧
      accepts {} .headframe .ASY_MKPLO 3 0xFFFF0012 = true ∧
      (after (.registerWrite .headframe a 0xFFFF0012 {}) {}).regs = [] := by decide +kernel

theorem witness_data_writes : let d := withF {} [(F.DMA_MXDAT_DATA, 1, 0x0F)]
    let a (o : Nat) := word32 (Reg.DMA_MXDAT.addrOf 1 + o)
    let v (c : Instr) := (after c d).getF F.DMA_MXDAT_DATA 1
    mapped (a 0).addr.toNat = some (.primary, .DMA_MXDAT, 1) ∧ mapped (a 0x4000).addr.toNat = some (.set, .DMA_MXDAT, 1) ∧
      mapped (a 0x8000).addr.toNat = some (.clr, .DMA_MXDAT, 1) ∧ mapped (a 0xC000).addr.toNat = some (.tgl, .DMA_MXDAT, 1) ∧
      v (.registerWrite .headframe (a 0) 0x3C {}) = 0x3C ∧ v (.dataSetWrite .headframe (a 0x4000) 0x3C {}) = 0x3F ∧
      v (.dataClrWrite .headframe (a 0x8000) 0x3C {}) = 0x03 ∧ v (.dataTglWrite .headframe (a 0xC000) 0x3C {}) = 0x33 := by decide +kernel

theorem witness_status_reads : let d := withF {} [(F.TRB_STICKY0_BUS_WIDTH, 0, 1)]
    let a (o : Nat) := word32 (Reg.TRB_STICKY0.addrOf 0 + o)
    mapped (a 0).addr.toNat = some (.primary, .TRB_STICKY0, 0) ∧ mapped (a 0x2000).addr.toNat = some (.peek, .TRB_STICKY0, 0) ∧
      (after (.statusReadClear .host (a 0)) d).getB F.TRB_STICKY0_BUS_WIDTH = false ∧
      (after (.registerRead .host (a 0x2000)) d).getB F.TRB_STICKY0_BUS_WIDTH = true ∧
      (after (.registerRead .host (a 0x2000)) d).completions = (after (.statusReadClear .host (a 0)) d).completions := by decide +kernel

theorem witness_skip_hwm_reloads_depth : let d := withF {} [(F.SKIP_HWM_HWM, 5, 9)]
    (after (.statusReadClear .host (word32 (Reg.SKIP_HWM.addrOf 5))) d).getF F.SKIP_HWM_HWM 5 = 0 := by decide +kernel

theorem witness_pair_reads : let d : Dev := { tsc := 0x500000007 }
    let lo := word32 (Reg.CLK_SNAP_TSC.addrOf 0)
    let hi := word32 (Reg.CLK_SNAP_TSC.addrOf 0 + 4)
    let e := withF d [(F.CLK_SNAP_TSC_TSC, 0, 0x500000007)]
    mapped lo.addr.toNat = some (.primary, .CLK_SNAP_TSC, 0) ∧ mapped hi.addr.toNat = some (.primary, .CLK_SNAP_TSC, 0) ∧
      lo.addr.toNat % 8 = 0 ∧ hi.addr.toNat % 8 = 4 ∧
      (after (.pairHiRead .host hi) (withF (after (.pairLoRead .host lo) e) [(F.CLK_SNAP_TSC_TSC, 0, 0)])).completions =
        [⟨.host, 7, false⟩, ⟨.host, 5, false⟩] := by decide +kernel

theorem witness_pair_writes : let a : BitVec 22 := BitVec.ofNat 22 (Reg.TWU_FARCAL.addrOf 0)
    mapped a.toNat = some (.primary, .TWU_FARCAL, 0) ∧ mapped (a + 4).toNat = some (.primary, .TWU_FARCAL, 0) ∧ a.toNat % 8 = 0 ∧ (a + 4).toNat % 8 = 4 ∧
      (after (.pairHiWrite .headframe (a + 4) 1) (after (.pairLoWrite .headframe a 2) {})).getF F.TWU_FARCAL_CAL = 0x100000002 ∧
      (after (.pairHiWrite .headframe (a + 4) 1) {}).bitF F.BLK_TEAR_TEAR 9 Reg.TWU_FARCAL.desc.tear = true ∧
      (after (.pair64Write .headframe a 0x300000004) {}).getF F.TWU_FARCAL_CAL = 0x300000004 := by decide +kernel

theorem witness_window_violation : let a := word32 (Reg.NET_RLIM.addrOf 0)
    ({} : Dev).mayWrite .host .NET_RLIM 0 = false ∧ (after (.registerWrite .host a 0x00FF1255 {}) {}).getB F.TRB_STICKY0_LOCK_VIOL = true ∧
      (after (.registerWrite .host a 0x00FF1255 {}) {}).getF F.TRB_LOCK_CNT_CNT = 1 := by decide +kernel

theorem witness_peek_writes : let a := word32 (Reg.NET_RLIM.addrOf 0 + 0x2000)
    mapped a.addr.toNat = some (.peek, .NET_RLIM, 0) ∧ after (.registerWrite .host a 0x00FF1255 {}) {} = {} ∧
      mapped (Reg.CLK_SNAP_TSC.addrOf 0 + 0x2000) = some (.peek, .CLK_SNAP_TSC, 0) ∧ Reg.CLK_SNAP_TSC.desc.cls = .pair ∧
      mapped (Reg.SYS_MBX.addrOf 0 + 0x2000) = some (.peek, .SYS_MBX, 0) ∧ mapped (Reg.SYS_MBX.addrOf 0 + 0x2004) = some (.peek, .SYS_MBX, 1) := by
  decide +kernel

theorem test_unmapped_address_is_reported : (after (.registerRead .host (word32 0x1F0000)) {}).getB F.TRB_STICKY0_BUS_UNMAP = true := by decide +kernel

/-! ### Skips -/

theorem witness_admitted_lumps : let d := runSkip 24 (runSkip 6)
    (d.skip 6).admits 6 (true && skipProt 6) = true ∧ (d.skip 24).admits 24 false = true ∧ d.srcOff 0x60 = false ∧ d.srcOff 0x180 = false ∧
      ((after (.lumpSend 6 0x60 true none 8 (.bytes [1])) d).skip 6).queue = [⟨⟨0, false, true, 0, 8, 0x60⟩, .bytes [1], 0⟩] ∧
      ((after (.lumpSend 6 0x60 true none 8 (.bytes [1])) d).skip 6).credits = 511 ∧
      ((after (.lumpSend 24 0x180 true (some 7) 8 .empty) d).skip 24).queue = [⟨⟨7, false, false, 0, 8, 0x180⟩, .empty, 0⟩] := by decide +kernel

theorem witness_retry_and_returns : let d := runSkip 24
    let l : Lump := ⟨⟨3, false, false, 0, 8, 0x180⟩, .bytes [1], 0⟩
    let w := d.setSkip 24 { d.skip 24 with waiting := [l] }
    let r := d.setSkip 24 { d.skip 24 with returning := [false, false, false, false], credits := 252 }
    let q := d.setSkip 24 { d.skip 24 with queue := [l], returning := [false, false, false, false], credits := 251 }
    (w.skip 24).waiting.find? (fun x => x.tag.src = 0x180) = some l ∧ ((after (.bulkStallRetry 24 0x180) w).skip 24).queue = [l] ∧
      ((after (.creditReturn 24) r).skip 24).credits = 253 ∧ ((after (.lumpReceive 24) q).skip 24).credits = 252 ∧
      ((after (.lumpReceive 24) q).skip 24).queue = [] := by decide +kernel

theorem test_fifth_credit_does_not_wait : let d := runSkip 24
    let l : Lump := ⟨⟨3, false, false, 0, 8, 0x180⟩, .bytes [1], 0⟩
    ((after (.lumpReceive 24) (d.setSkip 24 { d.skip 24 with queue := [l], returning := [false, false, false], credits := 252 })).skip 24).returning.length = 4 := by decide +kernel

theorem witness_balance : let d := runSkip 24
    (d.skip 24).credits + (d.skip 24).returning.length + (d.skip 24).depth = skipCap 24 ∧
      ((after (.lumpSend 24 0x180 false none 8 .empty) d).skip 24).credits + ((after (.lumpSend 24 0x180 false none 8 .empty) d).skip 24).depth = 256 := by
  decide +kernel

theorem witness_exhausted_stream : let d := (runSkip 0).setSkip 0 { (runSkip 0).skip 0 with credits := 0 }
    let e := after (.lumpSend 0 0x20 false none 8 .empty) d
    (d.skip 0).st = .run ∧ (d.skip 0).admits 0 false = false ∧ d.srcOff 0x20 = false ∧ e.getF F.SKIP_DROP_DROP 0 = 1 ∧ e.bitF F.SKIP_EXH_EXH 0 0 = true ∧
      ((e.skip 0).prod 0x20).gap = true ∧ ((e.skip 0).prod 0x20).lost = 1 := by decide +kernel

theorem test_protection_exhaustion_degrades : let d := inMode .protect ((runSkip 6).setSkip 6 { (runSkip 6).skip 6 with credits := 0 })
    (after (.lumpSend 6 0x60 false none 8 .empty) d).mode = .degraded := by decide +kernel

/-! ### Timebase, calendar and angle clocks -/

theorem witness_tcxo_gates : let d (bad good : Nat) (m : Nat) : Dev := withF { tsc := 2000000000, clk := { badGates := bad, goodGates := good, gate := 1000000000 } } [(F.CLK_TCXO_MISMATCH, 0, m)]
    (d 0 0 0).tsc % 1000000000 = 0 ∧ (d 0 0 0).clk.gate < (d 0 0 0).tsc ∧
      (after (.tcxoGate 2001) (d 0 0 0)).getB F.CLK_TCXO_MISMATCH = false ∧ (after (.tcxoGate 2001) (d 1 0 0)).getB F.CLK_TCXO_MISMATCH = true ∧
      (after (.tcxoGate 2001) (d 1 0 0)).getB F.TRB_STICKY0_TCXO_DIFF = true ∧ (after (.tcxoGate 2001) (d 2 0 1)).getB F.TRB_STICKY0_TCXO_DIFF = true ∧
      (after (.tcxoGate (-2000)) (d 0 0 1)).getB F.CLK_TCXO_MISMATCH = true ∧
      (after (.tcxoGate (-2000)) (d 0 1 1)).getB F.CLK_TCXO_MISMATCH = false ∧ (after (.tcxoGate (-2000)) (d 0 0 0)).getF F.CLK_TCXO_DIFF = 0xF830 := by decide +kernel

theorem test_tcxo_gate_ends_once : let d : Dev := { tsc := 2000000000 }
    after (.tcxoGate 2001) (after (.tcxoGate 2001) d) = after (.tcxoGate 2001) d := by decide +kernel

theorem witness_tcxo_loss : let d (a b : Bool) (m : Mode) : Dev := inMode m { clk := { aStopped := a, bStopped := b } }
    (after .tcxoALost (d false false .protect)).mode = .protect ∧ (after .tcxoALost (d false false .protect)).getF F.CLK_TCXO_ACTIVE = 1 ∧
      (after .tcxoALost (d false true .protect)).mode = .safe ∧ (after .tcxoALost (d false true .hold)).mode = .hold ∧
      (after .tcxoBLost (d false false .protect)).getB F.CLK_TCXO_B_LOST = true ∧ (after .tcxoBLost (d true false .boot)).mode = .safe := by decide +kernel

theorem witness_clk_snapshot : let d : Dev := { tsc := 1000 }
    let e := after (.clkSnapshot .headframe 0x00010001) d
    accepts d .headframe .CLK_SNAP_CTL 0 0x00010001 = true ∧ e.getF F.CLK_SNAP_TSC_TSC = 1000 ∧ e.getF F.CLK_SNAP_CAL_CAL = 1000 ∧
      e.getF F.CLK_SNAP_SEQ_SEQ = 1 := by decide +kernel

theorem witness_angle_conversion : let d : Dev := ({ tsc := 20000000 } : Dev).setAngle 0 { acc := 65536 * angUnit, cycles := [20000000, 0] }
    let e := after (.angleConversion .headframe (BitVec.ofNat 64 (2 * 65536))) d
    ({} : Dev).mayWrite .headframe .CLK_CONVA 0 = true ∧ e.getF F.CLK_CONV_STAT_KIND 0 = 1 ∧ e.getF F.CLK_CONVT_TSC 0 = 40000000 := by decide +kernel

theorem witness_timemark : let d : Dev := { runSkip 29 with tsc := 10000000000 }
    d.tsc % 10000000000 = 0 ∧ d.clk.mark < d.tsc ∧ ((after .timemark d).skip 29).depth = 1 ∧ after .timemark (after .timemark d) = after .timemark d := by
  decide +kernel

theorem witness_angle_clocks : let d (st : AngSt) : Dev := (withF { tsc := 20000000 } [(F.ANG_CTL_BIND, 2, 1), (F.ANG_VNOM_LO_VNOM_LO, 2, 1)]).setAngle 2 { st := st }
    (d .locked).getB F.ANG_CTL_BIND 2 = true ∧ (d .qualify).getF F.ANG_VNOM_LO_VNOM_LO 2 ≠ 0 ∧ inRange 0x320000 = true ∧ 65536000000000 ≤ ((d .qualify).tsc - ((d .qualify).angle 2).since) * 0x320000 ∧
      ((after (.angQualifyFail 2) (d .qualify)).angle 2).st = .freewheel ∧ ((after (.angQualifyFail 2) (d .acquire)).angle 2).st = .freewheel ∧
      ((after (.angQualified 2 0x320000) (d .qualify)).angle 2).st = .acquire ∧
      ((after (.angLocked 2 0x460000 5) (d .acquire)).angle 2) =
        { st := .locked, freq := 4587520, corr := 5 * angUnit, ref := 5 * angUnit, entryBoot := false } ∧
      ((after (.angFreewheel 2 .slip) (d .locked)).angle 2).cause = 4 ∧
      (after (.angFreewheel 2 .slip) (d .locked)).bitF F.ANG_STAT_LOSS 2 0 = true ∧
      ((after (.angFreewheel 2 .low) (d .qualify)).angle 2).st = .freewheel := by decide +kernel

theorem test_slip_arises_only_when_locked : let d : Dev := withF {} [(F.ANG_CTL_BIND, 2, 1)]
    after (.angFreewheel 2 .slip) d = d := by decide +kernel

theorem test_qualifying_lasts_one_cycle : let d : Dev := ({ tsc := 19999999 } : Dev).setAngle 2 { st := .qualify }
    after (.angQualified 2 0x320000) d = d := by decide +kernel

theorem test_half_turn_is_slewed_by_going_slower : let a : Ang := { st := .locked, corr := -32768 * angUnit }
    (a.advance 0 8).acc < 0x320000 * 8 * 65536 ∧ 0 < (a.advance 0 8).acc := by decide +kernel

/-! ### Analogue front end and auxiliary converter -/

theorem witness_raw_blocks : let d : Dev := ({} : Dev).setAfeChan 3 { released := true, first := 2048 }
    let dark := withF d [(F.AFE_CHSTAT_DARK, 3, 1)]
    let codes := List.replicate 1024 (0x7FFF : BitVec 16)
    d.afeRuns 3 = true ∧ (d.afeChan 3).released = true ∧ d.getB F.AFE_CHSTAT_DARK 3 = false ∧ dark.getB F.AFE_CHSTAT_DARK 3 = true ∧
      ((after (.rawBlockBoundary 3 codes) d).afeChan 3).first = 3072 ∧
      (after (.rawBlockBoundary 3 codes) d).bitF F.AFE_CLIP_CLIP 0 3 = true ∧
      (after (.rawBlockBoundary 3 codes) dark).bitF F.AFE_CLIP_CLIP 0 3 = false := by decide +kernel

theorem witness_release_boundary : let d : Dev := ({ tsc := 51201 } : Dev).setAfeChan 3 { relPend := true }
    let e := after (.rawBlockBoundary 3 (List.replicate 1024 0)) d
    d.afeRuns 3 = true ∧ (e.afeChan 3).released = true ∧ (e.afeChan 3).first = 2048 := by decide +kernel

theorem witness_bgc_update : let full (x : Nat) (k : Bool) : BgcWin := { blocks := 1024, sq := List.replicate 8 x, clip := k }
    let d (w : BgcWin) (n : Nat) : Dev := (withF {} [(F.AFE_BGC_EN, 0, 8)]).setAfeChan 3 { released := true, convRun := n, winDone := some w }
    let w : BgcWin := { full (2 ^ 50) false with sq := [2 ^ 50, 2 ^ 50 - 9, 2 ^ 50 + 9, 2 ^ 50] }
    let quiet := full 0 false
    let z : List Int := [0, 1, -1, 0]
    let big : List Int := [0, 2, 0, 0]
    let o : List Int := [0, 0, 0, 0]
    let run (x : Dev) (g : List Int) : Dev := after (.bgcUpdate 3 o g g) x
    bgcWf o z z = true ∧ (d w 7).afeRuns 3 = true ∧ (d w 7).bitF F.AFE_BGC_EN 0 3 = true ∧ w.hold = false ∧ quiet.hold = true ∧ (full (2 ^ 50) true).hold = true ∧
      w.calls 4 o z = true ∧ w.calls 4 o big = true ∧ w.calls 4 o [1, 0, 0, 0] = false ∧ quiet.calls 4 o o = true ∧
      (run (d w 7) z).converged.testBit 3 = true ∧ ((run (d w 7) z).afeChan 3).pendGain = z ∧
      ((run (d quiet 7) z).afeChan 3).pendGain = o ∧ (run (d quiet 7) z).bitF F.AFE_BGC_STAT_HOLD 0 3 = true ∧
      (run (d w 7) big).converged.testBit 3 = false ∧ (run (d w 6) z).converged.testBit 3 = false := by decide +kernel

theorem witness_self_calibration : let d : Dev := {}
    let b := after (.selfCalibrationStart none) d
    let s := after (.selfCalibrationStart (some .south)) { afe := { calDue := [.south] } }
    let two : Dev := { afe := { calRun := [(.south, false), (.north, false)] } }
    d.mode = .boot ∧ d.getB F.AFE_STAT_CAL_DONE = false ∧ d.halfOff .north = false ∧ d.halfOff .south = false ∧
      b.afe.calRun = [(.north, true), (.south, true)] ∧ b.getB F.AFE_STAT_CAL_BUSY = true ∧
      s.afe.calRun = [(.south, false)] ∧ (after (.selfCalibrationEnd (some .south) 0) two).afe.calRun = [(.north, false)] := by decide +kernel

theorem test_codes_are_corrected_by_their_slice : let d : Dev := withF {} [(F.AFE_OFSA_OFS_G1, 13, 16), (F.AFE_GNA_GN_G1, 14, 16384)]
    d.corrected 3 [6400, 6400, 6400, 6400] = [6400, 6401, 6500, 6400] := by decide +kernel

theorem witness_refin : let d (r : RefinSt) : Dev := withF { afe := { refin := r } } [(F.AFE_REF_REFSEL, 0, 1)]
    (after (.refinQualified 0x1234) (d .qualifying)).getF F.AFE_REFIN_RATIO = 0x1234 ∧ (after .refinQualifyTimeout (d .qualifying)).afe.refin = .fallback ∧
      (after .refinOutOfRange (d .inUse)).getB F.AFE_STAT_REF_FALLBACK = true ∧ (after .refinRetry (d .fallback)).afe.refin = .qualifying := by decide +kernel

theorem witness_aux_sequencer : let d (p : AuxPhase) : Dev := withF { aux := { phase := p, slots := [(5, 0, 2), (6, 0, 0)], gap := 1 } } [(F.AUX_CTL_RUN, 0, 1), (F.AUX_CTL_LEN, 0, 2)]
    let settling := withF (d .settling) [(F.AUX_STAT_REF_OK, 0, 0)]
    let last : Dev := { d .pass with aux := { (d .pass).aux with slot := 1 } }
    (d .off).getF F.AUX_CTL_RUN ≠ 0 ∧ (d .off).getF F.AUX_CTL_REFSEL = (d .off).aux.refsel ∧ (d .off).getF F.AUX_CTL_LEN ≠ 0 ∧
      (after .auxStart (d .off)).aux.phase = .pass ∧ (after (.auxSlotDone [9, 0x1000, 0x2000]) (d .pass)).getF F.AUX_RES_VALUE 5 = 0xC00 ∧
      (after (.auxSlotDone [9, 0x1000, 0x2000]) (d .pass)).aux.slot = 1 ∧ (after .auxGapEnd (d .gap)).aux.phase = .pass ∧
      (after (.auxSlotDone [9, 1, 2]) last).aux.phase = .gap ∧ (after (.auxSlotDone [9, 1, 2]) last).getF F.AUX_STAT_PASS = 1 ∧
      settling.getB F.AUX_STAT_REF_OK = false ∧ (after .auxRefSettled settling).aux.phase = .pass ∧
      (after .auxRefTimeout (d .settling)).getB F.TRB_STICKY1_AUX_REF = true := by decide +kernel

theorem witness_aux_urgent : let d (p : AuxPhase) : Dev := withF { aux := { phase := p } } [(F.AUX_STAT_REF_OK, 0, 1)]
    let w : Word := BitVec.ofNat 32 (65537 * 2 ^ F.AUX_URG_GO.lo)
    let u : Dev := { aux := { phase := .gap, urgent := some (7, 0, 4) } }
    accepts (d .gap) .headframe .AUX_URG 0 w = true ∧ w.getLsbD F.AUX_URG_GO.lo = true ∧ w.getLsbD (16 + F.AUX_URG_GO.lo) = true ∧
      (after (.auxUrgentRequest .headframe w) (d .gap)).getB F.AUX_STAT_URG_BUSY = true ∧
      (after (.auxUrgentRequest .headframe w) (d .pass)).getF F.AUX_URG_DROP_DROP = 1 ∧
      (after (.auxUrgentDone [9, 0x8000, 0x8000]) u).getF F.AUX_URG_RES_VALUE = 0x1000 := by decide +kernel

/-! ### Filter chain -/

theorem witness_decimated_sample : let outs := (List.range 8).map fun i => (8 * 5 + i, (1024 : Int), 0)
    let d : Dev := { withF {} [(F.FLT_CHCTL_RUN, 2, 1), (F.FLT_CHSTAT_BANK, 2, 0)] with coef := [(coefKey 2 0 0, 4194304)] }.setChain 2 { cicQ := outs, dc := 2 ^ 32 }
    let e := after (.decimatedSample 2) d
    d.afeRuns 2 = true ∧ d.getB F.FLT_CHCTL_RUN 2 = true ∧ d.getF F.FLT_CHSTAT_BANK 2 = 0 ∧ (d.chain 2).cicQ.length = 8 ∧
      ((e.chain 2).dec.map fun q => (q.j, q.val)) = [(5, 3)] ∧ e.getF F.FLT_DECIDX_IDX 2 = 5 := by decide +kernel

theorem witness_angle_tap :
    let d : Dev := { withF {} [(F.FLT_CHCTL_RUN, 2, 1), (F.FLT_CHCTL_ANG_EN, 2, 1), (F.FLT_CHCTL_CLK, 2, 1), (F.FLT_CHCTL_N, 2, 0)] with insts := [(3, [⟨65, 13000, false⟩, ⟨64, 12800, false⟩])] }
    let d := (d.setAfeChan 2 { released := true }).setChain 2 { lastK := some 63 }
    let e := after (.angleTapSample 2) d
    nextInst (d.chain 2).lastK (d.instsOf 3) = some ⟨64, 12800, false⟩ ∧ d.angTap 2 = true ∧ (e.chain 2).lastK = some 64 ∧
      (SMap.getD e.taps 1 []).map (fun t => (t.k, t.seq, t.t16, t.chans)) = [(256, 64, 12800, [2])] := by decide +kernel

theorem witness_fixed_rate_instant : let d : Dev := { tsc := 250001, fr := { next := some (0, 1), count := 7 } }
    let e := d.frTick
    let g := after .fixedRateInstant ((withF { e with fr := { e.fr with taken := 7 } } [(F.FLT_CHCTL_RUN, 9, 1), (F.FLT_CHCTL_FR_EN, 9, 1)]).setAfeChan 9 { released := true })
    frCal (frRate (d.getF F.FLT_CTL_FR_RATE)) 0 1 ≤ d.cal ∧ d.fr.resync = false ∧ e.fr.count = 8 ∧ e.fr.last = some (0, 1, 4000000) ∧ e.fr.next = some (0, 2) ∧
      e.instsOf 12 = [⟨7, 4000000, false⟩] ∧ g.fr.taken = 8 ∧ SMap.getD g.taps 9 [] = [⟨7, 7, 4000000, false, [9]⟩] ∧ SMap.getD g.taps 8 [] = [] := by
  decide +kernel

theorem witness_flt_lump_send : let t : TapInst := ⟨9, 9, 4000000, false, [0]⟩
    let d : Dev := { withF (runSkip 7) [(F.FLT_PITS1_FRSET0, 0, 2)] with taps := [(8, [t])] }
    let ws := List.replicate 8 (sampleWord 0 2)
    let e := after (.fltLumpSend .north none) d
    d.tapsTaken 8 .north t = true ∧ allSome (Half.north.channels.map fun c => d.tapWord 8 t c) = some ws ∧
      (e.skip 7).queue.map (fun l => l.body) = [.sampleWords 9 ws] ∧
      (e.skip 7).queue.map (fun l => (l.tag.seq, l.tag.pclass, l.tag.src)) = [(9, false, 0x68)] := by decide +kernel

theorem witness_coef_commit : let d := withF {} [(F.FLT_CWSEL_CH, 0, 3), (F.FLT_CWSEL_BANK, 0, 1), (F.FLT_CWSEL_TAP, 0, 95), (F.FLT_CWLO_COEF_LO, 0, 1)]
    let r := withF d [(F.FLT_CHCTL_RUN, 3, 1), (F.FLT_CHSTAT_BANK, 3, 1)]
    accepts d .headframe .FLT_CWHI 0 0x00FF00FF = true ∧ (d.committed .FLT_CWHI 0 0x00FF00FF).coefRefused 3 1 = false ∧
      (after (.fltCoefCommit .headframe 0x00FF00FF) d).coefAt 3 1 95 = -65535 ∧ (r.committed .FLT_CWHI 0 0x00FF00FF).coefRefused 3 1 = true ∧
      (after (.fltCoefCommit .headframe 0x00FF00FF) r).bitF F.FLT_STAT_REJECT 0 3 = true ∧ (after (.fltCoefCommit .headframe 0x00FF00FF) r).coef = [] := by
  decide +kernel

theorem witness_swap_and_fade : let run := withF {} [(F.FLT_CHCTL_RUN, 3, 1)]
    let w : Word := BitVec.ofNat 32 (65537 * (2 ^ F.FLT_SWAP_GO.lo + 2 ^ F.FLT_SWAP_TARGET.lo))
    let f : Dev := run.setChain 3 { fade := some { target := 1, len := 4, m := 16, start := 0 } }
    accepts run .headframe .FLT_SWAP 3 w = true ∧ w.getLsbD F.FLT_SWAP_GO.lo = true ∧ run.getB F.FLT_CHCTL_POL 3 = false ∧
      (after (.fltSwapRequest .headframe 3 w) {}).getF F.FLT_CHSTAT_BANK 3 = 1 ∧
      ((after (.fltSwapRequest .headframe 3 w) run).chain 3).fade = some { target := 1, len := run.getF F.FLT_SWAP_FADE 3, start := 0 } ∧
      (after (.fadeEnd 3) f).getF F.FLT_CHSTAT_BANK 3 = 1 ∧ ((after (.fadeEnd 3) f).chain 3).fade = none := by decide +kernel

theorem witness_resets : let d : Dev := ({ tsc := 1 } : Dev).setAfeChan 3 { released := true }
    let due : Dev := d.setChain 3 { due := some (5, 1024), integ := [1, 2, 3, 4, 5] }
    accepts d .headframe .FLT_RESET 0 0x00080008 = true ∧ ((after (.fltResetCommand .headframe 0x00080008) d).chain 3).asked = [(5, 1024)] ∧
      d.afeRuns 3 = true ∧ ((after (.synchronisingReset 3) due).chain 3).integ = [0, 0, 0, 0, 0] ∧ (after (.synchronisingReset 3) due).getF F.FLT_CHSTAT_SETTLE 3 = 17 ∧
      (after (.fastSettleEnd 3) (withF {} [(F.FLT_CHSTAT_FAST, 3, 1)])).getB F.FLT_CHSTAT_FAST 3 = false := by decide +kernel

/-! ### Sampled values and the Seam -/

/-- A device with one running subscription, number 3: svID "A", APPID 0x4000, revision 1, eight channels. -/
def subDev : Dev := withF { tsc := 1000000000, svi := [(3, { svid := [(0, 65)] })] } [(F.SVI_SUBCTL_EN, 3, 1), (F.SVI_SUBMAC0_MAC, 3, 0x010C),
  (F.SVI_SUBMAC1_MAC, 3, 0xCD04), (F.SVI_SUBMAC2_MAC, 3, 1), (F.SVI_SUBAPP_APPID, 3, 0x4000), (F.SVI_SUBSCL_SVID_LEN, 3, 1), (F.SVI_SUBREVLO_REV, 3, 1),
  (F.SVI_SUBMAP_NCH, 3, 8), (F.SVI_SUBMAP_PITS, 3, 1), (F.SVI_SUBSTAT_STATE, 3, 1)]

/-- An ASDU that matches it, with eight entries of value 5. -/
def subAsdu : Asdu := ⟨[65], some 0, some 1, some 2, none, List.replicate 8 (5, 0)⟩

/-- A frame to its address with ASDUs. -/
def subFrame (l : List Asdu) : SvFrame := ⟨0, 0x010CCD040001, 0x4000, false, l⟩

/-- A device to whose SVI port A has delivered a frame. -/
def delivered (ts : Nat) (f : Option SvFrame) (d : Dev) : Dev := { d with svIn := [(0, [(ts, f)])] }

theorem witness_sv_frame_counts : let other := subDev.setF F.SVI_SUBAPP_APPID 3 0x4001
    let run (f : Option SvFrame) (d : Dev) : Dev := after (.svFrameReceive false) (delivered 0 f d)
    (run none subDev).getF F.SVI_UNMATCH_MALFORMED = 1 ∧ (run (some (subFrame [])) subDev).getF F.SVI_UNMATCH_MALFORMED = 1 ∧
      (run (some { subFrame [subAsdu] with tags := 2 }) subDev).getF F.SVI_UNMATCH_MALFORMED = 1 ∧
      (run (some (subFrame [{ subAsdu with svid := [] }])) subDev).getF F.SVI_UNMATCH_MALFORMED = 1 ∧
      asduOk subAsdu = true ∧ asduOk { subAsdu with svid := [] } = false ∧ other.svMatch (subFrame [subAsdu]) subAsdu = none ∧
      (run (some (subFrame [subAsdu])) other).getF F.SVI_UNMATCH_UNMATCHED = 1 ∧ (run none subDev).svIn = [(0, [])] := by decide +kernel

theorem witness_sv_frame_taken : let f := subFrame [subAsdu]
    let r := subDev.subRate 3
    let e := after (.svFrameReceive false) (delivered 1000000000 (some f) subDev)
    subDev.svMatch f subAsdu = some 3 ∧ subDev.getF F.SVI_SUBCTL_PORT 3 = 0 ∧ svIndex r (subDev.calAt 1000000000) 0 = some r ∧
      subDev.subRuns 3 = true ∧ subAsdu.confRev = some (subDev.getF F.SVI_SUBREVLO_REV 3 + 65536 * subDev.getF F.SVI_SUBREVHI_REV 3) ∧
      f.sim = subDev.getB F.SVI_SUBCTL_SIM 3 ∧ (subDev.sub 3).sample r = none ∧
      ((e.sub 3).sample r).map (fun m => m.chans) = some (List.replicate 8 (5, 2)) ∧ e.getB F.SVI_SUBSTAT_PORTA_SEEN 3 = true := by decide +kernel

theorem witness_sv_missing : let b : SvSample := ⟨7, true, 0, [(9, 0)]⟩
    let d := subDev.setSub 3 { subDev.sub 3 with next := 8, hist := [b] }
    d.subRuns 3 = true ∧ d.svInstant (d.subRate 3) 8 + 160000 * d.getF F.SVI_DL_DL ≤ 16 * d.tsc ∧
      ((after (.svSampleMissing 3) d).sub 3).sample 8 = some ⟨8, false, 1, [(9, 32)]⟩ ∧ (after (.svSampleMissing 3) d).getF F.SVI_SUBCNT_SUBST 3 = 1 := by
  decide +kernel

theorem witness_sv_lump : let r := subDev.subRate 3
    let m (i : Nat) : SvSample := ⟨i, true, 0, List.replicate 8 (7, 0)⟩
    let t16 := subDev.svInstant r 5
    let t : TapInst := ⟨64, 64, t16, false, []⟩
    let sub : SvSub := { subDev.sub 3 with insts := [t], next := 8, hist := [m 7, m 6, m 5, m 4] }
    let d := (subDev.setSub 3 sub).setSkip 10 { st := .run, credits := skipCap 10 }
    let old := d.setSub 3 { sub with startTsc := 1000000000 }
    let sent (d : Dev) := ((after (.svLumpSend 3) d).skip 10).queue.map fun l => (l.tag.seq, l.body)
    d.subRuns 3 = true ∧ 16 * (d.sub 3).startTsc ≤ t.t16 ∧ t.t16 < 16 * (old.sub 3).startTsc ∧ d.svBefore r t.t16 = 5 ∧
      (d.sub 3).support 8 4 = some (m 4) ∧ (d.sub 3).support 8 5 = some (m 5) ∧ (d.sub 3).support 8 6 = some (m 6) ∧ (d.sub 3).support 8 7 = some (m 7) ∧
      sent d = [(64, .sampleWords 64 (List.replicate 8 (sampleWord 7 129)))] ∧
      sent old = [(64, .sampleWords 64 (List.replicate 8 (sampleWord 0 130)))] := by decide +kernel

theorem witness_sv_commit : let w : Word := 0x00010000
    let d : Dev := { subDev with mode := .commission }
    let new := d.committed .SVI_SUBCTL 3 w
    accepts d .headframe .SVI_SUBCTL 3 w = true ∧ (new.svidApply 3).subClash 3 = false ∧ compositeChanged .SVI_SUBCTL 3 new d = true ∧
      (after (.sviSubscriptionCommit .headframe 3 w) d).getF F.SVI_SUBSTAT_STATE 3 = 0 := by decide +kernel

theorem witness_svid_octets : let d := withF subDev [(F.SVI_SVIDSEL_SUB, 0, 3), (F.SVI_SVIDSEL_PAIR, 0, 0)]
    let w : Word := 0x00FF4342
    let all : Word := 0xFFFF4342
    let e (w : Word) := (after (.svidOctetWrite .headframe w) d).sub 3
    accepts d .headframe .SVI_SVIDWR 0 w = true ∧ ctlMask w = 255 ∧ (e w).hold = [(0, 0x42), (1, 0)] ∧ (e all).hold = [(0, 0x42), (1, 0x43)] ∧
      (e w).svid = [(0, 65)] := by decide +kernel

/-- A design with one cell of a type on face 0, in the fixed-rate domain, whose output is the point at address 0, and a point
of sampled values on face 1 of the same domain. -/
def cellDesign (ct : Nat) : Design :=
  { nodes := [⟨1, 0, ct, noIx, noIx, noIx, 0, 1, 0, 0, 0⟩], ports := [⟨1, 0, 0⟩], points := [⟨0, 0, 0, 0, 0, 0⟩, ⟨4096, 1, 2, 0, 0, 0⟩],
    faces := [⟨0, 12, 0, 0, 0, 0, 50, 1, 0⟩, ⟨1, 12, 0, 0, 0, 0, 50, 1, 0⟩] }

/-- A device in PROTECT with that design, both faces running, before step 5, whose instant was 1 µs after BOOT. -/
def cellDev (ct tsc : Nat) : Dev :=
  { mode := .protect, tsc := tsc, insts := [(12, [⟨5, 16000, false⟩])], seam := { design := cellDesign ct, faces := [(0, { st := .run, next := 5 }), (1, { st := .run, next := 5 })] } }

theorem witness_face_steps : let d := cellDev 0x0071 1001
    let late := cellDev 0x0071 51000
    let t := d.setCell 0 0 { tim := [(0, 0)] }
    d.stepDue 0 = true ∧ d.faceBudget 0 = 148901 ∧ d.faceBad 1 0 = false ∧ d.faceBad 2 0 = false ∧ d.faceBad 3 0 = false ∧ d.arrived 0 5 = true ∧
      late.stepDue 1 = true ∧ late.arrived 1 5 = false ∧ late.deadline 1 5 ≤ 16 * late.tsc ∧ 16 * d.tsc < d.deadline 1 5 ∧ late.missCount 1 5 = 1 ∧
      t.stepDue 0 = true ∧ t.arrived 0 5 = true ∧ (t.seam.design.cellsOn 0).any (fun x => !(t.cell x.1 x.2).tim.isEmpty) = true := by decide +kernel

theorem witness_face_halt : let e := after (.faceHalt 0) (cellDev 0x0071 1001)
    (e.face 0).st = .halted ∧ e.bitF F.SEAM_HALT_HALT_LO 0 0 = true ∧ e.mode = .degraded ∧
      (after (.faceHalt 1) (cellDev 0x0071 51000)).bitF F.SEAM_HALT_HALT_LO 0 1 = true := by decide +kernel

theorem witness_duplex_restart : let d := (cellDev 0x0071 1001).setFace 0 { st := .run, restart := true, next := 0 }
    (d.face 0).restart = true ∧ (d.face 0).st = .run ∧ d.survivorsDone 0 = true ∧ ((after (.duplexRestart 0) d).face 0).restart = false := by decide +kernel

theorem witness_group_switch : let d := withF (cellDev 0x0071 1001) [(F.SEAM_GRP_STAT_DEFINED, 0, 5)]
    let a := after (.groupSwitchRequest 2 false) d
    let b := { a with fr := { count := 1 } }
    d.bitF F.SEAM_GRP_STAT_DEFINED 0 1 = false ∧ (after (.groupSwitchRequest 1 false) d).getB F.SEAM_STAT_GRP_REFUSED = true ∧
      d.bitF F.SEAM_GRP_STAT_DEFINED 0 2 = true ∧ d.oldestNeeded = false ∧ a.seam.groups = [⟨0, 2, 0, 1001, [(12, 0)]⟩] ∧ a.seam.switching = true ∧
      (after (.groupSwitchRequest 0 true) a).seam.grpPend = some (0, 1) ∧ b.groupPassed = true ∧ b.seam.grpPend = none ∧
      (after .groupSwitchComplete b).getF F.SEAM_GRP_STAT_ACT = 2 ∧ (after .groupSwitchComplete b).getF F.SEAM_GRP_CNT_CNT = 1 := by decide +kernel

theorem witness_point_latch : let d : Dev := { cellDev 0x0071 1001 with seam := { (cellDev 0x0071 1001).seam with points := [(4096, ⟨0x3F800000, 1, 9⟩)] } }
    let e := after (.pointLatch .headframe 4096) d
    d.mayWrite .headframe .SEAM_PADDR 0 = true ∧ e.getF F.SEAM_PVAL_VALUE 0 = 0x3F800000 ∧ e.getF F.SEAM_PMETA_TYPE 0 = 1 ∧ e.getF F.SEAM_PSTEP_STEP 0 = 9 := by
  decide +kernel

theorem witness_energy_booking : let d := (cellDev 0x0060 1001).setCell 0 0 ((({} : CellSt).setA 10 3600).setC 12 1)
    seamRuns d.mode = true ∧ d.copies 0 0x0060 = [(0, 0)] ∧ (d.cell 0 0).f 12 = true ∧ ((after (.energyBooking 0) d).cell 0 0).c 12 = 0 := by decide +kernel

theorem witness_balance_cell : let d := (cellDev 0x0061 2000000000).setCell 0 0 (({} : CellSt).setC 1 1)
    let i : BalInt := ⟨0, 5, 0, [], false⟩
    let j := (cellDev 0x0061 2000000000).setCell 0 0 { ints := [i] }
    let r : Dev := { d with fr := { count := 1 }, seam := { d.seam with reports := [⟨0, 0, 0, 5, 0, 0⟩] } }
    d.copies 0 0x0061 = [(0, 0)] ∧ (d.cell 0 0).c 0 < d.balanceBoundary (d.setNow 0 0 0).num.toNat ∧
      ((after (.balanceIntervalClose 0) d).cell 0 0).ints = [⟨0, 0, 2000000000, [], false⟩] ∧ r.seam.reports = [⟨0, 0, 0, 5, 0, 0⟩] ∧ d.liveCopies 0 0x0061 = [(0, 0)] ∧ d.seamOn = true ∧
      ((after .balanceReportDelivery r).cell 0 0).c 7 = 1 ∧ (j.cell 0 0).ints = [i] ∧ (j.setNow 0 0 1).num.toNat ≤ i.reports.length ∧
      ((after (.balanceJudge 0) j).cell 0 0).a 2 = 5 := by decide +kernel

/-! ### Travelling waves and field I/O -/

/-- An arrival, and an event with it, of number 4. -/
def twEv : TwEv := ⟨4, 100, [⟨100000, 50, false, false, false, false⟩], 2000000, false, false⟩

/-- A device whose group 1, single- and double-ended, has that event open. -/
def twDev : Dev := ({ mode := .protect } : Dev).setGrp 1
  { cfg := { en := true, se := true, de := true, chans := [0, 1, 2], d := 4, vel := 300000, len := 1000, twin := 10, rfrac := 64 }, next := some 305, open_ := some twEv, evseq := 5 }

theorem witness_tw_event_close : let x := twDev.grp 1
    let e := after (.twEventClose 1) twDev
    twDev.twuOn = true ∧ x.open_ = some twEv ∧ x.next = some 305 ∧ x.change = false ∧ twEv.k0 + x.cfg.twin * 20 + x.cfg.d ≤ 305 ∧ x.cfg.reflection twEv = none ∧
      (e.grp 1).open_ = none ∧ e.getF F.TWU_GSE_STATUS 1 = 3 ∧ e.getF F.TWU_GSE_EVSEQ 1 = 4 := by decide +kernel

theorem witness_far_arrival_expire : let d := ({ tsc := 100000005 } : Dev).setGrp 2 { far := some (7, true, 5) }
    ((after (.farArrivalExpire 2) d).grp 2).far = none ∧ (after (.farArrivalExpire 2) d).getF F.TWU_FARCNT_UNMATCHED = 1 := by decide +kernel

theorem witness_far_arrival_submit : let w : Word := BitVec.ofNat 32 (65537 * (2 ^ F.TWU_FARGO_GO.lo + 2 ^ F.TWU_FARGO_GROUP.lo))
    let d := withF twDev [(F.TWU_FARCAL_CAL, 0, 100000)]
    let n := d.setGrp 1 { twDev.grp 1 with cfg := {} }
    let o := d.setGrp 1 { twDev.grp 1 with open_ := none }
    let u := d.setGrp 1 { twDev.grp 1 with open_ := some { twEv with far := true } }
    let go (x : Dev) := after (.farArrivalSubmit .headframe w) x
    accepts d .headframe .TWU_FARGO 0 w = true ∧ w.getLsbD F.TWU_FARGO_GO.lo = true ∧ w.getLsbD (16 + F.TWU_FARGO_GO.lo) = true ∧
      (d.stored .TWU_FARGO 0 w).getF F.TWU_FARGO_GROUP = 1 ∧ (go n).getF F.TWU_FARCNT_UNMATCHED = 1 ∧
      (o.grp 1).match_ 2000000 = none ∧ ((go o).grp 1).far = some (2000000, false, 0) ∧ (d.grp 1).match_ 2000000 = some twEv ∧
      (go u).getF F.TWU_FARCNT_DUP = 1 ∧ (go d).getF F.TWU_GDE_STATUS 1 = 5 ∧ (go d).getF F.TWU_GDE_EVSEQ 1 = 4 := by decide +kernel

theorem witness_twu_group_commit : let w : Word := 0x00010000
    let d := withF twDev [(F.TWU_GVHI_VEL_HI, 1, 4), (F.TWU_GLLO_LEN_LO, 1, 1000)]
    let c := withF ({ mode := .commission } : Dev) [(F.TWU_GVHI_VEL_HI, 1, 4), (F.TWU_GLLO_LEN_LO, 1, 1000)]
    accepts d .headframe .TWU_GCTL 1 w = true ∧ (d.committed .TWU_GCTL 1 w).velBroken 1 = false ∧ (d.committed .TWU_GCTL 1 w).grpBroken 1 = false ∧
      (d.grp 1).open_.isSome = true ∧ ((after (.twuGroupCommit .headframe 1 w) d).grp 1).change = true ∧ accepts c .headframe .TWU_GCTL 1 w = true ∧
      (c.committed .TWU_GCTL 1 w).velBroken 1 = false ∧ (c.committed .TWU_GCTL 1 w).grpBroken 1 = false ∧ (c.grp 1).open_ = none := by decide +kernel

/-- A device at a TSC whose logic sides send frames. -/
def fioDev (tsc : Nat) : Dev := { mode := .protect, tsc := tsc, fio := { started := true } }

/-- A frame of the downlink with CMD = CFG for pin 3, one with INTERROGATE and one with CLEAR of pin 3, each with SEQ 0. -/
def cfgFrame : BitVec 80 := barrierFrame (3 * 2 ^ 38 + 1 * 2 ^ 42)
@[inherit_doc cfgFrame] def intgFrame : BitVec 80 := barrierFrame (1 * 2 ^ 35)
@[inherit_doc cfgFrame] def clearFrame : BitVec 80 := barrierFrame (2 * 2 ^ 35 + 8 * 2 ^ 42)

theorem witness_downlink_frame : let d := (fioDev 2000).setBank 1 { seq := 7 }
    let c := (fioDev 2000).setBank 1 { cmds := [(1, 0)] }
    let p : Pow := ⟨18, true, 0, 0, 0, some (12000, 2000, false)⟩
    let t : Dev := { d with fio := { d.fio with pows := [p] } }
    d.bankRuns 1 = true ∧ d.tsc % 10000 = 2000 * 1 ∧ d.dueTransition 1 = none ∧ ((after (.downlinkFrame 1) d).bank 1).seq = 8 ∧
      ((after (.downlinkFrame 1) d).bank 1).down = some (barrierFrame (7 * 2 ^ 27)) ∧ ((after (.downlinkFrame 1) c).bank 1).cmds = [] ∧
      t.dueTransition 1 = some (p, 2, false) ∧ (after (.downlinkFrame 1) t).fio.pows = [] ∧ ((after (.downlinkFrame 1) t).bank 1).sent.testBit 2 = true := by
  decide +kernel

theorem witness_downlink_receive : let d (w : BitVec 80) : Dev := ((fioDev 0).setBank 1 { down := some w }).setField 1 { powered := true, held := false, latched := 8, perm := 8, events := [(3, 4)] }
    framePayload (cfgFrame ^^^ 0) = some (3 * 2 ^ 38 + 1 * 2 ^ 42) ∧ framePayload (cfgFrame ^^^ 1) = none ∧
      ((after (.downlinkReceive 1 0) (d cfgFrame)).fieldSide 1).cfg = [(3, 1)] ∧ (after (.downlinkReceive 1 1) (d cfgFrame)).getF F.FIO_CNT_CRC 1 = 1 ∧
      ((after (.cmdCfg 1) (d cfgFrame)).fieldSide 1).cfg = [(3, 1)] ∧ ((after (.cmdInterrogate 1) (d intgFrame)).fieldSide 1).sweep = true ∧
      ((after (.cmdClear 1) (d clearFrame)).fieldSide 1).latched = 0 ∧ ((after (.cmdClear 1) (d clearFrame)).fieldSide 1).events = [(3, 0)] := by decide +kernel

theorem witness_uplink_receive : let d : Dev := (fioDev 0).setBank 1 { up := some (barrierFrame 1) }
    let s : Dev := (fioDev 0).setBank 1 { up := some (barrierFrame 1), silent := true, good := 1 }
    d.bankRuns 1 = true ∧ framePayload (barrierFrame 1 ^^^ 0) = some 1 ∧ framePayload (barrierFrame 1 ^^^ 2) = none ∧
      ((after (.uplinkReceive 1 0) d).bank 1).last = 1 ∧ (after (.uplinkReceive 1 2) d).getF F.FIO_CNT_CRC 1 = 1 ∧
      ((after (.uplinkReceive 1 0) s).bank 1).silent = false ∧ (after (.bankSilent 1) (withF d [(F.FIO_BSTAT_INTG_BUSY, 1, 1)])).getB F.FIO_BSTAT_INTG_FAIL 1 = true ∧
      (after (.bankSilent 1) d).bitF F.FIO_STAT_SILENT 0 1 = true ∧ (d.bank 1).silent = false := by decide +kernel

theorem witness_uplink_frame : let pins : List (Int × Int) := List.replicate 16 (20000, 0)
    pins.length = 16 ∧ stops (.uplinkFrame 1 []) = true ∧ classify 0 0 20000 0 = 1 ∧ classify 4 1 20000 100 = 2 ∧ classify 0 1 10000 0 = 1 ∧
      SMap.getD ((after (.uplinkFrame 1 pins) ((fioDev 0).setField 1 { powered := true })).fieldSide 1).cls 5 0 = 1 := by decide +kernel

theorem witness_field_side_events : let f : Field := { powered := true, held := false, uvOff := false, cfg := [(3, 1)], drv := 8, events := [(3, 3)] }
    let d (f : Field) : Dev := (fioDev 0).setField 2 f
    let r (c : Instr) (f : Field) : Field := (after c (d f)).fieldSide 2
    f.driver 3 = true ∧ f.limit.testBit 3 = false ∧ f.isOut 3 = true ∧ f.rb.testBit 3 ≠ f.driver 3 ∧
      (r (.timedTransition 2) { f with timed := some (3, false) }).drv = 0 ∧ (r (.fieldSideHold 2) f).held = true ∧ (r (.currentLimitEntry 2 3) f).limit = 8 ∧
      (r (.currentLimitExit 2 3) { f with limit := 8 }).limit = 0 ∧ (r (.currentLimitLatch 2 3) { f with limit := 8 }).perm = 8 ∧
      (r (.limitEnergyReset 2 3) { f with energy := 8 }).energy = 0 ∧ (r (.outputRetry 2 3) { f with latched := 8, retry := [(3, 1000000000)] }).latched = 0 ∧
      (r (.outputRetry 2 3) { f with latched := 8, retry := [(3, 999999999)] }).latched = 8 ∧
      (r (.eventCountReset 2 3) f).events = [(3, 0)] ∧ (r (.readbackMismatch 2 3) f).mis = 8 ∧
      (r (.interrogationSweepDone 2 120) { f with sweep := true }).nib = some 0 := by decide +kernel

theorem witness_field_supply_events : let f : Field := { powered := true, held := false }
    let d (f : Field) : Dev := (fioDev 0).setField 2 f
    let r (c : Instr) (f : Field) : Field := (after c (d f)).fieldSide 2
    (r (.fieldSupplyWarning 2 false) f).uvw = false ∧ (r (.fieldInputFail 2 false) f).inFail = false ∧ (r (.fieldUvOff 2) { f with limit := 8 }).limit = 0 ∧
      (r (.uvOffRelease 2) f).uvOff = false ∧ (r (.fieldSideReset 2) f).powered = false ∧ (r (.fieldSideResetRelease 2) {}).powered = true ∧
      (r (.fieldOvertemp 2 true) f).ot = true ∧ (after (.currentLimitEntry 2 3) (d { f with uvOff := false, cfg := [(3, 1)], drv := 8 })).bitF F.FIO_STAT_BANK_FAULT 0 2 = true := by
  decide +kernel

theorem test_timed_switch_off_releases_the_latch : let f : Field := { powered := true, latched := 8, drv := 8, retry := [(3, 7)], timed := some (3, false) }
    let g := (after (.timedTransition 2) ((fioDev 0).setField 2 f)).fieldSide 2
    g.latched = 0 ∧ g.retry = [] ∧ g.drv = 0 := by decide +kernel

theorem witness_interrogation_and_clear : let w : Word := BitVec.ofNat 32 (65537 * (2 ^ F.FIO_INTG_GO.lo + 2 ^ F.FIO_INTG_BANK.lo))
    let d := fioDev 0
    let b := withF d [(F.FIO_BSTAT_INTG_BUSY, 1, 1)]
    let c : Word := 0x00080008
    accepts d .headframe .FIO_INTG 0 w = true ∧ w.getLsbD F.FIO_INTG_GO.lo = true ∧ w.getLsbD (16 + F.FIO_INTG_GO.lo) = true ∧
      ((after (.interrogationRequest .headframe w) d).bank 1).cmds = [(1, 0)] ∧ (after (.interrogationRequest .headframe w) b).bitF F.FIO_STAT_INTG_REJ 0 1 = true ∧
      accepts d .headframe .FIO_CLRMASK 0 c = true ∧ ((after (.fioClearCommit .headframe c) d).bank 0).cmds = [(0, 8)] := by decide +kernel

/-- A Canary table whose entry 0 watches channel 2 at threshold 1, holds for 5 ms and switches output 3; the others are not in use. -/
def canaryBody : List Byte := le 16 1 ++ le 24 (2 + 256 + 65536 + 5 * 2 ^ 32 + 8 * 2 ^ 64)

/-- 60 bytes of 0. -/
def zeros60 : List Byte := List.replicate 60 0

/-- The table with its CHECK. -/
def canaryBytes : List Byte := (canaryBody ++ zeros60 ++ zeros60 ++ zeros60 ++ zeros60 ++ zeros60 ++ zeros60) ++ le 4 3522654224

theorem chunks_fold (f : Nat → Byte → Nat) (a z : List Byte) (m s0 s1 s2 s3 s4 s5 s6 r : Nat) (h0 : a.foldl f s0 = s1) (h1 : z.foldl f s1 = s2)
    (h2 : z.foldl f s2 = s3) (h3 : z.foldl f s3 = s4) (h4 : z.foldl f s4 = s5) (h5 : z.foldl f s5 = s6) (h6 : z.foldl f s6 ^^^ m = r) :
    (a ++ z ++ z ++ z ++ z ++ z ++ z).foldl f s0 ^^^ m = r := by
  simp only [List.foldl_append, h0, h1, h2, h3, h4, h5, h6]

theorem crc32c_eq (bs : List Byte) : crc32c bs = bs.foldl crc32cByte 0xFFFFFFFF ^^^ 0xFFFFFFFF := rfl

theorem canary_crc : crc32c (canaryBody ++ zeros60 ++ zeros60 ++ zeros60 ++ zeros60 ++ zeros60 ++ zeros60) = 3522654224 :=
  (crc32c_eq _).trans <| chunks_fold crc32cByte canaryBody zeros60 0xFFFFFFFF 0xFFFFFFFF 1081914886 42527541 2376530963 4039320498 3057085086 4016193418 3522654224
    (by decide +kernel) (by decide +kernel) (by decide +kernel) (by decide +kernel) (by decide +kernel) (by decide +kernel) (by decide +kernel)

theorem canary_ok : canaryOk canaryBytes = true := by
  have h : canaryBytes.take 400 = canaryBody ++ zeros60 ++ zeros60 ++ zeros60 ++ zeros60 ++ zeros60 ++ zeros60 := by decide +kernel
  rw [canaryOk, h, canary_crc]
  decide +kernel

/-- A device whose MRAM holds that table. -/
def canaryDev : Dev := { withF ({ mode := .boot } : Dev) [(F.FIO_CNY_ARMED, 0, 1)] with nv := { canary := some canaryBytes } }

theorem witness_canary_table : canaryDev.canaryTable = some canaryBytes := by
  have h : canaryDev.nv.canary = some canaryBytes := rfl
  simp only [Dev.canaryTable, h, canary_ok, if_true]

theorem witness_canary : let r := canaryDev.setChain 2 { canaryRun := [65536, -65536, 65536, 65536] }
    let h : Dev := { r with tsc := 5000000, fio := { canary := [(0, 0)] } }
    let x := canaryEntry canaryBytes 0
    x = ⟨2, true, 1, 5, 8⟩ ∧ r.getB F.FIO_CNY_ARMED = true ∧ SMap.get? r.fio.canary 0 = none ∧ (r.chain x.ch).canaryRun.length = 4 ∧
      (r.chain x.ch).canaryRun.all x.hit = true ∧ r.getB F.AFE_CHSTAT_DARK x.ch = false ∧ r.fio.started = false ∧
      SMap.get? h.fio.canary 0 = some 0 ∧ 0 + 1000000 * x.hold ≤ h.tsc := by decide +kernel

theorem witness_input_filter : let d := (fioDev 10000).setBank 1 { filt := [(4, { run := some (1, 9000) })] }
    let x := SMap.getD (d.bank 1).filt 4 {}
    x.run = some (1, 9000) ∧ d.bankRuns 1 = true ∧ x.state ≠ some 1 ∧ 9000 + filtTime (d.pinCfg 20 / 8 % 8) ≤ d.tsc + 10000 ∧ d.pinCfg 20 % 2 = 0 ∧
      (SMap.getD ((after (.inputFilterChange 1 4) d).bank 1).filt 4 {}).state = some 1 ∧
      SMap.get? (after (.inputFilterChange 1 4) d).seam.fieldIn 20 = some ⟨1, 1, 0⟩ := by decide +kernel

theorem witness_pow_fix : let p : Pow := ⟨18, true, 0, 0, 60, none⟩
    let d : Dev := { tsc := 1000, fio := { pows := [p] } }
    let r := (d.angle 0).convert d.tsc 60
    let q : Pow := ⟨18, true, 0, 0, 2 ^ 47, none⟩
    r.2 = 1 ∧ r.1 < d.tsc + 200000 ∧ ((d.angle 0).convert d.tsc (2 ^ 47)).2 = 2 ∧
      (after (.powTransitionFix 18) d).fio.pows.map (fun w => w.fixed) = [some ((r.1 + 500) / 1000 * 1000, frameFor 1 ((r.1 + 500) / 1000 * 1000), false)] ∧
      (after (.powTransitionFix 18) { d with fio := { pows := [q] } }).fio.pows = [q] := by decide +kernel

/-! ### Assay and the trigger link -/

/-- A device at a TSC with Assay running. -/
def asyDev (tsc : Nat) : Dev := { mode := .protect, tsc := tsc, asy := { started := true } }

theorem witness_sequencer_writes : let d := asyDev 1001
    let on : Word := setWord [(F.ASY_SQCTL_RUN, 1)]
    let off : Word := setWord [(F.ASY_SQCTL_RUN, 0)]
    let re : Word := setWord [(F.ASY_SQCTL_RESTART, 1)]
    let r := withF d [(F.ASY_SQCTL_RUN, 2, 1)]
    accepts d .headframe .ASY_SQCTL 2 on = true ∧ (d.stored .ASY_SQCTL 2 on).getB F.ASY_SQCTL_RUN 2 = true ∧ d.asyRuns = true ∧
      ((after (.sequencerRun .headframe 2 on) d).seqr 2).start = 1050 ∧ (after (.sequencerRun .headframe 2 on) d).getB F.ASY_SQSTAT_RUNNING 2 = true ∧
      accepts d .headframe .ASY_SQCTL 2 off = true ∧ (d.stored .ASY_SQCTL 2 off).getB F.ASY_SQCTL_RUN 2 = false ∧
      (re.getLsbD F.ASY_SQCTL_RESTART.lo && re.getLsbD (16 + F.ASY_SQCTL_RESTART.lo)) = true ∧ accepts r .headframe .ASY_SQCTL 2 re = true ∧
      (r.stored .ASY_SQCTL 2 re).getB F.ASY_SQCTL_RUN 2 = true ∧ ((after (.sequencerRestart .headframe 2 re) r).seqr 2).restart = true := by decide +kernel

theorem witness_sequencer_tick : let x (items : SMap Nat) : Dev :=
        { withF (asyDev 1000) [(F.ASY_SQSTAT_RUNNING, 2, 1)] with asy := { started := true, items := items, pts := [(9, ⟨1, 0, 1, 5, 0⟩)] } }
    let d := x [(512, 1 + 16 * 9), (520, 1 + 2 ^ 9 + 3 * 2 ^ 10)]
    d.asyRuns = true ∧ d.tsc % 50 = 0 ∧ d.asy.tickAt = none ∧ (d.seqr 2).restart = false ∧ d.seqTransition 2 (d.seqEvents 2).1 = some 0 ∧
      (after .sequencerTick d).getF F.ASY_SQSTAT_STATE 2 = 3 ∧ (after .sequencerTick d).getF F.ASY_SQSTAT_TRANS 2 = 1 ∧
      (x []).seqTransition 2 ((x []).seqEvents 2).1 = none ∧ (after .sequencerTick (x [])).asy.tickAt = some 1000 ∧
      ((after .sequencerTick ((x []).setSeqr 2 { restart := true, cnt := [3, 4] })).seqr 2).cnt = [0, 0] := by decide +kernel

theorem witness_sequencer_timer : let d : Dev := { withF (asyDev 1000) [(F.ASY_SQSTAT_RUNNING, 2, 1)] with asy := { started := true, items := [(512 + 6, 1 + 20 * 2 ^ 32)] } }
    d.timerFired 2 0 0 = true ∧ ({ d with tsc := 999 } : Dev).timerFired 2 0 0 = false ∧ ((after (.sequencerTimerExpiry 2 0) d).seqr 2).fired = [true, false] := by
  decide +kernel

theorem witness_sequencer_item : let d := withF (asyDev 0) [(F.ASY_SQSEL_SEQ, 0, 2), (F.ASY_SQSEL_STATE, 0, 1), (F.ASY_SQSEL_ITEM, 0, 4), (F.ASY_SQW0_W, 0, 3)]
    let w : Word := 0xFFFF0007
    accepts d .headframe .ASY_SQW3 0 w = true ∧ itemBad 4 (3 + 7 * 2 ^ 48) = false ∧ (after (.seqItemCommit .headframe w) d).seqItem 2 1 4 = 3 + 7 * 2 ^ 48 := by
  decide +kernel

theorem witness_raw_crossing : let on := withF (asyDev 0) [(F.ASY_RCMP_EN, 3, 1), (F.ASY_RCMP_CH, 3, 1), (F.ASY_RTHR_THR, 3, 100)]
    let d := (on.setAfeChan 1 { released := true })
    let r : Dev := { d with asy := { d.asy with raw := [(1, [(32, 0 :: 200 :: List.replicate 30 0)])] } }
    (Half.north.channels.all fun c => (asyDev 0).rawReached c (32 * 1 + 31)) = true ∧ (asyDev 0).halfOff .north = false ∧
      (after (.rawCrossingPresent .north 1) (asyDev 0)).asy.range = [(0, 2)] ∧ (Half.north.channels.all fun c => r.rawReached c (32 * 1 + 31)) = true ∧
      r.getB F.ASY_RCMP_EN 3 = true ∧ Half.north.channels.contains (r.getF F.ASY_RCMP_CH 3) = true ∧
      (after (.rawCrossingPresent .north 1) r).asy.pres = [.raw 3 32500] := by decide +kernel

theorem witness_area_writes : let d := withF (asyDev 0) [(F.ASY_ASEL_SEL, 2, 2), (F.ASY_ALENLO_LEN_LO, 2, 100), (F.ASY_ASEGS_SEGS, 2, 4), (F.ASY_ASIZE_ASIZE, 2, 1)]
    let re : Word := setWord [(F.ASY_ACTL_RUN, 1), (F.ASY_ACTL_RESTART, 1)]
    let off : Word := setWord [(F.ASY_ACTL_RUN, 0)]
    let r := withF d [(F.ASY_ACTL_RUN, 2, 1), (F.ASY_ASTAT_STATE, 2, 1)]
    let bad := withF d [(F.ASY_ALENHI_LEN_HI, 2, 30)]
    accepts d .headframe .ASY_ACTL 2 re = true ∧ (d.committed .ASY_ACTL 2 re).areaBroken 2 = false ∧ (d.committed .ASY_ACTL 2 re).getB F.ASY_ACTL_RUN 2 = true ∧
      (d.area 2).seg = none ∧ (after (.areaRestart .headframe 2 re) d).getF F.ASY_ASTAT_STATE 2 = 1 ∧ ((after (.areaRestart .headframe 2 re) d).area 2).len = 100 ∧
      accepts r .headframe .ASY_ACTL 2 off = true ∧ (r.committed .ASY_ACTL 2 off).getB F.ASY_ACTL_RUN 2 = false ∧
      (after (.areaCommit .headframe 2 off) r).getF F.ASY_ASTAT_STATE 2 = 0 ∧ (bad.committed .ASY_ACTL 2 re).areaBroken 2 = true ∧
      (after (.areaCommit .headframe 2 re) bad).getB F.TRB_STICKY0_BUS_VALUE = true := by decide +kernel

theorem witness_area_slots_returned : let d := withF (asyDev 0) [(F.ASY_ASEGS_SEGS, 2, 4), (F.ASY_ASTAT_WIDX, 2, 4), (F.ASY_ASTAT_STATE, 2, 3)]
    let w : Word := 0xFFFF0001
    accepts d .headframe .ASY_ARIDX 2 w = true ∧ d.getB F.ASY_ACTL_FULL 2 = false ∧ (after (.asyRidxWrite .headframe 2 w) d).getF F.ASY_ARIDX_RIDX 2 = 1 ∧
      (after (.asyRidxWrite .headframe 2 w) d).getF F.ASY_ASTAT_STATE 2 = 1 := by decide +kernel

theorem witness_segment_end : let x : AsySeg := ⟨40000, 0, 1, 0, 0, 0, 32, 0, 2, 1, 1, none⟩
    let d : Dev := (withF (asyDev 0) [(F.ASY_ASEL_SEL, 2, 2), (F.ASY_ASEGS_SEGS, 2, 4), (F.ASY_ASIZE_ASIZE, 2, 1)]).setArea 2 { seg := some x }
    let m := d.setArea 2 { seg := some { x with maskno := some 1 } }
    let stop := after (.segmentCaptureEnd 2 true) m
    (after (.segmentCaptureEnd 2 false) d).getF F.ASY_ASTAT_WIDX 2 = 1 ∧ stop.getF F.ASY_ASTAT_STATE 2 = 4 ∧ stop.bitF F.ASY_STAT_LOST 0 2 = true ∧
      (d.area 2).seg = some x ∧ d.segReached 2 x = true ∧ 20 * d.tsc ≤ d.sampleInst 2 x.first + 40000000000 ∧ x.maskno = none ∧ d.segSlot 2 = 0 ∧
      (d.segData 2 x).1.length = 64 := by decide +kernel

theorem witness_mask_test_commit : let w : Word := setWord [(F.ASY_MKCTL_EN, 0)]
    let d : Dev := { asyDev 0 with asy := { started := true, masks := [(3, ⟨2, 5⟩)] } }
    accepts d .headframe .ASY_MKCTL 3 w = true ∧ (d.committed .ASY_MKCTL 3 w).maskBroken 3 = false ∧ SMap.get? (after (.maskTestCommit .headframe 3 w) d).asy.masks 3 = none := by
  decide +kernel

/-- A device whose Assay list has one point, of face 1 in an angle domain. -/
def listDev : Dev := { asyDev 0 with seam := { design := { points := [⟨4096, 1, 0, 0, 0, 0⟩], faces := [⟨1, 0, 0, 0, 0, 0, 50, 1, 0⟩], assay := [4096] } } }

theorem witness_envelope_limit : let d := withF (asyDev 0) [(F.ASY_ENVSEL_MASK, 0, 3), (F.ASY_ENVSEL_UL, 0, 1), (F.ASY_ENVSEL_IDX, 0, 9)]
    let w : Word := 0xFFFF3F80
    let bad := withF listDev [(F.ASY_ENVSEL_MASK, 0, 3), (F.ASY_MKPLO_ADDR_LO, 3, 4096), (F.ASY_ENVSEL_IDX, 0, 64)]
    accepts d .headframe .ASY_ENVHI 0 w = true ∧ (d.committed .ASY_ENVHI 0 w).envBroken = false ∧ accepts bad .headframe .ASY_ENVHI 0 w = true ∧
      (bad.committed .ASY_ENVHI 0 w).envBroken = true ∧ (after (.envelopeLimitCommit .headframe w) bad).getB F.TRB_STICKY0_BUS_VALUE = true ∧ (after (.envelopeLimitCommit .headframe w) d).limit 3 1 9 = 1 := by decide +kernel

theorem witness_trend_commit : let d := withF listDev [(F.ASY_TIVAL_TIVAL, 3, 5)]
    let on : Word := setWord [(F.ASY_TCTL_EN, 1)]
    let off : Word := setWord [(F.ASY_TCTL_EN, 0)]
    accepts d .headframe .ASY_TCTL 3 on = true ∧ (d.committed .ASY_TCTL 3 on).trendBroken 3 = false ∧ (d.committed .ASY_TCTL 3 on).trendPoint 3 = some 4096 ∧
      (d.committed .ASY_TCTL 3 on).getB F.ASY_TCTL_EN 3 = true ∧ ((after (.trendChannelCommit .headframe 3 on) d).trend 3).skip.isSome = true ∧
      accepts d .headframe .ASY_TCTL 3 off = true ∧ (d.committed .ASY_TCTL 3 off).trendBroken 3 = false ∧
      (d.committed .ASY_TCTL 3 off).getB F.ASY_TCTL_EN 3 = false := by decide +kernel

theorem witness_trend_record : let iv : TrendInt := ⟨5, 0, 1000, 2000, 0, 7, 0, 0, 0, 0, 0⟩
    let d : Dev := { withF (runSkip 26 (asyDev 0)) [(F.ASY_TSIZE_TSIZE, 0, 1), (F.ASY_TBASE_TBASE, 0, 2)] with asy := { started := true, trends := [(3, { ended := [(50, iv)] })] } }
    let e := after (.trendIntervalEnd false) d
    let r := after (.lumpReceive 26) e
    d.trendDue = some (3, 50, iv) ∧ d.getF F.ASY_TSIZE_TSIZE * 2 ^ 20 ≠ 0 ∧ d.stagingFull 48 = false ∧ e.getF F.ASY_TWR_WRITTEN = 1 ∧ e.recMem = [] ∧
      (e.skip 26).queue.length = 1 ∧ r.recMem.read (2 * 2 ^ 20 + 16) = 0xE8#8 ∧
      r.recMem.read (2 * 2 ^ 20 + 40) = 3#8 ∧ (after (.trendIntervalEnd true) d).getF F.ASY_TCNT_LOST = 1 := by decide +kernel

/-- A device at a TSC whose trigger link runs, as head or member, in a state. -/
def linkDev (tsc head st : Nat) (t : Tlk := {}) : Dev :=
  { withF (asyDev tsc) [(F.TLK_CTL_EN, 0, 1), (F.TLK_CTL_ROLE, 0, head), (F.TLK_STAT_STATE, 0, st)] with tlk := t }

theorem witness_link_pps : let h := linkDev 3000000000 1 2
    let m := linkDev 3000000000 0 0 { edges := 2 }
    let k := linkDev 3000000000 0 1 { second := some 5, cum := some 2400, agree := [59940002400, 59940002400] }
    h.linkRuns = true ∧ h.isHead = true ∧ h.tsc % 1000000000 = 0 ∧ (after .headPps h).out.length = 2 ∧ m.isHead = false ∧
      (after (.ppsEdgeReceive 7) m).getF F.TLK_STAT_STATE = 1 ∧ (after (.ppsEdgeReceive 7) k).tlk.ofs = 60000002400 ∧
      (after (.ppsEdgeReceive 7) k).getF F.TLK_STAT_STATE = 1 ∧
      (after (.ppsEdgeReceive 7) { k with tlk := { k.tlk with agree := [60000002390, 60000002430] } }).getF F.TLK_STAT_STATE = 2 := by decide +kernel

theorem witness_link_probes : let d := linkDev 1000 0 1
    let probe := barrierFrame (linkPayload 1 0 2 0)
    let echo := barrierFrame (linkPayload 2 0 2 0)
    let e := linkDev 1000 0 2 { probes := 3, trips := [9000] }
    let l := linkDev 1000 0 2 { probes := 256, trips := List.replicate 255 9000 }
    d.tlk.probes < 256 ∧ (after .probeSend d).tlk.probes = 1 ∧ framePayload probe = some (linkPayload 1 0 2 0) ∧ bits (linkPayload 1 0 2 0) 0 2 = 1 ∧
      bits (linkPayload 1 0 2 0) 5 3 = 2 ∧ (after (.probeReceive probe) d).getF F.TLK_STAT_POS = 3 ∧ framePayload echo = some (linkPayload 2 0 2 0) ∧
      bits (linkPayload 2 0 2 0) 0 2 = 2 ∧ (after (.echoReceive echo 9000) e).tlk.trips = [9000, 9000] ∧ (after (.echoReceive echo 9000) l).tlk.hopDown = 500 := by
  decide +kernel

theorem witness_link_admin : let d := linkDev 1000 0 1 { echoes := 256, second := some 4 }
    let p := linkPayload 3 0 2 (500 + 2 ^ 24 * 120 + 2 ^ 48 * 5)
    let e := after (.adminReceive (barrierFrame p)) d
    framePayload (barrierFrame p) = some p ∧ bits p 0 2 = 3 ∧ bits p 5 3 ≠ 7 ∧ d.getF F.TLK_STAT_STATE = 1 ∧ 256 ≤ d.tlk.echoes ∧ d.tlk.cum = none ∧
      e.getF F.TLK_CUM_CUM = 740 ∧ e.getF F.TLK_HOP_HOP = 500 ∧ e.tlk.second = some 5 ∧ (after .linkDown (linkDev 0 0 2)).getF F.TLK_STAT_STATE = 0 := by decide +kernel

theorem witness_trigger_frame : let d := linkDev 1000 0 0
    let u := linkDev 1000 0 2 { bad := 2 }
    let f := barrierFrame (linkPayload 0 5 3 20000)
    framePayload f = some (linkPayload 0 5 3 20000) ∧ bits (linkPayload 0 5 3 20000) 0 2 = 0 ∧ (after (.triggerFrameReceive false f) d).getF F.TLK_CNT_RCVD = 1 ∧
      (after (.triggerFrameReceive false f) d).asy.pres = [.link 5 20000 3 true] ∧ u.linkOfs = 0 ∧ bits (linkPayload 0 5 3 20000) 8 56 = unsgn 56 (20000 : Int) ∧
      framePayload (f ^^^ 1) = none ∧ (after (.triggerFrameReceive false (f ^^^ 1)) d).getF F.TLK_STAT_BADFRM = 1 ∧
      2 ≤ u.tlk.bad ∧ (after (.triggerFrameReceive false (f ^^^ 1)) u).getF F.TLK_STAT_STATE = 0 := by decide +kernel

/-! ### Tally -/

/-- A channel with a Full layout of one unit of each region, as MRAM holds it. -/
def tallyCh : TlyCh := { en := true, full := true, nbase := 1, nsize := 1, fbase := 2, fsize := 1 }

/-- A device at a TSC with an open near store and channel 3 enabled, taking group 4. -/
def tallyDev (tsc : Nat) (y : Tally := {}) : Dev :=
  { withF ({ mode := .protect, tsc := tsc } : Dev) [(F.TLY_CHSEL_GROUPS, 3, 16), (F.TLY_CHCTL_EN, 3, 1), (F.TLY_CHCTL_CLASS, 3, 1), (F.TLY_NREG_NBASE, 3, 1),
      (F.TLY_NREG_NSIZE, 3, 1), (F.TLY_FBASE_FBASE, 3, 2), (F.TLY_FSIZE_FSIZE, 3, 1), (F.TLY_STAT_NEAR_OK, 0, 1), (F.TLY_STAT_FAR_OK, 0, 1)] with
    tly := { y with opened := true }, nv := { chans := [(3, tallyCh)] } }

/-- A record of group 4. -/
def tallyRec : Record := { typ := 0x0041, src := 0x220, tsc := 5, fields := [(1, 7), (1, 1)] }

theorem witness_record_arrival : let d := (tallyDev 10).setSkip 29 { st := .run, queue := [⟨⟨0, false, true, 0, 1, 0x220⟩, .record tallyRec, 0⟩] }
    (d.skip 29).st = .run ∧ (d.skip 29).queue.map (fun l => l.body) = [.record tallyRec] ∧ d.tly.merge.length < 4096 ∧ d.tsc < tallyRec.tsc + 25000000 ∧
      d.tlyAccepts 3 tallyRec = true ∧ d.bitF F.TLY_CHTRG_TRG 3 4 = false ∧ d.tlyAccepts 2 tallyRec = false ∧ (after .recordArrival d).tly.merge = [tallyRec] := by decide +kernel

theorem witness_record_release : let d := tallyDev 25000005 { merge := [tallyRec] }
    let f := withF d [(F.TLY_FRZ_FREEZE, 3, 1)]
    firstHeld d.tly.merge = some tallyRec ∧ tallyRec.tsc + 25000000 ≤ d.tsc ∧ d.nearOk = true ∧ d.tlyAccepts 3 tallyRec = true ∧ d.tlyAccepts 2 tallyRec = false ∧
      (d.tlyCh 3).nearUnits = 1024 ∧ (d.tlyCh 3).side.length < 1024 ∧ ((after .recordRelease d).tlyCh 3).seq = 1 ∧ ((after .recordRelease d).tlyCh 3).npos = 1 ∧
      (after .recordRelease d).nv.near.read (65536 + 8) = 5#8 ∧ (after .recordRelease d).nv.near.read (65536 + 30) = 0x41#8 ∧
      f.getB F.TLY_FRZ_FREEZE 3 = true ∧ ((after .recordRelease f).tlyCh 3).side.length = 1 := by decide +kernel

theorem witness_opsec_and_freeze : let d := tallyDev 3000000000
    let on := setWord [(F.TLY_FRZ_FREEZE, 1)]
    let off := setWord [(F.TLY_FRZ_FREEZE, 0)]
    let f := (withF d [(F.TLY_FRZ_FREEZE, 3, 1)]).setTlyCh 3 { tallyCh with side := [d.released tallyRec], seq := 9 }
    d.tsc % 1000000000 = 0 ∧ (after .opsecStore d).nv.opsec = d.opsecAt 3000000000 ∧ accepts d .headframe .TLY_FRZ 3 on = true ∧
      (on.getLsbD F.TLY_FRZ_STRIG.lo && on.getLsbD (16 + F.TLY_FRZ_STRIG.lo)) = false ∧ (d.stored .TLY_FRZ 3 on).getB F.TLY_FRZ_FREEZE 3 = true ∧
      (after (.channelFreeze .headframe 3 on) d).getB F.TLY_CHSTAT_FROZEN 3 = true ∧ accepts f .headframe .TLY_FRZ 3 off = true ∧
      f.getB F.TLY_FRZ_FREEZE 3 = true ∧ (f.stored .TLY_FRZ 3 off).getB F.TLY_FRZ_FREEZE 3 = false ∧
      ((after (.channelUnfreeze .headframe 3 off) f).tlyCh 3).seq = 10 ∧ ((after (.channelUnfreeze .headframe 3 off) f).tlyCh 3).side = [] := by decide +kernel

theorem witness_strig : let w := setWord [(F.TLY_FRZ_STRIG, 1)]
    let d := tallyDev 2000000 { caps := [(3, (1000000, (1000000, 0, 0)))] }
    let e := tallyDev 1999999 { caps := [(3, (1000000, (1000000, 0, 0)))] }
    let same := after (.strig .headframe 3 w) (tallyDev 2000000 { caps := [(3, (2000000, (2000000, 0xFFF, 0)))] })
    (same.tly.caps.map fun p => p.2.2) = [(2000000, 0, 0)] ∧ accepts d .headframe .TLY_FRZ 3 w = true ∧ (w.getLsbD F.TLY_FRZ_STRIG.lo && w.getLsbD (16 + F.TLY_FRZ_STRIG.lo)) = true ∧
      (d.stored .TLY_FRZ 3 w).getB F.TLY_FRZ_FREEZE 3 = d.getB F.TLY_FRZ_FREEZE 3 ∧
      (after (.strig .headframe 3 w) d).tly.merge.map (fun r => (r.typ, r.src, r.tsc)) = [(0x62, 0x2B3, 2000000)] ∧
      (after (.strig .headframe 3 w) e).tly.merge = [] ∧ (after (.strig .headframe 3 w) e).getF F.TLY_CHSTAT_SNAP_SKIP 3 = 1 := by decide +kernel

theorem witness_tally_commits : let d := tallyDev 0
    let s : Word := 0xFFFF0001
    let same := setWord [(F.TLY_CHCTL_EN, 1)]
    let off := setWord [(F.TLY_CHCTL_EN, 0)]
    let small := setWord [(F.TLY_CHCTL_EN, 1), (F.TLY_CHCTL_CLASS, 0)]
    let bad := withF d [(F.TLY_NREG_NBASE, 3, 192)]
    accepts d .headframe .TLY_SNHI 53 s = true ∧ (d.committed .TLY_SNHI 53 s).getF F.TLY_SNLO_ADDR_LO 53 % 4 = 0 ∧ (d.committed .TLY_SNHI 53 s).getF F.TLY_SNHI_ADDR_HI 53 ≤ 16 ∧
      (after (.snapshotListCommit .headframe 3 5 s) d).getF F.TLY_GEN_LISTGEN 3 = 1 ∧ accepts bad .headframe .TLY_CHCTL 3 same = true ∧
      (bad.committed .TLY_CHCTL 3 same).tlyBroken 3 = true ∧ accepts d .headframe .TLY_CHCTL 3 same = true ∧ (d.committed .TLY_CHCTL 3 same).tlyBroken 3 = false ∧
      (after (.tallyChannelCommit .headframe 3 same) d).tlyCh 3 = tallyCh ∧ accepts d .headframe .TLY_CHCTL 3 off = true ∧
      ((after (.tallyChannelCommit .headframe 3 off) d).tlyCh 3).gen = 1 ∧ accepts d .headframe .TLY_CHCTL 3 small = true ∧
      (d.committed .TLY_CHCTL 3 small).tlyBroken 3 = false ∧ ((after (.tallyChannelCommit .headframe 3 small) d).tlyCh 3).seq = 1 := by decide +kernel

theorem witness_near_store_open : let d : Dev := { tallyDev 0 with tly := {} }
    d.tly.opened = false ∧ (d.skip 29).st = .unused ∧ (after .nearStoreOpen d).tly.opened = true ∧ ((after .nearStoreOpen d).tlyCh 3).seq = 1 ∧
      ((after .nearStoreOpen d).skip 29).st = .run := by decide +kernel

theorem witness_store_fail : let d := tallyDev 100
    let r := withF d [(F.TLY_STAT_FAR_READY, 0, 1)]
    let one := withF d [(F.TLY_STAT_FAR_OK, 0, 0)]
    d.nearOk = true ∧ d.farOk = true ∧ (after (.nearStoreFail true 64) d).getF F.TLY_NEAR_CAUSE = 2 ∧ (after (.nearStoreFail true 64) d).nearOk = false ∧
      (after (.farStoreFail false 64) r).getF F.TLY_FAR_CAUSE = 1 ∧ (after (.farStoreFail false 64) r).getB F.TLY_STAT_FAR_READY = false ∧
      one.nearOk = true ∧ one.farOk = false ∧ (after (.nearStoreFail false 0) one).nv.logloss = true := by decide +kernel

theorem witness_far_store : let d := tallyDev 1000
    let l := tallyDev 1000 { farLost := 4, farFirst := 9 }
    let p : Dev := withF (tallyDev 250000003 { pages := [(3, [(0, 3, [1, 2])])] }) [(F.TLY_STAT_FAR_READY, 0, 1)]
    d.getB F.TLY_STAT_FAR_READY = false ∧ d.farOk = true ∧ (after .farStoreReady d).getB F.TLY_STAT_FAR_READY = true ∧ (after .farStoreReady l).tly.farLost = 0 ∧
      ((after .farStoreReady l).tlyCh 3).seq = 1 ∧ p.getB F.TLY_STAT_FAR_READY = true ∧ p.farPage 3 = some (0, [(0, 3, [1, 2])]) ∧ 3 + 250000000 ≤ p.tsc := by decide +kernel

/-! ### The endpoint and the movers -/

theorem witness_training : let d : Dev := { tsc := 9, hfr := { rom := true } }
    let t : Dev := { tsc := 100000009, pcie := { perst := false, start := some 9, d3 := true } }
    let u := withF t [(F.DMA_LINK_UP, 0, 1)]
    (d.setPcie { d.pcie with perst := false }).trainReached = true ∧ (d.setPcie { d.pcie with perst := false }).epHeld = false ∧
      (after .perstDeassertion d).pcie.start = some 9 ∧ t.epSpeed = 3 ∧ (after (.pcieLinkTrained 1 true) t).getF F.DMA_LINK_SPEED = 2 ∧
      (after (.pcieLinkTrained 1 true) t).getF F.DMA_LINK_WIDTH = 2 ∧ u.getB F.DMA_LINK_UP = true ∧ 9 + 100000000 ≤ u.tsc ∧
      (after (.configurationWrite true false false) u).pcie.msixEn = true ∧ (after (.configurationWrite true false false) u).pcie.d3 = false := by decide +kernel

theorem witness_endpoint_reset : let d := withF { mov := [(2, { bpos := 4, wait := true })] } [(F.DMA_LINK_UP, 0, 1), (F.DMA_LINK_SPEED, 0, 2), (F.DMA_MVCTL_EN, 2, 1), (F.DMA_MVSTAT_STATE, 2, 1)]
    (after (.endpointReset .perst) d).getF F.DMA_STAT_PERST = 1 ∧ (after (.endpointReset .perst) d).mvState 2 = 0 ∧ (after (.endpointReset .dlDown) d).getF F.DMA_STAT_LINKDOWN = 1 ∧
      (after (.endpointReset .function) d).getF F.DMA_LINK_UP = 1 ∧ (after (.endpointReset .function) d).getF F.DMA_LINK_SPEED = 2 ∧
      ((after (.endpointReset .function) d).mover 2).bpos = 4 ∧ ((after (.endpointReset .function) d).mover 2).wait = false := by decide +kernel

theorem witness_bar2 : let d : Dev := { withF {} [(F.DMA_LINK_UP, 0, 1)] with pcie := { dram := true }, recMem := [(5, 7)] }
    (List.range 4).all (fun i => (d.bar2At (4 + i)).isSome) = true ∧ d.poisoned 0 4 = false ∧ (after (.bar2Read 4 2) d).out = [.bar2 4 [0, 7] false] ∧
      (after .bar2Write d).getB F.TRB_STICKY0_BUS_UNMAP = true := by decide +kernel

theorem witness_msix : let d : Dev := { withF { tsc := 4000 } [(F.DMA_LINK_UP, 0, 1), (F.DMA_PBA_PBA, 1, 2), (F.DMA_MXCTL_MASK, 33, 0), (F.DMA_MXAL_ADDR_LO, 33, 0xFEE00000),
      (F.DMA_MXDAT_DATA, 33, 77), (F.DMA_VHOLD_HOLD, 33, 3)] with pcie := { msixEn := true }, vecLast := [(33, 1000)] }
    let e := after (.msixMessage 33) d
    d.bitF F.DMA_PBA_PBA (33 / 32) (33 % 32) = true ∧ d.getB F.DMA_MXCTL_MASK 33 = false ∧ 1000 + 1000 * d.getF F.DMA_VHOLD_HOLD 33 ≤ d.tsc ∧
      e.out = [.msix 33 0xFEE00000 77] ∧ e.getF F.DMA_PBA_PBA 1 = 0 ∧ SMap.get? e.vecLast 33 = some 4000 := by decide +kernel

/-- A device whose mover 2, of a kind, runs with a ring of 16 descriptors at 0x1000 and two descriptors posted. -/
def moverDev (kind : Nat) (v : Mover := {}) : Dev :=
  { withF (runSkip 30 { tsc := 9 }) [(F.DMA_LINK_UP, 0, 1), (F.DMA_MVCTL_EN, 2, 1), (F.DMA_MVCTL_KIND, 2, kind), (F.DMA_MVCTL_INDEX, 2, 3), (F.DMA_MVBA0_BA, 2, 0x1000),
      (F.DMA_MVSTAT_STATE, 2, 1), (F.DMA_MVTAIL_TAIL, 2, 2)] with pcie := { dram := true, perst := false }, mov := [(2, v)] }

/-- A Tally channel with one record in its near region. -/
def tallyOne : TlyCh := { en := true, full := true, nsize := 1, seq := 1, npos := 1, near := [(0, 0, 1)] }

theorem witness_mover_writes : let d := withF ({ pcie := { dram := true } } : Dev) [(F.DMA_MVCTL_KIND, 2, 3)]
    let on := setWord [(F.DMA_MVCTL_EN, 1)]
    let bad := withF d [(F.DMA_MVBA0_BA, 2, 32)]
    accepts d .host .DMA_MVCTL 2 on = true ∧ (d.committed .DMA_MVCTL 2 on).mvBroken 2 d = false ∧ (d.committed .DMA_MVCTL 2 on).getB F.DMA_MVCTL_EN 2 = true ∧
      ((after (.moverCommit .host 2 on) d).mvState 2 = 1 ∨ (after (.moverCommit .host 2 on) d).mvState 2 = 2) ∧
      (bad.committed .DMA_MVCTL 2 on).mvBroken 2 bad = true ∧ d.mayWrite .host .DMA_MVTAIL 2 = true ∧ (after (.moverDoorbell .host 2 5) d).getF F.DMA_MVTAIL_TAIL 2 = 5 := by decide +kernel

theorem witness_block_queue : let d := moverDev 3
    let bs : List Block := [⟨7, [1, 2], false⟩, ⟨8, [3], false⟩]
    d.mayWrite .headframe .DMA_BQTAIL 2 = true ∧ (d.mover 2).blocks.length + 2 ≤ 255 ∧ (d.mover 2).posted = 0 ∧
      ((after (.blockQueueDoorbell .headframe 2 2 bs) d).mover 2).blocks = [(0, ⟨7, [1, 2], false⟩), (1, ⟨8, [3], false⟩)] ∧
      ((after (.blockQueueDoorbell .headframe 2 2 bs) d).mover 2).posted = 2 := by decide +kernel

/-- A device whose host has taken every lump that skip 30 holds. -/
def hostTakes (d : Dev) : Dev := (List.range 8).foldl (fun d _ => after (.lumpReceive 30) d) d

theorem witness_descriptors : let d := moverDev 3
    let r (x : MvDesc) := hostTakes (after (.descriptorReadDone 2 x) d)
    d.mvRuns = true ∧ d.mvPosted 2 = 2 ∧ (d.mover 2).cur = none ∧ (d.mover 2).closing = false ∧ (d.mover 2).wait = false ∧ d.mvState 2 = 1 ∧ (d.mover 2).abort = 0 ∧
      (r ⟨0x2000, 64, false, false⟩).getF F.DMA_MVCNT_NOTOWN 2 = 1 ∧ (r ⟨0x2000, 0, true, false⟩).mvHead 2 = 1 ∧
      (r ⟨0x2000, 0, true, false⟩).out = [.hostWrite 0x100E ([1, 0] ++ List.replicate 8 0 ++ [9, 0, 0, 0, 0, 0, 0, 0]), .hostWrite 0x100C [0, 0]] ∧
      badLen ⟨0x2000, 65, true, false⟩ = true ∧ (r ⟨0x2000, 65, true, false⟩).mvHead 2 = 1 ∧ badLen ⟨0x2000, 64, true, false⟩ = false ∧ d.mvSmall 2 64 = false := by
  decide +kernel

theorem witness_descriptors_taken_and_aborted : let d := moverDev 3
    let a := moverDev 3 { abort := 2 }
    let tally : Dev := { moverDev 0 with nv := { chans := [(3, { tallyOne with npos := 2, near := [(0, 0, 2)] })], near := [(33, 7)] } }
    ((after (.descriptorReadDone 2 ⟨0x2000, 64, true, false⟩) d).mover 2).cur = some ⟨0x2000, 64, true, false⟩ ∧ (after (.moverError 2) d).mvState 2 = 3 ∧
      ((after (.descriptorReadDone 2 ⟨0x2000, 64, true, false⟩) a).mover 2).abort = 1 ∧ (after (.descriptorReadDone 2 ⟨0x2000, 64, true, false⟩) a).out = [] ∧
      (hostTakes (after (.descriptorReadDone 2 ⟨0x2000, 64, true, false⟩) a)).mvHead 2 = 1 ∧ tally.mvSmall 2 64 = true := by decide +kernel

theorem witness_buffers : let b : Block := ⟨7, [1, 2, 3], false⟩
    let x : MvDesc := ⟨0x2000, 64, true, true⟩
    let d := moverDev 3 { cur := some x, blocks := [(0, b)], posted := 1 }
    let t : Dev := { moverDev 0 { cur := some x } with nv := { chans := [(3, tallyOne)], near := [(33, 7)] } }
    let e := after (.bufferComplete 2) d
    d.mvRuns = true ∧ d.mvState 2 = 1 ∧ d.mvReady 2 = true ∧ d.mvOutranked 2 = false ∧ d.mvKind 2 = 3 ∧ (d.mover 2).blockAt = some (0, false, b) ∧
      e.out = [] ∧ (e.mover 2).closing = true ∧ (e.mover 2).bpos = 1 ∧ (hostTakes e).out.head? = some (.hostWrite 0x2000 [1, 2, 3]) ∧ (hostTakes e).mvHead 2 = 1 ∧
      ((hostTakes e).mover 2).closing = false ∧
      t.mvReady 2 = true ∧ t.mvOutranked 2 = false ∧ (t.tallyItem (t.mvIndex 2) (t.mvPos 2)).map (fun i => (i.next, i.gap, i.bytes.length, i.poison)) = some (1, false, 64, false) ∧
      (after (.bufferTimeout 2 1) t).mvPos 2 = 1 := by decide +kernel

theorem test_stopping_keeps_the_ring_to_hand_back : let d := moverDev 3
    let d := withF d [(F.DMA_MVCTL_INDEX, 2, 0)]
    let off := setWord [(F.DMA_MVCTL_EN, 0)]
    (d.committed .DMA_MVCTL 2 off).mvBroken 2 d = false ∧ accepts d .host .DMA_MVCTL 2 off = true ∧ ((after (.moverCommit .host 2 off) d).mover 2).abort = 2 ∧ (after (.moverCommit .host 2 off) d).mvState 2 = 0 := by decide +kernel

/-! ### Network, PTP and launch queues -/

/-- A device at a TSC in PROTECT whose four ports are enabled and have link, with PTP on all of them. -/
def netDev (tsc : Nat) (n : Net := {}) : Dev :=
  { withF { mode := .protect, tsc := tsc } [(F.NET_CTL_PEN, 0, 15), (F.NET_STAT_LINK, 0, 15), (F.PTP_CTL_EN, 0, 15), (F.NET_RLIM_RATE, 0, 100),
      (F.NET_RLIM_RATE, 2, 100)] with net := n }

/-- A frame of an EtherType, not addressed to this module alone. -/
def aFrame (etype : BitVec 16) : NetFrame := { etype, len := 100, fcsOk := true, src := 0x112233445566, seq := none, own := false, forUs := false }

theorem witness_frames : let d := netDev 0
    let q := withF (netDev 0 { dup := [(0, [⟨0x112233445566, 7, 0⟩])] }) [(F.NET_CTL_AB_MODE, 0, 1)]
    let f := { aFrame 0x0800 with seq := some 7 }
    let sv := (netDev 0).setSkip 28 { st := .run, credits := skipCap 28 }
    d.portOn 1 = true ∧ portServes d.mode 1 = true ∧ (after (.frameReceive 1 { aFrame 0x0800 with fcsOk := false }) d).getF F.NET_PCNT_FCS 1 = 1 ∧
      q.pairMode 1 ≠ 0 ∧ q.portOn 1 = true ∧ (q.duplicate 1 0x112233445566 7).2 = true ∧ (after (.frameReceive 1 f) q).getF F.NET_PCNT_DUP 1 = 1 ∧
      d.pairMode 2 = 0 ∧ 8 * (aFrame 0x0800).len.toNat ≤ 1000 * d.getF F.NET_RLIM_RATE 2 ∧ (after (.frameReceive 2 (aFrame 0x0800)) d).out = [.toGallery 2 (aFrame 0x0800)] ∧
      ((after (.frameReceive 1 (aFrame 0x88BA)) sv).skip 28).queue.map (fun l => (l.tag.len, l.body)) =
        [(8, .svPart 0 none), (5, .svPart 64 (some (0, none)))] := by decide +kernel

/-- An Announce of a sender. -/
def anAnnounce (sender : BitVec 80) : Announce := ⟨0, sender, 9, 128, 6, 0x21, 0, 128, 1, 37, true, false, false, 0x20, some 100⟩

theorem witness_ports_and_masters : let d := netDev 100
    let m := netDev 5000000000 { ptp := [(1, { masters := [⟨anAnnounce 5, 2000000000, none⟩, ⟨anAnnounce 6, 2000000001, none⟩] })], servo := { lastSync := some 2000000000 }
                                 slave := some 1 }
    let c : Dev := { m with clk := { m.clk with cal := [⟨0, 0, 0, 2⟩] } }
    d.bitF F.NET_STAT_LINK 0 1 = true ∧ (after (.portLinkLoss 1) d).bitF F.NET_STAT_LINK 0 1 = false ∧ d.halfOff (portHalf 1) = false ∧
      (after (.portLinkUp 1) (withF d [(F.NET_STAT_LINK, 0, 0)])).bitF F.NET_STAT_LINK 0 1 = true ∧ (anAnnounce 5).domain.toNat = d.getF F.PTP_CTL_DOMAIN ∧
      d.getB F.PTP_CTL_PROFILE = false ∧ ((after (.announceReceive 1 (anAnnounce 5)) d).ptpPort 1).masters = [⟨anAnnounce 5, 100, none⟩] ∧
      ((after (.announceTimeout 1) m).ptpPort 1).masters.length = 1 ∧ c.calState = 2 ∧ 2000000000 + 3000000000 ≤ c.tsc ∧ (after .syncTimeout c).calState = 3 := by
  decide +kernel

theorem witness_ptp_messages : let d := netDev 100000 { slave := some 1, servo := { wait := some ⟨7, 1600000, 16, 99000⟩ }, ptp := [(1, { seq := 7, t1 := some 1600000 })] }
    let dom : Byte := BitVec.ofNat 8 (d.getF F.PTP_CTL_DOMAIN)
    d.portOn 1 = true ∧ d.net.slave = some 1 ∧ dom.toNat = d.getF F.PTP_CTL_DOMAIN ∧ d.bitF F.PTP_CTL_EN 0 1 = true ∧
      (after (.ptpSyncReceive 1 dom 8 1600666 65536 none) d).net.servo.wait = some ⟨8, 1600000, 16, 100000⟩ ∧
      (after (.ptpSyncReceive 1 dom 8 1600666 0 (some 99990)) d).getF F.PTP_OFS_OFS = 10 ∧ (after (.ptpFollowUpReceive 1 dom 7 99990 0) d).getF F.PTP_OFS_OFS = 9 ∧
      (after (.pdelayReqReceive 1 dom 3 1600666 1600000) d).out = [.ptp 1 1 3 1600000 none, .ptp 1 2 3 1600294 none] ∧
      ((after (.pdelayReqSend 1 1600000) d).ptpPort 1).t1 = some 1600294 ∧ (after (.pdelayRespReceive 1 dom 7 1601666 200) d).getF F.PTP_PDLY_MLD 1 = 400 := by decide +kernel

/-- An untimed launch descriptor of 100 bytes, and a timed one. -/
def plainDesc : LqDesc := ⟨0x5000, 100, true, false, 0⟩
@[inherit_doc plainDesc] def timedDesc : LqDesc := ⟨0x5000, 100, true, true, 50⟩

theorem witness_launch_queue_commit : let d := withF (netDev 0) [(F.NET_LQSEL_PORT, 0, 1), (F.NET_LQSEL_QUEUE, 0, 3), (F.NET_LQBA1_BA, 0, 2), (F.NET_LQCFG_SIZE, 0, 4)]
    let w := setWord [(F.NET_LQCFG_EN, 1)]
    let bad := withF d [(F.NET_LQBA0_BA, 0, 32)]
    accepts d .headframe .NET_LQCFG 0 w = true ∧ (d.committed .NET_LQCFG 0 w).lqBroken .headframe = false ∧
      ((after (.launchQueueCommit .headframe w) d).lqueue 67).base = 0x20000 ∧ ((after (.launchQueueCommit .headframe w) d).lqueue 67).en = true ∧
      accepts bad .headframe .NET_LQCFG 0 w = true ∧ (bad.committed .NET_LQCFG 0 w).lqBroken .headframe = true := by decide +kernel

theorem witness_launch_doorbell : let d := netDev 0 { lq := [(67, { en := true })] }
    let x := d.lqueue 67
    d.mayWrite .headframe .NET_LQTAIL 67 = true ∧ x.en = true ∧ lqHost 67 = false ∧ (netDev 0).lqueue 67 = {} ∧ 1 % 4096 = (x.next + 1) % 2 ^ x.size ∧ plainDesc.len = 100 ∧
      d.pairMode 1 = 0 ∧ (d.netPort 1).busy = none ∧ d.net.lq.all (fun y => y.2.ents.isEmpty) = true ∧
      (after (.launchDoorbell .headframe 67 1 [plainDesc]) d).out = [.frame 1 3 0 100 false] ∧ (after (.launchDoorbell .headframe 67 5 []) (netDev 0)).getF F.NET_LQTAIL_TAIL 67 = 5 := by
  decide +kernel

theorem witness_frame_launch : let e : LqEnt := { ix := 2, desc := timedDesc, st := 1, read := true }
    let d := netDev 60 { lq := [(67, { en := true, ents := [e] })] }
    let b := d.setPort 1 { busy := some (64, false) }
    let t := netDev 100000 { lq := [(67, { en := true, base := 0x1000, ents := [{ e with st := 3 }] })], ports := [(1, { busy := some (67, true) })] }
    d.fronts 1 = [(67, e)] ∧ d.ahead e ≤ 0 ∧ (after (.frameLaunch 1) d).out = [.frame 1 3 2 100 false] ∧ b.fronts 1 = [(67, e)] ∧
      ((after (.frameLaunch 1) b).lqueue 67).ents = [{ e with status := 3 }] ∧
      (after (.frameTransmitDone 1 1600000) t).out = [.dramWrite 0x1050 ([0xB2, 0x86, 1, 0] ++ List.replicate 12 0), .dramWrite 0x104A [2, 0]] ∧
      (after (.frameTransmitDone 1 1600000) t).getF F.NET_LQSTAT_HEAD 67 = 1 := by decide +kernel

theorem witness_host_queue : let up (q : LQueue) : Dev := withF (netDev 60 { lq := [(113, q)], ports := [(1, { busy := some (64, false) })] }) [(F.DMA_LINK_UP, 0, 1), (F.NET_LQTAIL_TAIL, 113, 1)]
    let e : LqEnt := { ix := 0, desc := timedDesc, st := 1 }
    let d := up { en := true }
    let o := up { en := true, ents := [e], next := 1 }
    lqHost 113 = true ∧ d.hostUp = true ∧ (d.lqueue 113).next ≠ d.getF F.NET_LQTAIL_TAIL 113 % 2 ^ (d.lqueue 113).size ∧
      ((after (.hostFrameReadDone 1 49 (some timedDesc)) d).lqueue 113).next = 1 ∧ ((after (.hostReadFault 1 49 false) d).lqueue 113).stopped = true ∧
      (o.netPort 1).busy.isSome = true ∧ ((after (.hostFrameReadDone 1 49 none) o).lqueue 113).ents = [{ e with read := true }] ∧
      ((after (.hostReadFault 1 49 true) o).lqueue 113).ents = [] ∧ o.ahead e ≤ 20000 ∧ (o.lqueue 113).latepol = false ∧
      ((after (.hostFrameLate 1 49) o).lqueue 113).ents = [{ e with st := 2, status := 1 }] := by decide +kernel

/-! ### Headframe -/

/-- A device with submissions in Headframe, the first of them waiting or not. -/
def subsDev (waiting : Bool) (l : List Sub) (d : Dev := {}) : Dev := { d with hfr := { d.hfr with subs := l, waiting := waiting } }

theorem witness_submission : let w := setWord [(F.SYS_MBXGO_GO, 1)]
    let d : Dev := withF {} [(F.SYS_MBX_WORD, 0, 3)]
    let b := subsDev false [⟨.headframe, []⟩]
    let h : Dev := { hfr := { held := true }, pcie := { dram := true } }
    accepts d .headframe .SYS_MBXGO 0 w = true ∧ w.getLsbD F.SYS_MBXGO_GO.lo = true ∧ w.getLsbD (16 + F.SYS_MBXGO_GO.lo) = true ∧
      (after (.submission .headframe w) d).hfr.subs = [⟨.headframe, [(0, 3)]⟩] ∧ accepts b .headframe .SYS_MBXGO 0 w = true ∧
      (b.hfr.subs.any fun x => x.req == .headframe) = true ∧ (after (.submission .headframe w) b).getB F.HFR_RSTAT_BUSY_REJ = true ∧
      accepts h .host .SYS_MBXGO 0 w = true ∧ (after (.submission .host w) h).getF F.HFR_RSTAT_RESULT 1 = 9 := by decide +kernel

theorem witness_validation : let bad : Sub := ⟨.host, []⟩
    let rep : Sub := ⟨.host, [(0, 2 + 65536), (8, 4), (10, 5)]⟩
    let grp : Sub := ⟨.host, [(0, 1 + 65536), (8, 3 + 256)]⟩
    let D : Design := { cellDesign 0x0061 with settings := [⟨0, 1, 2, [1, 1, 1, 1, 1, 1, 1, 1], 1, 8, 1, 3⟩] }
    let on : Dev := withF { mode := .protect, seam := { design := D } } [(F.SAGE_STAT_RUN, 0, 1)]
    (on.validate bad).1 = 2 ∧ (after .validationComplete (subsDev false [bad] on)).getF F.HFR_RSTAT_RESULT 1 = 2 ∧ on.validate rep = (0, 0) ∧ rep.kind = 2 ∧
      (after .validationComplete (subsDev false [rep] on)).seam.reports = [⟨0, 0, 5, 0, 0, 0⟩] ∧ on.validate grp = (0, 0) ∧ grp.kind = 1 ∧
      (after .validationComplete (subsDev false [grp] on)).hfr.waiting = true := by decide +kernel

theorem witness_settings_commit : let x : Sub := ⟨.host, [(0, 1 + 65536), (8, 3 + 256)]⟩
    let d : Dev := { withF (subsDev true [x] { mode := .protect, tsc := 16000000 }) [(F.SAGE_STAT_RUN, 0, 1)] with sage := { ended := some 16000000, equal := true } }
    let p : Dev := inMode .protect
    d.hfr.subs = [x] ∧ d.hfr.waiting = true ∧ x.kind = 1 ∧ d.getB F.SAGE_STAT_RUN = true ∧ d.sage.ended = some d.tsc ∧ d.sage.equal = true ∧
      sageRuns p.mode = true ∧ p.hfr.held = false ∧ p.sage.start = none ∧ p.swapPending = false ∧ p.tsc % 8000000 = 0 ∧
      (after .sagePassStart p).sage.start = some 0 ∧ (after .sagePassStart p).getB F.SAGE_STAT_RUN = true := by decide +kernel

/-- A device in PROTECT whose pass of Sage can be compared, with both halves offline. -/
def sageDev : Dev :=
  { withF { mode := .protect, tsc := 16000000 } [(F.SAGE_STAT_RUN, 0, 1), (F.SYS_HALF_N_OFF, 0, 1), (F.SYS_HALF_S_OFF, 0, 1)] with sage := { start := some 8000000 } }

theorem crc32cBit_lt (r : Nat) (h : r < 2 ^ 32) : crc32cBit r < 2 ^ 32 := by
  unfold crc32cBit
  split
  · exact Nat.xor_lt_two_pow (by omega) (by omega)
  · omega

theorem crc32cByte_lt (r : Nat) (b : Byte) (h : r < 2 ^ 32) : crc32cByte r b < 2 ^ 32 := by
  have hb : r ^^^ b.toNat < 2 ^ 32 := Nat.xor_lt_two_pow h (by have := b.isLt; omega)
  simp only [crc32cByte, List.range, List.range.loop, List.foldl_cons, List.foldl_nil]
  iterate 8 apply crc32cBit_lt
  exact hb

theorem crc32c_lt (bs : List Byte) : crc32c bs < 2 ^ 32 := by
  have h : ∀ (l : List Byte) (r : Nat), r < 2 ^ 32 → l.foldl crc32cByte r < 2 ^ 32 := by
    intro l
    induction l with
    | nil => exact fun r hr => hr
    | cons b l ih => exact fun r hr => ih _ (crc32cByte_lt r b hr)
  rw [crc32c_eq]
  exact Nat.xor_lt_two_pow (h bs _ (by decide)) (by decide)

theorem witness_sage_compare : sageDev.sage.start = some 8000000 ∧ sageDev.getB F.SAGE_STAT_RUN = true ∧ sageRuns sageDev.mode = true ∧ sageDev.tsc % 8000000 = 0 ∧
    8000000 + 5000000 ≤ sageDev.tsc ∧ sageDev.halfOff .north = true ∧ sageDev.halfOff .south = true ∧ sageDev.seam.design.policy = false := by decide +kernel

theorem witness_sage_equal : ∃ errC : Word, ((sageDev.sageCrc .c ^^^ errC.toNat) != sageDev.getF F.SAGE_REFC_REF) = false := by
  refine ⟨BitVec.ofNat 32 (sageDev.sageCrc .c ^^^ sageDev.getF F.SAGE_REFC_REF), ?_⟩
  have h : sageDev.sageCrc .c ^^^ sageDev.getF F.SAGE_REFC_REF < 2 ^ 32 := Nat.xor_lt_two_pow (crc32c_lt _) (by decide +kernel)
  rw [BitVec.toNat_ofNat, Nat.mod_eq_of_lt h, ← Nat.xor_assoc, Nat.xor_self, Nat.zero_xor]
  simp

theorem witness_sage_differs : ∃ errC : Word, ((sageDev.sageCrc .c ^^^ errC.toNat) != sageDev.getF F.SAGE_REFC_REF) = true := by
  by_contra h
  simp only [not_exists, bne_iff_ne, ne_eq, not_not] at h
  have h2 : sageDev.sageCrc .c ^^^ (0 : Word).toNat = sageDev.sageCrc .c ^^^ (1 : Word).toNat := (h 0).trans (h 1).symm
  exact absurd (Nat.xor_right_injective h2) (by decide)

/-- A device whose authorised request of a code, with the first word of its argument, is to be carried out now. -/
def authDev (code arg : Nat) (d : Dev := {}) : Dev := subsDev true [⟨.host, [(0, 3 + 256 * code), (8, arg)]⟩] d

/-- The RESULT that the request of a device answers. -/
def answer (c : Instr) (d : Dev) : Nat := (after c d).getF F.HFR_RSTAT_RESULT 1

theorem witness_time_requests : let c (st : Nat) : Dev := { clk := { cal := [⟨0, 0, 0, st⟩] }, net := { servo := { latest := some (7, 0) } } }
    let l := withF ({} : Dev) [(F.HFR_LOCK_TIME, 0, 1)]
    ((authDev 1 0 (c 4)).authDue 1).isSome = true ∧ (authDev 1 0 (c 4)).calState = 4 ∧ (authDev 1 0 (c 4)).tsc ≤ 0 + 2000000000 ∧
      (authDev 1 0 (c 2)).calState ≠ 4 ∧ answer .restep (authDev 1 0 (c 2)) = 9 ∧ ((authDev 2 5).authDue 2).isSome = true ∧
      (authDev 2 5).getB F.HFR_LOCK_TIME = false ∧ (authDev 2 5).getB F.CLK_CAL_STAT_STEPPED = false ∧ (authDev 2 5).getB F.PTP_STAT_SLAVE = false ∧
      answer .calSet (authDev 2 5 l) = 9 ∧ (authDev 2 5).getB F.SYS_START_LOAD_HELD = false := by decide +kernel

theorem witness_gate_and_log_requests : let ok := withF ({} : Dev) [(F.TLY_STAT_NEAR_OK, 0, 1), (F.TLY_STAT_FAR_OK, 0, 1)]
    let bad := withF ok [(F.TLY_STAT_FAR_OK, 0, 0)]
    ((authDev 3 1 (inMode .commission)).authDue 3).isSome = true ∧ answer .testout (authDev 3 1 (inMode .commission)) = 0 ∧
      (after .testout (authDev 3 1 (inMode .commission))).getB F.HFR_GATE_OPEN = true ∧ answer .testout (authDev 3 1 (inMode .protect)) = 9 ∧
      ok.nearOk = true ∧ ok.farOk = true ∧ ((authDev 5 0 ok).authDue 5).isSome = true ∧ answer .loglossClear (authDev 5 0 ok) = 0 ∧
      bad.farOk = false ∧ answer .loglossClear (authDev 5 0 bad) = 9 ∧ ((authDev 4 0 canaryDev).authDue 4).isSome = true := by decide +kernel

theorem witness_rollback_and_preference : let p (rows : List Nat) : Dev := { hfr := { passed := true }, seam := { design := { rollback := 9 } }, nv := { rows := rows } }
    let go (v : Nat) (rows : List Nat) : Nat := answer .rollbackRaise (authDev 8 v (p rows))
    ((authDev 8 7 (p [5])).authDue 8).isSome = true ∧ go 7 [5] = 0 ∧ go 5 [5] = 9 ∧ go 10 [5] = 9 ∧ go 7 (List.replicate 128 5) = 10 ∧
      ((authDev 9 1).authDue 9).isSome = true ∧ (after .imagePref (authDev 9 1)).nv.pref = 1 ∧ ((authDev 21 1).authDue 21).isSome = true ∧
      (after .startmode (authDev 21 1)).nv.startmode = 1 := by decide +kernel

theorem witness_mode_requests : let m (x : Mode) : Dev := { mode := x, sage := { passed := true, equal := true } }
    ((authDev 16 0 (m .protect)).authDue 16).isSome = true ∧ (after .reqCommission (authDev 16 0 (m .protect))).mode = .commission ∧
      answer .reqCommission (authDev 16 0 (m .safe)) = 9 ∧ ((authDev 17 0 (m .commission)).authDue 17).isSome = true ∧ (authDev 17 0 (m .commission)).resumeOk = true ∧
      (after .reqProtect (authDev 17 0 (m .commission))).mode = .protect ∧ answer .reqProtect (authDev 17 0 (inMode .commission)) = 9 ∧
      ((authDev 18 0 (m .degraded)).authDue 18).isSome = true ∧ (after .reqResume (authDev 18 0 (m .degraded))).mode = .protect ∧
      answer .reqResume (authDev 18 0 (m .protect)) = 9 ∧ ((authDev 19 0 (m .protect)).authDue 19).isSome = true ∧
      ((authDev 20 0 (m .protect)).authDue 20).isSome = true ∧ answer .reqRestart (authDev 20 0 (m .hold)) = 9 := by decide +kernel

theorem witness_keys : let u (k : KeySlot) : Dev := { nv := { keys := [(2, k)] } }
    let x : Sub := ⟨.host, [(0, 3 + 256 * 7), (4, 2), (8, 2)]⟩
    ((authDev 6 2).authDue 6).isSome = true ∧ ((authDev 6 2).keySlot 2).hash = [] ∧ ((authDev 6 2).keySlot 2).revoked = false ∧
      answer .keyEnrol (authDev 6 2 (u { hash := [1] })) = 9 ∧ ((subsDev true [x]).authDue 7).isSome = true ∧ ((subsDev true [x]).keySlot 2).valid = false ∧
      x.field 16 1 = x.arg 1 ∧ answer .keyRevoke (subsDev true [x]) = 9 ∧ (authDev 7 2).authDue 7 = some ⟨.host, [(0, 1795), (8, 2)]⟩ ∧
      answer .keyRevoke (authDev 7 2) = 0 ∧ ((after .keyRevoke (authDev 7 2)).keySlot 2).revoked = true := by decide +kernel

/-- A device with one valid key, and the request to revoke it. -/
def lastKeyDev : Dev := authDev 7 2 { nv := { keys := [(2, ⟨sha384 [], false, []⟩)] } }

theorem witness_last_key : (lastKeyDev.authDue 7).isSome = true ∧
    ((lastKeyDev.keySlot 2).valid && (List.range 4).countP (fun i => (lastKeyDev.keySlot i).valid) == 1) = true := by
  have h : (⟨sha384 [], false, []⟩ : KeySlot).valid = true := by
    have : sha384 [] ≠ [] := by decide +kernel
    simp [KeySlot.valid, this]
  have h2 : lastKeyDev.keySlot 2 = ⟨sha384 [], false, []⟩ := rfl
  have h0 : (lastKeyDev.keySlot 0).valid = false := by decide +kernel
  have h1 : (lastKeyDev.keySlot 1).valid = false := by decide +kernel
  have h3 : (lastKeyDev.keySlot 3).valid = false := by decide +kernel
  refine ⟨by decide +kernel, ?_⟩
  simp [List.range, List.range.loop, h0, h1, h2, h3, h]

/-! ### The supply, HOLD and Thyme -/

/-- A device in a mode at an instant, with a valid supply or without. -/
def powerDev (m : Mode) (ok : Bool) (tsc : Nat := 5) (h : Hfr := {}) : Dev := withF { mode := m, tsc := tsc, hfr := h } [(F.SYS_PWR_SUPPLY_OK, 0, ok.toNat)]

theorem witness_supply_valid : let off := { powerDev .off false with nv := { pcyc := 2 ^ 24 - 1, thyme := { base := 7 } } }
    let held := powerDev .hold false 5 { holdDone := true, restart := true }
    (after (.supplyValid 3) off).mode = .boot ∧ (after (.supplyValid 3) off).nv.pcyc = 0 ∧ (after (.supplyValid 3) off).nv.thyme.base = 10 ∧
      (after (.supplyValid 3) off).tsc = 0 ∧ (powerDev .commission true).mode ≠ .off ∧ (powerDev .commission true).getB F.SYS_PWR_SUPPLY_OK = true ∧
      (powerDev .commission false).getB F.SYS_PWR_SUPPLY_OK = false ∧ (after (.supplyValid 3) (powerDev .commission false)).getB F.SYS_PWR_SUPPLY_OK = true ∧
      held.getB F.SYS_PWR_SUPPLY_OK = false ∧ (after (.supplyValid 3) held).mode = .boot ∧ (after (.supplyValid 3) held).hfr.origin = 2 := by decide +kernel

theorem witness_supply_lost : let p := powerDev .protect true
    let s := powerDev .safe true
    p.getB F.SYS_PWR_SUPPLY_OK = true ∧ (after (.supplyLost true false) p).getB F.SYS_PWR_OVERVOLT = true ∧ (after (.supplyLost true false) p).mode = .protect ∧
      (after (.supplyLost true false) p).bitF F.DMA_PBA_PBA 0 21 = true ∧ (after (.supplyLost false true) p).mode = .hold ∧
      (after (.supplyLost false true) p).hfr.holdAt = 5 ∧ (after (.supplyLost false false) s).mode = .hold ∧
      (after (.supplyLost false false) s).getF F.SYS_MODE_CAUSE = 0x0040 := by decide +kernel

theorem witness_hold_entry : let d := withF (powerDev .degraded false) [(F.SYS_PWR_RIDE, 0, 1)]
    d.getB F.SYS_PWR_RIDE = true ∧ (after .holdEntry d).mode = .hold ∧ (after .holdEntry d).hfr.logsClosed = true := by decide +kernel

theorem witness_hold : let late (x : Option (Nat × List Nat)) : Dev := powerDev .hold false 50000007 { holdAt := 7, snap := x }
    let ended (ok : Bool) : Dev := powerDev .hold ok 100 { logsClosed := true }
    let fault := powerDev .hold true 200000009 { holdFault := some 9 }
    (late none).hfr.holdAt + 50000000 ≤ (late none).tsc ∧ (after .snapFail (late (some (1, [4])))).hfr.snapFailed = true ∧ (ended false).hfr.holdFault = none ∧
      (ended false).hfr.snap = none ∧ (ended false).getB F.SYS_PWR_SUPPLY_OK = false ∧ (after .holdDone (ended false)).hfr.holdDone = true ∧
      (after .holdDone (ended true)).mode = .boot ∧ (after .holdDone (ended true)).hfr.origin = 1 ∧ 9 + 200000000 ≤ fault.tsc ∧
      fault.getB F.SYS_PWR_SUPPLY_OK = true ∧ (after .holdFaultEnd fault).mode = .boot ∧ (after .holdupExhausted (ended false)).mode = .off := by decide +kernel

theorem witness_store_and_thyme : let d := powerDev .commission true 900000000000
    let off : Dev := { mode := .off, nv := { thyme := { base := 2 ^ 48 - 1, opens := 65535 } } }
    (after (.holdupCapMeasure 1749) d).getB F.SYS_PWR_HOLDUP_LOW = true ∧ (after (.holdupCapMeasure 1750) d).getB F.SYS_PWR_HOLDUP_LOW = false ∧
      d.getB F.SYS_PWR_HOLDUP_LOW = false ∧ (after .holdupCharged d).getB F.SYS_PWR_HOLD_READY = true ∧ 900000000000 ≤ d.tsc ∧
      (after (.kaLow true) d).getB F.SYS_PWR_KA_LOW = true ∧ (after .thymeStop off).nv.thyme.run = false ∧
      (after (.tamperOpening 5) d).getB F.HFR_TAMPER_OPEN_S = true ∧ off.nv.thyme.run = true ∧ (after (.tamperOpening 5) off).nv.thyme.opens = 65535 ∧
      (after (.tamperOpening 5) off).nv.thyme.last = 4 := by decide +kernel
/-! ### Start, halves and faults of Headframe -/

theorem witness_boot : let d : Dev := { mode := .boot, tsc := 5, hfr := { origin := 2 } }
    let r := { d with hfr := { d.hfr with rom := true } }
    d.mode = .boot ∧ d.hfr.rom = false ∧ d.hfr.held = false ∧ (after (.headframeRomStart 5) d).hfr.rom = true ∧ (after (.headframeRomStart 5) d).getF F.DMA_LINK_STRAP = 5 ∧
      (after (.headframeRomStart 5) d).getF F.SYS_MODE_PREV = 6 ∧ (after .bootDone r).mode = .load ∧ (after .bootDone r).pcie.dram = true ∧ r.skips = [] ∧
      ((after .bootDone r).skip 4).credits = 1024 ∧ ((after .bootDone r).skip 30).credits = 256 ∧ d.halfOff .north = false := by decide +kernel

/-- A device in LOAD with the given slots tried. -/
def loadDev (tried : List Nat) (passed : Bool := false) : Dev := { mode := .load, tsc := 77, hfr := { tried := tried, passed := passed }, nv := { pref := 1 } }

theorem witness_slots_tried : (loadDev []).loading = true ∧ (loadDev []).hfr.passed = false ∧ ((loadDev []).imageCode []).1 = 1 ∧
    (after .imageAuthenticated (loadDev [])).hfr.tried = [1] ∧ (after .imageAuthenticated (loadDev [])).getF F.HFR_IMG_FAIL_B = 1 ∧
    (after .imageAuthenticated (loadDev [])).getB F.HFR_IMG_NONE = false ∧ (after .imageAuthenticated (loadDev [1])).hfr.tried = [1, 0] ∧
    (after .imageAuthenticated (loadDev [1])).getF F.HFR_IMG_FAIL_A = 1 ∧ (after .imageAuthenticated (loadDev [1])).getB F.HFR_IMG_NONE = true := by decide +kernel

theorem witness_load_done : let d := loadDev [1] true
    d.loading = true ∧ d.hfr.passed = true ∧ d.tsc < 2 ^ 64 ∧ d.anyHalfOff = false := by decide +kernel

theorem witness_half_lost : let d := runSkip 4 { mode := .protect, tsc := 9 }
    let e := after (.halfLost .north) d
    d.halfOff .north = false ∧ skipHalf 4 = some .north ∧ (d.skip 4).st = .run ∧ e.halfOff .north = true ∧ (e.half .north).failedAt = 9 ∧ e.mode = .degraded ∧
      (e.skip 4).st = .offline ∧ e.getF F.SYS_HALF_LOSSES = 1 ∧ (after (.halfLost .north) e).getF F.SYS_HALF_LOSSES = 1 := by decide +kernel

/-- A device whose south half failed at an instant, with readmissions before. -/
def halfDev (restarted : Bool) (readmits : List Nat) : Dev :=
  withF { mode := .degraded, tsc := 3000000000, halves := [(Half.south.num, ⟨2800000000, restarted, readmits⟩)] } [(F.SYS_HALF_S_OFF, 0, 1)]

theorem witness_half_back : let d := (halfDev true [3, 2]).setSkip 5 { st := .offline, was := .run }
    let full := halfDev true [3, 2, 1]
    d.halfOff .south = true ∧ halfModes d.mode = true ∧ d.hfr.held = false ∧ d.halfGivenUp .south = false ∧ (d.half .south).restarted = true ∧
      (d.half .south).failedAt + 200000000 ≤ d.tsc ∧ d.halfTries .south = 2 ∧ skipHalf 5 = some .south ∧ (d.skip 5).st = .offline ∧
      (after (.halfReadmit .south) d).halfOff .south = false ∧ ((after (.halfReadmit .south) d).skip 5).st = .run ∧
      ((after (.halfReadmit .south) d).half .south).readmits = [3000000000, 3, 2] ∧ full.halfTries .south = 3 ∧ (after (.halfReadmit .south) full).halfOff .south = true ∧
      ((after (.halfRestart .south) (halfDev false [])).half .south).restarted = true := by decide +kernel

/-- A device whose calendar passes a whole second in the present ns. -/
def secondDev (st : Nat) : Dev := { mode := .commission, tsc := 1000000000, clk := { cal := [⟨0, 0, 0, st⟩] } }

theorem witness_pps_out : (secondDev 2).calState = 2 ∧ (secondDev 2).secondPassed = true ∧ (secondDev 3).calState = 3 ∧ (secondDev 3).secondPassed = true ∧
    (after .ppsOutRise (secondDev 2)).pps = some 1100000000 ∧ (secondDev 4).calState ≠ 2 ∧ (secondDev 4).calState ≠ 3 ∧ (after .ppsOutRise (secondDev 4)).pps = none ∧
    (after .ppsOutFall { secondDev 2 with pps := some 1000000000 }).pps = none ∧
    (after .ppsOutFall { secondDev 2 with pps := some 1000000001 }).pps = some 1000000001 := by decide +kernel

theorem witness_headframe_fault : let d : Dev := { mode := .protect, tsc := 20000000 }
    let e := after (.headframeFault true 0x1234) d
    let h (giveup : Bool) : Dev := { mode := .safe, tsc := 20000000, hfr := { held := true, faults := [10000000], giveup := giveup } }
    d.hfr.held = false ∧ e.hfr.held = true ∧ e.mode = .safe ∧ e.getF F.SYS_MODE_CAUSE = 0x0031 ∧ (after (.headframeWatchdogExpiry 0) d).mode = .safe ∧
      (after (.headframeFault false 0) { d with mode := .hold }).mode = .hold ∧ (after (.headframeFault false 0) e).hfr.faults = e.hfr.faults ∧
      (h false).hfr.faults.headD 0 + 10000000 ≤ (h false).tsc ∧ (after .headframeRestart (h false)).hfr.held = false ∧
      (after .headframeRestart (h true)).hfr.held = true := by decide +kernel
/-! ### Scrubbers, NAND and temperature -/

/-- A word of a region with bits in error. -/
def badWord (addr : Nat) (err : Nat) : BadWord := { addr := BitVec.ofNat _ addr, err := BitVec.ofNat _ err, face := 0, what := .other }

/-- A device whose DRAM is initialised. -/
def dramDev : Dev := { mode := .commission, tsc := 1, pcie := { dram := true } }

theorem witness_decode : decodeWord (2 ^ 63) = .ok 1 0 ∧ decodeWord 0 = .ok 0 0 := by decide +kernel

theorem witness_scrub : let d := dramDev
    let e := after (.scrubPassEnd 0 [badWord 16 1]) d
    let u := after (.scrubPassEnd 0 [badWord 16 7]) { d with recMem := [(16, 0xAA)] }
    d.scrubRuns 0 = true ∧ ({} : Dev).scrubRuns 0 = false ∧ (badWord 16 1).addr.toNat % 8 = 0 ∧ (badWord 16 1).addr.toNat < regionSize 0 ∧
      (SMap.getD d.bad 0 []).contains (badIndex 0 (badWord 16 1)) = false ∧ d.getF F.TRB_MEMCNT_UNCORR 0 < 65535 ∧ d.getF F.TRB_MEMCNT_CORR 0 < 65535 ∧
      d.getF F.TRB_MEMINFO_KIND ≠ 3 ∧ decodeWord (badWord 16 1).err.toNat = .ok 1 0 ∧ e.getF F.TRB_MEMCNT_CORR 0 = 1 ∧ e.getF F.TRB_SCRUB_PASSES 0 = 1 ∧
      (after (.scrubPassEnd 0 [badWord 16 5]) d).getB F.TRB_STICKY3_MEM_CE = true ∧ decodeWord (badWord 16 7).err.toNat = .uncorrectable ∧
      u.getF F.TRB_MEMINFO_KIND = 3 ∧ u.recMem = [] ∧ (after (.scrubLate 0) d).getB F.TRB_STICKY3_SCRUB_LATE = true := by decide +kernel

theorem witness_nand_and_temperature : let go (slot : Option (Fin 2)) (corr : Byte) (pe rate : BitVec 16) : Dev := after (.nandRefresh slot 0 corr pe rate) dramDev
    dramDev.getF F.TRB_MEMCNT_CORR 7 < 65535 ∧ (go none 0 24000 2000).getB F.TRB_STICKY3_NAND_WEAR = false ∧ (go none 0 24001 0).getB F.TRB_STICKY3_NAND_WEAR = true ∧
      (go none 0 0 2001).getB F.TRB_STICKY3_NAND_WEAR = true ∧ (go none 32 0 0).getB F.TRB_STICKY3_MEM_CE = false ∧ (go none 33 0 0).getB F.TRB_STICKY3_MEM_CE = true ∧
      (go none 40 0 0).getF F.TRB_MEMCNT_CORR 7 = 1 ∧ (go none 41 0 0).getB F.TRB_STICKY3_MEM_UE = true ∧ (after .temp dramDev).getB F.TRB_STICKY2_TEMP = true := by
  decide +kernel
end Sys2Proof.Tests
end

/-! ### Writes to the peek region (R30) -/
section
namespace Sys2Proof.Machine

/-- A word's write in the peek region is dropped before any window, lock or width check (R524, check 3). -/
theorem Dev.writeWord_peek (d : Dev) (req : Requester) (size v : Nat) (ring : Ring) {a i : Nat} {r : Reg}
    (hm : mapped a = some (.peek, r, i)) : d.writeWord req a size v ring = d := by
  simp [Dev.writeWord, hm]

/-- Where a register is mapped, an access of 8 bytes meets a pair exactly if that register is one (R43). -/
theorem atPair_of_mapped {a i : Nat} {g : BusRegion} {r : Reg} (hm : mapped a = some (g, r, i)) :
    atPair a = true ↔ r.desc.cls = .pair := by
  simp [atPair, hm]

/-- A well-shaped write whose every word lies in the peek region changes nothing. -/
theorem Dev.busWrite_peek (d : Dev) (req : Requester) (acc : Access) (data : Nat) (ring : Ring) {r : Reg} {i : Nat}
    (hs : accessShape acc = .ok) (hm : mapped acc.addr.toNat = some (.peek, r, i))
    (h8 : acc.size = 8 → r.desc.cls = .pair ∨ ∃ q j, mapped (acc.addr.toNat + 4) = some (.peek, q, j)) :
    d.busWrite req acc data ring = d := by
  simp only [Dev.busWrite, hs]
  split
  case isTrue two =>
    obtain ⟨size, apart⟩ := two
    have single : r.desc.cls ≠ .pair := fun e => by simp [(atPair_of_mapped hm).2 e] at apart
    obtain ⟨q, j, upper⟩ := (h8 size).resolve_left single
    rw [Dev.writeWord_peek d req _ _ ring hm, Dev.writeWord_peek d req _ _ ring upper]
  case isFalse => exact Dev.writeWord_peek d req _ _ ring hm

/-- An access that leaves the device as it is leaves the state as it is, whether or not its requester runs. -/
theorem State.access_of_fixed (s : State) (req : Requester) (f : Dev → Dev) (hf : f s.dev = s.dev) :
    s.access req f = .next s := by
  have kept : (if s.dev.reqUp req then f s.dev else s.dev) = s.dev := by simp [hf]
  by_cases hoff : s.dev.mode = .off
  · exact State.up_off s _ hoff
  · rw [State.access, State.up_on s _ hoff, kept]

/-- Settles O16: by the judgement of R524, each word of the write is dropped at its check of the peek region. -/
theorem peekWritesAreIgnored : Obligations.PeekWritesAreIgnored := by
  intro s req acc r i data ring hs hm h8
  rw [Gives, exec_registerWrite]
  exact State.access_of_fixed s req _ (Dev.busWrite_peek s.dev req acc data.toNat ring hs hm h8)

end Sys2Proof.Machine
end

/-! ### The gates of the disagreement check (R63) -/
section
namespace Sys2Proof.Machine

/-- A 1 s gate ends now and can be judged: both oscillators run, the TSC is at a multiple of 1 s, and this gate has not been ended before. -/
structure Dev.GateDue (d : Dev) : Prop where
  aRuns : d.clk.aStopped = false
  bRuns : d.clk.bStopped = false
  second : d.tsc % 1000000000 = 0
  fresh : d.clk.gate < d.tsc

/-- The end of a gate, with the disagreement placed in DIFF and not yet judged. -/
def Dev.gateEnd (d : Dev) (diff : BitVec 16) : Dev :=
  { d with clk := { d.clk with gate := d.tsc } }.setF F.CLK_TCXO_DIFF 0 diff.toNat

/-- One more gate in a row beyond 2 ppm. -/
def Dev.countBadGate (d : Dev) : Dev := { d with clk := { d.clk with badGates := d.clk.badGates + 1, goodGates := 0 } }

/-- One more gate in a row within 2 ppm. -/
def Dev.countGoodGate (d : Dev) : Dev := { d with clk := { d.clk with goodGates := d.clk.goodGates + 1, badGates := 0 } }

/-- The judgement of a gate beyond 2 ppm that is not the first in a row. -/
def Dev.setMismatch (d : Dev) : Dev := (d.setF F.CLK_TCXO_MISMATCH 0 1).trouble F.TRB_STICKY0_TCXO_DIFF

/-- The flag that a gate finds is the one from before its DIFF was placed: the two fields share a register at different bits. -/
@[simp] theorem Dev.gateEnd_mismatch (d : Dev) (diff : BitVec 16) :
    (d.gateEnd diff).getB F.CLK_TCXO_MISMATCH = d.getB F.CLK_TCXO_MISMATCH := by
  rw [Dev.gateEnd, Dev.getB, Dev.getF_setF_other _ _ (by decide) (by decide) (.inr (.inl (by decide)))]
  rfl

@[simp] theorem Dev.gateEnd_countBadGate_badGates (d : Dev) (diff : BitVec 16) :
    (d.gateEnd diff).countBadGate.clk.badGates = d.clk.badGates + 1 := rfl

@[simp] theorem Dev.gateEnd_countGoodGate_goodGates (d : Dev) (diff : BitVec 16) :
    (d.gateEnd diff).countGoodGate.clk.goodGates = d.clk.goodGates + 1 := rfl

section
variable {s : State} {diff : BitVec 16} (on : s.dev.On) (due : s.dev.GateDue)
include on due

/-- A gate that is due places its disagreement and judges it against 2 ppm, by the run of gates that it ends. -/
theorem gives_tcxoGate_due : Gives (.tcxoGate diff) s
    (if 2000 < diff.toInt.natAbs then
      let bad := (s.dev.gateEnd diff).countBadGate
      if 2 ≤ bad.clk.badGates then
        if (s.dev.gateEnd diff).getB F.CLK_TCXO_MISMATCH then bad.setMismatch else bad.setMismatch.tcxoRecord 0
      else bad
    else
      let good := (s.dev.gateEnd diff).countGoodGate
      if 2 ≤ good.clk.goodGates ∧ (s.dev.gateEnd diff).getB F.CLK_TCXO_MISMATCH then
        (good.setF F.CLK_TCXO_MISMATCH 0 0).tcxoRecord 1
      else good) := by
  obtain ⟨aRuns, bRuns, second, fresh⟩ := due
  have judged : ¬(s.dev.clk.aStopped ∨ s.dev.clk.bStopped ∨ s.dev.tsc % 1000000000 ≠ 0 ∨ s.dev.tsc ≤ s.dev.clk.gate) := by
    simp [aRuns, bRuns, second, fresh]
  rw [Gives, exec_tcxoGate, execTcxoGate, State.up_on s _ on, if_neg judged]
  rfl

theorem gives_tcxoGate_first_beyond (beyond : 2000 < diff.toInt.natAbs) (first : s.dev.clk.badGates = 0) :
    Gives (.tcxoGate diff) s (s.dev.gateEnd diff).countBadGate := by
  simpa [beyond, first] using gives_tcxoGate_due (diff := diff) on due

/-- From the second gate in a row beyond 2 ppm on, the flags are set; the record (R365) goes with the rise of MISMATCH. -/
theorem gives_tcxoGate_further_beyond (beyond : 2000 < diff.toInt.natAbs) (further : 1 ≤ s.dev.clk.badGates) :
    Gives (.tcxoGate diff) s
      (if s.dev.getB F.CLK_TCXO_MISMATCH then (s.dev.gateEnd diff).countBadGate.setMismatch
      else (s.dev.gateEnd diff).countBadGate.setMismatch.tcxoRecord 0) := by
  simpa [beyond, further] using gives_tcxoGate_due (diff := diff) on due

/-- A gate within 2 ppm is only counted while it is the first in a row, or while there is no mismatch to clear. -/
theorem gives_tcxoGate_within_counted (within : diff.toInt.natAbs ≤ 2000)
    (idle : s.dev.clk.goodGates = 0 ∨ s.dev.getB F.CLK_TCXO_MISMATCH = false) :
    Gives (.tcxoGate diff) s (s.dev.gateEnd diff).countGoodGate := by
  have kept : ¬(1 ≤ s.dev.clk.goodGates ∧ s.dev.getB F.CLK_TCXO_MISMATCH = true) := by
    rintro ⟨run, mismatch⟩
    rcases idle with first | clear
    · omega
    · simp [clear] at mismatch
  simpa [Nat.not_lt.2 within, kept] using gives_tcxoGate_due (diff := diff) on due

theorem gives_tcxoGate_within_clears (within : diff.toInt.natAbs ≤ 2000) (further : 1 ≤ s.dev.clk.goodGates)
    (mismatch : s.dev.getB F.CLK_TCXO_MISMATCH = true) :
    Gives (.tcxoGate diff) s (((s.dev.gateEnd diff).countGoodGate.setF F.CLK_TCXO_MISMATCH 0 0).tcxoRecord 1) := by
  simpa [Nat.not_lt.2 within, further, mismatch] using gives_tcxoGate_due (diff := diff) on due

end

/-- Settles O22: a case for each run of gates that this one may end, and for the flag that it finds. -/
theorem tcxoGatesSetAndClearMismatch : Obligations.TcxoGatesSetAndClearMismatch := by
  intro s diff on aRuns bRuns second fresh
  have due : s.dev.GateDue := ⟨aRuns, bRuns, second, fresh⟩
  refine ⟨gives_tcxoGate_first_beyond on due, fun beyond further mismatch => ?_, fun beyond further mismatch => ?_,
    gives_tcxoGate_within_counted on due, gives_tcxoGate_within_clears on due⟩
  · have h := gives_tcxoGate_further_beyond on due beyond further
    rwa [if_pos mismatch] at h
  · have h := gives_tcxoGate_further_beyond on due beyond further
    rwa [mismatch, if_neg Bool.false_ne_true] at h

end Sys2Proof.Machine
end
